-- ==== Sys2Proof/Word.lean ====
section
/-! DEFINITION. The word types of the part (R7, R13, R60): bytes, 32-bit registers, 64-bit pairs, 128-bit instruction words, 128-B lines. -/

namespace Sys2Proof

abbrev Byte := BitVec 8
/-- One thread register or group-uniform register (R13, R18). -/
abbrev Word := BitVec 32
/-- A register pair, a pointer, a counter. -/
abbrev DWord := BitVec 64
/-- One instruction word (R60), a quad, a barrier object (R211). -/
abbrev IWord := BitVec 128
/-- A 128-B line (R247), byte 0 in bits [7:0]. -/
abbrev Line := BitVec 1024

/-- A SHA-384 digest (R423), its first byte in the highest bits. -/
abbrev Digest := BitVec 384

end Sys2Proof
end

