-- ==== Sys2Proof/Syntax.lean ====
section
/-! DEFINITION. The abstract syntax: one constructor of `Instr` for each row of spec/opcode_table.json.
The first 178 are instructions (R71), with their common fields in `Ctl` and their operands decoded;
the others are the part's remaining indivisible steps (spec/95), with the unit they happen at and
what comes from outside the part as arguments. -/

namespace Sys2Proof

/-! ### Common fields and operands -/

/-- Guard mode GM of R62; 11 is illegal. -/
inductive GuardMode where
  | a | both | either
  deriving DecidableEq, Repr

/-- Schedule hint SH of R30; 11 is illegal. -/
inductive SchedHint where
  | none | yield | hold
  deriving DecidableEq, Repr

/-- A predicate source: index and negate bit (R62, R66). -/
structure PSrc where
  idx : Fin 8
  neg : Bool
  deriving DecidableEq, Repr

/-- A predicate destination q0 to q7 (R66). -/
abbrev PDst := Fin 8

/-- The common fields [31:12] of a word (R61). -/
structure Ctl where
  la : Fin 16
  ga : PSrc
  gb : PSrc
  gm : GuardMode
  ch : BitVec 4
  sh : SchedHint
  deriving DecidableEq, Repr

/-- A thread register number field (R66, kind 00). -/
abbrev VReg := Fin 1024
/-- A group-uniform register number (R18). -/
abbrev KReg := Fin 128

/-- A register operand of kind 00 or 01 (R66). -/
inductive Reg where
  | v (n : VReg)
  | k (n : KReg)
  deriving DecidableEq, Repr

/-- A source operand of kind 00, 01 or 10 (R66, R67). -/
inductive Src where
  | v (n : VReg)
  | k (n : KReg)
  | c (x : BitVec 10)
  deriving DecidableEq, Repr

/-- WD of R78. -/
inductive Wd where
  | w32 | w64 | w16 | w8
  deriving DecidableEq, Repr

/-- The common integer modifiers of R78. -/
structure IMod where
  wd : Wd
  un : Bool
  sat : Bool
  deriving DecidableEq, Repr

/-- COND of R85. -/
inductive ICond where
  | eq | ne | lt | le | gt | ge
  deriving DecidableEq, Repr

/-- BOP of R85. -/
inductive Bop where
  | none | and | or | xor
  deriving DecidableEq, Repr

/-- RM of R100: .rn, .ra, .rz, .rp and .rm (named dn here). -/
inductive Rnd where
  | rn | ra | rz | rp | dn
  deriving DecidableEq, Repr

/-- COND of R100. -/
inductive FCond where
  | eq | ne | lt | le | gt | ge | num | nan
  deriving DecidableEq, Repr

/-- The two forms of PMOV (R99). -/
inductive PmovForm where
  | toReg (d : Reg)
  | toPred (mask : BitVec 8) (a : Src)
  deriving DecidableEq, Repr

/-- MODE of LXCH (R139). -/
inductive XMode where
  | idx | dist | rot | bfly
  deriving DecidableEq, Repr

/-- OP of LPOLL with its destination (R139, R144). -/
inductive PollForm where
  | any (qd : PDst)
  | all (qd : PDst)
  | uni (qd : PDst)
  | mask (d : Reg)
  | count (d : Reg)
  deriving DecidableEq, Repr

/-- OP of LRED and LSCAN (R139). -/
inductive RedOp where
  | add | min | max | and | or | xor
  deriving DecidableEq, Repr

/-- TY of LRED and LSCAN (R139). -/
inductive RedTy where
  | s32 | n32 | f32
  deriving DecidableEq, Repr

/-- The object field of format M: OBJ16, or a k register (R64). -/
inductive ObjSel where
  | idx (i : BitVec 16)
  | k (n : KReg)
  deriving DecidableEq, Repr

/-- Address mode AM of R157. -/
inductive AM where
  | plain | el | ij | x64
  deriving DecidableEq, Repr

/-- A memory operand of format M with address mode (R157). -/
structure MemOp where
  obj : ObjSel
  am : AM
  a : Src
  off : Word
  deriving DecidableEq, Repr

/-- A memory operand of format M without an address mode: AM 00 (R157, R171, R223). -/
structure MemOp0 where
  obj : ObjSel
  a : Src
  off : Word
  deriving DecidableEq, Repr

/-- SZ and SX of a load (R161). -/
inductive LdSz where
  | b32 | b64 | b128 | n16 | s16 | n8 | s8
  deriving DecidableEq, Repr

/-- SZ of a store (R161). -/
inductive StSz where
  | b32 | b64 | b128 | b16 | b8
  deriving DecidableEq, Repr

/-- SZ of LDK (R161). -/
inductive LdkSz where
  | b32 | b64 | b128
  deriving DecidableEq, Repr

/-- OP of CLINE (R168). -/
inductive ClineOp where
  | wb | inv | wbinv | zero
  deriving DecidableEq, Repr

/-- SCOPE of R171. -/
inductive Scope where
  | pkg | thr | grp | clu | sec | die | pod | sys
  deriving DecidableEq, Repr

/-- ORDER of R171. -/
inductive Order where
  | rlx | acq | rel | ar
  deriving DecidableEq, Repr

/-- OP of ATOM and RED (R174). -/
inductive AtomOp where
  | add | minS | maxS | minU | maxU | and | or | xor | exch | inc | dec
  deriving DecidableEq, Repr

/-- OP of ATOMF (R176). -/
inductive AtomFOp where
  | addF32 | minF32 | maxF32 | addF64 | minF64 | maxF64 | addF16x2 | addBf16x2
  deriving DecidableEq, Repr

/-- OP of BANKOP and BANKRED (R177). -/
inductive BankOp where
  | add | min | max | mul | and | or | xor | set
  deriving DecidableEq, Repr

/-- TY of BANKOP and BANKRED (R177). -/
inductive BankTy where
  | s32 | n32 | f32 | b32
  deriving DecidableEq, Repr

/-- Where a copy completes: tag N, or its barrier object (R223). -/
inductive CopyDst where
  | tag (n : Fin 64)
  | bo
  deriving DecidableEq, Repr

/-- ORD of FENCE (R262). -/
inductive FenceOrd where
  | acq | rel | ar
  deriving DecidableEq, Repr

/-- CMP of WLOAD (R189). -/
inductive WCmp where
  | none | s24 | cb16
  deriving DecidableEq, Repr

/-- Region mode of R202. -/
inductive RegionMode where
  | exact | checked | tolerant
  deriving DecidableEq, Repr

/-- ACT of TRAPRET and ACTION of RESUME (R353, R377). -/
inductive TrapAct where
  | retry | skip | jump | kill
  deriving DecidableEq, Repr

/-- SEL of PARKRD (R353). -/
inductive ParkSel where
  | recd | reg | st | j
  deriving DecidableEq, Repr

/-- SEL of DLREAD (R297). -/
inductive DlSel where
  | now | dl | div | left
  deriving DecidableEq, Repr

/-! ### What comes from outside the part in an event -/

/-- Why an access that passed its checks is defeated (R180, R347): its own translation, a data error, or a link failure,
the last two with the detail of R342. -/
inductive AccFail where
  | xlate
  | dataError (detail : Nat)
  | linkFail (detail : Nat)
  deriving DecidableEq, Repr

/-- A natural late bit: position and bit of dC (R200, R209). -/
structure LateBit where
  row : Nat
  col : Nat
  bit : Nat
  deriving DecidableEq, Repr

/-- One reading of a stack's scrub registers: channel, new errors, physical address of the reported row (R412). -/
structure EcsReading where
  channel : Nat
  count : Nat
  rowPa : Nat
  rowBytes : Nat
  deriving DecidableEq, Repr

/-- A UALink request from another endpoint (R381, R382). -/
inductive UalReq where
  | read (off bytes : Nat)
  | write (off : Nat) (data : List Byte)
  | atom (op : AtomOp) (w64 : Bool) (off : Nat) (b : DWord)
  | cas (w64 : Bool) (off : Nat) (c n : DWord)
  | unsupported
  deriving DecidableEq, Repr

/-- A link of the package: a die's Lace port, a UALink port of a die, the bridge between two dies (R376, R381, R383). -/
inductive Link where
  | lace (die : Nat)
  | ual (die port : Nat)
  | bridge (d1 d2 : Nat)
  deriving DecidableEq, Repr

/-! ### Instructions and events -/

/-- One constructor for each row of spec/opcode_table.json. -/
inductive Instr where
  -- class 0x0 (R81)
  | iadd (c : Ctl) (m : IMod) (d : Reg) (a b : Src)
  | isub (c : Ctl) (m : IMod) (d : Reg) (a b : Src)
  | iadd3 (c : Ctl) (m : IMod) (d : Reg) (a b e : Src)
  | imul (c : Ctl) (m : IMod) (d : Reg) (a b : Src)
  | imulhi (c : Ctl) (m : IMod) (d : Reg) (a b : Src)
  | imad (c : Ctl) (m : IMod) (d : Reg) (a b e : Src)
  | imadw (c : Ctl) (m : IMod) (d : Reg) (a b e : Src)
  | idiv (c : Ctl) (m : IMod) (d : Reg) (a b : Src)
  | irem (c : Ctl) (m : IMod) (d : Reg) (a b : Src)
  | imin (c : Ctl) (m : IMod) (d : Reg) (a b : Src)
  | imax (c : Ctl) (m : IMod) (d : Reg) (a b : Src)
  | iabs (c : Ctl) (m : IMod) (d : Reg) (a : Src)
  | ineg (c : Ctl) (m : IMod) (d : Reg) (a : Src)
  | isad (c : Ctl) (m : IMod) (d : Reg) (a b e : Src)
  | icmp (c : Ctl) (m : IMod) (cond : ICond) (bop : Bop) (qd : PDst) (a b : Src) (p : PSrc)
  | isel (c : Ctl) (m : IMod) (d : Reg) (a b : Src) (p : PSrc)
  | iaddi (c : Ctl) (m : IMod) (d : Reg) (a : Src) (imm : Word)
  | imuli (c : Ctl) (m : IMod) (d : Reg) (a : Src) (imm : Word)
  | icmpi (c : Ctl) (m : IMod) (cond : ICond) (bop : Bop) (qd : PDst) (a : Src) (imm : Word) (p : PSrc)
  | lea (c : Ctl) (m : IMod) (sh : Fin 16) (d : Reg) (a b : Src)
  | idot4 (c : Ctl) (sat ua ub : Bool) (d : Reg) (a b e : Src)
  | idot2 (c : Ctl) (sat ua ub : Bool) (d : Reg) (a b e : Src)
  | mov (c : Ctl) (m : IMod) (d : Reg) (a : Src)
  | movi (c : Ctl) (m : IMod) (d : Reg) (imm : Word)
  | movw (c : Ctl) (d : Reg) (imm : DWord)
  -- class 0x1 (R90)
  | and (c : Ctl) (w64 : Bool) (d : Reg) (a b : Src)
  | or (c : Ctl) (w64 : Bool) (d : Reg) (a b : Src)
  | xor (c : Ctl) (w64 : Bool) (d : Reg) (a b : Src)
  | andn (c : Ctl) (w64 : Bool) (d : Reg) (a b : Src)
  | not (c : Ctl) (w64 : Bool) (d : Reg) (a : Src)
  | ltab (c : Ctl) (w64 : Bool) (lut : BitVec 8) (d : Reg) (a b e : Src)
  | ltabi (c : Ctl) (lut : BitVec 8) (d : Reg) (a b : Src) (imm : Word)
  | ptab (c : Ctl) (lut : BitVec 8) (qd : PDst) (pa pb pc : PSrc)
  | shl (c : Ctl) (w64 wrap : Bool) (d : Reg) (a n : Src)
  | shr (c : Ctl) (w64 wrap : Bool) (d : Reg) (a n : Src)
  | sar (c : Ctl) (w64 wrap : Bool) (d : Reg) (a n : Src)
  | rotl (c : Ctl) (w64 : Bool) (d : Reg) (a n : Src)
  | fshf (c : Ctl) (w64 wrap right : Bool) (d : Reg) (hi lo n : Src)
  | bfx (c : Ctl) (w64 un : Bool) (d : Reg) (a pos len : Src)
  | bfi (c : Ctl) (w64 : Bool) (d : Reg) (ins base pos len : Src)
  | popc (c : Ctl) (w64 : Bool) (d : Reg) (a : Src)
  | clz (c : Ctl) (w64 : Bool) (d : Reg) (a : Src)
  | ctz (c : Ctl) (w64 : Bool) (d : Reg) (a : Src)
  | brev (c : Ctl) (w64 : Bool) (d : Reg) (a : Src)
  | bperm (c : Ctl) (d : Reg) (a b sel : Src)
  | clmul (c : Ctl) (w64 : Bool) (d : Reg) (a b : Src)
  | clmulh (c : Ctl) (w64 : Bool) (d : Reg) (a b : Src)
  | pmov (c : Ctl) (form : PmovForm)
  -- class 0x2 (R102)
  | fadd (c : Ctl) (f64 : Bool) (rm : Rnd) (d : Reg) (a b : Src)
  | fsub (c : Ctl) (f64 : Bool) (rm : Rnd) (d : Reg) (a b : Src)
  | fmul (c : Ctl) (f64 : Bool) (rm : Rnd) (d : Reg) (a b : Src)
  | ffma (c : Ctl) (f64 : Bool) (rm : Rnd) (d : Reg) (a b e : Src)
  | faddi (c : Ctl) (f64 : Bool) (rm : Rnd) (d : Reg) (a : Src) (imm : Word)
  | fmuli (c : Ctl) (f64 : Bool) (rm : Rnd) (d : Reg) (a : Src) (imm : Word)
  | ffmai (c : Ctl) (f64 : Bool) (rm : Rnd) (d : Reg) (a b : Src) (imm : Word)
  | fmin (c : Ctl) (f64 : Bool) (d : Reg) (a b : Src)
  | fmax (c : Ctl) (f64 : Bool) (d : Reg) (a b : Src)
  | fcmp (c : Ctl) (f64 : Bool) (cond : FCond) (bop : Bop) (qd : PDst) (a b : Src) (p : PSrc)
  | fclass (c : Ctl) (f64 : Bool) (mask : BitVec 9) (qd : PDst) (a : Src)
  -- class 0x3 (R108 to R120)
  | hadd2 (c : Ctl) (bf : Bool) (rm : Rnd) (d : Reg) (a b : Src)
  | hmul2 (c : Ctl) (bf : Bool) (rm : Rnd) (d : Reg) (a b : Src)
  | hfma2 (c : Ctl) (bf : Bool) (rm : Rnd) (d : Reg) (a b e : Src)
  | hmin2 (c : Ctl) (bf : Bool) (d : Reg) (a b : Src)
  | hmax2 (c : Ctl) (bf : Bool) (d : Reg) (a b : Src)
  | hcmp2 (c : Ctl) (bf : Bool) (cond : FCond) (bop : Bop) (qd qe : PDst) (a b : Src) (p : PSrc)
  | fdot2 (c : Ctl) (bf : Bool) (rm : Rnd) (d : Reg) (a b e : Src)
  | cvt (c : Ctl) (df sf : BitVec 4) (rm : Rnd) (sat : Bool) (d : Reg) (a : Src)
  | cvtpk (c : Ctl) (df sf : BitVec 4) (rm : Rnd) (sat : Bool) (d : Reg) (a b x e : Src)
  | f2i (c : Ctl) (sf : BitVec 4) (iw : Wd) (iu : Bool) (rm : Rnd) (sat : Bool) (d : Reg) (a : Src)
  | i2f (c : Ctl) (df : BitVec 4) (iw : Wd) (iu : Bool) (rm : Rnd) (sat : Bool) (d : Reg) (a : Src)
  | frnd (c : Ctl) (f64 : Bool) (rm : Rnd) (d : Reg) (a : Src)
  | scalex (c : Ctl) (f64 : Bool) (rm : Rnd) (d : Reg) (a n : Src)
  | qblk (c : Ctl) (f4x nosp : Bool) (rm : Rnd) (d : Reg) (a : Src)
  | dqblk (c : Ctl) (f4x : Bool) (rm : Rnd) (d : Reg) (a : Src)
  -- class 0x4 (R121)
  | rcp (c : Ctl) (d : Reg) (a : Src)
  | rsq (c : Ctl) (d : Reg) (a : Src)
  | sqrt (c : Ctl) (f64 : Bool) (rm : Rnd) (d : Reg) (a : Src)
  | ex2 (c : Ctl) (d : Reg) (a : Src)
  | lg2 (c : Ctl) (d : Reg) (a : Src)
  | sin (c : Ctl) (d : Reg) (a : Src)
  | cos (c : Ctl) (d : Reg) (a : Src)
  | tanh (c : Ctl) (d : Reg) (a : Src)
  | sigm (c : Ctl) (d : Reg) (a : Src)
  | fdiv (c : Ctl) (f64 : Bool) (rm : Rnd) (d : Reg) (a b : Src)
  -- class 0x5 (R139)
  | lxch (c : Ctl) (w64 : Bool) (mode : XMode) (seg : Fin 6) (qe : Option PDst) (d : Reg) (a b m : Src)
  | lpoll (c : Ctl) (form : PollForm) (pa : PSrc) (m : Src)
  | lpeer (c : Ctl) (w64 same : Bool) (d : Reg) (a m : Src)
  | lred (c : Ctl) (op : RedOp) (ty : RedTy) (d : Reg) (a m : Src)
  | lscan (c : Ctl) (op : RedOp) (ty : RedTy) (excl : Bool) (d : Reg) (a m : Src)
  | llead (c : Ctl) (hi : Bool) (qd : PDst) (m : Src)
  | lbcast (c : Ctl) (w64 : Bool) (d : Reg) (a b m : Src)
  -- class 0x6 (R125 to R138)
  | bra (c : Ctl) (imm : DWord)
  | call (c : Ctl) (d : VReg) (imm : DWord)
  | brx (c : Ctl) (rel : Bool) (a : Reg)
  | callx (c : Ctl) (rel : Bool) (d : VReg) (a : Reg)
  | ret (c : Ctl) (a : Reg)
  | joinset (c : Ctl) (j : Fin 16) (imm : DWord)
  | joinwait (c : Ctl) (j : Fin 16)
  | joindrop (c : Ctl) (j : Fin 16)
  | exit (c : Ctl)
  | yield (c : Ctl)
  | nop (c : Ctl)
  | sleep (c : Ctl) (n : Word)
  | ipf (c : Ctl) (n : BitVec 8) (level : Fin 3) (imm : DWord)
  -- class 0x7 (R161)
  | ld (c : Ctl) (sz : LdSz) (d : VReg) (mem : MemOp)
  | st (c : Ctl) (sz : StSz) (mem : MemOp) (b : Src)
  | ldk (c : Ctl) (sz : LdkSz) (d : KReg) (mem : MemOp)
  | lds (c : Ctl) (sz : LdSz) (d : VReg) (a : Src) (imm : Word)
  | sts (c : Ctl) (sz : StSz) (a : Src) (imm : Word) (b : Src)
  | ldg (c : Ctl) (sz : LdSz) (d : VReg) (a : Reg) (imm : Word)
  | stg (c : Ctl) (sz : StSz) (a : Reg) (imm : Word) (b : Src)
  | prf (c : Ctl) (l2 : Bool) (mem : MemOp)
  | cline (c : Ctl) (op : ClineOp) (mem : MemOp)
  | objrd (c : Ctl) (hi : Bool) (d : VReg) (obj : ObjSel)
  | otsync (c : Ctl)
  -- class 0x8 (R171, R177)
  | atom (c : Ctl) (op : AtomOp) (w64 : Bool) (sc : Scope) (ord : Order) (d : Reg) (mem : MemOp0) (b : Src)
  | atomcas (c : Ctl) (w64 : Bool) (sc : Scope) (ord : Order) (d : Reg) (mem : MemOp0) (b : Reg)
  | red (c : Ctl) (op : AtomOp) (w64 : Bool) (sc : Scope) (ord : Order) (mem : MemOp0) (b : Src)
  | atomf (c : Ctl) (op : AtomFOp) (noret : Bool) (sc : Scope) (ord : Order) (d : Reg) (mem : MemOp0) (b : Src)
  | bankop (c : Ctl) (op : BankOp) (ty : BankTy) (sc : Scope) (ord : Order) (mem : MemOp0) (b : Reg)
  | bankred (c : Ctl) (op : BankOp) (ty : BankTy) (sc : Scope) (ord : Order) (d : Reg) (mem : MemOp0) (n : Src)
  -- class 0x9 (R223, R232)
  | cpy (c : Ctl) (dst : CopyDst) (mem : MemOp0) (b : Reg)
  | cpyt (c : Ctl) (dst : CopyDst) (st : Bool) (mem : MemOp0) (b : Reg)
  | cpymc (c : Ctl) (dst : CopyDst) (mem : MemOp0) (b : Reg)
  | waitany (c : Ctl) (qe : Option PDst) (d : Reg) (m : Src)
  | waitall (c : Ctl) (qe : Option PDst) (d : Reg) (m : Src)
  | ffr (c : Ctl) (d : Reg) (m : Src)
  | tagclr (c : Ctl) (m : Src)
  | tagrd (c : Ctl) (d : Reg) (t : Src)
  -- class 0xA (R215, R220, R262, R268, R273)
  | bar (c : Ctl) (arv : Bool) (id : Fin 16) (n : Src)
  | fence (c : Ctl) (ord : FenceOrd) (sc : Scope)
  | boinit (c : Ctl) (a : Reg) (imm : Word) (b : Src)
  | boexpect (c : Ctl) (add : Bool) (a : Reg) (imm : Word) (b : Src)
  | boarrive (c : Ctl) (tx : Bool) (sc : Scope) (ret : Option Reg) (a : Reg) (imm : Word) (b : Src)
  | bowait (c : Ctl) (sc : Scope) (d a : Reg) (imm : Word) (b : Src)
  | botest (c : Ctl) (sc : Scope) (d a : Reg) (imm : Word) (b : Src)
  | acq (c : Ctl) (sh : Bool) (qd : Option PDst) (obj : ObjSel)
  | tryacq (c : Ctl) (sh : Bool) (qd : PDst) (obj : ObjSel)
  | rel (c : Ctl) (obj : ObjSel)
  | publish (c : Ctl) (obj : ObjSel)
  -- class 0xB (R189 to R208)
  | mma (c : Ctl) (p : VReg)
  | wload (c : Ctl) (bfmt : BitVec 4) (cmp : WCmp) (bscl : Bool) (buf : Fin 2) (mem : MemOp0) (b : Reg)
  | wdrop (c : Ctl) (buf : Fin 2)
  | accld (c : Ctl) (fmt : BitVec 4) (mem : MemOp0) (b : Reg)
  | accst (c : Ctl) (fmt : BitVec 4) (rm : Rnd) (sat : Bool) (mem : MemOp0) (b : Reg)
  | accz (c : Ctl) (a : Reg)
  | mregion (c : Ctl) (mode : RegionMode) (a : Option Reg)
  | mstat (c : Ctl) (d : VReg) (a : Option Src)
  | mcancel (c : Ctl) (a : Option Src)
  -- class 0xC (R237 to R244)
  | wtalloc (c : Ctl) (try_ : Bool) (d : Reg) (obj : ObjSel) (b : Reg)
  | wsend (c : Ctl) (a : Reg) (b : Src) (rank : Fin 8) (size : Fin 16) (ctag : Fin 64)
  | wtfree (c : Ctl) (a : Reg)
  | wtquery (c : Ctl) (d a : Reg)
  | wtrenew (c : Ctl) (a : Reg) (b : Src)
  -- class 0xD (R282 to R302)
  | awlnext (c : Ctl) (d : Reg) (qe : PDst)
  | awlpeek (c : Ctl) (d : Reg)
  | emit (c : Ctl) (qd : Option PDst) (obj : ObjSel) (b : Reg)
  | emitclose (c : Ctl) (obj : ObjSel)
  | spawn (c : Ctl) (wait : Bool) (gs : Fin 8) (d : VReg) (a : Reg) (imm : DWord)
  | lastsel (c : Ctl) (d : Reg) (qb : PDst) (obj : Option ObjSel)
  | padmask (c : Ctl) (n : Fin 8) (qd qe : PDst) (a : Src)
  | dlread (c : Ctl) (sel : DlSel) (qe : Option PDst) (d : Reg)
  | commit (c : Ctl) (part : Bool) (a : Src)
  | idembeg (c : Ctl) (f : BitVec 10) (n : Fin 64)
  | idemend (c : Ctl)
  | wrapdone (c : Ctl)
  -- class 0xE (R147 to R150, R253, R353, R358)
  | sysrd (c : Ctl) (w64 : Bool) (sel : BitVec 12) (d : Reg)
  | syswr (c : Ctl) (w64 : Bool) (sel : BitVec 12) (a : Src)
  | trap (c : Ctl) (code : BitVec 16)
  | bkpt (c : Ctl) (code : BitVec 16)
  | cntrd (c : Ctl) (w64 : Bool) (ctr : BitVec 10) (d : Reg)
  | cntcfg (c : Ctl) (gc : Fin 4) (a : Src)
  | wayset (c : Ctl) (n : Fin 16)
  | trapret (c : Ctl) (act : TrapAct) (disc : Bool) (a : Reg) (b : Reg) (m : Src)
  | parkrd (c : Ctl) (sel : ParkSel) (d : VReg) (a : Reg) (n : Src)
  | oplog (c : Ctl) (d : VReg) (a : Reg) (n : Src)
  | replay (c : Ctl) (d a : Reg)
  | errinj (c : Ctl) (a : Reg)
  -- the core's and walker's events
  | objectCacheFill (core part idx : Nat) (err : Bool)
  | loadComplete (core id : Nat)
  | accessLogged (core id : Nat) (why : AccFail)
  | storePerform (core id : Nat) (why : Option AccFail)
  | pageWalk (core part va : Nat)
  | recordRetry (part : Nat)
  | s2fault (die : Nat)
  | sleepEnd (thread : Nat)
  | yieldEnd (thread : Nat)
  -- the engine's events
  | requestAccept (cluster : Nat)
  | requestGrant (cluster : Nat)
  | attemptCheck (cluster id : Nat) (late : List LateBit) (ecc : Bool)
  | passComplete (cluster id : Nat) (ecc : Bool)
  | wloadComplete (cluster id : Nat) (why : Option AccFail)
  | wdropComplete (cluster id : Nat)
  | transferComplete (cluster id : Nat) (why : Option AccFail)
  -- copies, welt, sync, publication
  | copyEnd (id : Nat) (why : Option AccFail)
  | cpymcBranchArrival (id branch : Nat)
  | weltArrival (id : Nat)
  | roundDelivery (id : Nat) (why : Option AccFail)
  | orphanExpiry (part tag : Nat)
  | syncRequestArrival (id : Nat)
  | syncReleasePerform (id : Nat)
  | versionIncrement (id : Nat)
  | waysetTakesEffect (core : Nat)
  | recordEnqueue (id : Nat)
  | regionArmed (group : Nat)
  -- launches and the scheduler
  | diversion (die launch : Nat)
  | deadlineTermination (die launch : Nat)
  | quantumEnd (launch : Nat)
  | schedulerDecision (die part : Nat)
  | bankExchange (core : Nat)
  | spillFill (core : Nat)
  | launchCompletion (launch : Nat)
  -- queues and packets
  | packetFetch (queue : Nat) (why : Option AccFail) (capFault : Bool)
  | slotPollTimeout (queue : Nat)
  | tornRepoll (queue : Nat)
  | launch (queue : Nat) (why : Option AccFail)
  | wait (queue : Nat)
  | waitPoll (queue : Nat) (why : Option AccFail)
  | heldRelease (queue : Nat)
  | signal (queue : Nat) (why : Option AccFail)
  | xfer (queue : Nat)
  | modload (queue : Nat) (why : Option AccFail)
  | moddrop (queue : Nat)
  | moddropComplete (queue : Nat)
  | graph (queue : Nat) (why : Option AccFail)
  | preemptRequeue (queue : Nat)
  | preemptSuspend (queue : Nat)
  | preemptResume (queue : Nat)
  | preemptCancel (queue : Nat)
  | apertureGate (part : Nat)
  | apertureUngate (part : Nat)
  -- driver register writes with behaviour of their own
  | invalidationComplete (part : Nat) (stage2 : Bool)
  | ualcfgTakesEffect (die : Nat)
  | railStep (cluster : Nat)
  | railSettled (cluster : Nat)
  | dividerChange (cluster : Nat)
  | controllerSample (cluster : Nat)
  | snapshotRefresh (slice : Nat)
  -- mailbox requests (R424)
  | partitionFreed (part : Nat)
  -- clocks, links, host, power
  | unassignedOpcode (w : IWord)
  | instructionLineFill (core line : Nat) (parityErr : Bool)
  | sfuDivResult (core id : Nat) (bad : Bool)
  | scratchZeroFill (core : Nat)
  | xferComplete (queue : Nat) (why : Option AccFail)
  -- from outside the part: the driver, the hypervisor's mailbox, links, power (never built by the model itself)
  | launchRegisterStore (queue : Nat) (bytes : List Byte)
  | qcfgEnSet (queue : Nat) (v : DWord)
  | qcfgEnClear (queue : Nat) (v : DWord)
  | qctlResume (queue : Nat)
  | qctlSkip (queue : Nat)
  | resumeReplay (part : Nat) (handle : Word) (secure : Bool)
  | resumeRetry (part : Nat) (handle : Word) (secure : Bool)
  | resumeSkip (part : Nat) (handle : Word) (secure : Bool)
  | resumeKill (part : Nat) (handle : Word) (secure : Bool)
  | frtailWrite (part : Nat) (v : Word)
  | s1inval (part : Nat) (v : DWord)
  | registerWrite (fn off : Nat) (v : DWord)
  | bankcfgWrite (die : Nat) (v : DWord)
  | ualcfgRetrain (die : Nat) (v : DWord)
  | rcvsetWrite (cluster : Nat) (v : DWord)
  | rcfsetWrite (cluster : Nat) (v : DWord)
  | calvsafe (v : DWord)
  | calvsafeRun (vmin : List (Option Nat))
  | htrain (stack : Nat) (v : DWord)
  | hbmTrainingDone (stack : Nat) (ok : Bool)
  | ecsRead (stack : Nat) (readings : List EcsReading)
  | s2map (die part seq : Nat) (gpa pa bytes : Nat) (r w x : Bool)
  | s2unmap (die part seq : Nat) (gpa bytes : Nat)
  | s2root (die part seq : Nat) (pa : Nat)
  | pcreate (die part seq : Nat) (test : Bool)
  | pdestroy (die part seq : Nat)
  | s2reply (die part seq : Nat) (handle : Word) (mapped : Bool)
  | fwstage (die seq : Nat) (pa bytes : Nat) (sigOk : Bool)
  | fwactivate (seq : Nat)
  | attest (die seq : Nat) (pa : Nat) (nonce : List Byte)
  | ptpSync (within : List Bool)
  | flitReplay (link : Link) (ok : Bool)
  | bridgeRetrain (d1 d2 : Nat)
  | ualinkRequest (die part : Nat) (req : UalReq)
  | bar4Access (pa : Nat) (write : Option (List Byte)) (bytes : Nat) (ue : Bool)
  | powerOn (romOk trainOk : List Bool)
  | laceRetrain (die : Nat)
  | ptpAnnounceTimeout
  | coldReset
  | powerOff
  deriving DecidableEq, Repr

end Sys2Proof
end

