-- ==== Sys2Proof/WellFormed.lean ====
section
/-! DEFINITION. The checks of R68 step 3 that the types of `Syntax` do not already make: a word whose fields fail one of
them traps ILLEGAL_ENCODING. Each is a Bool; `Instr.wf` gathers them by instruction. -/

namespace Sys2Proof

/-- A register operand of `n` registers starts at a multiple of `n` (R13, R66). -/
def Reg.al (n : Nat) : Reg → Bool
  | .v r => r.val % n == 0
  | .k r => r.val % n == 0

/-- As `Reg.al` for a source; a constant has no alignment. -/
def Src.al (n : Nat) : Src → Bool
  | .v r => r.val % n == 0
  | .k r => r.val % n == 0
  | .c _ => true

def Src.isC : Src → Bool
  | .c _ => true
  | _ => false

def Src.isV : Src → Bool
  | .v _ => true
  | _ => false

/-- How many registers a width takes (R13, R79). -/
def Wd.nregs : Wd → Nat
  | .w64 => 2
  | _ => 1

def nregs64 (w64 : Bool) : Nat := if w64 then 2 else 1

def Wd.is3264 : Wd → Bool
  | .w32 | .w64 => true
  | _ => false

/-- GB is zero under GM = 00 (R62), and CH is zero where the opcode does not accept it (R65). -/
def Ctl.ok (acceptsCH : Bool) (c : Ctl) : Bool :=
  (c.gm != .a || c.gb == ⟨0, false⟩) && (acceptsCH || c.ch == 0)

/-- The predicate field of a compare is zero with BOP = 00 (R81, R102). -/
def Bop.pOk (b : Bop) (p : PSrc) : Bool := b != .none || p == ⟨0, false⟩

/-- RM on an 8-bit destination is .ra or none (R49, R100). -/
def Rnd.ok8 : Rnd → Bool
  | .rn | .ra => true
  | _ => false

/-- Format codes of R39. -/
abbrev Fmt := BitVec 4

def Fmt.isFloat (f : Fmt) : Bool := 1 ≤ f.toNat && f.toNat ≤ 6
def Fmt.is8 (f : Fmt) : Bool := f == 5 || f == 6
def Fmt.nregs (f : Fmt) : Nat := if f == 1 then 2 else 1
/-- A constant has no expansion for an 8-bit format (R67). -/
def Fmt.constOk (f : Fmt) (a : Src) : Bool := !a.isC || (1 ≤ f.toNat && f.toNat ≤ 4)

def LdSz.nregs : LdSz → Nat
  | .b64 => 2
  | .b128 => 4
  | _ => 1

def StSz.nregs : StSz → Nat
  | .b64 => 2
  | .b128 => 4
  | _ => 1

def LdkSz.nregs : LdkSz → Nat
  | .b32 => 1
  | .b64 => 2
  | .b128 => 4

/-- AM 10 and 11 take a register pair in A (R157). -/
def MemOp.ok (m : MemOp) : Bool :=
  match m.am with
  | .plain | .el => true
  | .ij | .x64 => !m.a.isC && m.a.al 2

/-- R67 gives no constant of 128 bits. -/
def StSz.bOk (z : StSz) (b : Src) : Bool := b.al z.nregs && !(z == .b128 && b.isC)

/-- The legal pairs of R177. -/
def bankPairOk (op : BankOp) (ty : BankTy) (isOp : Bool) : Bool :=
  match op with
  | .add | .min | .max => ty != .b32
  | .mul => isOp && ty != .b32
  | .and | .or | .xor => ty == .b32
  | .set => isOp && ty == .b32

/-- LRED and LSCAN types (R139). -/
def redOk (op : RedOp) (ty : RedTy) : Bool :=
  match op with
  | .add | .min | .max => true
  | .and | .or | .xor => ty == .s32

def AtomFOp.nregs : AtomFOp → Nat
  | .addF64 | .minF64 | .maxF64 => 2
  | _ => 1

/-- The selectors of R19. -/
def sysSelOk (sel : BitVec 12) : Bool :=
  let n := sel.toNat
  n ≤ 8 || n == 0x10 || (0x20 ≤ n && n ≤ 0x24) || n == 0x30 || n == 0x31 ||
    (0x38 ≤ n && n ≤ 0x3A) || (0x40 ≤ n && n ≤ 0x48)

/-- The selectors of R403. -/
def cntSelOk (sel : BitVec 10) : Bool :=
  let n := sel.toNat
  n ≤ 3 || (0x10 ≤ n && n ≤ 0x1B) || (0x100 ≤ n && n ≤ 0x118) || (0x200 ≤ n && n ≤ 0x20F) ||
    (0x300 ≤ n && n ≤ 0x35F)

def Rnd.isRn : Rnd → Bool
  | .rn => true
  | _ => false

/-- The assigned opcodes of R71. -/
def opcAssigned (o : Nat) : Bool :=
  o ≤ 0x018 || (0x100 ≤ o && o ≤ 0x114) || o == 0x116 || o == 0x117 ||
  (0x200 ≤ o && o ≤ 0x206) || o == 0x208 || (0x20A ≤ o && o ≤ 0x20C) ||
  (0x300 ≤ o && o ≤ 0x30E) || (0x400 ≤ o && o ≤ 0x409) || (0x500 ≤ o && o ≤ 0x506) ||
  (0x600 ≤ o && o ≤ 0x60C) ||
  (0x700 ≤ o && o ≤ 0x704) || (0x706 ≤ o && o ≤ 0x70B) || (0x800 ≤ o && o ≤ 0x805) ||
  (0x900 ≤ o && o ≤ 0x902) || (0x904 ≤ o && o ≤ 0x908) || (0xA00 ≤ o && o ≤ 0xA0A) ||
  (0xB00 ≤ o && o ≤ 0xB08) || (0xC00 ≤ o && o ≤ 0xC04) || (0xD00 ≤ o && o ≤ 0xD0B) ||
  (0xE00 ≤ o && o ≤ 0xE05) || o == 0xE06 || (0xE07 ≤ o && o ≤ 0xE0B)

/-- The encoding checks of one instruction (R64 to R68); an event has no encoding. -/
def Instr.wf : Instr → Bool
  | .iadd c m d a b | .isub c m d a b => c.ok false && d.al m.wd.nregs && a.al m.wd.nregs && b.al m.wd.nregs
  | .iadd3 c m d a b e => c.ok false && m.wd.is3264 && d.al m.wd.nregs && a.al m.wd.nregs && b.al m.wd.nregs && e.al m.wd.nregs
  | .imul c m d a b => c.ok false && m.wd != .w8 && d.al m.wd.nregs && a.al m.wd.nregs && b.al m.wd.nregs
  | .imulhi c m d a b | .idiv c m d a b | .irem c m d a b =>
    c.ok false && m.wd.is3264 && !m.sat && d.al m.wd.nregs && a.al m.wd.nregs && b.al m.wd.nregs
  | .imad c m d a b e => c.ok false && m.wd != .w8 && d.al m.wd.nregs && a.al m.wd.nregs && b.al m.wd.nregs && e.al m.wd.nregs
  | .imadw c m d _ _ e => c.ok false && m.wd == .w32 && d.al 2 && e.al 2
  | .imin c m d a b | .imax c m d a b => c.ok false && !m.sat && d.al m.wd.nregs && a.al m.wd.nregs && b.al m.wd.nregs
  | .iabs c m d a | .ineg c m d a => c.ok false && !m.un && d.al m.wd.nregs && a.al m.wd.nregs
  | .isad c m _ _ _ _ => c.ok false && m.wd != .w64 && !m.sat
  | .icmp c m _ bop _ a b p => c.ok false && !m.sat && bop.pOk p && a.al m.wd.nregs && b.al m.wd.nregs
  | .isel c m d a b _ => c.ok false && m.wd.is3264 && !m.un && !m.sat && d.al m.wd.nregs && a.al m.wd.nregs && b.al m.wd.nregs
  | .iaddi c m d a _ | .imuli c m d a _ => c.ok false && m.wd.is3264 && d.al m.wd.nregs && a.al m.wd.nregs
  | .icmpi c m _ bop _ a _ p => c.ok false && m.wd.is3264 && !m.sat && bop.pOk p && a.al m.wd.nregs
  | .lea c m _ d a _ => c.ok false && m.wd.is3264 && !m.sat && d.al m.wd.nregs && a.al m.wd.nregs
  | .idot4 c _ _ _ _ _ _ _ | .idot2 c _ _ _ _ _ _ _ => c.ok false
  | .mov c m d a => c.ok false && m.wd.is3264 && !m.un && !m.sat && d.al m.wd.nregs && a.al m.wd.nregs
  | .movi c m d _ => c.ok false && !m.sat && ((m.wd == .w32 && !m.un) || m.wd == .w64) && d.al m.wd.nregs
  | .movw c d _ => c.ok false && d.al 2
  | .and c w d a b | .or c w d a b | .xor c w d a b | .andn c w d a b | .clmul c w d a b | .clmulh c w d a b =>
    c.ok false && d.al (nregs64 w) && a.al (nregs64 w) && b.al (nregs64 w)
  | .not c w d a | .brev c w d a => c.ok false && d.al (nregs64 w) && a.al (nregs64 w)
  | .ltab c w _ d a b e => c.ok false && d.al (nregs64 w) && a.al (nregs64 w) && b.al (nregs64 w) && e.al (nregs64 w)
  | .ltabi c _ _ _ _ _ => c.ok false
  | .ptab c _ _ _ _ _ => c.ok false
  | .shl c w _ d a _ | .shr c w _ d a _ | .sar c w _ d a _ => c.ok false && d.al (nregs64 w) && a.al (nregs64 w)
  | .rotl c w d a _ => c.ok false && d.al (nregs64 w) && a.al (nregs64 w)
  | .fshf c w _ _ d hi lo _ => c.ok false && d.al (nregs64 w) && hi.al (nregs64 w) && lo.al (nregs64 w)
  | .bfx c w _ d a _ _ => c.ok false && d.al (nregs64 w) && a.al (nregs64 w)
  | .bfi c w d ins base _ _ => c.ok false && d.al (nregs64 w) && ins.al (nregs64 w) && base.al (nregs64 w)
  | .popc c w _ a | .clz c w _ a | .ctz c w _ a => c.ok false && a.al (nregs64 w)
  | .bperm c _ _ _ _ => c.ok false
  | .pmov c _ => c.ok false
  | .fadd c f _ d a b | .fsub c f _ d a b | .fmul c f _ d a b | .fdiv c f _ d a b =>
    c.ok false && d.al (nregs64 f) && a.al (nregs64 f) && b.al (nregs64 f)
  | .ffma c f _ d a b e => c.ok false && d.al (nregs64 f) && a.al (nregs64 f) && b.al (nregs64 f) && e.al (nregs64 f)
  | .faddi c f _ d a _ | .fmuli c f _ d a _ => c.ok false && d.al (nregs64 f) && a.al (nregs64 f)
  | .ffmai c f _ d a b _ => c.ok false && d.al (nregs64 f) && a.al (nregs64 f) && b.al (nregs64 f)
  | .fmin c f d a b | .fmax c f d a b => c.ok false && d.al (nregs64 f) && a.al (nregs64 f) && b.al (nregs64 f)
  | .fcmp c f _ bop _ a b p => c.ok false && bop.pOk p && a.al (nregs64 f) && b.al (nregs64 f)
  | .fclass c f _ _ a => c.ok false && a.al (nregs64 f)
  | .hadd2 c _ _ _ _ _ | .hmul2 c _ _ _ _ _ => c.ok false
  | .hfma2 c _ _ _ _ _ _ | .fdot2 c _ _ _ _ _ _ => c.ok false
  | .hmin2 c _ _ _ _ | .hmax2 c _ _ _ _ => c.ok false
  | .hcmp2 c _ _ bop _ _ _ _ p => c.ok false && bop.pOk p
  | .cvt c df sf rm sat d a =>
    c.ok false && Fmt.isFloat df && (Fmt.isFloat sf || sf == 9) && (!Fmt.is8 df || rm.ok8) && (!sat || df == 5) &&
      d.al (Fmt.nregs df) && a.al (Fmt.nregs sf) && Fmt.constOk sf a
  | .cvtpk c df sf rm sat _ _ _ x e =>
    c.ok false && ((sf == 2 && (df == 3 || df == 4 || Fmt.is8 df)) || ((sf == 3 || sf == 4) && Fmt.is8 df)) &&
      (!Fmt.is8 df || rm.ok8) && (!sat || df == 5) && (Fmt.is8 df || (x == .v 0 && e == .v 0))
  | .f2i c sf iw _ rm _ d a => c.ok false && Fmt.isFloat sf && (iw != .w8 || rm.ok8) && d.al iw.nregs && a.al (Fmt.nregs sf) && Fmt.constOk sf a
  | .i2f c df iw _ rm sat d a => c.ok false && Fmt.isFloat df && (!Fmt.is8 df || rm.ok8) && (!sat || df == 5) && d.al (Fmt.nregs df) && a.al iw.nregs
  | .frnd c f _ d a => c.ok false && d.al (nregs64 f) && a.al (nregs64 f)
  | .scalex c f _ d a _ => c.ok false && d.al (nregs64 f) && a.al (nregs64 f)
  | .qblk c f4x nosp rm _ _ => c.ok false && rm.ok8 && (f4x || !nosp)
  | .dqblk c _ _ _ _ => c.ok false
  | .rcp c _ _ | .rsq c _ _ | .ex2 c _ _ | .lg2 c _ _ | .sin c _ _ | .cos c _ _ | .tanh c _ _ | .sigm c _ _ => c.ok false
  | .sqrt c f _ d a => c.ok false && d.al (nregs64 f) && a.al (nregs64 f)
  | .lxch c w _ _ _ d a _ m => c.ok false && d.al (nregs64 w) && a.al (nregs64 w) && m.al 2
  | .lpoll c form _ m => c.ok false && m.al 2 && (match form with | .mask d => d.al 2 | _ => true)
  | .lpeer c w _ d a m => c.ok false && d.al 2 && a.al (nregs64 w) && m.al 2
  | .lred c op ty _ _ m => c.ok false && redOk op ty && m.al 2
  | .lscan c op ty _ _ _ m => c.ok false && redOk op ty && m.al 2
  | .llead c _ _ m => c.ok false && m.al 2
  | .lbcast c w d a _ m => c.ok false && d.al (nregs64 w) && a.al (nregs64 w) && m.al 2
  | .bra c _ => c.ok false
  | .call c d _ => c.ok false && (Reg.v d).al 2
  | .brx c _ a | .ret c a => c.ok false && a.al 2
  | .callx c _ d a => c.ok false && (Reg.v d).al 2 && a.al 2
  | .joinset c _ _ | .joinwait c _ | .joindrop c _ => c.ok false
  | .exit c | .yield c | .nop c | .sleep c _ | .ipf c _ _ _ => c.ok false
  | .ld c sz d mem => c.ok true && (Reg.v d).al sz.nregs && mem.ok
  | .st c sz mem b => c.ok true && mem.ok && sz.bOk b
  | .ldk c sz d mem => c.ok true && (Reg.k d).al sz.nregs && (mem.am == .plain || mem.am == .el) && !mem.a.isV
  | .lds c sz d _ _ => c.ok false && (Reg.v d).al sz.nregs
  | .sts c sz _ _ b => c.ok false && sz.bOk b
  | .ldg c sz d a _ => c.ok true && (Reg.v d).al sz.nregs && a.al 2
  | .stg c sz a _ b => c.ok true && a.al 2 && sz.bOk b
  | .prf c _ mem | .cline c _ mem => c.ok true && mem.ok
  | .objrd c _ d _ => c.ok false && (Reg.v d).al 4
  | .otsync c => c.ok false
  | .atom c _ w _ _ d _ b => c.ok true && d.al (nregs64 w) && b.al (nregs64 w)
  | .atomcas c w _ _ d _ b => c.ok true && d.al (nregs64 w) && b.al (2 * nregs64 w)
  | .red c _ w _ ord _ b => c.ok true && (ord == .rlx || ord == .rel) && b.al (nregs64 w)
  | .atomf c op noret _ ord d _ b =>
    c.ok true && d.al op.nregs && b.al op.nregs && (!noret || (d == .v 0 && (ord == .rlx || ord == .rel)))
  | .bankop c op ty _ ord _ b => c.ok true && bankPairOk op ty true && (ord == .rlx || ord == .rel) && b.al 4
  | .bankred c op ty _ ord _ _ _ => c.ok true && bankPairOk op ty false && (ord == .rlx || ord == .acq)
  | .cpy c _ _ b | .cpyt c _ _ _ b | .cpymc c _ _ b => c.ok true && b.al 16
  | .waitany c _ d m | .waitall c _ d m => c.ok false && d.al 2 && m.al 2
  | .ffr c _ m => c.ok false && m.al 2
  | .tagclr c m => c.ok false && m.al 2
  | .tagrd c _ _ => c.ok false
  | .bar c _ _ _ => c.ok false
  | .fence c _ _ => c.ok false
  | .boinit c a _ b => c.ok false && a.al 2 && b.al 2
  | .boexpect c _ a _ _ => c.ok false && a.al 2
  | .boarrive c _ _ _ a _ _ => c.ok false && a.al 2
  | .bowait c _ _ a _ _ | .botest c _ _ a _ _ => c.ok false && a.al 2
  | .acq c _ _ _ | .tryacq c _ _ _ | .rel c _ | .publish c _ => c.ok false
  | .mma c p => c.ok false && (Reg.v p).al 16
  | .wload c bfmt _ _ _ _ b => c.ok false && 3 ≤ bfmt.toNat && bfmt.toNat ≤ 8 && b.al 4
  | .wdrop c _ => c.ok false
  | .accld c fmt _ b => c.ok false && 2 ≤ fmt.toNat && fmt.toNat ≤ 4 && b.al 4
  | .accst c fmt rm sat _ b =>
    c.ok false && 2 ≤ fmt.toNat && fmt.toNat ≤ 6 && (!Fmt.is8 fmt || rm.ok8) && (!sat || fmt == 5) && b.al 4
  | .accz c a => c.ok false && a.al 2
  | .mregion c _ a => c.ok false && (match a with | some r => r.al 2 | none => true)
  | .mstat c d _ => c.ok false && (Reg.v d).al 4
  | .mcancel c _ => c.ok false
  | .wtalloc c _ _ _ b => c.ok false && b.al 8
  | .wsend c _ _ _ _ _ => c.ok false
  | .wtfree c _ => c.ok false
  | .wtquery c d _ => c.ok false && d.al 2
  | .wtrenew c _ _ => c.ok false
  | .awlnext c d _ => c.ok false && d.al 8
  | .awlpeek c d => c.ok false && d.al 4
  | .emit c _ _ b => c.ok false && b.al 8
  | .emitclose c _ => c.ok false
  | .spawn c _ _ _ a _ => c.ok false && a.al 8
  | .lastsel c d _ _ => c.ok false && d.al 2
  | .padmask c _ _ _ _ => c.ok false
  | .dlread c _ _ d => c.ok false && d.al 2
  | .commit c _ a => c.ok false && a.al 2
  | .idembeg c _ _ | .idemend c | .wrapdone c => c.ok false
  | .sysrd c w sel d => c.ok false && sysSelOk sel && d.al (nregs64 w)
  | .syswr c w sel a => c.ok false && sysSelOk sel && a.al (nregs64 w)
  | .trap c _ | .bkpt c _ => c.ok false
  | .cntrd c w ctr d => c.ok false && cntSelOk ctr && d.al (nregs64 w)
  | .cntcfg c _ _ => c.ok false
  | .wayset c _ => c.ok false
  | .trapret c act _ _ b _ => c.ok false && (if act == .jump then b.al 2 else b == .v 0)
  | .parkrd c _ d _ _ => c.ok false && (Reg.v d).al 4
  | .oplog c d _ _ => c.ok false && (Reg.v d).al 4
  | .replay c _ _ => c.ok false
  | .errinj c a => c.ok false && a.al 8
  | .unassignedOpcode w => !opcAssigned (w.extractLsb' 0 12).toNat
  | .objectCacheFill .. | .loadComplete .. | .accessLogged .. | .storePerform .. | .pageWalk .. | .recordRetry ..
  | .s2fault .. | .sleepEnd .. | .yieldEnd .. | .requestAccept .. | .requestGrant .. | .attemptCheck ..
  | .passComplete .. | .wloadComplete .. | .wdropComplete .. | .transferComplete .. | .copyEnd ..
  | .cpymcBranchArrival .. | .weltArrival .. | .roundDelivery .. | .orphanExpiry .. | .syncRequestArrival ..
  | .syncReleasePerform .. | .versionIncrement .. | .waysetTakesEffect .. | .recordEnqueue .. | .regionArmed ..
  | .diversion .. | .deadlineTermination .. | .quantumEnd .. | .schedulerDecision .. | .bankExchange ..
  | .spillFill .. | .launchCompletion .. | .packetFetch .. | .slotPollTimeout .. | .tornRepoll .. | .launch ..
  | .wait .. | .waitPoll .. | .heldRelease .. | .signal .. | .xfer .. | .modload .. | .moddrop ..
  | .moddropComplete .. | .graph .. | .preemptRequeue .. | .preemptSuspend .. | .preemptResume ..
  | .preemptCancel .. | .launchRegisterStore .. | .qcfgEnSet .. | .qcfgEnClear .. | .qctlResume .. | .qctlSkip ..
  | .apertureGate .. | .apertureUngate .. | .resumeReplay .. | .resumeRetry .. | .resumeSkip .. | .resumeKill ..
  | .frtailWrite .. | .s1inval .. | .invalidationComplete .. | .registerWrite .. | .bankcfgWrite ..
  | .ualcfgRetrain .. | .ualcfgTakesEffect .. | .rcvsetWrite .. | .rcfsetWrite .. | .railStep .. | .railSettled ..
  | .dividerChange .. | .controllerSample .. | .snapshotRefresh .. | .calvsafe .. | .calvsafeRun .. | .htrain ..
  | .hbmTrainingDone .. | .ecsRead .. | .s2map .. | .s2unmap .. | .s2root .. | .pcreate .. | .pdestroy ..
  | .partitionFreed .. | .s2reply .. | .fwstage .. | .fwactivate .. | .attest .. | .ptpSync ..
  | .ptpAnnounceTimeout | .flitReplay .. | .bridgeRetrain .. | .ualinkRequest .. | .bar4Access .. | .powerOn ..
  | .coldReset | .instructionLineFill .. | .sfuDivResult .. | .scratchZeroFill .. | .xferComplete ..
  | .laceRetrain .. | .powerOff => true

end Sys2Proof
end

