-- ==== Sys2Proof/Decode.lean ====
section
/-! DEFINITION. The decoder of R60 to R71 and, after it, the encoder written from the same tables. A word is read in two
stages: its format's fields (R61, R63), then the operands and modifiers of its opcode. The rules on reserved bits
(R64: every field and OPM bit a form does not use is zero) are one comparison: a word is legal only if it is the encoding
of what was read from it. -/

namespace Sys2Proof

/-! ### Bit fields and formats -/

/-- Bits [lo + n - 1 : lo] of a number. -/
def bitsAt (x lo n : Nat) : Nat := x / 2 ^ lo % 2 ^ n

def flag (x lo : Nat) : Bool := bitsAt x lo 1 == 1

/-- Format R (R63). -/
structure RF where
  d : Nat := 0
  a : Nat := 0
  b : Nat := 0
  c : Nat := 0
  e : Nat := 0
  ka : Nat := 0
  kb : Nat := 0
  kc : Nat := 0
  ke : Nat := 0
  kd : Nat := 0
  opm : Nat := 0

/-- Format I (R63). -/
structure IF where
  d : Nat := 0
  a : Nat := 0
  b : Nat := 0
  imm : Nat := 0
  ka : Nat := 0
  kb : Nat := 0
  kd : Nat := 0
  opm : Nat := 0

/-- Format W (R63). -/
structure WF where
  d : Nat := 0
  a : Nat := 0
  ka : Nat := 0
  kd : Nat := 0
  opm : Nat := 0
  imm : Nat := 0

/-- Format M (R63). -/
structure MF where
  d : Nat := 0
  a : Nat := 0
  b : Nat := 0
  objr : Nat := 0
  obj : Nat := 0
  ka : Nat := 0
  kb : Nat := 0
  kd : Nat := 0
  opm : Nat := 0
  off : Nat := 0

def RF.pack (h : Nat) (f : RF) : IWord :=
  BitVec.ofNat 128 (h + f.d * 2 ^ 32 + f.a * 2 ^ 42 + f.b * 2 ^ 52 + f.c * 2 ^ 62 + f.e * 2 ^ 72 + f.ka * 2 ^ 82 +
    f.kb * 2 ^ 84 + f.kc * 2 ^ 86 + f.ke * 2 ^ 88 + f.kd * 2 ^ 90 + f.opm * 2 ^ 92)

def IF.pack (h : Nat) (f : IF) : IWord :=
  BitVec.ofNat 128 (h + f.d * 2 ^ 32 + f.a * 2 ^ 42 + f.b * 2 ^ 52 + f.imm * 2 ^ 64 + f.ka * 2 ^ 96 + f.kb * 2 ^ 98 +
    f.kd * 2 ^ 100 + f.opm * 2 ^ 102)

def WF.pack (h : Nat) (f : WF) : IWord :=
  BitVec.ofNat 128 (h + f.d * 2 ^ 32 + f.a * 2 ^ 42 + f.ka * 2 ^ 52 + f.kd * 2 ^ 54 + f.opm * 2 ^ 56 + f.imm * 2 ^ 64)

def MF.pack (h : Nat) (f : MF) : IWord :=
  BitVec.ofNat 128 (h + f.d * 2 ^ 32 + f.a * 2 ^ 42 + f.b * 2 ^ 52 + f.objr * 2 ^ 62 + f.obj * 2 ^ 63 + f.ka * 2 ^ 80 +
    f.kb * 2 ^ 82 + f.kd * 2 ^ 84 + f.opm * 2 ^ 86 + f.off * 2 ^ 96)

def RF.read (w : Nat) : RF :=
  { d := bitsAt w 32 10, a := bitsAt w 42 10, b := bitsAt w 52 10, c := bitsAt w 62 10, e := bitsAt w 72 10,
    ka := bitsAt w 82 2, kb := bitsAt w 84 2, kc := bitsAt w 86 2, ke := bitsAt w 88 2, kd := bitsAt w 90 2,
    opm := bitsAt w 92 36 }

def IF.read (w : Nat) : IF :=
  { d := bitsAt w 32 10, a := bitsAt w 42 10, b := bitsAt w 52 10, imm := bitsAt w 64 32, ka := bitsAt w 96 2,
    kb := bitsAt w 98 2, kd := bitsAt w 100 2, opm := bitsAt w 102 26 }

def WF.read (w : Nat) : WF :=
  { d := bitsAt w 32 10, a := bitsAt w 42 10, ka := bitsAt w 52 2, kd := bitsAt w 54 2, opm := bitsAt w 56 8,
    imm := bitsAt w 64 64 }

def MF.read (w : Nat) : MF :=
  { d := bitsAt w 32 10, a := bitsAt w 42 10, b := bitsAt w 52 10, objr := bitsAt w 62 1, obj := bitsAt w 63 16,
    ka := bitsAt w 80 2, kb := bitsAt w 82 2, kd := bitsAt w 84 2, opm := bitsAt w 86 10, off := bitsAt w 96 32 }

/-! ### Codes of operands and modifiers -/

/-- A predicate source field: index in [2:0], negate in [3] (R61, R66). -/
def PSrc.code (p : PSrc) : Nat := p.idx.val + 8 * p.neg.toNat
def PSrc.read (x : Nat) : Option PSrc :=
  if h : x % 8 < 8 then if x < 16 then some ⟨⟨x % 8, h⟩, flag x 3⟩ else none else none

/-- A number below `n`. -/
def finRead (n x : Nat) : Option (Fin n) := if h : x < n then some ⟨x, h⟩ else none

def GuardMode.code : GuardMode → Nat
  | .a => 0 | .both => 1 | .either => 2
def GuardMode.read : Nat → Option GuardMode
  | 0 => some .a | 1 => some .both | 2 => some .either | _ => none
def SchedHint.code : SchedHint → Nat
  | .none => 0 | .yield => 1 | .hold => 2
def SchedHint.read : Nat → Option SchedHint
  | 0 => some .none | 1 => some .yield | 2 => some .hold | _ => none

/-- Bits [31:0] of a word with opcode `o` (R61). -/
def Ctl.pack (o : Nat) (c : Ctl) : Nat :=
  o + c.la.val * 2 ^ 12 + c.ga.code * 2 ^ 16 + c.gb.code * 2 ^ 20 + c.gm.code * 2 ^ 24 + c.ch.toNat * 2 ^ 26 +
    c.sh.code * 2 ^ 30
def Ctl.read (w : Nat) : Option Ctl := do
  let la ← finRead 16 (bitsAt w 12 4)
  let ga ← PSrc.read (bitsAt w 16 4)
  let gb ← PSrc.read (bitsAt w 20 4)
  let gm ← GuardMode.read (bitsAt w 24 2)
  let sh ← SchedHint.read (bitsAt w 30 2)
  return ⟨la, ga, gb, gm, BitVec.ofNat 4 (bitsAt w 26 4), sh⟩

/-- Field and kind of a register operand (R66). -/
def Reg.num : Reg → Nat
  | .v n => n.val
  | .k n => n.val
def Reg.kind : Reg → Nat
  | .v _ => 0
  | .k _ => 1
def Reg.read (x k : Nat) : Option Reg :=
  match k with
  | 0 => (finRead 1024 x).map .v
  | 1 => (finRead 128 x).map .k
  | _ => none

/-- Field and kind of a source operand (R66, R67). -/
def Src.num : Src → Nat
  | .v n => n.val
  | .k n => n.val
  | .c x => x.toNat
def Src.kind : Src → Nat
  | .v _ => 0
  | .k _ => 1
  | .c _ => 2
def Src.read (x k : Nat) : Option Src :=
  match k with
  | 0 => (finRead 1024 x).map .v
  | 1 => (finRead 128 x).map .k
  | 2 => some (.c (BitVec.ofNat 10 x))
  | _ => none

/-- A thread register of kind 00. -/
def vRead (x k : Nat) : Option VReg := if k = 0 then finRead 1024 x else none
/-- A group-uniform register of kind 01. -/
def kRead (x k : Nat) : Option KReg := if k = 1 then finRead 128 x else none

def Wd.code : Wd → Nat
  | .w32 => 0 | .w64 => 1 | .w16 => 2 | .w8 => 3
def Wd.read : Nat → Option Wd
  | 0 => some .w32 | 1 => some .w64 | 2 => some .w16 | 3 => some .w8 | _ => none
/-- OPM[3:0] of R78. -/
def IMod.code (m : IMod) : Nat := m.wd.code + 4 * m.un.toNat + 8 * m.sat.toNat
def IMod.read (o : Nat) : Option IMod := do
  let wd ← Wd.read (bitsAt o 0 2)
  return ⟨wd, flag o 2, flag o 3⟩

def ICond.code : ICond → Nat
  | .eq => 0 | .ne => 1 | .lt => 2 | .le => 3 | .gt => 4 | .ge => 5
def ICond.read : Nat → Option ICond
  | 0 => some .eq | 1 => some .ne | 2 => some .lt | 3 => some .le | 4 => some .gt | 5 => some .ge | _ => none
def Bop.code : Bop → Nat
  | .none => 0 | .and => 1 | .or => 2 | .xor => 3
def Bop.read : Nat → Option Bop
  | 0 => some .none | 1 => some .and | 2 => some .or | 3 => some .xor | _ => none
def Rnd.code : Rnd → Nat
  | .rn => 0 | .ra => 1 | .rz => 2 | .rp => 3 | .dn => 4
def Rnd.read : Nat → Option Rnd
  | 0 => some .rn | 1 => some .ra | 2 => some .rz | 3 => some .rp | 4 => some .dn | _ => none
def FCond.code : FCond → Nat
  | .eq => 0 | .ne => 1 | .lt => 2 | .le => 3 | .gt => 4 | .ge => 5 | .num => 6 | .nan => 7
def FCond.read : Nat → Option FCond
  | 0 => some .eq | 1 => some .ne | 2 => some .lt | 3 => some .le | 4 => some .gt | 5 => some .ge | 6 => some .num
  | 7 => some .nan | _ => none
def XMode.code : XMode → Nat
  | .idx => 0 | .dist => 1 | .rot => 2 | .bfly => 3
def XMode.read : Nat → Option XMode
  | 0 => some .idx | 1 => some .dist | 2 => some .rot | 3 => some .bfly | _ => none
def RedOp.code : RedOp → Nat
  | .add => 0 | .min => 1 | .max => 2 | .and => 3 | .or => 4 | .xor => 5
def RedOp.read : Nat → Option RedOp
  | 0 => some .add | 1 => some .min | 2 => some .max | 3 => some .and | 4 => some .or | 5 => some .xor | _ => none
def RedTy.code : RedTy → Nat
  | .s32 => 0 | .n32 => 1 | .f32 => 2
def RedTy.read : Nat → Option RedTy
  | 0 => some .s32 | 1 => some .n32 | 2 => some .f32 | _ => none
def AM.code : AM → Nat
  | .plain => 0 | .el => 1 | .ij => 2 | .x64 => 3
def AM.read : Nat → Option AM
  | 0 => some .plain | 1 => some .el | 2 => some .ij | 3 => some .x64 | _ => none
/-- SZ and SX, OPM[3:0] of R161. -/
def LdSz.code : LdSz → Nat
  | .b32 => 0 | .b64 => 1 | .b128 => 2 | .n16 => 3 | .s16 => 11 | .n8 => 4 | .s8 => 12
def LdSz.read : Nat → Option LdSz
  | 0 => some .b32 | 1 => some .b64 | 2 => some .b128 | 3 => some .n16 | 11 => some .s16 | 4 => some .n8
  | 12 => some .s8 | _ => none
def StSz.code : StSz → Nat
  | .b32 => 0 | .b64 => 1 | .b128 => 2 | .b16 => 3 | .b8 => 4
def StSz.read : Nat → Option StSz
  | 0 => some .b32 | 1 => some .b64 | 2 => some .b128 | 3 => some .b16 | 4 => some .b8 | _ => none
def LdkSz.code : LdkSz → Nat
  | .b32 => 0 | .b64 => 1 | .b128 => 2
def LdkSz.read : Nat → Option LdkSz
  | 0 => some .b32 | 1 => some .b64 | 2 => some .b128 | _ => none
def ClineOp.code : ClineOp → Nat
  | .wb => 0 | .inv => 1 | .wbinv => 2 | .zero => 3
def ClineOp.read : Nat → Option ClineOp
  | 0 => some .wb | 1 => some .inv | 2 => some .wbinv | 3 => some .zero | _ => none
def Scope.code : Scope → Nat
  | .pkg => 0 | .thr => 1 | .grp => 2 | .clu => 3 | .sec => 4 | .die => 5 | .pod => 6 | .sys => 7
def Scope.read : Nat → Option Scope
  | 0 => some .pkg | 1 => some .thr | 2 => some .grp | 3 => some .clu | 4 => some .sec | 5 => some .die | 6 => some .pod
  | 7 => some .sys | _ => none
def Order.code : Order → Nat
  | .rlx => 0 | .acq => 1 | .rel => 2 | .ar => 3
def Order.read : Nat → Option Order
  | 0 => some .rlx | 1 => some .acq | 2 => some .rel | 3 => some .ar | _ => none
def AtomOp.code : AtomOp → Nat
  | .add => 0 | .minS => 1 | .maxS => 2 | .minU => 3 | .maxU => 4 | .and => 5 | .or => 6 | .xor => 7 | .exch => 8
  | .inc => 9 | .dec => 10
def AtomOp.read : Nat → Option AtomOp
  | 0 => some .add | 1 => some .minS | 2 => some .maxS | 3 => some .minU | 4 => some .maxU | 5 => some .and
  | 6 => some .or | 7 => some .xor | 8 => some .exch | 9 => some .inc | 10 => some .dec | _ => none
def AtomFOp.code : AtomFOp → Nat
  | .addF32 => 0 | .minF32 => 1 | .maxF32 => 2 | .addF64 => 3 | .minF64 => 4 | .maxF64 => 5 | .addF16x2 => 6
  | .addBf16x2 => 7
def AtomFOp.read : Nat → Option AtomFOp
  | 0 => some .addF32 | 1 => some .minF32 | 2 => some .maxF32 | 3 => some .addF64 | 4 => some .minF64
  | 5 => some .maxF64 | 6 => some .addF16x2 | 7 => some .addBf16x2 | _ => none
def BankOp.code : BankOp → Nat
  | .add => 0 | .min => 1 | .max => 2 | .mul => 3 | .and => 4 | .or => 5 | .xor => 6 | .set => 7
def BankOp.read : Nat → Option BankOp
  | 0 => some .add | 1 => some .min | 2 => some .max | 3 => some .mul | 4 => some .and | 5 => some .or | 6 => some .xor
  | 7 => some .set | _ => none
def BankTy.code : BankTy → Nat
  | .s32 => 0 | .n32 => 1 | .f32 => 2 | .b32 => 3
def BankTy.read : Nat → Option BankTy
  | 0 => some .s32 | 1 => some .n32 | 2 => some .f32 | 3 => some .b32 | _ => none
def FenceOrd.code : FenceOrd → Nat
  | .acq => 1 | .rel => 2 | .ar => 3
def FenceOrd.read : Nat → Option FenceOrd
  | 1 => some .acq | 2 => some .rel | 3 => some .ar | _ => none
def WCmp.code : WCmp → Nat
  | .none => 0 | .s24 => 1 | .cb16 => 2
def WCmp.read : Nat → Option WCmp
  | 0 => some .none | 1 => some .s24 | 2 => some .cb16 | _ => none
def RegionMode.code : RegionMode → Nat
  | .exact => 1 | .checked => 2 | .tolerant => 3
def RegionMode.read : Nat → Option RegionMode
  | 1 => some .exact | 2 => some .checked | 3 => some .tolerant | _ => none
def TrapAct.code : TrapAct → Nat
  | .retry => 0 | .skip => 1 | .jump => 2 | .kill => 3
def TrapAct.read : Nat → Option TrapAct
  | 0 => some .retry | 1 => some .skip | 2 => some .jump | 3 => some .kill | _ => none
def ParkSel.code : ParkSel → Nat
  | .recd => 0 | .reg => 1 | .st => 2 | .j => 3
def ParkSel.read : Nat → Option ParkSel
  | 0 => some .recd | 1 => some .reg | 2 => some .st | 3 => some .j | _ => none
def DlSel.code : DlSel → Nat
  | .now => 0 | .dl => 1 | .div => 2 | .left => 3
def DlSel.read : Nat → Option DlSel
  | 0 => some .now | 1 => some .dl | 2 => some .div | 3 => some .left | _ => none

/-- An optional predicate destination in a field of its own, present when its PV bit is set. -/
def optPNum : Option PDst → Nat
  | some q => q.val
  | none => 0
def optPRead (pv : Bool) (x : Nat) : Option (Option PDst) :=
  if pv then (finRead 8 x).map some else some none
/-- An optional source, present unless its literal bit is set. -/
def optSNum : Option Src → Nat
  | some a => a.num
  | none => 0
def optSKind : Option Src → Nat
  | some a => a.kind
  | none => 0
def optSRead (present : Bool) (x k : Nat) : Option (Option Src) :=
  if present then (Src.read x k).map some else some none

/-- The object field of format M (R64). -/
def ObjSel.objr : ObjSel → Nat
  | .idx _ => 0
  | .k _ => 1
def ObjSel.num : ObjSel → Nat
  | .idx i => i.toNat
  | .k n => n.val
def ObjSel.read (r x : Nat) : Option ObjSel :=
  if r = 0 then some (.idx (BitVec.ofNat 16 x)) else (finRead 128 x).map .k

/-! ### Building a format from operands -/

def RF.rd (f : RF) (d : Reg) : RF := { f with d := d.num, kd := d.kind }
def RF.vd (f : RF) (d : VReg) : RF := { f with d := d.val }
def RF.qd (f : RF) (q : PDst) : RF := { f with d := q.val }
def RF.sa (f : RF) (a : Src) : RF := { f with a := a.num, ka := a.kind }
def RF.sb (f : RF) (b : Src) : RF := { f with b := b.num, kb := b.kind }
def RF.sc (f : RF) (c : Src) : RF := { f with c := c.num, kc := c.kind }
def RF.se (f : RF) (e : Src) : RF := { f with e := e.num, ke := e.kind }
def RF.ra (f : RF) (a : Reg) : RF := { f with a := a.num, ka := a.kind }
def RF.rb (f : RF) (b : Reg) : RF := { f with b := b.num, kb := b.kind }
def RF.pc (f : RF) (p : PSrc) : RF := { f with c := p.code }
def IF.rd (f : IF) (d : Reg) : IF := { f with d := d.num, kd := d.kind }
def IF.sa (f : IF) (a : Src) : IF := { f with a := a.num, ka := a.kind }
def IF.sb (f : IF) (b : Src) : IF := { f with b := b.num, kb := b.kind }
def IF.ra (f : IF) (a : Reg) : IF := { f with a := a.num, ka := a.kind }
def MF.rd (f : MF) (d : Reg) : MF := { f with d := d.num, kd := d.kind }
def MF.sb (f : MF) (b : Src) : MF := { f with b := b.num, kb := b.kind }
def MF.rb (f : MF) (b : Reg) : MF := { f with b := b.num, kb := b.kind }
def MF.ob (f : MF) (o : ObjSel) : MF := { f with objr := o.objr, obj := o.num }
/-- The memory operand of R157; the caller's OPM leaves bits [5:4] to AM. -/
def MF.mem (f : MF) (m : MemOp) : MF :=
  { f with objr := m.obj.objr, obj := m.obj.num, a := m.a.num, ka := m.a.kind, off := m.off.toNat,
           opm := f.opm + m.am.code * 2 ^ 4 }
def MF.mem0 (f : MF) (m : MemOp0) : MF :=
  { f with objr := m.obj.objr, obj := m.obj.num, a := m.a.num, ka := m.a.kind, off := m.off.toNat }
/-- A memory operand with no register term: KA = 10, A = 0, OFF32 = 0 (R157, R268). -/
def MF.obj0 (f : MF) (o : ObjSel) : MF := { f with objr := o.objr, obj := o.num, ka := 2 }

def MF.rmem (f : MF) : Option MemOp := do
  let o ← ObjSel.read f.objr f.obj
  let am ← AM.read (bitsAt f.opm 4 2)
  let a ← Src.read f.a f.ka
  return ⟨o, am, a, BitVec.ofNat 32 f.off⟩
def MF.rmem0 (f : MF) : Option MemOp0 := do
  let o ← ObjSel.read f.objr f.obj
  let a ← Src.read f.a f.ka
  return ⟨o, a, BitVec.ofNat 32 f.off⟩

/-! ### Decoding by class (R71) -/

/-- Class 0x0 (R81). -/
def decC0 (idx : Nat) (c : Ctl) (w : Nat) : Option Instr := do
  let f := RF.read w
  let g := IF.read w
  let h := WF.read w
  match idx with
  | 0x00 => return .iadd c (← IMod.read f.opm) (← Reg.read f.d f.kd) (← Src.read f.a f.ka) (← Src.read f.b f.kb)
  | 0x01 => return .isub c (← IMod.read f.opm) (← Reg.read f.d f.kd) (← Src.read f.a f.ka) (← Src.read f.b f.kb)
  | 0x02 => return .iadd3 c (← IMod.read f.opm) (← Reg.read f.d f.kd) (← Src.read f.a f.ka) (← Src.read f.b f.kb) (← Src.read f.c f.kc)
  | 0x03 => return .imul c (← IMod.read f.opm) (← Reg.read f.d f.kd) (← Src.read f.a f.ka) (← Src.read f.b f.kb)
  | 0x04 => return .imulhi c (← IMod.read f.opm) (← Reg.read f.d f.kd) (← Src.read f.a f.ka) (← Src.read f.b f.kb)
  | 0x05 => return .imad c (← IMod.read f.opm) (← Reg.read f.d f.kd) (← Src.read f.a f.ka) (← Src.read f.b f.kb) (← Src.read f.c f.kc)
  | 0x06 => return .imadw c (← IMod.read f.opm) (← Reg.read f.d f.kd) (← Src.read f.a f.ka) (← Src.read f.b f.kb) (← Src.read f.c f.kc)
  | 0x07 => return .idiv c (← IMod.read f.opm) (← Reg.read f.d f.kd) (← Src.read f.a f.ka) (← Src.read f.b f.kb)
  | 0x08 => return .irem c (← IMod.read f.opm) (← Reg.read f.d f.kd) (← Src.read f.a f.ka) (← Src.read f.b f.kb)
  | 0x09 => return .imin c (← IMod.read f.opm) (← Reg.read f.d f.kd) (← Src.read f.a f.ka) (← Src.read f.b f.kb)
  | 0x0A => return .imax c (← IMod.read f.opm) (← Reg.read f.d f.kd) (← Src.read f.a f.ka) (← Src.read f.b f.kb)
  | 0x0B => return .iabs c (← IMod.read f.opm) (← Reg.read f.d f.kd) (← Src.read f.a f.ka)
  | 0x0C => return .ineg c (← IMod.read f.opm) (← Reg.read f.d f.kd) (← Src.read f.a f.ka)
  | 0x0D => return .isad c (← IMod.read f.opm) (← Reg.read f.d f.kd) (← Src.read f.a f.ka) (← Src.read f.b f.kb) (← Src.read f.c f.kc)
  | 0x0E => return .icmp c (← IMod.read f.opm) (← ICond.read (bitsAt f.opm 4 3)) (← Bop.read (bitsAt f.opm 7 2)) (← finRead 8 f.d) (← Src.read f.a f.ka) (← Src.read f.b f.kb) (← PSrc.read f.c)
  | 0x0F => return .isel c (← IMod.read f.opm) (← Reg.read f.d f.kd) (← Src.read f.a f.ka) (← Src.read f.b f.kb) (← PSrc.read f.c)
  | 0x10 => return .iaddi c (← IMod.read g.opm) (← Reg.read g.d g.kd) (← Src.read g.a g.ka) (BitVec.ofNat 32 g.imm)
  | 0x11 => return .imuli c (← IMod.read g.opm) (← Reg.read g.d g.kd) (← Src.read g.a g.ka) (BitVec.ofNat 32 g.imm)
  | 0x12 => return .icmpi c (← IMod.read g.opm) (← ICond.read (bitsAt g.opm 4 3)) (← Bop.read (bitsAt g.opm 7 2)) (← finRead 8 g.d) (← Src.read g.a g.ka) (BitVec.ofNat 32 g.imm) (← PSrc.read g.b)
  | 0x13 => return .lea c (← IMod.read f.opm) (← finRead 16 (bitsAt f.opm 4 4)) (← Reg.read f.d f.kd) (← Src.read f.a f.ka) (← Src.read f.b f.kb)
  | 0x14 => return .idot4 c (flag f.opm 3) (flag f.opm 4) (flag f.opm 5) (← Reg.read f.d f.kd) (← Src.read f.a f.ka) (← Src.read f.b f.kb) (← Src.read f.c f.kc)
  | 0x15 => return .idot2 c (flag f.opm 3) (flag f.opm 4) (flag f.opm 5) (← Reg.read f.d f.kd) (← Src.read f.a f.ka) (← Src.read f.b f.kb) (← Src.read f.c f.kc)
  | 0x16 => return .mov c (← IMod.read f.opm) (← Reg.read f.d f.kd) (← Src.read f.a f.ka)
  | 0x17 => return .movi c (← IMod.read g.opm) (← Reg.read g.d g.kd) (BitVec.ofNat 32 g.imm)
  | 0x18 => return .movw c (← Reg.read h.d h.kd) (BitVec.ofNat 64 h.imm)
  | _ => none

/-- Class 0x1 (R90). -/
def decC1 (idx : Nat) (c : Ctl) (w : Nat) : Option Instr := do
  let f := RF.read w
  let g := IF.read w
  let w64 := flag f.opm 0
  match idx with
  | 0x00 => return .and c w64 (← Reg.read f.d f.kd) (← Src.read f.a f.ka) (← Src.read f.b f.kb)
  | 0x01 => return .or c w64 (← Reg.read f.d f.kd) (← Src.read f.a f.ka) (← Src.read f.b f.kb)
  | 0x02 => return .xor c w64 (← Reg.read f.d f.kd) (← Src.read f.a f.ka) (← Src.read f.b f.kb)
  | 0x03 => return .andn c w64 (← Reg.read f.d f.kd) (← Src.read f.a f.ka) (← Src.read f.b f.kb)
  | 0x04 => return .not c w64 (← Reg.read f.d f.kd) (← Src.read f.a f.ka)
  | 0x05 => return .ltab c w64 (BitVec.ofNat 8 (bitsAt f.opm 4 8)) (← Reg.read f.d f.kd) (← Src.read f.a f.ka) (← Src.read f.b f.kb) (← Src.read f.c f.kc)
  | 0x06 => return .shl c w64 (flag f.opm 4) (← Reg.read f.d f.kd) (← Src.read f.a f.ka) (← Src.read f.b f.kb)
  | 0x07 => return .shr c w64 (flag f.opm 4) (← Reg.read f.d f.kd) (← Src.read f.a f.ka) (← Src.read f.b f.kb)
  | 0x08 => return .sar c w64 (flag f.opm 4) (← Reg.read f.d f.kd) (← Src.read f.a f.ka) (← Src.read f.b f.kb)
  | 0x09 => return .rotl c w64 (← Reg.read f.d f.kd) (← Src.read f.a f.ka) (← Src.read f.b f.kb)
  | 0x0A => return .fshf c w64 (flag f.opm 4) (flag f.opm 5) (← Reg.read f.d f.kd) (← Src.read f.a f.ka) (← Src.read f.b f.kb) (← Src.read f.c f.kc)
  | 0x0B => return .bfx c w64 (flag f.opm 2) (← Reg.read f.d f.kd) (← Src.read f.a f.ka) (← Src.read f.b f.kb) (← Src.read f.c f.kc)
  | 0x0C => return .bfi c w64 (← Reg.read f.d f.kd) (← Src.read f.a f.ka) (← Src.read f.b f.kb) (← Src.read f.c f.kc) (← Src.read f.e f.ke)
  | 0x0D => return .popc c w64 (← Reg.read f.d f.kd) (← Src.read f.a f.ka)
  | 0x0E => return .clz c w64 (← Reg.read f.d f.kd) (← Src.read f.a f.ka)
  | 0x0F => return .ctz c w64 (← Reg.read f.d f.kd) (← Src.read f.a f.ka)
  | 0x10 => return .brev c w64 (← Reg.read f.d f.kd) (← Src.read f.a f.ka)
  | 0x11 => return .bperm c (← Reg.read f.d f.kd) (← Src.read f.a f.ka) (← Src.read f.b f.kb) (← Src.read f.c f.kc)
  | 0x12 => return .clmul c w64 (← Reg.read f.d f.kd) (← Src.read f.a f.ka) (← Src.read f.b f.kb)
  | 0x13 => return .clmulh c w64 (← Reg.read f.d f.kd) (← Src.read f.a f.ka) (← Src.read f.b f.kb)
  | 0x14 => return .ltabi c (BitVec.ofNat 8 (bitsAt g.opm 4 8)) (← Reg.read g.d g.kd) (← Src.read g.a g.ka) (← Src.read g.b g.kb) (BitVec.ofNat 32 g.imm)
  | 0x16 => return .ptab c (BitVec.ofNat 8 (bitsAt f.opm 4 8)) (← finRead 8 f.d) (← PSrc.read f.a) (← PSrc.read f.b) (← PSrc.read f.c)
  | 0x17 =>
    if flag f.opm 4 then return .pmov c (.toPred (BitVec.ofNat 8 (bitsAt f.opm 5 8)) (← Src.read f.a f.ka))
    else return .pmov c (.toReg (← Reg.read f.d f.kd))
  | _ => none

/-- Class 0x2 (R102). -/
def decC2 (idx : Nat) (c : Ctl) (w : Nat) : Option Instr := do
  let f := RF.read w
  let g := IF.read w
  let f64 := flag f.opm 0
  let g64 := flag g.opm 0
  match idx with
  | 0x00 => return .fadd c f64 (← Rnd.read (bitsAt f.opm 2 3)) (← Reg.read f.d f.kd) (← Src.read f.a f.ka) (← Src.read f.b f.kb)
  | 0x01 => return .fsub c f64 (← Rnd.read (bitsAt f.opm 2 3)) (← Reg.read f.d f.kd) (← Src.read f.a f.ka) (← Src.read f.b f.kb)
  | 0x02 => return .fmul c f64 (← Rnd.read (bitsAt f.opm 2 3)) (← Reg.read f.d f.kd) (← Src.read f.a f.ka) (← Src.read f.b f.kb)
  | 0x03 => return .ffma c f64 (← Rnd.read (bitsAt f.opm 2 3)) (← Reg.read f.d f.kd) (← Src.read f.a f.ka) (← Src.read f.b f.kb) (← Src.read f.c f.kc)
  | 0x04 => return .fmin c f64 (← Reg.read f.d f.kd) (← Src.read f.a f.ka) (← Src.read f.b f.kb)
  | 0x05 => return .fmax c f64 (← Reg.read f.d f.kd) (← Src.read f.a f.ka) (← Src.read f.b f.kb)
  | 0x06 => return .fcmp c f64 (← FCond.read (bitsAt f.opm 6 3)) (← Bop.read (bitsAt f.opm 9 2)) (← finRead 8 f.d) (← Src.read f.a f.ka) (← Src.read f.b f.kb) (← PSrc.read f.c)
  | 0x08 => return .fclass c f64 (BitVec.ofNat 9 (bitsAt f.opm 6 9)) (← finRead 8 f.d) (← Src.read f.a f.ka)
  | 0x0A => return .faddi c g64 (← Rnd.read (bitsAt g.opm 2 3)) (← Reg.read g.d g.kd) (← Src.read g.a g.ka) (BitVec.ofNat 32 g.imm)
  | 0x0B => return .fmuli c g64 (← Rnd.read (bitsAt g.opm 2 3)) (← Reg.read g.d g.kd) (← Src.read g.a g.ka) (BitVec.ofNat 32 g.imm)
  | 0x0C => return .ffmai c g64 (← Rnd.read (bitsAt g.opm 2 3)) (← Reg.read g.d g.kd) (← Src.read g.a g.ka) (← Src.read g.b g.kb) (BitVec.ofNat 32 g.imm)
  | _ => none

/-- Class 0x3 (R108 to R120). -/
def decC3 (idx : Nat) (c : Ctl) (w : Nat) : Option Instr := do
  let f := RF.read w
  let ft := flag f.opm 0
  let df := BitVec.ofNat 4 (bitsAt f.opm 6 4)
  let sf := BitVec.ofNat 4 (bitsAt f.opm 10 4)
  match idx with
  | 0x00 => return .hadd2 c ft (← Rnd.read (bitsAt f.opm 2 3)) (← Reg.read f.d f.kd) (← Src.read f.a f.ka) (← Src.read f.b f.kb)
  | 0x01 => return .hmul2 c ft (← Rnd.read (bitsAt f.opm 2 3)) (← Reg.read f.d f.kd) (← Src.read f.a f.ka) (← Src.read f.b f.kb)
  | 0x02 => return .hfma2 c ft (← Rnd.read (bitsAt f.opm 2 3)) (← Reg.read f.d f.kd) (← Src.read f.a f.ka) (← Src.read f.b f.kb) (← Src.read f.c f.kc)
  | 0x03 => return .hmin2 c ft (← Reg.read f.d f.kd) (← Src.read f.a f.ka) (← Src.read f.b f.kb)
  | 0x04 => return .hmax2 c ft (← Reg.read f.d f.kd) (← Src.read f.a f.ka) (← Src.read f.b f.kb)
  | 0x05 => return .hcmp2 c ft (← FCond.read (bitsAt f.opm 6 3)) (← Bop.read (bitsAt f.opm 9 2)) (← finRead 8 f.d) (← finRead 8 f.e) (← Src.read f.a f.ka) (← Src.read f.b f.kb) (← PSrc.read f.c)
  | 0x06 => return .cvt c df sf (← Rnd.read (bitsAt f.opm 2 3)) (flag f.opm 5) (← Reg.read f.d f.kd) (← Src.read f.a f.ka)
  | 0x07 => return .cvtpk c df sf (← Rnd.read (bitsAt f.opm 2 3)) (flag f.opm 5) (← Reg.read f.d f.kd) (← Src.read f.a f.ka) (← Src.read f.b f.kb) (← Src.read f.c f.kc) (← Src.read f.e f.ke)
  | 0x08 => return .f2i c sf (← Wd.read (bitsAt f.opm 14 2)) (flag f.opm 16) (← Rnd.read (bitsAt f.opm 2 3)) (flag f.opm 5) (← Reg.read f.d f.kd) (← Src.read f.a f.ka)
  | 0x09 => return .i2f c df (← Wd.read (bitsAt f.opm 14 2)) (flag f.opm 16) (← Rnd.read (bitsAt f.opm 2 3)) (flag f.opm 5) (← Reg.read f.d f.kd) (← Src.read f.a f.ka)
  | 0x0A =>
    if df = 8 then return .qblk c true (flag f.opm 17) (← Rnd.read (bitsAt f.opm 2 3)) (← Reg.read f.d f.kd) (← Src.read f.a f.ka)
    else return .qblk c false (flag f.opm 17) (← Rnd.read (bitsAt f.opm 2 3)) (← Reg.read f.d f.kd) (← Src.read f.a f.ka)
  | 0x0B =>
    if sf = 8 then return .dqblk c true (← Rnd.read (bitsAt f.opm 2 3)) (← Reg.read f.d f.kd) (← Src.read f.a f.ka)
    else return .dqblk c false (← Rnd.read (bitsAt f.opm 2 3)) (← Reg.read f.d f.kd) (← Src.read f.a f.ka)
  | 0x0C => return .scalex c ft (← Rnd.read (bitsAt f.opm 2 3)) (← Reg.read f.d f.kd) (← Src.read f.a f.ka) (← Src.read f.b f.kb)
  | 0x0D => return .frnd c ft (← Rnd.read (bitsAt f.opm 2 3)) (← Reg.read f.d f.kd) (← Src.read f.a f.ka)
  | 0x0E => return .fdot2 c ft (← Rnd.read (bitsAt f.opm 2 3)) (← Reg.read f.d f.kd) (← Src.read f.a f.ka) (← Src.read f.b f.kb) (← Src.read f.c f.kc)
  | _ => none

/-- Class 0x4 (R121). -/
def decC4 (idx : Nat) (c : Ctl) (w : Nat) : Option Instr := do
  let f := RF.read w
  let d ← Reg.read f.d f.kd
  let a ← Src.read f.a f.ka
  match idx with
  | 0 => return .rcp c d a
  | 1 => return .rsq c d a
  | 2 => return .sqrt c (flag f.opm 0) (← Rnd.read (bitsAt f.opm 2 3)) d a
  | 3 => return .ex2 c d a
  | 4 => return .lg2 c d a
  | 5 => return .sin c d a
  | 6 => return .cos c d a
  | 7 => return .tanh c d a
  | 8 => return .sigm c d a
  | 9 => return .fdiv c (flag f.opm 0) (← Rnd.read (bitsAt f.opm 2 3)) d a (← Src.read f.b f.kb)
  | _ => none

/-- Class 0x5 (R139). -/
def decC5 (idx : Nat) (c : Ctl) (w : Nat) : Option Instr := do
  let f := RF.read w
  let m ← Src.read f.c f.kc
  match idx with
  | 0 => return .lxch c (flag f.opm 0) (← XMode.read (bitsAt f.opm 2 2)) (← finRead 6 (bitsAt f.opm 4 3)) (← optPRead (flag f.opm 7) f.e) (← Reg.read f.d f.kd) (← Src.read f.a f.ka) (← Src.read f.b f.kb) m
  | 1 =>
    let pa ← PSrc.read f.a
    match bitsAt f.opm 2 3 with
    | 0 => return .lpoll c (.any (← finRead 8 f.d)) pa m
    | 1 => return .lpoll c (.all (← finRead 8 f.d)) pa m
    | 2 => return .lpoll c (.uni (← finRead 8 f.d)) pa m
    | 3 => return .lpoll c (.mask (← Reg.read f.d f.kd)) pa m
    | 4 => return .lpoll c (.count (← Reg.read f.d f.kd)) pa m
    | _ => none
  | 2 => return .lpeer c (flag f.opm 0) (flag f.opm 2) (← Reg.read f.d f.kd) (← Src.read f.a f.ka) m
  | 3 => return .lred c (← RedOp.read (bitsAt f.opm 2 3)) (← RedTy.read (bitsAt f.opm 5 2)) (← Reg.read f.d f.kd) (← Src.read f.a f.ka) m
  | 4 => return .lscan c (← RedOp.read (bitsAt f.opm 2 3)) (← RedTy.read (bitsAt f.opm 5 2)) (flag f.opm 7) (← Reg.read f.d f.kd) (← Src.read f.a f.ka) m
  | 5 => return .llead c (flag f.opm 0) (← finRead 8 f.d) m
  | 6 => return .lbcast c (flag f.opm 0) (← Reg.read f.d f.kd) (← Src.read f.a f.ka) (← Src.read f.b f.kb) m
  | _ => none

/-- Class 0x6 (R125, R128, R133, R138). -/
def decC6 (idx : Nat) (c : Ctl) (w : Nat) : Option Instr := do
  let f := RF.read w
  let h := WF.read w
  match idx with
  | 0x0 => return .bra c (BitVec.ofNat 64 h.imm)
  | 0x1 => return .brx c (flag f.opm 0) (← Reg.read f.a f.ka)
  | 0x2 => return .call c (← vRead h.d h.kd) (BitVec.ofNat 64 h.imm)
  | 0x3 => return .callx c (flag f.opm 0) (← vRead f.d f.kd) (← Reg.read f.a f.ka)
  | 0x4 => return .ret c (← Reg.read f.a f.ka)
  | 0x5 => return .joinset c (← finRead 16 h.d) (BitVec.ofNat 64 h.imm)
  | 0x6 => return .joinwait c (← finRead 16 f.a)
  | 0x7 => return .joindrop c (← finRead 16 f.a)
  | 0x8 => return .exit c
  | 0x9 => return .yield c
  | 0xA => return .nop c
  | 0xB => return .ipf c (BitVec.ofNat 8 h.opm) (← finRead 3 h.a) (BitVec.ofNat 64 h.imm)
  | 0xC => return .sleep c (BitVec.ofNat 32 (IF.read w).imm)
  | _ => none

/-- Class 0x7 (R161). -/
def decC7 (idx : Nat) (c : Ctl) (w : Nat) : Option Instr := do
  let f := MF.read w
  let g := IF.read w
  match idx with
  | 0x0 => return .ld c (← LdSz.read (bitsAt f.opm 0 4)) (← vRead f.d f.kd) (← f.rmem)
  | 0x1 => return .st c (← StSz.read (bitsAt f.opm 0 3)) (← f.rmem) (← Src.read f.b f.kb)
  | 0x2 => return .ldg c (← LdSz.read (bitsAt g.opm 0 4)) (← vRead g.d g.kd) (← Reg.read g.a g.ka) (BitVec.ofNat 32 g.imm)
  | 0x3 => return .stg c (← StSz.read (bitsAt g.opm 0 3)) (← Reg.read g.a g.ka) (BitVec.ofNat 32 g.imm) (← Src.read g.b g.kb)
  | 0x4 => return .ldk c (← LdkSz.read (bitsAt f.opm 0 3)) (← kRead f.d f.kd) (← f.rmem)
  | 0x6 => return .lds c (← LdSz.read (bitsAt g.opm 0 4)) (← vRead g.d g.kd) (← Src.read g.a g.ka) (BitVec.ofNat 32 g.imm)
  | 0x7 => return .sts c (← StSz.read (bitsAt g.opm 0 3)) (← Src.read g.a g.ka) (BitVec.ofNat 32 g.imm) (← Src.read g.b g.kb)
  | 0x8 => return .prf c (flag f.opm 0) (← f.rmem)
  | 0x9 => return .cline c (← ClineOp.read (bitsAt f.opm 0 2)) (← f.rmem)
  | 0xA => return .otsync c
  | 0xB => return .objrd c (flag f.opm 0) (← vRead f.d f.kd) (← ObjSel.read f.objr f.obj)
  | _ => none

/-- Class 0x8 (R171, R176, R177). -/
def decC8 (idx : Nat) (c : Ctl) (w : Nat) : Option Instr := do
  let f := MF.read w
  let sc ← Scope.read (bitsAt f.opm 5 3)
  let od ← Order.read (bitsAt f.opm 8 2)
  let m ← f.rmem0
  match idx with
  | 0 => return .atom c (← AtomOp.read (bitsAt f.opm 0 4)) (flag f.opm 4) sc od (← Reg.read f.d f.kd) m (← Src.read f.b f.kb)
  | 1 => return .atomcas c (flag f.opm 4) sc od (← Reg.read f.d f.kd) m (← Reg.read f.b f.kb)
  | 2 => return .red c (← AtomOp.read (bitsAt f.opm 0 4)) (flag f.opm 4) sc od m (← Src.read f.b f.kb)
  | 3 => return .bankop c (← BankOp.read (bitsAt f.opm 0 3)) (← BankTy.read (bitsAt f.opm 3 2)) sc od m (← Reg.read f.b f.kb)
  | 4 => return .bankred c (← BankOp.read (bitsAt f.opm 0 3)) (← BankTy.read (bitsAt f.opm 3 2)) sc od (← Reg.read f.d f.kd) m (← Src.read f.b f.kb)
  | 5 => return .atomf c (← AtomFOp.read (bitsAt f.opm 0 4)) (flag f.opm 4) sc od (← Reg.read f.d f.kd) m (← Src.read f.b f.kb)
  | _ => none

/-- The completion of a copy (R223). -/
def CopyDst.bo1 : CopyDst → Nat
  | .tag _ => 0
  | .bo => 1
def CopyDst.num : CopyDst → Nat
  | .tag n => n.val
  | .bo => 0
def CopyDst.read (bo : Bool) (x : Nat) : Option CopyDst := if bo then some .bo else (finRead 64 x).map .tag

/-- Class 0x9 (R223, R232). -/
def decC9 (idx : Nat) (c : Ctl) (w : Nat) : Option Instr := do
  let f := RF.read w
  let g := MF.read w
  match idx with
  | 0 => return .cpy c (← CopyDst.read (flag g.opm 0) g.d) (← g.rmem0) (← Reg.read g.b g.kb)
  | 1 => return .cpyt c (← CopyDst.read (flag g.opm 0) g.d) (flag g.opm 1) (← g.rmem0) (← Reg.read g.b g.kb)
  | 2 => return .cpymc c (← CopyDst.read (flag g.opm 0) g.d) (← g.rmem0) (← Reg.read g.b g.kb)
  | 4 => return .waitany c (← optPRead (flag f.opm 0) f.e) (← Reg.read f.d f.kd) (← Src.read f.a f.ka)
  | 5 => return .waitall c (← optPRead (flag f.opm 0) f.e) (← Reg.read f.d f.kd) (← Src.read f.a f.ka)
  | 6 => return .ffr c (← Reg.read f.d f.kd) (← Src.read f.a f.ka)
  | 7 => return .tagclr c (← Src.read f.a f.ka)
  | 8 => return .tagrd c (← Reg.read f.d f.kd) (← Src.read f.a f.ka)
  | _ => none

/-- Class 0xA (R215, R220, R262, R268, R273). -/
def decCA (idx : Nat) (c : Ctl) (w : Nat) : Option Instr := do
  let f := RF.read w
  let g := IF.read w
  let m := MF.read w
  match idx with
  | 0x0 => return .bar c (flag f.opm 0) (← finRead 16 f.a) (← Src.read f.b f.kb)
  | 0x1 =>
    let sc ← Scope.read (bitsAt g.opm 2 3)
    let a ← Reg.read g.a g.ka
    let b ← Src.read g.b g.kb
    if flag g.opm 1 then return .boarrive c (flag g.opm 0) sc (some (← Reg.read g.d g.kd)) a (BitVec.ofNat 32 g.imm) b
    else return .boarrive c (flag g.opm 0) sc none a (BitVec.ofNat 32 g.imm) b
  | 0x2 => return .boexpect c (flag g.opm 0) (← Reg.read g.a g.ka) (BitVec.ofNat 32 g.imm) (← Src.read g.b g.kb)
  | 0x3 => return .bowait c (← Scope.read (bitsAt g.opm 2 3)) (← Reg.read g.d g.kd) (← Reg.read g.a g.ka) (BitVec.ofNat 32 g.imm) (← Src.read g.b g.kb)
  | 0x4 => return .botest c (← Scope.read (bitsAt g.opm 2 3)) (← Reg.read g.d g.kd) (← Reg.read g.a g.ka) (BitVec.ofNat 32 g.imm) (← Src.read g.b g.kb)
  | 0x5 => return .boinit c (← Reg.read g.a g.ka) (BitVec.ofNat 32 g.imm) (← Src.read g.b g.kb)
  | 0x6 => return .acq c (flag m.opm 0) (← optPRead (flag m.opm 1) m.d) (← ObjSel.read m.objr m.obj)
  | 0x7 => return .rel c (← ObjSel.read m.objr m.obj)
  | 0x8 => return .fence c (← FenceOrd.read (bitsAt f.opm 0 2)) (← Scope.read (bitsAt f.opm 2 3))
  | 0x9 => return .publish c (← ObjSel.read m.objr m.obj)
  | 0xA => return .tryacq c (flag m.opm 0) (← finRead 8 m.d) (← ObjSel.read m.objr m.obj)
  | _ => none

/-- Class 0xB (R189 to R208). -/
def decCB (idx : Nat) (c : Ctl) (w : Nat) : Option Instr := do
  let f := RF.read w
  let g := MF.read w
  match idx with
  | 0 => return .mma c (← vRead f.a f.ka)
  | 1 => return .wload c (BitVec.ofNat 4 (bitsAt g.opm 0 4)) (← WCmp.read (bitsAt g.opm 4 2)) (flag g.opm 6) (← finRead 2 g.d) (← g.rmem0) (← Reg.read g.b g.kb)
  | 2 => return .wdrop c (← finRead 2 f.a)
  | 3 => return .accld c (BitVec.ofNat 4 (bitsAt g.opm 0 4)) (← g.rmem0) (← Reg.read g.b g.kb)
  | 4 => return .accst c (BitVec.ofNat 4 (bitsAt g.opm 0 4)) (← Rnd.read (bitsAt g.opm 4 3)) (flag g.opm 7) (← g.rmem0) (← Reg.read g.b g.kb)
  | 5 => return .accz c (← Reg.read f.a f.ka)
  | 6 =>
    let mode ← RegionMode.read (bitsAt f.opm 0 2)
    if flag f.opm 2 then return .mregion c mode (some (← Reg.read f.a f.ka)) else return .mregion c mode none
  | 7 => return .mstat c (← vRead f.d f.kd) (← optSRead (!flag f.opm 0) f.a f.ka)
  | 8 => return .mcancel c (← optSRead (!flag f.opm 0) f.a f.ka)
  | _ => none

/-- Class 0xC (R237, R239, R244). -/
def decCC (idx : Nat) (c : Ctl) (w : Nat) : Option Instr := do
  let f := RF.read w
  let g := IF.read w
  let m := MF.read w
  match idx with
  | 0 => return .wtalloc c (flag m.opm 0) (← Reg.read m.d m.kd) (← ObjSel.read m.objr m.obj) (← Reg.read m.b m.kb)
  | 1 => return .wtfree c (← Reg.read f.a f.ka)
  | 2 => return .wsend c (← Reg.read g.a g.ka) (← Src.read g.b g.kb) (← finRead 8 (bitsAt g.imm 0 3)) (← finRead 16 (bitsAt g.imm 4 4)) (← finRead 64 (bitsAt g.imm 8 6))
  | 3 => return .wtquery c (← Reg.read f.d f.kd) (← Reg.read f.a f.ka)
  | 4 => return .wtrenew c (← Reg.read f.a f.ka) (← Src.read f.b f.kb)
  | _ => none

/-- Class 0xD (R282 to R302). -/
def decCD (idx : Nat) (c : Ctl) (w : Nat) : Option Instr := do
  let f := RF.read w
  let g := IF.read w
  let h := WF.read w
  let m := MF.read w
  match idx with
  | 0x0 => return .awlnext c (← Reg.read f.d f.kd) (← finRead 8 f.e)
  | 0x1 => return .awlpeek c (← Reg.read f.d f.kd)
  | 0x2 => return .emit c (← optPRead (flag m.opm 0) m.d) (← ObjSel.read m.objr m.obj) (← Reg.read m.b m.kb)
  | 0x3 => return .emitclose c (← ObjSel.read m.objr m.obj)
  | 0x4 => return .spawn c (flag h.opm 3) (← finRead 8 (bitsAt h.opm 0 3)) (← vRead h.d h.kd) (← Reg.read h.a h.ka) (BitVec.ofNat 64 h.imm)
  | 0x5 =>
    if flag m.opm 0 then return .lastsel c (← Reg.read m.d m.kd) (← finRead 8 m.b) none
    else return .lastsel c (← Reg.read m.d m.kd) (← finRead 8 m.b) (some (← ObjSel.read m.objr m.obj))
  | 0x6 => return .padmask c (← finRead 8 (bitsAt f.opm 0 3)) (← finRead 8 f.d) (← finRead 8 f.e) (← Src.read f.a f.ka)
  | 0x7 => return .dlread c (← DlSel.read (bitsAt f.opm 0 2)) (← optPRead (flag f.opm 2) f.e) (← Reg.read f.d f.kd)
  | 0x8 => return .commit c (flag f.opm 0) (← Src.read f.a f.ka)
  | 0x9 => return .idembeg c (BitVec.ofNat 10 (bitsAt g.imm 0 10)) (← finRead 64 (bitsAt g.imm 10 7))
  | 0xA => return .idemend c
  | 0xB => return .wrapdone c
  | _ => none

/-- Class 0xE (R147 to R150, R253, R353, R358). -/
def decCE (idx : Nat) (c : Ctl) (w : Nat) : Option Instr := do
  let f := RF.read w
  let g := IF.read w
  match idx with
  | 0x0 => return .sysrd c (flag g.opm 0) (BitVec.ofNat 12 (bitsAt g.imm 0 12)) (← Reg.read g.d g.kd)
  | 0x1 => return .syswr c (flag g.opm 0) (BitVec.ofNat 12 (bitsAt g.imm 0 12)) (← Src.read g.a g.ka)
  | 0x2 => return .trap c (BitVec.ofNat 16 (bitsAt g.imm 0 16))
  | 0x3 =>
    return .trapret c (← TrapAct.read (bitsAt f.opm 0 2)) (flag f.opm 2) (← Reg.read f.a f.ka) (← Reg.read f.b f.kb) (← Src.read f.c f.kc)
  | 0x4 => return .bkpt c (BitVec.ofNat 16 (bitsAt g.imm 0 16))
  | 0x5 => return .parkrd c (← ParkSel.read (bitsAt f.opm 0 2)) (← vRead f.d f.kd) (← Reg.read f.a f.ka) (← Src.read f.b f.kb)
  | 0x6 => return .oplog c (← vRead f.d f.kd) (← Reg.read f.a f.ka) (← Src.read f.b f.kb)
  | 0x7 => return .replay c (← Reg.read f.d f.kd) (← Reg.read f.a f.ka)
  | 0x8 => return .cntrd c (flag g.opm 0) (BitVec.ofNat 10 (bitsAt g.imm 0 10)) (← Reg.read g.d g.kd)
  | 0x9 => return .cntcfg c (← finRead 4 (bitsAt g.imm 0 2)) (← Src.read g.a g.ka)
  | 0xA => return .errinj c (← Reg.read f.a f.ka)
  | 0xB => return .wayset c (← finRead 16 (bitsAt g.imm 0 4))
  | _ => none

/-- What the fields of an assigned opcode say, before the checks of R64 and R68. -/
def decFields (w : Nat) : Option Instr := do
  let c ← Ctl.read w
  let idx := bitsAt w 0 8
  match bitsAt w 8 4 with
  | 0x0 => decC0 idx c w
  | 0x1 => decC1 idx c w
  | 0x2 => decC2 idx c w
  | 0x3 => decC3 idx c w
  | 0x4 => decC4 idx c w
  | 0x5 => decC5 idx c w
  | 0x6 => decC6 idx c w
  | 0x7 => decC7 idx c w
  | 0x8 => decC8 idx c w
  | 0x9 => decC9 idx c w
  | 0xA => decCA idx c w
  | 0xB => decCB idx c w
  | 0xC => decCC idx c w
  | 0xD => decCD idx c w
  | 0xE => decCE idx c w
  | _ => none

/-! ### The encoder -/

def encR (o : Nat) (c : Ctl) (f : RF) : IWord := f.pack (c.pack o)
def encI (o : Nat) (c : Ctl) (f : IF) : IWord := f.pack (c.pack o)
def encW (o : Nat) (c : Ctl) (f : WF) : IWord := f.pack (c.pack o)
def encM (o : Nat) (c : Ctl) (f : MF) : IWord := f.pack (c.pack o)

/-- D, A and B with an OPM. -/
def dab (opm : Nat) (d : Reg) (a b : Src) : RF := ({ opm := opm } : RF).rd d |>.sa a |>.sb b
def da (opm : Nat) (d : Reg) (a : Src) : RF := ({ opm := opm } : RF).rd d |>.sa a
def dabc (opm : Nat) (d : Reg) (a b e : Src) : RF := ({ opm := opm } : RF).rd d |>.sa a |>.sb b |>.sc e
/-- FT [1:0] and RM [4:2] (R100). -/
def ftrm (ft : Bool) (rm : Rnd) : Nat := ft.toNat + rm.code * 2 ^ 2

/-- The word of an instruction, from the encoding tables of the spec; an event has none. -/
def encode : Instr → IWord
  | .iadd c m d a b => encR 0x000 c (dab m.code d a b)
  | .isub c m d a b => encR 0x001 c (dab m.code d a b)
  | .iadd3 c m d a b e => encR 0x002 c (dabc m.code d a b e)
  | .imul c m d a b => encR 0x003 c (dab m.code d a b)
  | .imulhi c m d a b => encR 0x004 c (dab m.code d a b)
  | .imad c m d a b e => encR 0x005 c (dabc m.code d a b e)
  | .imadw c m d a b e => encR 0x006 c (dabc m.code d a b e)
  | .idiv c m d a b => encR 0x007 c (dab m.code d a b)
  | .irem c m d a b => encR 0x008 c (dab m.code d a b)
  | .imin c m d a b => encR 0x009 c (dab m.code d a b)
  | .imax c m d a b => encR 0x00A c (dab m.code d a b)
  | .iabs c m d a => encR 0x00B c (da m.code d a)
  | .ineg c m d a => encR 0x00C c (da m.code d a)
  | .isad c m d a b e => encR 0x00D c (dabc m.code d a b e)
  | .icmp c m cond bop q a b p =>
    encR 0x00E c (({ opm := m.code + cond.code * 2 ^ 4 + bop.code * 2 ^ 7 } : RF).qd q |>.sa a |>.sb b |>.pc p)
  | .isel c m d a b p => encR 0x00F c ((dab m.code d a b).pc p)
  | .iaddi c m d a imm => encI 0x010 c (({ opm := m.code, imm := imm.toNat } : IF).rd d |>.sa a)
  | .imuli c m d a imm => encI 0x011 c (({ opm := m.code, imm := imm.toNat } : IF).rd d |>.sa a)
  | .icmpi c m cond bop q a imm p =>
    encI 0x012 c (({ opm := m.code + cond.code * 2 ^ 4 + bop.code * 2 ^ 7, imm := imm.toNat, d := q.val, b := p.code } : IF).sa a)
  | .lea c m sh d a b => encR 0x013 c (dab (m.code + sh.val * 2 ^ 4) d a b)
  | .idot4 c sat ua ub d a b e => encR 0x014 c (dabc (sat.toNat * 2 ^ 3 + ua.toNat * 2 ^ 4 + ub.toNat * 2 ^ 5) d a b e)
  | .idot2 c sat ua ub d a b e => encR 0x015 c (dabc (sat.toNat * 2 ^ 3 + ua.toNat * 2 ^ 4 + ub.toNat * 2 ^ 5) d a b e)
  | .mov c m d a => encR 0x016 c (da m.code d a)
  | .movi c m d imm => encI 0x017 c (({ opm := m.code, imm := imm.toNat } : IF).rd d)
  | .movw c d imm => encW 0x018 c { d := d.num, kd := d.kind, imm := imm.toNat }
  | .and c w d a b => encR 0x100 c (dab w.toNat d a b)
  | .or c w d a b => encR 0x101 c (dab w.toNat d a b)
  | .xor c w d a b => encR 0x102 c (dab w.toNat d a b)
  | .andn c w d a b => encR 0x103 c (dab w.toNat d a b)
  | .not c w d a => encR 0x104 c (da w.toNat d a)
  | .ltab c w lut d a b e => encR 0x105 c (dabc (w.toNat + lut.toNat * 2 ^ 4) d a b e)
  | .shl c w wr d a n => encR 0x106 c (dab (w.toNat + wr.toNat * 2 ^ 4) d a n)
  | .shr c w wr d a n => encR 0x107 c (dab (w.toNat + wr.toNat * 2 ^ 4) d a n)
  | .sar c w wr d a n => encR 0x108 c (dab (w.toNat + wr.toNat * 2 ^ 4) d a n)
  | .rotl c w d a n => encR 0x109 c (dab w.toNat d a n)
  | .fshf c w wr right d hi lo n => encR 0x10A c (dabc (w.toNat + wr.toNat * 2 ^ 4 + right.toNat * 2 ^ 5) d hi lo n)
  | .bfx c w un d a pos len => encR 0x10B c (dabc (w.toNat + un.toNat * 2 ^ 2) d a pos len)
  | .bfi c w d ins base pos len => encR 0x10C c ((dabc w.toNat d ins base pos).se len)
  | .popc c w d a => encR 0x10D c (da w.toNat d a)
  | .clz c w d a => encR 0x10E c (da w.toNat d a)
  | .ctz c w d a => encR 0x10F c (da w.toNat d a)
  | .brev c w d a => encR 0x110 c (da w.toNat d a)
  | .bperm c d a b sel => encR 0x111 c (dabc 0 d a b sel)
  | .clmul c w d a b => encR 0x112 c (dab w.toNat d a b)
  | .clmulh c w d a b => encR 0x113 c (dab w.toNat d a b)
  | .ltabi c lut d a b imm => encI 0x114 c (({ opm := lut.toNat * 2 ^ 4, imm := imm.toNat } : IF).rd d |>.sa a |>.sb b)
  | .ptab c lut q pa pb pc => encR 0x116 c { opm := lut.toNat * 2 ^ 4, d := q.val, a := pa.code, b := pb.code, c := pc.code }
  | .pmov c (.toReg d) => encR 0x117 c (({} : RF).rd d)
  | .pmov c (.toPred mask a) => encR 0x117 c (({ opm := 2 ^ 4 + mask.toNat * 2 ^ 5 } : RF).sa a)
  | .fadd c f rm d a b => encR 0x200 c (dab (ftrm f rm) d a b)
  | .fsub c f rm d a b => encR 0x201 c (dab (ftrm f rm) d a b)
  | .fmul c f rm d a b => encR 0x202 c (dab (ftrm f rm) d a b)
  | .ffma c f rm d a b e => encR 0x203 c (dabc (ftrm f rm) d a b e)
  | .fmin c f d a b => encR 0x204 c (dab f.toNat d a b)
  | .fmax c f d a b => encR 0x205 c (dab f.toNat d a b)
  | .fcmp c f cond bop q a b p =>
    encR 0x206 c (({ opm := f.toNat + cond.code * 2 ^ 6 + bop.code * 2 ^ 9 } : RF).qd q |>.sa a |>.sb b |>.pc p)
  | .fclass c f mask q a => encR 0x208 c (({ opm := f.toNat + mask.toNat * 2 ^ 6 } : RF).qd q |>.sa a)
  | .faddi c f rm d a imm => encI 0x20A c (({ opm := ftrm f rm, imm := imm.toNat } : IF).rd d |>.sa a)
  | .fmuli c f rm d a imm => encI 0x20B c (({ opm := ftrm f rm, imm := imm.toNat } : IF).rd d |>.sa a)
  | .ffmai c f rm d a b imm => encI 0x20C c (({ opm := ftrm f rm, imm := imm.toNat } : IF).rd d |>.sa a |>.sb b)
  | .hadd2 c f rm d a b => encR 0x300 c (dab (ftrm f rm) d a b)
  | .hmul2 c f rm d a b => encR 0x301 c (dab (ftrm f rm) d a b)
  | .hfma2 c f rm d a b e => encR 0x302 c (dabc (ftrm f rm) d a b e)
  | .hmin2 c f d a b => encR 0x303 c (dab f.toNat d a b)
  | .hmax2 c f d a b => encR 0x304 c (dab f.toNat d a b)
  | .hcmp2 c f cond bop q qe a b p =>
    encR 0x305 c (({ opm := f.toNat + cond.code * 2 ^ 6 + bop.code * 2 ^ 9, e := qe.val } : RF).qd q |>.sa a |>.sb b |>.pc p)
  | .cvt c df sf rm sat d a =>
    encR 0x306 c (da (rm.code * 2 ^ 2 + sat.toNat * 2 ^ 5 + df.toNat * 2 ^ 6 + sf.toNat * 2 ^ 10) d a)
  | .cvtpk c df sf rm sat d a b x e =>
    encR 0x307 c ((dabc (rm.code * 2 ^ 2 + sat.toNat * 2 ^ 5 + df.toNat * 2 ^ 6 + sf.toNat * 2 ^ 10) d a b x).se e)
  | .f2i c sf iw iu rm sat d a =>
    encR 0x308 c (da (rm.code * 2 ^ 2 + sat.toNat * 2 ^ 5 + sf.toNat * 2 ^ 10 + iw.code * 2 ^ 14 + iu.toNat * 2 ^ 16) d a)
  | .i2f c df iw iu rm sat d a =>
    encR 0x309 c (da (rm.code * 2 ^ 2 + sat.toNat * 2 ^ 5 + df.toNat * 2 ^ 6 + iw.code * 2 ^ 14 + iu.toNat * 2 ^ 16) d a)
  | .qblk c f4x nosp rm d a =>
    encR 0x30A c (da (rm.code * 2 ^ 2 + (if f4x then 8 else 5) * 2 ^ 6 + nosp.toNat * 2 ^ 17) d a)
  | .dqblk c f4x rm d a => encR 0x30B c (da (rm.code * 2 ^ 2 + (if f4x then 8 else 5) * 2 ^ 10) d a)
  | .scalex c f rm d a n => encR 0x30C c (dab (ftrm f rm) d a n)
  | .frnd c f rm d a => encR 0x30D c (da (ftrm f rm) d a)
  | .fdot2 c f rm d a b e => encR 0x30E c (dabc (ftrm f rm) d a b e)
  | .rcp c d a => encR 0x400 c (da 0 d a)
  | .rsq c d a => encR 0x401 c (da 0 d a)
  | .sqrt c f rm d a => encR 0x402 c (da (ftrm f rm) d a)
  | .ex2 c d a => encR 0x403 c (da 0 d a)
  | .lg2 c d a => encR 0x404 c (da 0 d a)
  | .sin c d a => encR 0x405 c (da 0 d a)
  | .cos c d a => encR 0x406 c (da 0 d a)
  | .tanh c d a => encR 0x407 c (da 0 d a)
  | .sigm c d a => encR 0x408 c (da 0 d a)
  | .fdiv c f rm d a b => encR 0x409 c (dab (ftrm f rm) d a b)
  | .lxch c w mode seg qe d a b m =>
    encR 0x500 c { dabc (w.toNat + mode.code * 2 ^ 2 + seg.val * 2 ^ 4 + qe.isSome.toNat * 2 ^ 7) d a b m with e := optPNum qe }
  | .lpoll c (.any q) pa m => encR 0x501 c (({ a := pa.code } : RF).qd q |>.sc m)
  | .lpoll c (.all q) pa m => encR 0x501 c (({ a := pa.code, opm := 2 ^ 2 } : RF).qd q |>.sc m)
  | .lpoll c (.uni q) pa m => encR 0x501 c (({ a := pa.code, opm := 2 * 2 ^ 2 } : RF).qd q |>.sc m)
  | .lpoll c (.mask d) pa m => encR 0x501 c (({ a := pa.code, opm := 3 * 2 ^ 2 } : RF).rd d |>.sc m)
  | .lpoll c (.count d) pa m => encR 0x501 c (({ a := pa.code, opm := 4 * 2 ^ 2 } : RF).rd d |>.sc m)
  | .lpeer c w same d a m => encR 0x502 c ((da (w.toNat + same.toNat * 2 ^ 2) d a).sc m)
  | .lred c op ty d a m => encR 0x503 c ((da (op.code * 2 ^ 2 + ty.code * 2 ^ 5) d a).sc m)
  | .lscan c op ty ex d a m => encR 0x504 c ((da (op.code * 2 ^ 2 + ty.code * 2 ^ 5 + ex.toNat * 2 ^ 7) d a).sc m)
  | .llead c hi q m => encR 0x505 c (({ opm := hi.toNat } : RF).qd q |>.sc m)
  | .lbcast c w d a b m => encR 0x506 c (dabc w.toNat d a b m)
  | .bra c imm => encW 0x600 c { imm := imm.toNat }
  | .brx c rel a => encR 0x601 c (({ opm := rel.toNat } : RF).ra a)
  | .call c d imm => encW 0x602 c { d := d.val, imm := imm.toNat }
  | .callx c rel d a => encR 0x603 c (({ opm := rel.toNat } : RF).vd d |>.ra a)
  | .ret c a => encR 0x604 c (({} : RF).ra a)
  | .joinset c j imm => encW 0x605 c { d := j.val, imm := imm.toNat }
  | .joinwait c j => encR 0x606 c { a := j.val }
  | .joindrop c j => encR 0x607 c { a := j.val }
  | .exit c => encR 0x608 c {}
  | .yield c => encR 0x609 c {}
  | .nop c => encR 0x60A c {}
  | .ipf c n level imm => encW 0x60B c { a := level.val, opm := n.toNat, imm := imm.toNat }
  | .sleep c n => encI 0x60C c { imm := n.toNat }
  | .ld c sz d m => encM 0x700 c (({ d := d.val, opm := sz.code } : MF).mem m)
  | .st c sz m b => encM 0x701 c (({ opm := sz.code } : MF).sb b |>.mem m)
  | .ldg c sz d a imm => encI 0x702 c (({ d := d.val, opm := sz.code, imm := imm.toNat } : IF).ra a)
  | .stg c sz a imm b => encI 0x703 c (({ opm := sz.code, imm := imm.toNat } : IF).ra a |>.sb b)
  | .ldk c sz d m => encM 0x704 c (({ d := d.val, kd := 1, opm := sz.code } : MF).mem m)
  | .lds c sz d a imm => encI 0x706 c (({ d := d.val, opm := sz.code, imm := imm.toNat } : IF).sa a)
  | .sts c sz a imm b => encI 0x707 c (({ opm := sz.code, imm := imm.toNat } : IF).sa a |>.sb b)
  | .prf c l2 m => encM 0x708 c (({ opm := l2.toNat } : MF).mem m)
  | .cline c op m => encM 0x709 c (({ opm := op.code } : MF).mem m)
  | .otsync c => encR 0x70A c {}
  | .objrd c hi d ob => encM 0x70B c (({ d := d.val, opm := hi.toNat } : MF).ob ob)
  | .atom c op w sc od d m b =>
    encM 0x800 c (({ opm := op.code + w.toNat * 2 ^ 4 + sc.code * 2 ^ 5 + od.code * 2 ^ 8 } : MF).rd d |>.sb b |>.mem0 m)
  | .atomcas c w sc od d m b =>
    encM 0x801 c (({ opm := w.toNat * 2 ^ 4 + sc.code * 2 ^ 5 + od.code * 2 ^ 8 } : MF).rd d |>.rb b |>.mem0 m)
  | .red c op w sc od m b =>
    encM 0x802 c (({ opm := op.code + w.toNat * 2 ^ 4 + sc.code * 2 ^ 5 + od.code * 2 ^ 8 } : MF).sb b |>.mem0 m)
  | .bankop c op ty sc od m b =>
    encM 0x803 c (({ opm := op.code + ty.code * 2 ^ 3 + sc.code * 2 ^ 5 + od.code * 2 ^ 8 } : MF).rb b |>.mem0 m)
  | .bankred c op ty sc od d m n =>
    encM 0x804 c (({ opm := op.code + ty.code * 2 ^ 3 + sc.code * 2 ^ 5 + od.code * 2 ^ 8 } : MF).rd d |>.sb n |>.mem0 m)
  | .atomf c op nr sc od d m b =>
    encM 0x805 c (({ opm := op.code + nr.toNat * 2 ^ 4 + sc.code * 2 ^ 5 + od.code * 2 ^ 8 } : MF).rd d |>.sb b |>.mem0 m)
  | .cpy c dst m b => encM 0x900 c (({ d := dst.num, opm := dst.bo1 } : MF).rb b |>.mem0 m)
  | .cpyt c dst st m b => encM 0x901 c (({ d := dst.num, opm := dst.bo1 + st.toNat * 2 } : MF).rb b |>.mem0 m)
  | .cpymc c dst m b => encM 0x902 c (({ d := dst.num, opm := dst.bo1 } : MF).rb b |>.mem0 m)
  | .waitany c qe d m => encR 0x904 c { da qe.isSome.toNat d m with e := optPNum qe }
  | .waitall c qe d m => encR 0x905 c { da qe.isSome.toNat d m with e := optPNum qe }
  | .ffr c d m => encR 0x906 c (da 0 d m)
  | .tagclr c m => encR 0x907 c (({} : RF).sa m)
  | .tagrd c d t => encR 0x908 c (da 0 d t)
  | .bar c arv id n => encR 0xA00 c (({ a := id.val, opm := arv.toNat } : RF).sb n)
  | .boarrive c tx sc none a imm b =>
    encI 0xA01 c (({ opm := tx.toNat + sc.code * 2 ^ 2, imm := imm.toNat } : IF).ra a |>.sb b)
  | .boarrive c tx sc (some d) a imm b =>
    encI 0xA01 c (({ opm := tx.toNat + 2 + sc.code * 2 ^ 2, imm := imm.toNat } : IF).rd d |>.ra a |>.sb b)
  | .boexpect c add a imm b => encI 0xA02 c (({ opm := add.toNat, imm := imm.toNat } : IF).ra a |>.sb b)
  | .bowait c sc d a imm b => encI 0xA03 c (({ opm := sc.code * 2 ^ 2, imm := imm.toNat } : IF).rd d |>.ra a |>.sb b)
  | .botest c sc d a imm b => encI 0xA04 c (({ opm := sc.code * 2 ^ 2, imm := imm.toNat } : IF).rd d |>.ra a |>.sb b)
  | .boinit c a imm b => encI 0xA05 c (({ imm := imm.toNat } : IF).ra a |>.sb b)
  | .acq c sh q ob => encM 0xA06 c (({ d := optPNum q, opm := sh.toNat + q.isSome.toNat * 2 } : MF).obj0 ob)
  | .rel c ob => encM 0xA07 c (({} : MF).obj0 ob)
  | .fence c od sc => encR 0xA08 c { opm := od.code + sc.code * 2 ^ 2 }
  | .publish c ob => encM 0xA09 c (({} : MF).obj0 ob)
  | .tryacq c sh q ob => encM 0xA0A c (({ d := q.val, opm := sh.toNat } : MF).obj0 ob)
  | .mma c p => encR 0xB00 c { a := p.val }
  | .wload c bf cmp bs buf m b =>
    encM 0xB01 c (({ d := buf.val, opm := bf.toNat + cmp.code * 2 ^ 4 + bs.toNat * 2 ^ 6 } : MF).rb b |>.mem0 m)
  | .wdrop c buf => encR 0xB02 c { a := buf.val }
  | .accld c fmt m b => encM 0xB03 c (({ opm := fmt.toNat } : MF).rb b |>.mem0 m)
  | .accst c fmt rm sat m b =>
    encM 0xB04 c (({ opm := fmt.toNat + rm.code * 2 ^ 4 + sat.toNat * 2 ^ 7 } : MF).rb b |>.mem0 m)
  | .accz c a => encR 0xB05 c (({} : RF).ra a)
  | .mregion c mode none => encR 0xB06 c { opm := mode.code }
  | .mregion c mode (some a) => encR 0xB06 c (({ opm := mode.code + 4 } : RF).ra a)
  | .mstat c d a => encR 0xB07 c { d := d.val, a := optSNum a, ka := optSKind a, opm := a.isNone.toNat }
  | .mcancel c a => encR 0xB08 c { a := optSNum a, ka := optSKind a, opm := a.isNone.toNat }
  | .wtalloc c tr d ob b => encM 0xC00 c (({ opm := tr.toNat } : MF).rd d |>.rb b |>.obj0 ob)
  | .wtfree c a => encR 0xC01 c (({} : RF).ra a)
  | .wsend c a b rank size ctag =>
    encI 0xC02 c (({ imm := rank.val + size.val * 2 ^ 4 + ctag.val * 2 ^ 8 } : IF).ra a |>.sb b)
  | .wtquery c d a => encR 0xC03 c (({} : RF).rd d |>.ra a)
  | .wtrenew c a b => encR 0xC04 c (({} : RF).ra a |>.sb b)
  | .awlnext c d q => encR 0xD00 c (({ e := q.val } : RF).rd d)
  | .awlpeek c d => encR 0xD01 c (({} : RF).rd d)
  | .emit c q ob b => encM 0xD02 c (({ d := optPNum q, opm := q.isSome.toNat } : MF).rb b |>.obj0 ob)
  | .emitclose c ob => encM 0xD03 c (({} : MF).obj0 ob)
  | .spawn c wait gs d a imm =>
    encW 0xD04 c { d := d.val, a := a.num, ka := a.kind, opm := gs.val + wait.toNat * 2 ^ 3, imm := imm.toNat }
  | .lastsel c d q none => encM 0xD05 c ({ ({ b := q.val, ka := 2, opm := 1 } : MF).rd d with objr := 0 })
  | .lastsel c d q (some ob) => encM 0xD05 c (({ b := q.val } : MF).rd d |>.obj0 ob)
  | .padmask c n q qe a => encR 0xD06 c (({ opm := n.val, d := q.val, e := qe.val } : RF).sa a)
  | .dlread c sel qe d => encR 0xD07 c { ({ opm := sel.code + qe.isSome.toNat * 2 ^ 2 } : RF).rd d with e := optPNum qe }
  | .commit c part a => encR 0xD08 c (({ opm := part.toNat } : RF).sa a)
  | .idembeg c f n => encI 0xD09 c { imm := f.toNat + n.val * 2 ^ 10 }
  | .idemend c => encR 0xD0A c {}
  | .wrapdone c => encR 0xD0B c {}
  | .sysrd c w sel d => encI 0xE00 c (({ opm := w.toNat, imm := sel.toNat } : IF).rd d)
  | .syswr c w sel a => encI 0xE01 c (({ opm := w.toNat, imm := sel.toNat } : IF).sa a)
  | .trap c code => encI 0xE02 c { imm := code.toNat }
  | .trapret c act disc a b m =>
    encR 0xE03 c (({ opm := act.code + disc.toNat * 2 ^ 2 } : RF).ra a |>.rb b |>.sc m)
  | .bkpt c code => encI 0xE04 c { imm := code.toNat }
  | .parkrd c sel d a n => encR 0xE05 c (({ opm := sel.code } : RF).vd d |>.ra a |>.sb n)
  | .oplog c d a n => encR 0xE06 c (({} : RF).vd d |>.ra a |>.sb n)
  | .replay c d a => encR 0xE07 c (({} : RF).rd d |>.ra a)
  | .cntrd c w ctr d => encI 0xE08 c (({ opm := w.toNat, imm := ctr.toNat } : IF).rd d)
  | .cntcfg c gc a => encI 0xE09 c (({ imm := gc.val } : IF).sa a)
  | .errinj c a => encR 0xE0A c (({} : RF).ra a)
  | .wayset c n => encI 0xE0B c { imm := n.val }
  | .unassignedOpcode w => w
  | .objectCacheFill .. | .loadComplete .. | .accessLogged .. | .storePerform .. | .pageWalk .. | .recordRetry ..
  | .s2fault .. | .sleepEnd .. | .yieldEnd .. | .requestAccept .. | .requestGrant .. | .attemptCheck ..
  | .passComplete .. | .wloadComplete .. | .wdropComplete .. | .transferComplete .. | .copyEnd ..
  | .cpymcBranchArrival .. | .weltArrival .. | .roundDelivery .. | .orphanExpiry .. | .syncRequestArrival ..
  | .syncReleasePerform .. | .versionIncrement .. | .waysetTakesEffect .. | .recordEnqueue .. | .regionArmed ..
  | .diversion .. | .deadlineTermination .. | .quantumEnd .. | .schedulerDecision .. | .bankExchange ..
  | .spillFill .. | .launchCompletion .. | .packetFetch .. | .slotPollTimeout .. | .tornRepoll .. | .launch ..
  | .wait .. | .waitPoll .. | .heldRelease .. | .signal .. | .xfer .. | .modload .. | .moddrop ..
  | .moddropComplete .. | .graph .. | .preemptRequeue .. | .preemptSuspend .. | .preemptResume ..
  | .preemptCancel .. | .launchRegisterStore .. | .qcfgEnSet .. | .qcfgEnClear .. | .qctlResume .. | .qctlSkip ..
  | .apertureGate .. | .apertureUngate .. | .resumeReplay .. | .resumeRetry .. | .resumeSkip .. | .resumeKill ..
  | .frtailWrite .. | .s1inval .. | .invalidationComplete .. | .registerWrite .. | .bankcfgWrite ..
  | .ualcfgRetrain .. | .ualcfgTakesEffect .. | .rcvsetWrite .. | .rcfsetWrite .. | .railStep .. | .railSettled ..
  | .dividerChange .. | .controllerSample .. | .snapshotRefresh .. | .calvsafe .. | .calvsafeRun .. | .htrain ..
  | .hbmTrainingDone .. | .ecsRead .. | .s2map .. | .s2unmap .. | .s2root .. | .pcreate .. | .pdestroy ..
  | .partitionFreed .. | .s2reply .. | .fwstage .. | .fwactivate .. | .attest .. | .ptpSync ..
  | .ptpAnnounceTimeout | .flitReplay .. | .bridgeRetrain .. | .ualinkRequest .. | .bar4Access .. | .powerOn ..
  | .coldReset | .instructionLineFill .. | .sfuDivResult .. | .scratchZeroFill .. | .xferComplete ..
  | .laceRetrain .. | .powerOff => 0

/-! ### The decoder -/

/-- Why bytes are not an instruction. -/
inductive DecodeErr where
  /-- R68 step 3: the word of an assigned opcode breaks R62, R64 to R67 or its own limits. -/
  | illegalEncoding
  /-- Fewer than 16 bytes. -/
  | short
  deriving DecidableEq, Repr

/-- Steps 2 and 3 of R68 for one word: an unassigned opcode is the instruction UNASSIGNED_OPCODE, which traps. -/
def decodeWord (w : IWord) : Except DecodeErr Instr :=
  if opcAssigned (w.toNat % 4096) then
    match decFields w.toNat with
    | some i => if i.wf && encode i == w then .ok i else .error .illegalEncoding
    | none => .error .illegalEncoding
  else .ok (.unassignedOpcode w)

/-- A little-endian number (R7). -/
def leNat : List Byte → Nat
  | [] => 0
  | b :: bs => b.toNat + 256 * leNat bs

/-- `n` bytes of a number, little-endian. -/
def leBytes : Nat → Nat → List Byte
  | 0, _ => []
  | n + 1, x => BitVec.ofNat 8 x :: leBytes n (x / 256)

/-- Decode the first 16 bytes (R60), and answer the rest. -/
def decodeBytes (bs : List Byte) : Except DecodeErr (Instr × List Byte) :=
  if 16 ≤ bs.length then
    match decodeWord (BitVec.ofNat 128 (leNat (bs.take 16))) with
    | .ok i => .ok (i, bs.drop 16)
    | .error e => .error e
  else .error .short

/-- The bytes of a table word: `nbits` bits of `w`, every further bit of the 16 bytes zero. -/
def tableBytes (nbits w : Nat) : List Byte := leBytes 16 (w % 2 ^ nbits)

/-- The instruction the decoder reads from a word of spec/opcode_table.json. -/
def decodeTableWord (nbits w : Nat) : Option Instr :=
  match decodeBytes (tableBytes nbits w) with
  | .ok (i, _) => some i
  | .error _ => none

end Sys2Proof
end

