-- ==== Sys2Proof/Config.lean ====
section
/-! DEFINITION. What the spec leaves open: free values, which nothing in Lean can evaluate, and the counts of a full part
(R2). A free value is an opaque constant applied to a counter of the state or to the operands it depends on. -/

namespace Sys2Proof.Config

/-- DESIGN CHOICE, log entry 5. The n-th value that the spec leaves open (a choice of the part that no rule fixes). -/
opaque freeBits : Nat → DWord

/-- DESIGN CHOICE, log entry 5. What byte `b` of the bank memory of a die holds after change number `e` of its size or range. -/
opaque bankByte (die e b : Nat) : Byte

/-- DESIGN CHOICE, log entry 6. The result bits of approximate function `fn` (0 RCP, 1 RSQ, 2 EX2, 3 LG2, 4 SIN, 5 COS, 6 TANH,
7 SIGM) for the FP32 operand `a`; the same for every core and run (R124). The machine forces it within the bound of R122. -/
opaque approx (fn : Nat) (a : Word) : Word

/-- DESIGN CHOICE, log entry 7. The signatures and the serial number of R425, byte `i` of the report of die `d`. -/
opaque reportByte (d i : Nat) : Byte

/-- DESIGN CHOICE, log entry 27. Both signatures of an image verify against the keys of these digests (R423). -/
opaque signedBy (keyEd keyMl : Digest) (header : List Byte) : Bool

/-- DESIGN CHOICE, log entry 27. The digests of a die's boot ROM (0) and of its first image (1), which its boot measures (R423). -/
opaque bootDigest (die which : Nat) : Digest

/-- DESIGN CHOICE, log entry 90. Which of the 16 entries of a 64 KiB page that disagree a walk uses, by the machine's number of the
moment and the entry's address. -/
opaque contigEntry (n a : Nat) : Nat

/-- DESIGN CHOICE, log entry 94. Which of the ports it may use the requests of thread `t` to endpoint `ep` take (R381). -/
opaque port (t ep : Nat) : Nat

end Sys2Proof.Config

namespace Sys2Proof

/-- R2: dies of a package. -/
abbrev nDies : Nat := 4
/-- R2: cores of a die. -/
abbrev coresPerDie : Nat := 96
/-- R2: clusters of a die. -/
abbrev clustersPerDie : Nat := 24
/-- Entries of a core's load queue: 8 long-latency instructions of 512 threads (R33). DESIGN CHOICE, log entry 93. -/
abbrev loadQueueSize : Nat := 4096
/-- R24: thread slots of a core. -/
abbrev slotsPerCore : Nat := 512

end Sys2Proof
end

