-- ==== Sys2Proof/Machine/State.lean ====
section
/-! DEFINITION. The state of the part as plain data: everything the spec names, and the model's own fields `agenda`, `iss`,
`nextId` and `free`. Tables are association lists sorted by key; a key not listed has the default the reader names.
Units have flat keys: die d; core 96 d + core; thread 512 core + slot; cluster 24 d + cluster; queue 1024 d + queue;
partition 0 to 15; groups, launches, requests and messages have numbers of the model's own. -/

namespace Sys2Proof.Machine

/-- An association list sorted by key. -/
abbrev Tbl (α : Type) := List (Nat × α)
/-- Memory: addresses strictly rising, no entry equal to 0, which is what an unlisted byte holds. -/
abbrev Mem := List Host.Cell

/-! ### Places -/

/-- A place in one of the spaces of R165, after translation. -/
inductive Loc where
  /-- Device memory by physical address (R247). -/
  | hbm (pa : Nat)
  /-- Bank memory of a die, byte B of R252. -/
  | bank (die b : Nat)
  /-- Scratch of a core (R164). -/
  | scratch (core off : Nat)
  /-- Remote memory: the issuing die and partition, endpoint, offset (R382). -/
  | remote (die part ep off : Nat)
  /-- A host window of a partition (R380). -/
  | host (part win off : Nat)
  /-- Bytes outside an extent under BMODE ZERO: read zero, writes dropped (R159). -/
  | zero
  deriving DecidableEq, Repr

/-- A run of bytes at one place. -/
structure Seg where
  loc : Loc
  len : Nat
  deriving DecidableEq, Repr

/-! ### Threads and groups -/

/-- An armed reconvergence barrier (R127). -/
structure JBar where
  start : DWord
  jpc : DWord
  inst : Nat
  deriving DecidableEq, Repr

/-- What a thread that does not retire its instruction waits in (R26). -/
inductive Wait where
  /-- JOINWAIT on jN (R130). -/
  | join (j : Nat)
  /-- An active arrival in the cross-lane or QBLK instance of its group, turn and PC (R140, R117). -/
  | cross
  /-- BAR on a group barrier, in a phase of it (R221). -/
  | bar (id phase : Nat)
  /-- BOWAIT registered at an object, with destination and parity (R217). A `none` destination here and below is a k register
  that another thread of the PC group writes (R18). -/
  | bowait (obj : Loc) (d : Option Reg) (par : Bool)
  /-- WAITANY (all = false) or WAITALL (R233). -/
  | tags (all : Bool) (d : Option Reg) (qe : Option PDst) (m : DWord)
  /-- ACQ, with its predicate (R269). -/
  | acq (qe : Option PDst)
  /-- An engine request that has no table entry yet (R186). -/
  | engine
  /-- IDEMBEG, with its first register and count (R294). -/
  | idem (f n : Nat)
  /-- AWLNEXT waits for a record (R281). -/
  | awl (d : Option Reg) (qe : PDst)
  /-- Any other wait of an instruction that is no blocking instruction: it is issued again and looks again (copy room, an access
  that must perform first). -/
  | again
  /-- A blocking instruction that is issued again and looks again: EMIT, WTALLOC, SPAWN, a cross-lane instruction whose earlier
  instance is open. -/
  | room
  /-- As `again`, of an instruction that completes before its thread can be diverted (FENCE, EXIT, releases; R300). -/
  | finish
  deriving DecidableEq, Repr

inductive RunState where
  | running
  /-- Waiting, not retired. -/
  | waiting (w : Wait)
  /-- Asleep until a core clock (R136). -/
  | sleeping (due : Nat)
  /-- Ineligible until a core clock after YIELD, or SLEEP of 0 (R135, R136). -/
  | resting (due : Nat)
  /-- Parked on a trap or, with `consumer`, at a consumer of a logged access (R346, R348). -/
  | parked (consumer : Bool)
  | exited
  deriving DecidableEq, Repr

/-- A fault record of R349, its fields as numbers; RSEQ and MARK are given when it is written. `serial` is the model's own
number of the record. -/
structure FRec where
  serial : Nat := 0
  rseq : Option Nat := none
  code : Nat
  detail : Nat
  flags : Nat := 0
  die : Nat := 0
  core : Nat := 0
  launchId : Nat := 0
  tid : Nat := 0
  grp : Nat := 0
  pc : Nat := 0
  addr : Nat := 0
  gpa : Nat := 0
  handle : Nat := 0
  logIdx : Nat := 255
  time : Nat := 0
  deriving DecidableEq, Repr

/-- An instruction that has issued and waits to act: its word, the lead of its PC group (R18, R147), and what it read at issue that
others may change: the group's k registers and the object cache it captured from (R32, R156). -/
structure Held where
  word : IWord
  lead : Option Nat
  k : Tbl Word
  caps : List (Nat × Nat × BitVec 256)
  deriving DecidableEq, Repr

/-- A thread (R13 to R17). -/
structure Thread where
  group : Nat
  tid : Nat
  /-- v registers; one not listed is zero. -/
  v : Tbl Word := []
  q : BitVec 8 := 0
  /-- Armed barriers j0 to j15. -/
  j : Tbl JBar := []
  pc : DWord := 0
  fpflags : BitVec 5 := 0
  retired : DWord := 0
  dvpc : DWord := 0
  run : RunState := .running
  diverted : Bool := false
  /-- The lookahead violation of the next instruction has been counted (R34). -/
  stalled : Bool := false
  /-- The issued instruction it waits in, and what that read at issue. -/
  held : Option Held := none
  /-- A wait released in a DET launch, not seen until the group's next quantum (R339). -/
  detHeld : Bool := false
  /-- Per-thread AWLNEXTs made (R280). -/
  awlN : Nat := 0
  /-- Latest fault record (R354). -/
  lastRec : Option FRec := none
  /-- GEN of its handle, where it has kept one that is no longer its slot's (R346, R367). -/
  gen : Option Nat := none
  deriving DecidableEq, Repr

/-- A group barrier (R221); its waiting threads are those that wait in `Wait.bar`. -/
structure GBar where
  n : Nat := 0
  count : Nat := 0
  /-- Arrivals of the phase whose thread had accesses still to perform: thread, and the number below which these lie. -/
  rel : List (Nat × Nat) := []
  /-- The number of the phase, and phases that are complete but for accesses their arrivals release: number and `rel` (R221, R261). -/
  phase : Nat := 0
  closing : List (Nat × List (Nat × Nat)) := []
  deriving DecidableEq, Repr

/-- A sync object held by a group: the place of its state word, its captured extents, the count of holds (R257, R270). -/
structure Hold where
  word : Nat
  exts : List (Nat × Nat)
  count : Nat
  deriving DecidableEq, Repr

/-- The idempotent region of a group (R294, R295). -/
structure Idem where
  armed : Bool
  first : Nat
  n : Nat
  pc : DWord
  /-- v(F) to v(F + n − 1), q, %fpflags, %retired, %dvpc by thread key. -/
  snap : Tbl (List Word × BitVec 8 × BitVec 5 × DWord × DWord)
  k : Tbl Word
  region : BitVec 2
  mtol : Word
  mretry : Nat
  pads : List Word
  deriving DecidableEq, Repr

/-- Where a group's registers are (R366). -/
inductive SwapState where
  | resident
  /-- A swap is requested: no thread issues (R37). -/
  | requested
  /-- Exchanged into the shadow bank, its context on the way to the save area; the spill is not done. -/
  | spilling
  | out
  /-- Staged into the shadow bank for its return. -/
  | staged
  deriving DecidableEq, Repr

/-- A group counter (R150): its value now and at the start of the clock, its configuration and its thread for filter 00, and the
configuration that takes effect with the next clock. -/
structure GCnt where
  value : DWord := 0
  value0 : DWord := 0
  cfg : Word := 0
  who : Nat := 0
  next : Option (Word × Nat) := none
  deriving DecidableEq, Repr

/-- A group on its core (R18, R25, R150, R202, R291). -/
structure Group where
  launch : Nat
  core : Nat
  grp : Nat
  turn : Nat
  size : Nat
  regs : Nat
  k : Tbl Word := []
  region : BitVec 2 := 0
  /-- MTOL_f: INT8 in [7:0], E4M3/E5M2 in [15:8], F4X in [23:16], FP16/BF16 in [31:24] (R202). -/
  mtol : Word
  mretry : Nat := 3
  pads : List Word
  /-- Last matched by LASTSEL (R291). -/
  selected : Nat := 0
  gc : List GCnt := [{}, {}, {}, {}]
  bars : Tbl GBar := []
  holds : List Hold := []
  idem : Option Idem := none
  swap : SwapState := .resident
  /-- The form of AWLNEXT used in a DET launch: true group-uniform (R280). -/
  awlForm : Option Bool := none
  /-- Group-uniform AWLNEXTs made (R280). -/
  awlN : Nat := 0
  armed : Bool := false
  deriving DecidableEq, Repr

/-- An active arrival: mask, the operands read at issue, the predicate of LPOLL (R140, R32). -/
structure XArr where
  mask : DWord
  a : DWord
  b : Word
  p : Bool
  deriving DecidableEq, Repr

/-- An open cross-lane instance (R140), or a QBLK block (R117). -/
structure Cross where
  group : Nat
  turn : Nat
  pc : DWord
  /-- A QBLK block half: 0 or 1; 2 for a cross-lane instance. -/
  half : Nat
  arrived : BitVec 64
  /-- Active arrivals by lane. -/
  active : Tbl XArr
  op : Instr
  /-- DEGR of the core at its first arrival (R420). -/
  degr : Bool := false
  deriving DecidableEq, Repr

/-! ### Memory accesses in flight -/

/-- What an access does where it performs (R162, R172 to R179). -/
inductive AccKind where
  | load (sz : LdSz)
  | atom (op : AtomOp) (w64 : Bool)
  | cas (w64 : Bool)
  | atomf (op : AtomFOp)
  | bankop (op : BankOp) (ty : BankTy)
  | bankred (op : BankOp) (ty : BankTy) (n : Nat)
  | store (bytes : Nat)
  /-- A line operation on device memory, translated at issue to physical address `pa` (R168). -/
  | cline (op : ClineOp) (pa : Nat)
  deriving DecidableEq, Repr

/-- An access that passed its issue checks (R158). -/
structure Access where
  kind : AccKind
  /-- The generic pointer addr. -/
  ptr : DWord
  /-- The data operand: up to four words, or 32 of a CLINE.zero outside device memory (R168). -/
  data : List Word
  scope : Scope := .pkg
  order : Order := .rlx
  ch : BitVec 4 := 0
  priv : Bool := false
  /-- In an extent of a sync object the group held at issue (R257). -/
  held : Bool := false
  deriving DecidableEq, Repr

/-- An entry of a core's load queue: a load, returning atomic or BANKRED that retired and has not written d (R347). -/
structure LoadEntry where
  id : Nat
  thread : Nat
  group : Nat
  launch : Nat
  tid : Nat
  pc : DWord
  word : IWord
  acc : Access
  /-- None where another thread of the PC group writes the k register. -/
  d : Option Reg
  /-- The register the instruction names (R34). -/
  dn : Reg
  nd : Nat
  /-- Address operand as read at issue, and the object index (R347). -/
  aop : DWord
  objIdx : Nat
  /-- Instructions of the window that may still issue (R33). -/
  left : Nat
  /-- PC group of the issue, performed together (R173), and the core clock of its issue (R181). -/
  batch : Nat
  clk : Nat
  /-- Its line has been asked of its home slice, with those of its PC group. -/
  asked : Bool := false
  deriving DecidableEq, Repr

/-- An entry of the operand log (R347). -/
structure LogEntry where
  e : LoadEntry
  replaying : Bool
  stage2 : Bool
  detail : Nat
  /-- In the log proper; otherwise it waits in the load queue for an entry. -/
  inLog : Bool
  deriving DecidableEq, Repr

/-- A store-buffer entry (R162, R180). -/
structure StoreEntry where
  id : Nat
  /-- Its number for a handle (R346). -/
  slot : Nat
  thread : Nat
  group : Nat
  launch : Nat
  tid : Nat
  pc : DWord
  word : IWord
  acc : Access
  batch : Nat
  clk : Nat
  /-- Held by an imprecise fault already reported (R350). -/
  held : Bool := false
  /-- Of an instruction of class MEM or SCR, whose window this entry holds until it performs, and the instructions of the window
  that may still issue (R33). -/
  win : Bool := false
  left : Nat := 0
  deriving DecidableEq, Repr

/-- An SFU-class or DIV-class instruction in flight, with the thread as it stood when it issued (R344). -/
structure SfuEntry where
  id : Nat
  thread : Nat
  pc : DWord
  /-- None where another thread of the PC group writes the k register (R18). -/
  d : Option Reg
  /-- The register the instruction names (R34). -/
  dn : Reg
  res : List Word
  flags : BitVec 5
  /-- Detail of PIPE_ERROR (R410). -/
  punit : Nat
  left : Nat
  before : Thread
  /-- Open cross-lane instances, by PC and half, in which its lane had arrived when it issued: it was their instruction that is the
  older one (R146). -/
  seen : List (DWord × Nat) := []
  deriving DecidableEq, Repr

/-- The result of another long-latency instruction that has retired and not written it: of a cross-lane instruction (R141), or of one
of class MEM or SCR that is no load (R33, R35). -/
structure LateEntry where
  id : Nat
  thread : Nat
  group : Nat
  regs : List (Reg × List Word)
  preds : List (Nat × Bool)
  flags : BitVec 5
  /-- The registers the instruction names, and their sizes (R34). -/
  names : List (Reg × Nat)
  left : Nat
  /-- Of a long-latency instruction; otherwise of one of class ALU, whose k register waits for the thread's SFU- and DIV-class
  instructions to pass their checkers (R344). -/
  long : Bool
  /-- The result is known. A TRYACQ waits for the decision of its request (R269). -/
  ready : Bool := true
  deriving DecidableEq, Repr

/-- A line of a core's L1 data cache (R248). -/
structure L1Line where
  data : Line
  valid : BitVec 128
  dirty : BitVec 128
  deriving DecidableEq, Repr

/-- A leaf of a translation table: base of the page, its size, level, entry bits (R362). -/
structure Leaf where
  base : Nat
  size : Nat
  level : Nat
  bits : Nat
  deriving DecidableEq, Repr

/-- A TLB entry: a combined translation of one page, with the leaves of both stages, whose rights it enforces (R361, R363). -/
structure Tlb where
  part : Nat
  va : Nat
  size : Nat
  gpa : Nat
  pa : Nat
  /-- None without a stage 1. -/
  l1 : Option Leaf
  l2 : Leaf
  /-- Stage 2 maps it through POTGPA, for privileged threads only (R151). -/
  priv : Bool
  deriving DecidableEq, Repr

/-- An injector (R358, R359). -/
structure Injector where
  k : Nat
  target : Nat
  x : DWord
  first0 : Nat
  last0 : Nat
  first1 : Nat
  last1 : Nat
  bit0 : Nat
  bit1 : Nat
  /-- Strikes left; 0 for no limit. -/
  count : Nat
  /-- The next number of the model when it was armed: passes posted later are eligible. -/
  since : Nat
  thread : Nat
  launch : Nat
  part : Nat
  deriving DecidableEq, Repr

/-- A status ring entry (R207), its four words. -/
structure PStat where
  group : Nat
  passid : Word
  d1 : Word
  d2 : Word
  d3 : Word
  deriving DecidableEq, Repr

/-- A copy tag (R231). -/
structure Tag where
  count : Nat := 0
  ready : Bool := false
  err : Bool := false
  code : Nat := 0
  deriving DecidableEq, Repr

/-- A core (R19, R28, R164, R231, R248). -/
structure Core where
  /-- Issue pointer P. -/
  p : Nat := 0
  /-- Issue slots used in this clock and the threads that issued in it (R28). -/
  slotsUsed : Nat := 0
  issued : List Nat := []
  /-- Once the slots of this clock have begun: the threads that were eligible, the instruction-cache bank slot 0 fetched from, and
  the lanes whose FMA datapaths slot 0's choice needs, with whether it is an FP64 form (R28, R107). -/
  begun : Option (List Nat × Option Nat × List Nat × Bool) := none
  /-- Lanes whose FMA datapaths an FP64 instruction holds in this clock and in the next (R107). -/
  fmaHeld : List Nat := []
  fmaNext : List Nat := []
  /-- PC groups that issued with SH = 10 in the clock before, and in this one: their threads and the count of consecutive held
  issues (R30). -/
  holds : List (List Nat × Nat) := []
  holdsNext : List (List Nat × Nat) := []
  /-- Threads that issued with SH = 01 in the clock before, and in this one (R30). -/
  rests : List Nat := []
  restsNext : List Nat := []
  scrways : BitVec 16 := 0
  laviol : Word := 0
  tags : Tbl Tag := []
  scratch : Mem := []
  /-- Scratch ways given but not yet filled (R255, R366). -/
  unfilled : BitVec 12 := 0
  /-- Requested way counts, oldest first, with the first message number issued after each (R254). -/
  ways : List (Nat × Nat) := []
  l1d : Tbl L1Line := []
  l1i : Tbl Line := []
  tlb : List Tlb := []
  /-- Object cache: partition, index, entry of 32 B (R156). -/
  ocache : List (Nat × Nat × BitVec 256) := []
  /-- An object-cache fill that failed with an uncorrectable error (R180). -/
  obad : List (Nat × Nat) := []
  loads : List LoadEntry := []
  stores : List StoreEntry := []
  sfu : List SfuEntry := []
  late : List LateEntry := []
  olog : List LogEntry := []
  cross : List Cross := []
  ring : List PStat := []
  degr : Bool := false
  inj : Tbl Injector := []
  /-- GEN of each thread slot and store-buffer entry (R346). -/
  gens : Tbl Nat := []
  egens : Tbl Nat := []
  /-- Core counters by selector (R403), now and at the start of the clock (R149). -/
  cnt : Tbl DWord := []
  cnt0 : Tbl DWord := []
  deriving DecidableEq, Repr

/-! ### The matrix engine -/

inductive WState where
  | empty | loading | ready | error
  deriving DecidableEq, Repr

/-- The descriptor of a weight half, or the shape of the tile it holds (R193). -/
structure WDesc where
  st : WState := .empty
  /-- Error code of the load that left the half in ERROR. -/
  err : Nat := 0
  bfmt : Nat := 0
  cmp : WCmp := .none
  bscl : Bool := false
  k : Nat := 0
  n : Nat := 0
  deriving DecidableEq, Repr

/-- A weight half: the descriptor an MMA is checked against, and the tile passes stream, its shape and its columns as read. -/
structure WHalf where
  /-- What a load or drop that ended ungranted leaves behind, while passes accepted before it still use `tile` (R209). -/
  after : Option WDesc := none
  desc : WDesc := {}
  held : WDesc := {}
  tile : List Byte := []
  deriving DecidableEq, Repr

/-- A rectangle of the accumulator space (R184). -/
structure Rect where
  row : Nat
  col : Nat
  nr : Nat
  nc : Nat
  deriving DecidableEq, Repr

/-- A parameter block and what was captured with it (R195, R202). -/
structure MmaReq where
  m : Nat
  n : Nat
  k : Nat
  acc : Bool
  afmt : Nat
  ascale : Bool
  mode : RegionMode
  wbuf : Nat
  pri : Nat
  rect : Rect
  passid : Word
  bytes : Nat
  mtol : Word
  mretry : Nat
  /-- Rows and scale rows in scratch. -/
  rows : List (List Seg)
  srows : List (List Seg)
  deriving DecidableEq, Repr

inductive ReqKind where
  | mma (r : MmaReq)
  | wload (buf bfmt : Nat) (cmp : WCmp) (bscl : Bool) (k n : Nat) (src : List Seg) (bytes : Nat)
  | wdrop (buf : Nat)
  | accld (fmt : Nat) (rect : Rect) (src : List Seg) (bytes : Nat)
  | accst (fmt : Nat) (rm : Rnd) (sat : Bool) (rect : Rect) (dst : List Seg) (bytes : Nat)
  | accz (rect : Rect)
  deriving DecidableEq, Repr

/-- What a pass's status reports of its attempts (R207): the attempt in progress or last made, whether it runs at V_safe, the
lowest rail and step during its stream, the first attempt's mismatches, rows and columns not judged. -/
structure PassInfo where
  attempt : Nat := 0
  /-- The matrix clock in which its stream began. -/
  began : Nat := 0
  safe : Bool := false
  railmv : Nat := 0
  fstep : Nat := 0
  mism1 : Nat := 0
  unj : Nat := 0
  nanscale : Bool := false
  deriving DecidableEq, Repr

/-- Where an engine request stands (R199, R200). -/
inductive PassStage where
  | waiting
  /-- A pass to be streamed again as attempt `p.attempt`. -/
  | again (p : PassInfo)
  | stream (p : PassInfo)
  /-- The check accepted: the corrected position, APPROX, dC row by row. -/
  | accum (p : PassInfo) (corr : Option (Nat × Nat)) (approx : Bool) (dc : List Word)
  /-- Ended with an error code; completion is still to be written. -/
  | failed (p : PassInfo) (code : Nat)
  /-- A granted request of the transfer port. -/
  | transfer
  deriving DecidableEq, Repr

/-- An engine request (R185). -/
structure EReq where
  id : Nat
  core : Nat
  thread : Nat
  group : Nat
  launch : Nat
  kind : ReqKind
  bo : DWord
  /-- Matrix clock at which it was posted (R185), and from its acceptance on that of its acceptance, for ageing (R188). -/
  since : Nat := 0
  stage : PassStage := .waiting
  deriving DecidableEq, Repr

/-- A held write of R398 and R399. -/
inductive RailWrite where
  | vset (mv : Nat)
  | fset (n : Nat)
  deriving DecidableEq, Repr

/-- An entry of the FIFO of 64 B (R402). -/
inductive FifoOut where
  | data | status | barrier
  deriving DecidableEq, Repr

/-- A cluster: its engine, rail controller and counters (R182, R394 to R402). -/
structure Cluster where
  holder : Option Nat := none
  w0 : WHalf := {}
  w1 : WHalf := {}
  /-- Accumulator space, key 768 row + column; a position not listed is +0. -/
  acc : Tbl Word := []
  /-- Accepted requests in acceptance order. -/
  table : List EReq := []
  /-- Posted requests that have no entry. -/
  posted : List EReq := []
  draining : Bool := false
  l2i : Tbl Line := []
  /-- V_safe(n) as fused, and in use (R394, R422); V_floor. -/
  vfuse : List Nat
  vsafe : List Nat
  vfloor : Nat
  railmv : Nat
  /-- Where the rail is going. -/
  goal : Nat
  fstep : Nat := 24
  /-- A frequency change in progress: the new step, the rail's value for it, and whether the divider has changed (R399). -/
  change : Option (Nat × Nat × Bool) := none
  settling : Bool := false
  safereq : Bool := false
  /-- Return value of a V_safe request; the goal is that of a rail that returns from one (R400). -/
  ret : Nat := 0
  returning : Bool := false
  /-- Core clocks since the move or change in progress last went a step on (R400). -/
  moveAge : Nat := 0
  /-- RCVSET recorded during a V_safe request (R398). -/
  heldw : List RailWrite := []
  rcvset : Nat
  rcfset : Nat := 24
  target : Nat := 0
  hyst : Nat := 0
  en : Bool := false
  denied : Bool := false
  badreq : Bool := false
  watt : Nat := 0
  wevt : Nat := 0
  /-- Slot sums of the current window: issue, fetch, other; and the core clock at which it began. -/
  wslots : List Nat := [0, 0, 0, 0]
  /-- The output stage, whose entries wait to cross to the core clock, and the FIFO of 16, oldest first; the data entries that the ACCST
  in progress has put out; the core side takes none in the next clock (R402). -/
  outq : List FifoOut := []
  fifo : List FifoOut := []
  sent : Nat := 0
  fifoLag : Bool := false
  fifoHigh : Nat := 0
  mclk : Nat := 0
  /-- Cluster counters by selector (R403), now and at the start of the core clock (R149). -/
  cnt : Tbl DWord := []
  cnt0 : Tbl DWord := []
  deriving DecidableEq, Repr

/-! ### Copies, welt, sync, publication, records in flight -/

/-- A copy or a welt send in a core's copy queue (R225). -/
structure Copy where
  core : Nat
  thread : Nat
  launch : Nat
  part : Nat
  /-- Tag of the issuing core, or none with a barrier pointer. -/
  tag : Option Nat
  bo : DWord
  src : List Seg
  dst : List Seg
  bytes : Nat
  /-- CPYMC branches not yet delivered: destination core by branch number. -/
  branches : Tbl Nat := []
  /-- The bytes a CPYMC has read (R228). -/
  data : Option (List Byte) := none
  /-- A CPYMC: its destination segments name offsets in each core's scratch. -/
  mc : Bool := false
  code : Nat := 0
  /-- Bytes moved before the end, by index. -/
  moved : List Nat := []
  /-- A welt send: tag, rank, payload size. -/
  welt : Option (Nat × Nat × Nat) := none
  /-- Its destination lines are not allocated in the L2 slices (R65, R223). -/
  noL2 : Bool := false
  /-- CPYMC: o' + BYTES of R228. -/
  reach : Nat := 0
  deriving DecidableEq, Repr

/-- A live welt allocation (R236 to R243), key 2^32 partition + tag. -/
structure Welt where
  launch : Nat
  arity : Nat
  op : Nat
  size : Nat
  mc : Bool
  timeout : Nat
  dest : DWord
  cores : List Nat
  bo : DWord
  station : Nat
  /-- Kept operands of the open round: rank, spilled, payload. -/
  kept : List (Nat × Bool × List Byte) := []
  /-- Slots and overflow units of the open round. -/
  slots : Nat := 0
  ovf : Nat := 0
  /-- Station clock of the first kept operand. -/
  started : Nat := 0
  /-- The round expires with this clock, after what reaches the station in it (R243). -/
  expiring : Bool := false
  /-- Its round has expired: the allocation is dead, and is freed once the result is delivered (R243). -/
  expired : Bool := false
  deriving DecidableEq, Repr

/-- A closed round being delivered (R242). -/
structure Round where
  part : Nat
  launch : Nat
  result : List Byte
  dest : DWord
  cores : List Nat
  bo : DWord
  /-- Code of the barrier update: 0, or 3 for an orphan. -/
  code : Nat
  station : Nat
  slots : Nat
  ovf : Nat
  mc : Bool
  /-- A branch has been delivered. -/
  begun : Bool := false
  /-- Of an expired round: the allocation that its delivery frees (R243). -/
  frees : Option Nat := none
  deriving DecidableEq, Repr

/-- A request to a sync object on its way to the bank ALU, or registered there (R269). -/
structure SyncReq where
  thread : Nat
  ptr : DWord
  group : Nat
  core : Nat
  part : Nat
  die : Nat
  word : Nat
  exts : List (Nat × Nat)
  shared : Bool
  tryOnly : Bool
  launch : Nat
  tid : Nat
  pc : DWord
  /-- The entry of `Core.late` in which a TRYACQ waits for its predicate. -/
  late : Nat := 0
  deriving DecidableEq, Repr

/-- A REL that was accepted (R270). -/
structure RelReq where
  thread : Nat
  ptr : DWord
  tid : Nat
  pc : DWord
  group : Nat
  launch : Nat
  core : Nat
  part : Nat
  die : Nat
  word : Nat
  exts : List (Nat × Nat)
  deriving DecidableEq, Repr

/-- A PUBLISH that was accepted (R274). -/
structure PubReq where
  thread : Nat
  tid : Nat
  pc : DWord
  ptr : DWord
  group : Nat
  launch : Nat
  part : Nat
  win : Nat
  deriving DecidableEq, Repr

/-- A record on its way to a successor's queue (R286). -/
structure EmitReq where
  thread : Nat
  launch : Nat
  inst : Nat
  node : Nat
  data : List Word
  deriving DecidableEq, Repr

/-! ### Launches, graphs, queues -/

structure Level where
  domain : Nat
  scope : Nat
  extent : Nat
  deriving DecidableEq, Repr

/-- A launch record (R323), overrides applied. -/
structure LRec where
  det : Bool
  idemok : Bool
  testonly : Bool
  noeng : Bool
  codeobj : Nat
  cls : Nat
  entry : Nat
  groupsz : Nat
  regs : Nat
  scrways : Nat
  ncores : Nat
  diemask : Nat
  levels : List Level
  awlDims : Nat
  awlRec : Bool
  chunks : List Nat
  extents : List Nat
  shape : List Word
  lastobj : Nat
  deadline : Nat
  wrapentry : Nat
  wrapbudget : Nat
  slackest : Nat
  completion : DWord
  node : Nat
  queueObj : Nat
  k : List Word
  quantum : Nat
  seq : Nat
  deriving DecidableEq, Repr

/-- What a core's context save area holds of a swapped-out launch (R367); GEN by slot, of the threads with a valid handle. Also what a
first placement starts with (R17, R366). -/
structure CoreCtx where
  /-- Of a first placement. -/
  fresh : Bool := false
  p : Nat := 0
  threads : Tbl Thread := []
  gens : Tbl Nat := []
  tags : Tbl Tag := []
  scrways : BitVec 16 := 0
  scratch : Mem := []
  olog : List LogEntry := []
  cross : List Cross := []
  deriving DecidableEq, Repr

/-- The engine state of a swapped-out holder, its ungranted requests and the status rings by core (R210). -/
structure EngCtx where
  w0 : WHalf := {}
  w1 : WHalf := {}
  acc : Tbl Word := []
  table : List EReq := []
  rings : Tbl (List PStat) := []
  deriving DecidableEq, Repr

inductive LState where
  | ready (since : Nat)
  | running
  | swappingOut
  | suspended
  /-- Every group has ended; accepted work has not (R326). -/
  | ending
  deriving DecidableEq, Repr

/-- A live launch (R4, R323 to R329). -/
structure Launch where
  die : Nat
  part : Nat
  id : Nat
  r : LRec
  queue : Nat
  order : Nat
  st : LState
  /-- Base and extent of its code module, and its PRIV (R155). -/
  base : DWord
  extent : Nat
  priv : Bool
  cores : List Nat := []
  everPlaced : Bool := false
  placedAt : Nat := 0
  startTime : Nat := 0
  swaps : Nat := 0
  spawned : Nat := 0
  dispensed : Nat := 0
  diverted : Bool := false
  /-- Dies whose diversion has reached the cores (R298). -/
  divDies : List Nat := []
  noDivert : Bool := false
  terminated : Bool := false
  cancelled : Bool := false
  heldFault : Bool := false
  commit : Option (DWord × Bool) := none
  fault : Option (Nat × Nat) := none
  approx : Bool := false
  nanscale : Bool := false
  orphan : Bool := false
  corr : Nat := 0
  reissue : Nat := 0
  inst : Option Nat := none
  /-- Successor nodes whose edge this launch has closed (R287). -/
  closed : List Nat := []
  /-- The group that holds the token, its issues in the quantum, and whether the discipline stands (R338, R340). -/
  token : Nat := 0
  issues : Nat := 0
  detOn : Bool := false
  /-- A swap asked of a DET launch, taken at the quantum boundary (R340): suspend or not. -/
  swapAsked : Option Bool := none
  /-- Saved contexts by core and by cluster. -/
  ctx : Tbl CoreCtx := []
  eng : Tbl EngCtx := []
  /-- Physical address of the context save area of each core (R367, R370). -/
  saves : Tbl Nat := []
  suspendNext : Bool := false
  /-- Times its queue's EXPSEQ had wrapped when its packet executed. -/
  lap : Nat := 0
  deriving DecidableEq, Repr

/-- A node of a graph instance (R330, R331). -/
structure GNode where
  r : LRec
  qcap : Nat
  coalesce : Nat
  succ : List Nat
  recs : List (List Word) := []
  /-- Records that have entered the queue; each takes the next place in QAREA. -/
  entered : Nat := 0
  dispensed : Nat := 0
  launched : Option Nat := none
  done : Bool := false
  status : Nat := 0
  /-- Predecessors whose edge is closed. -/
  closedBy : List Nat := []
  flags : Nat := 0
  corr : Nat := 0
  reissue : Nat := 0
  swaps : Nat := 0
  commit : DWord := 0
  deriving DecidableEq, Repr

structure GInst where
  die : Nat
  part : Nat
  queue : Nat
  seq : Nat
  deadline : Nat
  completion : DWord
  qarea : DWord
  nodes : List GNode
  /-- First placement of any node, and the first fault of a completed one. -/
  start : Nat := 0
  fault : Option (Nat × Nat) := none
  /-- As `Launch.lap`. -/
  lap : Nat := 0
  deriving DecidableEq, Repr

inductive QState where
  | off | idle | active | held | stopped
  deriving DecidableEq, Repr

/-- A hardware queue (R313 to R322). -/
structure Queue where
  part : Nat := 0
  rsize : Nat := 0
  en : Bool := false
  classmax : Nat := 0
  seq0 : Nat := 0
  ring : DWord := 0
  st : QState := .off
  stopcode : Nat := 0
  expseq : Nat := 0
  /-- Times EXPSEQ has passed 2^16: with it, it numbers the packets of the queue once. -/
  lap : Nat := 0
  retries : Nat := 0
  /-- The held inline packet. -/
  inline : Option (List Byte) := none
  /-- The packet taken and not yet executed, and whether it came from the ring. -/
  cur : Option (List Byte × Bool) := none
  /-- The wake latch (R379). -/
  latch : Option (List Byte) := none
  /-- A MODDROP in progress names this module (R327). -/
  dropping : Option Nat := none
  /-- A WAIT has been executed and holds the queue. -/
  waiting : Bool := false
  /-- An XFER in progress. -/
  xfering : Bool := false
  deriving DecidableEq, Repr

/-! ### Partitions and dies -/

inductive PState where
  | free | active | paused | destroying
  deriving DecidableEq, Repr

/-- A host window (R380), and its version counter. -/
structure Win where
  base : DWord := 0
  size : DWord := 0
  veraddr : DWord := 0
  flags : DWord := 0
  version : DWord := 0
  deriving DecidableEq, Repr

/-- A partition (R370 to R380). -/
structure Part where
  st : PState := .free
  test : Bool := false
  pclu : List Nat := [0, 0, 0, 0]
  /-- FIRST and COUNT of the bank range per die. -/
  pbank : List (Nat × Nat) := [(0, 0), (0, 0), (0, 0), (0, 0)]
  povfbase : Nat := 0
  povfsize : Nat := 0
  pslots : Nat := 0
  pvnet : DWord := 0
  potgpa : Nat := 0
  refused : Bool := false
  notfree : Bool := false
  /-- Physical address of the object table (R151). -/
  otpa : Nat := 0
  s1root : DWord := 0
  s2root : Nat := 0
  frbase : DWord := 0
  frcfg : DWord := 0
  frhead : Word := 0
  frtail : Word := 0
  result : Word := 0
  s1inval : DWord := 0
  /-- The stage-2 invalidation command of the secure core (R377). -/
  s2inval : DWord := 0
  pevent : DWord := 0
  wins : Tbl Win := []
  gated : Bool := false
  /-- Loaded modules by object index (R327). -/
  loaded : List Nat := []
  /-- Records held back, oldest first (R351). -/
  heldRecs : List FRec := []
  /-- Telemetry, key 16 × die + selector (R406), now and at the start of the core clock (R149). -/
  tel : Tbl DWord := []
  tel0 : Tbl DWord := []
  /-- Endpoint tables, key 1024 × die + endpoint (R382). -/
  eps : Tbl DWord := []
  deriving DecidableEq, Repr

/-- An HBM stack (R414, R415). -/
structure Stack where
  st : Nat := 0
  ecsen : Bool := false
  ignored : Bool := false
  ecs : Tbl Nat := []
  deriving DecidableEq, Repr

/-- What fuses fix (R250, R418). -/
structure DieFuse where
  present : Bool := true
  nclu : List Nat := [8, 8, 8]
  nslice : List Nat := [32, 32, 32]
  nsta : List Nat := [8, 8, 8]
  lace : Nat := 8
  ual : List Nat := [4, 4, 4, 4]
  cclk : Nat := 2000
  chmask : BitVec 128 := BitVec.allOnes 128
  /-- Physical slice of each logical slice, by sector. -/
  phys : List (List Nat) := [List.range 32, List.range 32, List.range 32]
  /-- SHA-384 digests of the two public keys, and the lowest VERSION of an image (R423). -/
  keyEd : Digest := 0
  keyMl : Digest := 0
  minVersion : Nat := 0
  deriving DecidableEq, Repr

/-- A line held in a slice's cache half: its number, the partition it is counted for, and whether it is a remote copy. -/
structure L2Ent where
  line : Nat
  part : Nat
  rcopy : Bool
  deriving DecidableEq, Repr

/-- A die: clocks, links, firmware, slices (R249 to R252, R309, R373, R384 to R387, R416, R424). -/
structure Die where
  fuse : DieFuse
  stage : Nat := 0
  /-- During the boot: which of its stacks the training brings up. -/
  trained : List Bool := []
  /-- Measurements M0 and M1 (R423, R425). -/
  m0 : Digest := 0
  m1 : Digest := 0
  hsteps : Nat := 0
  busyrej : Bool := false
  /-- By granule of 1.5 MiB: 0 while its bytes are as stored, otherwise the number of the change that left them undefined
  (R252). -/
  bankEpoch : Tbl Nat := []
  epid : Nat := 0
  porten : Nat := 0
  /-- A change of EPID or PORTEN not yet in effect. -/
  ualPend : Option (Nat × Nat) := none
  portsDown : Nat := 0
  laceDown : Bool := false
  dlclk : Nat := 0
  locked : Bool := false
  syncRun : Nat := 0
  /-- Lines held by a logical slice (key 32 sector + slice), most recently used first (R257, R309). -/
  l2 : Tbl (List L2Ent) := []
  /-- Data of remote copies, key line (R257). -/
  copies : Tbl (Nat × Line) := []
  /-- Cores that a remote copy must not serve, by its key: they have seen, or acquired, newer values (R260, R264). -/
  copyBar : Tbl (List Nat) := []
  /-- Instruction lines held in the slices. -/
  l2i : Tbl Line := []
  /-- Occupancy snapshots, key 16 × (32 sector + slice) + partition, and the core clock of each slice's last refresh, key
  32 sector + slice; the first of the clocks by which some slice must be refreshed (R251). -/
  snap : Tbl DWord := []
  snapAt : Tbl Nat := []
  snapDue : Nat := 1024
  /-- The core clock at which the window of some cluster of the die ends (R396). -/
  winDue : Nat := 20000
  ras : Tbl DWord := []
  /-- Per queue core 0 to 3, the first of its queues to be asked next (R335). -/
  qturn : Tbl Nat := []
  /-- The mailbox (R385, R424): its request half, the outstanding request, its response half, the notices queued. -/
  mboxReq : List Byte := []
  /-- The outstanding request: OP, SEQ, PART. -/
  mboxOut : Option (Nat × Nat × Nat) := none
  mboxRsp : List Byte := []
  notices : List (List Byte) := []
  /-- The secure core's ring (R350). -/
  secure : List FRec := []
  /-- Stage-2 faults whose notice is not answered: handle and whether precise. -/
  stage2Open : List (Nat × Bool) := []
  deriving DecidableEq, Repr

/-- An entry of the management core's log. -/
inductive MgmtNote where
  /-- An ERRINJ ignored outside a TEST partition, by thread (R360). -/
  | injIgnored (thread : Nat)
  /-- A capability fault of a firmware core that handles no packet, by die and core (R384). -/
  | capFault (die core : Nat)
  deriving DecidableEq, Repr

/-- A request from outside the part that waits: as the events of the same names have them. -/
inductive OutReq where
  | s2map (die part seq gpa pa bytes : Nat) (r w x : Bool)
  | s2unmap (die part seq gpa bytes : Nat)
  | s2root (die part seq pa : Nat)
  | s2reply (die part seq : Nat) (handle : Word) (mapped : Bool)
  | ual (die part : Nat) (req : UalReq)
  | bar4 (pa : Nat) (write : Option (List Byte)) (bytes : Nat) (ue : Bool)
  deriving DecidableEq, Repr

/-- Package firmware and clocks (R387, R421 to R426). -/
structure Firmware where
  held : Bool := false
  /-- SHA-384 digest of the held image. -/
  image : Digest := 0
  activating : Bool := false
  /-- Images activated since power-on. -/
  images : Nat := 0
  mgmtCmd : DWord := 0
  calBusy : Bool := false
  ptpcfg : DWord := 0
  syncs : Word := 0
  /-- The management core's log (R360, R384). -/
  mgmtLog : List MgmtNote := []
  /-- Failed replays in a row of a link, a bridge with its lower die first (R12). -/
  replays : List (Link × Nat) := []
  /-- Requests from outside the part that a stack's controller holds, and stage-2 requests that wait for the end of an activation,
  oldest first (R415, R426). -/
  waiting : List OutReq := []
  /-- Bridges that are down, lower die first (R383). -/
  bridgesDown : List (Nat × Nat) := []
  /-- Lines of device memory with an uncorrectable error, met by table walks (R343, R411). -/
  ueLines : List Nat := []
  /-- Memory that firmware keeps for stage-2 tables, and what S2MAP has mapped: address and bytes (R370). -/
  areas : List (Nat × Nat) := []
  mapped : List (Nat × Nat) := []
  /-- Storage with an uncorrectable error, by detail of DATA_ERROR: (2, line in its home slice), (3, `bankUnit`),
  (4, 2^21 × core + scratch byte / 8) (R411). -/
  ueChip : List (Nat × Nat) := []
  deriving DecidableEq, Repr

/-! ### The machine -/

/-- What goes wrong with an instruction as it issues. -/
inductive Bad where
  /-- The checker of a unit of R410 mismatches for a thread (R344). -/
  | checker (t unit : Nat)
  /-- A register it reads has an uncorrectable error (R411). -/
  | bank (t : Nat)
  /-- What it reads of memory at once fails: the L1 has an uncorrectable error, or the far end answers with one (R376, R382, R411). -/
  | access (t : Nat) (why : AccFail)
  deriving DecidableEq, Repr

/-- The PC group that is issuing (R27). -/
structure Issue where
  core : Nat
  /-- Thread keys in ascending %tid. -/
  members : List Nat
  bad : List Bad
  pc : DWord
  word : IWord
  /-- What the instruction read at issue, when it has waited since. -/
  held : Option Held := none
  deriving DecidableEq, Repr

/-- What the environment, time and arbitration do next: the model's own. -/
inductive Act where
  /-- Issue the PC group formed around the thread of a slot of a core, with these errors, which name slots. -/
  | issue (core slot : Nat) (bad : List Bad)
  | event (i : Instr)
  /-- n core clocks. -/
  | tick (n : Nat)
  /-- n ns of a die's deadline clock. -/
  | dltime (die n : Nat)
  /-- n ns of every die's deadline clock. -/
  | dlall (n : Nat)
  | matrixTick (cluster n : Nat)
  /-- Eviction of a data line of a core's L1 (R248, R258). -/
  | evict (core line : Nat)
  /-- Eviction of an instruction line: level 0 from a core's L1, 1 from a cluster's L2 (R137). -/
  | evictI (level unit line : Nat)
  /-- A line of HBM has, or has no longer, an uncorrectable error (R411). -/
  | ueLine (line : Nat) (bad : Bool)
  /-- The same of on-chip storage, named as in `Firmware.ueChip`. -/
  | ueChip (detail key : Nat) (bad : Bool)
  /-- One byte of a copy moves before its end (R229). -/
  | copyByte (id i : Nat)
  /-- Another branch of a welt multicast leaves next (R259). -/
  | forkTurn (id : Nat)
  /-- An eligible event of an injector of a core other than those its machine counts itself: an L1 or register-bank read in the
  window (class 2), or a flit on the target link (class 3) (R359). -/
  | injDraw (core cls : Nat)
  /-- The core side of a cluster's FIFO takes no entry in the next core clock (R402). -/
  | fifoLag (cluster : Nat)
  /-- A capability fault in a firmware core that handles no packet (R384). -/
  | capFault (die core : Nat)
  /-- A die passes to the next stage of its boot (R428). -/
  | bootStage (die : Nat)
  /-- The driver reads the slice map register of a sector (R250). -/
  | sliceMap (die sector : Nat)
  /-- A correctable error of a die, corrected in place: on-chip storage, or HBM (R411, R416). -/
  | ras (die : Nat) (hbm : Bool)
  /-- A held store to a queue's register block is performed (R379). -/
  | block (pf : Bool) (queue off : Nat) (v : DWord)
  /-- A function of the host stores to the launch register of a queue (R316, R374). -/
  | launchStore (fn queue : Nat) (bytes : List Byte)
  /-- The host reads 8 bytes of a register: function and offset as REGISTER_WRITE has them (R374). -/
  | hostRead (fn off : Nat)
  /-- The host writes its own memory of a partition's function. -/
  | hostWrite (part addr : Nat) (data : List Byte)
  deriving DecidableEq, Repr

/-- How an access of the host completes (R374, R376). -/
inductive HostAns where
  | data (bytes : List Byte)
  | unsupported
  | abort
  deriving DecidableEq, Repr

/-- How a request of another endpoint completes at the target (R381, R382). -/
inductive UalAns where
  /-- The bytes read, or the old value of an atomic. -/
  | done (bytes : List Byte)
  | error
  deriving DecidableEq, Repr

structure State where
  agenda : List Act
  iss : Issue
  nextId : Nat
  free : Nat
  powered : Bool
  clock : Nat
  cores : Tbl Core
  threads : Tbl Thread
  groups : Tbl Group
  clusters : Tbl Cluster
  launches : Tbl Launch
  insts : Tbl GInst
  queues : Tbl Queue
  parts : Tbl Part
  dies : Tbl Die
  hbmStacks : Tbl Stack
  fw : Firmware
  hbm : Mem
  bank : Mem
  host : Mem
  remote : Mem
  copies : Tbl Copy
  welts : Tbl Welt
  rounds : Tbl Round
  syncFly : Tbl SyncReq
  syncReg : Tbl SyncReq
  rels : Tbl RelReq
  pubs : Tbl PubReq
  emits : Tbl EmitReq
  /-- MSI-X messages sent: function (0 the physical one, n the virtual function n) and vector, newest first (R378). -/
  msix : List (Nat × Nat)
  /-- How the latest host read completed, or the latest write that reached nothing. -/
  answer : Option HostAns
  /-- The response to the latest UALink request. -/
  reply : Option UalAns
  deriving DecidableEq, Repr

/-- Why a step stops with a fault. -/
inductive Fault where
  /-- No unit of the part can act: the part is powered off and nothing is on the agenda (R4). Raised by `step` alone. Safe:
  the spec gives a part without power no step. -/
  | poweredOff
  deriving DecidableEq, Repr

/-- Why an instruction has no meaning. -/
inductive Refusal where
  /-- Raised by an arm of `exec` whose instruction has no meaning yet. Safe: no next state is claimed. -/
  | notModelled (mnemonic : String)
  deriving DecidableEq, Repr

/-- V_safe(n) of the model's fuses: 580 mV + 5 mV × n, 700 mV at step 24 and 720 mV at step 28. DESIGN CHOICE, log entry 4. -/
def fuseVsafe : List Nat := (List.range 33).map (fun n => 580 + 5 * n)

/-- DESIGN CHOICE, log entry 4. -/
def fuseVfloor : Nat := 560

def dieReset : Die := { fuse := {} }

def clusterReset : Cluster :=
  { vfuse := fuseVsafe, vsafe := fuseVsafe, vfloor := fuseVfloor, railmv := 700, goal := 700, rcvset := 700 }

/-- The part right after cold reset, before its dies boot (R5, R428). -/
def State.reset : State :=
  { agenda := [], iss := ⟨0, [], [], 0, 0, none⟩, nextId := 1, free := 0, powered := true, clock := 0,
    cores := [], threads := [], groups := [], clusters := [], launches := [], insts := [], queues := [], parts := [],
    dies := [(0, dieReset), (1, dieReset), (2, dieReset), (3, dieReset)], hbmStacks := [], fw := {},
    hbm := [], bank := [], host := [], remote := [], copies := [], welts := [], rounds := [], syncFly := [],
    syncReg := [], rels := [], pubs := [], emits := [], msix := [], answer := none, reply := none }

end Sys2Proof.Machine
end

