-- ==== Sys2Proof/Machine/Base.lean ====
section
/-! DEFINITION. Named operations on tables, memories, registers and the units of the state, on which every meaning rests. -/

namespace Sys2Proof.Machine

/-! ### Tables -/

/-- The value at key `k`, if listed. -/
def tfind {α : Type} : Tbl α → Nat → Option α
  | [], _ => none
  | (k, v) :: t, x => if x = k then some v else if x < k then none else tfind t x

/-- Set key `x`, keeping the order. -/
def tset {α : Type} (x : Nat) (y : α) : Tbl α → Tbl α
  | [] => [(x, y)]
  | (k, v) :: t => if x = k then (x, y) :: t else if x < k then (x, y) :: (k, v) :: t else (k, v) :: tset x y t

def tdel {α : Type} (x : Nat) : Tbl α → Tbl α
  | [] => []
  | (k, v) :: t => if x = k then t else if x < k then (k, v) :: t else (k, v) :: tdel x t

def tget {α : Type} (d : α) (t : Tbl α) (x : Nat) : α := (tfind t x).getD d

/-- Change a listed value. -/
def tmod {α : Type} (x : Nat) (f : α → α) (t : Tbl α) : Tbl α :=
  match tfind t x with
  | some v => tset x (f v) t
  | none => t

/-- Keep the entries that satisfy `f`. -/
def tkeep {α : Type} (f : Nat → α → Bool) (t : Tbl α) : Tbl α := t.filter (fun p => f p.1 p.2)

def tmap {α : Type} (f : Nat → α → α) (t : Tbl α) : Tbl α := t.map (fun p => (p.1, f p.1 p.2))

/-! ### Memories -/

/-- A byte that nothing has written reads 0 (log entry 3). -/
def mget (m : Mem) (a : Nat) : Byte := (tfind m a).getD 0

/-- Writing 0 removes the entry, so that equal memories are equal data. -/
def mset (m : Mem) (a : Nat) (b : Byte) : Mem := if b = 0 then tdel a m else tset a b m

def mgets (m : Mem) (a : Nat) : Nat → List Byte
  | 0 => []
  | n + 1 => mget m a :: mgets m (a + 1) n

def msets (m : Mem) (a : Nat) : List Byte → Mem
  | [] => m
  | b :: bs => msets (mset m a b) (a + 1) bs

/-- Addresses strictly rise. -/
def Mem.rising : Mem → Bool
  | [] => true
  | [_] => true
  | (a, _) :: (b, y) :: t => a < b && Mem.rising ((b, y) :: t)

/-- The canonical form of a memory. -/
def Mem.wf (m : Mem) : Bool := Mem.rising m && m.all (fun c => c.2 != 0)

/-- Remove the entries of [a, a + n). -/
def mclear (m : Mem) (a n : Nat) : Mem := m.filter (fun c => c.1 < a || a + n ≤ c.1)

/-! ### Little-endian numbers (R7) -/

def leGet (m : Mem) (a n : Nat) : Nat := leNat (mgets m a n)

/-- 32-bit words of a list of bytes; bytes beyond the last whole word are not used. -/
def wordsOf : List Byte → List Word
  | a :: b :: c :: d :: t => (d ++ c ++ b ++ a) :: wordsOf t
  | _ => []

def bytesOfWords (ws : List Word) : List Byte := ws.flatMap (fun w => leBytes 4 w.toNat)

def lo32 (d : DWord) : Word := d.extractLsb' 0 32
def hi32 (d : DWord) : Word := d.extractLsb' 32 32
def pair (lo hi : Word) : DWord := hi ++ lo
def dwords (d : DWord) : List Word := [lo32 d, hi32 d]

/-! ### Units of the state -/

def State.core (s : State) (c : Nat) : Core := (tfind s.cores c).getD {}
def State.setCore (s : State) (c : Nat) (x : Core) : State := { s with cores := tset c x s.cores }
def State.modCore (s : State) (c : Nat) (f : Core → Core) : State := s.setCore c (f (s.core c))

/-- Read where no thread is placed. -/
def noThread : Thread := { group := 0, tid := 0, run := .exited }
def noGroup : Group := { launch := 0, core := 0, grp := 0, turn := 0, size := 0, regs := 0, mtol := 0x40101000, pads := [] }

def State.thread (s : State) (t : Nat) : Thread := (tfind s.threads t).getD noThread
def State.modThread (s : State) (t : Nat) (f : Thread → Thread) : State := { s with threads := tmod t f s.threads }
def State.group (s : State) (g : Nat) : Group := (tfind s.groups g).getD noGroup
def State.modGroup (s : State) (g : Nat) (f : Group → Group) : State := { s with groups := tmod g f s.groups }
def State.modLaunch (s : State) (l : Nat) (f : Launch → Launch) : State := { s with launches := tmod l f s.launches }
def State.cluster (s : State) (c : Nat) : Cluster := (tfind s.clusters c).getD clusterReset
def State.setCluster (s : State) (c : Nat) (x : Cluster) : State := { s with clusters := tset c x s.clusters }
def State.modCluster (s : State) (c : Nat) (f : Cluster → Cluster) : State := s.setCluster c (f (s.cluster c))
def State.queue (s : State) (q : Nat) : Queue := (tfind s.queues q).getD {}
def State.setQueue (s : State) (q : Nat) (x : Queue) : State := { s with queues := tset q x s.queues }
def State.modQueue (s : State) (q : Nat) (f : Queue → Queue) : State := s.setQueue q (f (s.queue q))
def State.part (s : State) (p : Nat) : Part := (tfind s.parts p).getD {}
def State.setPart (s : State) (p : Nat) (x : Part) : State := { s with parts := tset p x s.parts }
def State.modPart (s : State) (p : Nat) (f : Part → Part) : State := s.setPart p (f (s.part p))
def State.die (s : State) (d : Nat) : Die := (tfind s.dies d).getD dieReset
def State.setDie (s : State) (d : Nat) (x : Die) : State := { s with dies := tset d x s.dies }
def State.modDie (s : State) (d : Nat) (f : Die → Die) : State := s.setDie d (f (s.die d))
def State.stack (s : State) (k : Nat) : Stack := (tfind s.hbmStacks k).getD {}
def State.modStack (s : State) (k : Nat) (f : Stack → Stack) : State :=
  { s with hbmStacks := tset k (f (s.stack k)) s.hbmStacks }

/-! ### Numbers of units -/

def dieOfCore (c : Nat) : Nat := c / coresPerDie
def coreInDie (c : Nat) : Nat := c % coresPerDie
def coreOfThread (t : Nat) : Nat := t / slotsPerCore
def slotOfThread (t : Nat) : Nat := t % slotsPerCore
def laneOf (t : Nat) : Nat := t % 64
def turnOf (t : Nat) : Nat := slotOfThread t / 64
/-- Cluster key of a core: %core is 4 × %cluster plus its index (R419). -/
def clusterOf (c : Nat) : Nat := clustersPerDie * dieOfCore c + coreInDie c / 4
def dieOfCluster (c : Nat) : Nat := c / clustersPerDie

/-- Sector of a logical cluster: present clusters are numbered in ascending order of sector (R419). -/
def sectorOfCluster (s : State) (c : Nat) : Nat :=
  let n := (s.die (dieOfCluster c)).fuse.nclu
  let i := c % clustersPerDie
  if i < n.getD 0 0 then 0 else if i < n.getD 0 0 + n.getD 1 0 then 1 else 2

def clustersPresent (s : State) (d : Nat) : Nat := (s.die d).fuse.nclu.sum

def corePresent (s : State) (die core : Nat) : Bool :=
  decide (die < nDies) && (s.die die).fuse.present && decide (core < 4 * clustersPresent s die)

/-! ### Registers (R13, R14, R18) -/

def vread (t : Thread) (n : Nat) : Word := tget 0 t.v n
def vwrite (n : Nat) (w : Word) (t : Thread) : Thread := { t with v := tset n w t.v }
/-- q7 reads 1. -/
def qread (t : Thread) (i : Nat) : Bool := i == 7 || t.q.getLsbD i
/-- A write to q7 has no effect. -/
def qwrite (i : Nat) (b : Bool) (t : Thread) : Thread :=
  if i = 7 then t
  else { t with q := if b then t.q ||| BitVec.ofNat 8 (2 ^ i) else t.q &&& ~~~(BitVec.ofNat 8 (2 ^ i)) }
def kread (g : Group) (n : Nat) : Word := tget 0 g.k n
def kwrite (n : Nat) (w : Word) (g : Group) : Group := { g with k := tset n w g.k }

def vwrites (n : Nat) : List Word → Thread → Thread
  | [], t => t
  | w :: ws, t => vwrites (n + 1) ws (vwrite n w t)
def kwrites (n : Nat) : List Word → Group → Group
  | [], g => g
  | w :: ws, g => kwrites (n + 1) ws (kwrite n w g)

/-- g(x) of R62. -/
def predOf (t : Thread) (p : PSrc) : Bool := qread t p.idx.val != p.neg

/-- The guard of R62. -/
def guardOf (t : Thread) (c : Ctl) : Bool :=
  match c.gm with
  | .a => predOf t c.ga
  | .both => predOf t c.ga && predOf t c.gb
  | .either => predOf t c.ga || predOf t c.gb

/-! ### Counters -/

def bump (n : Nat) (k : Nat) (t : Tbl DWord) : Tbl DWord := tset k (tget 0 t k + BitVec.ofNat 64 n) t

/-- Count on a core counter of R403. -/
def coreCount (s : State) (c sel n : Nat) : State := s.modCore c (fun x => { x with cnt := bump n sel x.cnt })
def clusterCount (s : State) (c sel n : Nat) : State := s.modCluster c (fun x => { x with cnt := bump n sel x.cnt })
/-- Count in a partition's telemetry on a die (R406); `sel` is the low digit of its selector. -/
def telCount (s : State) (p die sel n : Nat) : State := s.modPart p (fun x => { x with tel := bump n (16 * die + sel) x.tel })
/-- Count in a die's RAS counters, by index (R416). -/
def rasCount (s : State) (die i n : Nat) : State := s.modDie die (fun x => { x with ras := bump n i x.ras })

/-- Whether a group counter's configuration counts event `ev` of thread `t` of group `g` (R150). -/
def gcCounts (s : State) (gk : Nat) (g : Group) (c : GCnt) (ev t : Nat) : Bool :=
  let cfg := c.cfg.toNat
  let th := s.thread t
  cfg % 4096 == ev && flag cfg 12 && (g.swap == .resident || g.swap == .requested) &&
    (match cfg / 16384 % 4 with
     | 0 => c.who == t
     | 1 => th.group == gk
     | 2 => (s.group th.group).launch == g.launch && coreOfThread t == g.core
     | _ => false)

/-- Event `ev` of R405 happens `n` times to thread `t`. -/
def gcEvent (s : State) (ev t n : Nat) : State :=
  { s with groups := tmap (fun gk g =>
      if g.core == coreOfThread t then
        { g with gc := g.gc.map (fun c => if gcCounts s gk g c ev t then { c with value := c.value + BitVec.ofNat 64 n } else c) }
      else g) s.groups }

/-- The n-th free value (log entry 5), advancing the counter. -/
def freeValue (s : State) : DWord × State := (Config.freeBits s.free, { s with free := s.free + 1 })

/-- A fresh number for a request or message. -/
def freshId (s : State) : Nat × State := (s.nextId, { s with nextId := s.nextId + 1 })

end Sys2Proof.Machine
end

