-- ==== Sys2Proof/Machine/Mem.lean ====
section
/-! DEFINITION. The spaces of R165 and the levels of R246: homes, slices, the L1 data cache, remote copies, bank memory,
scratch, windows and endpoints; translation (R361 to R364); the places a pointer names. -/

namespace Sys2Proof.Machine

/-! ### Homes and slices (R247, R249, R309, R413) -/

def lineNo (pa : Nat) : Nat := pa / 128
def dieOfPa (pa : Nat) : Nat := pa / 2 ^ 38
def sectorOfLine (l : Nat) : Nat := l % 3

/-- The nine 5-bit chunks of q folded by XOR (R249). -/
def sliceFold (q : Nat) : Nat :=
  ((List.range 9).map (fun i => q / 2 ^ (5 * i) % 32)).foldl (· ^^^ ·) 0

/-- Logical slice of a line on its home die; the final mod acts when slices are missing (R250). -/
def sliceOfLine (s : State) (l : Nat) : Nat :=
  let n := (s.die (l / 2 ^ 31)).fuse.nslice.getD (sectorOfLine l) 32
  if n < 32 ∧ 0 < n then sliceFold (l / 3) % n else sliceFold (l / 3)

/-- R413. -/
def channelOf (pa : Nat) : Nat := (pa / 2 ^ 12 % 128) ^^^ (pa / 2 ^ 19 % 128)

/-- R247, R413: the address lies in the HBM of a present die on an enabled channel. -/
def paPresent (s : State) (pa : Nat) : Bool :=
  decide (pa < 2 ^ 40) && (s.die (dieOfPa pa)).fuse.present && (s.die (dieOfPa pa)).fuse.chmask.getLsbD (channelOf pa)

/-- Key of the remote copy of a line in a sector. -/
def copyKey (sector l : Nat) : Nat := sector * 2 ^ 48 + l

/-- Sets of a slice's cache half (R309). -/
def l2Sets (s : State) (die : Nat) : Nat := 1024 - 64 * (s.die die).hsteps

def dropCopyOf (d : Die) (sector l : Nat) : Die :=
  { d with copies := tdel (copyKey sector l) d.copies
           copyBar := tdel (copyKey sector l) d.copyBar
           l2 := tmap (fun k es => if k / 32 == sector then es.filter (fun e => !(e.rcopy && e.line == l)) else es) d.l2 }

/-- A line enters or is used in a slice: it becomes the most recently used of its set, and the least recently used line of a
set of more than 16 leaves (R309). Without `alloc` a line that is not there stays out (R65). -/
def l2Use (s : State) (die sector slice part l : Nat) (rcopy : Bool) (alloc : Bool := true) : State :=
  s.modDie die (fun d =>
    let k := 32 * sector + slice
    let es := tget [] d.l2 k
    let n := l2Sets s die
    let same (e : L2Ent) : Bool := e.line == l && e.rcopy == rcopy
    if !alloc && !es.any same then d
    else
    let owner := match es.find? same with
      | some e => e.part
      | none => part
    let es' := ⟨l, owner, rcopy⟩ :: es.filter (fun e => !same e)
    let inSet := es'.filter (fun e => e.line / 3 % n == l / 3 % n)
    if inSet.length ≤ 16 then { d with l2 := tset k es' d.l2 }
    else
      match inSet.getLast? with
      | none => d
      | some v =>
        let d' := { d with l2 := tset k (es'.filter (fun e => e != v)) d.l2 }
        if v.rcopy then dropCopyOf d' sector v.line else { d' with l2i := tdel v.line d'.l2i })

/-- The home slice of an address serves an access of a partition. -/
def homeUse (s : State) (part pa : Nat) (alloc : Bool := true) : State :=
  let l := lineNo pa
  l2Use s (dieOfPa pa) (sectorOfLine l) (sliceOfLine s l) part l false alloc

/-- The same for every line of a run of bytes. -/
def useRun (s : State) (part pa len : Nat) (alloc : Bool := true) : State :=
  (List.range ((pa % 128 + len + 127) / 128)).foldl (fun s i => homeUse s part (128 * (lineNo pa + i)) alloc) s

/-- CH of R65: the L1, the L2 slices do not allocate. -/
def chNoL1 (ch : BitVec 4) : Bool := ch.toNat % 4 == 3
def chL2 (ch : BitVec 4) : Bool := ch.toNat / 4 != 3

/-! ### Lines -/

def lineByte (x : Line) (i : Nat) : Byte := x.extractLsb' (8 * i) 8
def lineBytes (x : Line) (i : Nat) : Nat → List Byte
  | 0 => []
  | n + 1 => lineByte x i :: lineBytes x (i + 1) n
def lineOfBytes (bs : List Byte) : Line := BitVec.ofNat 1024 (leNat bs)
def setLineByte (x : Line) (i : Nat) (b : Byte) : Line :=
  (x &&& ~~~(BitVec.ofNat 1024 (255 * 2 ^ (8 * i)))) ||| BitVec.ofNat 1024 (b.toNat * 2 ^ (8 * i))
def setLineBytes (x : Line) (i : Nat) : List Byte → Line
  | [] => x
  | b :: bs => setLineBytes (setLineByte x i b) (i + 1) bs
def byteMask (i n : Nat) : BitVec 128 := BitVec.ofNat 128 ((2 ^ n - 1) * 2 ^ i)
def homeLine (s : State) (l : Nat) : Line := lineOfBytes (mgets s.hbm (128 * l) 128)

/-! ### The L1 data cache and remote copies (R248, R257) -/

/-- The sector and die of a core. -/
def coreSector (s : State) (c : Nat) : Nat := sectorOfCluster s (clusterOf c)

/-- The remote copy of a line in a core's sector no longer serves that core: its threads have written or read a newer value
(R257, R260). -/
def barCopy (s : State) (c l : Nat) : State :=
  let k := copyKey (coreSector s c) l
  s.modDie (dieOfCore c) (fun d =>
    if (tfind d.copies k).isSome then { d with copyBar := tset k (c :: (tget [] d.copyBar k).filter (· != c)) d.copyBar } else d)

/-- No remote copy of a core's sector serves it any more: it has acquired (R264). -/
def barCopies (s : State) (c : Nat) : State :=
  (((s.die (dieOfCore c)).copies.filter (fun p => p.1 / 2 ^ 48 == coreSector s c)).map (fun p => p.1 % 2 ^ 48)).foldl
    (fun s l => barCopy s c l) s

def dropCopy (s : State) (c l : Nat) : State := s.modDie (dieOfCore c) (fun d => dropCopyOf d (coreSector s c) l)

/-- Write the dirty bytes of `ln` to memory at the home. -/
def flushBytes (m : Mem) (l : Nat) (ln : L1Line) : Mem :=
  (List.range 128).foldl (fun m i => if ln.dirty.getLsbD i then mset m (128 * l + i) (lineByte ln.data i) else m) m

/-- Whether a bridge is down between two dies (R383). -/
def bridgeDown (s : State) (a b : Nat) : Bool := a != b && s.fw.bridgesDown.contains (min a b, max a b)

/-- A core's bridge to the home of a line is down. -/
def homeCut (s : State) (c l : Nat) : Bool := bridgeDown s (dieOfCore c) (dieOfPa (128 * l))

/-- Dirty bytes of a line of a core's L1 reach the home slice; the line stays, its written bytes valid. The sector's remote
copy serves the core no more. While the bridge to the home is down they stay in the L1 (R383; DESIGN CHOICE, log entry 108). -/
def l1Flush (s : State) (c part l : Nat) : State :=
  match tfind (s.core c).l1d l with
  | some ln =>
    if ln.dirty = 0 || homeCut s c l then s
    else
      let s := { s with hbm := flushBytes s.hbm l ln }
      let s := barCopy (homeUse s part (128 * l)) c l
      s.modCore c (fun x => { x with l1d := tset l { ln with valid := ln.valid ||| ln.dirty, dirty := 0 } x.l1d })
  | none => s

/-- A line whose dirty bytes cannot be written back. -/
def lineStuck (s : State) (c : Nat) (p : Nat × L1Line) : Bool := p.2.dirty != 0 && homeCut s c p.1

/-- The core holds dirty bytes that a bridge keeps from their homes. -/
def l1Stuck (s : State) (c : Nat) : Bool := (s.core c).l1d.any (lineStuck s c)

/-- Write back if dirty, then remove. -/
def l1Drop (s : State) (c part l : Nat) : State :=
  if ((s.core c).l1d.filter (fun p => p.1 == l)).any (lineStuck s c) then s
  else
    let s := l1Flush s c part l
    s.modCore c (fun x => { x with l1d := tdel l x.l1d })

def l1FlushAll (s : State) (c part : Nat) : State := ((s.core c).l1d.map (·.1)).foldl (fun s l => l1Flush s c part l) s

/-- Remove the clean lines (R261); a line with dirty bytes keeps only those. -/
def l1InvalidateClean (s : State) (c : Nat) : State :=
  (barCopies s c).modCore c (fun x => { x with l1d := tmap (fun _ ln => { ln with valid := 0 }) (tkeep (fun _ ln => ln.dirty != 0) x.l1d) })

/-- Lines the cache ways of a core can hold: 1,024 per 128 KiB way (R21, R253). -/
def l1Capacity (x : Core) : Nat := 1024 * (16 - bitLenNat x.scrways.toNat)
where
  bitLenNat (n : Nat) : Nat := if n = 0 then 0 else Nat.log2 n + 1

/-- Room for line `l`: the first listed line that can leave does so, when the cache is full (DESIGN CHOICE of the victim, log entry
8). -/
def l1Room (s : State) (c part l : Nat) : State :=
  let x := s.core c
  if (tfind x.l1d l).isSome || x.l1d.length < l1Capacity x then s
  else
    match x.l1d.find? (fun p => !lineStuck s c p) with
    | none => s
    | some v => l1Drop s c part v.1

/-- What a miss of a core reads: the home line, or a remote copy of it in the core's sector when the rule of R257 allows. A core that
reads the home line beside a copy is not served by that copy later. -/
def fetchLine (s : State) (c part l : Nat) (held : Bool) (ch : BitVec 4) : Line × State :=
  let d := dieOfCore c
  let sec := coreSector s c
  let slice := sliceOfLine s l
  let home := homeUse s part (128 * l) (chL2 ch)
  if held && !(d == dieOfPa (128 * l) && sec == sectorOfLine l) then
    match tfind (s.die d).copies (copyKey sec l) with
    | some (_, x) =>
      if (tget [] (s.die d).copyBar (copyKey sec l)).contains c then (homeLine s l, home) else (x, l2Use s d sec slice part l true)
    | none =>
      if chL2 ch then
        let x := homeLine s l
        let s := home.modDie d (fun y => { y with copies := tset (copyKey sec l) (part, x) y.copies })
        (x, l2Use s d sec slice part l true)
      else (homeLine s l, home)
  else (homeLine s l, barCopy home c l)

/-- A fetched line merged under the dirty bytes of a line in the cache. -/
def mergeLine (x : Line) (ln : L1Line) : L1Line :=
  { data := (List.range 128).foldl (fun a i => if ln.dirty.getLsbD i then setLineByte a i (lineByte ln.data i) else a) x
    valid := BitVec.allOnes 128
    dirty := ln.dirty }

/-- The L1 of a core has `n` bytes from `pa` on, within one line. -/
def l1Has (s : State) (c pa n : Nat) : Bool :=
  let ln := (tfind (s.core c).l1d (lineNo pa)).getD ⟨0, 0, 0⟩
  (ln.valid ||| ln.dirty) &&& byteMask (pa % 128) n == byteMask (pa % 128) n

/-- A load of `n` bytes within one line through the L1: the bytes, whether it hit, and the state (R248). -/
def l1Load (s : State) (c part pa n : Nat) (held : Bool) (ch : BitVec 4) : List Byte × Bool × State :=
  let l := lineNo pa
  let ln := (tfind (s.core c).l1d l).getD ⟨0, 0, 0⟩
  if l1Has s c pa n then (lineBytes ln.data (pa % 128) n, true, s)
  else
    let (x, s) := fetchLine s c part l held ch
    let m := mergeLine x ln
    if chNoL1 ch then (lineBytes m.data (pa % 128) n, false, s)
    else
      let s := l1Room s c part l
      (lineBytes m.data (pa % 128) n, false, s.modCore c (fun y => { y with l1d := tset l m y.l1d }))

/-- A store of bytes within one line through the L1 (R248). -/
def l1Store (s : State) (c part pa : Nat) (bs : List Byte) (ch : BitVec 4) : State :=
  let l := lineNo pa
  if chNoL1 ch && (tfind (s.core c).l1d l).isNone then
    barCopy (homeUse { s with hbm := msets s.hbm pa bs } part pa (chL2 ch)) c l
  else
    let s := l1Room s c part l
    let s := s.modCore c (fun y =>
      let ln := (tfind y.l1d l).getD ⟨0, 0, 0⟩
      { y with l1d := tset l { data := setLineBytes ln.data (pa % 128) bs
                               valid := ln.valid
                               dirty := ln.dirty ||| byteMask (pa % 128) bs.length } y.l1d })
    if chNoL1 ch then l1Flush s c part l else s

/-! ### Instruction lines (R69, R137) -/

/-- Lines of a core's L1 instruction cache, 192 KiB, and of a cluster's L2, 2 MiB. -/
def l1iLines : Nat := 1536
def l2iLines : Nat := 16384

/-- A line enters an instruction cache of `n` lines; the first listed leaves a full one (DESIGN CHOICE of the victim, log entry 8). -/
def instrEnter (n l : Nat) (x : Line) (t : Tbl Line) : Tbl Line :=
  tset l x (if (tfind t l).isNone && decide (n ≤ t.length) then t.drop 1 else t)

/-- An instruction line as the caches from `level` down hold it: 0 the core's L1, 1 the cluster's L2, 2 the slices. It enters
those levels. -/
def instrFill (s : State) (c part l level : Nat) : State :=
  let k := clusterOf c
  let h := dieOfPa (128 * l)
  let x := match tfind (s.core c).l1i l with
    | some x => x
    | none => match tfind (s.cluster k).l2i l with
      | some x => x
      | none => match tfind (s.die h).l2i l with
        | some x => x
        | none => homeLine s l
  let s := homeUse (s.modDie h (fun d => { d with l2i := tset l x d.l2i })) part (128 * l)
  let s := if level ≤ 1 then s.modCluster k (fun y => { y with l2i := instrEnter l2iLines l x y.l2i }) else s
  if level = 0 then s.modCore c (fun y => { y with l1i := instrEnter l1iLines l x y.l1i }) else s

/-! ### Bank memory, windows, endpoints -/

def granule : Nat := 1536 * 1024
def bankKey (die b : Nat) : Nat := die * 2 ^ 27 + b

/-- Where a byte of a die's bank memory lies: sector, slice, row and byte within the line (R252). -/
structure BankPlace where
  sector : Nat
  slice : Nat
  row : Nat
  byte : Nat
  deriving DecidableEq, Repr

def bankPlace (b : Nat) : BankPlace :=
  let l := b / 128
  { sector := l % 3, slice := l / 3 % 32, row := l / 96, byte := b % 128 }

/-- Names 8 B of a die's bank memory by their place: slice of the die, row of 128 B, and the 8 B in it. -/
def bankUnit (die b : Nat) : Nat :=
  let p := bankPlace b
  (((die * 3 + p.sector) * 32 + p.slice) * 8192 + p.row) * 16 + p.byte / 8

/-- What is stored under a bank byte is its value XOR what the last change of size or range left there (R252). -/
def bankBase (s : State) (die b : Nat) : Byte :=
  let e := tget 0 (s.die die).bankEpoch (b / granule)
  if e = 0 then 0 else Config.bankByte die e b

def bankGet (s : State) (die b : Nat) : Byte := mget s.bank (bankKey die b) ^^^ bankBase s die b
def bankSet (s : State) (die b : Nat) (x : Byte) : State :=
  { s with bank := mset s.bank (bankKey die b) (x ^^^ bankBase s die b) }

/-- Granules of a die's bank memory (R252, R373). -/
def bankGranules (s : State) (die : Nat) : Nat := 96 * (s.die die).hsteps * 128 * 1024 / granule

/-- A granule's contents become undefined, or zero. -/
def bankUndefine (s : State) (die g : Nat) (zero : Bool) : State :=
  let s := { s with bank := mclear s.bank (bankKey die (g * granule)) granule }
  if zero then s.modDie die (fun d => { d with bankEpoch := tdel g d.bankEpoch })
  else
    let (e, s) := freshId s
    s.modDie die (fun d => { d with bankEpoch := tset g e d.bankEpoch })

def bankUndefineAll (s : State) (die g : Nat) (zero : Bool) : Nat → State
  | 0 => s
  | n + 1 => bankUndefineAll (bankUndefine s die g zero) die (g + 1) zero n

def window (s : State) (part win : Nat) : Win := tget {} (s.part part).wins win
def winValid (w : Win) : Bool := w.flags.getLsbD 0
def winDie (w : Win) : Nat := w.flags.toNat / 8 % 4
def hostKey (part : Nat) (addr : Nat) : Nat := part * 2 ^ 64 + addr % 2 ^ 64

/-- The endpoint-table entry of a partition on a die (R382). -/
def epEntry (s : State) (part die ep : Nat) : DWord := tget 0 (s.part part).eps (1024 * die + ep)
def epTpart (e : DWord) : Nat := e.toNat / 2 % 16
def remoteKey (ep tpart off : Nat) : Nat := (ep * 16 + tpart) * 2 ^ 50 + off

/-! ### Places -/

def Loc.add (l : Loc) (n : Nat) : Loc :=
  match l with
  | .hbm pa => .hbm (pa + n)
  | .bank d b => .bank d (b + n)
  | .scratch c o => .scratch c (o + n)
  | .remote d p e o => .remote d p e (o + n)
  | .host p w o => .host p w (o + n)
  | .zero => .zero

/-- A byte at its point of performance (R246). -/
def locByte (s : State) : Loc → Byte
  | .hbm pa => mget s.hbm pa
  | .bank d b => bankGet s d b
  | .scratch c o => mget (s.core c).scratch o
  | .remote d p e o => mget s.remote (remoteKey e (epTpart (epEntry s p d e)) o)
  | .host p w o => mget s.host (hostKey p ((window s p w).base.toNat + o))
  | .zero => 0

def locSet (s : State) (l : Loc) (b : Byte) : State :=
  match l with
  | .hbm pa => { s with hbm := mset s.hbm pa b }
  | .bank d x => bankSet s d x b
  | .scratch c o => s.modCore c (fun y => { y with scratch := mset y.scratch o b })
  | .remote d p e o => { s with remote := mset s.remote (remoteKey e (epTpart (epEntry s p d e)) o) b }
  | .host p w o => { s with host := mset s.host (hostKey p ((window s p w).base.toNat + o)) b }
  | .zero => s

def locRead (s : State) (l : Loc) : Nat → List Byte
  | 0 => []
  | n + 1 => locByte s l :: locRead s (l.add 1) n

def locWrite (s : State) (l : Loc) : List Byte → State
  | [] => s
  | b :: bs => locWrite (locSet s l b) (l.add 1) bs

def locNat (s : State) (l : Loc) (n : Nat) : Nat := leNat (locRead s l n)

/-- The slice that serves an access at its home. -/
def locUse (s : State) (part : Nat) (loc : Loc) (alloc : Bool := true) : State :=
  match loc with
  | .hbm pa => homeUse s part pa alloc
  | _ => s

/-- The same for every line of a segment. -/
def segUse (s : State) (part : Nat) (g : Seg) (alloc : Bool := true) : State :=
  match g.loc with
  | .hbm pa => useRun s part pa g.len alloc
  | _ => s

/-- Bytes of a list of segments, in order. -/
def segsRead (s : State) : List Seg → List Byte
  | [] => []
  | g :: gs => locRead s g.loc g.len ++ segsRead s gs

def segsWrite (s : State) : List Seg → List Byte → State
  | [], _ => s
  | g :: gs, bs => segsWrite (locWrite s g.loc (bs.take g.len)) gs (bs.drop g.len)

/-- The place of byte `i` of a list of segments. -/
def segsAt : List Seg → Nat → Loc
  | [], _ => .zero
  | g :: gs, i => if i < g.len then g.loc.add i else segsAt gs (i - g.len)

/-- The UALink port of a die that the requests of a thread to an endpoint take: one of those in service that the endpoint's entry
names (R381, R382). -/
def portFor (s : State) (die part ep t : Nat) : Nat :=
  let mask := (epEntry s part die ep).toNat / 32 % 16
  match (List.range 4).filter (fun i => flag mask i && flag (s.die die).porten i) with
  | [] => ((List.range 4).find? (flag mask)).getD 0
  | p :: ps => (p :: ps).getD (Config.port t ep % (ps.length + 1)) p

/-- The LINK_FAIL detail of a request of a die, for a thread, that needs a link that is down (R342, R376, R381, R383). -/
def linkFault (s : State) (die : Nat) (l : Loc) (t : Nat := 0) : Option Nat :=
  match l with
  | .hbm pa => if bridgeDown s die (dieOfPa pa) then some (16 + dieOfPa pa) else none
  | .bank d _ => if bridgeDown s die d then some (16 + d) else none
  | .scratch .. => none
  | .zero => none
  | .host p w _ =>
    let d := winDie (window s p w)
    if bridgeDown s die d then some (16 + d) else if (s.die d).laceDown then some (0x20 + d) else none
  | .remote _ p e _ =>
    let i := portFor s die p e t
    if flag (epEntry s p die e).toNat (5 + i) && flag (s.die die).porten i && !flag (s.die die).portsDown i then none
    else some (4 * die + i)

/-- The LINK_FAIL detail of a request that the far end fails though every link is up: a target's error response, or a host read that
fails (R376, R382). -/
def farFault (s : State) (die : Nat) (l : Loc) (t : Nat) (read : Bool) : Option Nat :=
  match l with
  | .remote _ p e _ => some (4 * die + portFor s die p e t)
  | .host p w _ => if read then some (0x20 + winDie (window s p w)) else none
  | _ => none

/-- A register of a die cannot be reached from the host: its Lace port is down (R376). -/
def hostDown (s : State) (die : Nat) : Bool := (s.die die).laceDown || !(s.die die).fuse.present

/-- A request of the host to a die: it completes with Completer Abort at the card when it cannot be reached (R376). -/
def atHost (s : State) (die : Nat) (f : State) : State := if hostDown s die then { s with answer := some .abort } else f

/-- The links that a request of a die, for a thread, takes to a place. -/
def linksOf (s : State) (die : Nat) (l : Loc) (t : Nat) : List Link :=
  let toDie (d : Nat) : List Link := if die = d then [] else [.bridge (min die d) (max die d)]
  match l with
  | .hbm pa => toDie (dieOfPa pa)
  | .bank d _ => toDie d
  | .host p w _ => toDie (winDie (window s p w)) ++ [.lace (winDie (window s p w))]
  | .remote _ p e _ => [.ual die (portFor s die p e t)]
  | .scratch .. => []
  | .zero => []

/-! ### Retraining of stacks (R413, R415) -/

/-- The stack of a physical address, key 4 × die + stack. -/
def stackOf (pa : Nat) : Nat := 4 * dieOfPa pa + channelOf pa / 32

/-- The home slice holds the line of an address: an access to it does not reach the stack. -/
def sliceHolds (s : State) (pa : Nat) : Bool :=
  let l := lineNo pa
  (tget [] (s.die (dieOfPa pa)).l2 (32 * sectorOfLine l + sliceOfLine s l)).any (fun e => e.line == l && !e.rcopy)

/-- The access is held at the controller of a stack that trains. -/
def hbmHeld (s : State) : Loc → Bool
  | .hbm pa => (s.stack (stackOf pa)).st == 1 && !sliceHolds s pa
  | _ => false

/-- The access meets a stack whose training failed. -/
def hbmFailed (s : State) : Loc → Bool
  | .hbm pa => (s.stack (stackOf pa)).st == 3 && !sliceHolds s pa
  | _ => false

/-- Storage that serves an access of `n` bytes at a place has an uncorrectable error: the detail of DATA_ERROR (R342, R411). -/
def ueDetail (s : State) (loc : Loc) (n : Nat) : Option Nat :=
  match loc with
  | .hbm pa =>
    if s.fw.ueChip.contains (2, lineNo pa) then some 2
    else if s.fw.ueLines.contains (lineNo pa) && !sliceHolds s pa then some 1
    else none
  | .bank d b => if (List.range ((b % 8 + n + 7) / 8)).any (fun i => s.fw.ueChip.contains (3, bankUnit d (b / 8 * 8 + 8 * i))) then some 3 else none
  | .scratch c o => if (List.range ((o % 8 + n + 7) / 8)).any (fun i => s.fw.ueChip.contains (4, 2 ^ 21 * c + o / 8 + i)) then some 4 else none
  | _ => none

/-- The same for a load of a core, which does not reach the home where the L1 has its bytes. -/
def ueLoad (s : State) (c : Nat) (loc : Loc) (n : Nat) : Option Nat :=
  match loc with
  | .hbm pa => if l1Has s c pa n then none else ueDetail s loc n
  | loc => ueDetail s loc n

/-- What defeats an access at its place: code and detail of R342. -/
def placeFault (s : State) (die : Nat) (loc : Loc) (t : Nat := 0) : Option (Nat × Nat) :=
  match linkFault s die loc t with
  | some d => some (0x53, d)
  | none => if hbmFailed s loc then some (0x52, 1) else none

/-- The die and the RAS counter that count an uncorrectable error at a place: those of the storage that has it (R416). -/
def ueCounter (loc : Loc) (detail : Nat) : Nat × Nat :=
  let i := if detail = 1 then 3 else 1
  match loc with
  | .hbm pa => (dieOfPa pa, i)
  | .bank d _ => (d, i)
  | .scratch c _ => (dieOfCore c, i)
  | .remote d _ _ _ => (d, i)
  | _ => (0, i)

/-- An uncorrectable error at a place is counted (R416). -/
def countUeAt (s : State) (loc : Loc) (detail : Nat) : State := rasCount s (ueCounter loc detail).1 (ueCounter loc detail).2 1

/-! ### What keeps an instruction line away (R383, R411, R415) -/

/-- A line that the cluster's cache lacks comes from its home: what defeats it there. -/
def lineFault (s : State) (c l : Nat) : Option (Nat × Nat) :=
  if (tfind (s.cluster (clusterOf c)).l2i l).isSome then none
  else (placeFault s (dieOfCore c) (.hbm (128 * l))).or ((ueDetail s (.hbm (128 * l)) 128).map (fun d => (0x52, d)))

/-- It waits at a stack that trains. -/
def lineHeld (s : State) (c l : Nat) : Bool :=
  (tfind (s.cluster (clusterOf c)).l2i l).isNone && !homeCut s c l && hbmHeld s (.hbm (128 * l))

/-! ### The object cache (R151, R156) -/

def otLoc (s : State) (part idx : Nat) : Loc := .hbm ((s.part part).otpa + 32 * idx)

/-- The table's entry at its home (R151). -/
def tableEntry (s : State) (part idx : Nat) : Nat := leGet s.hbm ((s.part part).otpa + 32 * idx) 32

/-- An entry enters a core's object cache of 64 entries (R156); the oldest leaves a full one (DESIGN CHOICE, log entry 86). -/
def ocacheFill (s : State) (c part idx : Nat) : State :=
  let e := tableEntry s part idx
  let s := homeUse s part ((s.part part).otpa + 32 * idx)
  s.modCore c (fun x => { x with
    ocache := (part, idx, BitVec.ofNat 256 e) :: (x.ocache.filter (fun y => !(y.1 == part && y.2.1 == idx))).take 63 })

/-- What an instruction that has waited captured of an entry when it issued (R156, R170). -/
def heldEntry (s : State) (part idx : Nat) : Option (BitVec 256) :=
  (s.iss.held.bind (fun h => h.caps.find? (fun y => y.1 == part && y.2.1 == idx))).map (·.2.2)

/-- The captured entry: from the object cache, or on a miss from the table; none when its fill met an uncorrectable error, a stack
whose training failed or a bridge that is down. -/
def capture (s : State) (c part idx : Nat) : Option (Nat × State) :=
  match heldEntry s part idx with
  | some e => some (e.toNat, s)
  | none =>
  if (s.core c).obad.contains (part, idx) then none
  else
    match (s.core c).ocache.find? (fun y => y.1 == part && y.2.1 == idx) with
    | some y => some (y.2.2.toNat, s)
    | none =>
      if (placeFault s (dieOfCore c) (otLoc s part idx)).isSome || (ueDetail s (otLoc s part idx) 32).isSome then none
      else some (tableEntry s part idx, ocacheFill s c part idx)

/-- Code and detail of the trap of an entry that is not captured: LINK_FAIL of a bridge (R383), DATA_ERROR with detail 1 of a failed
stack (R415), otherwise 2 (R180). -/
def captureFault (s : State) (c part idx : Nat) : Nat × Nat :=
  if (s.core c).obad.contains (part, idx) then (0x52, 2) else (placeFault s (dieOfCore c) (otLoc s part idx)).getD (0x52, 2)

/-- The fill of an entry waits at a stack that trains (R415). -/
def captureHeldUp (s : State) (c part idx : Nat) : Bool :=
  hbmHeld s (otLoc s part idx) && (linkFault s (dieOfCore c) (otLoc s part idx)).isNone && !(s.core c).obad.contains (part, idx) &&
    !(s.core c).ocache.any (fun y => y.1 == part && y.2.1 == idx)

def objIdx (g : Group) : ObjSel → Nat
  | .idx i => i.toNat
  | .k n => (kread g n.val).toNat % 2 ^ 16

/-! ### Translation (R361 to R364) -/

/-- The rights an access needs, and whether it is atomic. -/
structure Need where
  r : Bool := false
  w : Bool := false
  x : Bool := false
  a : Bool := false
  deriving DecidableEq, Repr

def needR : Need := { r := true }
def needW : Need := { w := true }
def needX : Need := { x := true }
def needA : Need := { r := true, w := true, a := true }

/-- A walk that fails (R343, R364). -/
structure XFail where
  stage2 : Bool
  cause : Nat
  level : Nat
  gpa : Nat := 0
  s1walk : Bool := false
  deriving DecidableEq, Repr

/-- The translation detail of R343 without STAGE2. -/
def XFail.detail (f : XFail) (n : Need) : Nat :=
  f.cause + 8 * f.level + 64 * n.w.toNat + 128 * n.x.toNat + 256 * n.a.toNat

def Leaf.r (l : Leaf) : Bool := flag l.bits 2
def Leaf.w (l : Leaf) : Bool := flag l.bits 3
def Leaf.x (l : Leaf) : Bool := flag l.bits 4
def Leaf.grants (l : Leaf) (n : Need) : Bool := (!n.r || l.r) && (!n.w || l.w) && (!n.x || l.x)

/-- An entry breaks a must or a zero of the table of R362. -/
def entryMalformed (e lvl : Nat) : Bool :=
  let leaf := flag e 1
  bitsAt e 6 3 != 0 || bitsAt e 52 11 != 0 || (lvl == 0 && !leaf) || (decide (3 ≤ lvl) && leaf) ||
    (flag e 5 && !(lvl == 0 && leaf)) || (leaf && bitsAt e 12 40 * 4096 % 2 ^ (12 + 9 * lvl) != 0)

/-- A level-0 entry is one of a 64 KiB page, its ADDR that of its place in it. -/
def contigEntryOk (e i : Nat) : Bool := flag e 0 && flag e 5 && !entryMalformed e 0 && bitsAt e 12 4 == i % 16

/-- The 16 entries of a 64 KiB page agree: consecutive ADDR values and equal rights. -/
def contigAgree (es : List Nat) : Bool :=
  es.zipIdx.all (fun p => contigEntryOk p.1 p.2 && bitsAt p.1 16 36 == bitsAt (es.getD 0 0) 16 36 && bitsAt p.1 2 3 == bitsAt (es.getD 0 0) 2 3)

/-- The leaf of an entry with CONTIG at index `i` of the table at `t`: of a 64 KiB page. Where the 16 entries disagree, the
translation of any valid one is used (R362, log entry 90). -/
def contigLeaf (rd : Nat → Nat → Except XFail Nat) (pick : Nat → Nat) (t i e : Nat) : Leaf :=
  let first := t + 8 * (i / 16 * 16)
  let es := (List.range 16).map (fun j => match rd 0 (first + 8 * j) with | .ok x => x | .error _ => 0)
  let leaf (x : Nat) : Leaf := ⟨bitsAt x 16 36 * 65536, 65536, 0, x⟩
  if contigAgree es then leaf e
  else
    let j := pick (t + 8 * i) % 16
    if contigEntryOk (es.getD j 0) j then leaf (es.getD j 0) else leaf e

/-- Walk one stage from the table at `t`, at level `lvl`; `rd` reads an entry, `fail` names this stage's failures, `pick` chooses
among the entries of a 64 KiB page that disagree. -/
def walkTable (rd : Nat → Nat → Except XFail Nat) (fail : Nat → Nat → XFail) (pick : Nat → Nat) (va : Nat) : Nat → Nat → Except XFail Leaf
  | 0, t =>
    match rd 0 (t + 8 * (va / 2 ^ 12 % 512)) with
    | .error f => .error f
    | .ok e =>
      if !flag e 0 then .error (fail 1 0)
      else if entryMalformed e 0 then .error (fail 3 0)
      else if flag e 5 then
        (if contigEntryOk e (va / 2 ^ 12 % 16) then .ok (contigLeaf rd pick t (va / 2 ^ 12 % 512) e) else .error (fail 3 0))
      else .ok ⟨bitsAt e 12 40 * 4096, 4096, 0, e⟩
  | l + 1, t =>
    match rd (l + 1) (t + 8 * (va / 2 ^ (12 + 9 * (l + 1)) % 512)) with
    | .error f => .error f
    | .ok e =>
      if !flag e 0 then .error (fail 1 (l + 1))
      else if entryMalformed e (l + 1) then .error (fail 3 (l + 1))
      else if flag e 1 then .ok ⟨bitsAt e 12 40 * 4096, 2 ^ (12 + 9 * (l + 1)), l + 1, e⟩
      else walkTable rd fail pick va l (bitsAt e 12 40 * 4096)

/-- Stage 2 of a GPA: the physical address, the leaf, and whether the page is the object table's (R151, R361). -/
def walk2 (s : State) (part gpa : Nat) : Except XFail (Nat × Leaf × Bool) :=
  let p := s.part part
  if p.potgpa ≠ 0 ∧ p.potgpa ≤ gpa ∧ gpa < p.potgpa + 2 ^ 21 then
    let pa := p.otpa + (gpa - p.potgpa)
    if paPresent s pa then .ok (pa, ⟨pa / 4096 * 4096, 4096, 0, 13⟩, true) else .error { stage2 := true, cause := 4, level := 0, gpa }
  else
    let fail := fun cause lvl => ({ stage2 := true, cause, level := lvl, gpa } : XFail)
    let rd := fun lvl a =>
      if !paPresent s a then .error (fail 4 lvl)
      else if (ueDetail s (.hbm a) 8).isSome || hbmFailed s (.hbm a) then .error (fail 5 lvl)
      else .ok (leGet s.hbm a 8)
    match walkTable rd fail (Config.contigEntry s.nextId) gpa 4 p.s2root with
    | .error f => .error f
    | .ok l =>
      let pa := l.base + gpa % l.size
      if paPresent s pa then .ok (pa, l, false) else .error (fail 4 l.level)

/-- Stage 2 with rights; POTGPA pages are for privileged threads (R151). -/
def walk2Need (s : State) (part : Nat) (priv : Bool) (gpa : Nat) (n : Need) : Except XFail (Nat × Leaf × Bool) :=
  match walk2 s part gpa with
  | .error f => .error f
  | .ok (pa, l, ot) =>
    if l.grants n && (priv || !ot) then .ok (pa, l, ot)
    else .error { stage2 := true, cause := 2, level := l.level, gpa }

/-- Stage 1: the GPA and, when there is a stage 1, its leaf. -/
def walk1 (s : State) (part : Nat) (priv : Bool) (va : Nat) (n : Need) : Except XFail (Nat × Option Leaf) :=
  let root := (s.part part).s1root.toNat
  let fail := fun cause lvl => ({ stage2 := false, cause, level := lvl } : XFail)
  if root = 0 then (if va < 2 ^ 52 then .ok (va, none) else .error (fail 1 4))
  else
    let rd := fun lvl a =>
      match walk2Need s part priv a needR with
      | .error f => .error { f with s1walk := true }
      | .ok (pa, _, _) => if (ueDetail s (.hbm pa) 8).isSome || hbmFailed s (.hbm pa) then .error (fail 5 lvl) else .ok (leGet s.hbm pa 8)
    match walkTable rd fail (Config.contigEntry s.nextId) va 4 root with
    | .error f => .error f
    | .ok l => if l.grants n then .ok (l.base + va % l.size, some l) else .error (fail 2 l.level)

/-- A whole walk: the physical address and the entry a TLB takes (R363). -/
def walk (s : State) (part : Nat) (priv : Bool) (va : Nat) (n : Need) : Except XFail (Nat × Tlb) :=
  match walk1 s part priv va n with
  | .error f => .error f
  | .ok (gpa, l1) =>
    match walk2Need s part priv gpa n with
    | .error f => .error f
    | .ok (pa, l2, ot) =>
      let size := match l1 with | some l => min l.size l2.size | none => l2.size
      .ok (pa, { part, va := va - va % size, size, gpa := gpa - gpa % size, pa := pa - pa % size, l1, l2, priv := ot })

/-- The TLB entry of a core that covers an address. -/
def tlbFind (s : State) (c part va : Nat) : Option Tlb :=
  (s.core c).tlb.find? (fun t => t.part == part && decide (t.va ≤ va) && decide (va < t.va + t.size))

/-- What a TLB entry answers: the rights are those of the walk that filled it (R363). -/
def Tlb.answer (s : State) (t : Tlb) (priv : Bool) (va : Nat) (n : Need) : Except XFail Nat :=
  let off := va - t.va
  let bad2 (cause : Nat) : XFail := { stage2 := true, cause, level := t.l2.level, gpa := t.gpa + off }
  match t.l1.filter (fun l => !l.grants n) with
  | some l => .error { stage2 := false, cause := 2, level := l.level }
  | none =>
    if !t.l2.grants n || (t.priv && !priv) then .error (bad2 2)
    else if paPresent s (t.pa + off) then .ok (t.pa + off)
    else .error (bad2 4)

/-- The physical address when a TLB entry of the core grants the access. -/
def tlbHit (s : State) (c part : Nat) (priv : Bool) (va : Nat) (n : Need) : Option Nat :=
  match tlbFind s c part va with
  | some t => (t.answer s priv va n).toOption
  | none => none

def tlbFill (s : State) (c : Nat) (t : Tlb) : State := s.modCore c (fun x => { x with tlb := (t :: x.tlb).take 1024 })

/-- Translation at once: by the TLB entry, else by a walk. A store to a table entry reaches a cached translation only through an
invalidation (R363). -/
def translate (s : State) (c part : Nat) (priv : Bool) (va : Nat) (n : Need) : Except XFail Nat :=
  match tlbFind s c part va with
  | some t => t.answer s priv va n
  | none =>
    match walk s part priv va n with
    | .ok (pa, _) => .ok pa
    | .error f => .error f

/-! ### What a walk reads (R363) -/

/-- Physical addresses of the entries that a stage-2 walk reads. -/
def reads2 (s : State) (part gpa : Nat) : List Nat :=
  let p := s.part part
  if p.potgpa ≠ 0 ∧ p.potgpa ≤ gpa ∧ gpa < p.potgpa + 2 ^ 21 then [] else go p.s2root 4
where
  go (t : Nat) : Nat → List Nat
    | 0 => [t + 8 * (gpa / 2 ^ 12 % 512)]
    | l + 1 =>
      let a := t + 8 * (gpa / 2 ^ (12 + 9 * (l + 1)) % 512)
      let e := leGet s.hbm a 8
      a :: (if flag e 0 && !flag e 1 then go (bitsAt e 12 40 * 4096) l else [])

/-- Physical addresses of the entries that a walk reads, of both stages. -/
def walkReads (s : State) (part va : Nat) : List Nat :=
  let root := (s.part part).s1root.toNat
  let last : List Nat := match walk1 s part true va {} with
    | .ok (gpa, _) => reads2 s part gpa
    | .error _ => []
  if root = 0 then last else go root 4 ++ last
where
  go (t : Nat) : Nat → List Nat
    | 0 => at' (t + 8 * (va / 2 ^ 12 % 512))
    | l + 1 =>
      let a := t + 8 * (va / 2 ^ (12 + 9 * (l + 1)) % 512)
      at' a ++ (match walk2 s part a with
        | .ok (pa, _, _) =>
          let e := leGet s.hbm pa 8
          if flag e 0 && !flag e 1 then go (bitsAt e 12 40 * 4096) l else []
        | .error _ => [])
  at' (a : Nat) : List Nat := reads2 s part a ++ (match walk2 s part a with | .ok (pa, _, _) => [pa] | .error _ => [])

/-- The uncorrectable error that a walk meets is counted where it lies (R343, R416). -/
def countWalkUe (s : State) (part va : Nat) : State :=
  match (walkReads s part va).find? (fun a => (ueDetail s (.hbm a) 8).isSome) with
  | some a => countUeAt s (.hbm a) ((ueDetail s (.hbm a) 8).getD 1)
  | none => s

/-- The physical addresses that the walk for an access still has to read: none where a TLB entry covers it (R363). -/
def walkPending (s : State) (c part va : Nat) : List Nat := if (tlbFind s c part va).isSome then [] else walkReads s part va

/-- The LINK_FAIL detail of a walk that reads a table across a bridge that is down (R383). -/
def walkLink (s : State) (c part va : Nat) : Option Nat := (walkPending s c part va).findSome? (fun a => linkFault s (dieOfCore c) (.hbm a))

/-- A table read of the walk waits at a stack that trains (R415). -/
def walkHeld (s : State) (c part va : Nat) : Bool :=
  (walkLink s c part va).isNone && (walkPending s c part va).any (fun a => hbmHeld s (.hbm a))

/-- The walk of an instruction that translates at once: its table reads are served by their home slices, and a combined translation is
installed (R363). -/
def walkNow (s : State) (c part va : Nat) : State :=
  let s' := (walkPending s c part va).foldl (fun s a => homeUse s part a) s
  if (walkLink s c part va).isSome then s
  else if (tlbFind s c part va).isSome then s'
  else
    match walk s part true va {} with
    | .ok (_, t) => tlbFill s' c t
    | .error _ => s'

/-! ### Generic pointers (R165) -/

def ptrSpace (p : DWord) : Nat := p.toNat / 2 ^ 60
def ptrOff (p : DWord) : Nat := p.toNat % 2 ^ 60
def bankDie (p : DWord) : Nat := p.toNat / 2 ^ 50 % 4
def bankOff (p : DWord) : Nat := p.toNat % 2 ^ 50
def ptrEp (p : DWord) : Nat := p.toNat / 2 ^ 50 % 1024
def ptrEpOff (p : DWord) : Nat := p.toNat % 2 ^ 50
def ptrWin (p : DWord) : Nat := p.toNat / 2 ^ 54 % 64
def ptrWinOff (p : DWord) : Nat := p.toNat % 2 ^ 54

/-- `walkHeld` and `walkNow` of a pointer. -/
def ptrWalkHeld (s : State) (c part : Nat) (p : DWord) : Bool := ptrSpace p == 0 && walkHeld s c part (ptrOff p)
def ptrWalk (s : State) (c part : Nat) (p : DWord) : State := if ptrSpace p = 0 then walkNow s c part (ptrOff p) else s

/-- Popcount of the scratch mask times 128 KiB (R164). -/
def scratchSize (x : Core) : Nat := ((List.range 16).filter (fun i => x.scrways.getLsbD i)).length * 131072

/-- Size of a partition's bank range on a die in bytes. -/
def bankRangeSize (s : State) (part die : Nat) : Nat := ((s.part part).pbank.getD die (0, 0)).2 * granule
def bankRangeBase (s : State) (part die : Nat) : Nat := ((s.part part).pbank.getD die (0, 0)).1 * granule

/-- The size of the space a pointer names from its offset 0, when it names one and its zero bits are zero (R165); `die` is
the die that issues. -/
def spaceSize (s : State) (part die : Nat) (p : DWord) : Option Nat :=
  match ptrSpace p with
  | 0 => if ptrOff p < 2 ^ 57 then some (2 ^ 57) else none
  | 1 => some (1536 * 1024)
  | 2 => if p.toNat / 2 ^ 52 % 256 = 0 ∧ (s.die (bankDie p)).fuse.present then some (bankRangeSize s part (bankDie p)) else none
  | 3 => if (epEntry s part die (ptrEp p)).getLsbD 0 then some (2 ^ 50) else none
  | 4 =>
    let w := window s part (ptrWin p)
    if winValid w then some w.size.toNat else none
  | _ => none

/-- The offset of a pointer within its space. -/
def spaceOff (p : DWord) : Nat :=
  match ptrSpace p with
  | 2 => bankOff p
  | 3 => ptrEpOff p
  | 4 => ptrWinOff p
  | _ => ptrOff p

/-- An access that cannot be made: code and detail of R342, and what stage 2 adds. -/
structure AFail where
  code : Nat
  detail : Nat
  gpa : Nat := 0
  s1walk : Bool := false
  deriving DecidableEq, Repr

def XFail.toAFail (f : XFail) (n : Need) : AFail :=
  { code := if f.stage2 then 0x51 else 0x50, detail := f.detail n, gpa := f.gpa, s1walk := f.s1walk }

/-- The place a pointer names for an access of a core; `useTlbOnly` asks for a TLB entry. A window without the right fails as
a translation failure with CAUSE 2 (R380). -/
def resolve (s : State) (c part : Nat) (priv : Bool) (p : DWord) (n : Need) : Except AFail Loc :=
  match ptrSpace p with
  | 0 =>
    match walkLink s c part (ptrOff p) with
    | some d => .error ⟨0x53, d, 0, false⟩
    | none =>
      match translate s c part priv (ptrOff p) n with
      | .ok pa => .ok (.hbm pa)
      | .error f => .error (f.toAFail n)
  | 1 => .ok (.scratch c (ptrOff p))
  | 2 => .ok (.bank (bankDie p) (bankRangeBase s part (bankDie p) + bankOff p))
  | 3 => .ok (.remote (dieOfCore c) part (ptrEp p) (ptrEpOff p))
  | 4 =>
    let w := window s part (ptrWin p)
    if (!n.r || w.flags.getLsbD 1) && (!n.w || w.flags.getLsbD 2) then .ok (.host part (ptrWin p) (ptrWinOff p))
    else .error ⟨0x50, ({ stage2 := false, cause := 2, level := 0 } : XFail).detail n, 0, false⟩
  | _ => .ok .zero

/-- A span of a pointer as segments of 4 KiB pages in device memory, one segment elsewhere. -/
def resolveSpan (s : State) (c part : Nat) (priv : Bool) (n : Need) : Nat → DWord → Nat → Except AFail (List Seg)
  | 0, _, _ => .ok []
  | fuel + 1, p, len =>
    if len = 0 then .ok []
    else
      let step := if ptrSpace p = 0 then min len (4096 - ptrOff p % 4096) else len
      match resolve s c part priv p n with
      | .error f => .error f
      | .ok loc =>
        match resolveSpan s c part priv n fuel (p + BitVec.ofNat 64 step) (len - step) with
        | .error f => .error f
        | .ok gs => .ok (⟨loc, step⟩ :: gs)

/-- Fuel for a span: one step for each page it can meet. -/
def spanFuel (len : Nat) : Nat := len / 4096 + 2

/-- Firmware's own access to a partition's memory by a pointer of space 0x0 or 0x4, from a die (R321, R350). -/
def fwResolve (s : State) (part : Nat) (p : DWord) (n : Need) : Except AFail Loc :=
  match ptrSpace p with
  | 0 =>
    match walk s part false (ptrOff p) n with
    | .ok (pa, _) => .ok (.hbm pa)
    | .error f => .error (f.toAFail n)
  | 4 =>
    let w := window s part (ptrWin p)
    if winValid w && decide (ptrWinOff p < w.size.toNat) && (!n.r || w.flags.getLsbD 1) && (!n.w || w.flags.getLsbD 2) then
      .ok (.host part (ptrWin p) (ptrWinOff p))
    else .error ⟨0x50, ({ stage2 := false, cause := 2, level := 0 } : XFail).detail n, 0, false⟩
  | _ => .error ⟨0x50, 1, 0, false⟩

end Sys2Proof.Machine
end

