-- ==== Sys2Proof/Machine/Flags.lean ====
section
/-! DEFINITION. Number formats, exact arithmetic, rounding and the floating-point flags (R39 to R51). A finite value is a
sign, a natural significand and a power of two, so every sum and product is exact before its one rounding. -/

namespace Sys2Proof.Machine

/-! ### The flags of R20 -/

abbrev Fl := BitVec 5
def flIX : Fl := 1
def flUF : Fl := 2
def flOF : Fl := 4
def flDZ : Fl := 8
def flNV : Fl := 16
def flIf (b : Bool) (f : Fl) : Fl := if b then f else 0

/-! ### Formats -/

/-- What an exponent field of all ones means (R41). -/
inductive Special where
  | ieee | e4m3 | none
  deriving DecidableEq, Repr

/-- The parameters of R41. -/
structure FP where
  w : Nat
  p : Nat
  bias : Nat
  sp : Special
  deriving DecidableEq, Repr

def f64 : FP := ⟨11, 52, 1023, .ieee⟩
def f32 : FP := ⟨8, 23, 127, .ieee⟩
def f16 : FP := ⟨5, 10, 15, .ieee⟩
def bf16 : FP := ⟨8, 7, 127, .ieee⟩
def e4m3 : FP := ⟨4, 3, 7, .e4m3⟩
def e5m2 : FP := ⟨5, 2, 15, .ieee⟩
def e2m1 : FP := ⟨2, 1, 1, .none⟩

/-- The format of a code of R39 that is floating point. -/
def fpOf (code : Nat) : FP :=
  match code with
  | 1 => f64 | 2 => f32 | 3 => f16 | 4 => bf16 | 5 => e4m3 | _ => e5m2

def FP.width (f : FP) : Nat := 1 + f.w + f.p

/-- Bits of the largest finite value (R41). -/
def FP.maxBits (f : FP) : Nat :=
  match f.sp with
  | .ieee => (2 ^ f.w - 1) * 2 ^ f.p - 1
  | .e4m3 => 2 ^ (f.w + f.p) - 2
  | .none => 2 ^ (f.w + f.p) - 1

/-- The canonical NaN (R41); a format without NaN has none, and no operation asks for it. -/
def FP.nan (f : FP) : Nat :=
  match f.sp with
  | .ieee => (2 ^ f.w - 1) * 2 ^ f.p + 2 ^ (f.p - 1)
  | .e4m3 => 2 ^ (f.w + f.p) - 1
  | .none => 0

/-- Bits of +∞ of a format that has it. -/
def FP.inf (f : FP) : Nat := (2 ^ f.w - 1) * 2 ^ f.p

def FP.sign (f : FP) (neg : Bool) : Nat := if neg then 2 ^ (f.w + f.p) else 0

/-- A decoded value: m × 2^e, or an infinity, or a NaN. -/
inductive FVal where
  | nan
  | inf (neg : Bool)
  | fin (neg : Bool) (m : Nat) (e : Int)
  deriving DecidableEq, Repr

/-- R40. -/
def FP.dec (f : FP) (x : Nat) : FVal :=
  let neg := flag x (f.w + f.p)
  let ex := bitsAt x f.p f.w
  let m := bitsAt x 0 f.p
  let top := ex == 2 ^ f.w - 1
  if top && f.sp == .ieee then (if m = 0 then .inf neg else .nan)
  else if top && f.sp == .e4m3 && m == 2 ^ f.p - 1 then .nan
  else if ex = 0 then .fin neg m (1 - (f.bias : Int) - f.p)
  else .fin neg (m + 2 ^ f.p) ((ex : Int) - f.bias - f.p)

/-- E8M0 (R45). -/
def decE8M0 (x : Nat) : FVal := if x = 255 then .nan else .fin false 1 ((x : Int) - 127)

def FVal.isNan : FVal → Bool
  | .nan => true
  | _ => false
def FVal.isInf : FVal → Bool
  | .inf _ => true
  | _ => false
def FVal.isZero : FVal → Bool
  | .fin _ 0 _ => true
  | _ => false
def FVal.neg : FVal → Bool
  | .nan => false
  | .inf n => n
  | .fin n _ _ => n
def FVal.flip : FVal → FVal
  | .nan => .nan
  | .inf n => .inf (!n)
  | .fin n m e => .fin (!n) m e
def FVal.abs : FVal → FVal
  | .nan => .nan
  | .inf _ => .inf false
  | .fin _ m e => .fin false m e

/-! ### Rounding (R49) -/

/-- Number of bits of n. -/
def bitLen (n : Nat) : Nat := if n = 0 then 0 else Nat.log2 n + 1

/-- x × 2^k for k ≥ 0, floor(x / 2^−k) otherwise. -/
def shiftN (x : Nat) (k : Int) : Nat := if 0 ≤ k then x * 2 ^ k.toNat else x / 2 ^ (-k).toNat

/-- Whether the discarded part rounds the magnitude up: `lo` of 2^k was dropped below `r`, with more below if `sticky`. -/
def roundUp (rm : Rnd) (neg : Bool) (r lo k : Nat) (sticky : Bool) : Bool :=
  let half := 2 ^ k / 2
  let inexact := lo != 0 || sticky
  match rm with
  | .rn => if k = 0 then false else lo > half || (lo == half && (sticky || r % 2 == 1))
  | .ra => if k = 0 then false else lo ≥ half
  | .rz => false
  | .rp => inexact && !neg
  | .dn => inexact && neg

/-- m × 2^e (plus something below 2^e when `sticky`), rounded to a multiple of 2^q: the multiple, and whether inexact. -/
def roundAt (rm : Rnd) (neg : Bool) (m : Nat) (e q : Int) (sticky : Bool) : Nat × Bool :=
  if q ≤ e then
    let r := m * 2 ^ (e - q).toNat
    (if roundUp rm neg r 0 0 sticky then r + 1 else r, sticky)
  else
    let k := (q - e).toNat
    let r := m / 2 ^ k
    let lo := m % 2 ^ k
    (if roundUp rm neg r lo k sticky then r + 1 else r, lo != 0 || sticky)

/-- What R50 delivers for a finite value that overflows. -/
def overflowBits (f : FP) (rm : Rnd) (sat neg : Bool) : Nat :=
  match f.sp with
  | .ieee =>
    match rm with
    | .rn | .ra => f.sign neg + f.inf
    | .rz => f.sign neg + f.maxBits
    | .rp => if neg then f.sign neg + f.maxBits else f.inf
    | .dn => if neg then f.sign neg + f.inf else f.maxBits
  | .e4m3 => if sat then f.sign neg + f.maxBits else f.nan
  | .none => f.sign neg + f.maxBits

/-- Round a finite value to a format and deliver it: its bits and flags (R49 to R51). -/
def roundFin (f : FP) (rm : Rnd) (sat neg : Bool) (m : Nat) (e : Int) (sticky : Bool) : Nat × Fl :=
  if m = 0 && !sticky then (f.sign neg, 0)
  else
    let emin : Int := 1 - (f.bias : Int)
    let top : Int := e + (bitLen m : Int) - 1
    let q : Int := max (top - f.p) (emin - f.p)
    let (r, inexact) := roundAt rm neg m e q sticky
    let bits := (q - (emin - f.p)).toNat * 2 ^ f.p + r
    if bits > f.maxBits then (overflowBits f rm sat neg, flOF ||| flIX)
    else (f.sign neg + bits, flIf inexact flIX ||| flIf (inexact && bits < 2 ^ f.p) flUF)

/-- Deliver any value to a format; an infinity to E4M3 follows R50. -/
def deliver (f : FP) (rm : Rnd) (sat : Bool) (v : FVal) : Nat × Fl :=
  match v with
  | .nan => (f.nan, 0)
  | .inf neg =>
    match f.sp with
    | .ieee => (f.sign neg + f.inf, 0)
    | .e4m3 => if sat then (f.sign neg + f.maxBits, flOF ||| flIX) else (f.nan, flNV ||| flIX)
    | .none => (f.sign neg + f.maxBits, flOF ||| flIX)
  | .fin neg m e => roundFin f rm sat neg m e false

/-! ### Exact arithmetic -/

/-- The integer value of m × 2^e with sign, in units of 2^u, u ≤ e. -/
def FVal.units (v : FVal) (u : Int) : Int :=
  match v with
  | .fin neg m e => (if neg then -1 else 1) * ((m * 2 ^ (e - u).toNat : Nat) : Int)
  | _ => 0

def FVal.expo : FVal → Int
  | .fin _ _ e => e
  | _ => 0

def ofUnits (x : Int) (u : Int) : FVal := .fin (x < 0) x.natAbs u

/-- A product, and whether it is 0 × ∞. -/
def mulV (a b : FVal) : FVal × Bool :=
  match a, b with
  | .nan, _ => (.nan, false)
  | _, .nan => (.nan, false)
  | .inf n, .inf n' => (.inf (n != n'), false)
  | .inf n, .fin n' m _ => if m = 0 then (.nan, true) else (.inf (n != n'), false)
  | .fin n' m _, .inf n => if m = 0 then (.nan, true) else (.inf (n != n'), false)
  | .fin n m e, .fin n' m' e' => (.fin (n != n') (m * m') (e + e'), false)

/-- A sum under the zero-sign rule of R103, and whether it is ∞ − ∞. -/
def addV (rm : Rnd) (a b : FVal) : FVal × Bool :=
  match a, b with
  | .nan, _ => (.nan, false)
  | _, .nan => (.nan, false)
  | .inf n, .inf n' => if n = n' then (.inf n, false) else (.nan, true)
  | .inf n, .fin .. => (.inf n, false)
  | .fin .., .inf n => (.inf n, false)
  | .fin n m e, .fin n' m' e' =>
    let u := min e e'
    let x := (FVal.fin n m e).units u + (FVal.fin n' m' e').units u
    if x = 0 then (.fin (if m = 0 && m' = 0 && n == n' then n else rm == .dn) 0 u, false)
    else (ofUnits x u, false)

/-- An exact sum of several terms (R51, R145): +0 for zero, NV for opposite infinities whatever else it holds. -/
def sumV (l : List FVal) : FVal × Bool :=
  let pinf := l.any (fun v => v == .inf false)
  let ninf := l.any (fun v => v == .inf true)
  if pinf && ninf then (.nan, true)
  else if l.any FVal.isNan then (.nan, false)
  else if pinf then (.inf false, false)
  else if ninf then (.inf true, false)
  else
    let u := l.foldl (fun u v => min u v.expo) 0
    (ofUnits (l.foldl (fun x v => x + v.units u) 0) u, false)

/-- a + b in a format. -/
def fAdd (f : FP) (rm : Rnd) (a b : Nat) : Nat × Fl :=
  let (v, nv) := addV rm (f.dec a) (f.dec b)
  let (x, fl) := deliver f rm false v
  (x, fl ||| flIf nv flNV)

def fMul (f : FP) (rm : Rnd) (a b : Nat) : Nat × Fl :=
  let (v, nv) := mulV (f.dec a) (f.dec b)
  let (x, fl) := deliver f rm false v
  (x, fl ||| flIf nv flNV)

/-- a × b + c with one rounding (R103). -/
def fFma (f : FP) (rm : Rnd) (a b c : Nat) : Nat × Fl :=
  let (p, nv1) := mulV (f.dec a) (f.dec b)
  let (v, nv2) := addV rm p (f.dec c)
  let (x, fl) := deliver f rm false v
  (x, fl ||| flIf (nv1 || nv2) flNV)

/-- Negate a value's sign bit, for a − b. -/
def fNeg (f : FP) (x : Nat) : Nat := x ^^^ 2 ^ (f.w + f.p)

/-- −1, 0 or 1 as a is below, equal to or above b; neither is NaN; −0 = +0. -/
def cmpV (a b : FVal) : Int :=
  match a, b with
  | .inf n, .inf n' => if n = n' then 0 else if n then -1 else 1
  | .inf n, _ => if n then -1 else 1
  | _, .inf n => if n then 1 else -1
  | a, b =>
    let u := min a.expo b.expo
    let d := a.units u - b.units u
    if d < 0 then -1 else if d = 0 then 0 else 1

/-- A floating-point result that is NaN is the canonical one (R42). -/
def canonNan (f : FP) (x : Nat) : Nat := if (f.dec x).isNan then f.nan else x

/-- FMIN (R104). -/
def fMin (f : FP) (a b : Nat) : Nat :=
  let x := f.dec a
  let y := f.dec b
  if x.isNan && y.isNan then f.nan
  else if x.isNan then b
  else if y.isNan then a
  else if x.isZero && y.isZero then (if x.neg then a else b)
  else if cmpV x y ≤ 0 then a else b

/-- FMAX (R104). -/
def fMax (f : FP) (a b : Nat) : Nat :=
  let x := f.dec a
  let y := f.dec b
  if x.isNan && y.isNan then f.nan
  else if x.isNan then b
  else if y.isNan then a
  else if x.isZero && y.isZero then (if x.neg then b else a)
  else if cmpV x y ≥ 0 then a else b

/-- R105: the comparison and NV. -/
def fCmp (f : FP) (c : FCond) (a b : Nat) : Bool × Fl :=
  let x := f.dec a
  let y := f.dec b
  let un := x.isNan || y.isNan
  match c with
  | .eq => (!un && cmpV x y == 0, 0)
  | .ne => (un || cmpV x y != 0, 0)
  | .lt => (!un && cmpV x y < 0, flIf un flNV)
  | .le => (!un && cmpV x y ≤ 0, flIf un flNV)
  | .gt => (!un && cmpV x y > 0, flIf un flNV)
  | .ge => (!un && cmpV x y ≥ 0, flIf un flNV)
  | .num => (!un, 0)
  | .nan => (un, 0)

/-- The class of a value: the bit of MASK of R106. -/
def fClass (f : FP) (a : Nat) : Nat :=
  match f.dec a with
  | .nan => 8
  | .inf n => if n then 0 else 7
  | .fin n m _ =>
    if m = 0 then (if n then 3 else 4)
    else if bitsAt a f.p f.w = 0 then (if n then 2 else 5)
    else (if n then 1 else 6)

/-! ### Division and square root -/

/-- Quotient of magnitudes m × 2^e / (m' × 2^e') with p + 4 bits or more, its exponent, and a remainder bit. -/
def divMag (p m : Nat) (e : Int) (m' : Nat) (e' : Int) : Nat × Int × Bool :=
  let s := p + 4 + bitLen m'
  (m * 2 ^ s / m', e - e' - s, m * 2 ^ s % m' != 0)

/-- R122. -/
def fDiv (f : FP) (rm : Rnd) (a b : Nat) : Nat × Fl :=
  match f.dec a, f.dec b with
  | .nan, _ => (f.nan, 0)
  | _, .nan => (f.nan, 0)
  | .inf _, .inf _ => (f.nan, flNV)
  | .inf n, .fin n' _ _ => (f.sign (n != n') + f.inf, 0)
  | .fin n _ _, .inf n' => (f.sign (n != n'), 0)
  | .fin n m e, .fin n' m' e' =>
    if m' = 0 then (if m = 0 then (f.nan, flNV) else (f.sign (n != n') + f.inf, flDZ))
    else if m = 0 then (f.sign (n != n'), 0)
    else
      let (q, ex, st) := divMag f.p m e m' e'
      roundFin f rm false (n != n') q ex st

/-- floor(sqrt x): bit by bit from bit `fuel`. -/
def isqrt (x : Nat) : Nat → Nat → Nat
  | 0, r => if (r + 1) * (r + 1) ≤ x then r + 1 else r
  | fuel + 1, r =>
    let t := r + 2 ^ (fuel + 1)
    isqrt x fuel (if t * t ≤ x then t else r)

def sqrtFloor (x : Nat) : Nat := isqrt x (bitLen x / 2 + 1) 0

/-- Root of a magnitude with p + 4 bits or more, its exponent, and a remainder bit. -/
def sqrtMag (p m : Nat) (e : Int) : Nat × Int × Bool :=
  let k := 2 * (p + 4) + (if e % 2 = 0 then 0 else 1)
  let x := m * 2 ^ k
  let r := sqrtFloor x
  (r, (e - k) / 2, r * r != x)

/-- R122: SQRT(−0) is −0. -/
def fSqrt (f : FP) (rm : Rnd) (a : Nat) : Nat × Fl :=
  match f.dec a with
  | .nan => (f.nan, 0)
  | .inf n => if n then (f.nan, flNV) else (f.inf, 0)
  | .fin n m e =>
    if m = 0 then (f.sign n, 0)
    else if n then (f.nan, flNV)
    else
      let (r, ex, st) := sqrtMag f.p m e
      roundFin f rm false false r ex st

/-! ### Conversions -/

/-- Round to an integer (R49); the value, and whether inexact. -/
def toIntegral (rm : Rnd) (neg : Bool) (m : Nat) (e : Int) : Int × Bool :=
  let (r, ix) := roundAt rm neg m e 0 false
  (if neg then -(r : Int) else r, ix)

def intMin (w : Nat) (un : Bool) : Int := if un then 0 else -(2 ^ (w - 1) : Int)
def intMax (w : Nat) (un : Bool) : Int := if un then 2 ^ w - 1 else 2 ^ (w - 1) - 1

/-- The integer rows of R50: the w-bit pattern and flags. -/
def toInt (v : FVal) (w : Nat) (un : Bool) (rm : Rnd) (sat : Bool) : Nat × Fl :=
  let pat (x : Int) : Nat := (x % (2 ^ w : Int)).toNat
  let bad (neg : Bool) : Nat × Fl :=
    if sat then (pat (if neg then intMin w un else intMax w un), flOF ||| flIX)
    else (pat (intMin w un), flNV ||| flIX)
  match v with
  | .nan => (0, flNV ||| flIX)
  | .inf neg => bad neg
  | .fin neg m e =>
    let (x, ix) := toIntegral rm neg m e
    if x < intMin w un || x > intMax w un then bad neg
    else (pat x, flIf ix flIX)

/-- Read a w-bit pattern as signed or unsigned. -/
def intOf (x w : Nat) (un : Bool) : Int :=
  let y := x % 2 ^ w
  if !un && y ≥ 2 ^ (w - 1) then (y : Int) - 2 ^ w else y

/-- An integer to a format (R114). -/
def ofInt (f : FP) (rm : Rnd) (sat : Bool) (x : Int) : Nat × Fl :=
  if x = 0 then (0, 0) else roundFin f rm sat (x < 0) x.natAbs 0 false

/-- Rounding of an 8-bit destination is ties away whatever RM says (R49). -/
def rmFor (code : Nat) (rm : Rnd) : Rnd := if code = 5 || code = 6 then .ra else rm

/-- The source of a conversion by format code (R40, R41, R45). -/
def decCode (code x : Nat) : FVal := if code = 9 then decE8M0 (x % 256) else (fpOf code).dec (x % 2 ^ (fpOf code).width)

/-- CVT (R111): bits and flags. -/
def convert (df sf : Nat) (rm : Rnd) (sat : Bool) (x : Nat) : Nat × Fl :=
  deliver (fpOf df) (rmFor df rm) sat (decCode sf x)

/-- FRND (R115). -/
def fRnd (f : FP) (rm : Rnd) (a : Nat) : Nat × Fl :=
  match f.dec a with
  | .nan => (f.nan, 0)
  | .inf n => (f.sign n + f.inf, 0)
  | .fin n m e =>
    let (r, ix) := roundAt rm n m e 0 false
    ((roundFin f .rz false n r 0 false).1, flIf ix flIX)

/-- SCALEX (R116). -/
def fScale (f : FP) (rm : Rnd) (a : Nat) (n : Int) : Nat × Fl :=
  match f.dec a with
  | .fin neg m e => if m = 0 then (f.sign neg, 0) else roundFin f rm false neg m (e + n) false
  | v => deliver f rm false v

/-! ### F4X (R46 to R48) and block quantisation (R118 to R120) -/

/-- The magnitude of an E2M1 code in halves: 0, 0.5, 1, 1.5, 2, 3, 4, 6. -/
def e2m1Halves (c : Nat) : Nat := ([0, 1, 2, 3, 4, 6, 8, 12] : List Nat).getD (c % 8) 0

/-- An F4X element (R47). -/
def decF4X (c scale special : Nat) : FVal :=
  if scale = 255 then .nan
  else
    let se : Int := (scale : Int) - 127
    if c % 16 = 8 then
      match e4m3.dec special with
      | .fin n m e => .fin n m (e + se)
      | v => v
    else .fin (flag c 3) (e2m1Halves c) (se - 1)

/-- A value scaled by 2^k. -/
def FVal.scale (v : FVal) (k : Int) : FVal :=
  match v with
  | .fin n m e => .fin n m (e + k)
  | v => v

/-- |a − b| of two finite values. -/
def distV (a b : FVal) : FVal := ((addV .rn a b.flip).1).abs

/-- The candidates of R48, grid first: code and value, in units of the scale. -/
def f4xCands (sp : Nat) : List (Nat × FVal) :=
  ([0, 1, 2, 3, 4, 5, 6, 7, 9, 10, 11, 12, 13, 14, 15] : List Nat).map (fun c => (c, decF4X c 127 0)) ++
    (if (e4m3.dec sp).isNan then [] else [(8, e4m3.dec sp)])

/-- The nearer candidate to x, a tie going to the larger magnitude, an equal value to the earlier one. -/
def betterCand (x : FVal) (best c : Nat × FVal) : Nat × FVal :=
  let d := cmpV (distV x c.2) (distV x best.2)
  if d < 0 then c
  else if d = 0 && cmpV c.2.abs best.2.abs > 0 then c
  else best

/-- R48 with the value already divided by s: code and flags of OF and IX. −0 encodes as 0. -/
def encF4X (y : FVal) (sp : Nat) : Nat × Fl :=
  match y with
  | .nan => if (e4m3.dec sp).isNan then (8, 0) else (0, flNV)
  | _ =>
    let cs := f4xCands sp
    let same := cs.filter (fun c => c.2.isZero || c.2.neg == y.neg)
    let beyond := same.all (fun c => cmpV c.2.abs y.abs < 0)
    if beyond then
      let b := same.foldl (fun b c => if cmpV c.2.abs b.2.abs > 0 then c else b) (0, .fin false 0 0)
      (b.1, flOF ||| flIX)
    else
      let yf := match y with | .inf n => FVal.fin n 1 200 | v => v
      let b := cs.foldl (betterCand yf) (0, .fin false 0 0)
      (b.1, flIf (cmpV b.2 yf != 0) flIX)

/-- floor(log2 |v|) of a finite nonzero value. -/
def FVal.log2 (v : FVal) : Int :=
  match v with
  | .fin _ m e => e + (bitLen m : Int) - 1
  | _ => 0

/-- The largest magnitude of a list of finite values. -/
def maxAbs (xs : List FVal) : FVal :=
  xs.foldl (fun a x => if cmpV x.abs a > 0 then x.abs else a) (.fin false 0 0)

/-- The scale code of R118, or 255 when an element is NaN or infinite. -/
def qScale (f4x : Bool) (xs : List FVal) : Nat :=
  if xs.any (fun x => x.isNan || x.isInf) then 255
  else
    let a := maxAbs xs
    if a.isZero then 127
    else (min (max (a.log2 - (if f4x then 2 else 8) + 127) 0) 254).toNat

/-- err of R118: distance to the nearest E2M1 value; beyond 6 it is measured from 6. -/
def e2m1Err (y : FVal) : FVal :=
  let grid := ([0, 1, 2, 3, 4, 5, 6, 7] : List Nat).map (fun c => decF4X c 127 0)
  grid.foldl (fun d g => let x := distV y.abs g; if cmpV x d < 0 then x else d) (distV y.abs (.fin false 0 0))

/-- The special value of R118. -/
def qSpecial (f4x nosp : Bool) (sc : Nat) (xs : List FVal) : Nat :=
  if !f4x || nosp || sc = 255 then 0
  else
    let ys := xs.map (fun x => x.scale (127 - (sc : Int)))
    let best := ys.foldl (fun b y => if cmpV (e2m1Err y) (e2m1Err b) > 0 then y else b) (.fin false 0 0)
    if (e2m1Err best).isZero then 0 else (deliver e4m3 .ra true best).1

/-- One element's code and flags (R118, R119). -/
def qCode (f4x : Bool) (sc sp : Nat) (x : FVal) : Nat × Fl :=
  if sc = 255 then
    match x with
    | .nan => (0, 0)
    | .inf _ => (0, flNV ||| flIX)
    | .fin .. => (0, flIX)
  else
    let y := x.scale (127 - (sc : Int))
    if f4x then
      let (c, fl) := encF4X y sp
      let v := decF4X c 127 sp
      let small := if c = 8 then cmpV v.abs (.fin false 1 (-6)) < 0 else cmpV v.abs (.fin false 1 0) < 0
      let ix := cmpV v y != 0
      (c, (fl &&& flOF) ||| flIf ix flIX ||| flIf (ix && small) flUF)
    else deliver e4m3 .ra true y

/-- DQBLK (R120). Bits [7:4] of an F4X element are ignored (DESIGN CHOICE, log entry 85). -/
def dequant (f4x : Bool) (rm : Rnd) (x : Nat) : Nat × Fl :=
  let code := x % 256
  let sc := bitsAt x 8 8
  let v := if sc = 255 then .nan
    else if f4x then decF4X (code % 16) sc (bitsAt x 16 8)
    else (e4m3.dec code).scale ((sc : Int) - 127)
  deliver f32 rm false v

end Sys2Proof.Machine
end

