-- ==== Sys2Proof/Machine/Operands.lean ====
section
/-! DEFINITION. Operand forms: what each source reads (R66, R67, R79, R101), and which registers an instruction reads and
writes, for REG_RANGE (R68 step 4), the scoreboard (R32) and the consumers of a logged access (R348). -/

namespace Sys2Proof.Machine

/-! ### Values of operands -/

/-- `n` registers from v(i), low word first, as one number. -/
def vNat (t : Thread) (i : Nat) : Nat → Nat
  | 0 => 0
  | n + 1 => (vread t i).toNat + 2 ^ 32 * vNat t (i + 1) n

def kNat (g : Group) (i : Nat) : Nat → Nat
  | 0 => 0
  | n + 1 => (kread g i).toNat + 2 ^ 32 * kNat g (i + 1) n

/-- A register operand of `n` registers. -/
def regNat (t : Thread) (g : Group) (n : Nat) : Reg → Nat
  | .v i => vNat t i.val n
  | .k i => kNat g i.val n

/-- A constant sign-extended to `bits` (R67). -/
def constNat (c : BitVec 10) (bits : Nat) : Nat := (c.signExtend bits).toNat

/-- A source of `n` registers; a constant is sign-extended to 32 n bits. -/
def srcNat (t : Thread) (g : Group) (n : Nat) : Src → Nat
  | .v i => vNat t i.val n
  | .k i => kNat g i.val n
  | .c c => constNat c (32 * n)

def srcW (t : Thread) (g : Group) (a : Src) : Word := BitVec.ofNat 32 (srcNat t g 1 a)
def srcD (t : Thread) (g : Group) (a : Src) : DWord := BitVec.ofNat 64 (srcNat t g 2 a)
def regW (t : Thread) (g : Group) (a : Reg) : Word := BitVec.ofNat 32 (regNat t g 1 a)
def regD (t : Thread) (g : Group) (a : Reg) : DWord := BitVec.ofNat 64 (regNat t g 2 a)

/-- `n` words of a register operand. -/
def natWords : Nat → Nat → List Word
  | 0, _ => []
  | n + 1, x => BitVec.ofNat 32 x :: natWords n (x / 2 ^ 32)

def regWords (t : Thread) (g : Group) (n : Nat) (a : Reg) : List Word := natWords n (regNat t g n a)
def srcWords (t : Thread) (g : Group) (n : Nat) (a : Src) : List Word := natWords n (srcNat t g n a)

/-- Width in bits of R78. -/
def wdBits : Wd → Nat
  | .w32 => 32
  | .w64 => 64
  | .w16 => 16
  | .w8 => 8

/-- An integer source at width w, read by UN (R79). -/
def srcInt (t : Thread) (g : Group) (wd : Wd) (un : Bool) (a : Src) : Int :=
  intOf (srcNat t g (wd.nregs) a) (wdBits wd) un

/-- An FP32 source: a constant lies at [31:22] (R67). -/
def srcF32 (t : Thread) (g : Group) : Src → Nat
  | .c c => c.toNat * 2 ^ 22
  | a => srcNat t g 1 a

/-- An FP32 value widened exactly to FP64 (R67, R101). -/
def widenF32 (x : Nat) : Nat := (deliver f64 .rn false (f32.dec x)).1

/-- The FP64 constant of c: a NaN stays the canonical one. -/
def srcF64 (t : Thread) (g : Group) : Src → Nat
  | .c c => widenF32 (c.toNat * 2 ^ 22)
  | a => srcNat t g 2 a

def srcF (t : Thread) (g : Group) (dbl : Bool) (a : Src) : Nat := if dbl then srcF64 t g a else srcF32 t g a

/-- A packed pair: a constant puts its 16-bit value in both halves (R67). -/
def srcH2 (t : Thread) (g : Group) : Src → Nat
  | .c c => c.toNat * 2 ^ 6 * (2 ^ 16 + 1)
  | a => srcNat t g 1 a

/-- A source of a conversion from format code `sf`. -/
def srcFmt (t : Thread) (g : Group) (sf : Nat) (a : Src) : Nat :=
  match sf with
  | 1 => srcF64 t g a
  | 2 => srcF32 t g a
  | 3 | 4 => match a with
    | .c c => c.toNat * 2 ^ 6
    | a => srcNat t g 1 a
  | _ => srcNat t g 1 a

/-- IMM32 at width w (R79). -/
def immInt (wd : Wd) (un : Bool) (imm : Word) : Int :=
  match wd with
  | .w64 => if un then (imm.toNat : Int) else imm.toInt
  | _ => intOf imm.toNat (wdBits wd) un

/-! ### Registers an instruction names -/

/-- Ranges (first, count) of v and k registers read and written, and predicates read and written. -/
structure Uses where
  rv : List (Nat × Nat) := []
  wv : List (Nat × Nat) := []
  rk : List (Nat × Nat) := []
  wk : List (Nat × Nat) := []
  rq : List Nat := []
  wq : List Nat := []

def Uses.add (a b : Uses) : Uses :=
  { rv := a.rv ++ b.rv, wv := a.wv ++ b.wv, rk := a.rk ++ b.rk, wk := a.wk ++ b.wk, rq := a.rq ++ b.rq, wq := a.wq ++ b.wq }

/-- Read a source of n registers. -/
def Uses.s (u : Uses) (n : Nat) : Src → Uses
  | .v i => { u with rv := (i.val, n) :: u.rv }
  | .k i => { u with rk := (i.val, n) :: u.rk }
  | .c _ => u

/-- Read a register operand of n registers. -/
def Uses.r (u : Uses) (n : Nat) : Reg → Uses
  | .v i => { u with rv := (i.val, n) :: u.rv }
  | .k i => { u with rk := (i.val, n) :: u.rk }

/-- Write a destination of n registers. -/
def Uses.d (u : Uses) (n : Nat) : Reg → Uses
  | .v i => { u with wv := (i.val, n) :: u.wv }
  | .k i => { u with wk := (i.val, n) :: u.wk }

/-- Read and write a predicate. -/
def Uses.p (u : Uses) (p : PSrc) : Uses := { u with rq := p.idx.val :: u.rq }
def Uses.q (u : Uses) (q : PDst) : Uses := { u with wq := q.val :: u.wq }
def Uses.qo (u : Uses) : Option PDst → Uses
  | some q => u.q q
  | none => u

def Uses.ob (u : Uses) : ObjSel → Uses
  | .idx _ => u
  | .k n => { u with rk := (n.val, 1) :: u.rk }
def Uses.mem (u : Uses) (m : MemOp) : Uses := (u.ob m.obj).s (match m.am with | .ij | .x64 => 2 | _ => 1) m.a
def Uses.mem0 (u : Uses) (m : MemOp0) : Uses := (u.ob m.obj).s 1 m.a

/-- The guard's predicates (R62). -/
def Uses.guard (c : Ctl) : Uses :=
  if c.gm = .a then { rq := [c.ga.idx.val] } else { rq := [c.ga.idx.val, c.gb.idx.val] }

/-- A three-operand shape: destination nd, sources na and nb. -/
def Uses.dab (c : Ctl) (nd na nb : Nat) (d : Reg) (a b : Src) : Uses := (((Uses.guard c).d nd d).s na a).s nb b
def Uses.da (c : Ctl) (nd na : Nat) (d : Reg) (a : Src) : Uses := ((Uses.guard c).d nd d).s na a

/-- Destination registers of a format code (R101). -/
def fmtRegs (code : BitVec 4) : Nat := if code = 1 then 2 else 1

/-- The common fields of an instruction; an event has none. -/
def ctlOf : Instr → Option Ctl
  | .iadd c _ _ _ _ | .isub c _ _ _ _ | .iadd3 c _ _ _ _ _ | .imul c _ _ _ _ | .imulhi c _ _ _ _ |
    .imad c _ _ _ _ _ | .imadw c _ _ _ _ _ | .idiv c _ _ _ _ | .irem c _ _ _ _ | .imin c _ _ _ _ | .imax c _ _ _ _ |
    .iabs c _ _ _ | .ineg c _ _ _ | .isad c _ _ _ _ _ | .icmp c _ _ _ _ _ _ _ | .isel c _ _ _ _ _ |
    .iaddi c _ _ _ _ | .imuli c _ _ _ _ | .icmpi c _ _ _ _ _ _ _ | .lea c _ _ _ _ _ | .idot4 c _ _ _ _ _ _ _ |
    .idot2 c _ _ _ _ _ _ _ | .mov c _ _ _ | .movi c _ _ _ | .movw c _ _ | .and c _ _ _ _ | .or c _ _ _ _ |
    .xor c _ _ _ _ | .andn c _ _ _ _ | .not c _ _ _ | .ltab c _ _ _ _ _ _ | .ltabi c _ _ _ _ _ | .ptab c _ _ _ _ _ |
    .shl c _ _ _ _ _ | .shr c _ _ _ _ _ | .sar c _ _ _ _ _ | .rotl c _ _ _ _ | .fshf c _ _ _ _ _ _ _ |
    .bfx c _ _ _ _ _ _ | .bfi c _ _ _ _ _ _ | .popc c _ _ _ | .clz c _ _ _ | .ctz c _ _ _ | .brev c _ _ _ |
    .bperm c _ _ _ _ | .clmul c _ _ _ _ | .clmulh c _ _ _ _ | .pmov c _ | .fadd c _ _ _ _ _ | .fsub c _ _ _ _ _ |
    .fmul c _ _ _ _ _ | .ffma c _ _ _ _ _ _ | .faddi c _ _ _ _ _ | .fmuli c _ _ _ _ _ | .ffmai c _ _ _ _ _ _ |
    .fmin c _ _ _ _ | .fmax c _ _ _ _ | .fcmp c _ _ _ _ _ _ _ | .fclass c _ _ _ _ | .hadd2 c _ _ _ _ _ |
    .hmul2 c _ _ _ _ _ | .hfma2 c _ _ _ _ _ _ | .hmin2 c _ _ _ _ | .hmax2 c _ _ _ _ | .hcmp2 c _ _ _ _ _ _ _ _ |
    .fdot2 c _ _ _ _ _ _ | .cvt c _ _ _ _ _ _ | .cvtpk c _ _ _ _ _ _ _ _ _ | .f2i c _ _ _ _ _ _ _ |
    .i2f c _ _ _ _ _ _ _ | .frnd c _ _ _ _ | .scalex c _ _ _ _ _ | .qblk c _ _ _ _ _ | .dqblk c _ _ _ _ |
    .rcp c _ _ | .rsq c _ _ | .sqrt c _ _ _ _ | .ex2 c _ _ | .lg2 c _ _ | .sin c _ _ | .cos c _ _ | .tanh c _ _ |
    .sigm c _ _ | .fdiv c _ _ _ _ _ | .lxch c _ _ _ _ _ _ _ _ | .lpoll c _ _ _ | .lpeer c _ _ _ _ _ |
    .lred c _ _ _ _ _ | .lscan c _ _ _ _ _ _ | .llead c _ _ _ | .lbcast c _ _ _ _ _ | .bra c _ | .call c _ _ |
    .brx c _ _ | .callx c _ _ _ | .ret c _ | .joinset c _ _ | .joinwait c _ | .joindrop c _ | .exit c | .yield c |
    .nop c | .sleep c _ | .ipf c _ _ _ | .ld c _ _ _ | .st c _ _ _ | .ldk c _ _ _ | .lds c _ _ _ _ |
    .sts c _ _ _ _ | .ldg c _ _ _ _ | .stg c _ _ _ _ | .prf c _ _ | .cline c _ _ | .objrd c _ _ _ | .otsync c |
    .atom c _ _ _ _ _ _ _ | .atomcas c _ _ _ _ _ _ | .red c _ _ _ _ _ _ | .atomf c _ _ _ _ _ _ _ |
    .bankop c _ _ _ _ _ _ | .bankred c _ _ _ _ _ _ _ | .cpy c _ _ _ | .cpyt c _ _ _ _ | .cpymc c _ _ _ |
    .waitany c _ _ _ | .waitall c _ _ _ | .ffr c _ _ | .tagclr c _ | .tagrd c _ _ | .bar c _ _ _ | .fence c _ _ |
    .boinit c _ _ _ | .boexpect c _ _ _ _ | .boarrive c _ _ _ _ _ _ | .bowait c _ _ _ _ _ | .botest c _ _ _ _ _ |
    .acq c _ _ _ | .tryacq c _ _ _ | .rel c _ | .publish c _ | .mma c _ | .wload c _ _ _ _ _ _ | .wdrop c _ |
    .accld c _ _ _ | .accst c _ _ _ _ _ | .accz c _ | .mregion c _ _ | .mstat c _ _ | .mcancel c _ |
    .wtalloc c _ _ _ _ | .wsend c _ _ _ _ _ | .wtfree c _ | .wtquery c _ _ | .wtrenew c _ _ | .awlnext c _ _ |
    .awlpeek c _ | .emit c _ _ _ | .emitclose c _ | .spawn c _ _ _ _ _ | .lastsel c _ _ _ | .padmask c _ _ _ _ |
    .dlread c _ _ _ | .commit c _ _ | .idembeg c _ _ | .idemend c | .wrapdone c | .sysrd c _ _ _ | .syswr c _ _ _ |
    .trap c _ | .bkpt c _ | .cntrd c _ _ _ | .cntcfg c _ _ | .wayset c _ | .trapret c _ _ _ _ _ |
    .parkrd c _ _ _ _ | .oplog c _ _ _ | .replay c _ _ | .errinj c _ => some c
  | .objectCacheFill .. | .loadComplete .. | .accessLogged .. | .storePerform .. | .pageWalk .. | .recordRetry .. |
    .s2fault .. | .sleepEnd .. | .yieldEnd .. | .requestAccept .. | .requestGrant .. | .attemptCheck .. |
    .passComplete .. | .wloadComplete .. | .wdropComplete .. | .transferComplete .. | .copyEnd .. |
    .cpymcBranchArrival .. | .weltArrival .. | .roundDelivery .. | .orphanExpiry .. | .syncRequestArrival .. |
    .syncReleasePerform .. | .versionIncrement .. | .waysetTakesEffect .. | .recordEnqueue .. | .regionArmed .. |
    .diversion .. | .deadlineTermination .. | .quantumEnd .. | .schedulerDecision .. | .bankExchange .. |
    .spillFill .. | .launchCompletion .. | .packetFetch .. | .slotPollTimeout .. | .tornRepoll .. | .launch .. |
    .wait .. | .waitPoll .. | .heldRelease .. | .signal .. | .xfer .. | .modload .. | .moddrop .. |
    .moddropComplete .. | .graph .. | .preemptRequeue .. | .preemptSuspend .. | .preemptResume .. |
    .preemptCancel .. | .apertureGate .. | .apertureUngate .. | .invalidationComplete .. | .ualcfgTakesEffect .. |
    .railStep .. | .railSettled .. | .dividerChange .. | .controllerSample .. | .snapshotRefresh .. |
    .partitionFreed .. | .unassignedOpcode .. | .instructionLineFill .. | .sfuDivResult .. | .scratchZeroFill .. |
    .xferComplete .. | .launchRegisterStore .. | .qcfgEnSet .. | .qcfgEnClear .. | .qctlResume .. | .qctlSkip .. |
    .resumeReplay .. | .resumeRetry .. | .resumeSkip .. | .resumeKill .. | .frtailWrite .. | .s1inval .. |
    .registerWrite .. | .bankcfgWrite .. | .ualcfgRetrain .. | .rcvsetWrite .. | .rcfsetWrite .. | .calvsafe .. |
    .calvsafeRun .. | .htrain .. | .hbmTrainingDone .. | .ecsRead .. | .s2map .. | .s2unmap .. | .s2root .. |
    .pcreate .. | .pdestroy .. | .s2reply .. | .fwstage .. | .fwactivate .. | .attest .. | .ptpSync .. |
    .flitReplay .. | .bridgeRetrain .. | .ualinkRequest .. | .bar4Access .. | .powerOn .. | .laceRetrain .. |
    .ptpAnnounceTimeout | .coldReset | .powerOff => none

/-- Every register, group-uniform register and predicate an instruction reads or writes. -/
def usesOf : Instr → Uses
  | .iadd c m d a b | .isub c m d a b | .imul c m d a b | .imulhi c m d a b | .idiv c m d a b | .irem c m d a b
  | .imin c m d a b | .imax c m d a b => .dab c m.wd.nregs m.wd.nregs m.wd.nregs d a b
  | .iadd3 c m d a b e | .imad c m d a b e => (Uses.dab c m.wd.nregs m.wd.nregs m.wd.nregs d a b).s m.wd.nregs e
  | .imadw c _ d a b e => (Uses.dab c 2 1 1 d a b).s 2 e
  | .iabs c m d a | .ineg c m d a | .mov c m d a => .da c m.wd.nregs m.wd.nregs d a
  | .isad c _ d a b e => (Uses.dab c 1 1 1 d a b).s 1 e
  | .icmp c m _ bop q a b p =>
    let u := (((Uses.guard c).q q).s m.wd.nregs a).s m.wd.nregs b
    if bop = .none then u else u.p p
  | .isel c m d a b p => (Uses.dab c m.wd.nregs m.wd.nregs m.wd.nregs d a b).p p
  | .iaddi c m d a _ | .imuli c m d a _ => .da c m.wd.nregs m.wd.nregs d a
  | .icmpi c m _ bop q a _ p =>
    let u := ((Uses.guard c).q q).s m.wd.nregs a
    if bop = .none then u else u.p p
  | .lea c m _ d a b => .dab c m.wd.nregs m.wd.nregs 1 d a b
  | .idot4 c _ _ _ d a b e | .idot2 c _ _ _ d a b e => (Uses.dab c 1 1 1 d a b).s 1 e
  | .movi c m d _ => (Uses.guard c).d m.wd.nregs d
  | .movw c d _ => (Uses.guard c).d 2 d
  | .and c w d a b | .or c w d a b | .xor c w d a b | .andn c w d a b | .clmul c w d a b | .clmulh c w d a b =>
    .dab c (nregs64 w) (nregs64 w) (nregs64 w) d a b
  | .not c w d a | .brev c w d a => .da c (nregs64 w) (nregs64 w) d a
  | .ltab c w _ d a b e => (Uses.dab c (nregs64 w) (nregs64 w) (nregs64 w) d a b).s (nregs64 w) e
  | .ltabi c _ d a b _ => .dab c 1 1 1 d a b
  | .ptab c _ q pa pb pc => ((((Uses.guard c).q q).p pa).p pb).p pc
  | .shl c w _ d a n | .shr c w _ d a n | .sar c w _ d a n | .rotl c w d a n => .dab c (nregs64 w) (nregs64 w) 1 d a n
  | .fshf c w _ _ d hi lo n => (Uses.dab c (nregs64 w) (nregs64 w) (nregs64 w) d hi lo).s 1 n
  | .bfx c w _ d a pos len => (Uses.dab c (nregs64 w) (nregs64 w) 1 d a pos).s 1 len
  | .bfi c w d ins base pos len => ((Uses.dab c (nregs64 w) (nregs64 w) (nregs64 w) d ins base).s 1 pos).s 1 len
  | .popc c w d a | .clz c w d a | .ctz c w d a => .da c 1 (nregs64 w) d a
  | .bperm c d a b sel => (Uses.dab c 1 1 1 d a b).s 1 sel
  | .pmov c (.toReg d) => ((Uses.guard c).d 1 d).add { rq := [0, 1, 2, 3, 4, 5, 6] }
  | .pmov c (.toPred mask a) =>
    ((Uses.guard c).s 1 a).add { wq := (List.range 8).filter (fun i => mask.getLsbD i) }
  | .fadd c f _ d a b | .fsub c f _ d a b | .fmul c f _ d a b | .fdiv c f _ d a b | .fmin c f d a b | .fmax c f d a b =>
    .dab c (nregs64 f) (nregs64 f) (nregs64 f) d a b
  | .ffma c f _ d a b e => (Uses.dab c (nregs64 f) (nregs64 f) (nregs64 f) d a b).s (nregs64 f) e
  | .faddi c f _ d a _ | .fmuli c f _ d a _ | .frnd c f _ d a | .sqrt c f _ d a => .da c (nregs64 f) (nregs64 f) d a
  | .ffmai c f _ d a b _ => .dab c (nregs64 f) (nregs64 f) (nregs64 f) d a b
  | .fcmp c f _ bop q a b p =>
    let u := (((Uses.guard c).q q).s (nregs64 f) a).s (nregs64 f) b
    if bop = .none then u else u.p p
  | .fclass c f _ q a => ((Uses.guard c).q q).s (nregs64 f) a
  | .hadd2 c _ _ d a b | .hmul2 c _ _ d a b | .hmin2 c _ d a b | .hmax2 c _ d a b => .dab c 1 1 1 d a b
  | .hfma2 c _ _ d a b e | .fdot2 c _ _ d a b e => (Uses.dab c 1 1 1 d a b).s 1 e
  | .hcmp2 c _ _ bop q qe a b p =>
    let u := ((((Uses.guard c).q q).q qe).s 1 a).s 1 b
    if bop = .none then u else u.p p
  | .cvt c df sf _ _ d a => .da c (fmtRegs df) (fmtRegs sf) d a
  | .cvtpk c df _ _ _ d a b x e =>
    if Fmt.is8 df then ((Uses.dab c 1 1 1 d a b).s 1 x).s 1 e else .dab c 1 1 1 d a b
  | .f2i c sf iw _ _ _ d a => .da c iw.nregs (fmtRegs sf) d a
  | .i2f c df iw _ _ _ d a => .da c (fmtRegs df) iw.nregs d a
  | .scalex c f _ d a n => .dab c (nregs64 f) (nregs64 f) 1 d a n
  | .qblk c _ _ _ d a | .dqblk c _ _ d a => .da c 1 1 d a
  | .rcp c d a | .rsq c d a | .ex2 c d a | .lg2 c d a | .sin c d a | .cos c d a | .tanh c d a | .sigm c d a => .da c 1 1 d a
  | .lxch c w _ _ qe d a b m => ((Uses.dab c (nregs64 w) (nregs64 w) 1 d a b).s 2 m).qo qe
  | .lpoll c form pa m =>
    let u := ((Uses.guard c).p pa).s 2 m
    match form with
    | .any q | .all q | .uni q => u.q q
    | .mask d => u.d 2 d
    | .count d => u.d 1 d
  | .lpeer c w _ d a m => (Uses.da c 2 (nregs64 w) d a).s 2 m
  | .lred c _ _ d a m | .lscan c _ _ _ d a m => (Uses.da c 1 1 d a).s 2 m
  | .llead c _ q m => ((Uses.guard c).q q).s 2 m
  | .lbcast c w d a b m => (Uses.dab c (nregs64 w) (nregs64 w) 1 d a b).s 2 m
  | .bra c _ | .joinset c _ _ | .joinwait c _ | .joindrop c _ | .exit c | .yield c | .nop c | .sleep c _ | .ipf c _ _ _ => .guard c
  | .call c d _ => (Uses.guard c).d 2 (.v d)
  | .brx c _ a | .ret c a => (Uses.guard c).r 2 a
  | .callx c _ d a => ((Uses.guard c).d 2 (.v d)).r 2 a
  | .ld c sz d mem => ((Uses.guard c).d sz.nregs (.v d)).mem mem
  | .st c sz mem b => ((Uses.guard c).mem mem).s sz.nregs b
  | .ldk c sz d mem => ((Uses.guard c).d sz.nregs (.k d)).mem mem
  | .lds c sz d a _ => ((Uses.guard c).d sz.nregs (.v d)).s 1 a
  | .sts c sz a _ b => ((Uses.guard c).s 1 a).s sz.nregs b
  | .ldg c sz d a _ => ((Uses.guard c).d sz.nregs (.v d)).r 2 a
  | .stg c sz a _ b => ((Uses.guard c).r 2 a).s sz.nregs b
  | .prf c _ mem | .cline c _ mem => (Uses.guard c).mem mem
  | .otsync c => .guard c
  | .objrd c _ d ob => ((Uses.guard c).d 4 (.v d)).ob ob
  | .atom c _ w _ _ d m b => (((Uses.guard c).d (nregs64 w) d).mem0 m).s (nregs64 w) b
  | .atomcas c w _ _ d m b => (((Uses.guard c).d (nregs64 w) d).mem0 m).r (2 * nregs64 w) b
  | .red c _ w _ _ m b => ((Uses.guard c).mem0 m).s (nregs64 w) b
  | .atomf c op nr _ _ d m b =>
    let u := ((Uses.guard c).mem0 m).s op.nregs b
    if nr then u else u.d op.nregs d
  | .bankop c _ _ _ _ m b => ((Uses.guard c).mem0 m).r 4 b
  | .bankred c _ _ _ _ d m n => (((Uses.guard c).d 1 d).mem0 m).s 1 n
  | .cpy c _ m b | .cpyt c _ _ m b | .cpymc c _ m b => ((Uses.guard c).mem0 m).r 16 b
  | .waitany c qe d m | .waitall c qe d m => (Uses.da c 2 2 d m).qo qe
  | .ffr c d m => .da c 1 2 d m
  | .tagclr c m => (Uses.guard c).s 2 m
  | .tagrd c d t => .da c 1 1 d t
  | .bar c _ _ n => (Uses.guard c).s 1 n
  | .fence c _ _ => .guard c
  | .boinit c a _ b => ((Uses.guard c).r 2 a).s 2 b
  | .boexpect c _ a _ b => ((Uses.guard c).r 2 a).s 1 b
  | .boarrive c _ _ ret a _ b =>
    let u := ((Uses.guard c).r 2 a).s 1 b
    match ret with
    | some d => u.d 1 d
    | none => u
  | .bowait c _ d a _ b | .botest c _ d a _ b => (((Uses.guard c).d 1 d).r 2 a).s 1 b
  | .acq c _ q ob => ((Uses.guard c).qo q).ob ob
  | .tryacq c _ q ob => ((Uses.guard c).q q).ob ob
  | .rel c ob | .publish c ob | .emitclose c ob => (Uses.guard c).ob ob
  | .mma c p => (Uses.guard c).r 16 (.v p)
  | .wload c _ _ _ _ m b | .accld c _ m b | .accst c _ _ _ m b => ((Uses.guard c).mem0 m).r 4 b
  | .wdrop c _ => .guard c
  | .accz c a => (Uses.guard c).r 2 a
  | .mregion c _ a =>
    match a with
    | some r => (Uses.guard c).r 2 r
    | none => .guard c
  | .mstat c d a =>
    let u := (Uses.guard c).d 4 (.v d)
    match a with
    | some x => u.s 1 x
    | none => u
  | .mcancel c a =>
    match a with
    | some x => (Uses.guard c).s 1 x
    | none => .guard c
  | .wtalloc c _ d ob b => (((Uses.guard c).d 1 d).ob ob).r 8 b
  | .wsend c a b _ _ _ => ((Uses.guard c).r 1 a).s 1 b
  | .wtfree c a => (Uses.guard c).r 1 a
  | .wtquery c d a => ((Uses.guard c).d 2 d).r 1 a
  | .wtrenew c a b => ((Uses.guard c).r 1 a).s 1 b
  | .awlnext c d q => ((Uses.guard c).d 8 d).q q
  | .awlpeek c d => (Uses.guard c).d 4 d
  | .emit c q ob b => (((Uses.guard c).qo q).ob ob).r 8 b
  | .spawn c _ _ d a _ => ((Uses.guard c).d 1 (.v d)).r 8 a
  | .lastsel c d q ob =>
    let u := ((Uses.guard c).d 2 d).q q
    match ob with
    | some o => u.ob o
    | none => u
  | .padmask c _ q qe a => (((Uses.guard c).q q).q qe).s 1 a
  | .dlread c _ qe d => ((Uses.guard c).d 2 d).qo qe
  | .commit c _ a => (Uses.guard c).s 2 a
  | .idembeg c f n => (Uses.guard c).add { rv := [(f.toNat, n.val + 1)] }
  | .idemend c | .wrapdone c => .guard c
  | .sysrd c w _ d | .cntrd c w _ d => (Uses.guard c).d (nregs64 w) d
  | .syswr c w _ a => (Uses.guard c).s (nregs64 w) a
  | .trap c _ | .bkpt c _ | .wayset c _ => .guard c
  | .cntcfg c _ a => (Uses.guard c).s 1 a
  | .trapret c act _ a b m =>
    let u := ((Uses.guard c).r 1 a).s 1 m
    if act = .jump then u.r 2 b else u
  | .parkrd c _ d a n | .oplog c d a n => (((Uses.guard c).d 4 (.v d)).r 1 a).s 1 n
  | .replay c d a => ((Uses.guard c).d 1 d).r 1 a
  | .errinj c a => (Uses.guard c).r 8 a
  | .objectCacheFill .. | .loadComplete .. | .accessLogged .. | .storePerform .. | .pageWalk .. | .recordRetry .. |
    .s2fault .. | .sleepEnd .. | .yieldEnd .. | .requestAccept .. | .requestGrant .. | .attemptCheck .. |
    .passComplete .. | .wloadComplete .. | .wdropComplete .. | .transferComplete .. | .copyEnd .. |
    .cpymcBranchArrival .. | .weltArrival .. | .roundDelivery .. | .orphanExpiry .. | .syncRequestArrival .. |
    .syncReleasePerform .. | .versionIncrement .. | .waysetTakesEffect .. | .recordEnqueue .. | .regionArmed .. |
    .diversion .. | .deadlineTermination .. | .quantumEnd .. | .schedulerDecision .. | .bankExchange .. |
    .spillFill .. | .launchCompletion .. | .packetFetch .. | .slotPollTimeout .. | .tornRepoll .. | .launch .. |
    .wait .. | .waitPoll .. | .heldRelease .. | .signal .. | .xfer .. | .modload .. | .moddrop .. |
    .moddropComplete .. | .graph .. | .preemptRequeue .. | .preemptSuspend .. | .preemptResume .. |
    .preemptCancel .. | .apertureGate .. | .apertureUngate .. | .invalidationComplete .. | .ualcfgTakesEffect .. |
    .railStep .. | .railSettled .. | .dividerChange .. | .controllerSample .. | .snapshotRefresh .. |
    .partitionFreed .. | .unassignedOpcode .. | .instructionLineFill .. | .sfuDivResult .. | .scratchZeroFill .. |
    .xferComplete .. | .launchRegisterStore .. | .qcfgEnSet .. | .qcfgEnClear .. | .qctlResume .. | .qctlSkip .. |
    .resumeReplay .. | .resumeRetry .. | .resumeSkip .. | .resumeKill .. | .frtailWrite .. | .s1inval .. |
    .registerWrite .. | .bankcfgWrite .. | .ualcfgRetrain .. | .rcvsetWrite .. | .rcfsetWrite .. | .calvsafe .. |
    .calvsafeRun .. | .htrain .. | .hbmTrainingDone .. | .ecsRead .. | .s2map .. | .s2unmap .. | .s2root .. |
    .pcreate .. | .pdestroy .. | .s2reply .. | .fwstage .. | .fwactivate .. | .attest .. | .ptpSync .. |
    .flitReplay .. | .bridgeRetrain .. | .ualinkRequest .. | .bar4Access .. | .powerOn .. | .laceRetrain .. |
    .ptpAnnounceTimeout | .coldReset | .powerOff => {}

/-- Every v register an instruction names lies below REGS (R68 step 4). -/
def Uses.inRange (u : Uses) (regs : Nat) : Bool := (u.rv ++ u.wv).all (fun p => p.1 + p.2 ≤ regs)

/-- Two ranges meet. -/
def rangesMeet (a b : List (Nat × Nat)) : Bool :=
  a.any (fun p => b.any (fun q => decide (p.1 < q.1 + q.2) && decide (q.1 < p.1 + p.2)))

/-- An instruction reads or writes a register of a pending destination (R32). -/
def Uses.touches (u : Uses) (d : Reg) (n : Nat) : Bool :=
  match d with
  | .v i => rangesMeet (u.rv ++ u.wv) [(i.val, n)]
  | .k i => rangesMeet (u.rk ++ u.wk) [(i.val, n)]

end Sys2Proof.Machine
end

