-- ==== Sys2Proof/Machine/Ops.lean ====
section
/-! DEFINITION. The shared operations of the core: retiring, taking a trap and writing its record, waits and their release,
reconvergence barriers, group barriers, barrier objects, and the driver that runs one instruction for a PC group. -/

namespace Sys2Proof.Machine

abbrev Out := Host.Outcome State Fault Refusal

/-! ### Whose thread -/

def State.launchOf (s : State) (t : Nat) : Option Launch := tfind s.launches (s.group (s.thread t).group).launch
def State.partOf (s : State) (t : Nat) : Nat := match s.launchOf t with | some l => l.part | none => 0
/-- R155. -/
def State.privOf (s : State) (t : Nat) : Bool := match s.launchOf t with | some l => l.priv | none => false
def State.detOf (s : State) (t : Nat) : Bool := match s.launchOf t with | some l => l.detOn | none => false

/-- The diversion of the thread is due, and waits for an instruction to complete (R300, R344). -/
def diverting (s : State) (t : Nat) : Bool :=
  match s.launchOf t with
  | some l => l.divDies.contains (dieOfCore (coreOfThread t)) && !(s.thread t).diverted
  | none => false

/-- Threads of a group, with their keys. -/
def State.threadsOf (s : State) (g : Nat) : List (Nat × Thread) := s.threads.filter (fun p => p.2.group == g)
/-- Threads of a group that have not exited. -/
def State.liveOf (s : State) (g : Nat) : List (Nat × Thread) := (s.threadsOf g).filter (fun p => p.2.run != .exited)

/-! ### Handles and fault records (R346, R349 to R351) -/

def isParked (th : Thread) : Bool := match th.run with | .parked _ => true | _ => false

/-- GEN of a thread's handle. -/
def genOf (s : State) (t : Nat) : Nat := (s.thread t).gen.getD (tget 0 (s.core (coreOfThread t)).gens (slotOfThread t))

/-- A thread's handle. -/
def handleOf (s : State) (t : Nat) : Nat :=
  let c := coreOfThread t
  dieOfCore c + 4 * coreInDie c + 512 * slotOfThread t + 2 ^ 18 * genOf s t

/-- A held store-buffer entry's handle. -/
def entryHandle (s : State) (c slot : Nat) : Nat :=
  dieOfCore c + 4 * coreInDie c + 512 * slot + 2 ^ 18 * tget 0 (s.core c).egens slot + 2 ^ 31

/-- GEN of a thread slot advances (R346). -/
def slotNext (s : State) (t : Nat) : State :=
  s.modCore (coreOfThread t) (fun c =>
    { c with gens := tset (slotOfThread t) ((tget 0 c.gens (slotOfThread t) + 1) % 2 ^ 13) c.gens })

/-- GEN of a thread's slot advances, and its handle is stale. -/
def genNext (s : State) (t : Nat) : State := slotNext (s.modThread t (fun x => { x with gen := none })) t

/-- The same of a slot for a saved thread of a launch: a thread now in the slot keeps a handle it has. -/
def savedNext (s : State) (lk t : Nat) : State :=
  let c := coreOfThread t
  let s := if (tfind s.threads t).isSome then s.modThread t (fun x => { x with gen := some (genOf s t) }) else s
  slotNext (s.modLaunch lk (fun l => { l with ctx := tmod c (fun x => { x with gens := tdel (slotOfThread t) x.gens }) l.ctx })) t

/-- The 64 bytes of R349 at position `r` of a ring. -/
def recBytes (f : FRec) (r : Nat) : List Byte :=
  leBytes 2 f.code ++ leBytes 2 f.detail ++ leBytes 1 f.flags ++ leBytes 1 f.die ++ leBytes 1 f.core ++ leBytes 1 0 ++
    leBytes 4 f.launchId ++ leBytes 2 f.tid ++ leBytes 2 f.grp ++ leBytes 8 f.pc ++ leBytes 8 f.addr ++ leBytes 8 f.gpa ++
    leBytes 4 f.handle ++ leBytes 1 f.logIdx ++ leBytes 3 0 ++ leBytes 8 f.time ++ leBytes 4 r ++
    leBytes 4 (0xC0B1 * 2 ^ 16 + r % 2 ^ 16)

def ringSize (p : Part) : Nat := 2 ^ (bitsAt p.frcfg.toNat 1 4 + 6)
def ringFull (p : Part) : Bool := (p.frhead - p.frtail).toNat == ringSize p

/-- The latest record of a thread learns its place in the ring. -/
def recPlaced (s : State) (f : FRec) (r : Nat) : State :=
  let learn (_ : Nat) (t : Thread) : Thread := match t.lastRec with
    | some g => if g.serial == f.serial then { t with lastRec := some { g with rseq := some r } } else t
    | none => t
  { s with threads := tmap learn s.threads
           launches := tmap (fun _ l => { l with ctx := tmap (fun _ x => { x with threads := tmap learn x.threads }) l.ctx }) s.launches }

/-- Write a record to a partition's fault ring and signal it, if nothing stands against it (R350, R351, R377, R378). -/
def ringWrite (s : State) (part : Nat) (f : FRec) : Option State :=
  let p := s.part part
  if !p.frcfg.getLsbD 0 || ringFull p then none
  else
    let r := p.frhead.toNat
    match fwResolve s part (p.frbase + BitVec.ofNat 64 (64 * (r % ringSize p))) needW with
    | .error _ => none
    | .ok loc =>
      if (placeFault s f.die loc).isSome || (ueDetail s loc 64).isSome then none
      else
        let s := locWrite (locUse s part loc) loc (recBytes f r)
        let s := s.modPart part (fun p => { p with frhead := p.frhead + 1 })
        let s := recPlaced s f r
        some { s with msix := (part + 1, bitsAt p.frcfg.toNat 5 2) :: s.msix }

/-- A record for a partition's ring, held back when it cannot be written (R351). -/
def emitRecord (s : State) (part : Nat) (f : FRec) : State :=
  let hold := telCount (s.modPart part (fun p => { p with heldRecs := p.heldRecs ++ [f] })) part 0 0xA 1
  if (s.part part).heldRecs.isEmpty then (ringWrite s part f).getD hold else hold

/-- Held records are tried again, in order, until one fails (R351). -/
def retryRecords (s : State) (part : Nat) : Nat → State
  | 0 => s
  | n + 1 =>
    match (s.part part).heldRecs with
    | [] => s
    | f :: fs =>
      match ringWrite s part f with
      | none => s
      | some s => retryRecords (s.modPart part (fun p => { p with heldRecs := fs })) part n

/-- The request half of a notice to the hypervisor, its SEQ, CHECK and MARK still to be given: bytes 0 to 0x37 of op 0x80
(R424). -/
def noticeBytes (part : Nat) (f : FRec) : List Byte :=
  leBytes 4 0x80 ++ leBytes 4 part ++ leBytes 8 f.gpa ++ leBytes 4 f.handle ++ leBytes 4 f.detail ++ leBytes 32 0

/-- A record for the secure core of a die, which queues a notice of it (R350, R365, R424). -/
def emitSecure (s : State) (part die : Nat) (f : FRec) : State :=
  let r := (s.die die).secure.length
  recPlaced (s.modDie die (fun d => { d with
    secure := d.secure ++ [{ f with rseq := some r }]
    notices := d.notices ++ [noticeBytes part f]
    stage2Open := d.stage2Open ++ [(f.handle, f.flags % 2 == 1)] })) f r

/-- The launch's first fault, for FAULT and DETAIL (R342). -/
def noteFault (s : State) (l code detail : Nat) : State :=
  s.modLaunch l (fun x => if x.fault.isNone then { x with fault := some (code, detail) } else x)

/-- Records of stage-2 faults go to the secure core. -/
def toSecure (code detail : Nat) : Bool := code == 0x51 || (code == 5 && flag detail 15)

/-- The record of a fault of thread `t` at `pc`; `flags` as R349 numbers them. -/
def mkRec (s : State) (t code detail flags : Nat) (pc addr : DWord) (gpa : Nat) (handle logIdx serial : Nat) : FRec :=
  let th := s.thread t
  let g := s.group th.group
  let c := coreOfThread t
  { serial, code, detail, flags, die := dieOfCore c, core := coreInDie c,
    launchId := match s.launchOf t with | some l => l.id | none => 0
    tid := th.tid, grp := g.grp, pc := pc.toNat, addr := addr.toNat, gpa, handle, logIdx,
    time := (s.die (dieOfCore c)).dlclk }

/-- Send a record where R350 says, and note the launch's first fault. -/
def sendRec (s : State) (part launch : Nat) (f : FRec) : State :=
  if toSecure f.code f.detail then emitSecure s part f.die f
  else emitRecord (noteFault s launch f.code f.detail) part f

/-- A trap or fault of a thread of the group disarms its idempotent region (R295). -/
def disarm (s : State) (g : Nat) : State := s.modGroup g (fun x => { x with idem := none })

/-- TAKING A PRECISE TRAP (R36, R342, R346, R349, R350): the thread parks with its PC at the instruction, its record is sent,
the group's idempotent region is disarmed, and a PIPE_ERROR is counted (R344, R416). -/
def takeTrap (s : State) (t code detail : Nat) (addr : DWord) (gpa : Nat) (s1walk : Bool) : State :=
  let th := s.thread t
  let part := s.partOf t
  let die := dieOfCore (coreOfThread t)
  let (serial, s) := freshId s
  let f := mkRec s t code detail (1 + 16 * s1walk.toNat) th.pc addr gpa (handleOf s t) 255 serial
  let s := s.modThread t (fun x => { x with run := .parked false, lastRec := some f, stalled := false, held := none })
  let s := gcEvent s 0xE t 1
  let s := if code = 8 then rasCount (telCount s part die 6 1) die 6 1 else s
  sendRec (disarm s th.group) part (s.group th.group).launch f

/-! ### Retiring (R23, R35) -/

/-- One more instruction of the thread is inside the windows of its entries (R33). -/
def windowStep (x : Core) (t : Nat) : Core :=
  { x with
    loads := x.loads.map (fun e => if e.thread == t then { e with left := e.left - 1 } else e)
    sfu := x.sfu.map (fun e => if e.thread == t then { e with left := e.left - 1 } else e)
    late := x.late.map (fun e => if e.thread == t then { e with left := e.left - 1 } else e)
    stores := x.stores.map (fun e => if e.thread == t then { e with left := e.left - 1 } else e) }

/-- The thread's instruction retires and the thread goes on at `pc`. -/
def retireTo (s : State) (t : Nat) (pc : DWord) : State :=
  let s := s.modThread t (fun x => { x with pc := pc, retired := x.retired + 1, stalled := false, held := none, run := .running })
  gcEvent (s.modCore (coreOfThread t) (fun x => windowStep x t)) 2 t 1

/-- The instruction retires and the thread goes on at the next; past 0x01FF_FFFF_FFFF_FFF0 at 2^57 (DESIGN CHOICE, log entry 82). -/
def retire (s : State) (t : Nat) : State := retireTo s t ((s.thread t).pc + 16)

/-- A wait ends and the instruction retires. In a DET launch a release that the running group did not make is seen only at
the start of the group's next quantum (R339). -/
def retireWaiter (s : State) (t : Nat) (own : Bool) : State :=
  let det := s.detOf t && !own
  (retire s t).modThread t (fun x => { x with detHeld := det })

/-- Write a register for one thread; a k register only where the thread is the one that writes it. -/
def writeReg (s : State) (t : Nat) (lead : Bool) (d : Reg) (ws : List Word) : State :=
  match d with
  | .v n => s.modThread t (vwrites n.val ws)
  | .k n => if lead then s.modGroup (s.thread t).group (kwrites n.val ws) else s

def writeOpt (s : State) (t : Nat) (d : Option Reg) (ws : List Word) : State :=
  match d with
  | some r => writeReg s t true r ws
  | none => s

def writePred (s : State) (t : Nat) (q : Option PDst) (b : Bool) : State :=
  match q with
  | some i => s.modThread t (qwrite i.val b)
  | none => s

/-- The destination a waiting thread keeps: a k register only for the lead (R18). -/
def keepDest (lead : Bool) (d : Reg) : Option Reg :=
  match d with
  | .v n => some (.v n)
  | .k n => if lead then some (.k n) else none

/-! ### The driver -/

/-- What an instruction does for one thread that executes it. -/
inductive Lane where
  /-- It retires and the thread goes on at PC + 16. -/
  | retire (s : State)
  /-- It retires and the thread goes on elsewhere. -/
  | goto (s : State) (pc : DWord)
  | trap (code detail : Nat) (addr : DWord) (gpa : Nat) (s1walk : Bool)
  /-- It has not acted: the thread waits and issues it again. -/
  | hold (s : State)
  /-- The instruction has acted and left the thread's run state and PC as they are to be: it exited, rests, or waits. -/
  | done (s : State)

def Lane.trapC (code : Nat) : Lane := .trap code 0 0 0 false
def Lane.trapD (code detail : Nat) : Lane := .trap code detail 0 0 false
def Lane.trapA (code : Nat) (addr : DWord) : Lane := .trap code 0 addr 0 false
def Lane.fail (f : AFail) (addr : DWord) : Lane := .trap f.code f.detail addr f.gpa f.s1walk

/-- The trap of an object whose entry is not captured. -/
def Lane.uncaptured (s : State) (c part idx : Nat) : Lane := .trapD (captureFault s c part idx).1 (captureFault s c part idx).2

/-- The thread of lowest %tid with a true guard (R18, R147), as the PC group had it at issue. When it traps, no thread writes the
PC group's k register (DESIGN CHOICE, log entry 78). -/
def leadOf (s : State) (c : Ctl) : Option Nat :=
  match s.iss.held with
  | some h => h.lead
  | none => s.iss.members.find? (fun t => guardOf (s.thread t) c)

/-- What the issuing instruction reads: the state, with its group's k registers as they were at issue (R32). -/
def issueView (s : State) : State :=
  match s.iss.held, s.iss.members with
  | some h, t :: _ => s.modGroup (s.thread t).group (fun g => { g with k := h.k })
  | _, _ => s

/-- What a thread that waits in the issuing instruction keeps of its issue. -/
def heldOf (s : State) (c : Ctl) (t : Nat) : Held :=
  s.iss.held.getD { word := s.iss.word, lead := leadOf s c, k := (s.group (s.thread t).group).k, caps := (s.core (coreOfThread t)).ocache }

/-- The thread waits and issues the instruction again later. -/
def waitAgain (s : State) (t : Nat) : State := s.modThread t (fun x => { x with run := .waiting .again })

/-- As `waitAgain`, in a blocking instruction (R26). -/
def waitRoom (s : State) (t : Nat) : State := s.modThread t (fun x => { x with run := .waiting .room })

/-- Waiting threads of a group look again at what an instruction of the group released (R339). -/
def wakeRoom (s : State) (g : Nat) : State :=
  { s with threads := tmap (fun _ th => if th.group == g && th.run == .waiting .room then { th with run := .waiting .again } else th) s.threads }

/-- The thread waits in an instruction that is no blocking instruction: it goes on within the quantum of a DET launch (R338, log
entry 30). -/
def passingWait (th : Thread) : Bool :=
  match th.run with
  | .waiting .again => true
  | .waiting .finish => true
  | _ => false

/-- As `waitAgain`, for an instruction that a diversion lets complete (R300). -/
def waitFinish (s : State) (t : Nat) : State := s.modThread t (fun x => { x with run := .waiting .finish })

/-- The generator of R359. -/
def xorshift (x : DWord) : DWord :=
  let x := x ^^^ (x <<< 13)
  let x := x ^^^ (x >>> 7)
  x ^^^ (x <<< 17)

/-- One draw of an injector: whether the event is struck, and the injector if it stays armed (R359). -/
def Injector.draw (i : Injector) : Bool × Option Injector :=
  let x := xorshift i.x
  let i := { i with x := x }
  if x.toNat / 2 ^ (64 - i.k) = 0 then (true, if i.count = 1 then none else some { i with count := i.count - 1 })
  else (false, some i)

def setInj (s : State) (c cls : Nat) (i : Option Injector) : State :=
  s.modCore c (fun x => { x with inj := match i with | some i => tset cls i x.inj | none => tdel cls x.inj })

/-- An operation of a thread on the units `us` under the residue injector of its core: the unit struck, if one is (class 4 of
R359). -/
def injPipe (s : State) (t : Nat) (us : List Nat) : Option Nat × State :=
  match tfind (s.core (coreOfThread t)).inj 4 with
  | some i =>
    if i.thread = t ∧ us.contains i.target ∧ i.launch = (s.group (s.thread t).group).launch then
      let r := i.draw
      (if r.1 then some i.target else none, setInj s (coreOfThread t) 4 r.2)
    else (none, s)
  | none => (none, s)

/-- The word reads a register of a bank. -/
def readsBank (w : IWord) : Bool :=
  match decodeWord w with
  | .ok i => !(usesOf i).rv.isEmpty || !(usesOf i).rk.isEmpty
  | .error _ => false

/-- A register that the issuing instruction reads for the thread has an uncorrectable error (R411). -/
def bankStruck (s0 : State) (t : Nat) : Bool := s0.iss.bad.contains (.bank t) && s0.iss.held.isNone && readsBank s0.iss.word

/-- The unit of `us` whose checker mismatches for the thread (R344). -/
def checkerStruck (s0 : State) (t : Nat) (us : List Nat) : Option Nat := us.find? (fun u => s0.iss.bad.contains (.checker t u))

/-- What an instruction comes to, when nothing has gone wrong in its units. -/
def pipeTrap (s : State) (t : Nat) (u : Option Nat) (k : State) : State :=
  match u with
  | some u => takeTrap s t 8 u 0 0 false
  | none => k

/-- The uncorrectable error behind a trap is counted where it lies: of a register bank, of a table walk (CAUSE 5), or of an
object-cache fill, whose table lies on one die, or of a barrier object (R343, R411, R416). -/
def trapCount (s : State) (t code detail : Nat) (addr : DWord) : State :=
  if code = 8 then rasCount s (dieOfCore (coreOfThread t)) 1 1
  else if (code = 0x50 ∨ code = 0x51) ∧ detail % 8 = 5 then countWalkUe s (s.partOf t) (ptrOff addr)
  else if code = 0x52 ∧ detail = 2 then
    let pa := (s.part (s.partOf t)).otpa
    countUeAt s (.hbm pa) (if s.fw.ueChip.any (fun p => p.1 == 2 && decide (lineNo pa ≤ p.2) && decide (p.2 < lineNo pa + 16384)) then 2 else 1)
  else if code = 0x52 ∧ detail = 3 then countUeAt s (.bank (bankDie addr) 0) 3
  else if code = 0x52 ∧ detail = 4 then countUeAt s (.scratch (coreOfThread t) 0) 4
  else s

/-- Waits in which a thread keeps its issue: those in which a swap lets it issue its instruction again (R32, R219). -/
def keepsIssue : RunState → Bool
  | .waiting (.bowait ..) | .waiting (.tags ..) | .waiting (.acq ..) | .waiting .engine | .waiting (.idem ..) | .waiting (.awl ..) => true
  | _ => false

/-- A thread that the instruction leaves in such a wait keeps its issue. -/
def keepIssue (s0 : State) (c : Ctl) (t : Nat) (s : State) : State :=
  if keepsIssue (s.thread t).run then s.modThread t (fun x => { x with held := some (heldOf s0 c t) }) else s

/-- A false guard retires (R31). Otherwise the instruction acts: its own checks come first, then an error of a register it reads or of
one of its units `us`, which traps PIPE_ERROR with that unit as its detail (R344, R345, R359, R410, R411). -/
def laneStep (c : Ctl) (us : List Nat) (f : State → Nat → State → Lane) (s0 s : State) (t : Nat) : State :=
  if !guardOf (s0.thread t) c then retire s t
  else
    let drawn := injPipe s t us
    let bad := drawn.1.or (checkerStruck s0 t us)
    match f s0 t drawn.2 with
    | .trap code detail addr gpa w => takeTrap (trapCount s t code detail addr) t code detail addr gpa w
    | r =>
      if bankStruck s0 t then takeTrap (trapCount s t 8 0 0) t 8 (us.headD 1) 0 0 false
      else
        match r with
        | .hold s' =>
          (s'.modCore (coreOfThread t) (fun x => { x with inj := (s.core (coreOfThread t)).inj })).modThread t
            (fun x => { x with held := some (heldOf s0 c t) })
        | .retire s' => pipeTrap drawn.2 t bad (retire s' t)
        | .goto s' pc => pipeTrap drawn.2 t bad (retireTo s' t pc)
        | .done s' => pipeTrap drawn.2 t bad (keepIssue s0 c t s')
        | .trap .. => s

/-- The thread waits to issue its instruction again. -/
def waitsAgain (s : State) (t : Nat) : Bool :=
  match (s.thread t).run with
  | .waiting .again => true
  | .waiting .room => true
  | .waiting .finish => true
  | _ => false

/-- The objects an instruction names for a thread of a group (R156, R226 to R228, R195); `last` is the object of LASTSEL. -/
def objsOf (i : Instr) (t : Thread) (g : Group) (last : Nat) : List Nat :=
  match i with
  | .ld _ _ _ m | .st _ _ m _ | .ldk _ _ _ m | .prf _ _ m | .cline _ _ m => [objIdx g m.obj]
  | .atom _ _ _ _ _ _ m _ | .atomcas _ _ _ _ _ m _ | .red _ _ _ _ _ m _ | .atomf _ _ _ _ _ _ m _ | .bankop _ _ _ _ _ m _
  | .bankred _ _ _ _ _ _ m _ | .wload _ _ _ _ _ m _ | .accld _ _ m _ | .accst _ _ _ _ m _ => [objIdx g m.obj]
  | .cpy _ _ m b | .cpymc _ _ m b => [objIdx g m.obj, bitsAt (regNat t g 16 b) 0 32 % 2 ^ 16]
  | .cpyt _ _ _ m b => let n := bitsAt (regNat t g 16 b) 0 32 % 2 ^ 16; [objIdx g m.obj, n, n + 1]
  | .mma _ p =>
    let x := regNat t g 16 (.v p)
    bitsAt x 32 16 :: (if flag x 52 then [bitsAt x 128 16] else [])
  | .objrd _ _ _ o | .acq _ _ _ o | .tryacq _ _ _ o | .rel _ o | .publish _ o | .wtalloc _ _ _ o _ | .emit _ _ o _ | .emitclose _ o =>
    [objIdx g o]
  | .lastsel _ _ _ o => [match o with | some o => objIdx g o | none => last]
  | _ => []

/-- The objects that the word names for a thread. -/
def wordObjs (s : State) (t : Nat) (w : IWord) : List Nat :=
  match decodeWord w with
  | .ok i => objsOf i (s.thread t) (s.group (s.thread t).group) ((s.launchOf t).map (·.r.lastobj) |>.getD 0)
  | .error _ => []

/-- The entries at these indices are captured, and with an entry of TYPE 4 those of its extents (R156, R266). -/
def captureAll (s : State) (c part : Nat) (idxs : List Nat) : State :=
  idxs.foldl (fun s i =>
    match capture s c part i with
    | none => s
    | some (e, s) =>
      if e % 16 = 4 then
        ((List.range (bitsAt e 14 2 + 1)).map (fun j => bitsAt e (32 + 16 * j) 16)).foldl
          (fun s i => match capture s c part i with | some (_, s) => s | none => s) s
      else s) s

/-- Threads that begin to wait in the instruction `s0` issues keep the entries that the instruction captures as it issues (R156). -/
def captureHeld (s0 s : State) : State :=
  if s0.iss.held.isSome then s
  else s0.iss.members.foldl (fun s t =>
    match (s.thread t).held with
    | none => s
    | some h =>
      let s := captureAll s (coreOfThread t) (s0.partOf t) (wordObjs s0 t s0.iss.word)
      s.modThread t (fun x => { x with held := some { h with caps := (s.core (coreOfThread t)).ocache } })) s

/-- An instruction run for the issuing PC group in ascending %tid. `us` are its units of R410. -/
def runLanes (c : Ctl) (us : List Nat) (f : State → Nat → State → Lane) (s : State) : State :=
  captureHeld s (s.iss.members.foldl (laneStep c us f (issueView s)) s)

def forLanes (c : Ctl) (us : List Nat) (f : State → Nat → State → Lane) (s : State) : Out := .next (runLanes c us f s)

/-- What an ALU-class instruction gives: registers with their words, predicates, floating-point flags. -/
structure Res where
  regs : List (Reg × List Word) := []
  preds : List (Nat × Bool) := []
  fl : Fl := 0

def Res.reg (d : Reg) (ws : List Word) : Res := { regs := [(d, ws)] }
def Res.nat (d : Reg) (n x : Nat) : Res := .reg d (natWords n x)
def Res.fp (d : Reg) (n : Nat) (r : Nat × Fl) : Res := { regs := [(d, natWords n r.1)], fl := r.2 }

def applyRes (s : State) (t : Nat) (lead : Bool) (r : Res) : State :=
  let s := r.regs.foldl (fun s p => writeReg s t lead p.1 p.2) s
  s.modThread t (fun x => { r.preds.foldl (fun x p => qwrite p.1 p.2 x) x with fpflags := x.fpflags ||| r.fl })

/-- Detail 8 when the destination is a k register (R410). -/
def unitFor (d : Reg) (unit : Nat) : Nat :=
  match d with
  | .v _ => unit
  | .k _ => 8

/-- The units of an instruction with a destination: of a k register, the group-uniform pipeline (R410). -/
def unitsFor (d : Reg) (us : List Nat) : List Nat :=
  match d with
  | .v _ => us
  | .k _ => [8]

/-- The unit that sums an address whose term is the register or constant `a` (R410). -/
def addrUnits (a : Src) : List Nat :=
  match a with
  | .k _ => [8]
  | _ => [1]

/-! ### Accesses in flight of a thread -/

/-- Entries of the operand log proper on a core. -/
def logCount (x : Core) : Nat := (x.olog.filter (·.inLog)).length

/-- The oldest accesses that wait for the log enter it, as `n` entries are free. -/
def logFill : Nat → List LogEntry → List LogEntry
  | 0, l => l
  | _, [] => []
  | n + 1, e :: l => if e.inLog then e :: logFill (n + 1) l else { e with inLog := true } :: logFill n l

/-- Entries freed of the 64 are taken by those that wait (R347). -/
def logEnter (l : List LogEntry) : List LogEntry := logFill (64 - (l.filter (·.inLog)).length) l

/-- Entries leave a core's operand log. -/
def logDrop (x : Core) (out : LogEntry → Bool) : Core := { x with olog := logEnter (x.olog.filter (fun e => !out e)) }

def loadsOf (s : State) (t : Nat) : List LoadEntry := (s.core (coreOfThread t)).loads.filter (fun e => e.thread == t)
def loggedOf (s : State) (t : Nat) : List LogEntry := (s.core (coreOfThread t)).olog.filter (fun e => e.e.thread == t)
/-- The scratch of a launch's saved contexts and that of the cores change places. -/
def turnScratch (s : State) (lk : Nat) : State :=
  match tfind s.launches lk with
  | none => s
  | some l =>
    if l.ctx.isEmpty then s
    else
      let old := s
      (l.ctx.foldl (fun s p => s.modCore p.1 (fun x => { x with scratch := p.2.scratch })) s).modLaunch lk (fun l =>
        { l with ctx := tmap (fun c x => { x with scratch := (old.core c).scratch }) l.ctx })

/-- The cores whose contexts of a launch are saved. -/
def awayCores (s : State) (lk : Nat) : List Nat := match tfind s.launches lk with | some l => l.ctx.map (·.1) | none => []

/-- An operation on the scratch a launch has, be it saved: then what runs on those cores has no part in it. -/
def withScratch (s : State) (lk : Nat) (f : State → State) : State :=
  let cs := awayCores s lk
  if cs.isEmpty then f s
  else
    let there (t : Nat) : Bool := cs.contains (coreOfThread t)
    let s' := turnScratch (f (turnScratch { s with threads := tkeep (fun t _ => !there t) s.threads } lk)) lk
    { s' with threads := (s.threads.filter (fun p => there p.1)).foldl (fun ts p => tset p.1 p.2 ts) s'.threads }

def storesOf (s : State) (t : Nat) : List StoreEntry :=
  (s.core (coreOfThread t)).stores.filter (fun e => e.thread == t && e.group == (s.thread t).group)
def lateOf (s : State) (t : Nat) : List LateEntry := (s.core (coreOfThread t)).late.filter (fun e => e.thread == t)
def sfuOf (s : State) (t : Nat) : List SfuEntry := (s.core (coreOfThread t)).sfu.filter (fun e => e.thread == t)

/-- Every in-flight instruction of the thread has written its destination (R134). -/
def resultsWritten (s : State) (t : Nat) : Bool := (loadsOf s t).isEmpty && (sfuOf s t).isEmpty && (lateOf s t).isEmpty

/-- Loads, logged accesses and stores of the thread have all performed. -/
def accessesDone (s : State) (t : Nat) : Bool := (loadsOf s t).isEmpty && (loggedOf s t).isEmpty && (storesOf s t).isEmpty

/-- Every SFU- and DIV-class instruction of the PC group's threads has passed its checkers. -/
def sfuDone (s : State) : Bool := s.iss.members.all (fun t => (sfuOf s t).isEmpty)

/-- An instruction that its PC group performs together waits until every thread with a true guard is ready; one whose own checks
fail traps meanwhile. -/
def gated (c : Ctl) (ready : State → Nat → Bool) (wait : State → Nat → State) (f : State → Nat → State → Lane) (s0 : State) (t : Nat)
    (s : State) : Lane :=
  match f s0 t s with
  | .trap code detail addr gpa w => .trap code detail addr gpa w
  | r => if s0.iss.members.all (fun u => !guardOf (s0.thread u) c || ready s0 u) then r else .hold (wait s t)

/-- An instruction that acts outside the thread's own registers waits until the SFU- and DIV-class instructions of its PC group
have passed their checkers (R344); that it waits where it might have issued is timing alone (log entry 29). -/
def outward (f : State → Nat → State → Lane) (s0 : State) (t : Nat) (s : State) : Lane :=
  if sfuDone s0 then f s0 t s else .hold (waitAgain s t)

def forOut (c : Ctl) (us : List Nat) (f : State → Nat → State → Lane) (s : State) : Out := forLanes c us (outward f) s

def Reg.isK : Reg → Bool
  | .k _ => true
  | .v _ => false

def Res.writesK (r : Res) : Bool := r.regs.any (fun p => Reg.isK p.1)

/-- The result of a long-latency instruction waits to be written; the next `left` instructions of its thread are in its window
(R33, R35). A k register is written for the lead alone (R18), and q7 never (R14). -/
def lateRes (s : State) (t left : Nat) (long lead : Bool) (r : Res) : State :=
  let (id, s) := freshId s
  let e : LateEntry := { id, thread := t, group := (s.thread t).group, regs := r.regs.filter (fun p => lead || !Reg.isK p.1)
                         preds := r.preds.filter (fun p => p.1 != 7), flags := r.fl, names := r.regs.map (fun p => (p.1, p.2.length))
                         left, long }
  s.modCore (coreOfThread t) (fun x => { x with late := x.late ++ [e] })

/-- A thread that issues retires, its result to be written later. -/
def retireLate (s : State) (t : Nat) (c : Ctl) (lead : Bool) (r : Res) : Lane := .retire (lateRes s t (c.la.val + 1) true lead r)

/-- A thread that issues an instruction of class ALU retires with its result. A k register, which is outside the thread, is not
written before the thread's SFU- and DIV-class instructions have passed their checkers (R344). -/
def retireAlu (s0 s : State) (t : Nat) (c : Ctl) (r : Res) : Lane :=
  let lead := leadOf s0 c == some t
  .retire (if lead && r.writesK && !(sfuOf s0 t).isEmpty then lateRes s t 1024 false true r else applyRes s t lead r)

/-- The open cross-lane instances of its group and turn in which a thread's lane has arrived, by PC and half. -/
def arrivedIn (x : Core) (g t : Nat) : List (DWord × Nat) :=
  (x.cross.filter (fun y => y.group == g && y.turn == turnOf t && y.arrived.getLsbD (laneOf t))).map (fun y => (y.pc, y.half))

/-- An ALU-class instruction that only computes. -/
def execAlu (c : Ctl) (us : List Nat) (f : Thread → Group → Res) (s : State) : Out :=
  forLanes c us (fun s0 t s => retireAlu s0 s t c (f (s0.thread t) (s0.group (s0.thread t).group))) s

/-- An SFU-class or DIV-class instruction issues: its result and flags wait in the core's queue, with the thread as it stood
(R33, R344). Its unit is 6 or 7, or 8 for a k destination. -/
def execLong (c : Ctl) (unit : Nat) (d : Reg) (f : Thread → Group → List Word × Fl) (s : State) : Out :=
  forLanes c [] (fun s0 t s =>
    let th := s0.thread t
    let r := f th (s0.group th.group)
    let (id, s) := freshId s
    if bankStruck s0 t then .trapD 8 (unitFor d unit)
    else .retire (s.modCore (coreOfThread t) (fun x => { x with
      sfu := x.sfu ++ [{ id, thread := t, pc := th.pc, d := keepDest (leadOf s0 c == some t) d, dn := d, res := r.1, flags := r.2,
                         punit := unitFor d unit, left := c.la.val + 1, before := s.thread t, seen := arrivedIn x th.group t }] }))) s

/-! ### Reconvergence barriers (R127 to R132) -/

/-- Members of an instance of jN in a group. -/
def instMembers (s : State) (g n inst : Nat) : List (Nat × Thread) :=
  (s.threadsOf g).filter (fun p => match tfind p.2.j n with | some b => b.inst == inst | none => false)

/-- The instance releases when every member waits at a JOINWAIT naming jN (R130). -/
def settleInst (s : State) (g n inst : Nat) : State :=
  let ms := instMembers s g n inst
  if ms.all (fun p => p.2.run == .waiting (.join n)) then
    ms.foldl (fun s p => retireWaiter (s.modThread p.1 (fun x => { x with j := tdel n x.j })) p.1 true) s
  else s

/-- JOINDROP for one thread (R131). -/
def leaveInst (s : State) (t n : Nat) : State :=
  match tfind (s.thread t).j n with
  | none => s
  | some b => settleInst (s.modThread t (fun x => { x with j := tdel n x.j })) (s.thread t).group n b.inst

def leaveAll (s : State) (t : Nat) : State := ((s.thread t).j.map (·.1)).foldl (fun s n => leaveInst s t n) s

/-! ### Group barriers (R221) -/

def gbar (s : State) (g id : Nat) : GBar := tget {} (s.group g).bars id

/-- Expected arrivals of the phase: n, or the threads that have not exited. -/
def barExpected (s : State) (g : Nat) (b : GBar) : Nat := if b.n = 0 then (s.liveOf g).length else b.n

/-- Everything that arrivals release has performed (R221, R261). -/
def relPerformed (s : State) (rel : List (Nat × Nat)) : Bool :=
  rel.all (fun p => (storesOf s p.1).all (fun e => decide (p.2 ≤ e.id)))

/-- A phase whose count has reached its expected count is over: a later arrival begins the next (R221). -/
def barClose (s : State) (g : Nat) (b : GBar) : GBar :=
  if b.count ≠ 0 ∧ barExpected s g b ≤ b.count then { phase := b.phase + 1, closing := b.closing ++ [(b.phase, b.rel)] } else b

/-- Once a phase is over and what its arrivals release has performed, its waiting threads retire together. -/
def barSettle (s : State) (g id : Nat) : State :=
  let b := barClose s g (gbar s g id)
  let done := b.closing.filter (fun p => relPerformed s p.2)
  let b := { b with closing := b.closing.filter (fun p => !relPerformed s p.2) }
  if done.isEmpty && b == gbar s g id then s
  else
    let s := s.modGroup g (fun x => { x with bars := if b.count = 0 ∧ b.closing = [] then tdel id x.bars else tset id b x.bars })
    ((s.threadsOf g).filter (fun p => done.any (fun q => p.2.run == .waiting (.bar id q.1)))).foldl (fun s p => retireWaiter s p.1 true) s

/-! ### Idempotent regions (R294) -/

/-- Once every thread of the group that has not exited waits at an IDEMBEG, they retire together and the region opens, with
its snapshot; at different PCs they trap IDEM_MISMATCH. -/
def idemSettle (s : State) (g : Nat) : State :=
  match s.liveOf g with
  | [] => s
  | (t0, th0) :: rest =>
    match th0.run with
    | .waiting (.idem f n) =>
      let waits (p : Nat × Thread) : Bool := match p.2.run with
        | .waiting (.idem _ _) => true
        | _ => false
      if !rest.all waits then s
      else if rest.all (fun p => p.2.pc == th0.pc) then
        let s := (t0 :: rest.map (·.1)).foldl (fun s t => retireWaiter s t true) s
        let snap := (s.threadsOf g).map (fun p =>
          (p.1, ((List.range n).map (fun i => vread p.2 (f + i)), p.2.q, p.2.fpflags, p.2.retired, p.2.dvpc)))
        s.modGroup g (fun x =>
          let r : Idem := { armed := false, first := f, n, pc := th0.pc + 16, snap, k := x.k, region := x.region,
                            mtol := x.mtol, mretry := x.mretry, pads := x.pads }
          { x with idem := some r })
      else (t0 :: rest.map (·.1)).foldl (fun s t => takeTrap s t 0x15 0 0 0 false) s
    | _ => s

/-! ### Barrier objects (R211, R212, R217) -/

def boExpBytes (x : Nat) : Nat := bitsAt x 0 40
def boExpArr (x : Nat) : Nat := bitsAt x 40 16
def boStatus (x : Nat) : Nat := bitsAt x 56 8
def boArrBytes (x : Nat) : Nat := bitsAt x 64 40
def boArrCnt (x : Nat) : Nat := bitsAt x 104 16
def boErr (x : Nat) : Nat := bitsAt x 120 7
def boPhase (x : Nat) : Bool := flag x 127

def boMake (eb ea st ab ac err : Nat) (ph : Bool) : Nat :=
  eb + ea * 2 ^ 40 + st * 2 ^ 56 + ab * 2 ^ 64 + ac * 2 ^ 104 + err * 2 ^ 120 + ph.toNat * 2 ^ 127

/-- flip(c) of R212. -/
def boFlip (x c : Nat) : Nat :=
  boMake (boExpBytes x) (boExpArr x) (if c = 0 then boStatus x else boStatus x ||| 1) 0 0 c (!boPhase x)

/-- update(ab, ac, ec) of R212; a saturating count marks OVER (R211). The new object, and whether it flipped. -/
def boUpdateVal (x ab ac ec : Nat) : Nat × Bool :=
  let nb := boArrBytes x + ab
  let na := boArrCnt x + ac
  let sat := decide (2 ^ 40 - 1 < nb) || decide (65535 < na)
  let st := if sat then boStatus x ||| 2 else boStatus x
  let ab' := min nb (2 ^ 40 - 1)
  let ac' := min na 65535
  let y := boMake (boExpBytes x) (boExpArr x) st ab' ac' (boErr x) (boPhase x)
  if ec ≠ 0 then (boFlip y ec, true)
  else if boExpBytes x ≤ ab' ∧ boExpArr x ≤ ac' then
    let st' := if boExpBytes x < ab' ∨ boExpArr x < ac' then st ||| 2 else st
    (boFlip (boMake (boExpBytes x) (boExpArr x) st' ab' ac' (boErr x) (boPhase x)) 0, true)
  else (y, false)

/-- The result word of R217. -/
def boWord (code : Nat) (dv ph dn : Bool) : Word :=
  BitVec.ofNat 32 (code % 128 + 128 * dv.toNat + 256 * ph.toNat + 512 * dn.toNat)

/-- The threads registered at an object return with its new phase; returning is an acquire (R217, R218). `by` is the group
whose instruction made the flip, if one did. -/
def boRelease (s : State) (obj : Loc) (x : Nat) (grp : Option Nat) : State :=
  s.threads.foldl (fun s p =>
    match p.2.run with
    | .waiting (.bowait o d _) =>
      if o = obj then
        let s := writeOpt s p.1 d [boWord (boErr x) false (boPhase x) true]
        retireWaiter (l1InvalidateClean s (coreOfThread p.1)) p.1 (grp == some p.2.group)
      else s
    | _ => s) s

/-- A contribution at an object. -/
def boUpdate (s : State) (obj : Loc) (ab ac ec : Nat) (grp : Option Nat) : State :=
  let (y, flipped) := boUpdateVal (locNat s obj 16) ab ac ec
  let s := locWrite s obj (leBytes 16 y)
  if flipped then boRelease s obj y grp else s

/-- The object of a barrier pointer, for the core and partition R214 names; 0 names none. -/
def boLoc (s : State) (c part : Nat) (p : DWord) : Option Loc :=
  if p = 0 then none
  else match ptrSpace p with
    | 1 => some (.scratch c (ptrOff p))
    | _ => some (.bank (bankDie p) (bankRangeBase s part (bankDie p) + bankOff p))

/-- The conditions of R196 on a nonzero barrier pointer. -/
def boPtrOk (s : State) (c part : Nat) (p : DWord) : Bool :=
  p.toNat % 16 == 0 &&
    (match ptrSpace p with
     | 1 => decide (ptrOff p + 16 ≤ scratchSize (s.core c))
     | 2 => p.toNat / 2 ^ 52 % 256 == 0 && decide (bankOff p + 16 ≤ bankRangeSize s part (bankDie p))
     | _ => false)

/-- A contribution through a barrier pointer that may be 0. -/
def boContribute (s : State) (c part : Nat) (p : DWord) (ab ac ec : Nat) : State :=
  match boLoc s c part p with
  | some l => boUpdate s l ab ac ec none
  | none => s

end Sys2Proof.Machine
end

