-- ==== Sys2Proof/Machine/Float.lean ====
section
/-! DEFINITION. Classes 0x2 and 0x3: floating-point arithmetic, comparison, packed halves and conversions (R100 to R116,
R120). QBLK, which meets other lanes, stands with the cross-lane instructions. -/

namespace Sys2Proof.Machine

def ftOf (dbl : Bool) : FP := if dbl then f64 else f32
/-- IMM32 as an FP32 encoding, widened exactly for .f64 (R101). -/
def immF (dbl : Bool) (imm : Word) : Nat := if dbl then widenF32 imm.toNat else imm.toNat

/-- A floating-point instruction of two sources. -/
def execF2 (c : Ctl) (us : List Nat) (dbl : Bool) (d : Reg) (a b : Src) (f : FP → Nat → Nat → Nat × Fl) (s : State) : Out :=
  execAlu c (unitsFor d us) (fun t g => .fp d (nregs64 dbl) (f (ftOf dbl) (srcF t g dbl a) (srcF t g dbl b))) s

def execFadd (c : Ctl) (f64 : Bool) (rm : Rnd) (d : Reg) (a b : Src) (s : State) : Out :=
  execF2 c [3] f64 d a b (fun f x y => fAdd f rm x y) s

def execFsub (c : Ctl) (f64 : Bool) (rm : Rnd) (d : Reg) (a b : Src) (s : State) : Out :=
  execF2 c [3] f64 d a b (fun f x y => fAdd f rm x (fNeg f y)) s

def execFmul (c : Ctl) (f64 : Bool) (rm : Rnd) (d : Reg) (a b : Src) (s : State) : Out :=
  execF2 c [4] f64 d a b (fun f x y => fMul f rm x y) s

def execFfma (c : Ctl) (f64 : Bool) (rm : Rnd) (d : Reg) (a b e : Src) (s : State) : Out :=
  execAlu c (unitsFor d [3, 4]) (fun t g =>
    .fp d (nregs64 f64) (fFma (ftOf f64) rm (srcF t g f64 a) (srcF t g f64 b) (srcF t g f64 e))) s

def execFaddi (c : Ctl) (f64 : Bool) (rm : Rnd) (d : Reg) (a : Src) (imm : Word) (s : State) : Out :=
  execAlu c (unitsFor d [3]) (fun t g => .fp d (nregs64 f64) (fAdd (ftOf f64) rm (srcF t g f64 a) (immF f64 imm))) s

def execFmuli (c : Ctl) (f64 : Bool) (rm : Rnd) (d : Reg) (a : Src) (imm : Word) (s : State) : Out :=
  execAlu c (unitsFor d [4]) (fun t g => .fp d (nregs64 f64) (fMul (ftOf f64) rm (srcF t g f64 a) (immF f64 imm))) s

/-- a × imm + b (R103). -/
def execFfmai (c : Ctl) (f64 : Bool) (rm : Rnd) (d : Reg) (a b : Src) (imm : Word) (s : State) : Out :=
  execAlu c (unitsFor d [3, 4]) (fun t g =>
    .fp d (nregs64 f64) (fFma (ftOf f64) rm (srcF t g f64 a) (immF f64 imm) (srcF t g f64 b))) s

/-- NV for FMIN and FMAX is never set (R104). -/
def execFmin (c : Ctl) (f64 : Bool) (d : Reg) (a b : Src) (s : State) : Out :=
  execF2 c [] f64 d a b (fun f x y => (fMin f x y, 0)) s

def execFmax (c : Ctl) (f64 : Bool) (d : Reg) (a b : Src) (s : State) : Out :=
  execF2 c [] f64 d a b (fun f x y => (fMax f x y, 0)) s

/-- The predicate of a comparison under BOP, as in R85. -/
def fbop (bop : Bop) (x p : Bool) : Bool :=
  match bop with
  | .none => x
  | .and => x && p
  | .or => x || p
  | .xor => x != p

def execFcmp (c : Ctl) (f64 : Bool) (cond : FCond) (bop : Bop) (qd : PDst) (a b : Src) (p : PSrc) (s : State) : Out :=
  execAlu c [] (fun t g =>
    let r := fCmp (ftOf f64) cond (srcF t g f64 a) (srcF t g f64 b)
    { preds := [(qd.val, fbop bop r.1 (predOf t p))], fl := r.2 }) s

def execFclass (c : Ctl) (f64 : Bool) (mask : BitVec 9) (qd : PDst) (a : Src) (s : State) : Out :=
  execAlu c [] (fun t g => { preds := [(qd.val, mask.getLsbD (fClass (ftOf f64) (srcF t g f64 a)))] }) s

/-! ### Packed halves (R108 to R110) -/

def hfOf (bf : Bool) : FP := if bf then bf16 else f16

/-- Both halves by one scalar operation. -/
def packed (f : Nat → Nat → Nat → Nat × Fl) (a b e : Nat) : Nat × Fl :=
  let l := f (a % 2 ^ 16) (b % 2 ^ 16) (e % 2 ^ 16)
  let h := f (a / 2 ^ 16 % 2 ^ 16) (b / 2 ^ 16 % 2 ^ 16) (e / 2 ^ 16 % 2 ^ 16)
  (l.1 + h.1 * 2 ^ 16, l.2 ||| h.2)

def execH2 (c : Ctl) (us : List Nat) (d : Reg) (a b : Src) (f : Nat → Nat → Nat × Fl) (s : State) : Out :=
  execAlu c (unitsFor d us) (fun t g => .fp d 1 (packed (fun x y _ => f x y) (srcH2 t g a) (srcH2 t g b) 0)) s

def execHadd2 (c : Ctl) (bf : Bool) (rm : Rnd) (d : Reg) (a b : Src) (s : State) : Out :=
  execH2 c [3] d a b (fAdd (hfOf bf) rm) s

def execHmul2 (c : Ctl) (bf : Bool) (rm : Rnd) (d : Reg) (a b : Src) (s : State) : Out :=
  execH2 c [4] d a b (fMul (hfOf bf) rm) s

def execHfma2 (c : Ctl) (bf : Bool) (rm : Rnd) (d : Reg) (a b e : Src) (s : State) : Out :=
  execAlu c (unitsFor d [3, 4]) (fun t g => .fp d 1 (packed (fFma (hfOf bf) rm) (srcH2 t g a) (srcH2 t g b) (srcH2 t g e))) s

def execHmin2 (c : Ctl) (bf : Bool) (d : Reg) (a b : Src) (s : State) : Out :=
  execH2 c [] d a b (fun x y => (fMin (hfOf bf) x y, 0)) s

def execHmax2 (c : Ctl) (bf : Bool) (d : Reg) (a b : Src) (s : State) : Out :=
  execH2 c [] d a b (fun x y => (fMax (hfOf bf) x y, 0)) s

/-- Low halves to qd, then high halves to qe (R109). -/
def execHcmp2 (c : Ctl) (bf : Bool) (cond : FCond) (bop : Bop) (qd qe : PDst) (a b : Src) (p : PSrc) (s : State) : Out :=
  execAlu c [] (fun t g =>
    let x := srcH2 t g a
    let y := srcH2 t g b
    let l := fCmp (hfOf bf) cond (x % 2 ^ 16) (y % 2 ^ 16)
    let h := fCmp (hfOf bf) cond (x / 2 ^ 16) (y / 2 ^ 16)
    { preds := [(qd.val, fbop bop l.1 (predOf t p)), (qe.val, fbop bop h.1 (predOf t p))], fl := l.2 ||| h.2 }) s

/-- Two products and an FP32 term, summed exactly and rounded once; a zero sum has the sign of R103 (R110). -/
def fdot2Val (f : FP) (rm : Rnd) (a b e : Nat) : Nat × Fl :=
  let p := mulV (f.dec (a % 2 ^ 16)) (f.dec (b % 2 ^ 16))
  let q := mulV (f.dec (a / 2 ^ 16 % 2 ^ 16)) (f.dec (b / 2 ^ 16 % 2 ^ 16))
  let r := f32.dec e
  let v := sumV [p.1, q.1, r]
  let sum := match v.1 with
    | .fin _ 0 u =>
      let zeros := p.1.isZero && q.1.isZero && r.isZero && p.1.neg == q.1.neg && q.1.neg == r.neg
      FVal.fin (if zeros then r.neg else rm == .dn) 0 u
    | x => x
  let o := deliver f32 rm false sum
  (o.1, o.2 ||| flIf (p.2 || q.2 || v.2) flNV)

def execFdot2 (c : Ctl) (bf : Bool) (rm : Rnd) (d : Reg) (a b e : Src) (s : State) : Out :=
  execAlu c (unitsFor d [3, 4]) (fun t g => .fp d 1 (fdot2Val (hfOf bf) rm (srcH2 t g a) (srcH2 t g b) (srcF32 t g e))) s

/-! ### Conversions (R111 to R116, R120) -/

def execCvt (c : Ctl) (df sf : BitVec 4) (rm : Rnd) (sat : Bool) (d : Reg) (a : Src) (s : State) : Out :=
  execAlu c (unitsFor d [5]) (fun t g => .fp d (fmtRegs df) (convert df.toNat sf.toNat rm sat (srcFmt t g sf.toNat a))) s

/-- Sources side by side, 16 or 8 bits each (R112). -/
def execCvtpk (c : Ctl) (df sf : BitVec 4) (rm : Rnd) (sat : Bool) (d : Reg) (a b x e : Src) (s : State) : Out :=
  execAlu c (unitsFor d [5]) (fun t g =>
    let cv (v : Src) : Nat × Fl := convert df.toNat sf.toNat rm sat (srcFmt t g sf.toNat v)
    let p := cv a
    let q := cv b
    if Fmt.is8 df then
      let r := cv x
      let u := cv e
      .fp d 1 (p.1 + q.1 * 2 ^ 8 + r.1 * 2 ^ 16 + u.1 * 2 ^ 24, p.2 ||| q.2 ||| r.2 ||| u.2)
    else .fp d 1 (p.1 + q.1 * 2 ^ 16, p.2 ||| q.2)) s

/-- 8-bit results round ties away (R49, R113). -/
def execF2i (c : Ctl) (sf : BitVec 4) (iw : Wd) (iu : Bool) (rm : Rnd) (sat : Bool) (d : Reg) (a : Src) (s : State) : Out :=
  execAlu c (unitsFor d [5]) (fun t g =>
    let r := toInt (decCode sf.toNat (srcFmt t g sf.toNat a)) (wdBits iw) iu (if iw = .w8 then .ra else rm) sat
    let ws := match iw with
      | .w64 => natWords 2 r.1
      | .w32 => natWords 1 r.1
      | .w16 => [if iu then BitVec.ofNat 32 r.1 else (BitVec.ofNat 16 r.1).signExtend 32]
      | .w8 => [if iu then BitVec.ofNat 32 r.1 else (BitVec.ofNat 8 r.1).signExtend 32]
    { regs := [(d, ws)], fl := r.2 }) s

def execI2f (c : Ctl) (df : BitVec 4) (iw : Wd) (iu : Bool) (rm : Rnd) (sat : Bool) (d : Reg) (a : Src) (s : State) : Out :=
  execAlu c (unitsFor d [5]) (fun t g =>
    .fp d (fmtRegs df) (ofInt (fpOf df.toNat) (rmFor df.toNat rm) sat (srcInt t g iw iu a))) s

def execFrnd (c : Ctl) (f64 : Bool) (rm : Rnd) (d : Reg) (a : Src) (s : State) : Out :=
  execAlu c (unitsFor d [5]) (fun t g => .fp d (nregs64 f64) (fRnd (ftOf f64) rm (srcF t g f64 a))) s

def execScalex (c : Ctl) (f64 : Bool) (rm : Rnd) (d : Reg) (a n : Src) (s : State) : Out :=
  execAlu c (unitsFor d [4]) (fun t g =>
    .fp d (nregs64 f64) (fScale (ftOf f64) rm (srcF t g f64 a) (srcInt t g .w32 false n))) s

/-- A block of R120. A constant of kind 10 is taken as a sign-extended word (R67; DESIGN CHOICE, log entry 112). -/
def execDqblk (c : Ctl) (f4x : Bool) (rm : Rnd) (d : Reg) (a : Src) (s : State) : Out :=
  execAlu c (unitsFor d [6]) (fun t g => .fp d 1 (dequant f4x rm (srcNat t g 1 a))) s

end Sys2Proof.Machine
end

