-- ==== Sys2Proof/Machine/Objects.lean ====
section
/-! DEFINITION. The object table: entries, their validity, the object cache, obj_check (R151 to R159, R235, R266, R323). -/

namespace Sys2Proof.Machine

/-! ### Entries of 32 B as numbers (R152) -/

def oType (e : Nat) : Nat := bitsAt e 0 4
def oR (e : Nat) : Bool := flag e 4
def oW (e : Nat) : Bool := flag e 5
def oA (e : Nat) : Bool := flag e 6
def oEfmt (e : Nat) : Nat := bitsAt e 8 4
def oBmode (e : Nat) : Nat := bitsAt e 12 2
def oPriv (e : Nat) : Bool := flag e 14
def oBase (e : Nat) : DWord := BitVec.ofNat 64 (bitsAt e 32 64)
def oExtent (e : Nat) : Nat := bitsAt e 96 48
def oStride0 (e : Nat) : Nat := bitsAt e 144 32
def oStride1 (e : Nat) : Nat := bitsAt e 176 32
def oDim0 (e : Nat) : Nat := bitsAt e 208 16
def oDim1 (e : Nat) : Nat := bitsAt e 224 16
def oGen (e : Nat) : Nat := bitsAt e 240 16

/-- Element size of R39 in bytes; F4X has none. -/
def esize (fmt : Nat) : Nat :=
  match fmt with
  | 1 => 8 | 2 => 4 | 3 => 2 | 4 => 2 | 10 => 2 | 11 => 4 | 12 => 8 | 14 => 2 | 15 => 4 | _ => 1

/-- BASE names a space and EXTENT stays within it (R152, R165). -/
def spaceOk (s : State) (part die e : Nat) : Bool :=
  match spaceSize s part die (oBase e) with
  | some n => decide (spaceOff (oBase e) + oExtent e ≤ n)
  | none => false

/-- The conditions under which a use traps OBJ_INVALID do not hold. Bits [31:14] of an entry of TYPE 6 are taken as reserved (DESIGN
CHOICE, log entry 88). -/
def entryValid (s : State) (part die e : Nat) : Bool :=
  match oType e with
  | 1 | 2 => bitsAt e 14 18 == 0 && decide (oBmode e < 2) && spaceOk s part die e
  | 3 => bitsAt e 7 25 == 0 && bitsAt e 144 96 == 0
  | 4 => oEfmt e == 0 && oBmode e == 0 && bitsAt e 16 16 == 0 && bitsAt e 160 80 == 0 &&
      (List.range 4).all (fun i => decide (i ≤ bitsAt e 14 2) || bitsAt e (32 + 16 * i) 16 == 0)
  | 5 => bitsAt e 15 17 == 0 && bitsAt e 144 96 == 0 && decide (oBmode e < 2) && spaceOk s part die e
  | 6 => oEfmt e == 0 && oBmode e == 0 && bitsAt e 14 18 == 0 && bitsAt e 80 160 == 0 && bitsAt e 32 32 != 0 &&
      bitsAt e 64 16 != 0 && decide (bitsAt e 32 32 + bitsAt e 64 16 ≤ 2 ^ 32)
  | 7 => bitsAt e 14 18 == 0 && bitsAt e 48 192 == 0
  | _ => false

/-- The failed fill is reported once; the next use reads the table again. -/
def clearBad (s : State) (c part idx : Nat) : State := s.modCore c (fun x => { x with obad := x.obad.filter (· != (part, idx)) })

/-! ### obj_check (R157, R158) -/

/-- What obj_check answers. -/
inductive Chk where
  | trap (code : Nat) (addr : DWord)
  | out
  | inb (addr : DWord)
  deriving DecidableEq, Repr

/-- The rights an instruction needs. -/
structure Rights where
  r : Bool := false
  w : Bool := false
  a : Bool := false

def Rights.granted (n : Rights) (e : Nat) : Bool := (!n.r || oR e) && (!n.w || oW e) && (!n.a || oA e)

/-- The offset o of R157, exact. -/
def amOffset (t : Thread) (g : Group) (am : AM) (a : Src) (off : Word) (e : Nat) : Int :=
  match am with
  | .plain => (srcNat t g 1 a : Int) + off.toInt
  | .el => (srcNat t g 1 a : Int) * esize (oEfmt e) + off.toInt
  | .ij =>
    let x := srcNat t g 2 a
    ((x % 2 ^ 32 * oStride0 e + x / 2 ^ 32 * oStride1 e : Nat) : Int) + off.toInt
  | .x64 => (BitVec.ofNat 64 (srcNat t g 2 a)).toInt + off.toInt

/-- The index checks of AM 10. -/
def amIndexOut (t : Thread) (g : Group) (am : AM) (a : Src) (e : Nat) : Bool :=
  match am with
  | .ij =>
    let x := srcNat t g 2 a
    (oDim0 e != 0 && decide (oDim0 e ≤ x % 2 ^ 32)) || (oDim1 e != 0 && decide (oDim1 e ≤ x / 2 ^ 32))
  | _ => false

/-- obj_check on a captured entry: the checks in order; the first that fails decides. `types` are those the instruction
accepts, `pre` a check made after the rights. -/
def checkEntry (s : State) (c part : Nat) (e : Nat) (types : List Nat) (need : Rights) (am : AM) (o : Int) (idxOut : Bool)
    (size align : Nat) (pre : Option Nat := none) : Chk :=
  if !entryValid s part (dieOfCore c) e then .trap 0x20 0
  else if !types.contains (oType e) then .trap 0x21 0
  else if !need.granted e then .trap 0x22 0
  else
    match pre with
    | some code => .trap code (oBase e)
    | none =>
      if am = .el ∧ oEfmt e = 8 then .trap 0x23 0
      else if o < 0 ∨ o + size > oExtent e ∨ idxOut then (if oBmode e = 0 then .trap 0x24 0 else .out)
      else
        let addr := oBase e + BitVec.ofInt 64 o
        if ptrSpace addr = 1 ∧ ptrOff addr + size > scratchSize (s.core c) then .trap 0x28 addr
        else if ptrOff addr % align ≠ 0 then .trap 0x25 addr
        else .inb addr

/-- Capture and obj_check for one thread: the entry, the answer and the state with the cache filled; none is DATA_ERROR.
`bankOnly` adds the space check of R177 after the rights. -/
def objCheck (s : State) (t : Nat) (th : Thread) (g : Group) (types : List Nat) (need : Rights) (m : MemOp) (size align : Nat)
    (bankOnly : Bool := false) : Option (Nat × Chk × State) :=
  let c := coreOfThread t
  let part := s.partOf t
  match capture s c part (objIdx g m.obj) with
  | none => none
  | some (e, s) =>
    some (e, checkEntry s c part e types need m.am (amOffset th g m.am m.a m.off e) (amIndexOut th g m.am m.a e) size align
      (if bankOnly && ptrSpace (oBase e) != 2 then some 0x27 else none), s)

def memOf (m : MemOp0) : MemOp := ⟨m.obj, .plain, m.a, m.off⟩

/-- A BMODE ZERO access out of bounds is counted (R159). -/
def countOob (s : State) (t : Nat) : State := telCount s (s.partOf t) (dieOfCore (coreOfThread t)) 0 1

/-- An access touches a scratch way that no fill has reached (R164, R255). -/
def unfilledAt (s : State) (c off n : Nat) : Bool :=
  (List.range 12).any (fun w => (s.core c).unfilled.getLsbD w && decide (off < (w + 1) * 131072) && decide (w * 131072 < off + n))

def ptrUnfilled (s : State) (c : Nat) (p : DWord) (n : Nat) : Bool := ptrSpace p == 1 && unfilledAt s c (ptrOff p) n

end Sys2Proof.Machine
end

