-- ==== Sys2Proof/Machine/Memory.lean ====
section
/-! DEFINITION. Class 0x7: loads, stores, prefetch, line operations and table access at issue (R161 to R170), and the entries
that loads and stores leave in the core's queues. -/

namespace Sys2Proof.Machine

def sxImm (imm : Word) : DWord := imm.signExtend 64

/-- Size in bytes of a load or store. -/
def ldBytes : LdSz → Nat
  | .b32 => 4 | .b64 => 8 | .b128 => 16 | .n16 => 2 | .s16 => 2 | .n8 => 1 | .s8 => 1
def stBytes : StSz → Nat
  | .b32 => 4 | .b64 => 8 | .b128 => 16 | .b16 => 2 | .b8 => 1
def ldkBytes : LdkSz → Nat
  | .b32 => 4 | .b64 => 8 | .b128 => 16

/-- Register words of loaded bytes (R161). -/
def ldWords (sz : LdSz) (bs : List Byte) : List Word :=
  let x := leNat bs
  match sz with
  | .b32 => natWords 1 x
  | .b64 => natWords 2 x
  | .b128 => natWords 4 x
  | .n16 | .n8 => natWords 1 x
  | .s16 => [(BitVec.ofNat 16 x).signExtend 32]
  | .s8 => [(BitVec.ofNat 8 x).signExtend 32]

/-- An address lies in an extent of one of the first 8 sync objects the group holds (R257). A ninth counts once one of the first 8 has
left (DESIGN CHOICE, log entry 113). -/
def heldAt (g : Group) (p : DWord) : Bool :=
  ptrSpace p == 0 && (g.holds.take 8).any (fun h => h.exts.any (fun x => decide (x.1 ≤ p.toNat) && decide (p.toNat < x.1 + x.2)))

/-! ### Accesses -/

/-- Width of R176 in bytes. -/
def atomfBytes : AtomFOp → Nat
  | .addF64 | .minF64 | .maxF64 => 8
  | _ => 4

def AccKind.size : AccKind → Nat
  | .load sz => ldBytes sz
  | .atom _ w => if w then 8 else 4
  | .cas w => if w then 8 else 4
  | .atomf op => atomfBytes op
  | .bankop _ _ => 16
  | .bankred _ _ n => 4 * n
  | .store n => n
  | .cline _ _ => 1

/-- The rights of R361. -/
def AccKind.need : AccKind → Need
  | .load _ => needR
  | .bankred _ _ _ => needR
  | .store _ => needW
  | .cline _ _ => {}
  | _ => needA

def AccKind.isLoad : AccKind → Bool
  | .load _ => true
  | _ => false

/-- An atomic, performed at the point of atomicity (R172). -/
def AccKind.atomic : AccKind → Bool
  | .load _ => false
  | .bankred _ _ _ => false
  | .store _ => false
  | .cline _ _ => false
  | _ => true

def partOfLaunch (s : State) (l : Nat) : Nat := match tfind s.launches l with | some x => x.part | none => 0

/-! ### When an access may perform (R160, R348) -/

/-- Where an access acts: a line operation has been translated at issue (R168). -/
def accResolve (s : State) (c part : Nat) (a : Access) : Except AFail Loc :=
  match a.kind with
  | .cline _ pa => .ok (.hbm pa)
  | k => resolve s c part a.priv a.ptr k.need

/-- A place as a space and a byte number in it, so that two names of one byte have one number (R160). -/
def placeKey (s : State) : Loc → Nat × Nat
  | .hbm pa => (0, pa)
  | .bank d b => (1, bankKey d b)
  | .scratch c o => (2, 2 ^ 21 * c + o)
  | .remote d p e o => (3, remoteKey e (epTpart (epEntry s p d e)) o)
  | .host p w o => (4, hostKey p ((window s p w).base.toNat + o))
  | .zero => (5, 0)

/-- The space of a place. -/
def Loc.space : Loc → Nat
  | .hbm _ => 0
  | .scratch .. => 1
  | .bank .. => 2
  | .remote .. => 3
  | .host .. => 4
  | .zero => 5

/-- Two accesses of a core touch one 128-B line, by their pointers or by where these lead; or both are accesses to its scratch, which
are performed in one order (R164). -/
def linesMeet (s : State) (c part : Nat) (a b : Access) : Bool :=
  let meet (x : Nat) (n : Nat) (y m : Nat) : Bool := decide (x / 128 ≤ (y + m - 1) / 128) && decide (y / 128 ≤ (x + n - 1) / 128)
  (ptrSpace a.ptr == 1 && ptrSpace b.ptr == 1) || meet a.ptr.toNat a.kind.size b.ptr.toNat b.kind.size ||
    (ptrSpace a.ptr == ptrSpace b.ptr &&
      (match accResolve s c part a, accResolve s c part b with
       | .ok x, .ok y => (placeKey s x).1 == (placeKey s y).1 && meet (placeKey s x).2 a.kind.size (placeKey s y).2 b.kind.size
       | _, _ => false))

/-- Every access of a thread of a group in flight or logged on a core: its number and itself; for a store, whether a fault holds it. -/
def accsOf (x : Core) (t g : Nat) : List (Nat × Access × Bool) :=
  (x.loads.filter (fun e => e.thread == t && e.group == g)).map (fun e => (e.id, e.acc, false)) ++
    (x.olog.filter (fun e => e.e.thread == t && e.e.group == g)).map (fun e => (e.e.id, e.e.acc, false)) ++
    (x.stores.filter (fun e => e.thread == t && e.group == g)).map (fun e => (e.id, e.acc, e.held))

/-- The group of a thread's access: a store may outstay its group in the slot (R181). -/
def groupOfAcc (s : State) (c t id : Nat) : Nat :=
  match (s.core c).stores.find? (fun e => e.id == id) with
  | some e => e.group
  | none => (s.thread t).group

def orderAcq (a : Access) : Bool := a.order == .acq || a.order == .ar
def orderRel (a : Access) : Bool := a.order == .rel || a.order == .ar
/-- Scopes beyond the group (R261). -/
def wideScope : Scope → Bool
  | .thr => false
  | .grp => false
  | _ => true

def plainStore (a : Access) : Bool := match a.kind with | .store _ => ptrSpace a.ptr == 0 | _ => false

/-- No older access of the thread stands before this one: one to a line it touches or to scratch, an acquiring one, any at all before a
releasing one, an earlier store in device memory before a store there (R248). -/
def accOrdered (s : State) (c part t id : Nat) (a : Access) : Bool :=
  (accsOf (s.core c) t (groupOfAcc s c t id)).all (fun p => decide (id ≤ p.1) ||
    !(linesMeet s c part p.2.1 a || orderAcq p.2.1 || orderRel a || (plainStore p.2.1 && plainStore a && !p.2.2)))

/-- A stack that trains or has failed stands before the access (R415), or an uncorrectable error before what it reads (R411); the L1
serves a plain store, and a load that hits. -/
def stackStops (s : State) (c : Nat) (a : Access) (l : Loc) : Bool :=
  let stack := hbmHeld s l || hbmFailed s l
  match a.kind, l with
  | .store _, _ => stack && a.ch.toNat % 4 == 3
  | .cline _ _, _ => stack
  | .load sz, .hbm pa => stack && !l1Has s c pa (ldBytes sz) || (ueLoad s c l (ldBytes sz)).isSome
  | k, _ => stack || (ueDetail s l k.size).isSome

/-- The place of an access when it can perform: translated by a TLB entry, on links that are up, in filled scratch. -/
def accPlace (s : State) (c part t : Nat) (a : Access) : Option Loc :=
  let loc : Option Loc :=
    match a.kind with
    | .cline _ pa => some (.hbm pa)
    | _ =>
    if ptrSpace a.ptr = 0 then (tlbHit s c part a.priv (ptrOff a.ptr) a.kind.need).map .hbm
    else match resolve s c part a.priv a.ptr a.kind.need with
      | .ok l => some l
      | .error _ => none
  match loc with
  | none => none
  | some l => if (orderRel a && wideScope a.scope && l1Stuck s c) || (linkFault s (dieOfCore c) l t).isSome || ptrUnfilled s c a.ptr a.kind.size || stackStops s c a l then none else some l

/-- An atomic of an older PC group of the same group and clock, which performs first where both act on one line (R181). -/
def olderSlot (s : State) (c g launch clk batch : Nat) (a : Access) : Bool :=
  let x := s.core c
  let first (g' clk' batch' : Nat) (b : Access) : Bool :=
    g' == g && clk' == clk && decide (batch' < batch) && b.kind.atomic && linesMeet s c (partOfLaunch s launch) b a
  a.kind.atomic && (x.loads.any (fun y => first y.group y.clk y.batch y.acc) || x.stores.any (fun y => !y.held && first y.group y.clk y.batch y.acc))

/-- No access of the thread still to be performed touches a byte of the segments: a copy or engine request reads and writes them
after its thread's earlier accesses (R229, R272). -/
def ownClear (s : State) (c part t : Nat) (segs : List Seg) : Bool :=
  (accsOf (s.core c) t (s.thread t).group).all (fun p =>
    match accResolve s c part p.2.1 with
    | .error _ => segs.all (fun g => g.loc.space != ptrSpace p.2.1.ptr)
    | .ok loc =>
      let a := placeKey s loc
      segs.all (fun g =>
        let b := placeKey s g.loc
        a.1 != b.1 || decide (a.2 + p.2.1.kind.size ≤ b.2) || decide (b.2 + g.len ≤ a.2)))

/-- No acquiring access of the thread is still to be performed: what it would order does not act before it (R264, R272). -/
def acqClear (s : State) (c t : Nat) : Bool := (accsOf (s.core c) t (s.thread t).group).all (fun p => !orderAcq p.2.1)

/-! ### Entries -/

/-- A load, returning atomic or BANKRED enters the core's load queue and the instruction retires (R35, R347). -/
def pushLoad (s0 s : State) (t batch : Nat) (c : Ctl) (acc : Access) (lead : Bool) (d : Reg) (nd : Nat) (aop : DWord) (idx : Nat) :
    State :=
  let th := s0.thread t
  let g := s0.group th.group
  let (id, s) := freshId s
  let e : LoadEntry :=
    { id, thread := t, group := th.group, launch := g.launch, tid := th.tid, pc := th.pc, word := s0.iss.word, acc, d := keepDest lead d, dn := d, nd, aop,
      objIdx := idx, left := c.la.val + 1, batch, clk := s0.clock }
  s.modCore (coreOfThread t) (fun x => { x with loads := x.loads ++ [e] })

/-- The lowest free store-buffer entry. -/
def freeStoreSlot (x : Core) : Option Nat := (List.range 512).find? (fun i => x.stores.all (fun e => e.slot != i))

/-- A store, RED, BANKOP or ATOMF.noret enters the store buffer, if an entry is free (R162). One of class MEM or SCR opens a window of
`win` instructions beside itself (R33). -/
def pushStore (s0 s : State) (t batch : Nat) (acc : Access) (win : Option Nat := none) : Option State :=
  match freeStoreSlot (s.core (coreOfThread t)) with
  | none => none
  | some slot =>
    let th := s0.thread t
    let (id, s) := freshId s
    let e : StoreEntry :=
      { id, slot, thread := t, group := th.group, launch := (s0.group th.group).launch, tid := th.tid, pc := th.pc,
        word := s0.iss.word, acc, batch, clk := s0.clock, win := win.isSome, left := win.getD 0 }
    some (s.modCore (coreOfThread t) (fun x => { x with stores := x.stores ++ [e] }))

/-- Retire with the store accepted, or wait for an entry. -/
def storeOr (s : State) (t : Nat) (r : Option State) : Lane :=
  match r with
  | some s => .retire s
  | none => .hold (waitAgain s t)

/-- An instruction that names an object runs obj_check; `f` continues with an address in bounds, `oob` out of bounds. -/
def withObj (s0 s : State) (t : Nat) (types : List Nat) (need : Rights) (m : MemOp) (size align : Nat)
    (oob : State → Lane) (f : DWord → State → Lane) (bankOnly : Bool := false) : Lane :=
  let th := s0.thread t
  let g := s0.group th.group
  match objCheck s t th g types need m size align bankOnly with
  | none => .uncaptured s (coreOfThread t) (s.partOf t) (objIdx g m.obj)
  | some (_, .trap code addr, _) => .trapA code addr
  | some (_, .out, s) => oob (countOob s t)
  | some (_, .inb addr, s) => if ptrUnfilled s (coreOfThread t) addr size then .hold (waitAgain s t) else f addr s

/-- The address operand as logged: a, or the pair a (R347). -/
def aopOf (t : Thread) (g : Group) (m : MemOp) : DWord :=
  BitVec.ofNat 64 (match m.am with
    | .ij | .x64 => srcNat t g 2 m.a
    | _ => srcNat t g 1 m.a)

def execLd (c : Ctl) (sz : LdSz) (d : VReg) (mem : MemOp) (s : State) : Out :=
  let (b, s) := freshId s
  forOut c (addrUnits mem.a) (fun s0 t s =>
    let th := s0.thread t
    let g := s0.group th.group
    let n := (ldBytes sz)
    withObj s0 s t [1, 2] { r := true } mem n n
      (fun s => retireLate s t c true (.reg (.v d) (ldWords sz (List.replicate n 0))))
      (fun addr s => .retire (pushLoad s0 s t b c
        { kind := .load sz, ptr := addr, data := [], ch := c.ch, priv := s0.privOf t, held := heldAt g addr }
        true (.v d) sz.nregs (aopOf th g mem) (objIdx g mem.obj)))) s

def execSt (c : Ctl) (sz : StSz) (mem : MemOp) (b : Src) (s : State) : Out :=
  let (bt, s) := freshId s
  forOut c (addrUnits mem.a) (fun s0 t s =>
    let th := s0.thread t
    let g := s0.group th.group
    let n := (stBytes sz)
    withObj s0 s t [1, 2] { w := true } mem n n (fun s => .retire s)
      (fun addr s => storeOr s t (pushStore s0 s t bt
        { kind := .store n, ptr := addr, data := srcWords th g sz.nregs b, ch := c.ch, priv := s0.privOf t }))) s

/-- One read of scratch byte `o` under the SRAM injector of its core: a strike is corrected and counted (class 2 of R359). -/
def injScratch (s : State) (c o : Nat) : State :=
  match tfind (s.core c).inj 2 with
  | some i =>
    if i.target = 0 ∧ i.first0 ≤ o ∧ o ≤ i.last0 then
      let r := i.draw
      let s := setInj s c 2 r.2
      if r.1 then rasCount s (dieOfCore c) 0 1 else s
    else s
  | none => s

def injScratchAll (s : State) (c o : Nat) : Nat → State
  | 0 => s
  | n + 1 => injScratchAll (injScratch s c o) c (o + 1) n

/-- An L1 hit or miss of a thread is counted: by its core, and as an event (R403, R405). -/
def l1Count (s : State) (c t : Nat) (hit : Bool) : State := gcEvent (coreCount s c (if hit then 0x19 else 0x1A) 1) (if hit then 7 else 8) t 1

/-- The words at a place for a load of a thread; device memory is read through the L1. -/
def readNow (s : State) (c t part : Nat) (held : Bool) (ch : BitVec 4) (loc : Loc) (n : Nat) : List Byte × State :=
  match loc with
  | .hbm pa =>
    let (bs, hit, s) := l1Load s c part pa n held ch
    (bs, l1Count s c t hit)
  | .scratch d o => (locRead s loc n, injScratchAll s d o n)
  | loc => (locRead s loc n, s)

/-- The L1 of a core serves a read. -/
def l1Serves (s : State) (c : Nat) (loc : Loc) (n : Nat) : Bool :=
  match loc with
  | .hbm pa => l1Has s c pa n
  | _ => false

/-- What stands against a thread's reading `n` bytes of a place at once: code and detail of R342, and whether it is an uncorrectable
error. An error in the L1, and one that the far end answers with, comes with the issue. -/
def readFault (s : State) (c t : Nat) (loc : Loc) (n : Nat) : Option (Nat × Nat × Bool) :=
  let far := if s.iss.bad.any (fun b => match b with | .access u (.linkFail _) => u == t | _ => false) then farFault s (dieOfCore c) loc t true else none
  match (if l1Serves s c loc n then none else placeFault s (dieOfCore c) loc t) with
  | some (code, det) => some (code, det, false)
  | none =>
    match ueLoad s c loc n with
    | some det => some (0x52, det, true)
    | none =>
      match loc with
      | .hbm pa => if l1Has s c pa n && s.iss.bad.contains (.access t (.dataError 2)) then some (0x52, 2, true) else none
      | _ => far.map (fun d => (0x53, d, false))

/-- An instruction that reads at once traps on it, for each thread; an uncorrectable error is counted once, where it lies (R163, R180,
R416). -/
def readTrap (s : State) (t c : Nat) (loc : Loc) (addr : DWord) (f : Nat × Nat × Bool) (count : Bool) : Lane :=
  let at' : Loc := match loc with
    | .hbm pa => if l1Has s c pa 1 then .scratch c 0 else loc
    | l => l
  .done (takeTrap (if f.2.2 && count then countUeAt s at' f.2.1 else s) t f.1 f.2.1 addr 0 false)

/-- Its thread's earlier accesses stand before what an instruction acts on at once. The wait ends with a fault's resolution where one
holds them back, and then no boundary waits for it. -/
def waitAccesses (s : State) (t : Nat) : State :=
  if (loggedOf s t).isEmpty && (storesOf s t).all (fun e => !e.held) then waitAgain s t else waitRoom s t

def ldkKind : LdkSz → LdSz
  | .b32 => .b32 | .b64 => .b64 | .b128 => .b128

/-- One access for the PC group, as for its lowest %tid with a true guard, after the earlier accesses of its threads that it must follow;
every fault is precise for every thread with a true guard (R160, R163). -/
def execLdk (c : Ctl) (sz : LdkSz) (d : KReg) (mem : MemOp) (s : State) : Out :=
  forOut c [8] (fun s0 t s =>
    let lead := (leadOf s0 c).getD t
    let th := s0.thread lead
    let g := s0.group th.group
    let co := coreOfThread t
    let part := s0.partOf t
    let n := (ldkBytes sz)
    match objCheck s t th g [1, 2] { r := true } mem n n with
    | none => .uncaptured s co part (objIdx g mem.obj)
    | some (_, .trap code addr, _) => .trapA code addr
    | some (_, .out, s) => retireLate (if t = lead then countOob s t else s) t c (t == lead) (.nat (.k d) sz.nregs 0)
    | some (_, .inb addr, s) =>
      let acc : Access := { kind := .load (ldkKind sz), ptr := addr, data := [], priv := s0.privOf t }
      let us := s0.iss.members.filter (fun u => guardOf (s0.thread u) c)
      if !us.all (fun u => accOrdered s0 co part u s0.nextId acc) then .hold (waitAccesses s t)
      else if ptrUnfilled s co addr n || ptrWalkHeld s co part addr then .hold (waitAgain s t)
      else
        let s := ptrWalk s co part addr
        match resolve s co part (s0.privOf t) addr needR with
        | .error f => .fail f addr
        | .ok loc =>
          if hbmHeld s loc && !l1Serves s co loc n then .hold (waitAgain s t)
          else
            match readFault s co lead loc n with
            | some f => readTrap s t co loc addr f (t == lead)
            | none =>
              if t = lead then
                let (bs, s) := readNow s co t part (heldAt g addr) c.ch loc n
                retireLate s t c true (.nat (.k d) sz.nregs (leNat bs))
              else retireLate s t c false (.nat (.k d) sz.nregs 0)) s

/-- Scratch checks of R164: the offset, or the trap. -/
def scratchAddr (s : State) (c : Nat) (a : Nat) (imm : Word) (n : Nat) : Except Lane Nat :=
  let x : Int := (a : Int) + imm.toInt
  if x < 0 ∨ x + n > scratchSize (s.core c) then .error (.trapA 0x28 (BitVec.ofNat 64 (2 ^ 60 + (x % 2 ^ 60).toNat)))
  else if x.toNat % n ≠ 0 then .error (.trapA 0x25 (BitVec.ofNat 64 (2 ^ 60 + x.toNat)))
  else .ok x.toNat

def execLds (c : Ctl) (sz : LdSz) (d : VReg) (a : Src) (imm : Word) (s : State) : Out :=
  let (b, s) := freshId s
  forOut c (addrUnits a) (fun s0 t s =>
    let th := s0.thread t
    let g := s0.group th.group
    let co := coreOfThread t
    match scratchAddr s co (srcNat th g 1 a) imm (ldBytes sz) with
    | .error l => l
    | .ok x =>
      if unfilledAt s co x (ldBytes sz) then .hold (waitAgain s t)
      else .retire (pushLoad s0 s t b c { kind := .load sz, ptr := BitVec.ofNat 64 (2 ^ 60 + x), data := [] } true (.v d) sz.nregs
        (BitVec.ofNat 64 (srcNat th g 1 a)) 0)) s

def execSts (c : Ctl) (sz : StSz) (a : Src) (imm : Word) (b : Src) (s : State) : Out :=
  let (bt, s) := freshId s
  forOut c (addrUnits a) (fun s0 t s =>
    let th := s0.thread t
    let g := s0.group th.group
    let co := coreOfThread t
    match scratchAddr s co (srcNat th g 1 a) imm (stBytes sz) with
    | .error l => l
    | .ok x =>
      if unfilledAt s co x (stBytes sz) then .hold (waitAgain s t)
      else storeOr s t (pushStore s0 s t bt
        { kind := .store (stBytes sz), ptr := BitVec.ofNat 64 (2 ^ 60 + x), data := srcWords th g sz.nregs b }
        (some (c.la.val + 1)))) s

/-- The checks of R166 on p = a + sext(IMM32), in order. -/
def rawCheck (s : State) (t : Nat) (a p : DWord) (n : Nat) : Option Lane :=
  let co := coreOfThread t
  let ok := ptrSpace p == ptrSpace a && (match spaceSize s (s.partOf t) (dieOfCore co) p with
    | some sz => decide (spaceOff p < sz)
    | none => false)
  if !s.privOf t then some (.trapC 0x26)
  else if !ok then some (.trapA 0x27 p)
  else if ptrSpace p = 1 ∧ ptrOff p + n > scratchSize (s.core co) then some (.trapA 0x28 p)
  else if ptrOff p % n ≠ 0 then some (.trapA 0x25 p)
  else none

def execLdg (c : Ctl) (sz : LdSz) (d : VReg) (a : Reg) (imm : Word) (s : State) : Out :=
  let (b, s) := freshId s
  forOut c (unitsFor a [1]) (fun s0 t s =>
    let th := s0.thread t
    let g := s0.group th.group
    let x := regD th g a
    let p := x + sxImm imm
    match rawCheck s t x p (ldBytes sz) with
    | some l => l
    | none =>
      if ptrUnfilled s (coreOfThread t) p (ldBytes sz) then .hold (waitAgain s t)
      else .retire (pushLoad s0 s t b c
        { kind := .load sz, ptr := p, data := [], ch := c.ch, priv := true, held := heldAt g p } true (.v d) sz.nregs x 0)) s

def execStg (c : Ctl) (sz : StSz) (a : Reg) (imm : Word) (b : Src) (s : State) : Out :=
  let (bt, s) := freshId s
  forOut c (unitsFor a [1]) (fun s0 t s =>
    let th := s0.thread t
    let g := s0.group th.group
    let x := regD th g a
    let p := x + sxImm imm
    match rawCheck s t x p (stBytes sz) with
    | some l => l
    | none =>
      if ptrUnfilled s (coreOfThread t) p (stBytes sz) then .hold (waitAgain s t)
      else storeOr s t (pushStore s0 s t bt
        { kind := .store (stBytes sz), ptr := p, data := srcWords th g sz.nregs b, ch := c.ch, priv := true })) s

/-- PRF requests a line of device memory; any failure, or another space, drops it (R167; its need R and size 1, and that under a held object
it makes a remote copy as a load does, R257: DESIGN CHOICE, log entry 87). Out of bounds under BMODE ZERO it is counted, as every such access is (R159). -/
def prfLine (s0 s : State) (t : Nat) (l2 : Bool) (mem : MemOp) : State × Bool :=
  let th := s0.thread t
  let co := coreOfThread t
  let part := s0.partOf t
  match objCheck s t th (s0.group th.group) [1, 2] { r := true } mem 1 1 with
  | some (_, .inb addr, s') =>
    if ptrSpace addr = 0 then
      match translate s' co part (s0.privOf t) (ptrOff addr) needR with
      | .ok pa =>
        if (placeFault s' (dieOfCore co) (.hbm pa)).isSome || hbmHeld s' (.hbm pa) || (ueLoad s' co (.hbm pa) 1).isSome || walkHeld s' co part (ptrOff addr) ||
            (walkLink s' co part (ptrOff addr)).isSome then (s', false)
        else if l2 then (homeUse (walkNow s' co part (ptrOff addr)) part pa, true)
        else ((l1Load (walkNow s' co part (ptrOff addr)) co part pa 1 (heldAt (s0.group th.group) addr) 0).2.2, true)
      | .error _ => (s', false)
    else (s', false)
  | some (_, .out, s') => (countOob s' t, false)
  | some (_, .trap _ _, s') => (s', false)
  | none => (s, false)

def execPrf (c : Ctl) (l2 : Bool) (mem : MemOp) (s : State) : Out :=
  forOut c [] (fun s0 t s =>
    let (s, got) := prfLine s0 s t l2 mem
    let s := coreCount s (coreOfThread t) (if got then 0x17 else 0x18) 1
    .retire (gcEvent s (if got then 0xB else 0xC) t 1)) s

/-- Remote copies of a line leave every sector. -/
def dropAllCopies (s : State) (l : Nat) : State :=
  { s with dies := tmap (fun _ d => (List.range 3).foldl (fun d sec => dropCopyOf d sec l) d) s.dies }

/-- The line operation on device memory (R168). -/
def clineAct (s : State) (c part : Nat) (op : ClineOp) (pa : Nat) : State :=
  let l := lineNo pa
  match op with
  | .wb => l1Flush s c part l
  | .inv | .wbinv => dropCopy (l1Drop s c part l) c l
  | .zero =>
    let s := homeUse { s with hbm := mclear s.hbm (128 * l) 128 } part pa
    dropAllCopies (s.modCore c (fun x => { x with l1d := tdel l x.l1d })) l

/-- A line operation in device memory is translated at issue and waits in the store buffer, where it follows the thread's earlier
accesses to the line and its data and link errors are imprecise (R168, R180); elsewhere only .zero acts, as 128 B of stores. -/
def execCline (c : Ctl) (op : ClineOp) (mem : MemOp) (s : State) : Out :=
  let (bt, s) := freshId s
  forOut c (addrUnits mem.a) (fun s0 t s =>
    let co := coreOfThread t
    let part := s0.partOf t
    let zero := op == .zero
    let n := if zero then 128 else 1
    withObj s0 s t [1, 2] { r := !zero, w := zero } mem n n (fun s => .retire s)
      (fun addr s =>
        if ptrSpace addr = 4 then .trapA 0x27 addr
        else if ptrSpace addr = 0 then
          if ptrWalkHeld s co part addr then .hold (waitAgain s t)
          else
          let s := ptrWalk s co part addr
          match resolve s co part (s0.privOf t) addr (if zero then needW else needR) with
          | .ok (.hbm pa) => storeOr s t (pushStore s0 s t bt { kind := .cline op pa, ptr := addr, data := [], priv := s0.privOf t }
            (some (c.la.val + 1)))
          | .ok _ => .retire s
          | .error f => .fail f addr
        else if zero then storeOr s t (pushStore s0 s t bt
          { kind := .store 128, ptr := addr, data := List.replicate 32 0, priv := s0.privOf t }
          (some (c.la.val + 1)))
        else .retire s)) s

/-- Half of the captured entry (R169). -/
def execObjrd (c : Ctl) (hi : Bool) (d : VReg) (obj : ObjSel) (s : State) : Out :=
  forOut c [1] (fun s0 t s =>
    let g := s0.group (s0.thread t).group
    match capture s (coreOfThread t) (s0.partOf t) (objIdx g obj) with
    | none => .uncaptured s (coreOfThread t) (s0.partOf t) (objIdx g obj)
    | some (e, s) => retireLate s t c true (.nat (.v d) 4 (if hi then e / 2 ^ 128 else e % 2 ^ 128))) s

/-- The core's object cache loses the partition's entries (R170). -/
def otsync (s : State) (c part : Nat) : State :=
  s.modCore c (fun x => { x with ocache := x.ocache.filter (fun y => y.1 != part), obad := x.obad.filter (fun y => y.1 != part) })

def execOtsync (c : Ctl) (s : State) : Out :=
  forOut c [] (fun s0 t s => .retire (otsync s (coreOfThread t) (s0.partOf t))) s

end Sys2Proof.Machine
end

