-- ==== Sys2Proof/Machine/Atomics.lean ====
section
/-! DEFINITION. Class 0x8 at issue, and how every access performs at its point of performance (R171 to R179, R246, R248). -/

namespace Sys2Proof.Machine

/-! ### New values -/

/-- R174 at width w. -/
def atomNew (op : AtomOp) (w a b : Nat) : Nat :=
  match op with
  | .add => (a + b) % 2 ^ w
  | .minS => if intOf a w false ≤ intOf b w false then a else b
  | .maxS => if intOf a w false ≥ intOf b w false then a else b
  | .minU => min a b
  | .maxU => max a b
  | .and => a &&& b
  | .or => a ||| b
  | .xor => a ^^^ b
  | .exch => b
  | .inc => if a ≥ b then 0 else a + 1
  | .dec => if a = 0 ∨ a > b then b else a - 1

/-- R176: the new value; no flag reaches a thread. -/
def atomfNew (op : AtomFOp) (a b : Nat) : Nat :=
  match op with
  | .addF32 => (fAdd f32 .rn a b).1
  | .minF32 => fMin f32 a b
  | .maxF32 => fMax f32 a b
  | .addF64 => (fAdd f64 .rn a b).1
  | .minF64 => fMin f64 a b
  | .maxF64 => fMax f64 a b
  | .addF16x2 => (packed (fun x y _ => fAdd f16 .rn x y) a b 0).1
  | .addBf16x2 => (packed (fun x y _ => fAdd bf16 .rn x y) a b 0).1

/-- One element of R178. -/
def bankElem (op : BankOp) (ty : BankTy) (x y : Nat) : Nat :=
  match op with
  | .add => if ty = .f32 then (fAdd f32 .rn x y).1 else (x + y) % 2 ^ 32
  | .mul => if ty = .f32 then (fMul f32 .rn x y).1 else x * y % 2 ^ 32
  | .min =>
    match ty with
    | .f32 => fMin f32 x y
    | .s32 => if intOf x 32 false ≤ intOf y 32 false then x else y
    | _ => min x y
  | .max =>
    match ty with
    | .f32 => fMax f32 x y
    | .s32 => if intOf x 32 false ≥ intOf y 32 false then x else y
    | _ => max x y
  | .and => x &&& y
  | .or => x ||| y
  | .xor => x ^^^ y
  | .set => y

/-- The fold of R179. -/
def bankredVal (op : BankOp) (ty : BankTy) (xs : List Nat) : Nat :=
  match xs with
  | [] => 0
  | x :: rest =>
    if ty = .f32 ∧ op = .add then (deliver f32 .rn false (sumV ((x :: rest).map f32.dec)).1).1
    else
      let y := rest.foldl (bankElem op ty) x
      if ty = .f32 ∧ (op = .min ∨ op = .max ∨ op = .mul) then canonNan f32 y else y

/-! ### Performing an access -/

def wordsNat (ws : List Word) : Nat := leNat (bytesOfWords ws)

/-- The new contents an atomic leaves, from the old. -/
def AccKind.rmw (k : AccKind) (data : List Word) (old : Nat) : Nat :=
  let b := wordsNat data
  match k with
  | .atom op w => atomNew op (if w then 64 else 32) old (b % 2 ^ (if w then 64 else 32))
  | .cas w =>
    let n := if w then 64 else 32
    if old = b % 2 ^ n then b / 2 ^ n % 2 ^ n else old
  | .atomf op => atomfNew op old (b % 2 ^ (8 * atomfBytes op))
  | .bankop op ty =>
    (List.range 4).foldl (fun x i =>
      x + bankElem op ty (old / 2 ^ (32 * i) % 2 ^ 32) (b / 2 ^ (32 * i) % 2 ^ 32) * 2 ^ (32 * i)) 0
  | _ => old

/-- What .rel and .ar do before, and .acq and .ar after, at scopes beyond the group. -/
def releaseAt (s : State) (c part : Nat) (sc : Scope) (o : Order) : State :=
  if wideScope sc && (o == .rel || o == .ar) then l1FlushAll s c part else s
def acquireAt (s : State) (c : Nat) (sc : Scope) (o : Order) : State :=
  if wideScope sc && (o == .acq || o == .ar) then l1InvalidateClean s c else s

/-- The access performs at a place: the words it returns and the state. A device-memory atomic first writes back the core's
dirty bytes of the line (R172), which then leaves the L1, so that the thread reads no older value (log entry 8). `t` is the access's
thread, whose counters count it. -/
def performAcc (s : State) (c t part : Nat) (acc : Access) (loc : Loc) : List Word × State :=
  let n := acc.kind.size
  let s := releaseAt s c part acc.scope acc.order
  let (ws, s) : List Word × State :=
    match acc.kind with
    | .load sz =>
      let (bs, s) := readNow s c t part acc.held acc.ch loc n
      (ldWords sz bs, s)
    | .bankred op ty k =>
      let x := locNat s loc n
      (natWords 1 (bankredVal op ty ((List.range k).map (fun i => x / 2 ^ (32 * i) % 2 ^ 32))), s)
    | .store _ =>
      let bs := (bytesOfWords acc.data).take n
      match loc with
      | .hbm pa => ([], l1Store (l1Count s c t (tfind (s.core c).l1d (lineNo pa)).isSome) c part pa bs acc.ch)
      | loc => ([], locWrite s loc bs)
    | .cline op pa => ([], clineAct s c part op pa)
    | k =>
      let s := match loc with
        | .hbm pa => barCopy (l1Drop s c part (lineNo pa)) c (lineNo pa)
        | .scratch d o => injScratchAll s d o n
        | _ => s
      let s := locUse s part loc (chL2 acc.ch)
      let old := locNat s loc n
      (natWords (n / 4) old, locWrite s loc (leBytes n (k.rmw acc.data old)))
  (ws, acquireAt s c acc.scope acc.order)

/-! ### Atomic and bank instructions at issue -/

/-- The traps an address of an atomic meets by its space: host windows, and floating-point operations on remote memory
(R172, R381). -/
def atomSpaceTrap (addr : DWord) (float : Bool) : Option Lane :=
  if ptrSpace addr = 4 ∨ (float ∧ ptrSpace addr = 3) then some (.trapA 0x27 addr) else none

/-- The threads of a PC group execute an atomic together (R173): none waits for a scratch way, and the store buffer has room for all
where the atomic returns nothing. -/
def atomReady (c : Ctl) (need : Rights) (m : MemOp) (size : Nat) (bank store : Bool) (s0 : State) (t : Nat) : Bool :=
  let co := coreOfThread t
  let th := s0.thread t
  let n := (s0.iss.members.filter (fun u => guardOf (s0.thread u) c)).length
  (!store || decide ((s0.core co).stores.length + n ≤ 512)) &&
    (match objCheck s0 t th (s0.group th.group) [1, 2] need m size size bank with
     | some (_, .inb addr, _) => !ptrUnfilled s0 co addr size
     | _ => true)

/-- A returning atomic. -/
def execAtomic (c : Ctl) (kind : AccKind) (float : Bool) (sc : Scope) (ord : Order) (d : Reg) (nd : Nat) (mem : MemOp0)
    (data : Thread → Group → List Word) (s : State) : Out :=
  let (b, s) := freshId s
  forOut c (unitsFor d (addrUnits mem.a)) (gated c (atomReady c { a := true } (memOf mem) kind.size false false) waitAgain (fun s0 t s =>
    let th := s0.thread t
    let g := s0.group th.group
    let lead := leadOf s0 c == some t
    withObj s0 s t [1, 2] { a := true } (memOf mem) kind.size kind.size (fun s => retireLate s t c lead (.nat d nd 0))
      (fun addr s =>
        match atomSpaceTrap addr float with
        | some l => l
        | none => .retire (pushLoad s0 s t b c
            { kind, ptr := addr, data := data th g, scope := sc, order := ord, ch := c.ch, priv := s0.privOf t }
            lead d nd (aopOf th g (memOf mem)) (objIdx g mem.obj))))) s

/-- An atomic that returns nothing. -/
def execReduce (c : Ctl) (kind : AccKind) (float bank : Bool) (sc : Scope) (ord : Order) (mem : MemOp0)
    (data : Thread → Group → List Word) (s : State) : Out :=
  let (b, s) := freshId s
  forOut c (addrUnits mem.a) (gated c (atomReady c { a := true } (memOf mem) kind.size bank true) waitAgain (fun s0 t s =>
    let th := s0.thread t
    let g := s0.group th.group
    withObj s0 s t [1, 2] { a := true } (memOf mem) kind.size kind.size (fun s => .retire s)
      (fun addr s =>
        match atomSpaceTrap addr float with
        | some l => l
        | none => storeOr s t (pushStore s0 s t b
            { kind, ptr := addr, data := data th g, scope := sc, order := ord, ch := c.ch, priv := s0.privOf t })) bank)) s

def execAtom (c : Ctl) (op : AtomOp) (w64 : Bool) (sc : Scope) (ord : Order) (d : Reg) (mem : MemOp0) (b : Src) (s : State) :
    Out :=
  execAtomic c (.atom op w64) false sc ord d (nregs64 w64) mem (fun t g => srcWords t g (nregs64 w64) b) s

def execAtomcas (c : Ctl) (w64 : Bool) (sc : Scope) (ord : Order) (d : Reg) (mem : MemOp0) (b : Reg) (s : State) : Out :=
  execAtomic c (.cas w64) false sc ord d (nregs64 w64) mem (fun t g => regWords t g (2 * nregs64 w64) b) s

def execRed (c : Ctl) (op : AtomOp) (w64 : Bool) (sc : Scope) (ord : Order) (mem : MemOp0) (b : Src) (s : State) : Out :=
  execReduce c (.atom op w64) false false sc ord mem (fun t g => srcWords t g (nregs64 w64) b) s

/-- The operand of ATOMF: a constant is expanded to the operation's type (R67). -/
def atomfArg (op : AtomFOp) (t : Thread) (g : Group) (b : Src) : List Word :=
  match op with
  | .addF32 | .minF32 | .maxF32 => natWords 1 (srcF32 t g b)
  | .addF64 | .minF64 | .maxF64 => natWords 2 (srcF64 t g b)
  | .addF16x2 | .addBf16x2 => natWords 1 (srcH2 t g b)

def execAtomf (c : Ctl) (op : AtomFOp) (noret : Bool) (sc : Scope) (ord : Order) (d : Reg) (mem : MemOp0) (b : Src) (s : State) :
    Out :=
  if noret then execReduce c (.atomf op) true false sc ord mem (fun t g => atomfArg op t g b) s
  else execAtomic c (.atomf op) true sc ord d (atomfBytes op / 4) mem (fun t g => atomfArg op t g b) s

def execBankop (c : Ctl) (op : BankOp) (ty : BankTy) (sc : Scope) (ord : Order) (mem : MemOp0) (b : Reg) (s : State) : Out :=
  execReduce c (.bankop op ty) false true sc ord mem (fun t g => regWords t g 4 b) s

/-- The three checks of R179, in order. -/
def execBankred (c : Ctl) (op : BankOp) (ty : BankTy) (sc : Scope) (ord : Order) (d : Reg) (mem : MemOp0) (n : Src) (s : State) :
    Out :=
  let (b, s) := freshId s
  forOut c (unitsFor d (addrUnits mem.a)) (fun s0 t s =>
    let th := s0.thread t
    let g := s0.group th.group
    let k := srcNat th g 1 n
    let lead := leadOf s0 c == some t
    if k = 0 ∨ 32 < k then .trapC 0x29
    else
      withObj s0 s t [1, 2] { r := true } (memOf mem) (4 * k) 4 (fun s => retireLate s t c lead (.nat d 1 0))
        (fun addr s =>
          if addr.toNat / 128 ≠ (addr.toNat + 4 * k - 1) / 128 then .trapA 0x29 addr
          else .retire (pushLoad s0 s t b c
            { kind := .bankred op ty k, ptr := addr, data := [BitVec.ofNat 32 k], scope := sc, order := ord, ch := c.ch, priv := s0.privOf t }
            lead d 1 (aopOf th g (memOf mem)) (objIdx g mem.obj))) true) s

end Sys2Proof.Machine
end

