-- ==== Sys2Proof/Machine/MemEvents.lean ====
section
/-! DEFINITION. The core's and the walker's own steps: accesses performing or failing, object-cache and TLB fills, results of the
SFU and divider, instruction lines, scratch fills, the ends of sleeps, held records (R136, R137, R156, R160, R180, R254,
R344, R347 to R351, R363). An event that is not enabled leaves the state as it is. -/

namespace Sys2Proof.Machine

/-! ### LOAD_COMPLETE -/

/-- Results reach the registers of a thread, and the snapshots of its instructions in flight, which stand for the thread
before them (R344). -/
def writeResult (s : State) (t : Nat) (d : Option Reg) (ws : List Word) : State :=
  let s := writeOpt s t d ws
  match d with
  | some (.v n) => s.modCore (coreOfThread t) (fun x => { x with
      sfu := x.sfu.map (fun e => if e.thread == t then { e with before := vwrites n.val ws e.before } else e) })
  | _ => s

/-- One load performs at its place, writes its destination and leaves the queue. -/
def loadAt (s : State) (c : Nat) (e : LoadEntry) (loc : Loc) : State :=
  let (ws, s') := performAcc s c e.thread (partOfLaunch s e.launch) e.acc loc
  let s' := s'.modCore c (fun x => { x with loads := x.loads.filter (fun y => y.id != e.id) })
  writeResult s' e.thread e.d ws

/-- In a DET launch the accesses of a group perform in one order, those of a PC group in ascending %tid (R339; DEDUCED, log entry 30). -/
def detTurn (s : State) (c g launch id batch : Nat) (a : Access) : Bool :=
  let x := s.core c
  let later (g' id' batch' : Nat) : Bool := g' != g || decide (id ≤ id') || (a.kind.atomic && batch' == batch)
  !((tfind s.launches launch).map (·.detOn)).getD false ||
    (x.loads.all (fun y => later y.group y.id y.batch) && x.stores.all (fun y => y.held || later y.group y.id y.batch))

def loadReady (s : State) (c : Nat) (e : LoadEntry) : Option Loc :=
  if detTurn s c e.group e.launch e.id e.batch e.acc && accOrdered s c (partOfLaunch s e.launch) e.thread e.id e.acc && !olderSlot s c e.group e.launch e.clk e.batch e.acc then accPlace s c (partOfLaunch s e.launch) e.thread e.acc else none

/-- Those that perform together with an entry: the atomics of its PC group in ascending %tid (R173), or itself. -/
def loadBatch (x : Core) (e : LoadEntry) : List LoadEntry :=
  if e.acc.kind.atomic then x.loads.filter (fun y => y.batch == e.batch) else [e]

/-- The loads of a PC group ask their home slices together, when the first of them is served (DEDUCED, log entry 99). -/
def batchAsk (s : State) (c : Nat) (e : LoadEntry) : State :=
  let es := (s.core c).loads.filter (fun y => y.batch == e.batch && y.id != e.id && !y.asked && y.acc.kind.isLoad && !y.acc.held)
  if es.isEmpty then s
  else
    let part := partOfLaunch s e.launch
    let s := es.foldl (fun s y => match accResolve s c part y.acc with
      | .ok (.hbm pa) => if l1Has s c pa y.acc.kind.size || hbmHeld s (.hbm pa) then s else homeUse s part pa (chL2 y.acc.ch)
      | _ => s) s
    s.modCore c (fun x => { x with loads := x.loads.map (fun y => if y.batch == e.batch then { y with asked := true } else y) })

/-- A result that waits to be written reaches its thread, once it is known and the older SFU- and DIV-class instructions of the thread have passed
their checkers (R344). -/
def lateAt (s : State) (c : Nat) (e : LateEntry) : State :=
  if !e.ready || (s.core c).sfu.any (fun y => y.thread == e.thread && decide (y.id < e.id)) then s
  else
    let s := s.modCore c (fun x => { x with late := x.late.filter (fun y => y.id != e.id) })
    let put (x : Thread) : Thread := { e.preds.foldl (fun x p => qwrite p.1 p.2 x) x with fpflags := x.fpflags ||| e.flags }
    let s := (s.modThread e.thread put).modCore c (fun x => { x with
      sfu := x.sfu.map (fun y => if y.thread == e.thread then { y with before := put y.before } else y) })
    e.regs.foldl (fun s p => writeResult s e.thread (some p.1) p.2) s

/-- A load performs; or the result of another long-latency instruction is written. -/
def execLoadComplete (core id : Nat) (s : State) : Out :=
  match (s.core core).loads.find? (fun e => e.id == id) with
  | none => .next (match (s.core core).late.find? (fun e => e.id == id) with
    | some e => lateAt s core e
    | none => s)
  | some e =>
    let es := loadBatch (s.core core) e
    if es.all (fun y => (loadReady s core y).isSome) then
      .next (es.foldl (fun s' y => match loadReady s core y with
        | some loc => loadAt s' core y loc
        | none => s') (batchAsk s core e))
    else .next s

/-! ### STORE_PERFORM -/

def storeReady (s : State) (c : Nat) (e : StoreEntry) : Option Loc :=
  if !e.held && detTurn s c e.group e.launch e.id e.batch e.acc && accOrdered s c (partOfLaunch s e.launch) e.thread e.id e.acc && !olderSlot s c e.group e.launch e.clk e.batch e.acc then accPlace s c (partOfLaunch s e.launch) e.thread e.acc else none

/-- A store-buffer entry leaves; its GEN advances (R346), and a group barrier that waited for it may complete. -/
def dropStore (s : State) (c : Nat) (e : StoreEntry) : State :=
  let s := s.modCore c (fun x => { x with
    stores := x.stores.filter (fun y => y.id != e.id)
    egens := tset e.slot ((tget 0 x.egens e.slot + 1) % 2 ^ 13) x.egens })
  if (s.liveOf e.group).isEmpty then s
  else ((s.group e.group).bars.filter (fun p => !p.2.closing.isEmpty)).foldl (fun s p => barSettle s e.group p.1) s

/-- A store of a swapped-out launch finds the launch's own scratch (R181). -/
def storeAt (s : State) (c : Nat) (e : StoreEntry) (loc : Loc) : State :=
  dropStore (withScratch s e.launch (fun s => (performAcc s c e.thread (partOfLaunch s e.launch) e.acc loc).2)) c e

def storeBatch (x : Core) (e : StoreEntry) : List StoreEntry :=
  if e.acc.kind.atomic then x.stores.filter (fun y => y.batch == e.batch && !y.held) else [e]

/-- The detail of DATA_ERROR names storage that serves the place: HBM or its slice, bank memory, scratch (R342). A stack that trains
holds the access; of one whose training failed the detail is 1 (R415). -/
def dataErrorFits (s : State) (loc : Loc) (d : Nat) : Bool :=
  match loc with
  | .hbm _ => !hbmHeld s loc && (d == 1 || (d == 2 && !hbmFailed s loc))
  | .bank .. => d == 3
  | .scratch .. => d == 4
  | _ => false

/-- The failure an event names, if it stands: code, detail and what stage 2 adds (R180, R342). -/
def failOf (s : State) (c part t : Nat) (a : Access) (why : AccFail) : Option AFail :=
  match why with
  | .xlate =>
    match accResolve s c part a with
    | .error f => if f.code = 0x53 then none else some f
    | .ok _ => none
  | .dataError d =>
    match accResolve s c part a with
    | .ok loc =>
      let l1 := a.kind.isLoad && l1Serves s c loc a.kind.size
      if (l1 && d == 2) || (!l1 && dataErrorFits s loc d) then some ⟨0x52, d, 0, false⟩ else none
    | .error _ => none
  | .linkFail _ =>
    match accResolve s c part a with
    | .ok loc => ((linkFault s (dieOfCore c) loc t).or (farFault s (dieOfCore c) loc t a.kind.isLoad)).map (fun d => ⟨0x53, d, 0, false⟩)
    | .error f => if f.code = 0x53 then some f else none

/-- The uncorrectable error that fails an access is counted where it lies: at its place, in the core's L1, or in a table its walk reads
(R343, R416). A stack whose training failed has none. -/
def countUe (s : State) (c part : Nat) (a : Access) (f : AFail) : State :=
  if f.code = 0x52 then
    match accResolve s c part a with
    | .ok loc =>
      if a.kind.isLoad && l1Serves s c loc a.kind.size then rasCount s (dieOfCore c) 1 1
      else if hbmFailed s loc then s else countUeAt s loc f.detail
    | .error _ => s
  else if (f.code = 0x50 ∨ f.code = 0x51) ∧ f.detail % 8 = 5 then countWalkUe s part (ptrOff a.ptr)
  else s

/-- The group of an entry has exited (R350): none of its threads is left, on its core or saved. -/
def groupExited (s : State) (g : Nat) : Bool :=
  (s.liveOf g).isEmpty && (match tfind s.launches (s.group g).launch with
    | some l => match tfind l.ctx (s.group g).core with
      | some x => x.threads.all (fun p => p.2.group != g || p.2.run == .exited)
      | none => true
    | none => true)

/-- The record of a store-buffer entry's fault; `flags` are those beside IMPRECISE. -/
def storeRec (s : State) (c : Nat) (e : StoreEntry) (f : AFail) (flags serial : Nat) : FRec :=
  { serial, code := f.code, detail := f.detail
    flags := 4 + 8 * (groupExited s e.group).toNat + 16 * f.s1walk.toNat + flags
    die := dieOfCore c, core := coreInDie c
    launchId := match tfind s.launches e.launch with | some l => l.id | none => 0
    tid := e.tid, grp := (s.group e.group).grp, pc := e.pc.toNat, addr := e.acc.ptr.toNat, gpa := f.gpa
    handle := entryHandle s c e.slot, time := (s.die (dieOfCore c)).dlclk }

/-- An imprecise fault: reported once, the entry stays held (R180, R350). -/
def faultStore (s : State) (c : Nat) (e : StoreEntry) (f : AFail) : State :=
  let (serial, s) := freshId s
  let r := storeRec s c e f 0 serial
  let s := s.modCore c (fun x => { x with stores := x.stores.map (fun y => if y.id == e.id then { y with held := true } else y) })
  sendRec (countUe s c (partOfLaunch s e.launch) e.acc f) (partOfLaunch s e.launch) e.launch r

def execStorePerform (core id : Nat) (why : Option AccFail) (s : State) : Out :=
  match (s.core core).stores.find? (fun e => e.id == id) with
  | none => .next s
  | some e =>
    match why with
    | none =>
      let es := storeBatch (s.core core) e
      if es.all (fun y => (storeReady s core y).isSome) then
        .next (es.foldl (fun s' y => match storeReady s core y with
          | some loc => storeAt s' core y loc
          | none => s') s)
      else .next s
    | some w =>
      if e.held || !accOrdered s core (partOfLaunch s e.launch) e.thread e.id e.acc then .next s
      else
        match failOf s core (partOfLaunch s e.launch) e.thread e.acc w with
        | some f => .next (faultStore s core e f)
        | none => .next s

/-! ### ACCESS_LOGGED -/

/-- The record of a deferred fault. -/
def loadRec (s : State) (c : Nat) (e : LoadEntry) (f : AFail) (flags logIdx serial : Nat) : FRec :=
  mkRec s e.thread f.code f.detail (2 + 16 * f.s1walk.toNat + flags) e.pc e.acc.ptr f.gpa (handleOf s e.thread) logIdx serial
    |> fun r => { r with die := dieOfCore c, core := coreInDie c }

/-- A thread's latest record (R354). -/
def setLastRec (s : State) (t : Nat) (f : FRec) : State := s.modThread t (fun x => { x with lastRec := some f })

/-- The access is logged: it takes an entry of the operand log, or keeps its place while the log is full, its record is sent and
the group's region disarmed (R347, R349, R368). -/
def logAccess (s : State) (c : Nat) (e : LoadEntry) (f : AFail) : State :=
  let x := s.core c
  let room := logCount x < 64
  let idx := (x.olog.filter (fun y => y.e.thread == e.thread && y.inLog)).length
  let (serial, s) := freshId s
  let r := loadRec s c e f 0 (if room then idx else 255) serial
  let s := s.modCore c (fun x => { x with
    loads := x.loads.filter (fun y => y.id != e.id)
    olog := x.olog ++ [{ e, replaying := false, stage2 := toSecure f.code f.detail, detail := f.detail, inLog := room }] })
  let s := setLastRec (disarm s e.group) e.thread r
  sendRec (countUe s c (partOfLaunch s e.launch) e.acc f) (partOfLaunch s e.launch) e.launch r

/-- The thread waits in its EXIT. -/
def exiting (th : Thread) : Bool :=
  match th.run, th.held with
  | .waiting .finish, some h => (match decodeWord h.word with | .ok (.exit _) => true | _ => false)
  | _, _ => false

/-- A load leaves without effect: what a thread that has reached its EXIT would log is discarded (R134). -/
def dropLoad (s : State) (c : Nat) (e : LoadEntry) : State :=
  s.modCore c (fun x => { x with loads := x.loads.filter (fun y => y.id != e.id) })

def execAccessLogged (core id : Nat) (why : AccFail) (s : State) : Out :=
  match (s.core core).loads.find? (fun e => e.id == id) with
  | none => .next s
  | some e =>
    if !accOrdered s core (partOfLaunch s e.launch) e.thread e.id e.acc then .next s
    else
      match failOf s core (partOfLaunch s e.launch) e.thread e.acc why with
      | some f => .next (if (s.thread e.thread).run = .exited || exiting (s.thread e.thread) then dropLoad s core e else logAccess s core e f)
      | none => .next s

/-! ### Fills and walks -/

inductive Fetched where
  | fault (f : XFail)
  /-- The walk or the line cannot be had: code and detail of R342, and the place that has the uncorrectable error behind it. -/
  | lost (code detail : Nat) (bad : Option Loc)
  | miss
  | word (w : IWord)

/-- The word at byte `i` of a line. -/
def lineWord (x : Line) (i : Nat) : IWord := x.extractLsb' (8 * i) 128

/-- The thread's next word (R68, R69): its page translates and grants X, and its line is in the core's instruction cache. A walk for its
page comes first, unless it fails; a walk or a line behind a bridge that is down, a failed stack or an uncorrectable error fails as
that (R383, R411, R415; DEDUCED, log entry 109). -/
def fetchOf (s : State) (t : Nat) : Fetched :=
  let c := coreOfThread t
  let part := s.partOf t
  let pc := (s.thread t).pc.toNat
  match walkLink s c part pc with
  | some d => .lost 0x53 d none
  | none =>
  match translate s c part (s.privOf t) pc needX with
  | .error f => if walkHeld s c part pc then .miss else .fault f
  | .ok pa =>
    if (tlbFind s c part pc).isNone then .miss
    else
      match tfind (s.core c).l1i (lineNo pa) with
      | none => match lineFault s c (lineNo pa) with
        | some f => .lost f.1 f.2 (if f.1 = 0x52 ∧ !hbmFailed s (.hbm pa) then some (.hbm pa) else none)
        | none => .miss
      | some x => .word (lineWord x (pa % 128))

/-- A thread of the core is about to name the object, which its object cache lacks. -/
def fillAwaited (s : State) (c part idx : Nat) : Bool :=
  !(s.core c).ocache.any (fun y => y.1 == part && y.2.1 == idx) &&
    s.threads.any (fun p => coreOfThread p.1 == c && s.partOf p.1 == part && p.2.run == .running &&
      (match fetchOf s p.1 with
       | .word w => (wordObjs s p.1 w).contains idx
       | _ => false))

/-- The entry is read from the table by physical address, or its fill meets an uncorrectable error (R156, R180). -/
def execObjectCacheFill (core part idx : Nat) (err : Bool) (s : State) : Out :=
  let idx := idx % 2 ^ 16
  if !fillAwaited s core part idx || hbmHeld s (otLoc s part idx) then .next s
  else if err then .next (s.modCore core (fun x => { x with obad := (part, idx) :: x.obad }))
  else .next (clearBad (ocacheFill s core part idx) core part idx)

/-- An access in the core's queues, or a thread's next fetch, awaits the walk for an address. -/
def walkAwaited (s : State) (c part va : Nat) : Bool :=
  let x := s.core c
  let mine (launch : Nat) (a : Access) : Bool := partOfLaunch s launch == part && ptrSpace a.ptr == 0 && ptrOff a.ptr == va
  x.loads.any (fun e => mine e.launch e.acc) || x.stores.any (fun e => mine e.launch e.acc) ||
    s.threads.any (fun p => coreOfThread p.1 == c && s.partOf p.1 == part && p.2.run != .exited && p.2.pc.toNat == va)

/-- The walk for an address that no TLB entry covers ends: its table reads were served by their home slices, and a combined
translation is installed (R363). A read that a stack in training holds is awaited (R415). -/
def execPageWalk (core part va : Nat) (s : State) : Out :=
  if (tlbFind s core part va).isSome || walkHeld s core part va || !walkAwaited s core part va then .next s
  else
    match walk s part true va {} with
    | .ok _ => .next (walkNow s core part va)
    | .error _ => .next s

/-- The partition that owns a cluster (R372). -/
def partOfCluster (s : State) (k : Nat) : Nat :=
  match s.parts.find? (fun p => flag (p.2.pclu.getD (dieOfCluster k) 0) (k % clustersPerDie)) with
  | some p => p.1
  | none => 0

/-- The physical line a thread fetches from next, once its page's walk has ended and grants X. -/
def fetchLineNo (s : State) (t : Nat) : Option Nat :=
  (tlbHit s (coreOfThread t) (s.partOf t) (s.privOf t) (s.thread t).pc.toNat needX).map lineNo

/-- An instruction line that a thread waits for enters the L1 instruction cache; one with a parity error is dropped from the
caches and fetched again from its home (R137, R411). -/
def execInstructionLineFill (core line : Nat) (parityErr : Bool) (s : State) : Out :=
  let wanted := s.threads.any (fun p => coreOfThread p.1 == core && p.2.run != .exited && fetchLineNo s p.1 == some line)
  if !wanted || (!parityErr && (tfind (s.core core).l1i line).isSome) || lineHeld s core line || (lineFault s core line).isSome then .next s
  else
    let part := partOfCluster s (clusterOf core)
    let s :=
      if parityErr then
        let s := s.modCore core (fun x => { x with l1i := tdel line x.l1i })
        let s := s.modCluster (clusterOf core) (fun x => { x with l2i := tdel line x.l2i })
        rasCount (s.modDie (dieOfPa (128 * line)) (fun d => { d with l2i := tdel line d.l2i })) (dieOfCore core) 0 1
      else s
    .next (instrFill (coreCount s core 0x1B 1) core part line 0)

/-- The lowest scratch way not yet filled has been filled (R254, R255, R366). -/
def fillWay (s : State) (core : Nat) : State :=
  let x := s.core core
  match (List.range 12).find? (fun w => x.unfilled.getLsbD w) with
  | none => s
  | some w => s.setCore core { x with unfilled := x.unfilled &&& ~~~(BitVec.ofNat 12 (2 ^ w)) }

def execScratchZeroFill (core : Nat) (s : State) : Out := .next (fillWay s core)

/-! ### SFU and DIV results (R344) -/

/-- The arrivals that the thread of an entry has made in cross-lane instances since it issued are cancelled (R146, R344). -/
def withdrawArrivals (s : State) (c : Nat) (e : SfuEntry) : State :=
  let l := laneOf e.thread
  s.modCore c (fun x => { x with cross := x.cross.filterMap (fun y =>
    if y.group == (s.thread e.thread).group && y.turn == turnOf e.thread && y.arrived.getLsbD l && !e.seen.contains (y.pc, y.half) then
      (let a := y.arrived &&& ~~~(BitVec.ofNat 64 (2 ^ l))
       if a = 0 then none else some { y with arrived := a, active := tdel l y.active })
    else some y) })

/-- The oldest SFU- or DIV-class instruction of a thread completes: its result and flags are written, or, when its checker
mismatches, the younger ones are cancelled and the thread parks as it stood before the instruction. -/
def execSfuDivResult (core id : Nat) (bad : Bool) (s : State) : Out :=
  match (s.core core).sfu.find? (fun e => e.id == id) with
  | none => .next s
  | some e =>
    if (s.core core).sfu.any (fun y => y.thread == e.thread && decide (y.id < e.id)) then .next s
    else
      let drawn := injPipe s e.thread [e.punit]
      let s := drawn.2
      if bad || drawn.1.isSome then
        let s := s.modCore core (fun x => { x with
          sfu := x.sfu.filter (fun y => y.thread != e.thread)
          late := x.late.filter (fun y => y.thread != e.thread || decide (y.id < e.id)) })
        let s := withdrawArrivals s core e
        let s := s.modThread e.thread (fun x => { e.before with run := .running, lastRec := x.lastRec, diverted := x.diverted })
        .next (takeTrap s e.thread 8 e.punit 0 0 false)
      else
        let s := s.modCore core (fun x => { x with
          sfu := (x.sfu.filter (fun y => y.id != e.id)).map (fun y =>
            if y.thread == e.thread then { y with before := { y.before with fpflags := y.before.fpflags ||| e.flags } } else y) })
        let s := s.modThread e.thread (fun x => { x with fpflags := x.fpflags ||| e.flags })
        .next (writeResult s e.thread e.d e.res)

/-! ### Sleep, yield, records -/

def execSleepEnd (thread : Nat) (s : State) : Out :=
  match (s.thread thread).run with
  | .sleeping due => .next (if due ≤ s.clock then s.modThread thread (fun x => { x with run := .running }) else s)
  | _ => .next s

def execYieldEnd (thread : Nat) (s : State) : Out :=
  match (s.thread thread).run with
  | .resting due => .next (if due ≤ s.clock then s.modThread thread (fun x => { x with run := .running }) else s)
  | _ => .next s

def execRecordRetry (part : Nat) (s : State) : Out := .next (retryRecords s part (s.part part).heldRecs.length)

end Sys2Proof.Machine
end

