-- ==== Sys2Proof/Machine/CrossLane.lean ====
section
/-! DEFINITION. Class 0x5 and QBLK: arrivals, instances and their completion (R117 to R119, R139 to R145). -/

namespace Sys2Proof.Machine

/-! ### Results of a completed instance -/

/-- Lanes with active arrivals, ascending. -/
def lanesOf (acts : Tbl XArr) : List Nat := acts.map (·.1)

def segLanes (seg : Nat) : Nat := 64 / 2 ^ seg

/-- Source lane of R143, or none when it is out of range. -/
def srcLane (mode : XMode) (g l : Nat) (b : Word) : Option Nat :=
  let base := l - l % g
  match mode with
  | .idx => some (base + b.toNat % g)
  | .dist =>
    let x : Int := (l : Int) + b.toInt
    if x < base ∨ x ≥ base + g then none else some x.toNat
  | .rot => some (base + (l - base + b.toNat) % g)
  | .bfly => some (l ^^^ (b.toNat % 64 &&& (g - 1)))

/-- What a reader of lane `l` receives, and whether the source is active (R142). -/
def readLane (acts : Tbl XArr) (degr : Bool) (g l : Nat) (own : DWord) (src : Option Nat) : DWord × Bool :=
  match src with
  | none => (own, false)
  | some x =>
    match tfind acts x with
    | some y => (y.a, true)
    | none =>
      let base := l - l % g
      let below := acts.filter (fun p => decide (base ≤ p.1) && decide (p.1 < x))
      match degr, below.getLast? with
      | true, some p => (p.2.a, false)
      | _, _ => (own, false)

/-- The set of lanes that satisfy `f`, as bits. -/
def laneSet (acts : Tbl XArr) (f : XArr → Bool) : Nat := (acts.filter (fun p => f p.2)).foldl (fun x p => x + 2 ^ p.1) 0

def redIdentity (op : RedOp) (ty : RedTy) : Nat :=
  match op, ty with
  | .add, _ => 0
  | .min, .s32 => 0x7FFFFFFF
  | .min, .n32 => 0xFFFFFFFF
  | .min, .f32 => 0x7F800000
  | .max, .s32 => 0x80000000
  | .max, .n32 => 0
  | .max, .f32 => 0xFF800000
  | .and, _ => 0xFFFFFFFF
  | .or, _ => 0
  | .xor, _ => 0

/-- One integer combining step of R145. -/
def redInt (op : RedOp) (ty : RedTy) (x y : Nat) : Nat :=
  let signed := ty == .s32
  match op with
  | .add => (x + y) % 2 ^ 32
  | .min => if intOf x 32 (!signed) ≤ intOf y 32 (!signed) then x else y
  | .max => if intOf x 32 (!signed) ≥ intOf y 32 (!signed) then x else y
  | .and => x &&& y
  | .or => x ||| y
  | .xor => x ^^^ y

/-- The combination of values in ascending lane order (R145). -/
def redVals (op : RedOp) (ty : RedTy) (xs : List Nat) : Nat × Fl :=
  match xs with
  | [] => (redIdentity op ty, 0)
  | x :: rest =>
    match ty, op with
    | .f32, .add =>
      let v := sumV ((x :: rest).map f32.dec)
      let o := deliver f32 .rn false v.1
      (o.1, o.2 ||| flIf v.2 flNV)
    | .f32, .min => (canonNan f32 (rest.foldl (fMin f32) x), 0)
    | .f32, .max => (canonNan f32 (rest.foldl (fMax f32) x), 0)
    | _, _ => (rest.foldl (redInt op ty) x, 0)

/-- The word of R119 for element `x` of a block. -/
def qblkWord (f4x : Bool) (sc sp : Nat) (x : Nat) : Nat × Fl :=
  let r := qCode f4x sc sp (f32.dec x)
  (r.1 + sc * 2 ^ 8 + sp * 2 ^ 16, r.2)

/-- What lane `l` of a completed instance receives; `base` is the first lane of a QBLK block. -/
def crossRes (op : Instr) (acts : Tbl XArr) (degr : Bool) (base l : Nat) (x : XArr) : Res :=
  match op with
  | .lxch _ w64 mode seg qe d _ _ _ =>
    let g := segLanes seg.val
    let r := readLane acts degr g l x.a (srcLane mode g l x.b)
    { regs := [(d, natWords (nregs64 w64) r.1.toNat)]
      preds := match qe with | some q => [(q.val, r.2)] | none => [] }
  | .lbcast _ w64 d _ _ _ =>
    let r := readLane acts degr 64 l x.a (some (x.b.toNat % 64))
    .nat d (nregs64 w64) r.1.toNat
  | .lpoll _ form _ _ =>
    let ones := acts.filter (fun p => p.2.p)
    match form with
    | .any q => { preds := [(q.val, !ones.isEmpty)] }
    | .all q => { preds := [(q.val, ones.length == acts.length)] }
    | .uni q => { preds := [(q.val, ones.isEmpty || ones.length == acts.length)] }
    | .mask d => .nat d 2 (laneSet acts (·.p))
    | .count d => .nat d 1 ones.length
  | .lpeer _ _ same d _ _ =>
    if same then .nat d 2 (if acts.all (fun p => p.2.a == x.a) then laneSet acts (fun _ => true) else 0)
    else .nat d 2 (laneSet acts (fun y => y.a == x.a))
  | .lred _ rop ty d _ _ => .fp d 1 (redVals rop ty (acts.map (fun p => p.2.a.toNat)))
  | .lscan _ rop ty excl d _ _ =>
    let part := acts.filter (fun p => if excl then p.1 < l else p.1 ≤ l)
    .fp d 1 (redVals rop ty (part.map (fun p => p.2.a.toNat)))
  | .llead _ hi q _ =>
    let lead := if hi then (lanesOf acts).getLast? else (lanesOf acts).head?
    { preds := [(q.val, lead == some l)] }
  | .qblk _ f4x nosp _ d _ =>
    let xs := (List.range 32).map (fun i => match tfind acts (base + i) with
      | some y => f32.dec y.a.toNat
      | none => .fin false 0 0)
    let sc := qScale f4x xs
    .fp d 1 (qblkWord f4x sc (qSpecial f4x nosp sc xs) x.a.toNat)
  | _ => {}

/-! ### Instances (R140, R141) -/

def Cross.isFor (x : Cross) (g turn : Nat) (pc : DWord) (half : Nat) : Bool :=
  x.group == g && x.turn == turn && x.pc == pc && x.half == half

def findCross (s : State) (c g turn : Nat) (pc : DWord) (half : Nat) : Option Cross :=
  (s.core c).cross.find? (fun x => x.isFor g turn pc half)

/-- Lanes of a turn whose thread of the group has exited. -/
def exitedLanes (s : State) (g turn : Nat) : Nat :=
  ((s.threadsOf g).filter (fun p => turnOf p.1 == turn && p.2.run == .exited)).foldl (fun x p => x ||| 2 ^ laneOf p.1) 0

/-- The lanes an instance waits for: the union of its masks, its block, or the whole turn when no arrival is active. -/
def crossWants (x : Cross) : Nat :=
  if x.half < 2 then (2 ^ 32 - 1) * 2 ^ (32 * x.half)
  else if x.active.isEmpty then 2 ^ 64 - 1
  else x.active.foldl (fun m p => m ||| p.2.mask.toNat) 0

def crossFull (s : State) (x : Cross) : Bool :=
  let have' := x.arrived.toNat ||| exitedLanes s x.group x.turn
  (crossWants x &&& have') == crossWants x

def threadAt (c turn lane : Nat) : Nat := slotsPerCore * c + 64 * turn + lane

/-- An instance whose lanes have arrived completes: its active arrivals retire together, their results to be written (R141), or trap
MASK_MISMATCH when their masks differ. -/
def settleCross (s : State) (c : Nat) (x : Cross) : State :=
  if !crossFull s x then s
  else
    let s := s.modCore c (fun y => { y with cross := y.cross.filter (fun z => !z.isFor x.group x.turn x.pc x.half) })
    let la := ((ctlOf x.op).map (·.la.val)).getD 0
    let same := match x.active with
      | [] => true
      | (_, y) :: rest => rest.all (fun p => p.2.mask == y.mask)
    let first := (lanesOf x.active).head?
    x.active.foldl (fun s p =>
      let t := threadAt c x.turn p.1
      if same then
        retireWaiter (lateRes s t (la + 1) true (first == some p.1) (crossRes x.op x.active x.degr (32 * x.half) p.1 p.2)) t true
      else takeTrap s t 0x10 0 0 0 false) s

def settleKey (s : State) (c g turn : Nat) (pc : DWord) (half : Nat) : State :=
  match findCross s c g turn pc half with
  | some x => settleCross s c x
  | none => s

/-- After an EXIT: every open instance of the thread's group and turn (R134). -/
def settleTurn (s : State) (c g turn : Nat) : State :=
  ((s.core c).cross.filter (fun x => x.group == g && x.turn == turn)).foldl (fun s x => settleKey s c g turn x.pc x.half) s

/-- Count an arrival of a lane. -/
def arrive (s : State) (c g turn : Nat) (pc : DWord) (half lane : Nat) (arr : Option XArr) (op : Instr) : State :=
  s.modCore c (fun y =>
    let x := (y.cross.find? (fun x => x.isFor g turn pc half)).getD ⟨g, turn, pc, half, 0, [], op, y.degr⟩
    let x := { x with arrived := x.arrived ||| BitVec.ofNat 64 (2 ^ lane)
                      active := match arr with | some a => tset lane a x.active | none => x.active }
    { y with cross := y.cross.filter (fun z => !z.isFor g turn pc half) ++ [x] })

/-- One thread reaches a cross-lane instruction (R140, R141). One whose lane has arrived does not issue it (`crossBusy`). -/
def crossLane (c : Ctl) (us : List Nat) (block : Bool) (op : Instr) (f : Thread → Group → XArr) (s0 s : State) (t : Nat) :
    State :=
  let th := s0.thread t
  let co := coreOfThread t
  let lane := laneOf t
  let half := if block then lane / 32 else 2
  let seen := match findCross s co th.group (turnOf t) th.pc half with
    | some x => x.arrived.getLsbD lane
    | none => false
  if seen then s
  else if !guardOf th c then arrive (retire s t) co th.group (turnOf t) th.pc half lane none op
  else
    let x := f th (s0.group th.group)
    if !block && !x.mask.getLsbD lane then takeTrap s t 0x10 0 0 0 false
    else
      let drawn := injPipe s t us
      if bankStruck s0 t then takeTrap (trapCount s t 8 0 0) t 8 (us.headD 1) 0 0 false
      else pipeTrap drawn.2 t (drawn.1.or (checkerStruck s0 t us))
        ((arrive drawn.2 co th.group (turnOf t) th.pc half lane (some x) op).modThread t (fun y => { y with run := .waiting .cross }))

/-- The lane has arrived in an open instance at the thread's PC: it does not issue the instruction again before that completes. -/
def crossBusy (s : State) (t : Nat) : Bool :=
  let th := s.thread t
  (s.core (coreOfThread t)).cross.any (fun x => x.group == th.group && x.turn == turnOf t && x.pc == th.pc &&
    (x.half == 2 || x.half == laneOf t / 32) && x.arrived.getLsbD (laneOf t))

/-- The arrivals of a PC group, then the completion of the instances they reached. -/
def execCross (c : Ctl) (us : List Nat) (block : Bool) (op : Instr) (f : Thread → Group → XArr) (s : State) : Out :=
  let s1 := s.iss.members.foldl (crossLane c us block op f s) s
  .next (s.iss.members.foldl (fun x t =>
    settleKey x (coreOfThread t) (s.thread t).group (turnOf t) (s.thread t).pc (if block then laneOf t / 32 else 2)) s1)

/-! ### The instructions -/

def execLxch (c : Ctl) (w64 : Bool) (mode : XMode) (seg : Fin 6) (qe : Option PDst) (d : Reg) (a b m : Src) (s : State) :
    Out :=
  execCross c (unitsFor d []) false (.lxch c w64 mode seg qe d a b m)
    (fun t g => ⟨srcD t g m, BitVec.ofNat 64 (srcNat t g (nregs64 w64) a), srcW t g b, false⟩) s

def execLpoll (c : Ctl) (form : PollForm) (pa : PSrc) (m : Src) (s : State) : Out :=
  execCross c (match form with | .mask d | .count d => unitsFor d [] | _ => []) false (.lpoll c form pa m) (fun t g => ⟨srcD t g m, 0, 0, predOf t pa⟩) s

def execLpeer (c : Ctl) (w64 same : Bool) (d : Reg) (a m : Src) (s : State) : Out :=
  execCross c (unitsFor d []) false (.lpeer c w64 same d a m)
    (fun t g => ⟨srcD t g m, BitVec.ofNat 64 (srcNat t g (nregs64 w64) a), 0, false⟩) s

/-- The element of LRED and LSCAN: an FP32 constant is placed as R67 says. -/
def redArg (ty : RedTy) (t : Thread) (g : Group) (a : Src) : DWord :=
  BitVec.ofNat 64 (if ty = .f32 then srcF32 t g a else srcNat t g 1 a)

/-- The adder of an LRED or LSCAN: FP32 sums, integer sums, minima and maxima (R410). -/
def redUnits (op : RedOp) (ty : RedTy) : List Nat :=
  match op, ty with
  | .add, .f32 => [3]
  | .add, _ => [1]
  | .min, .f32 | .max, .f32 => []
  | .min, _ | .max, _ => [1]
  | _, _ => []

def execLred (c : Ctl) (op : RedOp) (ty : RedTy) (d : Reg) (a m : Src) (s : State) : Out :=
  execCross c (unitsFor d (redUnits op ty)) false (.lred c op ty d a m) (fun t g => ⟨srcD t g m, redArg ty t g a, 0, false⟩) s

def execLscan (c : Ctl) (op : RedOp) (ty : RedTy) (excl : Bool) (d : Reg) (a m : Src) (s : State) : Out :=
  execCross c (unitsFor d (redUnits op ty)) false (.lscan c op ty excl d a m)
    (fun t g => ⟨srcD t g m, redArg ty t g a, 0, false⟩) s

def execLlead (c : Ctl) (hi : Bool) (qd : PDst) (m : Src) (s : State) : Out :=
  execCross c [] false (.llead c hi qd m) (fun t g => ⟨srcD t g m, 0, 0, false⟩) s

def execLbcast (c : Ctl) (w64 : Bool) (d : Reg) (a b m : Src) (s : State) : Out :=
  execCross c (unitsFor d []) false (.lbcast c w64 d a b m)
    (fun t g => ⟨srcD t g m, BitVec.ofNat 64 (srcNat t g (nregs64 w64) a), srcW t g b, false⟩) s

def execQblk (c : Ctl) (f4x nosp : Bool) (rm : Rnd) (d : Reg) (a : Src) (s : State) : Out :=
  execCross c (unitsFor d [6]) true (.qblk c f4x nosp rm d a) (fun t g => ⟨0, BitVec.ofNat 64 (srcF32 t g a), 0, false⟩) s

end Sys2Proof.Machine
end

