-- ==== Sys2Proof/Machine/Control.lean ====
section
/-! DEFINITION. Class 0x6: branches, reconvergence barriers, ending, yielding, sleeping, instruction prefetch (R125 to R138). -/

namespace Sys2Proof.Machine

/-- Bits [3:0] and [63:57] of a PC are zero (R16). -/
def pcOk (p : DWord) : Bool := p.toNat % 16 == 0 && decide (p.toNat < 2 ^ 57)

/-- A transfer to `f t g`, with its link pair (R126). -/
def execBranch (c : Ctl) (d : Option VReg) (f : Thread → Group → DWord) (s : State) : Out :=
  forLanes c [] (fun s0 t s =>
    let th := s0.thread t
    let pc := f th (s0.group th.group)
    if !pcOk pc then .trapC 4
    else
      let s := match d with
        | some n => writeReg s t true (.v n) (dwords (th.pc + 16))
        | none => s
      .goto s pc) s

def execBra (c : Ctl) (imm : DWord) (s : State) : Out := execBranch c none (fun t _ => t.pc + imm) s
def execCall (c : Ctl) (d : VReg) (imm : DWord) (s : State) : Out := execBranch c (some d) (fun t _ => t.pc + imm) s
def execBrx (c : Ctl) (rel : Bool) (a : Reg) (s : State) : Out :=
  execBranch c none (fun t g => if rel then t.pc + regD t g a else regD t g a) s
def execCallx (c : Ctl) (rel : Bool) (d : VReg) (a : Reg) (s : State) : Out :=
  execBranch c (some d) (fun t g => if rel then t.pc + regD t g a else regD t g a) s
def execRet (c : Ctl) (a : Reg) (s : State) : Out := execBranch c none (fun t g => regD t g a) s

/-- One instance for the PC group; each member first leaves its old one (R129). -/
def execJoinset (c : Ctl) (j : Fin 16) (imm : DWord) (s : State) : Out :=
  let (id, s) := freshId s
  forOut c [] (fun s0 t s =>
    let pc := (s0.thread t).pc
    if !pcOk (pc + imm) then .trapC 4
    else
      let s := leaveInst s t j.val
      .retire (s.modThread t (fun x => { x with j := tset j.val ⟨pc, pc + imm, id⟩ x.j }))) s

/-- On an empty jN it retires; otherwise the thread arrives and waits (R130). -/
def execJoinwait (c : Ctl) (j : Fin 16) (s : State) : Out :=
  forOut c [] (fun s0 t s =>
    match tfind (s.thread t).j j.val with
    | none => .retire s
    | some b =>
      .done (settleInst (s.modThread t (fun x => { x with run := .waiting (.join j.val) })) (s0.thread t).group j.val b.inst)) s

def execJoindrop (c : Ctl) (j : Fin 16) (s : State) : Out :=
  forOut c [] (fun _ t s => .retire (leaveInst s t j.val)) s

/-- What follows the end of a thread for those that wait for it: reconvergence instances, cross-lane instances, group barriers,
an IDEMBEG (R131, R134, R221, R294). -/
def afterExit (s : State) (t : Nat) : State :=
  let g := (s.thread t).group
  let s := settleTurn s (coreOfThread t) g (turnOf t)
  let s := ((s.group g).bars.map (·.1)).foldl (fun s id => barSettle s g id) s
  idemSettle s g

/-- The thread ends: logged accesses are discarded, its slot's GEN advances, its region is disarmed (R134, R295, R346). -/
def endThread (s : State) (t : Nat) : State :=
  let s := leaveAll s t
  let s := s.modThread t (fun x => { x with run := .exited, j := [] })
  let s := s.modCore (coreOfThread t) (fun x => logDrop x (fun e => e.e.thread == t))
  disarm (genNext s t) (s.thread t).group

/-- EXIT waits until every in-flight instruction of the thread has written its destination (R134). -/
def execExit (c : Ctl) (s : State) : Out :=
  forLanes c [] (fun _ t s =>
    if resultsWritten s t then .done (afterExit (endThread (retire s t) t) t)
    else .hold (waitFinish s t)) s

/-- Ineligible for the 16 clocks after the issue (R135). -/
def execYield (c : Ctl) (s : State) : Out :=
  forOut c [] (fun _ t s => .done ((retire s t).modThread t (fun x => { x with run := .resting (s.clock + 17) }))) s

def execNop (c : Ctl) (s : State) : Out := forLanes c [] (fun _ _ s => .retire s) s

/-- Asleep for n clocks after the issue; with n = 0 eligible again in the next clock (R136). -/
def execSleep (c : Ctl) (n : Word) (s : State) : Out :=
  forOut c [] (fun _ t s =>
    .done ((retire s t).modThread t (fun x =>
      { x with run := if n = 0 then .resting (s.clock + 1) else .sleeping (s.clock + n.toNat + 1) }))) s

/-- One line of an IPF: it enters the levels asked for when its page translates and grants X, and is skipped otherwise (R138). -/
def ipfLine (s : State) (c part level : Nat) (priv : Bool) (va : Nat) : State × Bool :=
  if 2 ^ 57 ≤ va then (s, false)
  else
    if walkHeld s c part va || (walkLink s c part va).isSome then (s, false)
    else
      let s := walkNow s c part va
      match translate s c part priv va needX with
      | .ok pa =>
        if (lineFault s c (lineNo pa)).isSome || lineHeld s c (lineNo pa) then (s, false) else (instrFill s c part (lineNo pa) level, true)
      | .error _ => (s, false)

def ipfLines (s : State) (c part level : Nat) (priv : Bool) (va : Nat) : Nat → Nat → State × Nat
  | 0, k => (s, k)
  | n + 1, k =>
    let (s, ok) := ipfLine s c part level priv va
    ipfLines s c part level priv ((va + 128) % 2 ^ 64) n (k + ok.toNat)

/-- The lines are requested once for the PC group (DESIGN CHOICE of the count, log entry 9); the event counters count them for
each thread. -/
def execIpf (c : Ctl) (n : BitVec 8) (level : Fin 3) (imm : DWord) (s : State) : Out :=
  forOut c [] (fun s0 t s =>
    if leadOf s0 c == some t then
      let co := coreOfThread t
      let lines := n.toNat + 1
      let (s, got) := ipfLines s co (s0.partOf t) level.val (s0.privOf t) (((s0.thread t).pc + imm).toNat / 128 * 128) lines 0
      let s := coreCount (coreCount s co 0x15 got) co 0x16 (lines - got)
      let ts := s0.iss.members.filter (fun u => guardOf (s0.thread u) c)
      .retire (ts.foldl (fun s u => gcEvent (gcEvent s 9 u got) 0xA u (lines - got)) s)
    else .retire s) s

end Sys2Proof.Machine
end

