-- ==== Sys2Proof/Machine/Packets.lean ====
section
/-! DEFINITION. Packets, launch records and node entries as the queue firmware reads them (R317, R318, R321, R323, R324, R330),
the index space of the Awl (R279), placement on cores (R277, R328), inheritance, slack and order (R333, R334). -/

namespace Sys2Proof.Machine

/-! ### Fields and checks of little-endian blocks -/

/-- `n` bytes of a block from byte `off`, as a number. -/
def fld (x off n : Nat) : Nat := x / 2 ^ (8 * off) % 2 ^ (8 * n)

/-- The bits of a block covered by fields: byte offset and width in bits of each. -/
def fieldMask (fs : List (Nat × Nat)) : Nat := fs.foldl (fun m f => m ||| (2 ^ f.2 - 1) * 2 ^ (8 * f.1)) 0

/-- Every bit outside the fields is zero. -/
def onlyFields (x : Nat) (fs : List (Nat × Nat)) : Bool := (x &&& fieldMask fs) == x

/-- One bit of the CRC of R317. -/
def crcBit (c : Nat) : Nat := if 2 ^ 15 ≤ c then (2 * c % 2 ^ 16) ^^^ 0x1021 else 2 * c

/-- CRC-16 of bytes in ascending order (R317). -/
def crc16 (bs : List Byte) : Nat :=
  bs.foldl (fun c b => crcBit (crcBit (crcBit (crcBit (crcBit (crcBit (crcBit (crcBit (c ^^^ b.toNat * 2 ^ 8))))))))) 0xFFFF

/-! ### Packets (R317, R318) -/

def pkType (x : Nat) : Nat := fld x 0 1
def pkBarrier (x : Nat) : Bool := flag x 8
def pkSeq (x : Nat) : Nat := fld x 2 2
def pkMarkOk (x e : Nat) : Bool := fld x 0x3C 4 == 0xC0B1 * 2 ^ 16 + e % 2 ^ 16
def pkCrcOk (x : Nat) : Bool := fld x 0x38 2 == crc16 (leBytes 0x38 x)

/-- Fields of a packet body by TYPE. -/
def pkBody (x : Nat) : List (Nat × Nat) :=
  match pkType x with
  | 1 => [(4, 4), (8, 64), (0x10, 64), (0x18, 64), (0x20, 128)]
  | 2 => if flag x 32 then [(4, 1), (5, 3), (8, 64), (0x10, 64), (0x18, 64)] else [(4, 1), (5, 3), (8, 10), (10, 16), (0x18, 64)]
  | 3 => [(4, 1), (8, 64), (0x10, 64)]
  | 4 => [(4, 1), (8, 64), (0x10, 64), (0x18, 32)]
  | 5 => [(4, 16), (8, 64), (0x10, 32)]
  | 6 => [(4, 16)]
  | 7 => [(4, 16), (8, 64), (0x10, 64), (0x18, 64), (0x20, 64)]
  | 8 => [(4, 2), (8, 32)]
  | _ => []

def pkReservedOk (x : Nat) : Bool :=
  onlyFields x (pkBody x ++ [(0, 9), (2, 16), (0x38, 16), (0x3C, 32)]) && decide (1 ≤ pkType x) && decide (pkType x ≤ 8)

def pkWellFormed (x : Nat) : Bool := pkMarkOk x (pkSeq x) && pkCrcOk x && pkReservedOk x

def ptrIn (spaces : List Nat) (align : Nat) (p : Nat) : Bool := spaces.contains (p / 2 ^ 60) && p % 2 ^ 60 % align == 0

/-- The limits of R318 on pointers and counts; a packet that breaks one is BAD_PACKET. -/
def pkLimitsOk (x : Nat) : Bool :=
  match pkType x with
  | 1 => ptrIn [0] 256 (fld x 8 8) && (fld x 0x18 8 == 0 || ptrIn [0, 4] 64 (fld x 0x18 8))
  | 2 => !flag x 32 || ptrIn [0, 2, 4] 8 (fld x 8 8)
  | 3 => ptrIn [0, 2, 4] 8 (fld x 8 8) && !(flag x 32 && fld x 8 8 / 2 ^ 60 == 4)
  | 4 => ptrIn [0, 2, 4] 1 (fld x 8 8) && ptrIn [0, 2, 4] 1 (fld x 0x10 8) && fld x 0x18 4 != 0
  | 5 => ptrIn [0, 4] 1 (fld x 8 8)
  | 7 => decide (1 ≤ fld x 4 2) && decide (fld x 4 2 ≤ 256) && ptrIn [0] 64 (fld x 8 8) && ptrIn [0] 4096 (fld x 0x10 8) &&
      ptrIn [0, 4] 64 (fld x 0x20 8)
  | _ => true

/-! ### The firmware's accesses (R319, R321) -/

/-- The place of a firmware access; beside R321's spaces, bank memory of the partition. -/
def qPlace (s : State) (part die : Nat) (p : DWord) (n : Need) : Except AFail Loc :=
  match ptrSpace p with
  | 2 =>
    match spaceSize s part die p with
    | some z => if bankOff p < z then .ok (.bank (bankDie p) (bankRangeBase s part (bankDie p) + bankOff p)) else .error ⟨0x50, 1, 0, false⟩
    | none => .error ⟨0x50, 1, 0, false⟩
  | _ => fwResolve s part p n

/-- A block within one page: its place when it can be reached. -/
def qReach (s : State) (part die : Nat) (p : DWord) (n : Need) : Option Loc :=
  match qPlace s part die p n with
  | .error _ => none
  | .ok loc => if (placeFault s die loc).isSome then none else some loc

/-- A block of `len` bytes within one page, as a number. -/
def qRead (s : State) (part die : Nat) (p : DWord) (len : Nat) : Option Nat :=
  match qReach s part die p needR, qReach s part die (p + BitVec.ofNat 64 (len - 1)) needR with
  | some loc, some _ => some (locNat s loc len)
  | _, _ => none

/-- Write a block within one page as a release at .sys (R326). -/
def qWrite (s : State) (part die : Nat) (p : DWord) (bs : List Byte) : Option State :=
  match qReach s part die p needW, qReach s part die (p + BitVec.ofNat 64 (bs.length - 1)) needW with
  | some loc, some _ => some (locWrite (locUse s part loc) loc bs)
  | _, _ => none

def queueDie (q : Nat) : Nat := q / 1024
/-- Packets of a queue's ring (R314). -/
def ringPackets (q : Queue) : Nat := 2 ^ (q.rsize + 4)
/-- Ring slot of sequence number `e`, as read. -/
def slotRead (s : State) (k e : Nat) : Option Nat :=
  let q := s.queue k
  qRead s q.part (queueDie k) (q.ring + BitVec.ofNat 64 (64 * (e % ringPackets q))) 64

/-! ### The Awl (R279, R280) -/

/-- nd of a dimension. -/
def awlN (r : LRec) (d : Nat) : Nat :=
  let c := r.chunks.getD d 0
  if c = 0 then 0 else (r.extents.getD d 0 + c - 1) / c

def awlTotal (r : LRec) : Nat := if r.awlDims = 0 then 0 else ((List.range r.awlDims).map (awlN r)).foldl (· * ·) 1

/-- The origin of chunk c. -/
def awlOrigin (r : LRec) (c : Nat) : List Nat :=
  let go := (List.range 4).foldl (fun (p : Nat × List Nat) d =>
    if d < r.awlDims then (p.1 / awlN r d, p.2 ++ [p.1 % awlN r d * r.chunks.getD d 0]) else (p.1, p.2 ++ [0])) (c, [])
  go.2

/-! ### Launch records (R275, R279, R323) -/

def recFields : List (Nat × Nat) :=
  [(0, 8), (1, 4), (4, 16), (6, 8), (7, 8), (8, 64), (0x10, 16), (0x12, 16), (0x14, 8), (0x16, 16), (0x18, 4), (0x20, 512),
   (0x60, 256), (0x80, 256), (0xA0, 16), (0xA8, 64), (0xB0, 64), (0xB8, 32), (0xBC, 32), (0xC0, 64), (0xC8, 16), (0xCA, 16),
   (0xD0, 256), (0xF0, 32), (0xF8, 16), (0xFA, 16)]

def parseLevel (x l : Nat) : Level := ⟨bitsAt x (8 * (0x20 + 8 * l)) 3, bitsAt x (8 * (0x21 + 8 * l)) 3, fld x (0x24 + 8 * l) 4⟩

/-- A record's fields. -/
def parseRec (x : Nat) : LRec :=
  { det := flag x 8, idemok := flag x 9, testonly := flag x 10, noeng := flag x 11, codeobj := fld x 4 2, cls := fld x 7 1
    entry := fld x 8 8, groupsz := fld x 0x10 2, regs := fld x 0x12 2, scrways := fld x 0x14 1, ncores := fld x 0x16 2
    diemask := bitsAt x (8 * 0x18) 4, levels := (List.range (min 8 (fld x 6 1))).map (parseLevel x), awlDims := fld x 0x60 1
    awlRec := fld x 0x61 1 == 1, chunks := (List.range 4).map (fun i => fld x (0x64 + 2 * i) 2)
    extents := (List.range 4).map (fun i => fld x (0x70 + 4 * i) 4)
    shape := (List.range 8).map (fun i => BitVec.ofNat 32 (fld x (0x80 + 4 * i) 4)), lastobj := fld x 0xA0 2
    deadline := fld x 0xA8 8, wrapentry := fld x 0xB0 8, wrapbudget := fld x 0xB8 4, slackest := fld x 0xBC 4
    completion := BitVec.ofNat 64 (fld x 0xC0 8), node := fld x 0xC8 2, queueObj := fld x 0xCA 2
    k := (List.range 8).map (fun i => BitVec.ofNat 32 (fld x (0xD0 + 4 * i) 4)), quantum := fld x 0xF0 4, seq := fld x 0xF8 2 }

/-- The overrides of a LAUNCH packet (R318). -/
def overrideRec (r : LRec) (pk : Nat) : LRec :=
  { r with
    deadline := if fld pk 0x10 8 = 0 then r.deadline else fld pk 0x10 8
    completion := if fld pk 0x18 8 = 0 then r.completion else BitVec.ofNat 64 (fld pk 0x18 8)
    k := (List.range 8).map (fun i => if i < 4 && flag (fld pk 4 1) i then BitVec.ofNat 32 (fld pk (0x20 + 4 * i) 4) else r.k.getD i 0)
    seq := pkSeq pk }

/-- Row 1 of R324, once the bytes are read. -/
def recRow1 (x seq : Nat) : Bool := fld x 0xFA 2 == crc16 (leBytes 0xF8 x) && fld x 0xF8 2 == seq % 2 ^ 16

/-- Cores a partition owns on present dies, ascending. -/
def partCores (s : State) (part : Nat) : List Nat :=
  (List.range (nDies * coresPerDie)).filter (fun c =>
    flag ((s.part part).pclu.getD (dieOfCore c) 0) (coreInDie c / 4) && corePresent s (dieOfCore c) (coreInDie c))

/-- Row 2: KIND, FLAGS, reserved bytes and the field limits of R323. `r` has the overrides applied. -/
def recRow2 (s : State) (part classmax : Nat) (graph : Bool) (x : Nat) (r : LRec) : Bool :=
  onlyFields x recFields && fld x 0 1 == 1 && decide (fld x 6 1 ≤ 8) && decide (r.cls ≤ 7) && decide (r.cls ≤ classmax) &&
    r.entry % 16 == 0 && decide (64 ≤ r.groupsz) && decide (r.groupsz ≤ 512) && r.groupsz % 64 == 0 &&
    decide (32 ≤ r.regs) && decide (r.regs ≤ 1024) && r.regs % 32 == 0 && decide (r.scrways ≤ 12) &&
    decide (1 ≤ r.ncores) && decide (r.ncores ≤ (partCores s part).length) && r.wrapentry % 16 == 0 &&
    ptrIn [0, 4] 64 r.completion.toNat && (graph || (r.node == 0 && r.queueObj == 0)) &&
    (if r.det then decide (1 ≤ r.quantum) && decide (r.quantum ≤ 2 ^ 20) else r.quantum == 0) &&
    (!r.testonly || (s.part part).test)

/-- Row 3: the module is loaded, ENTRY and WRAPENTRY lie inside it. -/
def recRow3 (s : State) (part : Nat) (r : LRec) : Bool :=
  let e := tableEntry s part r.codeobj
  (s.part part).loaded.contains r.codeobj && oType e == 5 && decide (r.entry < oExtent e) && decide (r.wrapentry < oExtent e)

/-- Row 4: the group fits an empty core (R25). -/
def recRow4 (r : LRec) : Bool := decide (r.groupsz / 64 * r.regs ≤ 2048)

def lvlScopeMin : Nat → Nat
  | 0 => 1 | 1 => 2 | 2 => 2 | 3 => 3 | 4 => 4 | 5 => 5 | 6 => 0 | _ => 6

/-- Scopes in their order of R277: .thr, .grp, .clu, .sec, .die, .pkg, .pod, .sys; encodings of R171. -/
def scopeRank (x : Nat) : Nat := if x = 0 then 6 else if x ≤ 5 then x else x + 1

/-- Rules of R277 on one level; `inner` is the next inner extent. -/
def levelOk (r : LRec) (inner : Nat) (l : Level) : Bool :=
  let g := r.groupsz
  let placed (n : Nat) : Bool := l.extent != 0 && l.extent % g == 0 && l.extent % inner == 0 && decide (l.extent / g ≤ n)
  decide (scopeRank (lvlScopeMin l.domain) ≤ scopeRank l.scope) &&
    (match l.domain with
     | 0 => l.extent == 1
     | 1 => l.extent == 4 * g / 64
     | 2 => l.extent == g
     | 3 => placed 4
     | 4 => placed 32
     | 5 => placed 96
     | 6 => placed 384
     | _ => l.extent != 0 && l.extent % (r.ncores * g) == 0)

def levelsOk (r : LRec) : Nat → List Level → Bool
  | _, [] => true
  | inner, [l] => levelOk r inner l && (l.domain < 3 || l.domain == 7 || r.ncores * r.groupsz % l.extent == 0) &&
      (l.domain != 6 || l.extent == r.ncores * r.groupsz)
  | inner, l :: m :: ls => levelOk r inner l && decide (l.domain < m.domain) &&
      (l.domain != 6 || l.extent == r.ncores * r.groupsz) && levelsOk r l.extent (m :: ls)

/-- Row 5: levels and Awl. -/
def recRow5 (graph : Bool) (x : Nat) (r : LRec) : Bool :=
  let n := fld x 6 1
  (List.range 8).all (fun l => if l < n then onlyFields (fld x (0x20 + 8 * l) 8) [(0, 3), (1, 3), (4, 32)] else fld x (0x20 + 8 * l) 8 == 0) &&
    levelsOk r 1 r.levels && decide (r.awlDims ≤ 4) && decide (fld x 0x61 1 ≤ 1) && (!r.awlRec || (r.awlDims == 0 && graph)) &&
    fld x 0x62 2 == 0 && fld x 0x6C 4 == 0 &&
    (List.range 4).all (fun d => if d < r.awlDims then r.chunks.getD d 0 != 0 && r.extents.getD d 0 != 0
      else r.chunks.getD d 0 == 0 && r.extents.getD d 0 == 0) &&
    decide (awlTotal r < 2 ^ 32)

/-! ### Placement (R277, R328) -/

/-- Unit of a domain that holds a core. -/
def unitOf (s : State) (domain c : Nat) : Nat :=
  match domain with
  | 3 => clusterOf c
  | 4 => 3 * dieOfCore c + coreSector s c
  | 5 => dieOfCore c
  | _ => 0

/-- Consecutive cores of equal units, grouped. -/
def groupByUnit (f : Nat → Nat) : List Nat → List (List Nat)
  | [] => []
  | c :: cs =>
    match groupByUnit f cs with
    | (d :: ds) :: gs => if f c = f d then (c :: d :: ds) :: gs else [c] :: (d :: ds) :: gs
    | gs => [c] :: gs

/-- The first set of `need` cores: outermost level first, each unit that holds any group holds exactly its share. -/
def pickCores (s : State) : List (Nat × Nat) → List Nat → Nat → Option (List Nat)
  | [], cores, need => if need ≤ cores.length then some (cores.take need) else none
  | (domain, share) :: ls, cores, need =>
    let go := (groupByUnit (unitOf s domain) cores).foldl (fun (p : Nat × List Nat) g =>
      if share ≤ p.1 then
        match pickCores s ls g share with
        | some cs => (p.1 - share, p.2 ++ cs)
        | none => p
      else p) (need, [])
    if go.1 = 0 then some go.2 else none

/-- Placed levels, outermost first, with groups per unit. -/
def placedLevels (r : LRec) : List (Nat × Nat) :=
  ((r.levels.filter (fun l => 3 ≤ l.domain && l.domain ≤ 6)).map (fun l => (l.domain, l.extent / r.groupsz))).reverse

/-- The cores a launch would take from those for which `free` holds. -/
def placeOn (s : State) (part : Nat) (r : LRec) (free : Nat → Bool) : Option (List Nat) :=
  pickCores s (placedLevels r)
    ((partCores s part).filter (fun c => (r.diemask == 0 || flag r.diemask (dieOfCore c)) && free c)) r.ncores

/-- Row 6: cores exist, busy ones counted as free. -/
def recRow6 (s : State) (part : Nat) (r : LRec) : Bool := (placeOn s part r (fun _ => true)).isSome

/-- The first failing row of R324 after row 1, or 0; row 7 is judged by the caller. -/
def recFailRow (s : State) (part classmax : Nat) (graph : Bool) (x : Nat) (r : LRec) : Nat :=
  if !recRow2 s part classmax graph x r then 2
  else if !recRow3 s part r then 3
  else if !recRow4 r then 4
  else if !recRow5 graph x r then 5
  else if !recRow6 s part r then 6
  else 0

/-! ### Inheritance, slack and order (R333, R334) -/

/-- The earlier of two deadlines, of which 0 is none. -/
def earlier (a b : Nat) : Nat := if a = 0 then b else if b = 0 then a else min a b

/-- A held WAIT of MODE 0: the queue and the sequence number it waits for, its INHCLASS and INHDL. -/
def waitOf (k : Nat) (q : Queue) : Option (Nat × Nat × Nat × Nat) :=
  match q.cur with
  | some (bs, _) =>
    let x := leNat bs
    if q.waiting && pkType x == 2 && !flag x 32 then some (1024 * queueDie k + fld x 8 2, fld x 10 2, fld x 5 1, fld x 0x18 8) else none
  | none => none

/-- Class and deadline, overrides applied, of the next packet of a waiting queue when it is a well-formed LAUNCH (R334). -/
def nextLaunch (s : State) (k : Nat) (q : Queue) : Option (Nat × Nat) :=
  let e := (q.expseq + 1) % 2 ^ 16
  let held : Option Nat := match q.inline with
    | some bs => if pkSeq (leNat bs) = e then some (leNat bs) else none
    | none => none
  let pk := match held with
    | some x => some x
    | none => slotRead s k e
  match pk with
  | some x =>
    if pkWellFormed x && pkSeq x == e && pkType x == 1 then
      (qRead s q.part (queueDie k) (BitVec.ofNat 64 (fld x 8 8)) 256).map (fun r => let l := overrideRec (parseRec r) x; (l.cls, l.deadline))
    else none
  | none => none

def joinInherit (a b : Nat × Nat) : Nat × Nat := (max a.1 b.1, earlier a.2 b.2)

/-- What the WAITs on packet `seq` of queue `k` pass: what they name, the LAUNCH that follows each, and what that launch inherits in
turn (R334). -/
def waitsPass (s : State) : Nat → Nat → Nat → Nat × Nat
  | 0, _, _ => (0, 0)
  | fuel + 1, k, seq =>
    s.queues.foldl (fun (p : Nat × Nat) kq =>
      match waitOf kq.1 kq.2 with
      | some (k', seq', c, d) =>
        if k' = k ∧ seq' = seq then
          let p := joinInherit p (c, d)
          match nextLaunch s kq.1 kq.2 with
          | some n => joinInherit (joinInherit p n) (waitsPass s fuel kq.1 ((kq.2.expseq + 1) % 2 ^ 16))
          | none => p
        else p
      | none => p) (0, 0)

/-- What a launch inherits from the WAITs held on it: of the launches of a queue with one number, the latest. -/
def waitInherit (s : State) (lk : Nat) : Nat × Nat :=
  match tfind s.launches lk with
  | none => (0, 0)
  | some l =>
    let latest := (s.launches.filter (fun p => p.2.queue == l.queue && p.2.inst.isNone && p.2.r.seq == l.r.seq)).getLast?.map (·.1)
    if l.inst.isSome || latest != some lk then (0, 0) else waitsPass s (s.queues.length + 1) l.queue l.r.seq

/-- Ageing: 10 ms steps since the launch last became ready (R333). -/
def ageing (s : State) (l : Launch) : Nat :=
  match l.st with
  | .ready since => ((s.die l.die).dlclk - since) / 10000000
  | _ => 0

/-- Effective class and deadline of every node of an instance, from the last to the first. -/
def nodeEff (s : State) (g : GInst) : List (Nat × Nat) :=
  g.nodes.foldr (fun n (later : List (Nat × Nat)) =>
    let i := g.nodes.length - later.length - 1
    let own := match n.launched with
      | some lk => let w := waitInherit s lk; (max n.r.cls w.1, earlier n.r.deadline w.2)
      | none => (n.r.cls, n.r.deadline)
    let all := n.succ.foldl (fun (p : Nat × Nat) j =>
      let open' := match g.nodes[j]? with | some m => !m.done | none => false
      match open', later[j - i - 1]? with
      | true, some e => (max p.1 e.1, earlier p.2 e.2)
      | _, _ => p) own
    let age := match n.launched with
      | some lk => match tfind s.launches lk with | some l => ageing s l | none => 0
      | none => 0
    (min 7 (all.1 + age), all.2) :: later) []

/-- Everything a launch inherits: class and deadline (R334). -/
def inherited (s : State) (lk : Nat) (l : Launch) : Nat × Nat :=
  let w := waitInherit s lk
  match l.inst with
  | none => w
  | some gi =>
    match tfind s.insts gi with
    | none => w
    | some g =>
      let effs := nodeEff s g
      match g.nodes[l.r.node]? with
      | none => w
      | some n => n.succ.foldl (fun (p : Nat × Nat) j =>
          let open' := match g.nodes[j]? with | some m => !m.done | none => false
          match open', effs[j]? with
          | true, some e => (max p.1 e.1, earlier p.2 e.2)
          | _, _ => p) w

def effClass (s : State) (lk : Nat) (l : Launch) : Nat := min 7 (max l.r.cls (inherited s lk l).1 + ageing s l)
def effDeadline (s : State) (lk : Nat) (l : Launch) : Nat := earlier l.r.deadline (inherited s lk l).2

/-- Slack at a time (R333). -/
def slackAt (s : State) (lk : Nat) (l : Launch) (now : Nat) : Int :=
  let total := if l.r.awlRec then 0 else awlTotal l.r
  let rem := if 0 < total then l.r.slackest * (total - l.dispensed) / total else l.r.slackest
  let d := effDeadline s lk l
  let x : Int := if d = 0 then 2 ^ 63 - 1 else (d : Int) - now - rem
  min (max x (-(2 ^ 63))) (2 ^ 63 - 1)

/-- Ready for 100 ms or more, and since when. -/
def starved (s : State) (l : Launch) : Option Nat :=
  match l.st with
  | .ready since => if 100000000 ≤ (s.die l.die).dlclk - since then some since else none
  | _ => none

/-- The order of ready launches (R333). -/
def readyBefore (s : State) (a b : Nat × Launch) : Bool :=
  let slack (x : Nat × Launch) : Int := slackAt s x.1 x.2 (s.die x.2.die).dlclk
  let byClass : Bool :=
    let ca := effClass s a.1 a.2
    let cb := effClass s b.1 b.2
    if ca ≠ cb then decide (cb < ca)
    else if slack a ≠ slack b then decide (slack a < slack b)
    else decide (a.2.order < b.2.order)
  match starved s a.2, starved s b.2 with
  | some x, some y => if x ≠ y then decide (x < y) else byClass
  | some _, none => true
  | none, some _ => false
  | none, none => byClass

end Sys2Proof.Machine
end

