-- ==== Sys2Proof/Machine/System.lean ====
section
/-! DEFINITION. Class 0xE but for the handlers' instructions, and DLREAD, PADMASK: system registers, traps on request, counters,
scratch ways, and the driver of instructions that take one value for their PC group (R19 to R22, R147 to R150, R202, R251 to
R253, R292, R297, R358 to R360, R403 to R406). -/

namespace Sys2Proof.Machine

/-! ### One value for a PC group (R147) -/

/-- Take the value of the lowest %tid with a true guard: if it is illegal, every thread with a true guard traps; otherwise they
retire and the value takes effect once. `f` gives the trap or the effect, from the thread and the state before. -/
def execLead (c : Ctl) (f : State → Nat → Except Lane (State → State)) (s : State) : Out :=
  match leadOf s c with
  | none => forLanes c [] (fun _ _ s => .retire s) s
  | some l =>
    let busy := s.iss.members.any (fun t => guardOf (s.thread t) c && !(sfuOf s t).isEmpty)
    if busy then forLanes c [] (fun _ t s => .hold (waitAgain s t)) s
    else
      match f (issueView s) l with
      | .error lane => forLanes c [] (fun _ _ _ => lane) s
      | .ok eff =>
        let s' := runLanes c [] (fun _ _ s => .retire s) s
        .next (if (s'.thread l).retired == (s.thread l).retired then s' else eff s')

/-! ### System registers (R19 to R22) -/

/-- A bitmap over the 64 tags of a core. -/
def tagMap (x : Core) (f : Tag → Bool) : Nat := (x.tags.filter (fun p => f p.2)).foldl (fun m p => m ||| 2 ^ p.1) 0

def slackOf (s : State) (t : Nat) : Nat :=
  let lk := (s.group (s.thread t).group).launch
  match tfind s.launches lk with
  | some l => (BitVec.ofInt 64 (slackAt s lk l (s.die (dieOfCore (coreOfThread t))).dlclk)).toNat
  | none => 0

def dlclkOf (s : State) (t : Nat) : Nat := (s.die (dieOfCore (coreOfThread t))).dlclk % 2 ^ 64

/-- The value SYSRD reads for a thread. -/
def sysVal (s : State) (t sel : Nat) : Nat :=
  let th := s.thread t
  let g := s.group th.group
  let c := coreOfThread t
  let l := s.launchOf t
  match sel with
  | 0x000 => laneOf t
  | 0x001 => turnOf t
  | 0x002 => th.tid
  | 0x003 => g.grp
  | 0x004 => coreInDie c
  | 0x005 => coreInDie c / 4
  | 0x006 => coreSector s c
  | 0x007 => dieOfCore c
  | 0x008 => s.partOf t
  | 0x010 => match l with | some l => l.id | none => 0
  | 0x020 => if (match l with | some l => l.r.det | none => false) then th.retired.toNat else s.clock % 2 ^ 64
  | 0x021 => th.retired.toNat
  | 0x022 => dlclkOf s t
  | 0x023 => slackOf s t
  | 0x024 => th.dvpc.toNat
  | 0x030 => tagMap (s.core c) (·.ready)
  | 0x031 => tagMap (s.core c) (·.err)
  | 0x038 => (s.core c).scrways.toNat
  | 0x039 => th.fpflags.toNat
  | 0x03A => (s.core c).laviol.toNat
  | 0x048 => g.region.toNat
  | _ => if 0x40 ≤ sel ∧ sel < 0x48 then (match l with | some l => (l.r.shape.getD (sel - 0x40) 0).toNat | none => 0) else 0

def execSysrd (c : Ctl) (w64 : Bool) (sel : BitVec 12) (d : Reg) (s : State) : Out :=
  forLanes c (unitsFor d []) (fun s0 t s => retireAlu s0 s t c (.nat d (nregs64 w64) (sysVal s0 t sel.toNat))) s

/-- The number of scratch ways a legal mask of R21 gives. -/
def waysOfMask (m : Nat) : Option Nat := (List.range 13).find? (fun n => 2 ^ n - 1 == m)

/-- A request for `n` scratch ways (R254). -/
def requestWays (core n : Nat) (s : State) : State := s.modCore core (fun x => { x with ways := x.ways ++ [(n, s.nextId)] })

/-- Each thread writes its own %fpflags (DEDUCED, log entry 12), once its instructions in flight have completed (R20); the
core-scope registers take one value. -/
def execSyswr (c : Ctl) (w64 : Bool) (sel : BitVec 12) (a : Src) (s : State) : Out :=
  let val (s0 : State) (t : Nat) : Word := BitVec.ofNat 32 (srcNat (s0.thread t) (s0.group (s0.thread t).group) (nregs64 w64) a)
  match sel.toNat with
  | 0x038 => execLead c (fun s0 l =>
      match waysOfMask ((val s0 l).toNat % 2 ^ 16) with
      | none => .error (.trapC 0x11)
      | some n => .ok (requestWays (coreOfThread l) n)) s
  | 0x039 => forOut c [] (fun s0 t s =>
      if !(lateOf s0 t).isEmpty then .hold (waitAgain s t)
      else .retire (s.modThread t (fun x => { x with fpflags := (val s0 t).setWidth 5 }))) s
  | 0x03A => execLead c (fun s0 l => .ok (fun s => s.modCore (coreOfThread l) (fun x => { x with laviol := val s0 l }))) s
  | _ => forOut c [] (fun _ _ s => .retire s) s

/-! ### TRAP, BKPT -/

def execTrap (c : Ctl) (code : BitVec 16) (s : State) : Out := forOut c [] (fun _ _ _ => .trapD 6 code.toNat) s
def execBkpt (c : Ctl) (code : BitVec 16) (s : State) : Out := forOut c [] (fun _ _ _ => .trapD 7 code.toNat) s

/-! ### Counters (R149, R150, R251, R403 to R406) -/

/-- Selector 0x10E of a cluster (R403). -/
def railWord (k : Cluster) : Nat :=
  k.railmv + k.fstep * 2 ^ 16 + k.settling.toNat * 2 ^ 24 + k.safereq.toNat * 2 ^ 25 + k.change.isSome.toNat * 2 ^ 26

/-- SLOT_IDLE: the slots of the clocks that have passed which are in no other count (R404). -/
def slotIdle (s : State) (c : Nat) : DWord :=
  let x := s.core c
  BitVec.ofNat 64 (2 * s.clock) - tget 0 x.cnt0 0x11 - tget 0 x.cnt0 0x12 - tget 0 x.cnt0 0x13

/-- The value CNTRD reads for a thread: of a counter, as of the start of the clock. -/
def cntVal (s : State) (t sel : Nat) : DWord :=
  let c := coreOfThread t
  let k := s.cluster (clusterOf c)
  if sel < 4 then (match (s.group (s.thread t).group).gc[sel]? with | some x => x.value0 | none => 0)
  else if sel = 0x10 then BitVec.ofNat 64 s.clock
  else if sel = 0x14 then slotIdle s c
  else if sel < 0x100 then tget 0 (s.core c).cnt0 sel
  else if sel = 0x10E then BitVec.ofNat 64 (railWord k)
  else if sel = 0x10F then BitVec.ofNat 64 (k.fifo.length + k.fifoHigh * 2 ^ 8)
  else if sel < 0x200 then tget 0 k.cnt0 sel
  else if sel < 0x300 then tget 0 (s.part (s.partOf t)).tel0 (16 * dieOfCore c + sel % 16)
  else tget 0 (s.die (dieOfCore c)).snap (16 * (sel - 0x300) + s.partOf t)

/-- The read of FIFO resets its high-water mark (R403). -/
def cntRead (s : State) (t sel : Nat) : State :=
  if sel = 0x10F then s.modCluster (clusterOf (coreOfThread t)) (fun k => { k with fifoHigh := k.fifo.length }) else s

def execCntrd (c : Ctl) (w64 : Bool) (ctr : BitVec 10) (d : Reg) (s : State) : Out :=
  forLanes c (unitsFor d []) (fun s0 t s =>
    retireAlu s0 (cntRead s t ctr.toNat) t c (.nat d (nregs64 w64) (cntVal s0 t ctr.toNat).toNat)) s

/-- A configuration word of R150 is legal. -/
def cntCfgOk (x : Word) : Bool :=
  let n := x.toNat
  n / 2 ^ 16 == 0 && n / 2 ^ 14 % 4 != 3 && decide (1 ≤ n % 2 ^ 12) && decide (n % 2 ^ 12 ≤ 0xE)

def execCntcfg (c : Ctl) (gc : Fin 4) (a : Src) (s : State) : Out :=
  execLead c (fun s0 l =>
    let th := s0.thread l
    let x := srcW th (s0.group th.group) a
    if !cntCfgOk x then .error (.trapC 0x12)
    else .ok (fun s => s.modGroup th.group (fun g =>
      { g with gc := g.gc.set gc.val { g.gc.getD gc.val {} with next := some (x, l) } }))) s

/-! ### Scratch ways, region mode, injection -/

def execWayset (c : Ctl) (n : Fin 16) (s : State) : Out :=
  execLead c (fun _ l => if 12 < n.val then .error (.trapC 0x11) else .ok (requestWays (coreOfThread l) n.val)) s

/-- Default MTOL_f of R56. -/
def mtolDefault : Word := 0x40101000

def regionCode : RegionMode → BitVec 2
  | .exact => 1
  | .checked => 2
  | .tolerant => 3

/-- BLOCK_FIELD is detail 2 of ENGINE_ISSUE (R194). -/
def execMregion (c : Ctl) (mode : RegionMode) (a : Option Reg) (s : State) : Out :=
  execLead c (fun s0 l =>
    let th := s0.thread l
    match a with
    | none => .ok (fun s => s.modGroup th.group (fun g => { g with region := regionCode mode, mtol := mtolDefault, mretry := 3 }))
    | some r =>
      let x := regD th (s0.group th.group) r
      if hi32 x ≥ 16 then .error (.trapD 0x40 2)
      else .ok (fun s => s.modGroup th.group (fun g =>
        { g with region := regionCode mode, mtol := lo32 x, mretry := (hi32 x).toNat }))) s

/-- The descriptor of R358, its eight words low first as one number; none is INJ_DESC. -/
def injParse (x t launch part since : Nat) : Option (Nat × Injector) :=
  let e (i : Nat) : Nat := fld x (4 * i) 4
  let cls := e 0 % 16
  let target := bitsAt (e 0) 10 4
  let seed := e 1 + e 2 * 2 ^ 32
  let f0 := if cls = 2 then e 3 else bitsAt (e 3) 0 10
  let l0 := if cls = 2 then e 4 else bitsAt (e 3) 16 10
  let f1 := bitsAt (e 4) 0 10
  let l1 := bitsAt (e 4) 16 10
  let b0 := bitsAt (e 5) 0 5
  let b1 := bitsAt (e 5) 8 5
  let winOk := if cls = 1 then onlyFields (e 3) [(0, 10), (2, 10)] && onlyFields (e 4) [(0, 10), (2, 10)]
    else cls == 2 || (e 3 == 0 && e 4 == 0)
  let targetOk : Bool := match cls with
    | 1 => target == 0
    | 2 => decide (target < 3) && decide (b1 < 8)
    | 3 => decide (target < 8)
    | 4 => decide (1 ≤ target) && decide (target ≤ 8)
    | _ => true
  if cls ≤ 4 && seed != 0 && e 0 / 2 ^ 14 == 0 && winOk && targetOk && onlyFields (e 5) [(0, 5), (1, 5)] && e 7 == 0 &&
      decide (f0 ≤ l0) && (cls != 1 || decide (f1 ≤ l1)) && decide (b0 ≤ b1) then
    some (cls, { k := bitsAt (e 0) 4 6, target, x := BitVec.ofNat 64 seed, first0 := f0, last0 := l0, first1 := f1, last1 := l1,
                 bit0 := b0, bit1 := b1, count := e 6, thread := t, launch, part, since })
  else none

/-- The record of an ignored injection (R349, R360): kind R, with the thread's place. -/
def injIgnored (s : State) (t cls : Nat) (pc : DWord) : State :=
  let (serial, s) := freshId s
  let part := s.partOf t
  let die := dieOfCore (coreOfThread t)
  let f := mkRec s t 0x80 cls 32 pc 0 0 0 255 serial
  let s := telCount (emitRecord s part f) part die 0xE 1
  { s with fw := { s.fw with mgmtLog := s.fw.mgmtLog ++ [.injIgnored t] } }

def execErrinj (c : Ctl) (a : Reg) (s : State) : Out :=
  execLead c (fun s0 l =>
    let th := s0.thread l
    let lk := (s0.group th.group).launch
    let co := coreOfThread l
    let x := regNat th (s0.group th.group) 8 a
    if !(s0.part (s0.partOf l)).test then .ok (fun s => injIgnored s l (x % 16) th.pc)
    else
      match injParse x l lk (s0.partOf l) s0.nextId with
      | none => .error (.trapC 0x34)
      | some (0, _) => .ok (fun s => s.modCore co (fun x => { x with inj := [] }))
      | some (cls, i) => .ok (fun s => setInj s co cls (some i))) s

/-! ### DLREAD, PADMASK (R292, R297) -/

def dlValue (s : State) (t : Nat) (sel : DlSel) : Nat :=
  let now := dlclkOf s t
  let r : Nat × Nat := match s.launchOf t with
    | some l => (l.r.deadline, l.r.wrapbudget)
    | none => (0, 0)
  match sel with
  | .now => now
  | .dl => r.1
  | .div => if r.1 = 0 then 0 else r.1 - r.2
  | .left =>
    let x : Int := if r.1 = 0 then 2 ^ 63 - 1 else (r.1 : Int) - now
    (BitVec.ofInt 64 (min (max x (-(2 ^ 63))) (2 ^ 63 - 1))).toNat

def execDlread (c : Ctl) (sel : DlSel) (qe : Option PDst) (d : Reg) (s : State) : Out :=
  forLanes c (unitsFor d []) (fun s0 t s =>
    let lock := (s0.die (dieOfCore (coreOfThread t))).locked
    retireAlu s0 s t c { Res.nat d 2 (dlValue s0 t sel) with preds := match qe with | some q => [(q.val, lock)] | none => [] }) s

def execPadmask (c : Ctl) (n : Fin 8) (qd qe : PDst) (a : Src) (s : State) : Out :=
  forLanes c [1] (fun s0 t s =>
    let th := s0.thread t
    let g := s0.group th.group
    let x := srcW th g a
    let sh : Word := match s0.launchOf t with | some l => l.r.shape.getD n.val 0 | none => 0
    let p := g.pads.getD n.val 0
    .retire (writePred (writePred s t (some qd) (x < (if sh < p then sh else p))) t (some qe) (sh ≤ x && x < p))) s

end Sys2Proof.Machine
end

