-- ==== Sys2Proof/Machine/Barriers.lean ====
section
/-! DEFINITION. Class 0xA but for sync objects: group barriers, fences, barrier objects (R211 to R222, R261, R262). -/

namespace Sys2Proof.Machine

/-! ### Release and acquire (R261 to R263) -/

/-- Every earlier access of the thread has reached the point that a release at a scope asks for; beyond the group, no bridge keeps dirty
bytes of its core from their homes (R383, log entry 108). -/
def releaseReady (s : State) (t : Nat) (sc : Scope) : Bool :=
  (loadsOf s t).isEmpty && (loggedOf s t).isEmpty && (sc == .thr || (storesOf s t).isEmpty) &&
    !(wideScope sc && l1Stuck s (coreOfThread t))

/-- Every earlier load and returning atomic of the thread has returned. -/
def loadsDone (s : State) (t : Nat) : Bool := (loadsOf s t).isEmpty && (loggedOf s t).isEmpty

def fenceOrder : FenceOrd → Order
  | .acq => .acq
  | .rel => .rel
  | .ar => .ar

def execFence (c : Ctl) (ord : FenceOrd) (sc : Scope) (s : State) : Out :=
  forOut c [] (fun s0 t s =>
    let co := coreOfThread t
    let ready := match ord with
      | .acq => loadsDone s t
      | _ => releaseReady s t sc
    if !ready then .hold (waitFinish s t)
    else .retire (acquireAt (releaseAt s co (s0.partOf t) sc (fenceOrder ord)) co sc (fenceOrder ord))) s

/-! ### Group barriers (R220, R221) -/

/-- One arrival of a thread at barrier `id`: a release at .grp of its stores still under way. -/
def barArrive (s : State) (t id n : Nat) : State :=
  s.modGroup (s.thread t).group (fun g =>
    let b := tget {} g.bars id
    { g with bars := tset id { b with n, count := b.count + 1, rel := if (storesOf s t).isEmpty then b.rel else b.rel ++ [(t, s.nextId)] } g.bars })

/-- The instruction waits for its threads' loads (R348), and in a DET launch for their stores, so that a phase is complete with its
last arrival (R339; DEDUCED, log entry 30). -/
def barReady (s : State) (t : Nat) : Bool := loadsDone s t && (!s.detOf t || (storesOf s t).isEmpty)

/-- The arrivals of the PC group count together, and then the phase may complete. -/
def execBar (c : Ctl) (arv : Bool) (id : Fin 16) (n : Src) (s : State) : Out :=
  let s' := runLanes c [] (outward (gated c barReady waitAgain (fun s0 t s =>
    let th := s0.thread t
    let g := s0.group th.group
    let k := srcNat th g 1 n
    let b := gbar s th.group id.val
    if g.size < k then .trapC 0x13
    else if b.count ≠ 0 ∧ b.n ≠ k then .trapC 0x14
    else
      let s := barArrive s t id.val k
      if arv then .retire s else .done (s.modThread t (fun x => { x with run := .waiting (.bar id.val b.phase) }))))) s
  .next (match s.iss.members with
    | [] => s'
    | t :: _ => barSettle s' (s.thread t).group id.val)

/-! ### Barrier objects (R211 to R219) -/

/-- The pointer of R215. -/
def boPtr (s0 : State) (t : Nat) (a : Reg) (imm : Word) : DWord := regD (s0.thread t) (s0.group (s0.thread t).group) a + sxImm imm

/-- A thread may act on its object: the way is filled, its earlier accesses to the object have performed, and so have those that
acquire (R160, R164, R213, R264). -/
def boReady (a : Reg) (imm : Word) (s0 : State) (t : Nat) : Bool :=
  let co := coreOfThread t
  let p := boPtr s0 t a imm
  match boLoc s0 co (s0.partOf t) p with
  | some loc => !ptrUnfilled s0 co p 16 && ownClear s0 co (s0.partOf t) t [⟨loc, 16⟩] && acqClear s0 co t
  | none => true

/-- The object that the pointer names, or BARRIER_PTR; a bridge that is down, and an uncorrectable error of the object where it is
read, fail the operation at once (DEDUCED, log entry 15). -/
def boOperand (s0 s : State) (t : Nat) (a : Reg) (imm : Word) (reads : Bool) (f : Loc → Lane) : Lane :=
  let co := coreOfThread t
  let part := s0.partOf t
  let p := boPtr s0 t a imm
  match boLoc s co part p with
  | some loc =>
    if !boPtrOk s co part p then .trapA 0x2B p
    else
      match linkFault s (dieOfCore co) loc, (if reads then ueDetail s loc 16 else none) with
      | some det, _ => .trap 0x53 det p 0 false
      | none, some det => .trap 0x52 det p 0 false
      | none, none => f loc
  | none => .trapA 0x2B p

/-- A barrier object instruction: its PC group's threads act together, in ascending %tid (R215). -/
def forObjects (c : Ctl) (us : List Nat) (a : Reg) (imm : Word) (f : State → Nat → State → Lane) (s : State) : Out :=
  forOut c us (gated c (boReady a imm) waitAccesses f) s

def execBoinit (c : Ctl) (a : Reg) (imm : Word) (b : Src) (s : State) : Out :=
  forObjects c (unitsFor a [1]) a imm (fun s0 t s =>
    let th := s0.thread t
    let x := srcNat th (s0.group th.group) 2 b
    boOperand s0 s t a imm false (fun loc =>
      if 2 ^ 56 ≤ x then .trapC 0x2B
      else .retire (locWrite s loc (leBytes 16 x)))) s

/-- The object after BOEXPECT, before the flip is evaluated (R216). -/
def boExpectVal (x b : Nat) (add : Bool) : Nat :=
  let e := if add then boExpBytes x + b else b
  let st := if 2 ^ 40 ≤ e then boStatus x ||| 2 else boStatus x
  boMake (min e (2 ^ 40 - 1)) (boExpArr x) st (boArrBytes x) (boArrCnt x) (boErr x) (boPhase x)

def execBoexpect (c : Ctl) (add : Bool) (a : Reg) (imm : Word) (b : Src) (s : State) : Out :=
  forObjects c (unitsFor a [1]) a imm (fun s0 t s =>
    let th := s0.thread t
    let x := srcNat th (s0.group th.group) 1 b
    boOperand s0 s t a imm true (fun loc =>
      .retire (boUpdate (locWrite s loc (leBytes 16 (boExpectVal (locNat s loc 16) x add))) loc 0 0 0 (some th.group)))) s

/-- A release at its scope, then the update; d receives the old phase (R216, R218). -/
def execBoarrive (c : Ctl) (tx : Bool) (sc : Scope) (ret : Option Reg) (a : Reg) (imm : Word) (b : Src) (s : State) : Out :=
  forOut c (match ret with | some d => unitsFor d (unitsFor a [1]) | none => unitsFor a [1])
   (gated c (fun s0 u => releaseReady s0 u sc && boReady a imm s0 u) waitFinish (fun s0 t s =>
    let th := s0.thread t
    let x := srcNat th (s0.group th.group) 1 b
    boOperand s0 s t a imm true (fun loc =>
        let s := releaseAt s (coreOfThread t) (s0.partOf t) sc .rel
        let old := boPhase (locNat s loc 16)
        let s := boUpdate s loc (if tx then x else 0) (if tx then 0 else x) 0 (some th.group)
        match ret with
        | some d => retireLate s t c (leadOf s0 c == some t) (.reg d [BitVec.ofNat 32 old.toNat])
        | none => .retire s))) s

/-- BOWAIT returns at once when the phase differs from the parity; otherwise the thread registers and waits (R217). -/
def execBowait (c : Ctl) (sc : Scope) (d a : Reg) (imm : Word) (b : Src) (s : State) : Out :=
  forObjects c (unitsFor d (unitsFor a [1])) a imm (fun s0 t s =>
    let th := s0.thread t
    let par := flag (srcNat th (s0.group th.group) 1 b) 0
    let lead := leadOf s0 c == some t
    boOperand s0 s t a imm true (fun loc =>
      let x := locNat s loc 16
      if boPhase x ≠ par then
        retireLate (acquireAt s (coreOfThread t) sc .acq) t c lead (.reg d [boWord (boErr x) false (boPhase x) true])
      else .done (s.modThread t (fun y => { y with run := .waiting (.bowait loc (keepDest lead d) par) })))) s

def execBotest (c : Ctl) (sc : Scope) (d a : Reg) (imm : Word) (b : Src) (s : State) : Out :=
  forObjects c (unitsFor d (unitsFor a [1])) a imm (fun s0 t s =>
    let th := s0.thread t
    let par := flag (srcNat th (s0.group th.group) 1 b) 0
    boOperand s0 s t a imm true (fun loc =>
      let x := locNat s loc 16
      let done := boPhase x != par
      retireLate (if done then acquireAt s (coreOfThread t) sc .acq else s) t c (leadOf s0 c == some t)
        (.reg d [boWord (if done then boErr x else 0) false (boPhase x) done]))) s

end Sys2Proof.Machine
end

