-- ==== Sys2Proof/Machine/Copies.lean ====
section
/-! DEFINITION. Copies and tags (R223 to R234, R254, R255, R272). -/

namespace Sys2Proof.Machine

/-! ### Pieces of memory named by a descriptor -/

/-- A run of bytes before translation: at a pointer, or outside an extent under BMODE ZERO and in padding. -/
structure Piece where
  ptr : Option DWord
  len : Nat
  deriving DecidableEq, Repr

/-- Bytes [o, o + size) of an object: those outside its extent are read as zero and not written (R225). -/
def objPieces (e : Nat) (o : Int) (size : Nat) : List Piece :=
  let before := min size (-o).toNat
  let start := o.toNat
  let inside := min (size - before) (oExtent e - start)
  [⟨none, before⟩, ⟨some (oBase e + BitVec.ofNat 64 start), inside⟩, ⟨none, size - before - inside⟩].filter (fun p => p.len != 0)

def outOfBounds (e : Nat) (o : Int) (size : Nat) : Bool := decide (o < 0) || decide ((oExtent e : Int) < o + size)

/-- Scratch size after every way change requested (R225 step 6). -/
def pendingScratch (x : Core) : Nat := x.ways.foldl (fun m w => min m (w.1 * 131072)) (scratchSize x)

/-- Every piece in scratch lies below a size. -/
def piecesInScratch (ps : List Piece) (size : Nat) : Bool :=
  ps.all (fun p => match p.ptr with
    | some x => ptrSpace x != 1 || decide (ptrOff x + p.len ≤ size)
    | none => true)

/-- Pieces as places; a page that does not translate gives the failure and its pointer. -/
def resolvePieces (s : State) (c part : Nat) (priv : Bool) (n : Need) : List Piece → Except (AFail × DWord) (List Seg)
  | [] => .ok []
  | p :: ps =>
    match p.ptr with
    | none =>
      match resolvePieces s c part priv n ps with
      | .error f => .error f
      | .ok gs => .ok (⟨.zero, p.len⟩ :: gs)
    | some x =>
      match resolveSpan s c part priv n (spanFuel p.len) x p.len with
      | .error f => .error (f, x)
      | .ok g =>
        match resolvePieces s c part priv n ps with
        | .error f => .error f
        | .ok gs => .ok (g ++ gs)

/-- The addresses of device memory that a piece is translated at, one for each page. -/
def pieceVas (p : Piece) : List Nat :=
  match p.ptr with
  | some x =>
    if ptrSpace x = 0 then (List.range ((ptrOff x % 4096 + p.len + 4095) / 4096)).map (fun i => ptrOff x / 4096 * 4096 + 4096 * i) else []
  | none => []

/-- The walks of pieces that no TLB entry covers: one waits at a stack that trains, or they are made (R363, R415). -/
def piecesHeld (s : State) (c part : Nat) (ps : List Piece) : Bool := (ps.flatMap pieceVas).any (walkHeld s c part)
def piecesWalk (s : State) (c part : Nat) (ps : List Piece) : State := (ps.flatMap pieceVas).foldl (fun s va => walkNow s c part va) s

def segsLen (gs : List Seg) : Nat := gs.foldl (fun n g => n + g.len) 0

/-- A segment holds bytes of a line of device memory. -/
def segHasLine (l : Nat) (g : Seg) : Bool :=
  match g.loc with
  | .hbm pa => decide (128 * l < pa + g.len) && decide (pa < 128 * l + 128)
  | _ => false

/-- Dirty bytes of a core's L1 in the lines of some segments are written to their homes (R272). -/
def flushSegs (s : State) (c part : Nat) (gs : List Seg) : State :=
  ((s.core c).l1d.filter (fun p => gs.any (segHasLine p.1))).foldl (fun s p => l1Flush s c part p.1) s

/-- The lines of segments leave a core's L1, and the sector's remote copies of them serve the core no more (R229). -/
def dropSegs (s : State) (c part : Nat) (gs : List Seg) : State :=
  let s := ((s.core c).l1d.filter (fun p => gs.any (segHasLine p.1))).foldl (fun s p => l1Drop s c part p.1) s
  let mine := (s.die (dieOfCore c)).copies.filter (fun p =>
    p.1 / 2 ^ 48 == coreSector s c && gs.any (segHasLine (p.1 % 2 ^ 48)))
  mine.foldl (fun s p => barCopy s c (p.1 % 2 ^ 48)) s

/-- The home slices serve every line of some segments. -/
def useSegs (s : State) (part : Nat) (gs : List Seg) (alloc : Bool := true) : State := gs.foldl (fun s g => segUse s part g alloc) s

/-! ### Tags (R231, R233) -/

def tagOf (s : State) (c n : Nat) : Tag := tget {} (s.core c).tags n

/-- A copy or WSEND on a tag is accepted; none when its count is full. -/
def tagTake (s : State) (c n : Nat) : Option State :=
  let g := tagOf s c n
  if 255 ≤ g.count then none
  else some (s.modCore c (fun x => { x with tags := tset n (if g.count = 0 then { count := 1 } else { g with count := g.count + 1 }) x.tags }))

/-- A WAITANY or WAITALL whose condition holds: the value its thread receives. -/
def tagsMet (x : Core) (all : Bool) (m : DWord) : Option DWord :=
  let ready := BitVec.ofNat 64 (tagMap x (·.ready)) &&& m
  if all then (if ready = m then some (BitVec.ofNat 64 (tagMap x (·.err)) &&& m) else none)
  else if ready ≠ 0 ∨ m = 0 then some ready else none

/-- Threads of a core whose tag waits are met return. -/
def tagsRelease (s : State) (c : Nat) : State :=
  s.threads.foldl (fun s p =>
    match p.2.run with
    | .waiting (.tags all d qe m) =>
      if coreOfThread p.1 = c then
        match tagsMet (s.core c) all m with
        | some v => retireWaiter (writePred (writeOpt s p.1 d (dwords v)) p.1 qe false) p.1 false
        | none => s
      else s
    | _ => s) s

/-- A copy or WSEND on a tag ends. -/
def tagEnd (s : State) (c n code : Nat) : State :=
  let g := tagOf s c n
  let g := if code ≠ 0 then { g with err := true, code := code } else g
  let g : Tag := { g with count := g.count - 1, ready := g.ready || decide (g.count ≤ 1) }
  tagsRelease (s.modCore c (fun x => { x with tags := tset n g x.tags })) c

/-! ### Descriptors (R224) -/

/-- 32-bit word `i` of a descriptor. -/
def dw (x i : Nat) : Nat := fld x (4 * i) 4
def dwInt (x i : Nat) : Int := (BitVec.ofNat 32 (dw x i)).toInt
def descBo (x : Nat) : DWord := BitVec.ofNat 64 (fld x 56 8)

/-- A 16-bit destination entry: the core's key when valid. -/
def destEntry (e : Nat) : Option Nat := if flag e 15 then some (coresPerDie * bitsAt e 7 2 + bitsAt e 0 7) else none
/-- Bits [14:9] are zero, and a valid entry names a core of the part. -/
def destEntryOk (s : State) (e : Nat) : Bool :=
  bitsAt e 9 6 == 0 && (!flag e 15 || (decide (bitsAt e 0 7 < coresPerDie) && corePresent s (bitsAt e 7 2) (bitsAt e 0 7)))

def zeroWords (x : Nat) (is : List Nat) : Bool := is.all (fun i => dw x i == 0)

/-- BO = 0 needs barrier pointer 0, BO = 1 another: COPY_DESC otherwise, which R392's listing would take (R223, R225; DEDUCED, log
entry 101). -/
def boFormOk (dst : CopyDst) (p : DWord) : Bool :=
  match dst with
  | .tag _ => p == 0
  | .bo => p != 0

def dstTag : CopyDst → Option Nat
  | .tag n => some n.val
  | .bo => none

/-! ### Acceptance (R225, R272) -/

/-- The copy waits for room in the core's copy queue of 256, for its tag's count, and for the thread's earlier accesses to what it
reads and writes and those that acquire (R229, R272); then it is accepted and retires. -/
def acceptCopy (s : State) (t : Nat) (cp : Copy) : Lane :=
  if 256 ≤ (s.copies.filter (fun p => p.2.core == cp.core)).length then .hold (waitAgain s t)
  else if !(ownClear s cp.core cp.part t (cp.src ++ cp.dst) && acqClear s cp.core t) then .hold (waitAccesses s t)
  else
    let taken := match cp.tag with
      | some n => tagTake s cp.core n
      | none => some s
    match taken with
    | none => .hold (waitAgain s t)
    | some s =>
      let s := flushSegs s cp.core cp.part (cp.src ++ cp.dst)
      let (id, s) := freshId s
      .retire { s with copies := tset id cp s.copies }

/-- Steps 2 to 7 of R225; `mc` is CPYMC, `here` that the destination lies on the issuing core. -/
def copyChecks (s0 s : State) (t : Nat) (bo : DWord) (mem : MemOp0) (dstNeed : Bool) (size : Nat)
    (src : State → Except Lane (List Piece × Bool × State)) (mc here : Bool)
    (f : State → List Seg → List Seg → Lane) : Lane :=
  let th := s0.thread t
  let g := s0.group th.group
  let co := coreOfThread t
  let part := s0.partOf t
  let priv := s0.privOf t
  if bo ≠ 0 ∧ !boPtrOk s co part bo then .trapA 0x2B bo
  else
    match capture s co part (objIdx g mem.obj) with
    | none => .uncaptured s co part (objIdx g mem.obj)
    | some (e, s) =>
      let o : Int := (srcNat th g 1 mem.a : Int) + mem.off.toInt
      if !entryValid s part (dieOfCore co) e then .trapC 0x20
      else if oType e ≠ 1 ∧ oType e ≠ 2 then .trapC 0x21
      else if !(if dstNeed then oW e else oR e) then .trapC 0x22
      else if outOfBounds e o size ∧ oBmode e = 0 then .trapC 0x24
      else
        match src s with
        | .error l => l
        | .ok (sp, sOut, s) =>
          let dp := objPieces e o size
          if mc ∧ ptrSpace (oBase e) ≠ 1 then .trapC 0x2C
          else if !piecesInScratch ((if here then dp else []) ++ sp) (pendingScratch (s.core co)) then .trapC 0x2A
          else if piecesHeld s co part (dp ++ sp) then .hold (waitAgain s t)
          else
            let s := piecesWalk s co part (dp ++ sp)
            match resolvePieces s co part priv (if dstNeed then needW else needR) dp with
            | .error (x, p) => .fail x p
            | .ok ds =>
              match resolvePieces s co part priv (if dstNeed then needR else needW) sp with
              | .error (x, p) => .fail x p
              | .ok ss =>
                match f s ds ss with
                | .retire s => .retire (if outOfBounds e o size || sOut then countOob s t else s)
                | l => l

/-- Step 4 for a source object named by its index. -/
def srcObject (t : Nat) (part : Nat) (idx : Nat) (o : Int) (size : Nat) (s : State) : Except Lane (List Piece × Bool × State) :=
  let co := coreOfThread t
  match capture s co part idx with
  | none => .error (.uncaptured s co part idx)
  | some (e, s) =>
    if !entryValid s part (dieOfCore co) e then .error (.trapC 0x20)
    else if oType e ≠ 1 ∧ oType e ≠ 2 then .error (.trapC 0x21)
    else if !oR e then .error (.trapC 0x22)
    else if outOfBounds e o size ∧ oBmode e = 0 then .error (.trapC 0x24)
    else .ok (objPieces e o size, outOfBounds e o size, s)

def newCopy (s0 : State) (c : Ctl) (t : Nat) (dst : CopyDst) (bo : DWord) (src dsts : List Seg) (bytes : Nat) : Copy :=
  { core := coreOfThread t, thread := t, launch := (s0.group (s0.thread t).group).launch, part := s0.partOf t, tag := dstTag dst
    bo, src, dst := dsts, bytes, noL2 := !chL2 c.ch }

/-! ### CPY, CPYMC (R226, R228) -/

def execCpy (c : Ctl) (dst : CopyDst) (mem : MemOp0) (b : Reg) (s : State) : Out :=
  forOut c (addrUnits mem.a) (fun s0 t s =>
    let th := s0.thread t
    let x := regNat th (s0.group th.group) 16 b
    let n := dw x 2
    let bo := descBo x
    if !(decide (dw x 0 < 2 ^ 16) && decide (1 ≤ n) && decide (n ≤ 0x1000000) && zeroWords x [3, 4, 5, 6, 7, 8, 9, 10, 11, 12, 13] &&
        boFormOk dst bo) then .trapC 0x2C
    else copyChecks s0 s t bo mem true n (srcObject t (s0.partOf t) (dw x 0) (dwInt x 1) n) false true
      (fun s ds ss => acceptCopy s t (newCopy s0 c t dst bo ss ds n))) s

/-- o' + BYTES of R228: the offset in scratch at which a branch ends. -/
def mcReach (s : State) (t : Nat) (mem : MemOp0) (n : Nat) : Nat :=
  let th := s.thread t
  let g := s.group th.group
  match capture s (coreOfThread t) (s.partOf t) (objIdx g mem.obj) with
  | some (e, _) => ((ptrOff (oBase e) : Int) + srcNat th g 1 mem.a + mem.off.toInt + n).toNat
  | none => n

def execCpymc (c : Ctl) (dst : CopyDst) (mem : MemOp0) (b : Reg) (s : State) : Out :=
  forOut c (addrUnits mem.a) (fun s0 t s =>
    let th := s0.thread t
    let x := regNat th (s0.group th.group) 16 b
    let n := dw x 2
    let bo := descBo x
    let es := (List.range 4).map (fun i => fld x (12 + 2 * i) 2)
    let dests := es.filterMap destEntry
    if !(decide (dw x 0 < 2 ^ 16) && decide (1 ≤ n) && decide (n ≤ 0x100000) && zeroWords x [5, 6, 7, 8, 9, 10, 11, 12, 13] &&
        es.all (destEntryOk s0) && !dests.isEmpty && boFormOk dst bo) then .trapC 0x2C
    else copyChecks s0 s t bo mem true n (srcObject t (s0.partOf t) (dw x 0) (dwInt x 1) n) true
      (dests.contains (coreOfThread t))
      (fun s ds ss => acceptCopy s t
        { newCopy s0 c t dst bo ss ds n with mc := true, reach := mcReach s t mem n, branches := dests.zipIdx.map (fun p => (p.2, p.1)) })) s

/-! ### CPYT (R153, R227) -/

def tNdim (e : Nat) : Nat := bitsAt e 4 3
/-- DIM0 to DIM4 of a pair. -/
def tDim (h t d : Nat) : Nat :=
  match d with
  | 0 => oDim0 h | 1 => oDim1 h | 2 => bitsAt t 96 16 | 3 => bitsAt t 112 16 | _ => bitsAt t 128 16
/-- Byte strides of dimensions 1 to 4. -/
def tStride (h t d : Nat) : Nat :=
  match d with
  | 1 => oStride0 h | 2 => oStride1 h | 3 => bitsAt t 32 32 | _ => bitsAt t 64 32

/-- Captured pair: head and tail. -/
structure Shape where
  head : Nat
  tail : Nat
  state : State

/-- Step 4 for a shape pair: a valid entry of another TYPE at either index is OBJ_TYPE, a pair that does not fit OBJ_INVALID (DESIGN
CHOICE, log entry 89). -/
def shapePair (t part idx : Nat) (st : Bool) (s : State) : Except Lane Shape :=
  let co := coreOfThread t
  match capture s co part idx with
  | none => .error (.uncaptured s co part idx)
  | some (h, s) =>
    if !entryValid s part (dieOfCore co) h then .error (.trapC 0x20)
    else if oType h ≠ 2 then .error (.trapC 0x21)
    else if idx = 65535 then .error (.trapC 0x20)
    else
      match capture s co part (idx + 1) with
      | none => .error (.uncaptured s co part (idx + 1))
      | some (l, s) =>
        if !entryValid s part (dieOfCore co) l then .error (.trapC 0x20)
        else if oType l ≠ 3 then .error (.trapC 0x21)
        else if oGen l ≠ oGen h ∨ tNdim l = 0 ∨ 5 < tNdim l then .error (.trapC 0x20)
        else if !(if st then oW h else oR h) then .error (.trapC 0x22)
        else .ok ⟨h, l, s⟩

def boxCoord (x d : Nat) : Int := dwInt x (4 + d)
def boxExtent (x d : Nat) : Nat := dw x (9 + d)

/-- Elements of dimension 0 moved as one unit: 32 of F4X. -/
def unit0 (h : Nat) : Nat := if oEfmt h = 8 then 32 else 1
/-- Bytes of one unit. -/
def unitBytes (h : Nat) : Nat := if oEfmt h = 8 then 18 else esize (oEfmt h)
def boxCount (x h : Nat) : Nat := boxExtent x 0 / unit0 h * boxExtent x 1 * boxExtent x 2 * boxExtent x 3 * boxExtent x 4

/-- The captured head and tail at an index, when both are there, be they a valid pair or not: the fields that step 1 of R225 checks
and the size of step 3 are read from them before step 4 finds the pair invalid. An index without a head and a tail has no such
fields (DESIGN CHOICE, log entry 89). -/
def shapeRaw (t part idx : Nat) (s : State) : Option Shape :=
  let co := coreOfThread t
  if idx = 65535 then none
  else
    match capture s co part idx with
    | none => none
    | some (h, s) =>
      match capture s co part (idx + 1) with
      | none => none
      | some (l, s) =>
        if entryValid s part (dieOfCore co) h && oType h == 2 && entryValid s part (dieOfCore co) l && oType l == 3 then some ⟨h, l, s⟩
        else none

/-- The field limits that depend on the pair (R224). -/
def boxOk (x : Nat) (p : Shape) : Bool :=
  (List.range 5).all (fun d => decide (d < tNdim p.tail) || (boxCoord x d == 0 && boxExtent x d == 1)) &&
    (oEfmt p.head != 8 || (dw x 4 % 32 == 0 && boxExtent x 0 % 32 == 0)) &&
    decide (boxCount x p.head * unitBytes p.head ≤ 0x1000000)

/-- Unit `i` of the box: its offset from BASE, or none when out of range. -/
def boxUnit (x : Nat) (p : Shape) (i : Nat) : Option Int :=
  let u := unit0 p.head
  let n0 := boxExtent x 0 / u
  let i1 := i / n0
  let i2 := i1 / boxExtent x 1
  let i3 := i2 / boxExtent x 2
  let i4 := i3 / boxExtent x 3
  let x0 : Int := boxCoord x 0 + u * (i % n0 : Nat)
  let xs : List Int := [x0, boxCoord x 1 + (i1 % boxExtent x 1 : Nat), boxCoord x 2 + (i2 % boxExtent x 2 : Nat),
    boxCoord x 3 + (i3 % boxExtent x 3 : Nat), boxCoord x 4 + (i4 : Nat)]
  let inRange := xs.zipIdx.all (fun q => decide (tNdim p.tail ≤ q.2) ||
    (decide (0 ≤ q.1) && (tDim p.head p.tail q.2 == 0 || decide (q.1 < tDim p.head p.tail q.2))))
  if inRange then
    some (x0 / u * unitBytes p.head + ((List.range 5).drop 1).foldl (fun a d => a + xs.getD d 0 * tStride p.head p.tail d) 0)
  else none

/-- The tensor side of a box, unit by unit; an in-range unit outside the extent follows BMODE (DEDUCED, log entry 14). -/
def boxPieces (x : Nat) (p : Shape) : Except Lane (List Piece × Bool) :=
  let n := unitBytes p.head
  let us := (List.range (boxCount x p.head)).map (boxUnit x p)
  let out (u : Option Int) : Bool := match u with
    | some o => outOfBounds p.head o n
    | none => false
  if us.any out && oBmode p.head == 0 then .error (.trapC 0x24)
  else .ok (us.flatMap (fun u => match u with
      | some o => objPieces p.head o n
      | none => [⟨none, n⟩]), us.any out)

def execCpyt (c : Ctl) (dst : CopyDst) (st : Bool) (mem : MemOp0) (b : Reg) (s : State) : Out :=
  forOut c (addrUnits mem.a) (fun s0 t s =>
    let th := s0.thread t
    let x := regNat th (s0.group th.group) 16 b
    let part := s0.partOf t
    let bo := descBo x
    let pair := shapePair t part (dw x 0) st
    let fieldsOk := decide (dw x 0 < 2 ^ 16) && zeroWords x [1, 2, 3] &&
      (List.range 5).all (fun d => decide (1 ≤ boxExtent x d) && decide (boxExtent x d ≤ 65535)) && boFormOk dst bo &&
      (match shapeRaw t part (dw x 0) s with | some p => boxOk x p | none => true)
    if !fieldsOk then .trapC 0x2C
    else
      let size := match shapeRaw t part (dw x 0) s with
        | some p => boxCount x p.head * unitBytes p.head
        | none => 0
      copyChecks s0 s t bo mem (!st) size
        (fun s => match pair s with
          | .error l => .error l
          | .ok p => match boxPieces x p with
            | .error l => .error l
            | .ok (ps, out) => .ok (ps, out, p.state)) false true
        (fun s ds ss => acceptCopy s t (newCopy s0 c t dst bo (if st then ds else ss) (if st then ss else ds) size))) s

/-! ### The tag instructions (R232 to R234) -/

def execTagWait (c : Ctl) (all : Bool) (qe : Option PDst) (d : Reg) (m : Src) (s : State) : Out :=
  forOut c (unitsFor d []) (fun s0 t s =>
    let th := s0.thread t
    let x := srcD th (s0.group th.group) m
    let lead := leadOf s0 c == some t
    match tagsMet (s.core (coreOfThread t)) all x with
    | some v => retireAlu s0 s t c { Res.reg d (dwords v) with preds := match qe with | some q => [(q.val, false)] | none => [] }
    | none => .done (s.modThread t (fun y => { y with run := .waiting (.tags all (keepDest lead d) qe x) }))) s

def execWaitany (c : Ctl) (qe : Option PDst) (d : Reg) (m : Src) (s : State) : Out := execTagWait c false qe d m s
def execWaitall (c : Ctl) (qe : Option PDst) (d : Reg) (m : Src) (s : State) : Out := execTagWait c true qe d m s

def execFfr (c : Ctl) (d : Reg) (m : Src) (s : State) : Out :=
  forLanes c (unitsFor d []) (fun s0 t s =>
    let th := s0.thread t
    let x := srcD th (s0.group th.group) m &&& BitVec.ofNat 64 (tagMap (s0.core (coreOfThread t)) (·.ready))
    retireAlu s0 s t c (.reg d [BitVec.ofNat 32 (((List.range 64).find? (fun i => x.getLsbD i)).getD 64)])) s

def execTagclr (c : Ctl) (m : Src) (s : State) : Out :=
  forOut c [] (fun s0 t s =>
    let th := s0.thread t
    let x := srcD th (s0.group th.group) m
    .retire (s.modCore (coreOfThread t) (fun y =>
      { y with tags := tkeep (fun n g => !(x.getLsbD n) || g.count != 0) y.tags }))) s

def tagWord (g : Tag) : Nat := g.count + g.ready.toNat * 2 ^ 8 + g.err.toNat * 2 ^ 9 + g.code % 128 * 2 ^ 16

def execTagrd (c : Ctl) (d : Reg) (t : Src) (s : State) : Out :=
  forLanes c (unitsFor d []) (fun s0 u s =>
    let th := s0.thread u
    let n := srcNat th (s0.group th.group) 1 t % 64
    retireAlu s0 s u c (.nat d 1 (tagWord (tagOf s0 (coreOfThread u) n)))) s

/-! ### The end of a copy (R228 to R230) -/

/-- ASYNC_ERROR as a launch's first fault (R342). -/
def asyncError (s : State) (launch code : Nat) : State := if code = 0 then s else noteFault s launch 0x70 code

/-- The failure that ends a copy, in the codes of R211. -/
def copyCode (why : Option AccFail) : Nat :=
  match why with
  | none => 0
  | some (.dataError _) => 1
  | some _ => 7

/-- The first byte of each line of device memory that a segment touches, or the segment's own place. -/
def segLines (g : Seg) : List Loc :=
  match g.loc with
  | .hbm pa => (List.range ((pa % 128 + g.len + 127) / 128)).map (fun i => .hbm (max pa (pa / 128 * 128 + 128 * i)))
  | l => [l]

/-- A segment that no link carries; one in an unfilled way, or in a stack that does not serve it. -/
def segDown (s : State) (c t : Nat) (g : Seg) : Bool := (linkFault s (dieOfCore c) g.loc t).isSome
/-- A segment whose far end may fail it; `read`: it is read (R376, R382). -/
def segFails (s : State) (c t : Nat) (read : Bool) (g : Seg) : Bool := (farFault s (dieOfCore c) g.loc t read).isSome
def segWaits (s : State) (g : Seg) : Bool :=
  match g.loc with
  | .scratch c o => unfilledAt s c o g.len
  | _ => (segLines g).any (fun l => hbmHeld s l || hbmFailed s l)

/-- The storage of a segment has an uncorrectable error (R411). -/
def segBad (s : State) (g : Seg) : Bool := (segLines g).any (fun l => (ueDetail s l (match l with | .hbm _ => 1 | _ => g.len)).isSome)

/-- A place where a read of the segments `rd` meets an uncorrectable error of detail `d`, or a write of `wr` a stack whose training
failed; none while a stack that trains holds one of them (R411, R415). -/
def segsError (s : State) (rd wr : List Seg) (d : Nat) : Option Loc :=
  if (rd ++ wr).any (fun g => (segLines g).any (hbmHeld s)) then none
  else (rd.flatMap segLines).find? (fun l => dataErrorFits s l d) |>.or
    (if d = 1 then (wr.flatMap segLines).find? (hbmFailed s) else none)

/-- Such an error is counted where it lies; a stack whose training failed has none (R416). -/
def countSeg (s : State) (l : Loc) (d : Nat) : State := if hbmFailed s l then s else countUeAt s l d

/-- The scratch reads of segments, under the SRAM injectors of their cores; what a save area holds is not in scratch (R359). -/
def drawSegs (s : State) (away : List Nat) (gs : List Seg) : State :=
  gs.foldl (fun s g => match g.loc with
    | .scratch d o => if away.contains d then s else injScratchAll s d o g.len
    | _ => s) s

/-- One byte of a copy moves (R229). -/
def copyByte (s : State) (cp : Copy) (i : Nat) : State := locSet s (segsAt cp.dst i) (locByte s (segsAt cp.src i))

def copyByteAct (s : State) (id i : Nat) : State :=
  match tfind s.copies id with
  | none => s
  | some cp =>
    if cp.mc || cp.welt.isSome || cp.moved.contains i || decide (cp.bytes ≤ i) || (cp.src ++ cp.dst).any (segWaits s) || cp.src.any (segBad s) then s
    else
      let s' := withScratch s cp.launch (fun s => copyByte s cp i)
      drawSegs { s' with copies := tset id { cp with moved := cp.moved ++ [i] } s'.copies } (awayCores s cp.launch) [⟨segsAt cp.src i, 1⟩]

/-- All bytes not yet moved are read, then written. -/
def copyRest (s : State) (cp : Copy) : State :=
  if cp.moved.isEmpty then segsWrite s cp.dst (segsRead s cp.src)
  else
    let is := (List.range cp.bytes).filter (fun i => !cp.moved.contains i)
    let bs := is.map (fun i => (i, locByte s (segsAt cp.src i)))
    bs.foldl (fun s p => locSet s (segsAt cp.dst p.1) p.2) s

/-- The scratch reads of the bytes not yet moved. -/
def drawRest (s : State) (cp : Copy) : State :=
  let away := awayCores s cp.launch
  if cp.moved.isEmpty then drawSegs s away cp.src
  else drawSegs s away (((List.range cp.bytes).filter (fun i => !cp.moved.contains i)).map (fun i => ⟨segsAt cp.src i, 1⟩))

/-- The copy leaves the queue: its tag or barrier object learns its end. -/
def copyDone (s : State) (id : Nat) (cp : Copy) (code bytes : Nat) : State :=
  let s := { s with copies := tdel id s.copies }
  let s := asyncError s cp.launch code
  match cp.tag with
  | some n => tagEnd s cp.core n code
  | none => if cp.mc then s else boContribute s cp.core cp.part cp.bo bytes 0 code

/-- A core runs a group of a launch: one of its groups is resident there, and so until the launch completes or is swapped out (R278;
log entry 80). -/
def runsLaunch (s : State) (c launch : Nat) : Bool :=
  s.groups.any (fun p => p.2.launch == launch && p.2.core == c && (p.2.swap == .resident || p.2.swap == .requested))

/-- The scratch size in effect for a launch on a core, be its context saved. -/
def launchScratch (s : State) (lk c : Nat) : Nat :=
  match (tfind s.launches lk).bind (fun l => tfind l.ctx c) with
  | some x => 131072 * ((List.range 16).filter (fun i => x.scrways.getLsbD i)).length
  | none => scratchSize (s.core c)

/-- A branch of a CPYMC reaches its core and finds a group of the launch there, room for its bytes and its barrier object (R228,
R255). The issuing core's own branch was checked at issue, but for the object. -/
def branchFits (s : State) (cp : Copy) (d : Nat) : Bool :=
  let size := launchScratch s cp.launch d
  (d == cp.core || runsLaunch s d cp.launch) && decide (cp.reach ≤ size) && (ptrSpace cp.bo != 1 || decide (ptrOff cp.bo + 16 ≤ size))

/-- A failed CPYMC: the branches not delivered learn it at their barrier objects. -/
def mcFail (s : State) (cp : Copy) (code : Nat) : State :=
  if ptrSpace cp.bo = 1 then
    withScratch s cp.launch (fun s' => cp.branches.foldl (fun s' b =>
      if branchFits s cp b.2 then boContribute s' b.2 cp.part cp.bo 0 0 code else s') s')
  else boContribute s cp.core cp.part cp.bo 0 0 code

/-! ### Stations (R236) -/

def stationsOfDie (s : State) (d : Nat) : Nat := if (s.die d).fuse.present then (s.die d).fuse.nsta.sum else 0
def stationCount (s : State) : Nat := ((List.range nDies).map (stationsOfDie s)).sum

def stationOf (s : State) (t : Nat) : Nat :=
  let n := stationCount s
  let h := ((t ^^^ (t / 2 ^ 7) ^^^ (t / 2 ^ 14) ^^^ (t / 2 ^ 21) ^^^ (t / 2 ^ 28)) % 128)
  if n = 0 then 0 else h % n

/-- Die of a station; stations are numbered die by die. -/
def stationDie (s : State) (k : Nat) : Nat :=
  ((List.range nDies).find? (fun d => k < (((List.range (d + 1)).map (stationsOfDie s)).sum))).getD 0

/-- A send ends without reaching its station: cut off by a bridge, LINK_FAIL (R383), or with its tile unreadable, ECC_UNCORR (R411). Its
tag alone reports it (R342; DEDUCED, log entry 102). -/
def sendFails (id : Nat) (cp : Copy) (tag : Nat) (why : Option AccFail) (s : State) : Out :=
  let fin (s : State) (code : Nat) : State :=
    let s := { s with copies := tdel id s.copies }
    match cp.tag with
    | some n => tagEnd s cp.core n code
    | none => s
  match why with
  | some (.linkFail _) => .next (if bridgeDown s (dieOfCore cp.core) (stationDie s (stationOf s tag)) then fin s 7 else s)
  | some (.dataError d) =>
    match segsError s cp.src [] d with
    | some l => .next (fin (countSeg s l d) 1)
    | none => .next s
  | _ => .next s

def execCopyEnd (id : Nat) (why : Option AccFail) (s : State) : Out :=
  match tfind s.copies id with
  | none => .next s
  | some cp =>
    let down := (cp.src ++ cp.dst).any (segDown s cp.core cp.thread)
    let fails := down || cp.src.any (segFails s cp.core cp.thread true) || cp.dst.any (segFails s cp.core cp.thread false)
    if let some (tag, _, _) := cp.welt then sendFails id cp tag why s
    else if cp.mc then
      let unreachable := !cp.branches.isEmpty &&
        (fails || cp.branches.all (fun b => bridgeDown s (dieOfCore cp.core) (dieOfCore b.2)))
      match why with
      | none => if cp.branches.isEmpty then .next (copyDone s id cp cp.code 0) else .next s
      | some (.dataError d) =>
        match segsError s (if cp.data.isNone then cp.src else []) [] d with
        | some l => .next (copyDone (mcFail (countSeg s l d) cp 1) id cp 1 0)
        | none => .next s
      | some (.linkFail _) => if unreachable then .next (copyDone (mcFail s cp 7) id cp 7 0) else .next s
      | some .xlate => .next s
    else
      match why with
      | none =>
        if down || (cp.src ++ cp.dst).any (segWaits s) || cp.src.any (segBad s) then .next s
        else
          let s := useSegs (useSegs (dropSegs s cp.core cp.part cp.dst) cp.part cp.src) cp.part cp.dst (!cp.noL2)
          .next (withScratch (drawRest s cp) cp.launch (fun s => copyDone (copyRest s cp) id cp 0 cp.bytes))
      | some (.dataError d) =>
        match segsError s cp.src cp.dst d with
        | some l =>
          let s := countSeg (dropSegs s cp.core cp.part cp.dst) l d
          .next (withScratch s cp.launch (fun s => copyDone s id cp 1 cp.moved.length))
        | none => .next s
      | some (.linkFail _) =>
        if fails then .next (withScratch (dropSegs s cp.core cp.part cp.dst) cp.launch (fun s => copyDone s id cp 7 cp.moved.length))
        else .next s
      | some .xlate => .next s

/-- The segments of a CPYMC's destination in the scratch of core `d`. -/
def retarget (d : Nat) (gs : List Seg) : List Seg :=
  gs.map (fun g => match g.loc with | .scratch _ o => ⟨.scratch d o, g.len⟩ | _ => g)

/-- A branch of a CPYMC arrives: it is written and counted, or dropped (R228, R255). -/
def execCpymcBranchArrival (id branch : Nat) (s : State) : Out :=
  match tfind s.copies id with
  | none => .next s
  | some cp =>
    match tfind cp.branches branch with
    | none => .next s
    | some d =>
      let gs := retarget d cp.dst
      let fits := branchFits s cp d
      if cp.src.any (segDown s cp.core cp.thread) || cp.src.any (segWaits s) || bridgeDown s (dieOfCore cp.core) (dieOfCore d) ||
          (cp.data.isNone && cp.src.any (segBad s)) || (fits && gs.any (segWaits s)) then .next s
      else
        let s := if cp.data.isNone then drawSegs (useSegs s cp.part cp.src) (awayCores s cp.launch) cp.src else s
        .next (withScratch s cp.launch (fun s =>
          let bytes := cp.data.getD (segsRead s cp.src)
          let cp' := { cp with branches := tdel branch cp.branches, data := some bytes, code := if fits then cp.code else 4 }
          let s := { s with copies := tset id cp' s.copies }
          if fits then boContribute (segsWrite s gs bytes) d cp.part cp.bo cp.bytes 0 0
          else if ptrSpace cp.bo = 2 then boContribute s cp.core cp.part cp.bo 0 0 4
          else s))

/-! ### Way changes (R219, R254, R255) -/

def segInScratch (c lo hi : Nat) (g : Seg) : Bool :=
  match g.loc with
  | .scratch d o => d == c && decide (o < hi) && decide (lo < o + g.len)
  | _ => false

def boInScratch (p : DWord) (lo hi : Nat) : Bool := ptrSpace p == 1 && decide (ptrOff p < hi) && decide (lo < ptrOff p + 16)

/-- What holds a request back: copies and sends issued before it, accesses in flight, and the engine's requests, in [lo, hi) of
the core. -/
def waysHeld (s : State) (c lo hi mark : Nat) : Bool :=
  s.copies.any (fun p => decide (p.1 < mark) && p.2.core == c &&
    ((p.2.src ++ p.2.dst).any (segInScratch c lo hi) || boInScratch p.2.bo lo hi)) ||
  (s.core c).loads.any (fun e => segInScratch c lo hi ⟨.scratch c (ptrOff e.acc.ptr), e.acc.kind.size⟩ && ptrSpace e.acc.ptr == 1) ||
  (s.core c).stores.any (fun e => segInScratch c lo hi ⟨.scratch c (ptrOff e.acc.ptr), e.acc.kind.size⟩ && ptrSpace e.acc.ptr == 1) ||
  (s.cluster (clusterOf c)).table.any (fun r => r.core == c && (boInScratch r.bo lo hi ||
    (match r.kind with | .mma m => m.rows.any (·.any (segInScratch c lo hi)) || m.srows.any (·.any (segInScratch c lo hi)) | _ => false)))

/-- Threads of a core that wait at an object in a released way return as if it had flipped (R219). -/
def waysRelease (s : State) (c lo hi : Nat) : State :=
  s.threads.foldl (fun s p =>
    match p.2.run with
    | .waiting (.bowait (.scratch d o) r par) =>
      if d = c ∧ lo ≤ o ∧ o < hi then retireWaiter (writeOpt s p.1 r [boWord 6 false (!par) true]) p.1 false else s
    | _ => s) s

/-- LDS and STS that wait on a core are checked again once its scratch has changed (R181). -/
def waysCheck (s : State) (c : Nat) : State :=
  s.threads.foldl (fun s p =>
    if coreOfThread p.1 != c || !waitsAgain s p.1 then s
    else
      match p.2.held with
      | none => s
      | some h =>
        let g := { s.group p.2.group with k := h.k }
        let check (a : Src) (imm : Word) (n : Nat) : State := match scratchAddr s c (srcNat p.2 g 1 a) imm n with
          | .error (.trap code d addr gpa w) => takeTrap s p.1 code d addr gpa w
          | _ => s
        match decodeWord h.word with
        | .ok (.lds _ sz _ a imm) => check a imm (ldBytes sz)
        | .ok (.sts _ sz a imm _) => check a imm (stBytes sz)
        | _ => s) s

/-- The oldest request takes effect: the mask, the lost ways, the write-back of the cache ways given, the zero-fill to come. -/
def execWaysetTakesEffect (core : Nat) (s : State) : Out :=
  let x := s.core core
  match x.ways with
  | [] => .next s
  | (n, mark) :: rest =>
    let old := scratchSize x
    let new := 131072 * n
    if waysHeld s core new old mark then .next s
    else
      let part := partOfCluster s (clusterOf core)
      let s := if old < new then l1FlushAll s core part else s
      let s := s.modCore core (fun x =>
        let lost := mclear x.scratch new (old - new)
        { x with scrways := BitVec.ofNat 16 (2 ^ n - 1), ways := rest, scratch := mclear lost old (new - old)
                 l1d := if old < new then (x.l1d.take (1024 * (16 - n))) else x.l1d
                 unfilled := (x.unfilled ||| (BitVec.ofNat 12 (2 ^ n - 1) &&& ~~~(BitVec.ofNat 12 (old / 131072 |> fun k => 2 ^ k - 1)))) &&&
                   BitVec.ofNat 12 (2 ^ n - 1) })
      .next (waysCheck (waysRelease s core new old) core)

end Sys2Proof.Machine
end

