-- ==== Sys2Proof/Machine/Matrix.lean ====
section
/-! DEFINITION. The matrix engine (R182 to R210): the arithmetic of a pass and of its check (R52 to R59), and the checks and
posting of class 0xB. The engine's events are in Engine.lean. -/

namespace Sys2Proof.Machine

/-! ### Operand vectors (R40, R41, R44 to R47, R190, R191) -/

/-- Bytes of an element of a format code other than F4X. -/
def elemBytes (code : Nat) : Nat := if code = 2 then 4 else if code = 3 || code = 4 then 2 else 1

/-- A decoded element; code 7 is INT8 (R44). -/
def elemVal (code x : Nat) : FVal := if code = 7 then ofUnits (intOf x 8 false) 0 else (fpOf code).dec x

def elems (code : Nat) : Nat → List Byte → List FVal
  | 0, _ => []
  | n + 1, bs => elemVal code (leNat (bs.take (elemBytes code))) :: elems code n (bs.drop (elemBytes code))

def byteAt (bs : List Byte) (i : Nat) : Nat := (bs.getD i 0).toNat

/-- K elements of packed F4X blocks, scaled (R46, R47). -/
def f4xElems (k : Nat) (bs : List Byte) : List FVal :=
  (List.range k).map (fun i =>
    let o := 18 * (i / 32)
    let x := byteAt bs (o + i % 32 / 2)
    decF4X (if i % 2 = 0 then x % 16 else x / 16) (byteAt bs (o + 16)) (byteAt bs (o + 17)))

/-- Elements with the E8M0 scale of their block applied. -/
def scaled (xs : List FVal) (sc : List Byte) : List FVal :=
  xs.zipIdx.map (fun p => (mulV p.1 (decE8M0 (byteAt sc (p.2 / 32)))).1)

def nBlocks (k : Nat) : Nat := (k + 31) / 32

/-- Bytes of K elements of a vector. -/
def vecBytes (code k : Nat) : Nat := if code = 8 then 18 * nBlocks k else k * elemBytes code

/-- A vector of K elements with its scales, if it has any. -/
def vecVals (code k : Nat) (bs : List Byte) (sc : Option (List Byte)) : List FVal :=
  let xs := if code = 8 then f4xElems k bs else elems code k bs
  match sc with
  | some l => scaled xs l
  | none => xs

/-- A scale the vector reads is NaN (R54). -/
def vecNanScale (code k : Nat) (bs : List Byte) (sc : Option (List Byte)) : Bool :=
  (code == 8 && (List.range (nBlocks k)).any (fun b => byteAt bs (18 * b + 16) == 255)) ||
    (match sc with
     | some l => (l.take (nBlocks k)).any (· == 255)
     | none => false)

/-- Column size of R190, when the combination is legal. -/
def colSize (bfmt : Nat) (cmp : WCmp) (bscl : Bool) (k : Nat) : Option Nat :=
  let b8 := bfmt == 5 || bfmt == 6 || bfmt == 7
  let b16 := bfmt == 3 || bfmt == 4
  let sc := if bscl then nBlocks k else 0
  match cmp with
  | .none =>
    if b8 && decide (1 ≤ k) && decide (k ≤ 256) then some (k + sc)
    else if b16 && !bscl && decide (1 ≤ k) && decide (k ≤ 128) then some (2 * k)
    else if bfmt == 8 && !bscl && decide (1 ≤ k) && decide (k ≤ 512) then some (18 * nBlocks k)
    else none
  | .s24 =>
    if b8 && decide (8 ≤ k) && decide (k ≤ 256) && k % 8 == 0 then some (k / 2 + k / 8 + sc)
    else if b16 && !bscl && decide (8 ≤ k) && decide (k ≤ 128) && k % 8 == 0 then some (k + k / 8)
    else none
  | .cb16 =>
    if (bfmt == 5 || bfmt == 6) && decide (2 ≤ k) && decide (k ≤ 256) && k % 2 == 0 then some (16 + k / 2 + sc) else none

def zeroV : FVal := .fin false 0 0

/-- S24 of R191. -/
def expandS24 (k : Nat) (kept : List FVal) (metaBits : Nat) : List FVal :=
  (List.range k).map (fun i =>
    let g := i / 4
    let m := metaBits / 2 ^ (4 * g) % 16
    if m / 4 = i % 4 then kept.getD (2 * g + 1) zeroV
    else if m % 4 = i % 4 then kept.getD (2 * g) zeroV
    else zeroV)

/-- CB16 of R191. -/
def expandCB16 (k : Nat) (codebook : List FVal) (idx : List Byte) : List FVal :=
  (List.range k).map (fun i =>
    let x := byteAt idx (i / 2)
    codebook.getD (if i % 2 = 0 then x % 16 else x / 16) zeroV)

/-- The K weights of a column, scales applied, and whether one of its scales is NaN. -/
def columnOf (d : WDesc) (bs : List Byte) : List FVal × Bool :=
  let es := elemBytes d.bfmt
  let sc := fun o => if d.bscl then some (bs.drop o) else none
  let withSc := fun (xs : List FVal) (o : Nat) =>
    (match sc o with | some l => scaled xs l | none => xs, vecNanScale 0 d.k [] (sc o))
  match d.cmp with
  | .none => (vecVals d.bfmt d.k bs (sc (d.k * es)), vecNanScale d.bfmt d.k bs (sc (d.k * es)))
  | .s24 =>
    let n := d.k / 2 * es
    withSc (expandS24 d.k (elems d.bfmt (d.k / 2) bs) (leNat ((bs.drop n).take (d.k / 8)))) (n + d.k / 8)
  | .cb16 => withSc (expandCB16 d.k (elems d.bfmt 16 bs) ((bs.drop 16).take (d.k / 2))) (16 + d.k / 2)

/-- The columns of a tile. -/
def columnsOf (d : WDesc) (tile : List Byte) : List (List FVal × Bool) :=
  let cs := (colSize d.bfmt d.cmp d.bscl d.k).getD 0
  (List.range d.n).map (fun j => columnOf d ((tile.drop (j * cs)).take cs))

/-! ### dC (R53, R54) -/

/-- trunc_toward_zero of a product to a multiple of 2^q. -/
def truncTo (q : Int) (v : FVal) : FVal :=
  match v with
  | .fin n m e => if e < q then .fin n (m / 2 ^ (q - e).toNat) q else .fin n m e
  | v => v

/-- The 60-bit window of a block of 16-bit products. -/
def window60 (ps : List FVal) : List FVal :=
  let es := (ps.filter (fun p => !p.isZero && !p.isNan && !p.isInf)).map FVal.log2
  match es with
  | [] => ps
  | e :: r => ps.map (truncTo (r.foldl max e - 59))

/-- One rounding to FP32; ΔC is never −0 (R53). -/
def addPartial (p : Nat) (v : FVal) : Nat :=
  let x := (deliver f32 .rn false (addV .rn (f32.dec p) v).1).1
  if x = 2 ^ 31 then 0 else x

/-- The blocks of a position in ascending K; `a` and `w` have their scales applied, which the exact sum permits. -/
def dotBlocks (win : Bool) : Nat → Nat → List FVal → List FVal → Nat
  | 0, p, _, _ => p
  | n + 1, p, a, w =>
    let ps := List.zipWith (fun x y => (mulV x y).1) (a.take 32) (w.take 32)
    dotBlocks win n (addPartial p (sumV (if win then window60 ps else ps)).1) (a.drop 32) (w.drop 32)

def is16 (code : Nat) : Bool := code == 3 || code == 4

/-- dC row by row, positions in order. -/
def passDc (afmt k : Nat) (as ws : List (List FVal)) : List Word :=
  as.flatMap (fun a => ws.map (fun w => BitVec.ofNat 32 (dotBlocks (is16 afmt) (nBlocks k) 0 a w)))

/-! ### The check unit (R55, R56) -/

/-- Toward zero to a 112-bit significand. -/
def trunc112 (v : FVal) : FVal :=
  match v with
  | .fin n m e => if bitLen m ≤ 112 then .fin n m e else .fin n (m / 2 ^ (bitLen m - 112)) (e + ((bitLen m - 112 : Nat) : Int))
  | v => v

def addT (a b : FVal) : FVal := trunc112 (addV .rn a b).1
def sumT (l : List FVal) : FVal := l.foldl addT zeroV
def mulE (a b : FVal) : FVal := (mulV a b).1
def absV (l : List FVal) : List FVal := l.map FVal.abs
/-- Element-wise sums of vectors, in their order: those of Be, |B|e, eA and e|A| in ascending j and i (DESIGN CHOICE, log entry 84). -/
def sumVecs (n : Nat) (l : List (List FVal)) : List FVal :=
  (List.range n).map (fun k => sumT (l.map (fun v => v.getD k zeroV)))

/-- The quantities of a row or column before S or T: G and P, or H and P′. -/
abbrev Quant := FVal × FVal

def finiteV (v : FVal) : Bool := !v.isNan && !v.isInf

/-- τ of R56. -/
def tauOf (g s p : FVal) (mtol : Nat) (tol : Bool) : FVal :=
  let es := ([g, s, p].filter (fun v => !v.isZero)).map FVal.log2
  let least : FVal := if mtol = 0 then zeroV else .fin false 1 (-135)
  match es with
  | [] => least
  | e :: r =>
    let t : FVal := .fin false (if tol then 16 * mtol else mtol) (r.foldl max e - 23)
    if cmpV t least < 0 then least else t

/-- res of R55. -/
def resOf (s g : FVal) : FVal := addT s g.flip

inductive Judged where
  | ok | bad | unjudged
  deriving DecidableEq, Repr

def judge (q : Quant) (s : FVal) (mtol : Nat) (tol : Bool) : Judged :=
  let r := resOf s q.1
  if !(finiteV q.1 && finiteV q.2 && finiteV s && finiteV r) then .unjudged
  else if cmpV r.abs (tauOf q.1 s q.2 mtol tol) > 0 then .bad
  else .ok

/-- G(i) and P(i) of each row, then H(j) and P′(j) of each column. -/
def quantities (k : Nat) (as ws : List (List FVal)) : List Quant × List Quant :=
  let be := sumVecs k ws
  let bae := sumVecs k (ws.map absV)
  let ea := sumVecs k as
  let eaa := sumVecs k (as.map absV)
  (as.map (fun a => (sumT (List.zipWith mulE a be), sumT (List.zipWith mulE (absV a) bae))),
   ws.map (fun w => (sumT (List.zipWith mulE ea w), sumT (List.zipWith mulE eaa (absV w)))))

def dcAt (n : Nat) (dc : List Word) (i j : Nat) : FVal := f32.dec (dc.getD (i * n + j) 0).toNat
def rowSum (n : Nat) (dc : List Word) (i : Nat) : FVal := sumT ((List.range n).map (dcAt n dc i))
def colSum (m n : Nat) (dc : List Word) (j : Nat) : FVal := sumT ((List.range m).map (fun i => dcAt n dc i j))

/-- Rows and columns that mismatch, and how many were not judged. -/
structure Verdict where
  rows : List Nat
  cols : List Nat
  unj : Nat
  deriving DecidableEq, Repr

def judgeAll (m n : Nat) (q : List Quant × List Quant) (dc : List Word) (mtol : Nat) (tol : Bool) : Verdict :=
  let rj := q.1.zipIdx.map (fun p => (judge p.1 (rowSum n dc p.2) mtol tol, p.2))
  let cj := q.2.zipIdx.map (fun p => (judge p.1 (colSum m n dc p.2) mtol tol, p.2))
  { rows := (rj.filter (fun x => x.1 == .bad)).map (·.2)
    cols := (cj.filter (fun x => x.1 == .bad)).map (·.2)
    unj := ((rj ++ cj).filter (fun x => x.1 == .unjudged)).length }

/-- The correction of the located position (R200): dC with it, when both judge as matching again. A correction
that rounds to zero keeps its sign (DESIGN CHOICE, log entry 83). -/
def correctAt (m n : Nat) (q : List Quant × List Quant) (dc : List Word) (mtol : Nat) (tol : Bool) (i j : Nat) :
    Option (List Word) :=
  let qr := q.1.getD i (zeroV, zeroV)
  let qc := q.2.getD j (zeroV, zeroV)
  let x := (deliver f32 .rn false (addV .rn (dcAt n dc i j) (resOf (rowSum n dc i) qr.1).flip).1).1
  let dc' := dc.set (i * n + j) (BitVec.ofNat 32 x)
  if judge qr (rowSum n dc' i) mtol tol != .bad && judge qc (colSum m n dc' j) mtol tol != .bad then some dc' else none

/-- MTOL_f for a pair (R56, R202). -/
def mtolFor (mtol : Word) (afmt : Nat) (scales : Bool) : Nat :=
  let i := if afmt = 7 && !scales then 0 else if afmt = 8 then 2 else if is16 afmt then 3 else 1
  mtol.toNat / 2 ^ (8 * i) % 256

/-- The format pairs of R52. -/
def pairOk (a b : Nat) : Bool :=
  ((a == 5 || a == 6) && (b == 5 || b == 6)) || (a == 7 && b == 7) || (a == 8 && b == 8) || (is16 a && is16 b)

/-! ### Posting a request (R183, R185) -/

/-- The launch of a thread holds its cluster's engine. -/
def holdsEngine (s : State) (t : Nat) : Bool :=
  (s.cluster (clusterOf (coreOfThread t))).holder == some (s.group (s.thread t).group).launch

/-- ENGINE_ISSUE with a detail of R342. -/
def engTrap (detail : Nat) : Lane := .trapD 0x40 detail

/-- The request is posted; its thread waits for a table entry and then retires (R185, R186). -/
def post (s0 s : State) (t : Nat) (kind : ReqKind) (bo : DWord) : Lane :=
  let th := s0.thread t
  let c := coreOfThread t
  let (id, s) := freshId s
  let mclk := (s0.cluster (clusterOf c)).mclk
  let r : EReq := { id, core := c, thread := t, group := th.group, launch := (s0.group th.group).launch, kind, bo, since := mclk }
  let s := s.modCluster (clusterOf c) (fun k => { k with posted := k.posted ++ [r] })
  .done ((gcEvent s 0xD t 1).modThread t (fun x => { x with run := .waiting .engine }))

/-- obj_check over several runs of bytes (R158, R192, R198, R204): the pieces of each run and whether any byte lies outside
the extent. -/
def runsCheck (s : State) (c part e : Nat) (write : Bool) (align : Nat) (runs : List (Int × Nat)) :
    Except Lane (List (List Piece) × Bool) :=
  let out := runs.any (fun r => outOfBounds e r.1 r.2)
  let ps := runs.map (fun r => objPieces e r.1 r.2)
  let limit := scratchSize (s.core c)
  let past (p : Piece) : Bool := match p.ptr with
    | some x => ptrSpace x == 1 && decide (limit < ptrOff x + p.len)
    | none => false
  let skew (p : Piece) : Bool := match p.ptr with
    | some x => ptrOff x % align != 0
    | none => false
  if !entryValid s part (dieOfCore c) e then .error (.trapC 0x20)
  else if oType e ≠ 1 ∧ oType e ≠ 2 then .error (.trapC 0x21)
  else if !(if write then oW e else oR e) then .error (.trapC 0x22)
  else if out && oBmode e == 0 then .error (.trapC 0x24)
  else
    match ps.flatten.find? past with
    | some p => .error (.trapA 0x28 (p.ptr.getD 0))
    | none =>
      match ps.flatten.find? skew with
      | some p => .error (.trapA 0x25 (p.ptr.getD 0))
      | none => .ok (ps, out)

/-- Bytes of pieces that lie in bounds. -/
def inBounds (ps : List Piece) : Nat := ps.foldl (fun n p => n + (if p.ptr.isSome then p.len else 0)) 0

/-- Pieces of scratch as segments. -/
def scratchSegs (c : Nat) (ps : List Piece) : List Seg :=
  ps.map (fun p => match p.ptr with
    | some x => ⟨.scratch c (ptrOff x), p.len⟩
    | none => ⟨.zero, p.len⟩)

/-! ### MMA (R194 to R198) -/

/-- The parameter block as a number; fields by word and bit. -/
def pbits (x w lo n : Nat) : Nat := bitsAt x (32 * w + lo) n

def mmaReservedOk (x : Nat) : Bool :=
  pbits x 1 28 4 == 0 && pbits x 4 16 16 == 0 && pbits x 6 20 12 == 0 && (List.range 5).all (fun i => pbits x (11 + i) 0 32 == 0)

/-- Step 2 of R197. -/
def mmaFieldsOk (x : Nat) : Bool :=
  let acc := pbits x 0 30 2
  let afmt := pbits x 1 16 4
  let ascale := flag (pbits x 1 0 32) 20
  mmaReservedOk x && decide (acc ≤ 1) && decide (3 ≤ afmt) && decide (afmt ≤ 8) &&
    (!ascale || (decide (5 ≤ afmt) && decide (afmt ≤ 7))) &&
    (ascale || (pbits x 4 0 32 == 0 && pbits x 5 0 32 == 0))

def modeOf (code : Nat) : RegionMode := if code = 2 then .checked else if code = 3 then .tolerant else .exact

def rectFits (r : Rect) : Bool := decide (r.row + r.nr ≤ 512) && decide (r.col + r.nc ≤ 768)

/-- A captured object and its obj_check over the rows of an MMA. -/
def mmaObject (s : State) (t part idx : Nat) (runs : List (Int × Nat)) : Except Lane (Nat × List (List Seg) × Bool × State) :=
  let c := coreOfThread t
  match capture s c part idx with
  | none => .error (.uncaptured s c part idx)
  | some (e, s) =>
    match runsCheck s c part e false 1 runs with
    | .error l => .error l
    | .ok (ps, out) => .ok (e, ps.map (scratchSegs c), out, s)

def execMma (c : Ctl) (p : VReg) (s : State) : Out :=
  forOut c [1] (fun s0 t s =>
    let th := s0.thread t
    let g := s0.group th.group
    let co := coreOfThread t
    let part := s0.partOf t
    let x := regNat th g 16 (.v p)
    let m := pbits x 0 0 10 + 1
    let n := pbits x 0 10 10 + 1
    let k := pbits x 0 20 10 + 1
    let afmt := pbits x 1 16 4
    let ascale := flag (pbits x 1 0 32) 20
    let wbuf := pbits x 1 23 1
    let cl := s0.cluster (clusterOf co)
    let d := (if wbuf = 0 then cl.w0 else cl.w1).desc
    let rect : Rect := ⟨128 * pbits x 1 24 2 + pbits x 6 0 10, pbits x 6 10 10, m, n⟩
    let bo := BitVec.ofNat 64 (pbits x 7 0 64)
    let rb := vecBytes afmt k
    let rows := (List.range m).map (fun i => ((pbits x 2 0 32 + i * pbits x 3 0 32 : Nat), rb))
    let srows := (List.range m).map (fun i => ((pbits x 5 0 32 + i * nBlocks k : Nat), nBlocks k))
    if !holdsEngine s0 t then engTrap 1
    else if !mmaFieldsOk x then engTrap 2
    else if d.st = .empty ∨ !pairOk afmt d.bfmt ∨ d.k ≠ k ∨ d.n ≠ n then engTrap 3
    else if !rectFits rect then engTrap 4
    else if pbits x 2 0 4 ≠ 0 ∨ pbits x 3 0 4 ≠ 0 then engTrap 2
    else
      match mmaObject s t part (pbits x 1 0 16) (rows.map (fun r => ((r.1 : Int), r.2))) with
      | .error l => l
      | .ok (ea, ra, outA, s) =>
        let sc := if ascale then mmaObject s t part (pbits x 4 0 16) (srows.map (fun r => ((r.1 : Int), r.2)))
          else .ok (ea, [], false, s)
        match sc with
        | .error l => l
        | .ok (es, rs, outS, s) =>
          if ptrSpace (oBase ea) ≠ 1 ∨ ptrSpace (oBase es) ≠ 1 then engTrap 5
          else if bo ≠ 0 ∧ !boPtrOk s co part bo then engTrap 6
          else
            let s := if outA || outS then countOob s t else s
            let code := pbits x 1 21 2
            post s0 s t (.mma { m, n, k, acc := pbits x 0 30 2 == 1, afmt, ascale
                                mode := modeOf (if code = 0 then g.region.toNat else code), wbuf, pri := pbits x 1 26 2
                                rect, passid := BitVec.ofNat 32 (pbits x 10 0 32), bytes := pbits x 9 0 32
                                mtol := g.mtol, mretry := g.mretry, rows := ra, srows := rs }) bo) s

/-! ### Weight loads and transfers (R189 to R193, R203, R204) -/

/-- obj_check, the space and translation of a request of the transfer port, after its own checks. -/
def postRuns (s0 s : State) (t : Nat) (mem : MemOp0) (write : Bool) (align : Nat) (bo : DWord)
    (runs : Nat → Int → List (Int × Nat)) (kind : List Seg → Nat → ReqKind) : Lane :=
  let th := s0.thread t
  let g := s0.group th.group
  let co := coreOfThread t
  let part := s0.partOf t
  if bo ≠ 0 ∧ !boPtrOk s co part bo then engTrap 6
  else
    match capture s co part (objIdx g mem.obj) with
    | none => .uncaptured s co part (objIdx g mem.obj)
    | some (e, s) =>
      match runsCheck s co part e write align (runs e ((srcNat th g 1 mem.a : Int) + mem.off.toInt)) with
      | .error l => l
      | .ok (ps, out) =>
        if ptrSpace (oBase e) = 4 then .trapC 0x27
        else if piecesHeld s co part ps.flatten then .hold (waitAgain s t)
        else
          let s := piecesWalk s co part ps.flatten
          match resolvePieces s co part (s0.privOf t) (if write then needW else needR) ps.flatten with
          | .error (x, p) => .fail x p
          | .ok segs => post s0 (if out then countOob s t else s) t (kind segs (inBounds ps.flatten)) bo

def execWload (c : Ctl) (bfmt : BitVec 4) (cmp : WCmp) (bscl : Bool) (buf : Fin 2) (mem : MemOp0) (b : Reg) (s : State) : Out :=
  forOut c (addrUnits mem.a) (fun s0 t s =>
    let th := s0.thread t
    let x := regNat th (s0.group th.group) 4 b
    let k := pbits x 0 0 10 + 1
    let n := pbits x 0 10 10 + 1
    if !holdsEngine s0 t then engTrap 1
    else if pbits x 0 20 12 ≠ 0 ∨ pbits x 1 0 32 ≠ 0 then engTrap 2
    else
      match colSize bfmt.toNat cmp bscl k with
      | none => engTrap 7
      | some cs =>
        if 768 < n then engTrap 7
        else
          postRuns s0 s t mem false 1 (BitVec.ofNat 64 (pbits x 2 0 64))
            (fun e o =>
              let stride := if oStride0 e = 0 then cs else oStride0 e
              (List.range n).map (fun j => (o + (j * stride : Nat), cs)))
            (fun segs _ => .wload buf.val bfmt.toNat cmp bscl k n segs (n * cs))) s

def execWdrop (c : Ctl) (buf : Fin 2) (s : State) : Out :=
  forOut c [] (fun s0 t s => if !holdsEngine s0 t then engTrap 1 else post s0 s t (.wdrop buf.val) 0) s

/-- The rectangle of two region words. -/
def regionRect (x : Nat) : Rect := ⟨pbits x 0 0 9, pbits x 0 9 10, pbits x 1 0 9 + 1, pbits x 1 9 10 + 1⟩

/-- Steps 1 to 3 of R204. -/
def regionTrap (s : State) (t x : Nat) : Option Lane :=
  if !holdsEngine s t then some (engTrap 1)
  else if pbits x 0 19 13 ≠ 0 ∨ pbits x 1 19 13 ≠ 0 then some (engTrap 2)
  else if !rectFits (regionRect x) then some (engTrap 4)
  else none

def transferRuns (x es e : Nat) (o : Int) : List (Int × Nat) :=
  let r := regionRect x
  let rs := if oStride0 e = 0 then r.nc * es else oStride0 e
  (List.range r.nr).map (fun i => (o + (i * rs : Nat), r.nc * es))

def execAccld (c : Ctl) (fmt : BitVec 4) (mem : MemOp0) (b : Reg) (s : State) : Out :=
  forOut c (addrUnits mem.a) (fun s0 t s =>
    let th := s0.thread t
    let x := regNat th (s0.group th.group) 4 b
    let es := elemBytes fmt.toNat
    match regionTrap s0 t x with
    | some l => l
    | none => postRuns s0 s t mem false es (BitVec.ofNat 64 (pbits x 2 0 64)) (transferRuns x es)
        (fun segs n => .accld fmt.toNat (regionRect x) segs n)) s

def execAccst (c : Ctl) (fmt : BitVec 4) (rm : Rnd) (sat : Bool) (mem : MemOp0) (b : Reg) (s : State) : Out :=
  forOut c (addrUnits mem.a) (fun s0 t s =>
    let th := s0.thread t
    let x := regNat th (s0.group th.group) 4 b
    let es := elemBytes fmt.toNat
    match regionTrap s0 t x with
    | some l => l
    | none => postRuns s0 s t mem true es (BitVec.ofNat 64 (pbits x 2 0 64)) (transferRuns x es)
        (fun segs n => .accst fmt.toNat rm sat (regionRect x) segs n)) s

def execAccz (c : Ctl) (a : Reg) (s : State) : Out :=
  forOut c [] (fun s0 t s =>
    let th := s0.thread t
    let x := regNat th (s0.group th.group) 2 a
    match regionTrap s0 t x with
    | some l => l
    | none => post s0 s t (.accz (regionRect x)) 0) s

/-! ### MSTAT (R207) -/

def execMstat (c : Ctl) (d : VReg) (a : Option Src) (s : State) : Out :=
  forOut c [] (fun s0 t s =>
    let th := s0.thread t
    let g := s0.group th.group
    let hit := (s.core (coreOfThread t)).ring.find? (fun p => p.group == th.group &&
      (match a with | some a => p.passid == srcW th g a | none => true))
    let ws := match hit with
      | some p => [p.passid, p.d1, p.d2, p.d3]
      | none => [0, 0, 0, 0]
    retireLate s t c true (.reg (.v d) ws)) s

end Sys2Proof.Machine
end

