-- ==== Sys2Proof/Machine/Engine.lean ====
section
/-! DEFINITION. The engine's events (R185 to R210): acceptance, arbitration, attempts and their check, completion, MCANCEL,
and the V_safe requests an engine makes of its rail controller (R201, R400). -/

namespace Sys2Proof.Machine

/-! ### Acceptance (R185, R186, R193, R272) -/

/-- Entries a core holds. -/
def entriesOf (k : Cluster) (core : Nat) : Nat := (k.table.filter (fun r => r.core == core)).length

/-- A request of a core may take an entry; `cores` are the cluster's. -/
def entryFree (k : Cluster) (cores : List Nat) (core : Nat) : Bool :=
  let left := 32 - k.table.length
  let due := ((cores.filter (· != core)).map (fun c => 4 - entriesOf k c)).sum
  if entriesOf k core < 4 then decide (0 < left) else decide (due + 1 ≤ left)

def coresOfCluster (k : Nat) : List Nat :=
  (List.range 4).map (fun i => coresPerDie * dieOfCluster k + 4 * (k % clustersPerDie) + i)

def setDesc (k : Cluster) (buf : Nat) (d : WDesc) : Cluster :=
  if buf = 0 then { k with w0 := { k.w0 with desc := d } } else { k with w1 := { k.w1 with desc := d } }

def halfOf (k : Cluster) (buf : Nat) : WHalf := if buf = 0 then k.w0 else k.w1
def setHalf (k : Cluster) (buf : Nat) (h : WHalf) : Cluster := if buf = 0 then { k with w0 := h } else { k with w1 := h }

/-- The memory a request reads or writes. -/
def kindSegs : ReqKind → List Seg
  | .mma r => (r.rows ++ r.srows).flatten
  | .wload _ _ _ _ _ _ src _ => src
  | .accld _ _ src _ => src
  | .accst _ _ _ _ dst _ => dst
  | _ => []

/-- A posted request may be accepted: an earlier matrix clock brought it, an entry is free for its core, and what it reads and writes
holds no earlier access of its thread still to be performed (R272). -/
def acceptable (s : State) (cluster : Nat) (r : EReq) : Bool :=
  let k := s.cluster cluster
  decide (r.since < k.mclk) && entryFree k (coresOfCluster cluster) r.core &&
    ownClear s r.core (partOfLaunch s r.launch) r.thread (kindSegs r.kind) && acqClear s r.core r.thread

/-- Requests of one matrix clock by ascending core, then as their core posted them (R185). -/
def firstPosted : List EReq → Option EReq
  | [] => none
  | r :: rs =>
    match firstPosted rs with
    | none => some r
    | some x => if x.since < r.since ∨ (x.since = r.since ∧ x.core < r.core) then some x else some r

/-- The first posted request that may take an entry takes it: its thread's instruction retires. -/
def execRequestAccept (cluster : Nat) (s : State) : Out :=
  let k := s.cluster cluster
  match firstPosted (k.posted.filter (acceptable s cluster)) with
  | none => .next s
  | some r =>
    let part := partOfLaunch s r.launch
    let s := flushSegs s r.core part (kindSegs r.kind)
    let s := s.modCluster cluster (fun k =>
      let k := { k with posted := k.posted.filter (fun x => x.id != r.id), table := k.table ++ [{ r with since := k.mclk }] }
      match r.kind with
      | .wload buf bfmt cmp bscl kk n _ _ => setDesc k buf { st := .loading, bfmt, cmp, bscl, k := kk, n }
      | .wdrop buf => setDesc k buf {}
      | _ => k)
    .next (retireWaiter s r.thread true)

/-! ### Conflicts and priority (R187, R188) -/

def rectsMeet (a b : Option Rect) : Bool :=
  match a, b with
  | some a, some b => decide (a.row < b.row + b.nr) && decide (b.row < a.row + a.nr) &&
      decide (a.col < b.col + b.nc) && decide (b.col < a.col + a.nc)
  | _, _ => false

def bufsMeet (a b : Option Nat) : Bool := a.isSome && a == b

def readsW : ReqKind → Option Nat
  | .mma r => some r.wbuf
  | _ => none
def writesW : ReqKind → Option Nat
  | .wload buf .. => some buf
  | .wdrop buf => some buf
  | _ => none
def readsA : ReqKind → Option Rect
  | .mma r => if r.acc then some r.rect else none
  | .accst _ _ _ rect _ _ => some rect
  | _ => none
def writesA : ReqKind → Option Rect
  | .mma r => some r.rect
  | .accld _ rect _ _ => some rect
  | .accz rect => some rect
  | _ => none

/-- The table of R187. -/
def conflict (a b : ReqKind) : Bool :=
  bufsMeet (writesW a) (writesW b) || bufsMeet (writesW a) (readsW b) || bufsMeet (readsW a) (writesW b) ||
    rectsMeet (writesA a) (writesA b) || rectsMeet (writesA a) (readsA b) || rectsMeet (readsA a) (writesA b)

def isPass : ReqKind → Bool
  | .mma _ => true
  | _ => false
/-- Requests that run on the transfer port. -/
def isTransfer : ReqKind → Bool
  | .wload .. | .accld .. | .accst .. | .accz .. => true
  | _ => false

/-- An attempt runs at V_safe (R201). -/
def safeAttempt (r : MmaReq) (n : Nat) : Bool :=
  match r.mode with
  | .exact => true
  | .checked => r.mretry != 0 && n == 1 + r.mretry
  | .tolerant => false

/-- The number of the attempt an entry waits to make. -/
def nextAttempt (e : EReq) : Nat := match e.stage with | .again p => p.attempt | _ => 1

def safeNext (e : EReq) : Bool := match e.kind with | .mma r => safeAttempt r (nextAttempt e) | _ => false

def waits (e : EReq) : Bool := match e.stage with | .waiting => true | .again _ => true | _ => false
def streams (e : EReq) : Bool := match e.stage with | .stream _ => true | _ => false

/-- No earlier unended conflicting request, and the array or the port is free; `before` are the earlier entries. -/
def entryGrantable (k : Cluster) (before : List EReq) (e : EReq) : Bool :=
  waits e && before.all (fun b => !conflict b.kind e.kind) &&
    (if isPass e.kind then !k.table.any streams
     else !isTransfer e.kind || !k.table.any (fun b => isTransfer b.kind && !waits b))

/-- Entries that could be granted but for the rail, in acceptance order. -/
def candidates (k : Cluster) : List EReq := (k.table.zipIdx.filter (fun p => entryGrantable k (k.table.take p.2) p.1)).map (·.1)

/-- Effective priority of R188. -/
def engPrio (k : Cluster) (e : EReq) : Nat :=
  min 3 ((match e.kind with | .mma r => r.pri | _ => 1) + (k.mclk - e.since) / 1024)

/-- The highest effective priority, the oldest among equals. -/
def bestEntry (k : Cluster) : List EReq → Option EReq
  | [] => none
  | e :: l =>
    match bestEntry k l with
    | none => some e
    | some x => if engPrio k e < engPrio k x then some x else some e

/-! ### Requests for V_safe (R201, R400) -/

def vsafeAt (k : Cluster) (n : Nat) : Nat := k.vsafe.getD n 800

/-- A request for V_safe: the return value is the goal of a move in progress, or, when the rail only returns from an earlier request, the
rail's value; downward moves are held. -/
def safeRaise (k : Cluster) : Cluster :=
  if k.safereq then k
  else { k with safereq := true, ret := if k.returning then k.railmv else k.goal, returning := false, goal := max k.goal (max k.railmv (vsafeAt k k.fstep)) }

/-- The rail returns to its return value; a write of RCVSET recorded meanwhile has replaced it. -/
def safeWithdraw (k : Cluster) : Cluster := if k.safereq then { k with safereq := false, goal := k.ret, returning := true } else k

/-- A request stands only for a pass that wants it. -/
def safeWanted (k : Cluster) : Bool :=
  k.table.any (fun e => (waits e && safeNext e) || (match e.stage with | .stream p => p.safe | _ => false))

def safeSettle (k : Cluster) : Cluster := if safeWanted k then k else safeWithdraw k

/-- Rail at or above V_safe of the current step. -/
def railSafe (k : Cluster) : Bool := decide (vsafeAt k k.fstep ≤ k.railmv)

def setStage (k : Cluster) (id : Nat) (st : PassStage) : Cluster :=
  { k with table := k.table.map (fun e => if e.id == id then { e with stage := st } else e) }

/-- A swap of its launch lets no more of its requests be granted, but the attempts of a granted pass (R210; DEDUCED, log entry 91). -/
def grantOpen (s : State) (e : EReq) : Bool :=
  e.stage != .waiting || s.groups.all (fun p => p.2.launch != e.launch || p.2.swap == .resident)

/-- The engine asks for V_safe for a safe attempt that only the rail holds back, and grants one eligible request. A pass on a
half in ERROR ends in that half's error phase. -/
def execRequestGrant (cluster : Nat) (s : State) : Out :=
  .next (s.modCluster cluster (fun k =>
    let cs := (candidates k).filter (grantOpen s)
    let k := if cs.any safeNext then safeRaise k else k
    match bestEntry k (cs.filter (fun e => !safeNext e || (k.safereq && railSafe k))) with
    | none => k
    | some e =>
      match e.kind with
      | .mma r =>
        let h := match e.stage, (halfOf k r.wbuf).after with
          | .waiting, some d => d
          | _, _ => (halfOf k r.wbuf).held
        if h.st = .error then safeSettle (setStage k e.id (.failed {} h.err))
        else
          let p : PassInfo := match e.stage with
            | .again p => p
            | _ => { attempt := 1 }
          setStage k e.id (.stream { p with safe := safeNext e, railmv := k.railmv, fstep := k.fstep, began := k.mclk })
      | _ => { setStage k e.id .transfer with sent := 0 }))

/-! ### Ends (R205 to R207) -/

/-- An entry waits in the output stage to enter the FIFO. What it carries takes effect as it gets there: entries leave in the order they
entered, and when one leaves is timing alone (R402; DEDUCED, log entry 68). -/
def fifoPush (o : FifoOut) (k : Cluster) : Cluster := { k with outq := k.outq ++ [o] }

/-- The output stage is free: while the FIFO is full it pauses, and no request ends (R402). -/
def outputFree (s : State) (cluster : Nat) : Bool := (s.cluster cluster).outq.isEmpty

/-- Entries of 64 B that the data of an ACCST takes. -/
def dataEntries (e : EReq) : Nat :=
  match e.kind with
  | .accst fmt _ _ rect _ _ => (rect.nr * rect.nc * elemBytes fmt + 63) / 64
  | _ => 0

/-- The ACCST in progress has data to put out. -/
def dataDue (k : Cluster) : Bool := k.table.any (fun e => e.stage == .transfer && decide (k.sent < dataEntries e))

/-- One matrix clock of the output stage: it writes at most one entry, in order, if the FIFO has room. -/
def fifoEnter (k : Cluster) : Cluster :=
  let put (k : Cluster) (o : FifoOut) : Cluster :=
    { k with fifo := k.fifo ++ [o], fifoHigh := max k.fifoHigh (k.fifo.length + 1) }
  if 16 ≤ k.fifo.length then k
  else match k.outq with
    | o :: rest => put { k with outq := rest } o
    | [] => if dataDue k then put { k with sent := k.sent + 1 } .data else k

/-- One core clock: the core side takes the oldest entry, unless it lags, and the output stage has `m` matrix clocks. -/
def fifoClock (m : Nat) (k : Cluster) : Cluster :=
  (List.range m).foldl (fun k _ => fifoEnter k) { k with fifo := if k.fifoLag then k.fifo else k.fifo.drop 1, fifoLag := false }

/-- Matrix clocks of `f` MHz in `c` core clocks of `mhz` MHz. -/
def matrixClock (f mhz c : Nat) : Nat := c * f / mhz

/-- `n` core clocks of the FIFO from core clock `c` on. -/
def fifoClocks (f mhz : Nat) : Nat → Nat → Cluster → Cluster
  | 0, _, k => k
  | n + 1, c, k =>
    if k.fifo.isEmpty && k.outq.isEmpty && !dataDue k then k
    else fifoClocks f mhz n (c + 1) (fifoClock (matrixClock f mhz (c + 1) - matrixClock f mhz c) k)

def min255 (n : Nat) : Nat := min 255 n

/-- The four words of R207. -/
def passStat (group : Nat) (r : MmaReq) (p : PassInfo) (code : Nat) (corr : Option (Nat × Nat)) (approx : Bool) : PStat :=
  let ran := p.attempt != 0
  let d1 := code % 256 + 2 ^ 8 + approx.toNat * 2 ^ 9 + p.nanscale.toNat * 2 ^ 10 + corr.isSome.toNat * 2 ^ 11 +
    min 15 p.attempt * 2 ^ 12 + (if ran then min255 p.unj * 2 ^ 16 + min255 p.mism1 * 2 ^ 24 else 0)
  let d2 := if ran then p.railmv % 2 ^ 16 + p.fstep % 256 * 2 ^ 16 + p.safe.toNat * 2 ^ 24 else 0
  let d3 := match corr with
    | some (i, j) => i + j * 2 ^ 10
    | none => 0
  { group, passid := r.passid, d1 := BitVec.ofNat 32 d1, d2 := BitVec.ofNat 32 d2, d3 := BitVec.ofNat 32 d3 }

/-- Attempts at V_safe of a pass that made `p.attempt` attempts. -/
def safeAttempts (r : MmaReq) (p : PassInfo) : Nat :=
  ((List.range p.attempt).filter (fun i => safeAttempt r (i + 1))).length

/-- Counts of an ended pass in the engine counters, the telemetry and the launch (R206, R403, R406). -/
def passCounts (s : State) (cluster : Nat) (e : EReq) (r : MmaReq) (p : PassInfo) (corr approx : Bool) : State :=
  let part := partOfLaunch s e.launch
  let die := dieOfCluster cluster
  let re := p.attempt - 1
  let add := fun (s : State) (x : Nat × Nat) => clusterCount s cluster x.1 x.2
  let s := [(0x100, 1), (0x101, p.attempt), (0x102, corr.toNat), (0x103, re), (0x104, approx.toNat), (0x105, p.nanscale.toNat),
    (0x106, safeAttempts r p), (0x107, p.unj)].foldl add s
  let s := telCount (telCount (telCount s part die 1 corr.toNat) part die 2 re) part die 3 approx.toNat
  s.modLaunch e.launch (fun l => { l with corr := l.corr + corr.toNat, reissue := l.reissue + re
                                          approx := l.approx || approx, nanscale := l.nanscale || p.nanscale })

/-- Codes that are asynchronous errors of the launch (R205). -/
def asyncCode (code : Nat) : Bool := code == 1 || code == 2 || code == 7

/-- A granted pass of the table reads the half. -/
def halfBusy (k : Cluster) (buf : Nat) : Bool := k.table.any (fun x => readsW x.kind == some buf && x.stage != .waiting)

/-- A half that no granted pass reads takes what a diverted load left behind. -/
def halfSettle (buf : Nat) (k : Cluster) : Cluster :=
  match (halfOf k buf).after with
  | some d => if halfBusy k buf then k else setHalf k buf { halfOf k buf with held := d, tile := [], after := none }
  | none => k

/-- A request leaves the table: its error, then its barrier object, are reported. -/
def endEntry (s : State) (cluster : Nat) (e : EReq) (code bytes : Nat) : State :=
  let s := s.modCluster cluster (fun k => safeSettle (halfSettle 0 (halfSettle 1 { k with table := k.table.filter (fun x => x.id != e.id) })))
  let s := if asyncCode code then asyncError s e.launch code else s
  if e.bo = 0 then s
  else boContribute (s.modCluster cluster (fifoPush .barrier)) e.core (partOfLaunch s e.launch) e.bo (if code = 0 then bytes else 0) 0 code

/-- A pass ends: its status entry is written before its barrier object is updated. -/
def endPass (s : State) (cluster : Nat) (e : EReq) (r : MmaReq) (p : PassInfo) (code : Nat) (corr : Option (Nat × Nat))
    (approx : Bool) : State :=
  let s := passCounts s cluster e r p corr.isSome approx
  let s := (s.modCluster cluster (fifoPush .status)).modCore e.core (fun x =>
    { x with ring := (passStat e.group r p code corr approx :: x.ring).take 16 })
  endEntry s cluster e code r.bytes

/-- A load or drop of a half ends: the half holds `h`, at once or when the passes accepted before it have ended; the descriptor
follows unless a later load or drop has been accepted. -/
def endHalf (s : State) (cluster : Nat) (e : EReq) (buf : Nat) (d : WDesc) (tile : List Byte) : State :=
  s.modCluster cluster (fun k =>
    let after := (k.table.dropWhile (fun x => x.id != e.id)).drop 1
    let h := halfOf k buf
    let desc := if after.all (fun x => writesW x.kind != some buf) then d else h.desc
    setHalf k buf (if halfBusy k buf then { h with desc, after := some d } else { desc, held := d, tile }))

/-- Matrix clocks of a stream beside M (R199). -/
def streamClocks (r : MmaReq) : Nat :=
  let (num, den) := if r.afmt = 8 then (r.k, 2) else if is16 r.afmt then (2 * r.k, 1) else (r.k, 1)
  let up (a b : Nat) : Nat := (a + b - 1) / b
  max r.m (max (up (r.n * num) (den * 384)) (up (r.m * num) (den * 256)))

/-- `d` matrix clocks of an attempt's stream are counted, and the attempt, when it is overscaled, in its window (R396, R403). -/
def streamCount (s : State) (cluster : Nat) (r : MmaReq) (p : PassInfo) (d : Nat) : State :=
  (clusterCount (clusterCount s cluster 0x108 d) cluster 0x109 (d - r.m)).modCluster cluster (fun k => { k with watt := k.watt + (!p.safe).toNat })

/-- The same of an attempt that is cut short. -/
def streamCut (s : State) (cluster : Nat) (e : EReq) : State :=
  match e.kind, e.stage with
  | .mma r, .stream p => streamCount s cluster r p (min (streamClocks r) ((s.cluster cluster).mclk - p.began))
  | _, _ => s

/-- A request ends in an error phase, whatever it is (R193, R205). An ACCST that is cut off otherwise than by an error of its memory has
written none of its bytes (DESIGN CHOICE, log entry 50); a pass whose last attempt was cut short keeps the UNJUDGED and NANSCALE of the
attempt before (DESIGN CHOICE, log entry 104). -/
def failEntry (s : State) (cluster : Nat) (e : EReq) (code : Nat) : State :=
  let s := streamCut s cluster e
  match e.kind with
  | .mma r =>
    let p : PassInfo := match e.stage with
      | .again p => { p with attempt := p.attempt - 1 }
      | .stream p => p
      | .accum p _ _ _ => p
      | .failed p _ => p
      | _ => {}
    endPass s cluster e r p code none false
  | .wload buf bfmt cmp bscl k n _ _ =>
    endEntry (endHalf s cluster e buf { st := .error, err := code, bfmt, cmp, bscl, k, n } []) cluster e code 0
  | .wdrop buf => endEntry (endHalf s cluster e buf {} []) cluster e code 0
  | _ => endEntry s cluster e code 0

/-! ### Attempts (R200, R359) -/

/-- Engine reads of scratch under the SRAM injector. -/
def injSegs (s : State) (gs : List Seg) : State :=
  gs.foldl (fun s g => match g.loc with | .scratch c o => injScratchAll s c o g.len | _ => s) s

/-- The late-bit injector at the elements of an attempt's dC: each element in the window draws once. -/
def injDc (n : Nat) : List (Nat × Nat) → List Word → Option Injector → List Word × Option Injector
  | [], dc, i => (dc, i)
  | _, dc, none => (dc, none)
  | (r, c) :: ps, dc, some i =>
    let x := (xorshift i.x).toNat
    let d := i.draw
    let bit := i.bit0 + x % (i.bit1 - i.bit0 + 1)
    let dc := if d.1 then dc.set (r * n + c) (dc.getD (r * n + c) 0 ^^^ BitVec.ofNat 32 (2 ^ bit)) else dc
    injDc n ps dc d.2

def flipLate (m n : Nat) (dc : List Word) (b : LateBit) : List Word :=
  if b.row < m ∧ b.col < n ∧ b.bit < 32 then
    dc.set (b.row * n + b.col) (dc.getD (b.row * n + b.col) 0 ^^^ BitVec.ofNat 32 (2 ^ b.bit))
  else dc

/-- The injector of class 1 of a request's core, when the pass was posted by its launch after it was armed. -/
def lateInj (s : State) (e : EReq) : Option Injector :=
  match tfind (s.core e.core).inj 1 with
  | some i => if i.launch = e.launch ∧ i.since ≤ e.id then some i else none
  | none => none

/-- Free words for dC where a pass meets a half of another shape than it was checked against (log entry 16). -/
def freeWords (s : State) : Nat → List Word × State
  | 0 => ([], s)
  | n + 1 =>
    let (x, s) := freeValue s
    let (l, s) := freeWords s n
    (lo32 x :: l, s)

/-- What an attempt decided. -/
inductive Attempt where
  | accept (corr : Option (Nat × Nat)) (approx : Bool) (dc : List Word)
  | reissue
  | exhausted

/-- The handling of an attempt once its rows and columns are judged (R200). -/
def decideAttempt (r : MmaReq) (n : Nat) (q : List Quant × List Quant) (dc : List Word) (v : Verdict) (mtol : Nat) : Attempt :=
  let tol := r.mode == .tolerant
  if v.rows.isEmpty && v.cols.isEmpty then .accept none false dc
  else
    let fixed := match r.mode, v.rows, v.cols with
      | .exact, _, _ => none
      | _, [i], [j] => (correctAt r.m r.n q dc mtol tol i j).map (fun dc => ((i, j), dc))
      | _, _, _ => none
    match fixed with
    | some (ij, dc) => .accept (some ij) false dc
    | none => if tol then .accept none true dc else if n = 1 + r.mretry then .exhausted else .reissue

/-- The stage after an attempt, and whether it was an event of R396. -/
def afterAttempt (r : MmaReq) (p : PassInfo) (q : List Quant × List Quant) (dc : List Word) (mtol : Nat) : PassStage × Bool :=
  let v := judgeAll r.m r.n q dc mtol (r.mode == .tolerant)
  let p := { p with unj := v.unj, mism1 := if p.attempt = 1 then v.rows.length + v.cols.length else p.mism1 }
  match decideAttempt r p.attempt q dc v mtol with
  | .accept corr approx dc => (.accum p corr approx dc, corr.isSome || approx)
  | .reissue => (.again { p with attempt := p.attempt + 1 }, true)
  | .exhausted => (.failed p 2, false)

/-- An attempt's stream has ended and its rows and columns are judged. `late` are natural late bits, `ecc` an uncorrectable
error of what it read: then UNJUDGED and NANSCALE stay those of the attempt before (DESIGN CHOICE, log entry 104). All rows and scales are
read at this one instant (DESIGN CHOICE, log entry 103). -/
def attemptStep (s : State) (cluster : Nat) (e : EReq) (r : MmaReq) (p : PassInfo) (late : List LateBit) (ecc : Bool) : State :=
  let s := (streamCount s cluster r p (streamClocks r)).modCluster cluster (fun k => if p.safe then safeWithdraw k else k)
  if ecc then s.modCluster cluster (fun k => setStage k e.id (.failed p 1)) |> fun s => rasCount s (dieOfCluster cluster) 1 1
  else
    let h := halfOf (s.cluster cluster) r.wbuf
    let s := injSegs s (r.rows ++ r.srows).flatten
    let raw := (List.range r.m).map (fun i =>
      (segsRead s (r.rows.getD i []), if r.ascale then some (segsRead s (r.srows.getD i [])) else none))
    let as := raw.map (fun x => vecVals r.afmt r.k x.1 x.2)
    if h.held.st = .ready ∧ h.held.k = r.k ∧ h.held.n = r.n ∧ pairOk r.afmt h.held.bfmt then
      let cols := columnsOf h.held h.tile
      let ws := cols.map (·.1)
      let p := { p with nanscale := raw.any (fun x => vecNanScale r.afmt r.k x.1 x.2) || cols.any (·.2) }
      let dc := late.foldl (flipLate r.m r.n) (passDc r.afmt r.k as ws)
      let pos := match lateInj s e with
        | some i => (List.range r.m).flatMap (fun a => (List.range r.n).filterMap (fun b =>
            if i.first0 ≤ a ∧ a ≤ i.last0 ∧ i.first1 ≤ b ∧ b ≤ i.last1 then some (a, b) else none))
        | none => []
      let (dc, inj) := injDc r.n pos dc (lateInj s e)
      let s := if (lateInj s e).isSome then setInj s e.core 1 inj else s
      let (st, ev) := afterAttempt r p (quantities r.k as ws) dc (mtolFor r.mtol r.afmt (r.ascale || h.held.bscl))
      s.modCluster cluster (fun k => { setStage k e.id st with wevt := k.wevt + (ev && !p.safe).toNat })
    else
      let (dc, s) := freeWords s (r.m * r.n)
      s.modCluster cluster (fun k => setStage k e.id (.accum p none false dc))

def entryOf (s : State) (cluster id : Nat) : Option EReq := (s.cluster cluster).table.find? (fun e => e.id == id)

def execAttemptCheck (cluster id : Nat) (late : List LateBit) (ecc : Bool) (s : State) : Out :=
  match entryOf s cluster id with
  | none => .next s
  | some e =>
    match e.kind, e.stage with
    | .mma r, .stream p =>
      if (r.rows ++ r.srows).any (·.any (segWaits s)) then .next s
      else .next (attemptStep s cluster e r p late (ecc || (r.rows ++ r.srows).any (·.any (segBad s))))
    | _, _ => .next s

/-! ### Completion -/

def accKey (i j : Nat) : Nat := 768 * i + j
def accGet (k : Cluster) (i j : Nat) : Word := tget 0 k.acc (accKey i j)
/-- A position of +0 is not listed. -/
def accSet (k : Cluster) (i j : Nat) (w : Word) : Cluster :=
  { k with acc := if w = 0 then tdel (accKey i j) k.acc else tset (accKey i j) w k.acc }

/-- Positions of a rectangle, row by row, with their index. -/
def rectPos (r : Rect) : List (Nat × Nat) :=
  (List.range r.nr).flatMap (fun i => (List.range r.nc).map (fun j => (r.row + i, r.col + j)))

/-- C of R53. -/
def accumulate (k : Cluster) (r : MmaReq) (dc : List Word) : Cluster :=
  (List.zip (rectPos r.rect) dc).foldl (fun k p =>
    let w := if r.acc then BitVec.ofNat 32 (fAdd f32 .rn (accGet k p.1.1 p.1.2).toNat p.2.toNat).1 else p.2
    accSet k p.1.1 p.1.2 w) k

/-- The accumulate stage ends, or a failed pass reports its end. `ecc` is an uncorrectable error of a position read. -/
def execPassComplete (cluster id : Nat) (ecc : Bool) (s : State) : Out :=
  match entryOf s cluster id with
  | none => .next s
  | some e =>
    if !outputFree s cluster then .next s
    else match e.kind, e.stage with
    | .mma r, .accum p corr approx dc =>
      if ecc && r.acc then .next (rasCount (endPass s cluster e r p 1 none false) (dieOfCluster cluster) 1 1)
      else .next (endPass (s.modCluster cluster (fun k => accumulate k r dc)) cluster e r p 0 corr approx)
    | .mma r, .failed p code => .next (endPass s cluster e r p code none false)
    | _, _ => .next s

/-- What a transfer reads, and what it writes. -/
def transferReads : ReqKind → List Seg
  | .wload _ _ _ _ _ _ src _ => src
  | .accld _ _ src _ => src
  | _ => []
def transferWrites : ReqKind → List Seg
  | .accst _ _ _ _ dst _ => dst
  | _ => []

/-- How a transfer's memory fails, when it may: code 1, with the place and detail of the error, or 7. Nothing fails while a stack that
trains holds an access of it (R415). -/
def transferFail (s : State) (e : EReq) (why : AccFail) : Option (Nat × Option (Loc × Nat)) :=
  match why with
  | .dataError d => (segsError s (transferReads e.kind) (transferWrites e.kind) d).map (fun l => (1, some (l, d)))
  | .linkFail _ =>
    if (kindSegs e.kind).any (fun g => segDown s e.core e.thread g) || (transferReads e.kind).any (segFails s e.core e.thread true) ||
        (transferWrites e.kind).any (segFails s e.core e.thread false) then some (7, none) else none
  | .xlate => none

/-- The error is counted where it lies (R416). -/
def ueCount (s : State) (f : Option (Loc × Nat)) : State :=
  match f with
  | some (l, d) => countSeg s l d
  | none => s

/-- A transfer that may go on: no link it needs is down, no way it needs is unfilled, and what it reads has no uncorrectable error. -/
def transferReady (s : State) (e : EReq) : Bool :=
  !(kindSegs e.kind).any (segDown s e.core e.thread) && !(kindSegs e.kind).any (segWaits s) && !(transferReads e.kind).any (segBad s)

def execWloadComplete (cluster id : Nat) (why : Option AccFail) (s : State) : Out :=
  match entryOf s cluster id with
  | none => .next s
  | some e =>
    match e.kind, e.stage with
    | .wload buf bfmt cmp bscl k n src bytes, .transfer =>
      match why with
      | none =>
        if transferReady s e && outputFree s cluster then
          let s := useSegs (injSegs s src) (partOfLaunch s e.launch) src
          .next (endEntry (endHalf s cluster e buf { st := .ready, bfmt, cmp, bscl, k, n } (segsRead s src)) cluster e 0 bytes)
        else .next s
      | some w =>
        match transferFail s e w with
        | some (code, f) => .next (failEntry (ueCount s f) cluster e code)
        | none => .next s
    | _, _ => .next s

def execWdropComplete (cluster id : Nat) (s : State) : Out :=
  match entryOf s cluster id with
  | none => .next s
  | some e =>
    match e.kind, e.stage with
    | .wdrop buf, .transfer => .next (endEntry (endHalf s cluster e buf {} []) cluster e 0 0)
    | _, _ => .next s

/-- ACCLD's exact FP32 values (R204). -/
def loadRect (k : Cluster) (fmt : Nat) (rect : Rect) (bs : List Byte) : Cluster :=
  (List.zip (rectPos rect) (elems fmt (rect.nr * rect.nc) bs)).foldl (fun k p =>
    accSet k p.1.1 p.1.2 (BitVec.ofNat 32 (deliver f32 .rn false p.2).1)) k

/-- ACCST's converted bytes. -/
def storeRect (k : Cluster) (fmt : Nat) (rm : Rnd) (sat : Bool) (rect : Rect) : List Byte :=
  (rectPos rect).flatMap (fun p => leBytes (elemBytes fmt) (convert fmt 2 rm sat (accGet k p.1 p.2).toNat).1)

/-- An ACCST in an error phase has written any subset of its bytes: a free bit decides each. -/
def storeSome (s : State) (dst : List Seg) : Nat → List Byte → State
  | _, [] => s
  | i, b :: bs =>
    let (x, s) := freeValue s
    storeSome (if x.getLsbD 0 then locSet s (segsAt dst i) b else s) dst (i + 1) bs

def execTransferComplete (cluster id : Nat) (why : Option AccFail) (s : State) : Out :=
  match entryOf s cluster id with
  | none => .next s
  | some e =>
    match e.stage with
    | .transfer =>
      match why with
      | some w =>
        match e.kind, transferFail s e w with
        | .accld .., some (code, f) => .next (failEntry (ueCount s f) cluster e code)
        | .accst fmt rm sat rect dst _, some (code, f) =>
          .next (failEntry (ueCount (storeSome s dst 0 (storeRect (s.cluster cluster) fmt rm sat rect)) f) cluster e code)
        | _, _ => .next s
      | none =>
        if !transferReady s e || !outputFree s cluster || decide ((s.cluster cluster).sent < dataEntries e) then .next s
        else
          let part := partOfLaunch s e.launch
          match e.kind with
          | .accld fmt rect src bytes =>
            let bs := segsRead s src
            let s := (useSegs (injSegs s src) part src).modCluster cluster (fun k => loadRect k fmt rect bs)
            .next (endEntry s cluster e 0 bytes)
          | .accst fmt rm sat rect dst bytes =>
            .next (endEntry (useSegs (segsWrite s dst (storeRect (s.cluster cluster) fmt rm sat rect)) part dst) cluster e 0 bytes)
          | .accz rect => .next (endEntry (s.modCluster cluster (fun k =>
              (rectPos rect).foldl (fun k p => accSet k p.1 p.2 0) k)) cluster e 0 0)
          | _ => .next s
    | _ => .next s

/-! ### MCANCEL (R208) and the end of a holder (R183) -/

/-- Accepted, and the accumulate stage has not begun. A pass whose check has decided an error keeps that error (DESIGN CHOICE, log entry
105). -/
def cancellable (e : EReq) : Bool :=
  isPass e.kind && (match e.stage with | .waiting => true | .again _ => true | .stream _ => true | _ => false)

def execMcancel (c : Ctl) (a : Option Src) (s : State) : Out :=
  forOut c [] (fun s0 t s =>
    let th := s0.thread t
    let g := s0.group th.group
    let k := clusterOf (coreOfThread t)
    let hit (e : EReq) : Bool := cancellable e && e.group == th.group &&
      (match a, e.kind with
       | some a, .mma r => r.passid == srcW th g a
       | _, _ => true)
    if !holdsEngine s0 t then engTrap 1
    else .retire (((s.cluster k).table.filter hit).foldl (fun s e => failEntry s k e 6) (gcEvent s 0xD t 1))) s

/-- The engine of a cluster returns to its reset state, and asks for V_safe no more (R183, R400). -/
def engineReset (s : State) (cluster : Nat) : State :=
  let s := s.modCluster cluster (fun k => safeSettle { k with holder := none, w0 := {}, w1 := {}, acc := [], table := [], posted := [] })
  (coresOfCluster cluster).foldl (fun s c =>
    if (tfind s.cores c).isSome then s.modCore c (fun x => { x with ring := [] }) else s) s

end Sys2Proof.Machine
end

