-- ==== Sys2Proof/Machine/Rails.lean ====
section
/-! DEFINITION. Matrix rails, clocks and the rail controller (R394 to R401), and the slices' snapshots (R251). Steps and samples come at
the latest with the clock, at their times (`moveClocks`, `sampleClocks`); an event that is not enabled leaves the state as it is. -/

namespace Sys2Proof.Machine

/-- The partition that owns a cluster, if one does. -/
def clusterOwner (s : State) (k : Nat) : Option Nat :=
  (s.parts.find? (fun p => flag (p.2.pclu.getD (dieOfCluster k) 0) (k % clustersPerDie))).map (·.1)

/-- Count in the telemetry of the partition of a cluster (R406). -/
def ownerCount (s : State) (k sel : Nat) : State :=
  match clusterOwner s k with
  | some p => telCount s p (dieOfCluster k) sel 1
  | none => s

/-- A denial at V_floor (R397, R398). -/
def denyFloor (s : State) (k : Nat) : State :=
  ownerCount (clusterCount (s.modCluster k (fun x => { x with denied := true })) k 0x10A 1) k 4

def clampRail (k : Cluster) (mv : Nat) : Nat := min 800 (max k.vfloor mv)

/-- x + V_safe(n) − V_safe(c). -/
def addDelta (k : Cluster) (x n : Nat) : Nat := x + vsafeAt k n - vsafeAt k k.fstep

/-- Where the rail goes: its goal; while a request for V_safe stands it moves to no lower value, and at least to V_safe of its step and
of one about to be taken (R201, R399, R400). -/
def railAim (k : Cluster) : Nat :=
  let step := match k.change with
    | some (n, _, false) => max n k.fstep
    | _ => k.fstep
  if k.safereq then max (max k.goal k.railmv) (vsafeAt k step) else k.goal

/-! ### RCVSET and RCFSET (R398, R399) -/

/-- A legal RCVSET request. -/
def applyVset (k : Cluster) (mv : Nat) : Cluster :=
  if k.change.isSome then
    { k with heldw := k.heldw.filter (fun w => match w with | .vset _ => false | .fset _ => true) ++ [.vset mv] }
  else if k.safereq then { k with ret := mv }
  else { k with goal := mv, returning := false }

/-- A legal RCFSET request: a raise moves the rail first, a lowering the divider. -/
def applyFset (k : Cluster) (n : Nat) : Cluster :=
  if k.change.isSome then
    { k with heldw := k.heldw.filter (fun w => match w with | .fset _ => false | .vset _ => true) ++ [.fset n] }
  else if n = k.fstep then k
  else if k.fstep < n then
    let v := min 800 (addDelta k k.railmv n)
    if k.safereq then { k with change := some (n, v, false), goal := max k.goal v, returning := false, ret := clampRail k (addDelta k k.ret n) }
    else { k with change := some (n, v, false), goal := v, returning := false }
  else { k with change := some (n, k.railmv, false) }

/-- Held writes are carried out in order until one starts a change. -/
def heldWrites (k : Cluster) : Nat → Cluster
  | 0 => k
  | fuel + 1 =>
    match k.change, k.heldw with
    | none, .vset mv :: t => heldWrites (applyVset { k with heldw := t } mv) fuel
    | none, .fset n :: t => heldWrites (applyFset { k with heldw := t } n) fuel
    | _, _ => k

def changeDone (k : Cluster) : Cluster := heldWrites { k with change := none } k.heldw.length

/-- A cluster that is absent has a block that ignores writes (R395). -/
def clusterPresent (s : State) (k : Nat) : Bool :=
  decide (dieOfCluster k < nDies) && (s.die (dieOfCluster k)).fuse.present &&
    decide (k % clustersPerDie < clustersPresent s (dieOfCluster k))

/-- A write of RCVSET; one that is ignored leaves what the register reads (DEDUCED, log entry 22). -/
def writeVset (s : State) (cluster : Nat) (v : DWord) : State :=
  let mv := v.toNat % 2 ^ 10
  let k := s.cluster cluster
  if mv % 5 ≠ 0 ∨ mv < 500 ∨ 800 < mv then s.setCluster cluster { k with badreq := true }
  else if mv < k.vfloor then denyFloor (s.setCluster cluster { k with rcvset := mv }) cluster
  else s.setCluster cluster (applyVset { k with rcvset := mv } mv)

def writeFset (s : State) (cluster : Nat) (v : DWord) : State :=
  let n := v.toNat % 2 ^ 6
  let k := s.cluster cluster
  if 32 < n then s.setCluster cluster { k with badreq := true }
  else s.setCluster cluster (applyFset { k with rcfset := n } n)

/-- The host reaches a cluster's controller (R376, R395). -/
def railReached (s : State) (cluster : Nat) : Bool := clusterPresent s cluster && !(s.die (dieOfCluster cluster)).laceDown

/-- A write of the host to a cluster's controller. -/
def atRail (s : State) (cluster : Nat) (f : State) : State :=
  if railReached s cluster then f else if clusterPresent s cluster then atHost s (dieOfCluster cluster) s else s

def execRcvsetWrite (cluster : Nat) (v : DWord) (s : State) : Out := .next (atRail s cluster (writeVset s cluster v))

def execRcfsetWrite (cluster : Nat) (v : DWord) (s : State) : Out :=
  .next (atRail s cluster (writeFset s cluster v))

/-! ### Moves (R400, R401) -/

/-- Passes that stream note the lowest rail and step. -/
def noteStreams (k : Cluster) : Cluster :=
  { k with table := k.table.map (fun e => match e.stage with
      | .stream p => { e with stage := .stream { p with railmv := min p.railmv k.railmv, fstep := min p.fstep k.fstep } }
      | _ => e) }

/-- A lowering's rail move, the last row of its order, has been done. -/
def lowerDone (k : Cluster) : Cluster :=
  match k.change with
  | some (_, _, true) => if k.railmv = k.goal then changeDone k else k
  | _ => k

def stepRail (k : Cluster) : Cluster :=
  let mv := if k.railmv < railAim k then min (railAim k) (k.railmv + 5) else max (railAim k) (k.railmv - 5)
  lowerDone (noteStreams { k with railmv := mv, settling := true, moveAge := 0 })

def execRailStep (cluster : Nat) (s : State) : Out :=
  .next (s.modCluster cluster (fun k => if k.railmv = railAim k then k else stepRail k))

def settleRail (k : Cluster) : Cluster := if k.railmv = railAim k then { k with settling := false, moveAge := 0 } else k

def execRailSettled (cluster : Nat) (s : State) : Out := .next (s.modCluster cluster settleRail)

/-- The divider may take its step: at once for a lowering, after the rail has settled for a raise. -/
def dividerReady (k : Cluster) (n : Nat) : Bool := decide (n < k.fstep) || (k.railmv == railAim k && !k.settling)

/-- The clock takes its step. A lowering then moves the rail down, or, while a request for V_safe stands, only its return value
(DEDUCED, log entry 22). -/
def takeDivider (k : Cluster) : Cluster :=
  match k.change with
  | some (n, _, false) =>
    if !dividerReady k n then k
    else if k.fstep < n then changeDone (noteStreams { k with fstep := n })
    else if k.safereq then changeDone (noteStreams { k with fstep := n, ret := clampRail k (addDelta k k.ret n) })
    else
      let v := max k.vfloor (addDelta k k.railmv n)
      lowerDone (noteStreams { k with fstep := n, goal := v, returning := false, change := some (n, v, true) })
  | _ => k

def execDividerChange (cluster : Nat) (s : State) : Out := .next (s.modCluster cluster takeDivider)

/-- What a cluster's move or change does next by its time, and how many core clocks after the last: a divider change within 4 matrix
clocks, a step of the rail 50 ns after another, the rail settled after 400 ns (R400). -/
def nextMove (mhz : Nat) (k : Cluster) : Option (Nat × (Cluster → Cluster)) :=
  if (match k.change with | some (n, _, false) => dividerReady k n | _ => false) then some (4, takeDivider)
  else if k.railmv ≠ railAim k then some (max 1 (mhz / 20), stepRail)
  else if k.settling then some (max 1 (mhz * 2 / 5), settleRail)
  else none

/-- Core clocks until the next move of a cluster falls due. -/
def moveLeft (mhz : Nat) (k : Cluster) : Option Nat := (nextMove mhz k).map (fun p => max 1 (p.1 - k.moveAge))

/-- `n` core clocks of the moves of a cluster; no more pass at once than until the next falls due. -/
def moveClocks (mhz n : Nat) (k : Cluster) : Cluster :=
  match nextMove mhz k with
  | none => { k with moveAge := 0 }
  | some (d, f) => if d ≤ k.moveAge + n then { f k with moveAge := 0 } else { k with moveAge := k.moveAge + n }

/-! ### Samples (R396, R397, R403) -/

/-- W_ACT: 0 NONE, 1 UP, 2 DOWN, 3 DENIED, 4 HELD, also while a move is in progress (R395); and W_RATE. -/
def sampleAct (k : Cluster) : Nat × Nat :=
  if !k.en || k.safereq || k.change.isSome || k.settling || k.railmv != railAim k || k.watt == 0 then (4, 0)
  else
    let rate := k.wevt * 2 ^ 20 / k.watt
    if k.target + k.hyst < rate then (if k.railmv < vsafeAt k k.fstep then 1 else 0, rate)
    else if rate + k.hyst < k.target then (if k.railmv < k.vfloor + 5 then 3 else 2, rate)
    else (0, rate)

def setCnt (sel n : Nat) (k : Cluster) : Cluster := { k with cnt := tset sel (BitVec.ofNat 64 n) k.cnt }

/-- The window values are latched together, and a new window begins. The four cores have two slots each in every clock. -/
def latchWindow (now : Nat) (k : Cluster) : Cluster :=
  let a := sampleAct k
  let w (i : Nat) : Nat := k.wslots.getD i 0
  let vals := [k.watt, k.wevt, w 0, w 1, w 2, 8 * (now - w 3) - w 0 - w 1 - w 2, a.2, a.1]
  let k := vals.zipIdx.foldl (fun k p => setCnt (0x111 + p.2) p.1 k) k
  { k with cnt := bump 1 0x110 k.cnt, watt := 0, wevt := 0, wslots := [0, 0, 0, now] }

/-- The end of a cluster's window. -/
def windowEnd (s : State) (cluster : Nat) : Nat := (s.cluster cluster).wslots.getD 3 0 + 20000

/-- A cluster is sampled 20,000 core clocks after its last sample, and first at some clock up to the 20,000th (R396). -/
def sampleTime (s : State) (cluster : Nat) : Bool :=
  decide (windowEnd s cluster ≤ s.clock) || tget 0 (s.cluster cluster).cnt 0x110 == 0

def takeSample (s : State) (cluster : Nat) : State :=
  let act := (sampleAct (s.cluster cluster)).1
  let s := ownerCount (s.modCluster cluster (latchWindow s.clock)) cluster 0xF
  match act with
  | 1 => clusterCount (s.modCluster cluster (fun k => { k with goal := min 800 (k.goal + 5), returning := false })) cluster 0x10B 1
  | 2 => clusterCount (s.modCluster cluster (fun k => { k with goal := max k.vfloor (k.goal - 5), returning := false })) cluster 0x10C 1
  | 3 => denyFloor s cluster
  | 4 => clusterCount s cluster 0x10D 1
  | _ => s

def execControllerSample (cluster : Nat) (s : State) : Out :=
  .next (if clusterPresent s cluster && sampleTime s cluster then takeSample s cluster else s)

/-- The clusters of a die. -/
def clustersOn (die : Nat) : List Nat := (List.range clustersPerDie).map (fun k => clustersPerDie * die + k)

/-- The windows of a die that end with this clock are sampled. -/
def samplesDue (s : State) (die : Nat) : State :=
  if s.clock < (s.die die).winDue then s
  else
    let ks := (clustersOn die).filter (clusterPresent s)
    let s := ks.foldl (fun s k => if windowEnd s k ≤ s.clock then takeSample s k else s) s
    s.modDie die (fun d => { d with winDue := ks.foldl (fun m k => min m (windowEnd s k)) (s.clock + 20000) })

def sampleClocks (s : State) : State := (List.range nDies).foldl samplesDue s

/-- A slice's snapshot for each partition, refreshed: lines homed there, and remote copies (R251). -/
def refreshSlice (now : Nat) (d : Die) (slice : Nat) : Die :=
  let es := tget [] d.l2 slice
  let put (t : Tbl DWord) (p : Nat) : Tbl DWord :=
    let n (r : Bool) : Nat := (es.filter (fun e => e.part == p && e.rcopy == r)).length
    let v := n false % 2 ^ 32 + n true * 2 ^ 32
    if v = 0 then tdel (16 * slice + p) t else tset (16 * slice + p) (BitVec.ofNat 64 v) t
  { d with snap := (List.range 16).foldl put d.snap, snapAt := tset slice now d.snapAt }

/-- The refresh of a slice, `slice` being 96 × die + 32 × sector + slice. Its instants are not stated; no two are more than 1,024 core
clocks apart (log entry 2). -/
def execSnapshotRefresh (slice : Nat) (s : State) : Out :=
  .next (s.modDie (slice / 96) (fun d => refreshSlice s.clock d (slice % 96)))

/-- The slices whose snapshot is 1,024 core clocks old are refreshed. -/
def refreshDue (now : Nat) (d : Die) : Die :=
  if now < d.snapDue then d
  else
    let d := (List.range 96).foldl (fun d k => if tget 0 d.snapAt k + 1024 ≤ now then refreshSlice now d k else d) d
    { d with snapDue := (List.range 96).foldl (fun m k => min m (tget 0 d.snapAt k + 1024)) (now + 1024) }

def snapClocks (s : State) : State := { s with dies := tmap (fun _ d => refreshDue s.clock d) s.dies }

end Sys2Proof.Machine
end

