-- ==== Sys2Proof/Machine/Sync.lean ====
section
/-! DEFINITION. Sync objects and publication: ACQ, TRYACQ, REL, PUBLISH and what they ask of bank ALUs and Lace ports
(R257, R266 to R274). -/

namespace Sys2Proof.Machine

/-! ### The object and its state word (R266, R267) -/

structure SyncObj where
  ptr : DWord
  die : Nat
  word : Nat
  exts : List (Nat × Nat)

def swSh (x : Nat) : Nat := bitsAt x 0 16
def swExcl (x : Nat) : Bool := flag x 16
def swSeq (x : Nat) : Nat := bitsAt x 32 32

/-- Fields changed in a state word; its other bits stay as stored. -/
def swMake (x sh : Nat) (excl waiting : Bool) (seq : Nat) : Nat :=
  sh + excl.toNat * 2 ^ 16 + waiting.toNat * 2 ^ 17 + bitsAt x 18 14 * 2 ^ 18 + seq * 2 ^ 32 + bitsAt x 64 64 * 2 ^ 64

/-- An extent entry of R266: TYPE 1 or 2 in space 0x0, 0x2 or 0x3. -/
def syncExtent (s : State) (c part idx : Nat) : Option (Option (Nat × Nat) × State) :=
  match capture s c part idx with
  | none => none
  | some (e, s) =>
    let sp := ptrSpace (oBase e)
    if entryValid s part (dieOfCore c) e && (oType e == 1 || oType e == 2) && (sp == 0 || sp == 2 || sp == 3) then
      some (some ((oBase e).toNat, oExtent e), s)
    else some (none, s)

/-- Captures the extents in order; none is DATA_ERROR, and a failed entry is SYNC_DESC. -/
def syncExtents (s : State) (c part : Nat) : List Nat → Option (Option (List (Nat × Nat)) × State)
  | [] => some (some [], s)
  | i :: is =>
    match syncExtent s c part i with
    | none => none
    | some (none, s) => some (none, s)
    | some (some x, s) =>
      match syncExtents s c part is with
      | none => none
      | some (none, s) => some (none, s)
      | some (some xs, s) => some (some (x :: xs), s)

/-- The checks of R268; a bridge that is down ends the request at once (DEDUCED, log entry 15). -/
def syncCheck (s0 s : State) (t : Nat) (needW : Bool) (obj : ObjSel) : Except Lane (SyncObj × State) :=
  let co := coreOfThread t
  let part := s0.partOf t
  match capture s co part (objIdx (s0.group (s0.thread t).group) obj) with
  | none => .error (.uncaptured s co part (objIdx (s0.group (s0.thread t).group) obj))
  | some (e, s) =>
    let p := BitVec.ofNat 64 (bitsAt e 96 64)
    if !entryValid s part (dieOfCore co) e then .error (.trapC 0x20)
    else if oType e ≠ 4 then .error (.trapC 0x21)
    else if !(if needW then oW e else oR e) then .error (.trapC 0x22)
    else
      let named := (List.range (bitsAt e 14 2 + 1)).map (fun i => bitsAt e (32 + 16 * i) 16)
      match syncExtents s co part named with
      | none => .error (.uncaptured s co part ((named.find? (fun i => (capture s co part i).isNone)).getD 0))
      | some (none, _) => .error (.trapC 0x2E)
      | some (some xs, s) =>
        if ptrSpace p ≠ 2 ∨ !boPtrOk s co part p then .error (.trapC 0x2E)
        else
          let b := bankRangeBase s part (bankDie p) + bankOff p
          match linkFault s (dieOfCore co) (.bank (bankDie p) b) with
          | some det => .error (.trap 0x53 det p 0 false)
          | none => .ok (⟨p, bankDie p, b, xs⟩, s)

/-! ### The lines of extents (R269) -/

/-- Physical pages of 4 KiB that an extent in device memory maps. -/
def extPages (s : State) (part : Nat) (x : Nat × Nat) : List Nat :=
  if x.1 / 2 ^ 60 ≠ 0 ∨ x.2 = 0 then []
  else (List.range ((x.1 % 4096 + x.2 + 4095) / 4096)).filterMap (fun i =>
    match walk s part true (x.1 / 4096 * 4096 + 4096 * i) {} with
    | .ok (pa, _) => some (pa / 4096)
    | .error _ => none)

def extLines (s : State) (part : Nat) (xs : List (Nat × Nat)) (l : Nat) : Bool :=
  (xs.flatMap (extPages s part)).contains (l / 32)

/-- On a grant the extents' lines leave the core's L1 and their remote copies leave the core's sector. -/
def grantLines (s : State) (c part : Nat) (xs : List (Nat × Nat)) : State :=
  let pages := xs.flatMap (extPages s part)
  let ls := ((s.core c).l1d.map (·.1)).filter (fun l => pages.contains (l / 32))
  let cs := ((s.die (dieOfCore c)).copies.filter (fun p => p.1 / 2 ^ 48 == coreSector s c)).map (fun p => p.1 % 2 ^ 48)
  let s := ls.foldl (fun s l => l1Drop s c part l) s
  (cs.filter (fun l => pages.contains (l / 32))).foldl (fun s l => dropCopy s c l) s

/-- Before a release the extents' dirty bytes reach their homes. -/
def releaseLines (s : State) (c part : Nat) (xs : List (Nat × Nat)) : State :=
  let pages := xs.flatMap (extPages s part)
  (((s.core c).l1d.map (·.1)).filter (fun l => pages.contains (l / 32))).foldl (fun s l => l1Flush s c part l) s

/-- A bridge keeps dirty bytes of the extents from their homes (R383, log entry 108). -/
def extStuck (s : State) (c part : Nat) (xs : List (Nat × Nat)) : Bool :=
  (s.core c).l1d.any (fun p => lineStuck s c p && extLines s part xs p.1)

/-! ### Grants (R269) -/

def wordKey (die word : Nat) : Nat := bankKey die word

/-- The object joins the group's held set. -/
def addHold (s : State) (g key : Nat) (xs : List (Nat × Nat)) : State :=
  s.modGroup g (fun x =>
    { x with holds := if x.holds.any (fun h => h.word == key) then
        x.holds.map (fun h => if h.word == key then { h with count := h.count + 1 } else h)
      else x.holds ++ [⟨key, xs, 1⟩] })

def dropHold (s : State) (g key : Nat) : State :=
  s.modGroup g (fun x =>
    { x with holds := (x.holds.map (fun h => if h.word == key then { h with count := h.count - 1 } else h)).filter (fun h => h.count != 0) })

/-- Whether the word lets a request in. -/
def grantable (x : Nat) (shared : Bool) : Bool :=
  !swExcl x && (if shared then decide (swSh x < 65535) else swSh x == 0)

def wordAfter (x : Nat) (shared waiting : Bool) : Nat :=
  if shared then swMake x (swSh x + 1) (swExcl x) waiting (swSeq x) else swMake x (swSh x) true waiting (swSeq x)

def registered (s : State) (die word : Nat) : List (Nat × SyncReq) := s.syncReg.filter (fun p => p.2.die == die && p.2.word == word)

def setWaiting (s : State) (die word : Nat) : State :=
  let loc := Loc.bank die word
  let x := locNat s loc 16
  locWrite s loc (leBytes 16 (swMake x (swSh x) (swExcl x) (!(registered s die word).isEmpty) (swSeq x)))

/-- The effects of a grant on the core and the group, before its thread retires. -/
def grantTo (s : State) (r : SyncReq) : State :=
  let loc := Loc.bank r.die r.word
  let s := locWrite s loc (leBytes 16 (wordAfter (locNat s loc 16) r.shared (!(registered s r.die r.word).isEmpty)))
  addHold (grantLines s r.core r.part r.exts) r.group (wordKey r.die r.word) r.exts

/-- The waiting thread of an ACQ that is granted retires. `grp` is the group whose instruction made the grant, if one did (R339). -/
def acqRetire (s : State) (t : Nat) (grp : Option Nat) : State :=
  match (s.thread t).run with
  | .waiting (.acq qe) => retireWaiter (writePred s t qe false) t (grp == some (s.thread t).group)
  | _ => s

/-- Grant the oldest request while the word lets it in. -/
def grantLoop (s : State) (grp : Option Nat) (die word : Nat) : Nat → State
  | 0 => s
  | n + 1 =>
    match registered s die word with
    | [] => s
    | (id, r) :: _ =>
      if grantable (locNat s (.bank die word) 16) r.shared then
        let s := { s with syncReg := tdel id s.syncReg }
        grantLoop (acqRetire (grantTo s r) r.thread grp) grp die word n
      else s

/-- The requests of some threads, on their way or registered, are withdrawn together: WAITING follows the registrations, and those
they stood before are granted when the word lets them in (R267, R269, R271). A TRYACQ has retired: only where its thread ends is its
request withdrawn. -/
def syncWithdraw (s : State) (ts : List Nat) (keepTry : Bool := false) : State :=
  let mine := s.syncReg.filter (fun p => ts.contains p.2.thread)
  let s := { s with syncReg := tkeep (fun _ r => !ts.contains r.thread) s.syncReg
                    syncFly := tkeep (fun _ r => !ts.contains r.thread || (keepTry && r.tryOnly)) s.syncFly }
  mine.foldl (fun s p => grantLoop (setWaiting s p.2.die p.2.word) none p.2.die p.2.word (registered s p.2.die p.2.word).length) s

def syncRequest (s0 : State) (t : Nat) (o : SyncObj) (shared tryOnly : Bool) (late : Nat := 0) : SyncReq :=
  { thread := t, ptr := o.ptr, group := (s0.thread t).group, core := coreOfThread t, part := s0.partOf t, die := o.die, word := o.word
    exts := o.exts, shared, tryOnly, launch := (s0.group (s0.thread t).group).launch, tid := (s0.thread t).tid, pc := (s0.thread t).pc
    late }

/-- The predicate of a TRYACQ is known, and is written where its result waits (R269). -/
def tryDecided (s : State) (r : SyncReq) (ok : Bool) : State :=
  s.modCore r.core (fun x => { x with late := x.late.map (fun e =>
    if e.id == r.late then { e with preds := e.preds.map (fun p => (p.1, ok)), ready := true } else e) })

def execAcq (c : Ctl) (sh : Bool) (qd : Option PDst) (obj : ObjSel) (s : State) : Out :=
  forOut c [] (fun s0 t s =>
    match syncCheck s0 s t (!sh) obj with
    | .error l => l
    | .ok (o, s) =>
      let (id, s) := freshId s
      .done ({ s with syncFly := tset id (syncRequest s0 t o sh false) s.syncFly }.modThread t
        (fun x => { x with run := .waiting (.acq qd) }))) s

/-- TRYACQ retires; its predicate, a result of class MEM, waits for the decision on its request (R268, R269; log entry 62). -/
def execTryacq (c : Ctl) (sh : Bool) (qd : PDst) (obj : ObjSel) (s : State) : Out :=
  forOut c [] (fun s0 t s =>
    match syncCheck s0 s t false obj with
    | .error l => l
    | .ok (o, s) =>
      let late := s.nextId
      let s := lateRes s t (c.la.val + 1) true true { preds := [(qd.val, false)] }
      let s := s.modCore (coreOfThread t) (fun x => { x with late := x.late.map (fun e => if e.id == late then { e with ready := false } else e) })
      let (id, s) := freshId s
      .retire { s with syncFly := tset id (syncRequest s0 t o sh true late) s.syncFly }) s

/-- Earlier requests and releases of the thread at the word are still on their way (R270). -/
def earlierOnWay (s : State) (id t die word : Nat) : Bool :=
  s.syncFly.any (fun p => decide (p.1 < id) && p.2.thread == t && p.2.die == die && p.2.word == word) ||
    s.rels.any (fun p => decide (p.1 < id) && p.2.thread == t && p.2.die == die && p.2.word == word)

/-- An imprecise fault of an instruction that has retired and holds no store-buffer entry (R350). -/
def lateFault (s : State) (core group launch part tid : Nat) (pc addr : DWord) (code detail : Nat) : State :=
  let (serial, s) := freshId s
  let f : FRec :=
    { serial, code, detail, flags := 4 + 8 * (groupExited s group).toNat, die := dieOfCore core, core := coreInDie core
      launchId := match tfind s.launches launch with | some l => l.id | none => 0
      tid, grp := (s.group group).grp, pc := pc.toNat, addr := addr.toNat, time := (s.die (dieOfCore core)).dlclk }
  sendRec s part launch f

/-- A request reaches its bank ALU: an ACQ registers, a TRYACQ is granted or fails. One that a bridge cuts off ends with LINK_FAIL: a
trap of the thread that waits in its ACQ, an imprecise fault of a TRYACQ, which has retired and fails (R383; DEDUCED, log entry 66). -/
def execSyncRequestArrival (id : Nat) (s : State) : Out :=
  match tfind s.syncFly id with
  | none => .next s
  | some r =>
    if earlierOnWay s id r.thread r.die r.word then .next s
    else
      let s := { s with syncFly := tdel id s.syncFly }
      if bridgeDown s (dieOfCore r.core) r.die then
        .next (if r.tryOnly then lateFault (tryDecided s r false) r.core r.group r.launch r.part r.tid r.pc r.ptr 0x53 (16 + r.die)
          else takeTrap s r.thread 0x53 (16 + r.die) r.ptr 0 false)
      else if r.tryOnly then
        let ok := (registered s r.die r.word).isEmpty && grantable (locNat s (.bank r.die r.word) 16) r.shared
        .next (tryDecided (if ok then grantTo s r else s) r ok)
      else
        let (n, s) := freshId s
        let s := { s with syncReg := tset n r s.syncReg }
        .next (grantLoop (setWaiting s r.die r.word) (some r.group) r.die r.word (registered s r.die r.word).length)

/-! ### REL (R270) -/

def execRel (c : Ctl) (obj : ObjSel) (s : State) : Out :=
  forOut c [] (fun s0 t s =>
    match syncCheck s0 s t false obj with
    | .error l => l
    | .ok (o, s) =>
      if !loadsDone s t then .hold (waitFinish s t)
      else
        let th := s0.thread t
        let (id, s) := freshId s
        let r : RelReq := { thread := t, ptr := o.ptr, tid := th.tid, pc := th.pc, group := th.group, launch := (s0.group th.group).launch
                            core := coreOfThread t, part := s0.partOf t, die := o.die, word := o.word, exts := o.exts }
        .retire { s with rels := tset id r s.rels }) s

def inExtent (a : Access) (xs : List (Nat × Nat)) : Bool :=
  xs.any (fun x => decide (a.ptr.toNat < x.1 + x.2) && decide (x.1 < a.ptr.toNat + a.kind.size))

/-- SYNC_STATE: reported, needs no resolution (R270, R350). -/
def syncStateFault (s : State) (r : RelReq) : State := lateFault s r.core r.group r.launch r.part r.tid r.pc 0 0x2F 0

/-- The thread's earlier stores and atomics to the extents have performed, its extents' dirty bytes are written, and the word
is released; a release that a bridge cuts off ends with LINK_FAIL (R383). -/
def execSyncReleasePerform (id : Nat) (s : State) : Out :=
  match tfind s.rels id with
  | none => .next s
  | some r =>
    let pending := (s.core r.core).stores.any (fun e => e.thread == r.thread && decide (e.id < id) && inExtent e.acc r.exts)
    if pending || extStuck s r.core r.part r.exts || earlierOnWay s id r.thread r.die r.word then .next s
    else if bridgeDown s (dieOfCore r.core) r.die then
      .next (lateFault { s with rels := tdel id s.rels } r.core r.group r.launch r.part r.tid r.pc r.ptr 0x53 (16 + r.die))
    else
      let s := releaseLines { s with rels := tdel id s.rels } r.core r.part r.exts
      let loc := Loc.bank r.die r.word
      let x := locNat s loc 16
      if !swExcl x && swSh x == 0 then .next (syncStateFault s r)
      else
        let sh := if swExcl x then swSh x else swSh x - 1
        let s := locWrite s loc (leBytes 16 (swMake x sh false (flag x 17) ((swSeq x + 1) % 2 ^ 32)))
        let s := dropHold s r.group (wordKey r.die r.word)
        .next (grantLoop s (some r.group) r.die r.word (registered s r.die r.word).length)

/-- No request or release of a group is on its way to a sync object. -/
def syncClear (s : State) (g : Nat) : Bool := s.syncFly.all (fun p => p.2.group != g) && s.rels.all (fun p => p.2.group != g)

/-! ### PUBLISH (R273, R274, R380) -/

def execPublish (c : Ctl) (obj : ObjSel) (s : State) : Out :=
  forOut c [] (fun s0 t s =>
    let co := coreOfThread t
    let part := s0.partOf t
    match capture s co part (objIdx (s0.group (s0.thread t).group) obj) with
    | none => .uncaptured s co part (objIdx (s0.group (s0.thread t).group) obj)
    | some (e, s) =>
      if !entryValid s part (dieOfCore co) e then .trapC 0x20
      else if oType e ≠ 1 ∧ oType e ≠ 2 then .trapC 0x21
      else if !oW e then .trapC 0x22
      else if ptrSpace (oBase e) ≠ 4 then .trapA 0x27 (oBase e)
      else if !loadsDone s t then .hold (waitFinish s t)
      else
        let (id, s) := freshId s
        let th := s0.thread t
        let r : PubReq := { thread := t, tid := th.tid, pc := th.pc, ptr := oBase e, group := th.group, launch := (s0.group th.group).launch
                            part, win := ptrWin (oBase e) }
        .retire { s with pubs := tset id r s.pubs }) s

/-- The thread's earlier writes to the window have performed; the version counter is incremented and written to the host. Cut off by a
link that is down, the request ends with LINK_FAIL (R376, R383; DEDUCED, log entry 66). -/
def execVersionIncrement (id : Nat) (s : State) : Out :=
  match tfind s.pubs id with
  | none => .next s
  | some r =>
    let w := window s r.part r.win
    let pending := (s.core (coreOfThread r.thread)).stores.any (fun e =>
      e.thread == r.thread && decide (e.id < id) && ptrSpace e.acc.ptr == 4 && ptrWin e.acc.ptr == r.win)
    let earlier := s.pubs.any (fun p => decide (p.1 < id) && p.2.thread == r.thread && p.2.win == r.win)
    let core := coreOfThread r.thread
    if pending || earlier then .next s
    else if let some d := linkFault s (dieOfCore core) (.host r.part r.win 0) then
      .next (lateFault { s with pubs := tdel id s.pubs } core r.group r.launch r.part r.tid r.pc r.ptr 0x53 d)
    else
      let v := w.version + 1
      let s := s.modPart r.part (fun p => { p with wins := tset r.win { w with version := v } p.wins })
      let host := msets s.host (hostKey r.part w.veraddr.toNat) (leBytes 8 v.toNat)
      .next { s with pubs := tdel id s.pubs, host }

end Sys2Proof.Machine
end

