-- ==== Sys2Proof/Machine/Welt.lean ====
section
/-! DEFINITION. Class 0xC and the welt stations: allocation, sends, rounds, delivery, orphans (R235 to R245). -/

namespace Sys2Proof.Machine

/-! ### Tags -/

/-- Clocks of a station's own clock in n µs. -/
def stationClocks (s : State) (k n : Nat) : Nat := n * (s.die (stationDie s k)).fuse.cclk

def weltKey (part tag : Nat) : Nat := 2 ^ 32 * part + tag % 2 ^ 32

/-! ### Combining (R241) -/

/-- ADD.F32 or ADD.BF16: kept apart until the round closes. -/
def keepsAll (op : Nat) : Bool := op == 0 || op == 1
def opBytes (op : Nat) : Nat := if op = 1 ∨ op = 5 ∨ op = 6 then 2 else 4

/-- One element over the ranks, ascending. -/
def weltElem (op : Nat) (xs : List Nat) : Nat :=
  match xs with
  | [] => 0
  | x :: rest =>
    match op with
    | 0 => canonNan f32 (rest.foldl (fun a y => (fAdd f32 .rn a y).1) x)
    | 1 => (deliver bf16 .rn false (f32.dec (rest.foldl (fun a y => (fAdd f32 .rn a (y * 2 ^ 16)).1) (x * 2 ^ 16)))).1
    | 2 => rest.foldl (fun a y => (a + y) % 2 ^ 32) x
    | 3 => canonNan f32 (rest.foldl (fMax f32) x)
    | 4 => canonNan f32 (rest.foldl (fMin f32) x)
    | 5 => canonNan bf16 (rest.foldl (fMax bf16) x)
    | 6 => canonNan bf16 (rest.foldl (fMin bf16) x)
    | 7 => rest.foldl (fun a y => if intOf a 32 false ≥ intOf y 32 false then a else y) x
    | 8 => rest.foldl (fun a y => if intOf a 32 false ≤ intOf y 32 false then a else y) x
    | _ => rest.foldl (· ^^^ ·) x

/-- Kept operands by ascending rank. -/
def byRank (kept : List (Nat × Bool × List Byte)) : List (List Byte) :=
  (List.range 8).filterMap (fun r => (kept.find? (fun k => k.1 == r)).map (fun k => k.2.2))

def combine (op size : Nat) (kept : List (Nat × Bool × List Byte)) : List Byte :=
  let n := opBytes op
  let ops := byRank kept
  (List.range (size / n)).flatMap (fun e => leBytes n (weltElem op (ops.map (fun bs => leNat ((bs.drop (n * e)).take n)))))

/-! ### Rounds (R240 to R243) -/

/-- The live allocation of a tag: one whose round has expired is dead (R240, R243). -/
def liveWelt (s : State) (key : Nat) : Option Welt := (tfind s.welts key).filter (fun w => !w.expired)

/-- The open round leaves the station to be delivered; the next one opens empty, but for an expired one. -/
def closeRound (s : State) (key : Nat) (w : Welt) (code : Nat) : State :=
  let (id, s) := freshId s
  let r : Round :=
    { part := key / 2 ^ 32, launch := w.launch, result := combine w.op w.size w.kept, dest := w.dest, cores := w.cores, bo := w.bo
      code, station := w.station, slots := w.slots, ovf := w.ovf, mc := w.mc, frees := if code = 3 then some key else none }
  { s with rounds := tset id r s.rounds, welts := tset key { w with kept := [], slots := 0, ovf := 0, started := 0, expiring := false, expired := code == 3 } s.welts }

/-- The earliest expiry of the open round (R243). -/
def weltDue (s : State) (w : Welt) : Nat := w.started + stationClocks s w.station w.timeout

/-- Expiry, also by WTFREE: the present operands are combined, to be delivered with code ORPHAN (R243). -/
def orphan (s : State) (key : Nat) (w : Welt) : State := closeRound s key w 3

/-- The delivery of a round has ended. Of an expired one the allocation is then freed, and its launch has seen an orphan (R243). -/
def endRound (s : State) (r : Round) : State :=
  match r.frees with
  | none => s
  | some key => ({ s with welts := tdel key s.welts }).modLaunch r.launch (fun l => { l with orphan := true })

/-- Slots of a partition in use at a station, and its overflow units in all. -/
def slotsUsed (s : State) (part station : Nat) : Nat :=
  ((s.welts.filter (fun p => p.1 / 2 ^ 32 == part && p.2.station == station)).map (fun p => p.2.slots)).sum +
    ((s.rounds.filter (fun p => p.2.part == part && p.2.station == station)).map (fun p => p.2.slots)).sum
def ovfUsed (s : State) (part : Nat) : Nat :=
  ((s.welts.filter (fun p => p.1 / 2 ^ 32 == part)).map (fun p => p.2.ovf)).sum +
    ((s.rounds.filter (fun p => p.2.part == part)).map (fun p => p.2.ovf)).sum

/-- The rows of R240: the sender's code, and the state with the operand kept. -/
def weltTake (s : State) (part tag rank size : Nat) (payload : List Byte) : Nat × State :=
  let key := weltKey part tag
  match liveWelt s key with
  | none => (8, s)
  | some w =>
    if w.arity ≤ rank ∨ size ≠ w.size then (4, s)
    else if w.kept.any (fun k => k.1 == rank) then (4, s)
    else
      let needs := keepsAll w.op || w.kept.isEmpty
      let slot := decide (slotsUsed s part w.station < (s.part part).pslots)
      let room := decide (ovfUsed s part < 1024 * (s.part part).povfsize)
      if needs && !slot && !room then (4, s)
      else
        let spill := if needs then !slot else w.kept.any (fun k => k.2.1)
        let w := { w with
          kept := w.kept ++ [(rank, spill, payload)]
          slots := w.slots + (needs && slot).toNat
          ovf := w.ovf + (needs && !slot).toNat
          started := if w.kept.isEmpty then s.clock else w.started }
        let s := { s with welts := tset key w s.welts }
        if w.kept.length = w.arity then (0, closeRound s key w 0) else (0, s)

/-- A send reaches its station and ends (R231, R240); one that a bridge cuts off, or whose tile cannot be read, ends at `sendFails`. -/
def execWeltArrival (id : Nat) (s : State) : Out :=
  match tfind s.copies id with
  | none => .next s
  | some cp =>
    match cp.welt with
    | none => .next s
    | some (tag, rank, size) =>
      if cp.src.any (segWaits s) || cp.src.any (segBad s) || bridgeDown s (dieOfCore cp.core) (stationDie s (stationOf s tag)) then .next s
      else
        let (code, s) := weltTake (drawSegs s [] cp.src) cp.part tag rank size (segsRead s cp.src)
        let s := { s with copies := tdel id s.copies }
        .next (match cp.tag with
          | some n => tagEnd s cp.core n code
          | none => s)

/-- One branch of a delivery to a core: written and counted, or dropped (R242). -/
def deliverCore (s : State) (r : Round) (c : Nat) : State :=
  let size := scratchSize (s.core c)
  let off := ptrOff r.dest
  if runsLaunch s c r.launch && decide (off + r.result.length ≤ size) && (ptrSpace r.bo != 1 || decide (ptrOff r.bo + 16 ≤ size)) then
    boContribute (locWrite s (.scratch c off) r.result) c r.part r.bo r.result.length 0 r.code
  else telCount s r.part (stationDie s r.station) 9 1

/-- The barriers of a failed delivery: one object in bank memory, or that of each core still to be reached that runs a group of the
launch and holds it (R242). -/
def failBarriers (s : State) (r : Round) (cores : List Nat) (code : Nat) : State :=
  if ptrSpace r.bo ≠ 1 then boContribute s 0 r.part r.bo 0 0 code
  else cores.foldl (fun s c =>
    if runsLaunch s c r.launch && decide (ptrOff r.bo + 16 ≤ scratchSize (s.core c)) then boContribute s c r.part r.bo 0 0 code else s) s

/-- A round goes on with the branches that remain, or its delivery has ended. -/
def roundLeft (s : State) (id : Nat) (r : Round) (cores : List Nat) : State :=
  { s with rounds := if cores.isEmpty then tdel id s.rounds else tset id { r with cores, begun := true } s.rounds }

/-- An uncorrectable error of a kept operand is counted: in the overflow region, detail 1, or in a slot of the station (R416). -/
def countKept (s : State) (r : Round) (n : Nat) : State :=
  if n = 1 then rasCount s (dieOfPa (s.part r.part).povfbase) 3 1 else rasCount s (stationDie s r.station) 1 1

/-- One branch of a delivery arrives: the first that no way still to be filled and no bridge holds back (R242, R259); or the delivery
fails, in bridges that are down for the branches that need them. -/
def execRoundDelivery (id : Nat) (why : Option AccFail) (s : State) : Out :=
  match tfind s.rounds id with
  | none => .next s
  | some r =>
    let d := stationDie s r.station
    let bank := ptrSpace r.dest == 2
    let cut := r.cores.filter (fun c => bridgeDown s d (dieOfCore c))
    let bankCut := bank && bridgeDown s d (bankDie r.dest)
    let open' (c : Nat) : Bool := !cut.contains c && !(runsLaunch s c r.launch && unfilledAt s c (ptrOff r.dest) r.result.length)
    let s' := { s with rounds := tdel id s.rounds }
    match why with
    | none =>
      if bank then
        match bankCut, boLoc s' 0 r.part r.dest with
        | true, _ => .next s
        | false, some loc =>
          let s' := locWrite s' loc r.result
          .next (endRound (if ptrSpace r.bo = 2 then boContribute s' 0 r.part r.bo r.result.length 0 r.code else s') r)
        | false, none => .next (endRound s' r)
      else
        match r.cores.find? open' with
        | some c =>
          let left := r.cores.erase c
          let s1 := deliverCore (roundLeft s id r left) r c
          .next (if left.isEmpty then endRound s1 r else s1)
        | none => .next (if r.cores.isEmpty then endRound s' r else s)
    | some (.dataError n) =>
      if ((n = 1 ∧ r.ovf ≠ 0) ∨ (n = 2 ∧ r.slots ≠ 0)) ∧ !r.begun then
        .next (endRound (asyncError (failBarriers (countKept s' r n) r r.cores 1) r.launch 1) r)
      else .next s
    | some (.linkFail _) =>
      if bankCut then .next (endRound (asyncError (failBarriers s' r [] 7) r.launch 7) r)
      else if !cut.isEmpty then
        let left := r.cores.filter (fun c => !cut.contains c)
        let s1 := asyncError (failBarriers (roundLeft s id r left) r cut 7) r.launch 7
        .next (if left.isEmpty then endRound s1 r else s1)
      else .next s
    | some .xlate => .next s

/-- Another branch of a multicast leaves next: which one finds its port free first is not stated (R259). -/
def forkTurn (s : State) (id : Nat) : State :=
  { s with rounds := tmod id (fun r => { r with cores := r.cores.drop 1 ++ r.cores.take 1 }) s.rounds }

/-- The timer of a round ends no earlier than at its time; the round expires with the clock. -/
def execOrphanExpiry (part tag : Nat) (s : State) : Out :=
  let key := weltKey part tag
  match liveWelt s key with
  | none => .next s
  | some w =>
    if !w.kept.isEmpty && decide (weltDue s w ≤ s.clock) then .next { s with welts := tset key { w with expiring := true } s.welts }
    else .next s

/-- With the end of `n` clocks the rounds expire whose timer has ended, and those 2 µs past their time (R243). -/
def weltExpire (s : State) (n : Nat) : State :=
  s.welts.foldl (fun s p =>
    let w := p.2
    if !w.kept.isEmpty && (w.expiring || decide (weltDue s w + stationClocks s w.station 2 ≤ s.clock + n)) then orphan s p.1 w else s) s

/-! ### WTALLOC (R237, R238) -/

/-- The descriptor's checks; the destinations of a legal one. -/
def weltDesc (s : State) (part co x : Nat) : Option Welt :=
  let t0 := dw x 0
  let t1 := dw x 1
  let size := 64 * (bitsAt t0 8 4 + 1)
  let mc := flag t0 12
  let dest := BitVec.ofNat 64 (fld x 8 8)
  let es := (List.range 4).map (fun i => fld x (16 + 2 * i) 2)
  let bo := BitVec.ofNat 64 (fld x 24 8)
  let destOk : Bool := match ptrSpace dest with
    | 1 => decide (ptrOff dest + size ≤ 1536 * 1024) &&
        (if mc then es.any (flag · 15) else flag (es.getD 0 0) 15 && !(es.drop 1).any (flag · 15))
    | 2 => !mc && es.all (· == 0) && (match spaceSize s part (dieOfCore co) dest with
        | some z => decide (bankOff dest + size ≤ z)
        | none => false)
    | _ => false
  let boOk := bo == 0 || (if ptrSpace bo = 1 then bo.toNat % 16 == 0 && decide (ptrOff bo + 16 ≤ 1536 * 1024) else boPtrOk s co part bo)
  if decide (2 ≤ bitsAt t0 0 4) && decide (bitsAt t0 0 4 ≤ 8) && decide (bitsAt t0 4 4 ≤ 9) && t0 / 2 ^ 13 == 0 &&
      decide (1 ≤ t1) && decide (t1 < 2 ^ 24) && dest.toNat % 64 == 0 && destOk && es.all (destEntryOk s) && boOk then
    some { launch := 0, arity := bitsAt t0 0 4, op := bitsAt t0 4 4, size, mc, timeout := t1, dest
           cores := es.filterMap destEntry, bo, station := 0 }
  else none

/-- The pool's lowest free tag. -/
def freeTag (s : State) (part base count : Nat) : Option Nat :=
  ((List.range count).map (base + ·)).find? (fun t => (tfind s.welts (weltKey part t)).isNone)

def execWtalloc (c : Ctl) (tryy : Bool) (d : Reg) (obj : ObjSel) (b : Reg) (s : State) : Out :=
  forOut c (unitsFor d []) (fun s0 t s =>
    let th := s0.thread t
    let g := s0.group th.group
    let co := coreOfThread t
    let part := s0.partOf t
    let lead := leadOf s0 c == some t
    match capture s co part (objIdx g obj) with
    | none => .uncaptured s co part (objIdx g obj)
    | some (e, s) =>
      if !entryValid s part (dieOfCore co) e then .trapC 0x20
      else if oType e ≠ 6 then .trapC 0x21
      else if !oA e then .trapC 0x22
      else
        match weltDesc s part co (regNat th g 8 b) with
        | none => .trapC 0x2D
        | some w =>
          if Reg.isK d && !lead then .retire s
          else
            match freeTag s part (bitsAt e 32 32) (bitsAt e 64 16) with
            | some n =>
              let w := { w with launch := g.launch, station := stationOf s n }
              retireLate { s with welts := tset (weltKey part n) w s.welts } t c lead (.reg d [BitVec.ofNat 32 n])
            | none => if tryy then retireLate s t c lead (.reg d [0]) else .hold (waitRoom s t)) s

/-! ### WSEND, WTFREE, WTQUERY, WTRENEW (R239, R244) -/

def execWsend (c : Ctl) (a : Reg) (b : Src) (rank : Fin 8) (size : Fin 16) (ctag : Fin 64) (s : State) : Out :=
  forOut c (addrUnits b) (fun s0 t s =>
    let th := s0.thread t
    let g := s0.group th.group
    let co := coreOfThread t
    let off := srcNat th g 1 b
    let n := 64 * (size.val + 1)
    if off % 64 ≠ 0 then .trapA 0x25 (BitVec.ofNat 64 (2 ^ 60 + off))
    else if pendingScratch (s.core co) < off + n then .trapC 0x2A
    else acceptCopy s t { newCopy s0 c t (.tag ctag) 0 [⟨.scratch co off, n⟩] [] n with noL2 := false, welt := some ((regW th g a).toNat, rank.val, n) }) s

def weltOf (s0 s : State) (t : Nat) (a : Reg) : Nat × Option Welt :=
  let th := s0.thread t
  let key := weltKey (s0.partOf t) (regW th (s0.group th.group) a).toNat
  (key, liveWelt s key)

def execWtfree (c : Ctl) (a : Reg) (s : State) : Out :=
  forOut c [] (fun s0 t s =>
    match weltOf s0 s t a with
    | (key, some w) => .retire (wakeRoom (if w.kept.isEmpty then { s with welts := tdel key s.welts } else orphan s key w) (s0.thread t).group)
    | (_, none) => .retire s) s

/-- Microseconds, rounded up, until the earliest expiry that R243 allows. -/
def weltLeft (s : State) (w : Welt) : Nat :=
  if w.kept.isEmpty then 0 else max 1 ((weltDue s w - s.clock + stationClocks s w.station 1 - 1) / stationClocks s w.station 1)

def weltStatus (s : State) (w : Welt) : Nat :=
  let ranks := w.kept.foldl (fun m k => m ||| 2 ^ k.1) 0
  ranks + 2 ^ 8 + (w.kept.any (fun k => k.2.1)).toNat * 2 ^ 9 + (!w.kept.isEmpty).toNat * 2 ^ 10 + weltLeft s w * 2 ^ 32

def execWtquery (c : Ctl) (d a : Reg) (s : State) : Out :=
  forOut c (unitsFor d []) (fun s0 t s =>
    let x := match weltOf s0 s t a with
      | (_, some w) => weltStatus s w
      | (_, none) => 0
    retireLate s t c (leadOf s0 c == some t) (.nat d 2 x)) s

def execWtrenew (c : Ctl) (a : Reg) (b : Src) (s : State) : Out :=
  forOut c [] (fun s0 t s =>
    let th := s0.thread t
    let x := srcNat th (s0.group th.group) 1 b
    if 16777215 < x then .trapC 0x2D
    else
      match weltOf s0 s t a with
      | (key, some w) =>
        let w := { w with timeout := if x = 0 then w.timeout else x, started := if w.kept.isEmpty then w.started else s.clock, expiring := false }
        .retire { s with welts := tset key w s.welts }
      | (_, none) => .retire s) s

end Sys2Proof.Machine
end

