-- ==== Sys2Proof/Machine/Graphs.lean ====
section
/-! DEFINITION. Completion records, queue stops, graph instances, the start of launches and groups (R17, R25, R304, R321,
R325, R326, R330 to R332, R352). -/

namespace Sys2Proof.Machine

/-! ### Queue stops (R321, R322, R352) -/

/-- Pointer of the ring slot of sequence number `e`. -/
def slotPtr (q : Queue) (e : Nat) : DWord := q.ring + BitVec.ofNat 64 (64 * (e % ringPackets q))

/-- The queue stops: its packet stays at EXPSEQ, and one record goes to the partition's ring. -/
def queueStop (s : State) (k code : Nat) (addr : DWord) : State :=
  let q := s.queue k
  let (serial, s) := freshId s
  let f : FRec :=
    { serial, code := 0x90, detail := k % 1024 + 2 ^ 10 * code, flags := 32, die := queueDie k, pc := q.expseq, addr := addr.toNat
      time := (s.die (queueDie k)).dlclk }
  emitRecord (s.setQueue k { q with st := .stopped, stopcode := code, cur := none, waiting := false, xfering := false, dropping := none })
    q.part f

/-- The address of R352 for the packet in hand. -/
def curAddr (q : Queue) : DWord := match q.cur with | some (_, true) => slotPtr q q.expseq | _ => 0

/-! ### Completion records (R304, R325) -/

structure CompRec where
  status : Nat
  flags : Nat := 0
  seq : Nat
  id : Nat := 0
  corr : Nat := 0
  reissue : Nat := 0
  fault : Option (Nat × Nat) := none
  commit : DWord := 0
  start : Nat := 0
  swaps : Nat := 0

def satur32 (n : Nat) : Nat := min n (2 ^ 32 - 1)

def compBytes (c : CompRec) (now : Nat) : List Byte :=
  let f := c.fault.getD (0, 0)
  leBytes 1 c.status ++ leBytes 1 c.flags ++ leBytes 2 c.seq ++ leBytes 4 c.id ++ leBytes 8 now ++ leBytes 4 (satur32 c.corr) ++
    leBytes 4 (satur32 c.reissue) ++ leBytes 2 f.1 ++ leBytes 2 f.2 ++ leBytes 4 0 ++ leBytes 8 c.commit.toNat ++ leBytes 8 c.start ++
    leBytes 4 c.swaps ++ leBytes 8 0 ++ leBytes 4 (0xC0B1 * 2 ^ 16 + c.seq % 2 ^ 16)

/-- Write a completion record of a queue; one that cannot be written stops the queue (R324; DEDUCED for records after
acceptance, log entry 17). -/
def completionWrite (s : State) (k part : Nat) (p : DWord) (c : CompRec) : State :=
  match qWrite s part (queueDie k) p (compBytes c (s.die (queueDie k)).dlclk) with
  | some s => s
  | none => queueStop s k 5 0

/-- STATUS of R304. -/
def statusOf (l : Launch) : Nat :=
  if l.cancelled then 5
  else if l.heldFault then 4
  else if l.terminated then 3
  else match l.commit with
    | some (_, part) => if part then 2 else 1
    | none => if l.diverted then 2 else 1

def launchFlags (l : Launch) : Nat := l.approx.toNat + 2 * l.nanscale.toNat + 4 * l.orphan.toNat

def launchRec (l : Launch) : CompRec :=
  { status := statusOf l, flags := launchFlags l, seq := if l.inst.isSome then l.r.node else l.r.seq, id := l.id, corr := l.corr
    reissue := l.reissue, fault := l.fault, commit := (l.commit.getD (0, false)).1, start := l.startTime, swaps := l.swaps }

/-! ### Launches (R329) -/

/-- The least id not held by a live launch of the die, never 0 (DESIGN CHOICE, log entry 18). -/
def freshLaunchId (s : State) (die : Nat) : Nat :=
  let used := (s.launches.filter (fun p => p.2.die == die)).map (fun p => p.2.id)
  ((List.range (used.length + 1)).map (· + 1)).find? (fun i => !used.contains i) |>.getD 1

/-- A launch becomes ready. -/
def newLaunch (s : State) (die part queue : Nat) (r : LRec) (inst : Option Nat) : Nat × State :=
  let (n, s) := freshId s
  let e := tableEntry s part r.codeobj
  let l : Launch :=
    { die, part, id := freshLaunchId s die, r, queue, order := n, st := .ready (s.die die).dlclk, base := oBase e, extent := oExtent e
      priv := oPriv e, inst, detOn := r.det, lap := (s.queue queue).lap }
  (n, { s with launches := tset n l s.launches })

/-! ### Graph instances (R287, R330 to R332) -/

def modInst (s : State) (gi : Nat) (f : GInst → GInst) : State := { s with insts := tmod gi f s.insts }
def modNode (s : State) (gi n : Nat) (f : GNode → GNode) : State :=
  modInst s gi (fun g => { g with nodes := g.nodes.zipIdx.map (fun p => if p.2 == n then f p.1 else p.1) })

/-- Nodes with an edge to node n. -/
def preds (g : GInst) (n : Nat) : List Nat :=
  (g.nodes.zipIdx.filter (fun p => p.1.succ.contains n)).map (·.2)

/-- Node i closes its edge to node j. -/
def closeEdge (s : State) (gi i j : Nat) : State :=
  modNode s gi j (fun n => if n.closedBy.contains i then n else { n with closedBy := n.closedBy ++ [i] })

def closeEdges (s : State) (gi i : Nat) : State :=
  match tfind s.insts gi with
  | none => s
  | some g => (match g.nodes[i]? with | some n => n.succ | none => []).foldl (fun s j => closeEdge s gi i j) s

/-- Every predecessor has closed its edge. -/
def inputClosed (g : GInst) (n : Nat) : Bool :=
  match g.nodes[n]? with
  | some x => (preds g n).all (fun i => x.closedBy.contains i)
  | none => true

/-- NODE_READY of R331 for one node: it launches, is skipped, or waits. -/
def nodeScan (s : State) (gi n : Nat) : State :=
  match tfind s.insts gi with
  | none => s
  | some g =>
    match g.nodes[n]? with
    | none => s
    | some x =>
      if x.launched.isSome || x.done then s
      else
        let closed := inputClosed g n
        let ready := (preds g n).isEmpty || (if closed then !x.recs.isEmpty else !x.r.det && decide (x.coalesce ≤ x.recs.length))
        if ready then
          let (k, s) := newLaunch s g.die g.part g.queue x.r (some gi)
          modNode s gi n (fun x => { x with launched := some k })
        else if closed then
          let s := completionWrite s g.queue g.part (g.completion + BitVec.ofNat 64 (64 * (n + 1))) { status := 1, seq := n }
          closeEdges (modNode s gi n (fun x => { x with done := true, status := 1 })) gi n
        else s

/-- Once every node has completed or been skipped, the instance's record is written and the instance ends. -/
def instEnd (s : State) (gi : Nat) : State :=
  match tfind s.insts gi with
  | none => s
  | some g =>
    if g.nodes.all (·.done) then
      let sum (f : GNode → Nat) : Nat := (g.nodes.map f).sum
      let c : CompRec :=
        { status := (g.nodes.map (·.status)).foldl max 1, flags := g.nodes.foldl (fun a n => a ||| n.flags) 0, seq := g.seq
          corr := sum (·.corr), reissue := sum (·.reissue), fault := g.fault
          commit := match g.nodes.getLast? with | some n => n.commit | none => 0
          start := g.start, swaps := sum (·.swaps) }
      { completionWrite s g.queue g.part g.completion c with insts := tdel gi s.insts }
    else s

/-- Nodes in ascending order: a skipped node's closed edges are seen by the nodes after it. -/
def graphSettle (s : State) (gi : Nat) : State :=
  match tfind s.insts gi with
  | none => s
  | some g => instEnd ((List.range g.nodes.length).foldl (fun s n => nodeScan s gi n) s) gi

/-- A node's launch has completed with these results. -/
def nodeEnd (s : State) (gi : Nat) (l : Launch) : State :=
  let s := modNode s gi l.r.node (fun n =>
    { n with done := true, status := statusOf l, flags := launchFlags l, corr := l.corr, reissue := l.reissue, swaps := l.swaps
             commit := (l.commit.getD (0, false)).1, recs := [] })
  let s := modInst s gi (fun g => if g.fault.isNone then { g with fault := l.fault } else g)
  graphSettle (closeEdges s gi l.r.node) gi

/-! ### Groups on a core (R17, R25) -/

/-- Groups that occupy turns of a core. -/
def residents (s : State) (c : Nat) : List (Nat × Group) :=
  s.groups.filter (fun p => p.2.core == c && p.2.swap != .out && !(s.liveOf p.1).isEmpty)

def turnFree (gs : List (Nat × Group)) (turn : Nat) : Bool :=
  gs.all (fun p => decide (turn < p.2.turn) || decide (p.2.turn + p.2.size / 64 ≤ turn))

/-- The lowest consecutive free turns with room for the registers, if any. -/
def findTurns (s : State) (c size regs : Nat) : Option Nat :=
  let gs := residents s c
  let used := (gs.map (fun p => p.2.size / 64 * p.2.regs)).sum
  if 2048 < used + size / 64 * regs then none
  else (List.range (9 - size / 64)).find? (fun t => (List.range (size / 64)).all (fun i => turnFree gs (t + i)))

/-- A group of a launch as it starts under R17. -/
def startGroup (lk : Nat) (l : Launch) (core turn grp size regs : Nat) (swap : SwapState) : Group :=
  { launch := lk, core, grp, turn, size, regs, k := (l.r.k.zipIdx.map (fun p => (p.2, p.1))), mtol := mtolDefault, pads := l.r.shape, swap }

/-- Its threads; `vs` are values of v0 on (R289). -/
def startThreads (gk core turn size : Nat) (pc : DWord) (vs : List Word) (ts : Tbl Thread) : Tbl Thread :=
  (List.range size).foldl (fun ts i =>
    tset (slotsPerCore * core + 64 * turn + i) { group := gk, tid := i, v := vs.zipIdx.map (fun p => (p.2, p.1)), pc } ts) ts

/-- A group starts on its core at once (R289). -/
def addGroup (s : State) (lk : Nat) (l : Launch) (core turn grp size regs : Nat) (pc : DWord) (vs : List Word) : State :=
  let (gk, s) := freshId s
  { s with groups := tset gk (startGroup lk l core turn grp size regs .resident) s.groups
           threads := startThreads gk core turn size pc vs s.threads }

/-- A group is staged for its first placement: its core's context is as R17 says (R366). -/
def stageGroup (s : State) (lk : Nat) (l : Launch) (core grp : Nat) : State :=
  let (gk, s) := freshId s
  let ctx : CoreCtx :=
    { fresh := true, scrways := BitVec.ofNat 16 (2 ^ l.r.scrways - 1)
      threads := startThreads gk core 0 l.r.groupsz (l.base + BitVec.ofNat 64 l.r.entry) [] [] }
  ({ s with groups := tset gk (startGroup lk l core 0 grp l.r.groupsz l.r.regs .staged) s.groups }).modLaunch lk (fun l =>
    { l with ctx := tset core ctx l.ctx })

end Sys2Proof.Machine
end

