-- ==== Sys2Proof/Machine/Work.lean ====
section
/-! DEFINITION. Class 0xD but for DLREAD and PADMASK, and the events of deadlines (R278 to R304). -/

namespace Sys2Proof.Machine

/-! ### The Awl (R280 to R283) -/

/-- What a request of the Awl gives. -/
inductive AwlAns where
  /-- Eight words, whether they are valid, whether a record was dispensed. -/
  | got (ws : List Word) (ok record : Bool)
  | wait
  /-- The group uses the other form (R280). -/
  | badMode

/-- Words of a chunk. -/
def chunkWords (r : LRec) (c : Nat) : List Word := (awlOrigin r c ++ [c, 0, 0, 0]).map (BitVec.ofNat 32)

def noWords : List Word := List.replicate 8 0

/-- The index c that R280 gives a request of a DET launch. -/
def detIndex (r : LRec) (g : Group) (th : Thread) (uniform : Bool) : Nat :=
  if uniform then g.grp + r.ncores * g.awlN else g.grp + r.ncores * (th.tid + g.size * th.awlN)

/-- The input queue of a record-mode launch. -/
def inputNode (s : State) (l : Launch) : Option (GInst × GNode) :=
  match l.inst with
  | none => none
  | some gi =>
    match tfind s.insts gi with
    | none => none
    | some g => (g.nodes[l.r.node]?).map (fun n => (g, n))

/-- The answer to a request of thread `t`, for its group when `uniform`. -/
def awlAsk (s : State) (t : Nat) (l : Launch) (uniform : Bool) : AwlAns :=
  let th := s.thread t
  let g := s.group th.group
  let c := if l.r.det then detIndex l.r g th uniform else l.dispensed
  if l.r.det && (match g.awlForm with | some u => u != uniform | none => false) then .badMode
  else if !l.r.awlRec then (if c < awlTotal l.r then .got (chunkWords l.r c) true false else .got noWords false false)
  else
    match inputNode s l with
    | none => .got noWords false false
    | some (gi, n) =>
      if l.r.det then
        match n.recs[c]? with
        | some w => .got w true true
        | none => .got noWords false false
      else
        match n.recs with
        | w :: _ => .got w true true
        | [] => if inputClosed gi l.r.node then .got noWords false false else .wait

/-- The request is counted: a chunk or record is dispensed, and a DET group's or thread's request number advances. -/
def awlTake (s : State) (t : Nat) (l : Launch) (uniform ok : Bool) : State :=
  let th := s.thread t
  let lk := (s.group th.group).launch
  let s := if !ok then s
    else
      let s := s.modLaunch lk (fun l => { l with dispensed := l.dispensed + 1 })
      match l.r.awlRec, l.inst with
      | true, some gi => modNode s gi l.r.node (fun n =>
          { n with dispensed := n.dispensed + 1, recs := if l.r.det then n.recs else n.recs.drop 1 })
      | _, _ => s
  if l.r.det then
    let s := s.modGroup th.group (fun g => { g with awlForm := some uniform, awlN := if uniform then g.awlN + 1 else g.awlN })
    if uniform then s else s.modThread t (fun x => { x with awlN := x.awlN + 1 })
  else s

/-- With a k block the PC group makes one request, for its lead. The Awl runs on the die that accepted the launch: a bridge that is down
before it fails the request at once (R383; DEDUCED, log entry 15). -/
def execAwlnext (c : Ctl) (d : Reg) (qe : PDst) (s : State) : Out :=
  forOut c (unitsFor d [2]) (fun s0 t s =>
    let uniform := match d with | .k _ => true | .v _ => false
    let asker := if uniform then (leadOf s0 c).getD t else t
    let from' := if uniform then s0 else s
    match from'.launchOf t with
    | none => .retire s
    | some l =>
      if bridgeDown s (dieOfCore (coreOfThread t)) l.die then .trapD 0x53 (16 + l.die)
      else
      match awlAsk from' asker l uniform with
      | .badMode => .trapC 0x16
      | .wait => .hold (s.modThread t (fun x => { x with run := .waiting (.awl (keepDest (asker == t) d) qe) }))
      | .got ws ok record =>
        let s := if asker = t then awlTake s t l uniform ok else s
        let s := if record then acquireAt s (coreOfThread t) .pkg .acq else s
        retireLate s t c (asker == t) { Res.reg d ws with preds := [(qe.val, ok)] }) s

def awlState (s : State) (t : Nat) : List Word :=
  match s.launchOf t with
  | none => [0, 0, 0, 0]
  | some l =>
    if !l.r.awlRec then
      let total := awlTotal l.r
      [BitVec.ofNat 32 (total - l.dispensed), BitVec.ofNat 32 l.dispensed, if total ≤ l.dispensed then 2 else 0, 0]
    else
      match inputNode s l with
      | none => [0, 0, 2, 0]
      | some (g, n) =>
        let left := if l.r.det then n.recs.length - n.dispensed else n.recs.length
        let closed := inputClosed g l.r.node
        [BitVec.ofNat 32 left, BitVec.ofNat 32 n.dispensed,
         (if closed then 1 else 0) ||| (if closed && left == 0 then 2 else 0), 0]

def execAwlpeek (c : Ctl) (d : Reg) (s : State) : Out :=
  forOut c (unitsFor d []) (fun s0 t s =>
    match s0.launchOf t with
    | some l =>
      if bridgeDown s (dieOfCore (coreOfThread t)) l.die then .trapD 0x53 (16 + l.die)
      else retireLate s t c (leadOf s0 c == some t) (.reg d (awlState s0 t))
    | none => retireLate s t c (leadOf s0 c == some t) (.reg d (awlState s0 t))) s

/-! ### EMIT and EMITCLOSE (R285 to R287) -/

/-- The checks of R285 up to the edge: the instance, the emitting node and the named node. -/
def emitEdge (s0 s : State) (t : Nat) (l : Launch) (obj : ObjSel) : Except Lane (Nat × GInst × Nat × State) :=
  let co := coreOfThread t
  let part := s.partOf t
  match capture s co part (objIdx (s0.group (s0.thread t).group) obj) with
  | none => .error (.uncaptured s co part (objIdx (s0.group (s0.thread t).group) obj))
  | some (e, s) =>
    if !entryValid s part (dieOfCore co) e then .error (.trapC 0x20)
    else if oType e ≠ 7 then .error (.trapC 0x21)
    else if !oW e then .error (.trapC 0x22)
    else
      let n := bitsAt e 32 16
      match l.inst with
      | none => .error (.trapC 0x30)
      | some gi =>
        match tfind s.insts gi with
        | none => .error (.trapC 0x30)
        | some g =>
          if (match g.nodes[l.r.node]? with | some x => x.succ.contains n | none => false) then .ok (gi, g, n, s)
          else .error (.trapC 0x30)

/-- Records in a node's queue and on their way to it. -/
def queued (s : State) (gi n : Nat) : Nat :=
  (match tfind s.insts gi with
   | some g => match g.nodes[n]? with | some x => x.recs.length | none => 0
   | none => 0) + (s.emits.filter (fun p => p.2.inst == gi && p.2.node == n)).length

/-- The PC group's threads emit in ascending %tid, once the earlier accesses of all of them are done. -/
def execEmit (c : Ctl) (qd : Option PDst) (obj : ObjSel) (b : Reg) (s : State) : Out :=
  let sent (s : State) (t : Nat) (ok : Bool) : Lane := match qd with
    | some q => retireLate s t c true { preds := [(q.val, ok)] }
    | none => .retire s
  forOut c [] (gated c (fun s0 u => releaseReady s0 u .pkg) waitFinish (fun s0 t s =>
    let th := s0.thread t
    match s.launchOf t with
    | none => .trapC 0x30
    | some l =>
      match emitEdge s0 s t l obj with
      | .error x => x
      | .ok (gi, g, n, s) =>
        if l.closed.contains n then .trapC 0x31
        else
          let cap := match g.nodes[n]? with | some x => x.qcap | none => 0
          if cap ≤ queued s gi n then (if qd.isSome then sent s t false else .hold (waitRoom s t))
          else
            let s := releaseAt s (coreOfThread t) l.part .pkg .rel
            let (id, s) := freshId s
            let r : EmitReq := { thread := t, launch := (s0.group th.group).launch, inst := gi, node := n
                                 data := regWords th (s0.group th.group) 8 b }
            sent { s with emits := tset id r s.emits } t true)) s

/-- The records the launch emitted to the node enter its queue before the edge closes. -/
def execEmitclose (c : Ctl) (obj : ObjSel) (s : State) : Out :=
  forOut c [] (fun s0 t s =>
    let lk := (s0.group (s0.thread t).group).launch
    match s.launchOf t with
    | none => .trapC 0x30
    | some l =>
      match emitEdge s0 s t l obj with
      | .error x => x
      | .ok (gi, _, n, s) =>
        if s.emits.any (fun p => p.2.launch == lk && p.2.node == n) then .hold (waitFinish s t)
        else
          let s := s.modLaunch lk (fun l => if l.closed.contains n then l else { l with closed := l.closed ++ [n] })
          .retire (graphSettle (closeEdge s gi l.r.node n) gi)) s

/-- The 32 bytes of a record in a node's part of QAREA, after the queues of the nodes before it (R330); its places are used in turn, and
one that cannot be reached is not written (DEDUCED, log entry 44). -/
def areaWrite (s : State) (gi n : Nat) (ws : List Word) : State :=
  match tfind s.insts gi with
  | none => s
  | some g =>
    match g.nodes[n]? with
    | none => s
    | some x =>
      let off := 32 * (((g.nodes.take n).map (·.qcap)).sum + x.entered % x.qcap)
      (qWrite s g.part g.die (g.qarea + BitVec.ofNat 64 off) (bytesOfWords ws)).getD s

/-- The oldest record of a thread to a queue enters it. -/
def execRecordEnqueue (id : Nat) (s : State) : Out :=
  match tfind s.emits id with
  | none => .next s
  | some r =>
    if s.emits.any (fun p => decide (p.1 < id) && p.2.thread == r.thread && p.2.inst == r.inst && p.2.node == r.node) then .next s
    else
      let s := areaWrite { s with emits := tdel id s.emits } r.inst r.node r.data
      .next (graphSettle (modNode s r.inst r.node (fun n => { n with recs := n.recs ++ [r.data], entered := n.entered + 1 })) r.inst)

/-! ### SPAWN (R288, R289) -/

def execSpawn (c : Ctl) (wait : Bool) (gs : Fin 8) (d : VReg) (a : Reg) (imm : DWord) (s : State) : Out :=
  forOut c [] (fun s0 t s =>
    let th := s0.thread t
    let g := s0.group th.group
    let pc := th.pc + imm
    let size := 64 * (gs.val + 1)
    let none' (s : State) : Lane := retireLate s t c true (.reg (.v d) [BitVec.allOnes 32])
    match s.launchOf t with
    | none => none' s
    | some l =>
      if !pcOk pc then .trapC 4
      else if l.r.det then .trapC 0x17
      else if l.diverted then none' s
      else
        let room := if l.spawned < 65536 - l.r.ncores then findTurns s g.core size g.regs else none
        match room with
        | none => if wait then .hold (waitRoom s t) else none' s
        | some turn =>
          let grp := l.r.ncores + l.spawned
          let s := addGroup s g.launch l g.core turn grp size g.regs pc (regWords th g 8 a)
          let s := s.modLaunch g.launch (fun l => { l with spawned := l.spawned + 1 })
          retireLate s t c true (.reg (.v d) [BitVec.ofNat 32 grp])) s

/-! ### LASTSEL (R290, R291) -/

/-- What ends the scan of a Last table: an answer for the thread, or a read that fails, with its place, address and fault. -/
inductive ScanStop where
  | lane (l : Lane)
  | read (loc : Loc) (p : DWord) (f : Nat × Nat × Bool)

/-- Bytes at a pointer, read line by line as synchronous loads of a thread; they wait at an unfilled scratch way and at a stack that
trains. -/
def loadRange (s : State) (t : Nat) : Nat → DWord → Nat → Except ScanStop (List Byte × State)
  | 0, _, _ => .ok ([], s)
  | fuel + 1, p, n =>
    if n = 0 then .ok ([], s)
    else
      let co := coreOfThread t
      let part := s.partOf t
      let step := if ptrSpace p = 0 then min n (128 - ptrOff p % 128) else n
      if ptrUnfilled s co p n || ptrWalkHeld s co part p then .error (.lane (.hold (waitAgain s t)))
      else
        let s := ptrWalk s co part p
        match resolve s co part (s.privOf t) p needR with
        | .error f => .error (.lane (.fail f p))
        | .ok loc =>
          if hbmHeld s loc && !l1Serves s co loc step then .error (.lane (.hold (waitAgain s t)))
          else
            match readFault s co t loc step with
            | some f => .error (.read loc p f)
            | none =>
              let (bs, s) := readNow s co t part (heldAt (s.group (s.thread t).group) p) 0 loc step
              match loadRange s t fuel (p + BitVec.ofNat 64 step) (n - step) with
              | .error l => .error l
              | .ok (cs, s) => .ok (bs ++ cs, s)

/-- A last accepts the shape. -/
def lastMatches (x : Nat) (shape : List Word) : Bool :=
  (List.range 8).all (fun i => !flag (fld x 0x68 1) i ||
    (decide (fld x (4 * i) 4 ≤ (shape.getD i 0).toNat) && decide ((shape.getD i 0).toNat ≤ fld x (0x20 + 4 * i) 4)))

/-- Scan from entry `n`: the matching entry and its bytes. -/
def lastScan (s : State) (t : Nat) (base : DWord) (shape : List Word) : Nat → Nat → Except ScanStop (Option (Nat × Nat) × State)
  | 0, _ => .ok (none, s)
  | left + 1, n =>
    match loadRange s t 3 (base + BitVec.ofNat 64 (128 * n)) 128 with
    | .error l => .error l
    | .ok (bs, s) =>
      let x := leNat bs
      if fld x 0x69 23 ≠ 0 then .error (.lane (.trapC 0x32))
      else if lastMatches x shape then .ok (some (n, x), s)
      else lastScan s t base shape left (n + 1)

/-- No older access of the thread stands before its reading a range (R160). -/
def rangeOrdered (s : State) (c part t : Nat) (priv : Bool) (base : DWord) (n : Nat) : Bool :=
  (List.range ((n + 127) / 128)).all (fun i => accOrdered s c part t s.nextId
    { kind := .load .b128, ptr := base + BitVec.ofNat 64 (128 * i), data := [], priv })

/-- The selection as for the lead; its faults are those of every thread with a true guard. -/
def execLastsel (c : Ctl) (d : Reg) (qb : PDst) (obj : Option ObjSel) (s : State) : Out :=
  forOut c [8] (fun s0 t s =>
    let lead := (leadOf s0 c).getD t
    let th := s0.thread lead
    let g := s0.group th.group
    let co := coreOfThread t
    let part := s0.partOf t
    match s0.launchOf t with
    | none => .retire s
    | some l =>
      let idx := match obj with | some o => objIdx g o | none => l.r.lastobj
      match capture s co part idx with
      | none => .uncaptured s co part idx
      | some (e, s1) =>
        match checkEntry s1 co part e [1, 2] { r := true } .plain 0 false (oExtent e) 1 with
        | .trap code addr => .trapA code addr
        | .out => .retire s1
        | .inb base =>
          if oExtent e % 128 ≠ 0 ∨ oExtent e = 0 ∨ 32768 < oExtent e then .trapC 0x32
          else if !(s0.iss.members.filter (fun u => guardOf (s0.thread u) c)).all (fun u =>
              rangeOrdered s0 co part u (s0.privOf u) base (oExtent e)) then .hold (waitAccesses s t)
          else
            match lastScan (if t = lead then s1 else s0) lead base l.r.shape (oExtent e / 128) 0 with
            | .error (.lane (.hold _)) => .hold (waitAgain s t)
            | .error (.lane x) => x
            | .error (.read loc p f) => readTrap s t co loc p f (t == lead)
            | .ok (hit, s2) =>
              let v : DWord := match hit with | some (_, x) => l.base + BitVec.ofNat 64 (fld x 0x60 8) | none => 0
              let pads := (List.range 8).map (fun i => match hit with
                | some (_, x) => if flag (fld x 0x68 1) i then BitVec.ofNat 32 (fld x (0x40 + 4 * i) 4) else l.r.shape.getD i 0
                | none => l.r.shape.getD i 0)
              let s3 := if t = lead then
                  s2.modGroup th.group (fun g => { g with pads, selected := match hit with | some (n, _) => n | none => g.selected })
                else s
              retireLate s3 t c (lead == t) { Res.reg d (dwords v) with preds := [(qb.val, hit.isSome)] }) s

/-! ### COMMIT (R301) -/

def execCommit (c : Ctl) (part : Bool) (a : Src) (s : State) : Out :=
  forOut c [] (gated c accessesDone waitFinish (fun s0 t s =>
    let th := s0.thread t
    let g := s0.group th.group
    let s := releaseAt s (coreOfThread t) (s0.partOf t) .sys .rel
    .retire (s.modLaunch g.launch (fun l => { l with commit := some (srcD th g a, part) })))) s

/-! ### Idempotent regions (R293 to R295) -/

def idemOk (s : State) (t : Nat) : Bool := match s.launchOf t with | some l => l.r.idemok | none => false

def execIdembeg (c : Ctl) (f : BitVec 10) (n : Fin 64) (s : State) : Out :=
  let s' := runLanes c [] (outward (fun s0 t s =>
    if (s0.group (s0.thread t).group).regs < f.toNat + n.val + 1 then .trapC 3
    else if !idemOk s0 t then .retire s
    else .done (s.modThread t (fun x => { x with run := .waiting (.idem f.toNat (n.val + 1)) })))) s
  .next (match s.iss.members with
    | [] => s'
    | t :: _ => idemSettle s' (s.thread t).group)

def execIdemend (c : Ctl) (s : State) : Out :=
  forOut c [] (fun s0 t s => .retire (if idemOk s0 t then disarm s (s0.thread t).group else s)) s

/-- The snapshot write completes (R294). -/
def execRegionArmed (group : Nat) (s : State) : Out :=
  .next (s.modGroup group (fun g => { g with idem := g.idem.map (fun r => { r with armed := true }) }))

/-! ### Ends of threads from outside (R299 to R303) -/

/-- Requests of a thread that have not been accepted are withdrawn; `keepTry`: but for a TRYACQ, which has retired. -/
def withdraw (s : State) (t : Nat) (keepTry : Bool := false) : State :=
  let s := syncWithdraw s [t] keepTry
  match (s.thread t).run with
  | .waiting .engine => s.modCluster (clusterOf (coreOfThread t)) (fun k => { k with posted := k.posted.filter (fun r => r.thread != t) })
  | _ => s

/-- Threads of a launch on a die, or on every die. -/
def launchThreads (s : State) (lk : Nat) (die : Option Nat) : List (Nat × Thread) :=
  s.threads.filter (fun p => (s.group p.2.group).launch == lk && p.2.run != .exited &&
    (match die with | some d => dieOfCore (coreOfThread p.1) == d | none => true))

/-- A thread exits where it stands: its wait is abandoned and nothing more of it is written, but its accesses perform (R302). -/
def exitThread (s : State) (t : Nat) : State :=
  let s := withdraw s t
  let s := s.modThread t (fun x => { x with run := .exited, j := [] })
  let s := s.modCore (coreOfThread t) (fun x => { x with
    sfu := x.sfu.filter (fun e => e.thread != t), late := x.late.filter (fun e => e.thread != t)
    olog := (logDrop x (fun e => e.e.thread == t)).olog
    cross := x.cross.filter (fun y => y.group != (s.thread t).group) })
  disarm (genNext s t) (s.thread t).group

/-- A thread is stopped: it exits, and its loads are discarded (R303). -/
def stopThread (s : State) (t : Nat) : State :=
  (exitThread s t).modCore (coreOfThread t) (fun x => { x with
    loads := x.loads.filter (fun e => e.thread != t || e.group != (s.thread t).group) })

/-- Every thread of the PC group with a true guard exits as by EXIT; once one has, every other thread of the launch exits
(R302). -/
def execWrapdone (c : Ctl) (s : State) : Out :=
  let s' := runLanes c [] (fun _ t s =>
    if resultsWritten s t then .done (afterExit (endThread (retire s t) t) t)
    else .hold (waitFinish s t)) s
  let ended := s.iss.members.find? (fun t => guardOf (s.thread t) c && (s'.thread t).run == .exited)
  .next (match ended with
    | none => s'
    | some t =>
      let lk := (s.group (s.thread t).group).launch
      let s' := s'.modLaunch lk (fun l => { l with noDivert := l.noDivert || !l.diverted })
      let ts := (launchThreads s' lk none).map (·.1)
      ts.foldl exitThread (syncWithdraw s' ts))

/-! ### Engine requests of a launch (R205, R209) -/

/-- Accepted requests of a launch on a die's engines for which `f` holds end with a code. -/
def failRequests (s : State) (lk : Nat) (die : Option Nat) (code : Nat) (f : EReq → Bool) : State :=
  s.clusters.foldl (fun s p =>
    if (match die with | some d => dieOfCluster p.1 == d | none => true) then
      (p.2.table.filter (fun e => e.launch == lk && f e)).foldl (fun s e => failEntry s p.1 e code) s
    else s) s

/-- A contribution at an object in a saved scratch, or at one in bank memory. -/
def savedBo (s : State) (lk core part : Nat) (bo : DWord) (code : Nat) : State :=
  if ptrSpace bo = 1 then
    s.modLaunch lk (fun l => { l with ctx := tmod core (fun x =>
      { x with scratch := msets x.scratch (ptrOff bo) (leBytes 16 (boUpdateVal (leGet x.scratch (ptrOff bo) 16) 0 0 code).1) }) l.ctx })
  else boContribute s core part bo 0 0 code

/-- A request saved ungranted ends (R210): its status entry goes to the saved ring, then its barrier object is updated. -/
def savedFail (s : State) (lk cluster code : Nat) (e : EReq) : State :=
  let ring (l : Launch) : Launch := match e.kind with
    | .mma r => { l with eng := tmod cluster (fun k =>
        { k with rings := tset e.core ((passStat e.group r {} code none false :: tget [] k.rings e.core).take 16) k.rings }) l.eng }
    | _ => l
  savedBo (s.modLaunch lk ring) lk e.core (partOfLaunch s lk) e.bo code

def failHalf (h : WHalf) (code : Nat) : WHalf :=
  if h.desc.st = .loading then { h with desc := { h.desc with st := .error, err := code }, held := { h.desc with st := .error, err := code } }
  else h

def failSaved (s : State) (lk : Nat) (l : Launch) (die code : Nat) : State :=
  (l.eng.filter (fun p => dieOfCluster p.1 == die)).foldl (fun s p =>
    let s := p.2.table.foldl (fun s e => savedFail s lk p.1 code e) s
    s.modLaunch lk (fun l => { l with eng := tmod p.1 (fun k =>
      { k with table := [], w0 := failHalf k.w0 code, w1 := failHalf k.w1 code }) l.eng })) s

/-! ### Diversion (R38, R298 to R300, R340) -/

/-- What a wait cut short writes (R300). -/
def cutWait (s : State) (t : Nat) : State :=
  match (s.thread t).run with
  | .waiting (.bowait _ d _) => writeOpt s t d [boWord 0 true false false]
  | .waiting (.tags _ _ qe _) => writePred s t qe true
  | .waiting (.acq qe) => writePred s t qe true
  | .waiting (.awl _ qe) => writePred s t (some qe) false
  | _ => s

/-- A thread that completes its instruction before it can be diverted: a FENCE or EXIT, SFU-class results on their way. -/
def lateDivert (s : State) (t : Nat) : Bool :=
  (match (s.thread t).run with
   | .waiting .finish => true
   | _ => false) || !(sfuOf s t).isEmpty

def divertedThread (th : Thread) (pc : DWord) : Thread :=
  { th with dvpc := th.pc, pc, j := [], run := .running, diverted := true, stalled := false, held := none, detHeld := false }

/-- A parked thread's handle stays valid only while it has logged entries (R346, R369). -/
def divertThread (s : State) (l : Launch) (t : Nat) : State :=
  let parked := isParked (s.thread t)
  let s := withdraw s t true
  let s := s.modThread t (fun x => divertedThread x (l.base + BitVec.ofNat 64 l.r.wrapentry))
  if parked && (loggedOf s t).isEmpty then genNext s t else s

/-- DEADLINE − WRAPBUDGET; 0, so that the diversion is due at once, where WRAPBUDGET is the greater (DESIGN CHOICE, log entry 106). -/
def divTime (l : Launch) : Nat := l.r.deadline - l.r.wrapbudget
/-- A launch that another die has terminated is not diverted (DESIGN CHOICE, log entry 81). -/
def divertible (l : Launch) : Bool := l.r.deadline != 0 && l.r.wrapentry != 0 && l.r.wrapbudget != 0 && !l.noDivert && !l.terminated

/-- No group of the launch issues from now on; a staged one leaves the shadow bank (R366). -/
def startSwap (s : State) (lk : Nat) (suspend : Bool) : State :=
  let s := s.modLaunch lk (fun l => { l with st := .swappingOut, suspendNext := suspend, swapAsked := none })
  { s with groups := tmap (fun _ g => if g.launch != lk then g else match g.swap with
      | .resident => { g with swap := .requested }
      | .staged => { g with swap := .out }
      | _ => g) s.groups }

/-- Saved threads of a launch on a die, by core, that have not exited. -/
def savedOn (l : Launch) (die : Nat) : List (Nat × Thread × CoreCtx) :=
  (l.ctx.filter (fun p => dieOfCore p.1 == die)).flatMap (fun p =>
    (p.2.threads.filter (fun q => q.2.run != .exited)).map (fun q => (q.1, q.2, p.2)))

/-- The first time on a die: barriers, instances, regions and saved contexts of the launch there; a swap that waits for the quantum of
a DET launch waits no longer (R340). -/
def divertDie (s : State) (lk : Nat) (l : Launch) (die : Nat) : State :=
  let mine (g : Group) : Bool := g.launch == lk && dieOfCore g.core == die
  let s := { s with
    groups := tmap (fun _ g => if mine g then { g with bars := [], idem := none } else g) s.groups
    cores := tmap (fun c x => if dieOfCore c == die then { x with cross := x.cross.filter (fun y => !mine (s.group y.group)) } else x) s.cores }
  let s := failRequests s lk (some die) 5 (fun e => e.stage == .waiting)
  let s := failSaved s lk l die 5
  let s := (savedOn l die).foldl (fun s p =>
    if isParked p.2.1 && !p.2.2.olog.any (fun e => e.e.thread == p.1) then savedNext s lk p.1 else s) s
  let s := s.modLaunch lk (fun l => { l with
    diverted := true, detOn := false, divDies := l.divDies ++ [die]
    ctx := tmap (fun c x => if dieOfCore c == die then { x with
      cross := [], threads := tmap (fun _ th => if th.run == .exited then th
        else divertedThread th (l.base + BitVec.ofNat 64 l.r.wrapentry)) x.threads } else x) l.ctx })
  match l.swapAsked with
  | some suspend => if l.detOn then startSwap s lk suspend else s
  | none => s

/-- Threads of a launch on a die whose diversion is still due. -/
def divertDue (s : State) (lk die : Nat) : List Nat :=
  ((launchThreads s lk (some die)).filter (fun p => !p.2.diverted)).map (·.1)

/-- The die's clock has reached the diversion time of a launch with groups there, or threads that completed an instruction
first are diverted now. -/
def execDiversion (die launch : Nat) (s : State) : Out :=
  match tfind s.launches launch with
  | none => .next s
  | some l =>
    if !divertible l || !l.everPlaced || !l.cores.any (fun c => dieOfCore c == die) || decide ((s.die die).dlclk < divTime l) then .next s
    else
      let s := if l.divDies.contains die then s else divertDie s launch l die
      let s := if l.divDies.isEmpty then { s with threads := tmap (fun _ th =>
          if (s.group th.group).launch == launch then { th with detHeld := false } else th) s.threads } else s
      let ts := (divertDue s launch die).filter (fun t => !lateDivert s t)
      .next (ts.foldl (fun s t => divertThread s l t) (ts.foldl cutWait s |> fun s => syncWithdraw s ts true))

/-! ### Termination (R303) -/

/-- Posted requests of a launch on a die that were not accepted end (R209, R337). -/
def failPosted (s : State) (lk die code : Nat) : State :=
  s.clusters.foldl (fun s p =>
    if dieOfCluster p.1 == die then
      (p.2.posted.filter (fun e => e.launch == lk)).foldl (fun s e =>
        let s := s.modCluster p.1 (fun k => { k with posted := k.posted.filter (fun x => x.id != e.id) })
        match e.kind with
        | .mma _ => failEntry s p.1 e code
        | _ => endEntry s p.1 e code 0) s
    else s) s

/-- Stop a launch on a die: its threads, its engine requests, its saved context. -/
def stopOnDie (s : State) (lk : Nat) (l : Launch) (die : Nat) : State :=
  let s := failPosted s lk die 6
  let ts := (launchThreads s lk (some die)).map (·.1)
  let s := ts.foldl stopThread (syncWithdraw s ts)
  let s := failRequests s lk (some die) 6 (fun _ => true)
  let s := failSaved s lk l die 6
  let s := (savedOn l die).foldl (fun s p => savedNext s lk p.1) s
  s.modLaunch lk (fun l => { l with ctx := tmap (fun c x => if dieOfCore c == die then { x with
    cross := [], olog := [], threads := tmap (fun _ th => { th with run := .exited }) x.threads } else x) l.ctx })

/-- Stop it everywhere. -/
def stopLaunch (s : State) (lk : Nat) : State :=
  match tfind s.launches lk with
  | none => s
  | some l => (List.range nDies).foldl (fun s d => stopOnDie s lk l d) s

/-- The same as at DEADLINE (R337). -/
def cancelLaunch (s : State) (lk : Nat) : State := (stopLaunch s lk).modLaunch lk (fun l => { l with cancelled := true })

/-- Dies that a launch's DEADLINE acts on: those of its cores, or, never placed, its own. -/
def actsOn (l : Launch) (die : Nat) : Bool := if l.everPlaced then l.cores.any (fun c => dieOfCore c == die) else l.die == die

def execDeadlineTermination (die launch : Nat) (s : State) : Out :=
  match tfind s.launches launch with
  | none => .next s
  | some l =>
    if l.r.deadline = 0 ∨ (s.die die).dlclk < l.r.deadline ∨ !actsOn l die then .next s
    else .next ((stopOnDie s launch l die).modLaunch launch (fun l => { l with terminated := true }))

end Sys2Proof.Machine
end

