-- ==== Sys2Proof/Machine/Handlers.lean ====
section
/-! DEFINITION. The handlers' instructions TRAPRET, PARKRD, OPLOG and REPLAY, and the resume registers (R132, R346, R347, R353
to R357, R365, R369). -/

namespace Sys2Proof.Machine

/-! ### Handles (R346) -/

/-- What a handle names. -/
inductive Target where
  | stale
  | thread (t : Nat)
  /-- A thread of a swapped-out launch: launch and thread key. -/
  | saved (lk t : Nat)
  /-- A held store-buffer entry of a core. -/
  | entry (core : Nat) (e : StoreEntry)

/-- A saved thread of a slot, of a launch of the partition. -/
def savedThread (s : State) (part core slot gen : Nat) : Option (Nat × Nat) :=
  let t := slotsPerCore * core + slot
  (s.launches.find? (fun p => p.2.part == part && (match tfind p.2.ctx core with
    | some x => tfind x.gens slot == some gen && (match tfind x.threads t with
      | some th => th.run != .exited && (isParked th || x.olog.any (fun e => e.e.thread == t))
      | none => false)
    | none => false))).map (fun p => (p.1, t))

def findHandle (s : State) (part : Nat) (h : Word) : Target :=
  let x := h.toNat
  let core := coresPerDie * (x % 4) + bitsAt x 2 7
  let slot := bitsAt x 9 9
  let gen := bitsAt x 18 13
  if coresPerDie ≤ bitsAt x 2 7 || !corePresent s (x % 4) (bitsAt x 2 7) then .stale
  else if flag x 31 then
    match (s.core core).stores.find? (fun e => e.slot == slot && e.held) with
    | some e => if tget 0 (s.core core).egens slot = gen ∧ partOfLaunch s e.launch = part then .entry core e else .stale
    | none => .stale
  else
    let t := slotsPerCore * core + slot
    let here := (match tfind s.threads t with
      | some th => th.run != .exited && (isParked th || !(loggedOf s t).isEmpty)
      | none => false) && genOf s t == gen && s.partOf t == part
    if here then .thread t
    else match savedThread s part core slot gen with
      | some p => .saved p.1 p.2
      | none => .stale

/-- GEN advances once the thread is neither parked nor holds logged entries. -/
def genSettle (s : State) (t : Nat) : State :=
  if isParked (s.thread t) || !(loggedOf s t).isEmpty then s else genNext s t

/-- A parked thread issues again; in a DET launch from its group's next quantum (R339). -/
def unpark (s : State) (t : Nat) : State :=
  let det := s.detOf t
  genSettle (s.modThread t (fun x => { x with run := .running, detHeld := det })) t

/-! ### REPLAY (R355) -/

/-- What defeats a replayed access at its place: a link or a stack that is down, or an uncorrectable error of what it reads (R411). -/
def replayFault (s : State) (c : Nat) (a : Access) (t : Nat) (loc : Loc) : Option AFail :=
  match placeFault s (dieOfCore c) loc t with
  | some (code, d) => some ⟨code, d, 0, false⟩
  | none =>
    let ue := match a.kind with
      | .load sz => ueLoad s c loc (ldBytes sz)
      | .store _ | .cline _ _ => none
      | k => ueDetail s loc k.size
    ue.map (fun d => ⟨0x52, d, 0, false⟩)

/-- A stack that trains holds a replayed access or its walk (R415). -/
def accHeld (s : State) (c part : Nat) (a : Access) : Bool :=
  (match a.kind with | .cline _ _ => false | _ => ptrWalkHeld s c part a.ptr) ||
    (match accResolve s c part a with
     | .ok loc => hbmHeld s loc && !(a.kind.isLoad && l1Serves s c loc a.kind.size)
     | .error _ => false)

/-- One logged entry, translated again: performed, or reported again. -/
def replayEntry (s : State) (c : Nat) (l : LogEntry) : State × Bool :=
  let e := l.e
  let part := partOfLaunch s e.launch
  let s := ptrWalk s c part e.acc.ptr
  let again (f : AFail) : State × Bool :=
    let (serial, s) := freshId s
    let idx := ((s.core c).olog.filter (fun y => y.e.thread == e.thread && y.inLog)).findIdx (fun y => y.e.id == e.id)
    let r := loadRec s c e f 64 idx serial
    let s := s.modCore c (fun x => { x with olog := x.olog.map (fun y =>
      if y.e.id == e.id then { y with replaying := false, stage2 := toSecure f.code f.detail, detail := f.detail } else y) })
    (sendRec (setLastRec (countUe s c part e.acc f) e.thread r) part e.launch r, false)
  match accResolve s c part e.acc with
  | .error f => again f
  | .ok loc =>
    match replayFault s c e.acc e.thread loc with
    | some f => again f
    | none =>
      let (ws, s) := performAcc s c e.thread part e.acc loc
      let s := s.modCore c (fun x => logDrop x (fun y => y.e.id == e.id))
      (writeResult s e.thread e.d ws, true)

/-- d of REPLAY. -/
def replayWord (done left : Nat) (resumed saved : Bool) : Word :=
  BitVec.ofNat 32 (done + left * 2 ^ 8 + resumed.toNat * 2 ^ 16 + saved.toNat * 2 ^ 17)

def replayThread (s : State) (t : Nat) : State × Word :=
  let c := coreOfThread t
  let es := (loggedOf s t).filter (·.inLog)
  let (s, done) := es.foldl (fun (p : State × Nat) e => let (s, ok) := replayEntry p.1 c e; (s, p.2 + ok.toNat)) (s, 0)
  let resumed := (loggedOf s t).isEmpty && (s.thread t).run == .parked true
  (if resumed then unpark s t else genSettle s t, replayWord done (es.length - done) resumed false)

/-- A held store is translated again: it performs, in its order, or is reported again. -/
def replayStore (s : State) (c : Nat) (e : StoreEntry) : State × Word :=
  let part := partOfLaunch s e.launch
  let s := match e.acc.kind with | .cline _ _ => s | _ => ptrWalk s c part e.acc.ptr
  let again (f : AFail) : State × Word :=
    let (serial, s) := freshId s
    (sendRec (countUe s c part e.acc f) part e.launch (storeRec s c e f 64 serial), 0x100)
  match accResolve s c part e.acc with
  | .error f => again f
  | .ok loc =>
    match replayFault s c e.acc e.thread loc with
    | some f => again f
    | none =>
      let s := s.modCore c (fun x => { x with stores := x.stores.map (fun y => if y.id == e.id then { y with held := false } else y) })
      (if accOrdered s c part e.thread e.id e.acc then storeAt s c { e with held := false } loc else s, 1)

/-- The entries a thread has in the log are to be performed when its group is restored. -/
def replayLater (t : Nat) (log : List LogEntry) : List LogEntry :=
  log.map (fun e => if e.e.thread == t && e.inLog then { e with replaying := true } else e)

/-- Logged accesses of a swapped-out thread are performed when its group is restored (R369). -/
def replaySaved (s : State) (lk t : Nat) : State × Word :=
  (s.modLaunch lk (fun l => { l with ctx := tmod (coreOfThread t) (fun x => { x with olog := replayLater t x.olog }) l.ctx }),
   replayWord 0 0 false true)

/-- The group of the thread waits for its exchange: it is as saved (R369). -/
def beingSwapped (s : State) (t : Nat) : Bool := (s.group (s.thread t).group).swap == .requested

def replay (s : State) (part : Nat) (h : Word) : State × Word :=
  match findHandle s part h with
  | .stale => (s, 0)
  | .thread t =>
    if beingSwapped s t then (s.modCore (coreOfThread t) (fun x => { x with olog := replayLater t x.olog }), replayWord 0 0 false true)
    else replayThread s t
  | .saved lk t => replaySaved s lk t
  | .entry c e => replayStore s c e

/-- A REPLAY of the handle would be held at a stack that trains: it acts once the training has ended (R415). -/
def replayHeld (s : State) (part : Nat) (h : Word) : Bool :=
  match findHandle s part h with
  | .thread t => !beingSwapped s t &&
      (loggedOf s t).any (fun l => l.inLog && accHeld s (coreOfThread t) (partOfLaunch s l.e.launch) l.e.acc)
  | .entry c e => accHeld s c (partOfLaunch s e.launch) e.acc
  | _ => false

/-- Handler instructions need privilege (R353). -/
def privileged (f : State → Nat → State → Lane) (s0 : State) (t : Nat) (s : State) : Lane :=
  if s0.privOf t then f s0 t s else .trapC 0x26

def execReplay (c : Ctl) (d a : Reg) (s : State) : Out :=
  forOut c (unitsFor d []) (privileged (fun s0 t s =>
    let th := s0.thread t
    let h := regW th (s0.group th.group) a
    if replayHeld s (s0.partOf t) h then .hold (waitAgain s t)
    else
      let (s, w) := replay s (s0.partOf t) h
      retireLate s t c (leadOf s0 c == some t) (.reg d [w]))) s

/-! ### TRAPRET (R132, R356) -/

/-- The PC lies in the region of an armed barrier. -/
def inRegion (b : JBar) (pc : DWord) : Bool :=
  let lo := min b.start.toNat b.jpc.toNat
  let hi := max b.start.toNat b.jpc.toNat
  decide (lo ≤ pc.toNat) && decide (pc.toNat ≤ hi)

/-- The PC a parked thread resumes at. -/
def resumePc (th : Thread) (act : TrapAct) (b : DWord) : DWord :=
  match act with
  | .skip => th.pc + 16
  | .jump => b
  | _ => th.pc

/-- The launch is cancelled with the thread's fault in FAULT and DETAIL (R356); a record of the secure core's ring never enters them
(R342). -/
def killBy (s : State) (lk : Nat) (th : Thread) : State :=
  let s := cancelLaunch s lk
  match th.lastRec with
  | some r => if toSecure r.code r.detail then s else s.modLaunch lk (fun l => { l with fault := some (r.code, r.detail) })
  | none => s

/-- Steps 1 to 5 on a thread of a core. -/
def resumeThread (s : State) (t : Nat) (act : TrapAct) (disc : Bool) (b : DWord) (mask : Nat) : State :=
  let c := coreOfThread t
  let pc := resumePc (s.thread t) act b
  let s := if disc then s.modCore c (fun x =>
      logDrop x (fun e => e.e.thread == t)) else s
  let out := ((s.thread t).j.filter (fun p => flag mask p.1 || !inRegion p.2 pc)).map (·.1)
  let s := out.foldl (fun s j => leaveInst s t j) s
  unpark (s.modThread t (fun x => { x with pc })) t

/-- The same on the saved state of a swapped-out thread. -/
def resumeSaved (s : State) (lk t : Nat) (act : TrapAct) (disc : Bool) (b : DWord) (mask : Nat) : State :=
  let s := s.modLaunch lk (fun l => { l with ctx := tmod (coreOfThread t) (fun x =>
    { x with
      olog := if disc then logEnter (x.olog.filter (fun e => e.e.thread != t)) else x.olog
      threads := tmod t (fun th =>
        let pc := resumePc th act b
        { th with pc, run := .running, j := tkeep (fun j r => !flag mask j && inRegion r pc) th.j }) x.threads }) l.ctx })
  let logged := match tfind s.launches lk with
    | some l => (tget ({} : CoreCtx) l.ctx (coreOfThread t)).olog.any (fun e => e.e.thread == t)
    | none => false
  if logged then s else savedNext s lk t

def savedState (s : State) (lk t : Nat) : Thread :=
  match tfind s.launches lk with
  | some l => match tfind l.ctx (coreOfThread t) with | some x => (tfind x.threads t).getD noThread | none => noThread
  | none => noThread

/-- The action on a handle, and whether a thread was resumed; none for a jump target that breaks R16. -/
def trapAct (s : State) (part : Nat) (h : Word) (act : TrapAct) (disc : Bool) (b : DWord) (mask : Nat) : Option (State × Bool) :=
  match findHandle s part h with
  | .thread t =>
    let th := s.thread t
    if !isParked th then some (s, false)
    else if act = .kill then some (killBy s (s.group th.group).launch th, false)
    else if act = .jump && !pcOk b then none
    else some (resumeThread s t act disc b mask, true)
  | .saved lk t =>
    let th := savedState s lk t
    if !isParked th then some (s, false)
    else if act = .kill then some (killBy s lk th, false)
    else if act = .jump && !pcOk b then none
    else some (resumeSaved s lk t act disc b mask, true)
  | _ => some (s, false)

/-- A .kill may end the issuing thread's own launch: it then stays ended. -/
def execTrapret (c : Ctl) (act : TrapAct) (disc : Bool) (a b : Reg) (m : Src) (s : State) : Out :=
  forOut c [] (privileged (fun s0 t s =>
    let th := s0.thread t
    let g := s0.group th.group
    if (s.thread t).run = .exited then .done s
    else
      let target := regD th g b
      match trapAct s (s0.partOf t) (regW th g a) act disc target (srcNat th g 1 m % 2 ^ 16) with
      | none => .trapC 4
      | some (s', _) => if (s'.thread t).run = .exited then .done s' else .retire s')) s

/-! ### PARKRD and OPLOG (R354) -/

/-- The thread a handle names, its logged entries, its group. -/
def handleThread (s : State) (part : Nat) (h : Word) : Option (Thread × List LogEntry) :=
  match findHandle s part h with
  | .thread t => some (s.thread t, (loggedOf s t).filter (·.inLog))
  | .saved lk t =>
    match tfind s.launches lk with
    | some l => match tfind l.ctx (coreOfThread t) with
      | some x => some (savedState s lk t, x.olog.filter (fun e => e.e.thread == t && e.inLog))
      | none => none
    | none => none
  | _ => none

/-- The 16 words of a record; the last two are open until it is written (log entry 19). -/
def recWords (s : State) (f : FRec) : List Word × State :=
  match f.rseq with
  | some r => (wordsOf (recBytes f r), s)
  | none =>
    let (x, s) := freeValue s
    ((wordsOf (recBytes f 0)).take 14 ++ dwords x, s)

/-- The quad of PARKRD, or none for PARK_ARG. -/
def parkQuad (s : State) (part : Nat) (h : Word) (sel : ParkSel) (n : Nat) : Option (List Word × State) :=
  let fixed := match sel with
    | .recd => decide (n ≤ 3)
    | .reg => n % 4 == 0
    | .st => n == 0
    | .j => decide (n ≤ 15)
  if !fixed then none
  else
    match handleThread s part h with
    | none => some ([0, 0, 0, 0], s)
    | some (th, log) =>
      match sel with
      | .recd =>
        match th.lastRec with
        | some f => let (ws, s) := recWords s f; some ((ws.drop (4 * n)).take 4, s)
        | none => some ([0, 0, 0, 0], s)
      | .reg => if n < (s.group th.group).regs then some ((List.range 4).map (fun i => vread th (n + i)), s) else none
      | .st =>
        let armed := th.j.foldl (fun m p => m ||| 2 ^ p.1) 0
        some ([BitVec.ofNat 32 ((th.q ||| 128#8).toNat + th.fpflags.toNat * 2 ^ 8), BitVec.ofNat 32 armed,
               BitVec.ofNat 32 (log.length + (isParked th).toNat * 2 ^ 8 + th.diverted.toNat * 2 ^ 9), 0], s)
      | .j =>
        match tfind th.j n with
        | some b => some (dwords b.start ++ dwords b.jpc, s)
        | none => some ([0, 0, 0, 0], s)

def execParkrd (c : Ctl) (sel : ParkSel) (d : VReg) (a : Reg) (n : Src) (s : State) : Out :=
  forOut c [] (privileged (fun s0 t s =>
    let th := s0.thread t
    let g := s0.group th.group
    match parkQuad s (s0.partOf t) (regW th g a) sel (srcNat th g 1 n) with
    | none => .trapC 0x33
    | some (ws, s) => retireLate s t c true (.reg (.v d) ws))) s

/-- The 16 words of a logged entry (R347). -/
def logWords (l : LogEntry) : List Word :=
  let e := l.e
  let w14 := (if l.replaying then 2 else 1) + l.stage2.toNat * 2 ^ 3 + l.detail % 2 ^ 16 * 2 ^ 16
  let w15 := (e.word.extractLsb' 32 10).toNat + e.nd * 2 ^ 10
  natWords 4 e.word.toNat ++ dwords e.aop ++ (e.acc.data ++ [0, 0, 0, 0]).take 4 ++ [BitVec.ofNat 32 (e.objIdx % 2 ^ 16), 0] ++
    dwords e.acc.ptr ++ [BitVec.ofNat 32 w14, BitVec.ofNat 32 w15]

def execOplog (c : Ctl) (d : VReg) (a : Reg) (n : Src) (s : State) : Out :=
  forOut c [] (privileged (fun s0 t s =>
    let th := s0.thread t
    let g := s0.group th.group
    let n := srcNat th g 1 n
    if 32 ≤ n then .trapC 0x33
    else
      let log := match handleThread s (s0.partOf t) (regW th g a) with | some p => p.2 | none => []
      let ws := match log[n / 4]? with
        | some l => ((logWords l).drop (4 * (n % 4))).take 4
        | none => [0, 0, 0, 0]
      retireLate s t c true (.reg (.v d) ws))) s

/-! ### The resume registers (R357, R365, R377) -/

/-- The result of an action reaches RESULT, unless the secure core acted; its fault no longer awaits the hypervisor. -/
def resumeDone (s : State) (part : Nat) (handle : Word) (secure : Bool) (w : Word) : State :=
  if secure then
    { s with dies := tmap (fun _ d => { d with stage2Open := d.stage2Open.filter (fun p => p.1 != handle.toNat) }) s.dies }
  else s.modPart part (fun p => { p with result := w })

def execResumeReplay (part : Nat) (handle : Word) (secure : Bool) (s : State) : Out :=
  if replayHeld s part handle then .next s else
  let (s, w) := replay s part handle
  .next (resumeDone s part handle secure w)

/-- Retry, skip and kill; RESULT then tells whether a thread was resumed (DEDUCED, log entry 20). -/
def resumeBy (act : TrapAct) (part : Nat) (handle : Word) (secure : Bool) (s : State) : State :=
  match trapAct s part handle act false 0 0 with
  | some (s', r) =>
    let saved := match findHandle s part handle with | .saved .. => true | _ => false
    resumeDone s' part handle secure (replayWord 0 0 r saved)
  | none => s

def execResumeRetry (part : Nat) (handle : Word) (secure : Bool) (s : State) : Out := .next (resumeBy .retry part handle secure s)
def execResumeSkip (part : Nat) (handle : Word) (secure : Bool) (s : State) : Out := .next (resumeBy .skip part handle secure s)
def execResumeKill (part : Nat) (handle : Word) (secure : Bool) (s : State) : Out := .next (resumeBy .kill part handle secure s)

end Sys2Proof.Machine
end

