-- ==== Sys2Proof/Machine/Swap.lean ====
section
/-! DEFINITION. Swaps of register banks and contexts, and the DET token (R37, R210, R278, R295, R338 to R340, R366 to R368). -/

namespace Sys2Proof.Machine

def coreGroups (s : State) (c : Nat) : List (Nat × Group) := s.groups.filter (fun p => p.2.core == c)

/-- The launch has left every core: it is ready again, or suspended. -/
def swapDone (s : State) (lk : Nat) : State :=
  match tfind s.launches lk with
  | none => s
  | some l =>
    if l.st = .swappingOut ∧ s.groups.all (fun p => p.2.launch != lk || p.2.swap == .out) then
      s.modLaunch lk (fun l => { l with st := if l.suspendNext then .suspended else .ready (s.die l.die).dlclk
                                        swaps := l.swaps + 1, suspendNext := false })
    else s

/-- SWAP_REQUEST: no group of the launch issues from now on; a DET launch is swapped at its next quantum boundary (R337,
R340, R366). -/
def requestSwap (s : State) (lk : Nat) (suspend : Bool) : State :=
  match tfind s.launches lk with
  | none => s
  | some l =>
    if l.st ≠ .running then s
    else if l.detOn ∧ l.swapAsked = none then s.modLaunch lk (fun l => { l with swapAsked := some suspend })
    else if l.detOn then s
    else swapDone (startSwap s lk suspend) lk

/-! ### What a swap waits for (R366 step 2) -/

/-- No in-flight instruction of the group still has to write a register, beside logged loads; no thread is inside an instruction, but one
that a fault still to be resolved holds there (R37; DEDUCED, log entry 70), and none has a diversion due, which comes first (R38). -/
def atBoundary (s : State) (gk : Nat) : Bool :=
  (s.threadsOf gk).all (fun p => resultsWritten s p.1 && (p.2.run == .exited || !diverting s p.1) &&
    (!passingWait p.2 || !(loggedOf s p.1).isEmpty || (storesOf s p.1).any (·.held)))

def swapReady (s : State) (c : Nat) (out : List (Nat × Group)) : Bool :=
  let x := s.core c
  x.ways.isEmpty && x.tags.all (fun p => p.2.count == 0) && out.all (fun p => atBoundary s p.1) &&
    (s.cluster (clusterOf c)).table.all (fun e => waits e && (match e.stage with | .again _ => false | _ => true) ||
      !out.any (fun p => p.2.launch == e.launch))

/-! ### Threads out and in -/

/-- A thread as it is saved: a blocking instruction is issued again on restore, with what it read at its issue; cross-lane and
group-barrier waits and the remaining sleep are kept (R32, R146, R219, R222, R271). -/
def savedRun (now : Nat) (th : Thread) : RunState :=
  match th.run with
  | .waiting .cross => th.run
  | .waiting (.bar ..) => th.run
  | .waiting w =>
    if th.held.isNone then .running
    else if passingWait th then .waiting w
    else .waiting .room
  | .sleeping due => .sleeping (due - now)
  | .resting _ => .running
  | r => r

def restoredRun (now : Nat) (r : RunState) : RunState :=
  match r with
  | .sleeping left => .sleeping (now + left)
  | r => r

/-- A thread of an armed region as it restarts (R295). -/
def restarted (r : Idem) (t : Nat) (th : Thread) : Thread :=
  if th.run = .exited then th
  else match tfind r.snap t with
    | some (vs, q, fp, ret, dv) =>
      { th with pc := r.pc, v := vwrites r.first vs { th with v := [] } |>.v, q, fpflags := fp, retired := ret, dvpc := dv, j := [], run := .running, held := none }
    | none => th

/-- A group of an armed region as it restarts; GC0 to GC3 are kept. -/
def restartedGroup (g : Group) : Group :=
  match g.idem with
  | some r => if r.armed then
      { g with k := r.k, region := r.region, mtol := r.mtol, mretry := r.mretry, pads := r.pads, bars := [] } else g
  | none => g

def armedRegion (g : Group) : Option Idem := g.idem.bind (fun r => if r.armed then some r else none)

/-- Groups of a core are exchanged out: requests that were not accepted are withdrawn, injectors disarmed. -/
def exchangeOut (s : State) (c : Nat) (out : List (Nat × Group)) : State :=
  let s := out.foldl (fun s p => (s.threadsOf p.1).foldl (fun s q => withdraw s q.1) s) s
  let s := out.foldl (fun s p => s.modGroup p.1 (fun g => { restartedGroup g with swap := .spilling })) s
  s.modCore c (fun x => { x with inj := [] })

/-- The saved threads of a group. -/
def savedThreads (s : State) (gk : Nat) (g : Group) : List (Nat × Thread) :=
  (s.threadsOf gk).map (fun p =>
    let th := { p.2 with run := savedRun s.clock p.2, detHeld := false, gen := none }
    (p.1, match armedRegion g with | some r => restarted r p.1 th | none => th))

/-- What the outgoing groups of a core leave to their save area (R295, R366, R367). -/
def savedCtx (s : State) (c : Nat) (out : List (Nat × Group)) : CoreCtx :=
  let x := s.core c
  let ths := out.flatMap (fun p => savedThreads s p.1 p.2)
  let valid (t : Nat) : Bool := (s.thread t).run != .exited && (isParked (s.thread t) || !(loggedOf s t).isEmpty)
  { p := x.p, threads := ths.foldl (fun t p => tset p.1 p.2 t) []
    gens := (ths.filter (fun p => valid p.1)).map (fun p => (slotOfThread p.1, genOf s p.1))
    tags := x.tags, scrways := x.scrways
    scratch := if out.all (fun p => (armedRegion p.2).isSome || (s.liveOf p.1).isEmpty) then [] else x.scratch
    olog := x.olog.filter (fun e => ths.any (fun p => p.1 == e.e.thread))
    cross := x.cross.filter (fun y => (armedRegion (s.group y.group)).isNone) }

/-- A running launch with groups on a cluster whose engine no launch holds becomes its holder; the state it saved of the engine is
refilled, its requests ahead of new ones (R183, R210). Their ageing starts again with the restore (R188; DESIGN CHOICE, log entry 107). -/
def engineTo (s : State) (k : Nat) : State :=
  if (s.cluster k).holder.isSome then s
  else match s.launches.find? (fun p => p.2.st == .running && !p.2.r.noeng && p.2.cores.any (fun c => clusterOf c == k)) with
    | none => s
    | some (lk, l) =>
      match tfind l.eng k with
      | none => s.modCluster k (fun cl => { cl with holder := some lk })
      | some e =>
        let s := s.modCluster k (fun cl => { cl with holder := some lk, w0 := e.w0, w1 := e.w1, acc := e.acc
                                                     table := e.table.map (fun r => { r with since := cl.mclk }) })
        let s := e.rings.foldl (fun s p => if (p.2).isEmpty then s else s.modCore p.1 (fun x => { x with ring := p.2 })) s
        s.modLaunch lk (fun l => { l with eng := tdel k l.eng })

/-- The engine of a cluster is saved with its holder once no group of the holder is left on the cluster (R210), and is free for the
launch that comes. -/
def saveEngine (s : State) (k lk : Nat) : State :=
  let cl := s.cluster k
  let left (g : Group) : Bool := g.launch == lk && (g.swap == .resident || g.swap == .requested)
  if cl.holder = some lk ∧ (coresOfCluster k).all (fun c => (coreGroups s c).all (fun p => !left p.2)) then
    let e : EngCtx := { w0 := cl.w0, w1 := cl.w1, acc := cl.acc, table := cl.table
                        rings := (coresOfCluster k).map (fun c => (c, (s.core c).ring)) }
    engineTo (engineReset (s.modLaunch lk (fun l => { l with eng := tset k e l.eng })) k) k
  else s

/-- The outgoing groups leave the core with their context, their requests to sync objects withdrawn together; the spill engine has still to write it (R366 steps 4 and 5). -/
def leaveCore (s : State) (c : Nat) (out : List (Nat × Group)) : State :=
  match out with
  | [] => s
  | (_, g0) :: _ =>
    let s := syncWithdraw s (out.flatMap (fun p => (s.threadsOf p.1).map (·.1)))
    let ctx := savedCtx s c out
    let mine (t : Nat) : Bool := (tfind ctx.threads t).isSome
    let s := exchangeOut s c out
    let s := { s with threads := tkeep (fun t _ => !mine t) s.threads }
    let s := s.modCore c (fun x => { x with scratch := [], tags := [], cross := [], unfilled := 0, olog := (logDrop x (fun e => mine e.e.thread)).olog })
    saveEngine (s.modLaunch g0.launch (fun l => { l with ctx := tset c ctx l.ctx })) (clusterOf c) g0.launch

/-- The spill is done. -/
def spill (s : State) (out : List (Nat × Group)) : State :=
  match out with
  | [] => s
  | (_, g0) :: _ => swapDone (out.foldl (fun s p => s.modGroup p.1 (fun g => { g with swap := .out })) s) g0.launch

/-- Logged accesses replayed while the group was out are performed before its first issue (R369). -/
def replayRestored (s : State) (c : Nat) : State :=
  let es := (s.core c).olog.filter (·.replaying)
  let s := es.foldl (fun s e => (replayEntry s c e).1) s
  (es.map (fun e => e.e.thread)).eraseDups.foldl (fun s t =>
    if (loggedOf s t).isEmpty && (s.thread t).run == .parked true then unpark s t else genSettle s t) s

/-- Scratch ways given to a core that switches to another launch: its L1 loses the ways, and fills are to come. -/
def takeWays (s : State) (c n : Nat) (scratch : Mem) : State :=
  let s := l1FlushAll s c (partOfCluster s (clusterOf c))
  s.modCore c (fun x => { x with scrways := BitVec.ofNat 16 (2 ^ n - 1), unfilled := BitVec.ofNat 12 (2 ^ n - 1), scratch
                                 l1d := (tkeep (fun _ ln => ln.dirty != 0) x.l1d).take (1024 * (16 - n)) })

/-- A context comes to its core: a launch's first groups there start under R17, when the object cache loses the partition's entries
(R156); a saved one is restored (R366, R367). Injectors that another partition armed are disarmed (R417). -/
def loadCtx (s : State) (c part : Nat) (x : CoreCtx) : State :=
  let ths := tmap (fun t th => { th with run := restoredRun s.clock th.run, gen := tfind x.gens (slotOfThread t) }) x.threads
  let s := takeWays s c ((List.range 13).find? (fun n => 2 ^ n - 1 == x.scrways.toNat) |>.getD 0) x.scratch
  let s := { s with threads := ths.foldl (fun (t : Tbl Thread) (p : Nat × Thread) => tset p.1 p.2 t) s.threads }
  s.modCore c (fun y =>
    let y := { y with tags := x.tags, cross := x.cross, ways := [], inj := y.inj.filter (fun i => i.2.part == part) }
    if x.fresh then { y with ocache := y.ocache.filter (fun e => e.1 != part), obad := [] }
    else { y with p := x.p, olog := logEnter (y.olog ++ x.olog) })

/-- Bytes of a context save area: what R367 lists of a core fits (DESIGN CHOICE, log entry 24). -/
def saveBytes : Nat := 2 ^ 22

/-- A line of the save area at `a` has an uncorrectable error. -/
def saveLost (s : State) (a : Nat) : Bool := s.fw.ueLines.any (fun l => decide (a / 128 ≤ l) && decide (l < (a + saveBytes) / 128))

/-- The save area of a core cannot be read: it has an uncorrectable error, or lies on a stack whose training failed. -/
def saveBad (s : State) (l : Launch) (c : Nat) : Bool :=
  match tfind l.saves c with
  | some a => saveLost s a || hbmFailed s (.hbm a)
  | none => false

/-- An error in reading a save area: the launch is stopped, and completes FAULT with DATA_ERROR (R367). -/
def restoreFails (s : State) (lk : Nat) (l : Launch) (c : Nat) : State :=
  let a := tget 0 l.saves c
  let s := (List.range nDies).foldl (fun s d => stopOnDie s lk l d) (if saveLost s a then countUeAt s (.hbm a) 1 else s)
  s.modLaunch lk (fun l => { l with heldFault := true, fault := some (l.fault.getD (0x52, 1)) })

/-- Staged groups become resident with their context; a barrier phase whose stores have performed meanwhile ends. -/
def exchangeIn (s : State) (c : Nat) (inc : List (Nat × Group)) : State :=
  match inc with
  | [] => s
  | (_, g0) :: _ =>
    let lk := g0.launch
    match tfind s.launches lk with
    | none => s
    | some l =>
      match tfind l.ctx c with
      | none => s
      | some x =>
        if !x.fresh && saveBad s l c then restoreFails s lk l c
        else
          let s := loadCtx s c l.part x
          let s := s.modLaunch lk (fun l => { l with ctx := tdel c l.ctx })
          let s := inc.foldl (fun s p => s.modGroup p.1 (fun g => { g with swap := .resident })) s
          let s := inc.foldl (fun s p => (s.group p.1).bars.foldl (fun s b => barSettle s p.1 b.1) s) s
          replayRestored (engineTo s (clusterOf c)) c

/-- The active and shadow banks of a core exchange, once what holds the outgoing groups back has ended and the shadow bank is
free (R366 step 4). -/
def execBankExchange (core : Nat) (s : State) : Out :=
  let gs := coreGroups s core
  let out := gs.filter (fun p => p.2.swap == .requested)
  let inc := gs.filter (fun p => p.2.swap == .staged)
  let stays := gs.any (fun p => p.2.swap == .resident && inc.any (fun q => q.2.launch != p.2.launch))
  if gs.any (fun p => p.2.swap == .spilling) || (out.isEmpty && inc.isEmpty) || stays || !swapReady s core out then .next s
  else .next (exchangeIn (leaveCore s core out) core inc)

/-- The spill engine of a core: the outgoing context is written, or the lowest way that waits for its fill is filled. -/
def execSpillFill (core : Nat) (s : State) : Out :=
  let out := (coreGroups s core).filter (fun p => p.2.swap == .spilling)
  .next (if out.isEmpty then fillWay s core else spill s out)

/-! ### The token of a DET launch (R338 to R340) -/

/-- A thread cannot go on within the quantum. A posted engine request is a blocking wait only while the table has no entry for it
(R186). -/
def detStuck (s : State) (t : Nat) (th : Thread) : Bool :=
  let k := clusterOf (coreOfThread t)
  th.detHeld || crossBusy s t || (match th.run with
    | .parked _ => true
    | .waiting .engine => !entryFree (s.cluster k) (coresOfCluster k) (coreOfThread t)
    | .waiting _ => !passingWait th
    | _ => false)

/-- Nothing the group has issued has still to write its destination, to perform, to be accepted, or to reach its sync object. -/
def windowsClear (s : State) (gk : Nat) : Bool :=
  (s.threadsOf gk).all (fun p => resultsWritten s p.1 && (storesOf s p.1).all (·.held)) &&
    (s.liveOf gk).all (fun p => !passingWait p.2 && (p.2.run != .waiting .engine || detStuck s p.1 p.2)) && syncClear s gk

/-- The quantum of the token's group has ended: with its last instruction complete (R339, R388). None ends while a group of the launch
is on its way to or from its core (R278). -/
def quantumOver (s : State) (l : Launch) : Bool :=
  s.groups.all (fun p => p.2.launch != (s.group l.token).launch || p.2.swap == .resident) && (decide (l.r.quantum ≤ l.issues) || (s.liveOf l.token).all (fun p => detStuck s p.1 p.2)) && windowsClear s l.token

/-- Groups of a launch that have not ended, in ascending %grp. -/
def tokenRing (s : State) (lk : Nat) : List Nat :=
  let gs := s.groups.filter (fun p => p.2.launch == lk && !(s.liveOf p.1).isEmpty)
  (gs.mergeSort (fun a b => decide (a.2.grp ≤ b.2.grp))).map (·.1)

/-- The group after one in the ring: the next higher %grp, be the one itself ended, then the lowest. -/
def nextToken (s : State) (lk g : Nat) : Nat :=
  let ring := tokenRing s lk
  match ring.find? (fun h => decide ((s.group g).grp < (s.group h).grp)) with
  | some h => h
  | none => ring.headD g

/-- The token passes on; the releases held back for the threads of the group that receives it are delivered. -/
def passToken (s : State) (lk : Nat) (l : Launch) : State :=
  let g := nextToken s lk l.token
  let s := s.modLaunch lk (fun l => { l with token := g, issues := 0 })
  { s with threads := tmap (fun _ th => if th.group == g then { th with detHeld := false } else th) s.threads }

/-- The end of a quantum; a swap that waits for it takes effect. -/
def execQuantumEnd (launch : Nat) (s : State) : Out :=
  match tfind s.launches launch with
  | none => .next s
  | some l =>
    if !l.detOn || l.st != .running || !quantumOver s l then .next s
    else
      let s := passToken s launch l
      match l.swapAsked with
      | none => .next s
      | some suspend =>
        .next (swapDone (startSwap s launch suspend) launch)

end Sys2Proof.Machine
end

