-- ==== Sys2Proof/Machine/Queues.lean ====
section
/-! DEFINITION. Hardware queues and packets (R313 to R322, R324, R327, R330, R337). -/

namespace Sys2Proof.Machine

/-! ### Taking a packet (R320, R321) -/

/-- The packet in hand as a number. -/
def curPacket (q : Queue) : Nat := match q.cur with | some (bs, _) => leNat bs | none => 0

/-- The queue holds a packet of a TYPE that may execute now. -/
def holdsType (q : Queue) (ty : Nat) : Bool := q.st == .active && q.cur.isSome && !q.xfering && pkType (curPacket q) == ty

/-- EXPSEQ goes on by one. -/
def Queue.seqNext (q : Queue) : Queue := { q with expseq := (q.expseq + 1) % 2 ^ 16, lap := q.lap + (q.expseq + 1) / 2 ^ 16 }

/-- The packet has executed. -/
def advance (s : State) (k : Nat) : State :=
  s.modQueue k (fun q => { q.seqNext with cur := none, retries := 0, waiting := false, xfering := false,
                                          dropping := none, st := .active })

/-- Every earlier launch and graph instance of the queue has completed. -/
def barrierMet (s : State) (k : Nat) : Bool :=
  s.launches.all (fun p => p.2.queue != k || p.2.inst.isSome) && s.insts.all (fun p => p.2.queue != k)

/-- SIGNAL and XFER are BARRIER packets; PREEMPT never waits (R319). -/
def needsBarrier (x : Nat) : Bool := pkType x != 8 && (pkBarrier x || pkType x == 3 || pkType x == 4)

/-- A well-formed packet is taken: it breaks a limit, or waits for its barrier, or is ready to execute. -/
def takePacket (s : State) (k : Nat) (bs : List Byte) (ring : Bool) : State :=
  let x := leNat bs
  let s := s.modQueue k (fun q => { q with cur := some (bs, ring), retries := 0 })
  if !pkLimitsOk x then queueStop s k 2 (curAddr (s.queue k))
  else if needsBarrier x && !barrierMet s k then s.modQueue k (fun q => { q with st := .held })
  else s

/-- The held inline packet, when it is packet e. -/
def inlineNow (q : Queue) : Option (List Byte) :=
  match q.inline with
  | some bs => if pkSeq (leNat bs) = q.expseq then some bs else none
  | none => none

/-- The `n` bytes at a pointer of a queue's packet lie in part on a stack that trains: the access is held (R415). -/
def qHeld (s : State) (k : Nat) (p : DWord) (n : Nat := 8) : Bool :=
  (List.range ((p.toNat % 4096 + n + 4095) / 4096)).any (fun i =>
    match qPlace s (s.queue k).part (queueDie k) (if i = 0 then p else p + BitVec.ofNat 64 (4096 * i - p.toNat % 4096)) {} with
    | .ok loc => hbmHeld s loc
    | .error _ => false)

/-- The queue may look at its next slot, whose read no stack holds. -/
def fetching (s : State) (k : Nat) : Bool :=
  let q := s.queue k
  q.st == .active && q.cur.isNone && (s.part q.part).st == .active && ((inlineNow q).isSome || !qHeld s k (slotPtr q q.expseq) 64)

def slotTorn (x e : Nat) : Bool := pkMarkOk x e && !(pkCrcOk x && pkSeq x == e % 2 ^ 16)

/-- A read defeated by an uncorrectable error, or by a link that is down. -/
def readFails (s : State) (k : Nat) (p : DWord) (why : Option AccFail) : Bool :=
  let q := s.queue k
  match why with
  | none => false
  | some (.dataError _) => true
  | some _ => match qPlace s q.part (queueDie k) p needR with
    | .ok loc => (linkFault s (queueDie k) loc).isSome || (farFault s (queueDie k) loc 0 true).isSome
    | .error _ => false

/-- An uncorrectable error that defeats a read of a queue's packet is counted where it lies (R416). -/
def readCount (s : State) (k : Nat) (p : DWord) (why : Option AccFail) : State :=
  match why, qPlace s (s.queue k).part (queueDie k) p needR with
  | some (.dataError d), .ok loc => countUeAt s loc d
  | _, _ => s

/-- The queue has a packet, or a slot that stops it, to be taken next. -/
def packetReady (s : State) (k : Nat) : Bool :=
  fetching s k && ((inlineNow (s.queue k)).isSome || (match slotRead s k (s.queue k).expseq with
    | none => true
    | some x => pkMarkOk x (s.queue k).expseq && !slotTorn x (s.queue k).expseq))

/-- Queue k is served by queue core k mod 4 (DESIGN CHOICE, log entry 92). -/
def queueCore (k : Nat) : Nat := k % 4

/-- How far a queue stands from its core's turn. -/
def turnDist (s : State) (k : Nat) : Nat := (k % 1024 / 4 + 256 - tget 0 (s.die (queueDie k)).qturn (queueCore k)) % 256

/-- No queue that the same core serves comes before this one with a packet (R335). -/
def itsTurn (s : State) (k : Nat) : Bool :=
  s.queues.all (fun p => queueDie p.1 != queueDie k || queueCore p.1 != queueCore k || decide (turnDist s k ≤ turnDist s p.1) ||
    !packetReady s p.1)

/-- The queue has had its turn. -/
def turnTaken (s : State) (k : Nat) : State :=
  s.modDie (queueDie k) (fun d => { d with qturn := tset (queueCore k) ((k % 1024 / 4 + 1) % 256) d.qturn })

/-- A queue core fetches from the queue whose turn it is; or a capability fault in it stops the queue it handles (R384). -/
def execPacketFetch (queue : Nat) (why : Option AccFail) (capFault : Bool) (s : State) : Out :=
  let q := s.queue queue
  if capFault && q.cur.isSome && (q.st == .active || q.st == .held) then .next (queueStop s queue 4 (curAddr q))
  else if !fetching s queue || !itsTurn s queue then .next s
  else
    let s0 := s
    let s := turnTaken s queue
    let p := slotPtr q q.expseq
    match inlineNow q with
    | some bs =>
      if capFault then .next (queueStop s queue 4 0)
      else .next (takePacket (s.modQueue queue (fun q => { q with inline := none })) queue bs false)
    | none =>
      if capFault then .next (queueStop s queue 4 p)
      else if readFails s queue p why then .next (queueStop (readCount s queue p why) queue 7 p)
      else
        match slotRead s queue q.expseq with
        | none => .next (queueStop s queue 7 p)
        | some x =>
          if !pkMarkOk x q.expseq || slotTorn x q.expseq then .next s0
          else if !pkReservedOk x then .next (queueStop s queue 2 p)
          else .next (takePacket s queue (leBytes 64 x) true)

/-- Nothing valid in the slot for 2 µs. -/
def execSlotPollTimeout (queue : Nat) (s : State) : Out :=
  let q := s.queue queue
  if !fetching s queue || (inlineNow q).isSome then .next s
  else
    match slotRead s queue q.expseq with
    | some x => if pkMarkOk x q.expseq then .next s else .next (s.modQueue queue (fun q => { q with st := .idle, retries := 0 }))
    | none => .next s

/-- A torn slot is read once more; after 64 tries the queue stops. -/
def execTornRepoll (queue : Nat) (s : State) : Out :=
  let q := s.queue queue
  if !fetching s queue || (inlineNow q).isSome then .next s
  else
    match slotRead s queue q.expseq with
    | some x =>
      if !slotTorn x q.expseq then .next s
      else if q.retries < 63 then .next (s.modQueue queue (fun q => { q with retries := q.retries + 1 }))
      else .next (queueStop (s.modQueue queue (fun q => { q with retries := 64 })) queue 1 (slotPtr q q.expseq))
    | none => .next s

/-! ### LAUNCH (R318, R324) -/

/-- A refused launch or instance: its completion record, and the queue goes on; it stops when the record cannot be written. -/
def refuse (s : State) (k : Nat) (p : DWord) (seq detail : Nat) : State :=
  let q := s.queue k
  let c : CompRec := { status := 4, seq, fault := some (0x60, detail) }
  match qWrite s q.part (queueDie k) p (compBytes c (s.die (queueDie k)).dlclk) with
  | some s => advance s k
  | none => queueStop s k 5 (curAddr q)

def execLaunch (queue : Nat) (why : Option AccFail) (s : State) : Out :=
  let q := s.queue queue
  let x := curPacket q
  let p := BitVec.ofNat 64 (fld x 8 8)
  if !holdsType q 1 || qHeld s queue p 256 then .next s
  else
    let die := queueDie queue
    let bytes := if readFails s queue p why then none else qRead s q.part die p 256
    let s := if bytes.isNone then readCount s queue p why else s
    match bytes with
    | none =>
      if fld x 0x18 8 = 0 then .next (queueStop s queue 5 (curAddr q))
      else .next (refuse s queue (BitVec.ofNat 64 (fld x 0x18 8)) (pkSeq x) 1)
    | some b =>
      let r := overrideRec (parseRec b) x
      let row := if recRow1 b (pkSeq x) then recFailRow s q.part q.classmax false b r else 1
      if row ≠ 0 then .next (refuse s queue r.completion (pkSeq x) row)
      else .next (advance (newLaunch s die q.part queue r none).2 queue)

/-! ### WAIT (R319) -/

/-- A MODE 0 WAIT's packet has executed and what it started has completed. Of the packets that had its number it is the latest. -/
def waitMet (s : State) (k : Nat) (x : Nat) : Bool :=
  let target := 1024 * queueDie k + fld x 8 2
  let wseq := fld x 10 2
  let e := (s.queue target).expseq
  let d := (e + 2 ^ 16 - wseq) % 2 ^ 16
  let lap := if wseq < e then (s.queue target).lap else (s.queue target).lap - 1
  decide (1 ≤ d) && decide (d ≤ 32768) &&
    s.launches.all (fun p => p.2.queue != target || p.2.inst.isSome || p.2.r.seq != wseq || p.2.lap != lap) &&
    s.insts.all (fun p => p.2.queue != target || p.2.seq != wseq || p.2.lap != lap)

def execWait (queue : Nat) (s : State) : Out :=
  let q := s.queue queue
  if !holdsType q 2 then .next s
  else
    let x := curPacket q
    let target := 1024 * queueDie queue + fld x 8 2
    if !flag x 32 && !((tfind s.queues target).isSome && (s.queue target).part == q.part) then
      .next (queueStop s queue 2 (curAddr q))
    else .next (s.modQueue queue (fun q => { q with st := .held, waiting := true }))

def execWaitPoll (queue : Nat) (why : Option AccFail) (s : State) : Out :=
  let q := s.queue queue
  let x := curPacket q
  let p := BitVec.ofNat 64 (fld x 8 8)
  if !(q.st == .held && q.waiting && flag x 32) || qHeld s queue p then .next s
  else
    if readFails s queue p why then .next (queueStop (readCount s queue p why) queue 7 (curAddr q))
    else
      match qRead s q.part (queueDie queue) p 8 with
      | none => .next (queueStop s queue 7 (curAddr q))
      | some v => .next (if fld x 0x10 8 ≤ v then advance s queue else s)

/-- A barrier or a MODE 0 WAIT is satisfied. -/
def execHeldRelease (queue : Nat) (s : State) : Out :=
  let q := s.queue queue
  let x := curPacket q
  if q.st ≠ .held ∨ q.dropping.isSome then .next s
  else if q.waiting then .next (if !flag x 32 && waitMet s queue x then advance s queue else s)
  else .next (if barrierMet s queue then s.modQueue queue (fun q => { q with st := .active }) else s)

/-! ### SIGNAL and XFER (R319) -/

def execSignal (queue : Nat) (why : Option AccFail) (s : State) : Out :=
  let q := s.queue queue
  let x := curPacket q
  let p := BitVec.ofNat 64 (fld x 8 8)
  if !holdsType q 3 || qHeld s queue p then .next s
  else
    let die := queueDie queue
    let v := fld x 0x10 8
    let stop : Out := .next (queueStop (readCount s queue p why) queue 7 (curAddr q))
    if readFails s queue p why then stop
    else
      let new := if flag x 32 then (match qReach s q.part die p needA with
        | some loc => some ((locNat s loc 8 + v) % 2 ^ 64)
        | none => none) else some v
      match new with
      | none => stop
      | some n =>
        match qWrite s q.part die p (leBytes 8 n) with
        | some s => .next (advance s queue)
        | none => stop

/-- The firmware copy starts; later packets wait for its end. -/
def execXfer (queue : Nat) (s : State) : Out :=
  let q := s.queue queue
  if !holdsType q 4 then .next s else .next (s.modQueue queue (fun q => { q with xfering := true }))

/-- One pointer of a firmware copy: its place, or the stop code. -/
def xferPlace (s : State) (part die : Nat) (p : DWord) (n : Need) : Except Nat Loc :=
  match qPlace s part die p n with
  | .error _ => .error 7
  | .ok loc => if (placeFault s die loc).isSome then .error 6 else .ok loc

/-- Copy `n` bytes, by runs that lie within a page at both ends; an error leaves what has been copied. -/
def xferCopy (s : State) (part die : Nat) (alloc : Bool) : Nat → DWord → DWord → Nat → State × Nat
  | 0, _, _, _ => (s, 0)
  | fuel + 1, src, dst, n =>
    if n = 0 then (s, 0)
    else
      let step := min n (min (4096 - src.toNat % 4096) (4096 - dst.toNat % 4096))
      let last := BitVec.ofNat 64 (step - 1)
      match xferPlace s part die src needR, xferPlace s part die (src + last) needR, xferPlace s part die dst needW,
          xferPlace s part die (dst + last) needW with
      | .ok a, .ok _, .ok b, .ok _ =>
        let s := locWrite (segUse (segUse s part ⟨a, step⟩) part ⟨b, step⟩ alloc) b (locRead s a step)
        xferCopy s part die alloc fuel (src + BitVec.ofNat 64 step) (dst + BitVec.ofNat 64 step) (n - step)
      | .error c, _, _, _ => (s, c)
      | _, .error c, _, _ => (s, c)
      | _, _, .error c, _ => (s, c)
      | _, _, _, .error c => (s, c)

def xferFuel (n : Nat) : Nat := n / 2048 + 4

/-- The copy ends. Cut short by an error, or by a link or a host read that fails, it has copied a free number of bytes (R319, R376). -/
def execXferComplete (queue : Nat) (why : Option AccFail) (s : State) : Out :=
  let q := s.queue queue
  let x := curPacket q
  let n := fld x 0x18 4
  let src := BitVec.ofNat 64 (fld x 8 8)
  let dst := BitVec.ofNat 64 (fld x 0x10 8)
  if !(q.st == .active && q.xfering) || qHeld s queue src n || qHeld s queue dst n then .next s
  else
    let die := queueDie queue
    let alloc := !flag (fld x 4 1) 0
    if readFails s queue src why then
      let (v, s) := freeValue s
      let m := v.toNat % (n + 1)
      let (s, _) := xferCopy (readCount s queue (src + BitVec.ofNat 64 m) why) q.part die alloc (xferFuel m) src dst m
      .next (queueStop s queue 6 (curAddr q))
    else
      let (s, code) := xferCopy s q.part die alloc (xferFuel n) src dst n
      .next (if code = 0 then advance s queue else queueStop s queue code (curAddr q))

/-! ### MODLOAD and MODDROP (R327) -/

/-- Physical segments of a range of a partition's device memory that translate. -/
def rangeSegs (s : State) (part : Nat) : Nat → Nat → Nat → List Seg
  | 0, _, _ => []
  | fuel + 1, va, n =>
    if n = 0 then []
    else
      let step := min n (4096 - va % 4096)
      let rest := rangeSegs s part fuel (va + step) (n - step)
      match walk s part false va {} with
      | .ok (pa, _) => ⟨.hbm pa, step⟩ :: rest
      | .error _ => rest

/-- Instruction lines of segments leave all three levels. -/
def dropInstr (s : State) (gs : List Seg) : State :=
  let keep (l : Nat) (_ : Line) : Bool := !gs.any (segHasLine l)
  { s with cores := tmap (fun _ c => { c with l1i := tkeep keep c.l1i }) s.cores
           clusters := tmap (fun _ c => { c with l2i := tkeep keep c.l2i }) s.clusters
           dies := tmap (fun _ d => { d with
             l2i := tkeep keep d.l2i
             l2 := tmap (fun _ es => es.filter (fun e => e.rcopy || (tfind d.l2i e.line).isNone || !gs.any (segHasLine e.line))) d.l2 }) s.dies }

def moduleSegs (s : State) (part e : Nat) : List Seg := rangeSegs s part (oExtent e / 4096 + 2) (ptrOff (oBase e)) (oExtent e)

def execModload (queue : Nat) (why : Option AccFail) (s : State) : Out :=
  let q := s.queue queue
  if !holdsType q 5 then .next s
  else
    let x := curPacket q
    let idx := fld x 4 2
    let e := tableEntry s q.part idx
    let n := fld x 0x10 4
    let src := BitVec.ofNat 64 (fld x 8 8)
    let bad := oType e != 5 || (s.part q.part).loaded.contains idx || decide (oExtent e < n)
    if bad then .next (queueStop s queue 2 (curAddr q))
    else if qHeld s queue src n || qHeld s queue (oBase e) n then .next s
    else if why.isSome && (n == 0 || readFails s queue src why) then .next (queueStop (readCount s queue src why) queue 7 (curAddr q))
    else
      let (s, code) := xferCopy s q.part (queueDie queue) true (xferFuel n) src (oBase e) n
      if code ≠ 0 then .next (queueStop s queue 7 (curAddr q))
      else
        let s := dropInstr s (moduleSegs s q.part e)
        .next (advance (s.modPart q.part (fun p => { p with loaded := p.loaded ++ [idx] })) queue)

def execModdrop (queue : Nat) (s : State) : Out :=
  let q := s.queue queue
  if !holdsType q 6 then .next s
  else
    let idx := fld (curPacket q) 4 2
    let s := s.modPart q.part (fun p => { p with loaded := p.loaded.filter (· != idx) })
    .next (s.modQueue queue (fun q => { q with st := .held, dropping := some idx }))

/-- No launch of the partition, nor a node still to launch, names the module. -/
def moduleIdle (s : State) (part idx : Nat) : Bool :=
  s.launches.all (fun p => p.2.part != part || p.2.r.codeobj != idx) &&
    s.insts.all (fun p => p.2.part != part || p.2.nodes.all (fun n => n.done || n.r.codeobj != idx))

def execModdropComplete (queue : Nat) (s : State) : Out :=
  let q := s.queue queue
  match q.dropping with
  | none => .next s
  | some idx =>
    if !moduleIdle s q.part idx then .next s
    else .next (advance (dropInstr s (moduleSegs s q.part (tableEntry s q.part idx))) queue)

/-! ### GRAPH (R330) -/

/-- A node as captured: its entry and its record. -/
structure NodeIn where
  ent : Nat
  rec' : Nat

def nodeSucc (ent : Nat) : List Nat := (List.range (min 8 (bitsAt ent (8 * 0x10) 4))).map (fun i => fld ent (0x14 + 2 * i) 2)

/-- The node entries and records at a table, or the number of the node that cannot be read. -/
def readNodes (s : State) (part die : Nat) (table : DWord) : Nat → Nat → Except Nat (List NodeIn)
  | 0, _ => .ok []
  | n + 1, i =>
    match qRead s part die (table + BitVec.ofNat 64 (64 * i)) 64 with
    | none => .error i
    | some ent =>
      if fld ent 0 8 % 256 ≠ 0 ∨ fld ent 0 8 / 2 ^ 60 ≠ 0 then .error i
      else
        match qRead s part die (BitVec.ofNat 64 (fld ent 0 8)) 256 with
        | none => .error i
        | some r =>
          match readNodes s part die table n (i + 1) with
          | .error j => .error j
          | .ok l => .ok (⟨ent, r⟩ :: l)

/-- The limits of R330 and R324 on a node; a node with predecessors is named by its QUEUE entry (DEDUCED, log entry 21). -/
def nodeOk (s : State) (part classmax : Nat) (all : List NodeIn) (i : Nat) (n : NodeIn) (r : LRec) : Bool :=
  let hasPred := all.any (fun m => (nodeSucc m.ent).contains i)
  let qcap := fld n.ent 8 4
  let co := fld n.ent 0xC 4
  let e := tableEntry s part r.queueObj
  onlyFields n.ent [(0, 64), (8, 32), (0xC, 32), (0x10, 4), (0x14, 128)] && decide (bitsAt n.ent (8 * 0x10) 4 ≤ 8) &&
    (nodeSucc n.ent).all (fun j => decide (i < j) && decide (j < all.length)) &&
    (if qcap = 0 then co == 0 else decide (1 ≤ co) && decide (co ≤ qcap)) &&
    (if hasPred then qcap != 0 && r.awlRec else qcap == 0) &&
    recRow1 n.rec' 0 && recFailRow s part classmax true n.rec' r == 0 &&
    r.node == i && (if hasPred then oType e == 7 && bitsAt e 32 16 == i else r.queueObj == 0 || (oType e == 7 && bitsAt e 32 16 == i))

def execGraph (queue : Nat) (why : Option AccFail) (s : State) : Out :=
  let q := s.queue queue
  let x := curPacket q
  if !holdsType q 7 || qHeld s queue (BitVec.ofNat 64 (fld x 8 8)) (64 * fld x 4 2) then .next s
  else
    let die := queueDie queue
    let completion := BitVec.ofNat 64 (fld x 0x20 8)
    let refused (i : Nat) : Out := .next (refuse s queue completion (pkSeq x) i)
    let table := BitVec.ofNat 64 (fld x 8 8)
    if readFails s queue table why then .next (refuse (readCount s queue table why) queue completion (pkSeq x) 0)
    else
      match readNodes s q.part die table (fld x 4 2) 0 with
      | .error i => refused i
      | .ok ns =>
        let rs := ns.map (fun n =>
          let r := parseRec n.rec'
          if fld x 0x18 8 = 0 then r else { r with deadline := fld x 0x18 8 })
        match ((ns.zip rs).zipIdx).find? (fun p => !nodeOk s q.part q.classmax ns p.2 p.1.1 p.1.2) with
        | some p => refused p.2
        | none =>
          let (gi, s) := freshId s
          let nodes := (ns.zip rs).map (fun p =>
            ({ r := p.2, qcap := fld p.1.ent 8 4, coalesce := fld p.1.ent 0xC 4, succ := nodeSucc p.1.ent } : GNode))
          let g : GInst := { die, part := q.part, queue, seq := pkSeq x, deadline := fld x 0x18 8, completion
                             qarea := BitVec.ofNat 64 (fld x 0x10 8), nodes, lap := q.lap }
          let s := advance { s with insts := tset gi g s.insts } queue
          .next (graphSettle s gi)

/-! ### PREEMPT (R337) -/

def preemptTarget (s : State) (k : Nat) : Option (Nat × Launch) :=
  let q := s.queue k
  let id := fld (curPacket q) 8 4
  s.launches.find? (fun p => p.2.part == q.part && p.2.id == id && p.2.die == queueDie k)

/-- A PREEMPT packet with an ACTION executes. -/
def preempt (s : State) (k action : Nat) (f : State → Nat → Launch → State) : Out :=
  let q := s.queue k
  if !(holdsType q 8 && bitsAt (curPacket q) 32 2 == action) then .next s
  else
    let s' := match preemptTarget s k with
      | some (lk, l) => f s lk l
      | none => s
    .next (advance s' k)

/-- A cluster of the launch drains: it is not pre-empted (R422; DEDUCED, log entry 98). -/
def drains (s : State) (l : Launch) : Bool := l.cores.any (fun c => (s.cluster (clusterOf c)).draining)

def execPreemptRequeue (queue : Nat) (s : State) : Out :=
  preempt s queue 0 (fun s lk l => if drains s l then s else requestSwap s lk false)

def execPreemptSuspend (queue : Nat) (s : State) : Out :=
  preempt s queue 1 (fun s lk l =>
    match l.st with
    | .ready _ => s.modLaunch lk (fun l => { l with st := .suspended })
    | .swappingOut => s.modLaunch lk (fun l => { l with suspendNext := true })
    | _ => if l.swapAsked.isSome then s.modLaunch lk (fun l => { l with swapAsked := some true })
      else if drains s l then s else requestSwap s lk true)

def execPreemptResume (queue : Nat) (s : State) : Out :=
  preempt s queue 2 (fun s lk l =>
    match l.st with
    | .suspended => s.modLaunch lk (fun l => { l with st := .ready (s.die l.die).dlclk })
    | .swappingOut => s.modLaunch lk (fun l => { l with suspendNext := false })
    | _ => s)

def execPreemptCancel (queue : Nat) (s : State) : Out := preempt s queue 3 (fun s lk _ => cancelLaunch s lk)

/-- QSTAT of R315. -/
def qstat (s : State) (k : Nat) : DWord :=
  let q := s.queue k
  let st := match q.st with | .off => 0 | .idle => 1 | .active => 2 | .held => 3 | .stopped => 4
  let live := (s.launches.filter (fun p => p.2.queue == k && p.2.inst.isNone)).length + (s.insts.filter (fun p => p.2.queue == k)).length
  BitVec.ofNat 64 (st + q.stopcode % 2 ^ 8 * 2 ^ 8 + q.expseq % 2 ^ 16 * 2 ^ 16 + live % 2 ^ 16 * 2 ^ 32 + q.retries % 2 ^ 7 * 2 ^ 48)

/-! ### The register block (R314 to R316, R320, R322) -/

/-- A 64-B store is examined on arrival; an idle queue looks at its slot again, be the store kept or not (R320 to R322). -/
def storePacket (s : State) (k : Nat) (bs : List Byte) : State :=
  let q := s.queue k
  let x := leNat bs
  if pkWellFormed x && decide ((pkSeq x + 2 ^ 16 - q.expseq) % 2 ^ 16 ≤ 32767) then
    s.modQueue k (fun q => { q with inline := some bs, st := if q.st = .idle then .active else q.st })
  else telCount (s.modQueue k (fun q => { q with st := if q.st = .idle then .active else q.st })) q.part (queueDie k) 0xB 1

/-- A function of the host reaches a queue's block: the physical one every queue's, a virtual one its partition's while the function
is enabled (R313, R371, R374). -/
def reachesQueue (s : State) (fn k : Nat) : Bool :=
  fn == 0 || ((s.queue k).part + 1 == fn && (tfind s.queues k).isSome && (s.part (fn - 1)).st != .free)

/-- A store to a launch register, by a function that reaches its queue (`Act.launchStore`). -/
def execLaunchRegisterStore (queue : Nat) (bytes : List Byte) (s : State) : Out :=
  let q := s.queue queue
  if hostDown s (queueDie queue) then .next (atHost s (queueDie queue) s)
  else if bytes.length ≠ 64 then .next (telCount s q.part (queueDie queue) 0xB 1)
  else if (s.part q.part).gated then .next (s.modQueue queue (fun q => { q with latch := some bytes }))
  else .next (storePacket s queue bytes)

/-- QCFG and QRING allow the queue to start. -/
def queueConfigOk (s : State) (q : Queue) : Bool :=
  let size := 64 * ringPackets q
  decide (q.rsize ≤ 12) && q.ring.toNat % size == 0 &&
    (match ptrSpace q.ring with
     | 0 => decide (ptrOff q.ring < 2 ^ 57)
     | 4 =>
       let w := window s q.part (ptrWin q.ring)
       winValid w && w.flags.getLsbD 1 && decide (ptrWinOff q.ring + size ≤ w.size.toNat)
     | _ => false)

/-- The fields of a QCFG value. -/
def qcfgFields (q : Queue) (v : DWord) : Queue :=
  let n := v.toNat
  { q with part := bitsAt n 0 4, rsize := bitsAt n 4 4, en := flag n 8, classmax := bitsAt n 9 3, seq0 := bitsAt n 16 16 }

def qcfgSet (s : State) (k : Nat) (v : DWord) : State :=
  let q := s.queue k
  if q.en || !v.getLsbD 8 then s
  else
    let q := qcfgFields q v
    let s := s.setQueue k { q with st := .active, expseq := q.seq0, lap := q.lap + (decide (q.seq0 < q.expseq)).toNat, inline := none, cur := none, retries := 0, stopcode := 0 }
    if queueConfigOk s q then s else queueStop s k 3 0

/-- A write of QCFG that clears EN: accepted launches run on. -/
def qcfgClear (s : State) (k : Nat) (v : DWord) : State :=
  let q := s.queue k
  if !q.en || v.getLsbD 8 then s
  else s.setQueue k { qcfgFields q v with st := .off, stopcode := 0, cur := none, waiting := false, xfering := false, dropping := none, retries := 0 }

/-- A stopped queue fetches again, at the next packet with SKIP. -/
def queueGo (s : State) (k : Nat) (skip : Bool) : State :=
  s.modQueue k (fun q => if q.st = .stopped then
    { (if skip then q.seqNext else q) with st := .active, stopcode := 0, retries := 0 } else q)

/-- A store of 8 B in a queue's block. QCFG without a change of EN, and QRING, hold what is written; QCTL acts; QSTAT is
read-only. `pf`: through the physical function. -/
def queueWrite (s : State) (pf : Bool) (k off : Nat) (v : DWord) : State :=
  let q := s.queue k
  if off = 0 then
    if !pf then s
    else if q.en = v.getLsbD 8 then s.setQueue k (qcfgFields q v)
    else if q.en then qcfgClear s k v
    else qcfgSet s k v
  else if off = 8 then s.setQueue k { q with ring := v }
  else if off = 0x18 then
    if v.getLsbD 1 then queueGo s k true else if v.getLsbD 0 then queueGo s k false else s
  else s

/-- The store reaches the block: lost where the die cannot be reached; one of 8 B to the launch register is discarded and counted; held
while the aperture is gated, then performed (R316, R376, R379). -/
def blockWrite (s : State) (pf : Bool) (k off : Nat) (v : DWord) : State :=
  let p := (s.queue k).part
  if hostDown s (queueDie k) then atHost s (queueDie k) s
  else if 0x40 ≤ off then telCount s p (queueDie k) 0xB 1
  else if (s.part p).gated then { s with agenda := .event (.apertureUngate p) :: .block pf k off v :: s.agenda }
  else queueWrite s pf k off v

/-- A write of QCFG that sets EN. -/
def execQcfgEnSet (queue : Nat) (v : DWord) (s : State) : Out :=
  .next (if (s.queue queue).en || !v.getLsbD 8 then s else blockWrite s true queue 0 v)

/-- A write of QCFG that clears EN. -/
def execQcfgEnClear (queue : Nat) (v : DWord) (s : State) : Out :=
  .next (if !(s.queue queue).en || v.getLsbD 8 then s else blockWrite s true queue 0 v)

def execQctlResume (queue : Nat) (s : State) : Out := .next (blockWrite s true queue 0x18 1)

def execQctlSkip (queue : Nat) (s : State) : Out := .next (blockWrite s true queue 0x18 2)

end Sys2Proof.Machine
end

