-- ==== Sys2Proof/Machine/Sched.lean ====
section
/-! DEFINITION. Placement, scheduler decisions, pre-emption and the completion of launches (R183, R298, R326, R328, R329, R335,
R336). -/

namespace Sys2Proof.Machine

/-! ### Placement (R328, R329) -/

/-- The launch keeps its cores. -/
def onCores (l : Launch) : Bool := match l.st with | .running => true | .swappingOut => true | .ending => true | _ => false

/-- A core that no launch keeps, but for those in `but`, whose engine no other launch holds, of a cluster that is not draining
(R422). -/
def coreFree (s : State) (lk : Nat) (noeng : Bool) (but : List Nat) (c : Nat) : Bool :=
  !(s.cluster (clusterOf c)).draining && s.launches.all (fun p => !(onCores p.2 && p.2.cores.contains c) || but.contains p.1) &&
    (noeng || (match (s.cluster (clusterOf c)).holder with
      | none => true
      | some h => h == lk || but.contains h))

/-- The cores a ready launch would take, with the cores of the launches in `but` counted free and those in `taken` not. -/
def wouldTake (s : State) (lk : Nat) (l : Launch) (but taken : List Nat) : Option (List Nat) :=
  let free (c : Nat) : Bool := coreFree s lk l.r.noeng but c && !taken.contains c
  if l.everPlaced then (if l.cores.all free then some l.cores else none) else placeOn s l.part l.r free

def deadlinePast (s : State) (l : Launch) : Bool := l.r.deadline != 0 && decide (l.r.deadline ≤ (s.die l.die).dlclk)

/-- The shadow bank of a core is free to stage groups into (R366 step 3). -/
def shadowFree (s : State) (c : Nat) : Bool := (coreGroups s c).all (fun p => p.2.swap != .staged && p.2.swap != .spilling)

/-- A launch placed at or after its diversion time starts diverted (R298). -/
def divertPast (s : State) (lk die : Nat) : State :=
  match tfind s.launches lk with
  | none => s
  | some l =>
    if divertible l && l.cores.any (fun c => dieOfCore c == die) && !l.divDies.contains die && decide (divTime l ≤ (s.die die).dlclk) then
      divertDie s lk l die
    else s

def ovfBytes (p : Part) : Nat := p.povfsize * 2 ^ 20

/-- Memory that firmware addresses physically: object tables, stage-2 tables, overflow regions, context save areas (R370). -/
def firmwareAreas (s : State) : List (Nat × Nat) :=
  s.fw.areas ++ (s.parts.filter (fun p => p.2.st != .free)).map (fun p => (p.2.otpa, 2 ^ 21)) ++
    s.parts.map (fun p => (p.2.povfbase, ovfBytes p.2)) ++ s.launches.flatMap (fun p => p.2.saves.map (fun a => (a.2, saveBytes)))

/-- Regions [a, a + n) and [b, b + m) share an address. -/
def meets (a n b m : Nat) : Bool := decide (a < b + m) && decide (b < a + n) && n != 0 && m != 0

/-- From address `a` on, the first block of `unit` bytes that meets none of the regions. -/
def clearOf (unit : Nat) (taken : List (Nat × Nat)) : Nat → Nat → Nat
  | 0, a => a
  | fuel + 1, a =>
    match taken.find? (fun r => meets a unit r.1 r.2) with
    | none => a
    | some r => clearOf unit taken fuel ((r.1 + r.2 + unit - 1) / unit * unit % 2 ^ 40)

/-- A block of memory for firmware: a free place apart from its other areas and from what S2MAP has mapped (R370; log entry 24). -/
def firmwareBlock (s : State) (unit : Nat) : Nat × State :=
  let (v, s) := freeValue s
  let taken := firmwareAreas s ++ s.fw.mapped
  (clearOf unit taken (2 * taken.length + 2) (v.toNat % (2 ^ 40 / unit) * unit), s)

/-- Firmware gives the launch a save area for a core (R367, R370). -/
def saveArea (lk : Nat) (s : State) (c : Nat) : State :=
  let (a, s) := firmwareBlock s saveBytes
  s.modLaunch lk (fun l => { l with saves := tset c a l.saves })

/-- All groups of a ready launch are placed together: staged to start under R17, or from their saved contexts. -/
def place (s : State) (lk : Nat) (l : Launch) (cores : List Nat) : State :=
  let now := (s.die l.die).dlclk
  let s :=
    if l.everPlaced then
      { s with groups := tmap (fun _ g => if g.launch == lk && g.swap == .out then { g with swap := .staged } else g) s.groups }
    else
      let first := s.nextId
      let s := cores.zipIdx.foldl (fun s p => stageGroup s lk l p.1 p.2) s
      let s := cores.foldl (saveArea lk) s
      let s := match l.inst with
        | some gi => modInst s gi (fun g => if g.start = 0 then { g with start := now } else g)
        | none => s
      s.modLaunch lk (fun l => { l with token := first })
  let s := s.modLaunch lk (fun l => { l with st := .running, cores, everPlaced := true, placedAt := s.clock
                                             startTime := if l.startTime = 0 then now else l.startTime })
  let s := (cores.map clusterOf).eraseDups.foldl engineTo s
  (List.range nDies).foldl (fun s d => divertPast s lk d) s

/-! ### Pre-emption (R336) -/

/-- Core clocks of 100 µs on a die. -/
def hundredUs (s : State) (die : Nat) : Nat := (s.die die).fuse.cclk * 100

/-- A launch may give its cores to another of its partition (R336), unless a cluster of it drains (R422). -/
def mayPreempt (s : State) (x v : Nat × Launch) : Bool :=
  let cx := effClass s x.1 x.2
  let cv := effClass s v.1 v.2
  let now (p : Nat × Launch) : Nat := (s.die p.2.die).dlclk
  v.2.st == .running && v.2.swapAsked.isNone && v.2.part == x.2.part &&
    !drains s v.2 &&
    (decide (cv < cx) || (cv == cx && decide (slackAt s x.1 x.2 (now x) < slackAt s v.1 v.2 (now v)))) &&
    decide (v.2.placedAt + hundredUs s v.2.die ≤ s.clock)

/-- The order in which victims are added. -/
def victimBefore (s : State) (a b : Nat × Launch) : Bool :=
  let slack (p : Nat × Launch) : Int := slackAt s p.1 p.2 (s.die p.2.die).dlclk
  if slack a ≠ slack b then decide (slack b < slack a)
  else if effClass s a.1 a.2 ≠ effClass s b.1 b.2 then decide (effClass s a.1 a.2 < effClass s b.1 b.2)
  else decide (b.2.order < a.2.order)

/-- The shortest run of victims whose cores let the launch be placed, and those cores. -/
def addVictims (s : State) (lk : Nat) (l : Launch) (leaving taken : List Nat) : List Nat → List (Nat × Launch) → Option (List Nat × List Nat)
  | vs, [] => (wouldTake s lk l (leaving ++ vs) taken).map (fun cs => (vs, cs))
  | vs, v :: rest =>
    match wouldTake s lk l (leaving ++ vs) taken with
    | some cs => some (vs, cs)
    | none => addVictims s lk l leaving taken (vs ++ [v.1]) rest

/-! ### Decisions (R335) -/

/-- Launches of a partition that are leaving their cores. -/
def leavingLaunches (s : State) (part : Nat) : List Nat :=
  (s.launches.filter (fun p => p.2.part == part && (p.2.st == .swappingOut || p.2.swapAsked.isSome))).map (·.1)

/-- One ready launch: placed, or its DEADLINE has passed and it is terminated (R298, R303, R329), or it is staged beside launches that are leaving, or waits for victims to
leave, or nothing can be done for it.
`taken` are the cores kept for launches before it. -/
def decideOne (s : State) (part : Nat) (taken : List Nat) (lk : Nat) (l : Launch) : Option (State × List Nat) :=
  if deadlinePast s l then
    some ((stopLaunch s lk).modLaunch lk (fun l => { l with terminated := true, st := if l.everPlaced then l.st else .ending }), taken)
  else
    match wouldTake s lk l [] taken with
    | some cs => some (place s lk l cs, taken)
    | none =>
      let cands := (s.launches.filter (mayPreempt s (lk, l))).mergeSort (victimBefore s)
      match addVictims s lk l (leavingLaunches s part) taken [] cands with
      | none => none
      | some (vs, cs) =>
        if vs.isEmpty && cs.all (shadowFree s) then some (place s lk l cs, taken)
        else some (vs.foldl (fun s v => requestSwap s v false) s, taken ++ cs)

def decideAll (part : Nat) : State → List Nat → List Nat → State
  | s, _, [] => s
  | s, taken, lk :: rest =>
    match tfind s.launches lk with
    | none => decideAll part s taken rest
    | some l =>
      match decideOne s part taken lk l with
      | none => s
      | some (s, taken) => decideAll part s taken rest

def readyList (s : State) (part : Nat) : List Nat :=
  ((s.launches.filter (fun p => p.2.part == part && !p.2.cancelled && !p.2.terminated &&
    (match p.2.st with | .ready _ => true | _ => false))).mergeSort (readyBefore s)).map (·.1)

/-- The ready launches of a partition are taken in order, until one can neither be placed nor be placed by pre-emption. -/
def execSchedulerDecision (die part : Nat) (s : State) : Out :=
  .next (if (s.die die).fuse.present then decideAll part s [] (readyList s part) else s)

/-! ### Completion (R326) -/

/-- Every group of the launch has exited or stopped. -/
def groupsEnded (s : State) (lk : Nat) (l : Launch) : Bool :=
  if !l.everPlaced then l.cancelled || l.terminated
  else (launchThreads s lk none).isEmpty && l.ctx.all (fun p => p.2.threads.all (fun q => q.2.run == .exited))

/-- Nothing the launch's threads had accepted is still under way. Held store-buffer entries end with a launch that was stopped
(R180, R303). -/
def workEnded (s : State) (lk : Nat) (l : Launch) : Bool :=
  s.cores.all (fun p => p.2.stores.all (fun e => e.launch != lk || (e.held && (l.cancelled || l.terminated || l.heldFault))) &&
      p.2.loads.all (fun e => e.launch != lk)) &&
    s.copies.all (fun p => p.2.launch != lk) && s.rounds.all (fun p => p.2.launch != lk) &&
    s.clusters.all (fun p => (p.2.table ++ p.2.posted).all (fun e => e.launch != lk)) &&
    s.rels.all (fun p => p.2.launch != lk) && s.pubs.all (fun p => p.2.launch != lk) && s.emits.all (fun p => p.2.launch != lk) &&
    l.eng.all (fun p => p.2.table.isEmpty)

/-- Held entries of the launch are discarded, and its handles become stale. -/
def dropHeld (s : State) (lk : Nat) : State :=
  s.cores.foldl (fun s p => (p.2.stores.filter (fun e => e.launch == lk && e.held)).foldl (fun s e => dropStore s p.1 e) s) s

def heldLeft (s : State) (lk : Nat) : Bool := s.cores.any (fun p => p.2.stores.any (fun e => e.launch == lk && e.held))

/-- Its welt tags are freed; operands they kept are discarded. -/
def freeTags (s : State) (lk : Nat) : State :=
  let mine := s.welts.filter (fun p => p.2.launch == lk)
  let orphaned := mine.any (fun p => !p.2.kept.isEmpty)
  { s with welts := tkeep (fun _ w => w.launch != lk) s.welts }.modLaunch lk (fun l => { l with orphan := l.orphan || orphaned })

/-- The launch's engines, groups, threads and copy tags are free. -/
def releaseUnits (s : State) (lk : Nat) (l : Launch) : State :=
  let s := (s.clusters.filter (fun p => p.2.holder == some lk)).foldl (fun s p => engineReset s p.1) s
  let gs := (s.groups.filter (fun p => p.2.launch == lk)).map (·.1)
  let s := if onCores l then l.cores.foldl (fun s c => s.modCore c (fun x =>
      { x with tags := [], cross := x.cross.filter (fun y => !gs.contains y.group), olog := (logDrop x (fun e => e.e.launch == lk)).olog })) s else s
  { s with groups := tkeep (fun g _ => !gs.contains g) s.groups
           threads := tkeep (fun _ th => !gs.contains th.group) s.threads }

/-- The release at .sys of a completion: the cores of the launch write back what they hold (R326, R261; DEDUCED, log entry 77). -/
def releaseCores (s : State) (part : Nat) (cores : List Nat) : State := cores.foldl (fun s c => l1FlushAll s c part) s

/-- The completion record is written, and everything the launch held is free. -/
def complete (s : State) (lk : Nat) (l : Launch) : State :=
  let s := releaseCores s l.part l.cores
  let held := heldLeft s lk
  let s := freeTags (dropHeld (s.modLaunch lk (fun l => { l with heldFault := l.heldFault || held })) lk) lk
  let l := (tfind s.launches lk).getD l
  let s := releaseUnits s lk l
  let s := { s with launches := tdel lk s.launches }
  match l.inst with
  | none => completionWrite s l.queue l.part l.r.completion (launchRec l)
  | some gi =>
    match tfind s.insts gi with
    | none => s
    | some g => nodeEnd (completionWrite s g.queue g.part (g.completion + BitVec.ofNat 64 (64 * (l.r.node + 1))) (launchRec l)) gi l

/-- Once its groups have ended a launch is ending; once its accepted work has, it completes. -/
def execLaunchCompletion (launch : Nat) (s : State) : Out :=
  match tfind s.launches launch with
  | none => .next s
  | some l =>
    if !groupsEnded s launch l then .next s
    else if workEnded s launch l then .next (complete s launch l)
    else .next (if l.st = .running then s.modLaunch launch (fun l => { l with st := .ending }) else s)

end Sys2Proof.Machine
end

