-- ==== Sys2Proof/Machine/Driver.lean ====
section
/-! DEFINITION. Partitions, the driver's registers, the mailboxes, links and the host's own accesses (R363, R365, R370 to R387,
R414, R415, R420, R424). A register write is one store of 8 bytes. -/

namespace Sys2Proof.Machine

/-- A launch of the partition is placed, on die `die` if one is given. -/
def placedOn (s : State) (part : Nat) (die : Option Nat) : Bool :=
  s.launches.any (fun p => p.2.part == part && onCores p.2 &&
    (match die with | some d => p.2.cores.any (fun c => dieOfCore c == d) | none => true))

/-- An ignored write of a partition's register (R406). -/
def ignoredWrite (s : State) (part die : Nat) : State := telCount s part die 0xB 1

/-! ### Partition configuration (R372) -/

inductive CfgWrite where
  | set (s : State)
  | notFree
  | refused

/-- Another partition's overflow region shares bytes with [base, base + n). -/
def ovfTaken (s : State) (part base n : Nat) : Bool :=
  s.parts.any (fun q => q.1 != part && meets base n q.2.povfbase (ovfBytes q.2))

/-- The region passes the end of its die's HBM. -/
def ovfPasses (base n : Nat) : Bool := n != 0 && (dieOfPa base != dieOfPa (base + n - 1) || decide (2 ^ 40 ≤ base))

def vnetClass (v : DWord) (i : Nat) : Nat := bitsAt v.toNat (4 * i) 4

def vnetOk (s : State) (part : Nat) (v : DWord) : Bool :=
  (List.range 5).all (fun i => vnetClass v i != 0 &&
    decide (vnetClass v i + ((s.parts.filter (fun q => q.1 != part)).map (fun q => vnetClass q.2.pvnet i)).sum ≤ 64))

/-- A bank range changes: what its granules held is undefined (R252). -/
def setBankRange (s : State) (part die first count : Nat) : State :=
  let old := (s.part part).pbank.getD die (0, 0)
  if old = (first, count) then s
  else
    let s := bankUndefineAll s die old.1 false old.2
    let s := bankUndefineAll s die first false count
    s.modPart part (fun p => { p with pbank := p.pbank.set die (first, count) })

def cfgWrite (s : State) (part off : Nat) (v : DWord) : CfgWrite :=
  let p := s.part part
  let n := v.toNat
  let frozen := p.st != .free
  if off < 0x20 then
    let d := off / 8
    let m := n % 2 ^ 24
    if frozen then .notFree
    else if (List.range 24).any (fun c => flag m c && (!clusterPresent s (clustersPerDie * d + c) ||
        s.parts.any (fun q => q.1 != part && flag (q.2.pclu.getD d 0) c))) then .refused
    else .set (s.setPart part { p with pclu := p.pclu.set d m })
  else if off < 0x40 then
    let d := (off - 0x20) / 8
    let first := n % 2 ^ 7
    let count := bitsAt n 8 7
    if placedOn s part (some d) then .notFree
    else if count != 0 && (decide (bankGranules s d < first + count) ||
        s.parts.any (fun q => q.1 != part && meets first count (q.2.pbank.getD d (0, 0)).1 (q.2.pbank.getD d (0, 0)).2)) then .refused
    else .set (setBankRange s part d first count)
  else if off = 0x40 then
    let base := bitsAt n 20 32 * 2 ^ 20
    if frozen then .notFree
    else if ovfTaken s part base (ovfBytes p) || ovfPasses base (ovfBytes p) then .refused
    else .set (s.setPart part { p with povfbase := base })
  else if off = 0x48 then
    let z := n % 2 ^ 7
    if frozen then .notFree
    else if 64 < z || ovfTaken s part p.povfbase (z * 2 ^ 20) || ovfPasses p.povfbase (z * 2 ^ 20) then .refused
    else .set (s.setPart part { p with povfsize := z })
  else if off = 0x50 then
    let z := n % 2 ^ 10
    if frozen then .notFree
    else if 512 < z + ((s.parts.filter (fun q => q.1 != part)).map (fun q => q.2.pslots)).sum then .refused
    else .set (s.setPart part { p with pslots := z })
  else if off = 0x58 then
    let x := BitVec.ofNat 64 (n % 2 ^ 28)
    if frozen then .notFree
    else if !vnetOk s part x then .refused
    else .set (s.setPart part { p with pvnet := x })
  else if off = 0xF8 then
    .set (s.setPart part { p with refused := p.refused && !v.getLsbD 0, notfree := p.notfree && !v.getLsbD 1 })
  else .set s

/-- A write in a partition configuration block; a dropped one sets its bit and is counted. -/
def configWrite (s : State) (part off : Nat) (v : DWord) : State :=
  let die := if off < 0x20 then off / 8 else if off < 0x40 then (off - 0x20) / 8 else 0
  match cfgWrite s part off v with
  | .set s => s
  | .notFree => ignoredWrite (s.modPart part (fun p => { p with notfree := true })) part die
  | .refused => ignoredWrite (s.modPart part (fun p => { p with refused := true })) part die

/-! ### The partition register block (R377, R380) -/

/-- Held records are tried again (R351). -/
def retryAll (s : State) (part : Nat) : State := retryRecords s part (s.part part).heldRecs.length

/-- A tail beyond FRHEAD, or more than the ring's size behind it, is ignored. -/
def writeTail (s : State) (part : Nat) (v : Word) : State :=
  let p := s.part part
  if (p.frhead - v).toNat ≤ ringSize p then retryAll (s.setPart part { p with frtail := v }) part
  else ignoredWrite s part 0

def execFrtailWrite (part : Nat) (v : Word) (s : State) : Out := .next (writeTail s part v)

/-- The range of an invalidation command, [lo, hi). -/
def invalRange (v : DWord) : Nat × Nat :=
  if v.getLsbD 1 then (0, 2 ^ 57) else (bitsAt v.toNat 12 45 * 4096, (bitsAt v.toNat 12 45 + bitsAt v.toNat 3 9 + 1) * 4096)

/-- A write starts a command unless one runs. A write dropped while BUSY sets ERR, be bit 2 of it set or not (DESIGN CHOICE, log
entry 79). -/
def startInval (old v : DWord) : DWord :=
  let n := v.toNat
  if old.getLsbD 0 then old ||| 4#64
  else
    let err := (old.getLsbD 2 && !v.getLsbD 2).toNat
    BitVec.ofNat 64 (1 + bitsAt n 1 1 * 2 + err * 4 + bitsAt n 3 54 * 8)

def execS1inval (part : Nat) (v : DWord) (s : State) : Out :=
  .next (s.modPart part (fun p => { p with s1inval := startInval p.s1inval v }))

/-- TLB entries of a partition that meet [lo, hi) leave every core. -/
def dropTlb (s : State) (part lo hi : Nat) : State :=
  { s with cores := tmap (fun _ c => { c with
      tlb := c.tlb.filter (fun t => !(t.part == part && decide (t.va < hi) && decide (lo < t.va + t.size))) }) s.cores }

/-- A resume-register action. -/
def resumeWrite (s : State) (part : Nat) (v : DWord) : State :=
  let h := lo32 v
  match bitsAt v.toNat 32 2 with
  | 0 =>
    let r := replay s part h
    resumeDone r.1 part h false r.2
  | 1 => resumeBy .retry part h false s
  | 2 => resumeBy .skip part h false s
  | _ => resumeBy .kill part h false s

/-- One word of a host window entry; the counter starts at 0 when V is set. -/
def winWrite (s : State) (part off : Nat) (v : DWord) : State :=
  let n := off / 32
  let w := window s part n
  let w' := match off % 32 / 8 with
    | 0 => { w with base := v }
    | 1 => { w with size := v }
    | 2 => { w with veraddr := v }
    | _ => { w with flags := BitVec.ofNat 64 (v.toNat % 32), version := if v.getLsbD 0 && !winValid w then 0 else w.version }
  s.modPart part (fun p => { p with wins := tset n w' p.wins })

/-- A write in a partition's register block. -/
def partWrite (s : State) (part off : Nat) (v : DWord) : State :=
  let placed := placedOn s part none
  if off = 0x08 then
    if placed then ignoredWrite s part 0 else retryAll (s.modPart part (fun p => { p with frbase := v })) part
  else if off = 0x10 then
    if placed then ignoredWrite s part 0
    else retryAll (s.modPart part (fun p => { p with frcfg := BitVec.ofNat 64 (v.toNat % 2 ^ 7) })) part
  else if off = 0x20 then writeTail s part (lo32 v)
  else if off = 0x28 then resumeWrite s part v
  else if off = 0x38 then
    if placed then ignoredWrite s part 0 else s.modPart part (fun p => { p with s1root := v })
  else if off = 0x40 then s.modPart part (fun p => { p with s1inval := startInval p.s1inval v })
  else if 0x1000 ≤ off ∧ off < 0x1800 then winWrite s part (off - 0x1000) v
  else s

/-! ### Die configuration (R373) -/

/-- A change of H empties the slices' cache halves, undefines bank memory and takes ranges that no longer fit. -/
def setHsteps (s : State) (die h : Nat) : State :=
  let s := s.modDie die (fun d => { d with hsteps := h, l2 := [], copies := [], l2i := [] })
  let s := bankUndefineAll s die 0 false 64
  { s with parts := tmap (fun _ p =>
      let r := p.pbank.getD die (0, 0)
      if bankGranules s die < r.1 + r.2 then { p with pbank := p.pbank.set die (r.1, 0) } else p) s.parts }

def bankcfg (s : State) (die : Nat) (v : DWord) : State :=
  let h := v.toNat % 16
  let clear (s : State) : State := s.modDie die (fun d => { d with busyrej := d.busyrej && !v.getLsbD 8 })
  if h = (s.die die).hsteps then clear s
  else if decide (8 < h) || s.parts.any (fun p => placedOn s p.1 (some die)) then s.modDie die (fun d => { d with busyrej := true })
  else clear (setHsteps s die h)

def execBankcfgWrite (die : Nat) (v : DWord) (s : State) : Out := .next (atHost s die (bankcfg s die v))

/-- EPID and PORTEN are kept until they take effect; ports named in RETRAIN that are down return to service. -/
def ualcfg (s : State) (die : Nat) (v : DWord) : State :=
  s.modDie die (fun d =>
    let new := (v.toNat % 2 ^ 10, bitsAt v.toNat 10 4)
    { d with ualPend := if new = (d.epid, d.porten) then none else some new
             portsDown := d.portsDown &&& (15 - bitsAt v.toNat 16 4) })

def execUalcfgRetrain (die : Nat) (v : DWord) (s : State) : Out := .next (atHost s die (ualcfg s die v))

/-- No request is on its way between two steps of the model. -/
def execUalcfgTakesEffect (die : Nat) (s : State) : Out :=
  .next (s.modDie die (fun d => match d.ualPend with
    | some (e, p) => { d with epid := e, porten := p, ualPend := none }
    | none => d))

/-! ### HBM stacks (R414, R415) -/

def htrainWrite (s : State) (k : Nat) (v : DWord) : State :=
  if !v.getLsbD 0 then s
  else s.modStack k (fun x => if x.st = 2 ∨ x.st = 3 then { x with st := 1 } else { x with ignored := true })

def execHtrain (stack : Nat) (v : DWord) (s : State) : Out := .next (atHost s (stack / 4) (htrainWrite s stack v))

/-! ### Notify apertures (R379) -/

def execApertureGate (part : Nat) (s : State) : Out :=
  let quiet := s.queues.all (fun q => q.2.part != part || q.2.st == .idle || q.2.st == .off)
  .next (if quiet && (s.part part).st != .free then s.modPart part (fun p => { p with gated := true }) else s)

/-- The latches are replayed in ascending queue number. -/
def execApertureUngate (part : Nat) (s : State) : Out :=
  if !(s.part part).gated then .next s
  else
    let s := s.modPart part (fun p => { p with gated := false })
    .next (s.queues.foldl (fun s q =>
      match q.2.latch with
      | some bs => if q.2.part = part then storePacket (s.modQueue q.1 (fun q => { q with latch := none })) q.1 bs else s
      | none => s) s)

/-! ### Stage-2 tables (R361, R362, R424) -/

/-- A page for a stage-2 table. -/
def firmwarePage (s : State) : Nat × State :=
  let (a, s) := firmwareBlock s 4096
  (a, { s with fw := { s.fw with areas := (a, 4096) :: s.fw.areas } })

def s2Slot (t lvl gpa : Nat) : Nat := t + 8 * (gpa / 2 ^ (12 + 9 * lvl) % 512)

def putEntry (s : State) (a e : Nat) : State := { s with hbm := msets s.hbm a (leBytes 8 e) }

/-- A leaf of level `lvl` + 1 becomes a table of 512 leaves of level `lvl` with its rights. -/
def splitLeaf (s : State) (a e lvl : Nat) : Nat × State :=
  let (t, s) := firmwarePage s
  let leafBits := e % 32
  let base := bitsAt e 12 40 * 4096
  let s := (List.range 512).foldl (fun s i => putEntry s (t + 8 * i) (base + i * 2 ^ (12 + 9 * lvl) + leafBits)) s
  (t, putEntry s a (t + 1))

/-- The level-0 table for a GPA below the table `t` of level `lvl`; tables that are missing are made when `make`. -/
def s2Table (gpa : Nat) (make : Bool) : Nat → State → Nat → State × Option Nat
  | 0, s, t => (s, some t)
  | l + 1, s, t =>
    let a := s2Slot t (l + 1) gpa
    let e := leGet s.hbm a 8
    if flag e 0 then
      if flag e 1 then
        let (t', s) := splitLeaf s a e l
        s2Table gpa make l s t'
      else s2Table gpa make l s (bitsAt e 12 40 * 4096)
    else if make then
      let (t', s) := firmwarePage s
      s2Table gpa make l (putEntry { s with hbm := mclear s.hbm t' 4096 } a (t' + 1)) t'
    else (s, none)

/-- Entries of `n` pages from a GPA: mapped from `pa` on with the bits given, or cleared. -/
def s2Pages (part : Nat) (bits : Option Nat) : Nat → State → Nat → Nat → State
  | 0, s, _, _ => s
  | n + 1, s, gpa, pa =>
    let s := match s2Table gpa bits.isSome 4 s (s.part part).s2root with
      | (s, some t) => putEntry s (s2Slot t 0 gpa) (match bits with | some b => pa + b | none => 0)
      | (s, none) => s
    s2Pages part bits n s (gpa + 4096) (pa + 4096)

/-! ### The mailboxes (R385, R424) -/

/-- The response half, and vector 2 of the physical function; the bytes of ARGS of a response are not stated (log entry 25). -/
def mboxRespond (s : State) (die op seq part status : Nat) : State :=
  let (ws, s) := freeWords s 12
  let b := leBytes 1 op ++ leBytes 1 status ++ leBytes 2 seq ++ leBytes 4 part ++ bytesOfWords ws
  let full := b ++ leBytes 2 (crc16 b) ++ leBytes 2 0 ++ leBytes 4 (0xC0B1 * 2 ^ 16 + seq % 2 ^ 16)
  let s := s.modDie die (fun d => { d with mboxRsp := full, mboxOut := none })
  { s with msix := (0, 2) :: s.msix }

/-- A request: ignored and counted while one is outstanding, else carried out. `f` answers a status, or none when the response
follows later. -/
def mboxRequest (s : State) (die op seq part : Nat) (f : State → State × Option Nat) : State :=
  if hostDown s die then atHost s die s
  else if (s.die die).mboxOut.isSome then ignoredWrite s part die
  else
    let (s, st) := f (s.modDie die (fun d => { d with mboxOut := some (op, seq, part) }))
    match st with
    | some x => mboxRespond s die op seq part x
    | none => s

/-- While an activation runs the secure core does no stage-2 work: a request to map, unmap, set the root or answer a notice stays
outstanding, and is carried out at its end (R426; DEDUCED, log entry 27). -/
def s2Paused (s : State) (die op seq part : Nat) (i : OutReq) (f : Out) : Out :=
  if s.fw.activating && !hostDown s die && (s.die die).mboxOut.isNone then
    .next { s.modDie die (fun d => { d with mboxOut := some (op, seq, part) }) with fw := { s.fw with waiting := s.fw.waiting ++ [i] } }
  else f

def pages (n : Nat) : Bool := n % 4096 == 0

/-- A physical range meets an overflow region or another area of firmware, which no stage 2 maps (R370, R372). -/
def hitsFirmware (s : State) (pa n : Nat) : Bool := (firmwareAreas s).any (fun r => meets pa n r.1 r.2)

def execS2map (die part seq gpa pa bytes : Nat) (r w x : Bool) (s : State) : Out :=
  s2Paused s die 1 seq part (.s2map die part seq gpa pa bytes r w x) <| .next (mboxRequest s die 1 seq part (fun s =>
    if !pages gpa || !pages pa || !pages bytes || decide (2 ^ 52 < gpa + bytes) || decide (2 ^ 52 < pa + bytes) ||
        hitsFirmware s pa bytes then (s, some 2)
    else if (s.part part).s2root = 0 then (s, some 6)
    else
      let s := { s with fw := { s.fw with mapped := (pa, bytes) :: s.fw.mapped } }
      (s2Pages part (some (3 + 4 * r.toNat + 8 * w.toNat + 16 * x.toNat)) (bytes / 4096) s gpa pa, some 0)))

/-- The entries are cleared and an invalidation starts; the response follows its completion. -/
def execS2unmap (die part seq gpa bytes : Nat) (s : State) : Out :=
  s2Paused s die 2 seq part (.s2unmap die part seq gpa bytes) <| .next (mboxRequest s die 2 seq part (fun s =>
    if !pages gpa || !pages bytes || decide (2 ^ 52 < gpa + bytes) then (s, some 2)
    else
      let s := if (s.part part).s2root = 0 then s else s2Pages part none (bytes / 4096) s gpa 0
      (s.modPart part (fun p => { p with s2inval := p.s2inval ||| 3 }), none)))

def execS2root (die part seq pa : Nat) (s : State) : Out :=
  s2Paused s die 3 seq part (.s2root die part seq pa) <| .next (mboxRequest s die 3 seq part (fun s =>
    if pa % 128 ≠ 0 ∨ 2 ^ 40 ≤ pa then (s, some 2)
    else if placedOn s part none then (s, some 6)
    else (s.modPart part (fun p => { p with s2root := pa }), some 0)))

/-- Requests that wait for a stage-2 invalidation of a partition are answered. -/
def answerUnmaps (s : State) (part : Nat) : State :=
  s.dies.foldl (fun s d => match d.2.mboxOut with
    | some (op, seq, p) => if op = 2 ∧ p = part then mboxRespond s d.1 op seq p 0 else s
    | none => s) s

/-- Every TLB entry that an invalidation command covers has been discarded; a stage-2 command takes all of the partition's, for
an entry names VAs (R363). -/
def execInvalidationComplete (part : Nat) (stage2 : Bool) (s : State) : Out :=
  let p := s.part part
  if stage2 then
    if !p.s2inval.getLsbD 0 then .next s
    else .next (answerUnmaps (dropTlb (s.setPart part { p with s2inval := p.s2inval &&& ~~~(1#64) }) part 0 (2 ^ 57)) part)
  else if !p.s1inval.getLsbD 0 then .next s
  else
    let r := invalRange p.s1inval
    .next (dropTlb (s.setPart part { p with s1inval := p.s1inval &&& ~~~(1#64) }) part r.1 r.2)

/-! ### Creating and destroying partitions (R5, R371) -/

/-- The areas of R370 that firmware addresses physically, and the bank ranges. -/
def zeroAreas (s : State) (part : Nat) : State :=
  let p := s.part part
  let s := { s with hbm := mclear (mclear s.hbm p.otpa (2 ^ 21)) p.povfbase (ovfBytes p) }
  (List.range nDies).foldl (fun s d => bankUndefineAll s d (p.pbank.getD d (0, 0)).1 true (p.pbank.getD d (0, 0)).2) s

/-- Where firmware holds the object table and maps it is not stated: free places (log entry 24). -/
def createPart (s : State) (part : Nat) (test : Bool) : State :=
  let (a, s) := firmwareBlock s (2 ^ 21)
  let (b, s) := freeValue s
  let s := s.modPart part (fun p => { p with
    st := .active, test, pevent := 0, otpa := a, potgpa := (b.toNat % (2 ^ 31 - 1) + 1) * 2 ^ 21 })
  zeroAreas s part

def execPcreate (die part seq : Nat) (test : Bool) (s : State) : Out :=
  .next (mboxRequest s die 4 seq part (fun s =>
    let p := s.part part
    if p.st ≠ .free ∨ s.fw.activating then (s, some 6)
    else if p.pclu.all (· == 0) then (s, some 2)
    else (createPart s part test, some 0)))

/-- Nodes of a graph instance that were never launched end CANCELLED (DEDUCED, log entry 23). -/
def cancelInst (s : State) (gi : Nat) : State :=
  match tfind s.insts gi with
  | none => s
  | some g =>
    let open' := (g.nodes.zipIdx.filter (fun p => p.1.launched.isNone && !p.1.done)).map (·.2)
    instEnd (open'.foldl (fun s n =>
      completionWrite (modNode s gi n (fun x => { x with done := true, status := 5 })) g.queue g.part
        (g.completion + BitVec.ofNat 64 (64 * (n + 1))) { status := 5, seq := n }) s) gi

/-- A copy or send of the partition ends in error phase CANCELLED. -/
def cancelCopy (s : State) (id : Nat) (cp : Copy) : State := copyDone (if cp.mc then mcFail s cp 6 else s) id cp 6 0

def destroyPart (s : State) (part : Nat) : State :=
  let s := s.modPart part (fun p => { p with st := .destroying })
  let s := { s with queues := tmap (fun _ q => if q.part == part then
      { q with en := false, st := .off, stopcode := 0, inline := none, cur := none, retries := 0, latch := none, dropping := none
               waiting := false, xfering := false } else q) s.queues }
  let s := (s.insts.filter (fun p => p.2.part == part)).foldl (fun s p => cancelInst s p.1) s
  let s := (s.launches.filter (fun p => p.2.part == part)).foldl (fun s p => dropHeld (cancelLaunch s p.1) p.1) s
  let s := (s.copies.filter (fun p => p.2.part == part)).foldl (fun s p => cancelCopy s p.1 p.2) s
  { s with welts := tkeep (fun k _ => k / 2 ^ 32 != part) s.welts, rounds := tkeep (fun _ r => r.part != part) s.rounds }

def execPdestroy (die part seq : Nat) (s : State) : Out :=
  .next (mboxRequest s die 5 seq part (fun s =>
    let p := s.part part
    if !(p.st == .active || p.st == .paused) || s.fw.activating then (s, some 6) else (destroyPart s part, some 0)))

/-- Cores of a partition's clusters. -/
def ownedCores (p : Part) : List Nat :=
  (List.range nDies).flatMap (fun d => ((List.range clustersPerDie).filter (fun c => flag (p.pclu.getD d 0) c)).flatMap
    (fun c => (List.range 4).map (fun i => coresPerDie * d + 4 * c + i)))

/-- Once its launches have ended and its queues are OFF the partition is FREE; its areas and scratch ways are zeroed, its
telemetry cleared (R371, R406), and injectors of its cores disarmed for the next owner (R417). -/
def execPartitionFreed (part : Nat) (s : State) : Out :=
  let p := s.part part
  if p.st ≠ .destroying ∨ s.launches.any (fun l => l.2.part == part) ∨ s.insts.any (fun g => g.2.part == part) ∨
      s.queues.any (fun q => q.2.part == part && q.2.st != .off) then .next s
  else
    let s := zeroAreas s part
    let s := (ownedCores p).foldl (fun s c => s.modCore c (fun x => { x with scratch := [], unfilled := 0, inj := [] })) s
    .next (s.modPart part (fun p => { p with st := .free, test := false, potgpa := 0, tel := [], heldRecs := [], loaded := [], gated := false }))

/-! ### Stage-2 faults (R365) -/

/-- The oldest notice is written in the response half while no request is outstanding; its SEQ is not stated (log entry 25). -/
def execS2fault (die : Nat) (s : State) : Out :=
  let d := s.die die
  if d.mboxOut.isSome || s.fw.activating then .next s
  else
    match d.notices with
    | [] => .next s
    | n :: rest =>
      let (v, s) := freeValue s
      let seq := v.toNat % 2 ^ 16
      let b := n.take 2 ++ leBytes 2 seq ++ n.drop 4
      let full := b ++ leBytes 2 (crc16 b) ++ leBytes 2 0 ++ leBytes 4 (0xC0B1 * 2 ^ 16 + seq)
      let s := s.modDie die (fun d => { d with mboxRsp := full, notices := rest })
      .next { s with msix := (0, 2) :: s.msix }

/-- The notice of a handle has been written. -/
def noticeSent (d : Die) (handle : Word) : Bool := !d.notices.any (fun n => fld (leNat n) 0x10 4 == handle.toNat)

/-- Once mapped, the secure core completes a stage-2 invalidation and acts: retry for a precise fault, REPLAY for the others.
Otherwise the thread stays parked, or the entry held. -/
def execS2reply (die part seq : Nat) (handle : Word) (mapped : Bool) (s : State) : Out :=
  s2Paused s die 6 seq part (.s2reply die part seq handle mapped) <| .next (mboxRequest s die 6 seq part (fun s =>
    match (s.die die).stage2Open.find? (fun p => p.1 == handle.toNat) with
    | none => (s, some 6)
    | some (_, precise) =>
      if !noticeSent (s.die die) handle then (s, some 6)
      else
        let s := s.modDie die (fun d => { d with stage2Open := d.stage2Open.filter (fun p => p.1 != handle.toNat) })
        if !mapped then (s, some 0)
        else
          let s := dropTlb s part 0 (2 ^ 57)
          if precise then (resumeBy .retry part handle true s, some 0) else ((replay s part handle).1, some 0)))

/-- A stage-2 request that has waited for the end of an activation. -/
def s2Resume (s : State) (i : OutReq) : State :=
  let free (die : Nat) : State := s.modDie die (fun d => { d with mboxOut := none })
  let run : Out := match i with
    | .s2map die part seq gpa pa bytes r w x => execS2map die part seq gpa pa bytes r w x (free die)
    | .s2unmap die part seq gpa bytes => execS2unmap die part seq gpa bytes (free die)
    | .s2root die part seq pa => execS2root die part seq pa (free die)
    | .s2reply die part seq handle mapped => execS2reply die part seq handle mapped (free die)
    | i => .next { s with fw := { s.fw with waiting := s.fw.waiting ++ [i] } }
  match run with
  | .next s => s
  | _ => s

/-! ### Links (R12, R376, R381, R383) -/

def linkDies : Link → List Nat
  | .lace d => [d]
  | .ual d _ => [d]
  | .bridge a b => if a = b then [a] else [a, b]

def takeDown (s : State) (l : Link) : State :=
  match l with
  | .lace d => s.modDie d (fun x => { x with laceDown := true })
  | .ual d p => s.modDie d (fun x => { x with portsDown := x.portsDown ||| 2 ^ (p % 4) })
  | .bridge a b => if s.fw.bridgesDown.contains (min a b, max a b) then s
    else { s with fw := { s.fw with bridgesDown := s.fw.bridgesDown ++ [(min a b, max a b)] } }

/-- A link under one name. -/
def oneLink : Link → Link
  | .lace d => .lace d
  | .ual d p => .ual d (p % 4)
  | .bridge a b => .bridge (min a b) (max a b)

/-- An access or a copy of the partition that is under way takes the link. -/
def trafficOn (s : State) (part : Nat) (link : Link) : Bool :=
  let takes (c t : Nat) (loc : Loc) : Bool := (linksOf s (dieOfCore c) loc t).contains link
  s.cores.any (fun c =>
      (c.2.loads.map (fun e => (e.launch, e.thread, e.acc)) ++ c.2.stores.map (fun e => (e.launch, e.thread, e.acc))).any (fun e =>
        partOfLaunch s e.1 == part && (match accResolve s c.1 part e.2.2 with | .ok loc => takes c.1 e.2.1 loc | .error _ => false))) ||
    s.copies.any (fun p => p.2.part == part && (p.2.src ++ p.2.dst).any (fun g => takes p.2.core p.2.thread g.loc))

/-- A partition whose traffic uses the link counts the replay, on one die (R406, R417): one that has an access or a copy on it now;
of another the environment decides (log entry 26). -/
def countReplay (s : State) (link : Link) : State :=
  let (v, s) := freeValue s
  s.parts.foldl (fun s' p => if p.2.st != .free && (v.getLsbD (p.1 % 16) || trafficOn s p.1 link) then telCount s' p.1 ((linkDies link).headD 0) 7 1
    else s') s

/-- Failed replays of a link in a row. -/
def replaysOf (s : State) (link : Link) : Nat := ((s.fw.replays.find? (fun p => p.1 == link)).map (·.2)).getD 0

def setReplays (s : State) (link : Link) (n : Nat) : State :=
  let rest := s.fw.replays.filter (fun p => p.1 != link)
  { s with fw := { s.fw with replays := if n = 0 then rest else (link, n) :: rest } }

/-- A flit is replayed; the eighth replay in a row that fails takes the link down (R12). -/
def execFlitReplay (link : Link) (ok : Bool) (s : State) : Out :=
  let ds := linkDies link
  let l := oneLink link
  let s := countReplay (ds.foldl (fun s d => rasCount s d 5 1) s) l
  .next (if ok then setReplays s l 0
    else if replaysOf s l < 7 then setReplays s l (replaysOf s l + 1)
    else takeDown (ds.foldl (fun s d => rasCount s d 7 1) (setReplays s l 0)) link)

def execBridgeRetrain (d1 d2 : Nat) (s : State) : Out :=
  .next { s with fw := { s.fw with bridgesDown := s.fw.bridgesDown.filter (fun p => p != (min d1 d2, max d1 d2)) } }

def execLaceRetrain (die : Nat) (s : State) : Out := .next (s.modDie die (fun d => { d with laceDown := false }))

/-! ### Requests from other endpoints (R381, R382) -/

/-- Offset, bytes, rights of a supported request. -/
def ualShape : UalReq → Option (Nat × Nat × Need)
  | .read off n => if 1 ≤ n ∧ n ≤ 256 ∧ off % 256 + n ≤ 256 then some (off, n, needR) else none
  | .write off bs => if 1 ≤ bs.length ∧ bs.length ≤ 256 ∧ off % 256 + bs.length ≤ 256 then some (off, bs.length, needW) else none
  | .atom _ w off _ =>
    let n := if w then 8 else 4
    if off % n = 0 then some (off, n, needA) else none
  | .cas w off _ _ =>
    let n := if w then 8 else 4
    if off % n = 0 then some (off, n, needA) else none
  | .unsupported => none

/-- The request performs at the home slice. -/
def ualPerform (s : State) (part pa n : Nat) (req : UalReq) : State :=
  let s := homeUse s part pa
  let old := leGet s.hbm pa n
  let put (x : Nat) : State := { s with hbm := msets s.hbm pa (leBytes n x) }
  match req with
  | .write _ bs => { s with hbm := msets s.hbm pa bs }
  | .atom op _ _ b => put (atomNew op (8 * n) old (b.toNat % 2 ^ (8 * n)))
  | .cas _ _ c x => if old = c.toNat % 2 ^ (8 * n) then put (x.toNat % 2 ^ (8 * n)) else s
  | _ => s

/-- What the response carries: the bytes read, or an atomic's old value. -/
def ualData (s : State) (pa n : Nat) : UalReq → List Byte
  | .write .. => []
  | _ => locRead s (.hbm pa) n

/-- A request that cannot be served gets an error response and is counted; one to a stack that trains is held there (R415). -/
def ualServe (s : State) (die part : Nat) (req : UalReq) : State :=
  let fail (s : State) : State := { telCount s part die 8 1 with reply := some .error }
  let hold : State := { s with fw := { s.fw with waiting := s.fw.waiting ++ [.ual die part req] } }
  match ualShape req with
  | none => fail s
  | some (off, n, need) =>
    let va := off % 2 ^ 50
    if (walkReads s part va).any (fun a => hbmHeld s (.hbm a)) then hold
    else
      match walk s part false va need with
      | .error f => fail (if f.cause = 5 then countWalkUe s part va else s)
      | .ok (pa, _) =>
        if (placeFault s die (.hbm pa)).isSome then fail s
        else if hbmHeld s (.hbm pa) then hold
        else match ueDetail s (.hbm pa) n with
          | some d => fail (countUeAt s (.hbm pa) d)
          | none => { ualPerform s part pa n req with reply := some (.done (ualData s pa n req)) }

def execUalinkRequest (die part : Nat) (req : UalReq) (s : State) : Out := .next (ualServe s die part req)

/-! ### BAR 4 (R374) -/

/-- A host access to device memory; a read that meets an uncorrectable error, or a stack whose training failed, completes with
Completer Abort, and a write there is lost; one to a stack that trains is held there (R415). -/
def bar4Access (s : State) (pa : Nat) (write : Option (List Byte)) (bytes : Nat) (ue : Bool) : State :=
  let n := match write with | some bs => bs.length | none => bytes
  let ends (s : State) (a : HostAns) : State := { s with answer := some a }
  let at' (f : State → Loc → Bool) : Bool := f s (.hbm pa) || f s (.hbm (pa + n - 1))
  if !paPresent s pa || !paPresent s (pa + n - 1) then ends s .unsupported
  else if hostDown s (dieOfPa pa) then ends s .abort
  else if at' hbmHeld then { s with fw := { s.fw with waiting := s.fw.waiting ++ [.bar4 pa write bytes ue] } }
  else
    match write with
    | some bs => if at' hbmFailed then s else { s with hbm := msets s.hbm pa bs }
    | none =>
      if at' hbmFailed then ends s .abort
      else match if ue then some 1 else ueDetail s (.hbm pa) n with
        | some d => ends (countUeAt s (.hbm pa) d) .abort
        | none => ends s (.data (locRead s (.hbm pa) n))

def execBar4Access (pa : Nat) (write : Option (List Byte)) (bytes : Nat) (ue : Bool) (s : State) : Out :=
  .next (bar4Access s pa write bytes ue)

/-! ### The end of a training (R415) -/

/-- A request of the outside that a controller has held goes on. -/
def heldResume (s : State) (i : OutReq) : State :=
  match i with
  | .ual die part req => ualServe s die part req
  | .bar4 pa write bytes ue => bar4Access s pa write bytes ue
  | i => { s with fw := { s.fw with waiting := s.fw.waiting ++ [i] } }

/-- Held accesses then perform, or end with DATA_ERROR; those from outside the part now, in their order of arrival. -/
def execHbmTrainingDone (stack : Nat) (ok : Bool) (s : State) : Out :=
  if (s.stack stack).st ≠ 1 then .next s
  else
    let s' := s.modStack stack (fun x => { x with st := if ok then 2 else 3, ecsen := x.ecsen || ok })
    .next (s.fw.waiting.foldl heldResume { s' with fw := { s'.fw with waiting := [] } })

/-! ### PTP (R386, R387) -/

/-- A lock change is counted for the partitions that use the die. -/
def lockChange (s : State) (die sel : Nat) : State :=
  s.parts.foldl (fun s p => if p.2.pclu.getD die 0 != 0 then telCount s p.1 die sel 1 else s) s

def setLock (s : State) (die : Nat) (on : Bool) : State :=
  if (s.die die).locked = on then s
  else lockChange (s.modDie die (fun d => { d with locked := on })) die (if on then 0xC else 0xD)

/-- One die at a sync interval: within ±50 ns of the grandmaster or not. -/
def syncDie (s : State) (die : Nat) (within : Bool) : State :=
  if within then
    let s := s.modDie die (fun d => { d with syncRun := d.syncRun + 1 })
    if 8 ≤ (s.die die).syncRun then setLock s die true else s
  else setLock (s.modDie die (fun d => { d with syncRun := 0 })) die false

def unlockAll (s : State) : State :=
  (List.range nDies).foldl (fun s d => setLock (s.modDie d (fun x => { x with syncRun := 0 })) d false) s

/-- Dies within ±50 ns of the grandmaster are within 100 ns of each other (R296). -/
def agreeing (s : State) (within : List Bool) : Bool :=
  let held := s.dies.filter (fun p => p.2.fuse.present && within.getD p.1 false)
  held.all (fun p => held.all (fun q => decide (p.2.dlclk ≤ q.2.dlclk + 100)))

/-- While an activation runs the servo does not discipline the clocks: they run at their last rates, and may fall out of lock (R426,
R427). -/
def execPtpSync (within : List Bool) (s : State) : Out :=
  if !s.fw.ptpcfg.getLsbD 0 then .next (unlockAll s)
  else if s.fw.activating then
    .next ((List.range nDies).foldl (fun s d => if (s.die d).fuse.present && !within.getD d false then syncDie s d false else s) s)
  else if !agreeing s within then .next s
  else
    let s := { s with fw := { s.fw with syncs := s.fw.syncs + 1 } }
    .next ((List.range nDies).foldl (fun s d => if (s.die d).fuse.present then syncDie s d (within.getD d false) else s) s)

def execPtpAnnounceTimeout (s : State) : Out := .next (unlockAll s)

end Sys2Proof.Machine
end

