-- ==== Sys2Proof/Machine/Firmware.lean ====
section
/-! DEFINITION. Recalibration, scrub counts, firmware images, attestation, and the map of the driver's registers (R8, R375, R395,
R412, R414, R420 to R426). -/

namespace Sys2Proof.Machine

/-! ### Recalibration (R421, R422) -/

/-- MGMTCMD with a RESULT. -/
def mgmtWord (v : DWord) (busy : Bool) (result : Nat) : DWord :=
  BitVec.ofNat 64 (v.toNat % 2 ^ 15 + busy.toNat * 2 ^ 15 + result * 2 ^ 16)

def mgmtCluster (v : DWord) : Nat := clustersPerDie * bitsAt v.toNat 13 2 + bitsAt v.toNat 8 5

def mgmtWrite (s : State) (v : DWord) : State :=
  let set (w : DWord) (busy : Bool) : State := { s with fw := { s.fw with mgmtCmd := w, calBusy := busy } }
  if s.fw.calBusy then set (mgmtWord s.fw.mgmtCmd true 1) true
  else if v.toNat % 256 ≠ 1 then set (mgmtWord v false 2) false
  else if clustersPerDie ≤ bitsAt v.toNat 8 5 ∨ !clusterPresent s (mgmtCluster v) then set (mgmtWord v false 2) false
  else (set (mgmtWord v true 0) true).modCluster (mgmtCluster v) (fun k => { k with draining := true })

def execCalvsafe (v : DWord) (s : State) : Out := .next (mgmtWrite s v)

/-- A rail of the run: from 800 mV downward in 5 mV steps. -/
def railValue (v : Nat) : Nat := max 500 (min 800 (v / 5 * 5))

/-- The new table from V_min; none when a step shows mismatches at 800 mV. -/
def newVsafe (vfloor : Nat) : Nat → List (Option Nat) → Option (List Nat)
  | _, [] => some []
  | prev, v :: rest =>
    match v with
    | none => none
    | some m =>
      let x := min 800 (max vfloor (max (railValue m + 20) prev))
      (newVsafe vfloor x rest).map (x :: ·)

/-- The drained cluster has run its patterns, which gave `vmin`. -/
def execCalvsafeRun (vmin : List (Option Nat)) (s : State) : Out :=
  let k := mgmtCluster s.fw.mgmtCmd
  let busy := (coresOfCluster k).any (fun c => (coreGroups s c).any (fun p => p.2.swap != .out))
  if !s.fw.calBusy || busy then .next s
  else
    let table := if vmin.length = 33 then newVsafe (s.cluster k).vfloor 0 vmin else none
    let s := s.modCluster k (fun x =>
      match table with
      | some t => { x with vsafe := t, goal := t.getD x.fstep 800, draining := false }
      | none => { x with draining := false })
    let result := if table.isSome then 0 else 3
    .next { s with fw := { s.fw with mgmtCmd := mgmtWord s.fw.mgmtCmd false result, calBusy := false } }

/-! ### Scrub counts (R412) -/

/-- A valid stage-2 leaf below a table maps the page of a physical address. -/
def tableMaps (s : State) (pa : Nat) : Nat → Nat → Bool
  | 0, t => (List.range 512).any (fun i =>
    let e := leGet s.hbm (t + 8 * i) 8
    flag e 0 && bitsAt e 12 40 == pa / 4096)
  | l + 1, t => (List.range (if l = 3 then 16 else 512)).any (fun i =>
    let e := leGet s.hbm (t + 8 * i) 8
    flag e 0 &&
      (if flag e 1 then bitsAt e 12 40 * 4096 / 2 ^ (12 + 9 * (l + 1)) == pa / 2 ^ (12 + 9 * (l + 1))
       else tableMaps s pa l (bitsAt e 12 40 * 4096)))

/-- Partitions whose stage 2 maps a page, the object table's mapping included. -/
def mappers (s : State) (pa : Nat) : List Nat :=
  (s.parts.filter (fun p => p.2.st != .free &&
    ((p.2.s2root != 0 && tableMaps s pa 4 p.2.s2root) || (p.2.potgpa != 0 && decide (p.2.otpa ≤ pa) && decide (pa < p.2.otpa + 2 ^ 21))))).map (·.1)

/-- The one partition that maps every page of a row. -/
def rowOwner (s : State) (r : EcsReading) : Option Nat :=
  let first := r.rowPa / 4096
  let n := (r.rowPa % 4096 + max 1 r.rowBytes + 4095) / 4096
  match mappers s (first * 4096) with
  | [p] => if (List.range n).all (fun i => mappers s ((first + i) * 4096) == [p]) then some p else none
  | _ => none

def execEcsRead (stack : Nat) (readings : List EcsReading) (s : State) : Out :=
  if !(s.stack stack).ecsen then .next s
  else .next (readings.foldl (fun s r =>
    if 32 ≤ r.channel then s
    else
      let s := s.modStack stack (fun x => { x with ecs := tset r.channel ((tget 0 x.ecs r.channel + r.count) % 2 ^ 32) x.ecs })
      match rowOwner s r with
      | some p => telCount s p (stack / 4) 5 r.count
      | none => rasCount s (stack / 4) 4 r.count) s)

/-! ### Firmware images and attestation (R423, R425, R426) -/

/-- Bytes of an image's header (R423): VERSION in 4, the SHA-384 digest of its body in 48, an Ed25519 signature of 64, an ML-DSA-65
signature of 3,309; the body follows (DESIGN CHOICE of the layout, log entry 27). -/
def imageHeader : Nat := 4 + 48 + 64 + 3309

/-- The body of an image has the digest of its header. -/
def bodyMatches (img : List Byte) : Bool :=
  decide (imageHeader ≤ img.length) && digestBytes (sha384 (img.drop imageHeader)) == (img.drop 4).take 48

/-- The image is read at its physical address and verified: both signatures, whose verdict is `sigOk`, the body's digest, and VERSION
against the fused minimum. Where it fails both, which of the two failures is answered is free (log entry 27). -/
def execFwstage (die seq pa bytes : Nat) (sigOk : Bool) (s : State) : Out :=
  .next (mboxRequest s die 0x10 seq 0 (fun s =>
    if bytes = 0 ∨ !paPresent s pa ∨ !paPresent s (pa + bytes - 1) then (s, some 2)
    else
      let img := mgets s.hbm pa bytes
      let signed := sigOk && bodyMatches img
      let fresh := decide ((s.die die).fuse.minVersion ≤ leNat (img.take 4))
      if signed && fresh then ({ s with fw := { s.fw with held := true, image := sha384 img } }, some 0)
      else if signed then (s, some 4)
      else if fresh then (s, some 3)
      else
        let (v, s) := freeValue s
        (s, some (if v.getLsbD 0 then 3 else 4))))

/-- A pause or resume event: PEVENT, then vector 1 of the partition's function (R378). -/
def partEvent (s : State) (part kind : Nat) : State :=
  let s := s.modPart part (fun p => { p with pevent := BitVec.ofNat 64 (kind + (p.pevent.toNat / 2 ^ 32 + 1) % 2 ^ 32 * 2 ^ 32) })
  { s with msix := (part + 1, 1) :: s.msix }

/-- Partitions move between ACTIVE and PAUSED. -/
def moveParts (s : State) (from' to' : PState) (kind : Nat) : State :=
  (s.parts.filter (fun p => p.2.st == from')).foldl (fun s p =>
    partEvent (s.modPart p.1 (fun p => { p with st := to' })) p.1 kind) s

/-- No queue core handles a packet. -/
def queuesQuiet (s : State) : Bool := s.queues.all (fun q => !(q.2.st == .active && q.2.cur.isSome) && !q.2.xfering)

/-- Steps 1 to 3 of R426, or, while an activation runs and every queue core has ended its packet, steps 4 to 6 (DEDUCED, log
entry 27). Every die's M1 is extended with the image. -/
def execFwactivate (seq : Nat) (s : State) : Out :=
  if s.fw.activating then
    if !queuesQuiet s then .next s
    else
      let s' := s.fw.waiting.foldl s2Resume { s with fw := { s.fw with activating := false, waiting := [] } }
      let s' := moveParts s' .paused .active 2
      .next (match (s'.die 0).mboxOut with
        | some (op, sq, p) => if op = 0x11 then mboxRespond s' 0 op sq p 0 else s'
        | none => s')
  else
    .next (mboxRequest s 0 0x11 seq 0 (fun s =>
      if !s.fw.held then (s, some 6)
      else
        let s := { s with
          fw := { s.fw with activating := true, held := false, images := s.fw.images + 1 }
          dies := tmap (fun _ d => { d with m1 := extend d.m1 s.fw.image }) s.dies }
        (moveParts s .active .paused 1, none)))

/-- Fields of equal width from the least significant bit on. -/
def packBits (w : Nat) : List Nat → Nat
  | [] => 0
  | n :: ns => n % 2 ^ w + 2 ^ w * packBits w ns

/-- Capability registers of a die (R418). -/
def capWord (s : State) (die off : Nat) : Nat :=
  let f := (s.die die).fuse
  match off with
  | 0 => if f.present then 1 + packBits 4 f.nclu * 2 + packBits 6 f.nslice * 2 ^ 13 + packBits 4 f.nsta * 2 ^ 31 + f.lace % 16 * 2 ^ 43 +
      packBits 3 f.ual * 2 ^ 47 else 0
  | 8 => f.cclk % 2 ^ 12
  | 0x10 => f.chmask.toNat % 2 ^ 64
  | 0x18 => f.chmask.toNat / 2 ^ 64
  | _ => 0

/-- The slice map register of a sector: PHYS_i in 6 bits each, the rest zero (R250). -/
def sliceMapReg (s : State) (die sector : Nat) : Nat := packBits 6 (((s.die die).fuse.phys.getD sector []).take 32)

/-- M2 of a die: the digest of its capability registers, slice maps and V_safe tables in use, in this order (R425; DESIGN CHOICE of the
order and widths, log entry 7). -/
def m2 (s : State) (die : Nat) : Digest :=
  sha384 ([0, 8, 0x10, 0x18].flatMap (fun o => leBytes 8 (capWord s die o)) ++
    (List.range 3).flatMap (fun i => leBytes 32 (sliceMapReg s die i)) ++
    (List.range clustersPerDie).flatMap (fun c => (s.cluster (clustersPerDie * die + c)).vsafe.flatMap (leBytes 2)))

/-- Bytes of the part's serial number and signatures: free (log entry 7). -/
def reportBytes (die k : Nat) : Nat → List Byte
  | 0 => []
  | n + 1 => Config.reportByte die k :: reportBytes die (k + 1) n

/-- The report (R425): the nonce, the serial number of the part, the die, M0, M1, M2, an Ed25519 and an ML-DSA-65 signature (DESIGN CHOICE
of the layout, log entry 7). `n` numbers the report. -/
def report (s : State) (die n : Nat) (nonce : List Byte) : List Byte :=
  nonce ++ reportBytes nDies 0 16 ++ leBytes 4 die ++ digestBytes (s.die die).m0 ++ digestBytes (s.die die).m1 ++ digestBytes (m2 s die) ++
    reportBytes die (4096 * n) (64 + 3309)

/-- The report is written in the 8 KiB buffer. -/
def execAttest (die seq pa : Nat) (nonce : List Byte) (s : State) : Out :=
  .next (mboxRequest s die 0x20 seq 0 (fun s =>
    if pa % 4096 ≠ 0 ∨ nonce.length ≠ 32 ∨ !paPresent s pa ∨ !paPresent s (pa + 8191) then (s, some 2)
    else ({ s with hbm := msets s.hbm pa (report s die s.free nonce), free := s.free + 1 }, some 0)))

/-! ### The register map of the functions (R8, R374, R375) -/

def nextOr (s : State) : Out → State
  | .next t => t
  | _ => s

/-- A request whose MARK has been written is checked, then carried out (R424). -/
def mboxPresent (s : State) (die : Nat) (x : Nat) : State :=
  let op := fld x 0 1
  let seq := fld x 2 2
  let part := fld x 4 4
  let a (off n : Nat) : Nat := fld x off n
  let answer (st : Nat) : State := mboxRequest s die op seq (part % 16) (fun s => (s, some st))
  if fld x 0x38 2 ≠ crc16 (leBytes 0x38 x) then answer 7
  else if fld x 1 1 ≠ 0 ∨ 16 ≤ part ∨ fld x 0x3A 2 ≠ 0 ∨ fld x 0x3C 2 ≠ seq then answer 2
  else match op with
    | 1 => nextOr s (execS2map die part seq (a 8 8) (a 0x10 8) (a 0x18 8) (flag x 256) (flag x 257) (flag x 258) s)
    | 2 => nextOr s (execS2unmap die part seq (a 8 8) (a 0x10 8) s)
    | 3 => nextOr s (execS2root die part seq (a 8 8) s)
    | 4 => nextOr s (execPcreate die part seq (flag x 64) s)
    | 5 => nextOr s (execPdestroy die part seq s)
    | 6 => nextOr s (execS2reply die part seq (BitVec.ofNat 32 (a 8 4)) (flag x 96) s)
    | 0x10 =>
      let f := (s.die die).fuse
      nextOr s (execFwstage die seq (a 8 8) (a 0x10 8) (Config.signedBy f.keyEd f.keyMl (mgets s.hbm (a 8 8) imageHeader)) s)
    | 0x11 => if die = 0 then (if s.fw.activating then answer 5 else nextOr s (execFwactivate seq s)) else answer 2
    | 0x20 => nextOr s (execAttest die seq (a 8 8) (leBytes 32 (a 0x10 32)) s)
    | _ => answer 1

/-- A word of the request half. -/
def mboxWrite (s : State) (die off : Nat) (v : DWord) : State :=
  let old := (s.die die).mboxReq
  let old := old ++ leBytes (64 - old.length) 0
  let new := old.take off ++ leBytes 8 v.toNat ++ old.drop (off + 8)
  let s := s.modDie die (fun d => { d with mboxReq := new })
  if off = 0x38 ∧ v.toNat / 2 ^ 48 = 0xC0B1 then mboxPresent s die (leNat new) else s

def railWrite (s : State) (k off : Nat) (v : DWord) : State :=
  if off = 0 then s.modCluster k (fun c => { c with target := v.toNat % 2 ^ 16, hyst := bitsAt v.toNat 16 16, en := v.getLsbD 32 })
  else if off = 8 then writeVset s k v
  else if off = 0x10 then writeFset s k v
  else if off = 0x18 then s.modCluster k (fun c => { c with denied := c.denied && !v.getLsbD 32, badreq := c.badreq && !v.getLsbD 33 })
  else s

def stackWrite (s : State) (k off : Nat) (v : DWord) : State :=
  if off = 0 then s.modStack k (fun x => { x with ignored := x.ignored && !v.getLsbD 3 })
  else if off = 8 then htrainWrite s k v
  else s

/-- A write in BAR 0 of the physical function; a block of a die whose Lace port is down aborts it (R376). -/
def pfWrite (s : State) (off : Nat) (v : DWord) : State :=
  if 0x400 ≤ off ∧ off < 0x500 then
    let d := (off - 0x400) / 0x40
    match off % 0x40 with
    | 0 => atHost s d (bankcfg s d v)
    | 8 => atHost s d (ualcfg s d v)
    | _ => s
  else if off = 0x500 then
    { s with fw := { s.fw with ptpcfg := BitVec.ofNat 64 (v.toNat % 2 ^ 10 + v.toNat / 2 ^ 32 * 2 ^ 32) } }
  else if 0x4000 ≤ off ∧ off < 0x5000 then
    let d := (off - 0x4000) / 0x400
    let c := off % 0x400 / 8
    if corePresent s d c then atHost s d (s.modCore (coresPerDie * d + c) (fun x => { x with degr := v.getLsbD 0 })) else s
  else if 0x10000 ≤ off ∧ off < 0x30000 then partWrite s ((off - 0x10000) / 0x2000) (off % 0x2000) v
  else if 0x30000 ≤ off ∧ off < 0x40000 then configWrite s ((off - 0x30000) / 0x1000) (off % 0x1000) v
  else if 0x40000 ≤ off ∧ off < 0xC0000 then
    let d := (off - 0x40000) / 0x20000
    let p := (off - 0x40000) % 0x20000 / 0x2000
    atHost s d (s.modPart p (fun x => { x with eps := tset (1024 * d + off % 0x2000 / 8) (BitVec.ofNat 64 (v.toNat % 2 ^ 9)) x.eps }))
  else if 0xC0000 ≤ off ∧ off < 0xC8000 then
    let c := off % 0x2000 / 0x100
    if c < clustersPerDie then
      let k := clustersPerDie * ((off - 0xC0000) / 0x2000) + c
      atRail s k (railWrite s k (off % 0x100) v)
    else s
  else if 0xD0000 ≤ off ∧ off < 0xD4000 then
    let k := (off - 0xD0000) / 0x400
    atHost s (k / 4) (stackWrite s k (off % 0x400) v)
  else if 0xF0000 ≤ off ∧ off < 0xF0400 then
    let d := (off - 0xF0000) / 0x100
    if off % 0x100 < 0x40 then atHost s d (mboxWrite s d (off % 0x100) v) else s
  else if off = 0xF1000 then mgmtWrite s v
  else s

/-! ### What reads give (R8, R374 to R377) -/

def regAns (n : Nat) : HostAns := .data (leBytes 8 n)

/-- A register of a die's own: an absent die reads zero, and one whose Lace port is down aborts the read (R376). -/
def dieAns (s : State) (die n : Nat) : HostAns := if (s.die die).laceDown then .abort else regAns (if (s.die die).fuse.present then n else 0)

/-- A word of a queue's block (R314 to R316). -/
def queueWord (s : State) (k off : Nat) : Nat :=
  let q := s.queue k
  match off with
  | 0 => q.part + q.rsize * 2 ^ 4 + q.en.toNat * 2 ^ 8 + q.classmax * 2 ^ 9 + q.seq0 * 2 ^ 16
  | 8 => q.ring.toNat
  | 0x10 => (qstat s k).toNat
  | _ => 0

def partState : PState → Nat
  | .free => 0 | .active => 1 | .paused => 2 | .destroying => 3

/-- A word of a partition's register block (R377, R378, R380). -/
def partWord (s : State) (part off : Nat) : Nat :=
  let p := s.part part
  if off = 0 then partState p.st + p.gated.toNat * 2 ^ 3 + p.test.toNat * 2 ^ 4
  else if off = 0x08 then p.frbase.toNat
  else if off = 0x10 then p.frcfg.toNat
  else if off = 0x18 then p.frhead.toNat
  else if off = 0x20 then p.frtail.toNat
  else if off = 0x30 then p.result.toNat
  else if off = 0x38 then p.s1root.toNat
  else if off = 0x40 then p.s1inval.toNat
  else if off = 0x48 then p.pevent.toNat
  else if 0x1000 ≤ off ∧ off < 0x1800 then
    let w := window s part ((off - 0x1000) / 32)
    match off % 32 / 8 with
    | 0 => w.base.toNat
    | 1 => w.size.toNat
    | 2 => w.veraddr.toNat
    | _ => w.flags.toNat
  else 0

/-- A word of a partition's configuration block (R372). -/
def cfgWord (s : State) (part off : Nat) : Nat :=
  let p := s.part part
  if off < 0x20 then p.pclu.getD (off / 8) 0
  else if off < 0x40 then let r := p.pbank.getD ((off - 0x20) / 8) (0, 0); r.1 + r.2 * 2 ^ 8
  else match off with
    | 0x40 => p.povfbase
    | 0x48 => p.povfsize
    | 0x50 => p.pslots
    | 0x58 => p.pvnet.toNat
    | 0x60 => p.potgpa
    | 0xF8 => p.refused.toNat + p.notfree.toNat * 2
    | _ => 0

/-- LOCKED of BOOTSTAT and PTPSTAT. -/
def lockedBits (s : State) : Nat := packBits 1 ((List.range nDies).map (fun d => (s.die d).locked.toNat))

/-- A die's configuration block (R373); EPID and PORTEN read as last written (R8). -/
def dieWord (s : State) (die off : Nat) : Nat :=
  let d := s.die die
  match off with
  | 0 => d.hsteps + d.busyrej.toNat * 2 ^ 8
  | 8 =>
    let w := d.ualPend.getD (d.epid, d.porten)
    w.1 + w.2 * 2 ^ 10 + d.portsDown * 2 ^ 24
  | _ => 0

/-- A cluster's rail controller (R395). -/
def railReg (s : State) (k off : Nat) : Nat :=
  let c := s.cluster k
  if 0x80 ≤ off ∧ off < 0xC8 then packBits 16 ((List.range 4).map (fun i => c.vsafe.getD ((off - 0x80) / 2 + i) 0))
  else match off with
    | 0 => c.target + c.hyst * 2 ^ 16 + c.en.toNat * 2 ^ 32
    | 8 => c.rcvset
    | 0x10 => c.rcfset
    | 0x18 => c.railmv + c.fstep * 2 ^ 16 + c.settling.toNat * 2 ^ 24 + c.safereq.toNat * 2 ^ 25 + c.change.isSome.toNat * 2 ^ 26 +
        c.denied.toNat * 2 ^ 32 + c.badreq.toNat * 2 ^ 33
    | 0x20 => c.vfloor
    | _ => 0

/-- An HBM stack's block (R414). -/
def stackWord (s : State) (k off : Nat) : Nat :=
  let x := s.stack k
  if off = 0 then x.st + x.ecsen.toNat * 4 + x.ignored.toNat * 8
  else if 0x100 ≤ off ∧ off < 0x200 then tget 0 x.ecs ((off - 0x100) / 8)
  else 0

/-- A partition's telemetry word: the sum over the dies (R406). -/
def telWord (s : State) (part off : Nat) : Nat :=
  if off < 0x80 then ((List.range nDies).map (fun d => (tget 0 (s.part part).tel (16 * d + off / 8)).toNat)).sum % 2 ^ 64 else 0

/-- 8 bytes of the halves of a mailbox (R424). -/
def mboxWord (s : State) (die off : Nat) : Nat :=
  let half (bs : List Byte) : List Byte := (bs ++ leBytes (64 - bs.length) 0).take 64
  leNat (((half (s.die die).mboxReq ++ half (s.die die).mboxRsp).drop off).take 8)

/-- A read in BAR 0 of the physical function. -/
def pfRead (s : State) (off : Nat) : HostAns :=
  if off = 0 then regAns (packBits 8 ((List.range nDies).map (fun d => (s.die d).stage)) + lockedBits s * 2 ^ 32)
  else if 0x100 ≤ off ∧ off < 0x200 then regAns (capWord s ((off - 0x100) / 0x40) (off % 0x40))
  else if 0x200 ≤ off ∧ off < 0x300 then
    let d := (off - 0x200) / 0x40
    dieAns s d (tget 0 (s.die d).ras (off % 0x40 / 8)).toNat
  else if 0x400 ≤ off ∧ off < 0x500 then dieAns s ((off - 0x400) / 0x40) (dieWord s ((off - 0x400) / 0x40) (off % 0x40))
  else if off = 0x500 then regAns s.fw.ptpcfg.toNat
  else if off = 0x508 then regAns (lockedBits s + s.fw.syncs.toNat * 2 ^ 32)
  else if 0x4000 ≤ off ∧ off < 0x5000 then
    let d := (off - 0x4000) / 0x400
    let c := off % 0x400 / 8
    dieAns s d (if corePresent s d c then (s.core (coresPerDie * d + c)).degr.toNat else 0)
  else if 0x10000 ≤ off ∧ off < 0x30000 then regAns (partWord s ((off - 0x10000) / 0x2000) (off % 0x2000))
  else if 0x30000 ≤ off ∧ off < 0x40000 then regAns (cfgWord s ((off - 0x30000) / 0x1000) (off % 0x1000))
  else if 0x40000 ≤ off ∧ off < 0xC0000 then
    let d := (off - 0x40000) / 0x20000
    let p := (off - 0x40000) % 0x20000 / 0x2000
    dieAns s d (tget 0 (s.part p).eps (1024 * d + off % 0x2000 / 8)).toNat
  else if 0xC0000 ≤ off ∧ off < 0xC8000 then
    let d := (off - 0xC0000) / 0x2000
    let c := off % 0x2000 / 0x100
    dieAns s d (if c < clustersPerDie ∧ clusterPresent s (clustersPerDie * d + c) then railReg s (clustersPerDie * d + c) (off % 0x100) else 0)
  else if 0xD0000 ≤ off ∧ off < 0xD4000 then
    let k := (off - 0xD0000) / 0x400
    dieAns s (k / 4) (stackWord s k (off % 0x400))
  else if 0xE0000 ≤ off ∧ off < 0xE4000 then regAns (telWord s ((off - 0xE0000) / 0x400) (off % 0x400))
  else if 0xF0000 ≤ off ∧ off < 0xF0400 then dieAns s ((off - 0xF0000) / 0x100) (mboxWord s ((off - 0xF0000) / 0x100) (off % 0x100))
  else if off = 0xF1000 then regAns s.fw.mgmtCmd.toNat
  else regAns 0

/-- An offset that no BAR of the function holds: its queues' blocks and registers, as REGISTER_WRITE numbers them (R374). -/
def absentReg (s : State) (fn off : Nat) : Bool :=
  if 2 ^ 21 ≤ off then decide (4096 ≤ (off - 2 ^ 21) / 128) || decide (16 < fn) || !reachesQueue s fn ((off - 2 ^ 21) / 128)
  else if fn = 0 then decide (2 ^ 20 ≤ off)
  else decide (16 < fn) || decide (0x10000 ≤ off) || (s.part (fn - 1)).st == .free

/-- The driver reads the slice map register of a sector, whose offset the spec does not give (R250; DESIGN CHOICE, log entry 111). -/
def sliceMapRead (s : State) (die sector : Nat) : State :=
  { s with answer := some (if hostDown s die then .abort else .data (leBytes 32 (sliceMapReg s die sector))) }

/-- A read of 8 B at a multiple of 8; one of a gated aperture waits until it ungates (R379). -/
def hostRead (s : State) (fn off : Nat) : State :=
  let ends (a : HostAns) : State := { s with answer := some a }
  if off % 8 ≠ 0 then s
  else if absentReg s fn off then ends .unsupported
  else if 2 ^ 21 ≤ off then
    let k := (off - 2 ^ 21) / 128
    let p := (s.queue k).part
    if hostDown s (queueDie k) then ends .abort
    else if (s.part p).gated && decide (off % 128 < 0x40) then { s with agenda := .event (.apertureUngate p) :: .hostRead fn off :: s.agenda }
    else ends (regAns (queueWord s k (off % 128)))
  else if fn = 0 then ends (pfRead s off)
  else ends (regAns (partWord s (fn - 1) off))

/-- A store of 8 B of the host to a register. `fn` 0 is the physical function and n the virtual function of partition n − 1;
`off` below 2^21 is an offset in BAR 0, and 2^21 + x is offset x in BAR 2. -/
def execRegisterWrite (fn off : Nat) (v : DWord) (s : State) : Out :=
  if off % 8 ≠ 0 then .next s
  else if absentReg s fn off then .next { s with answer := some .unsupported }
  else if 2 ^ 21 ≤ off then .next (blockWrite s (fn == 0) ((off - 2 ^ 21) / 128) (off % 128) v)
  else if fn = 0 then .next (pfWrite s off v)
  else .next (partWrite s (fn - 1) off v)

end Sys2Proof.Machine
end

