-- ==== Sys2Proof/Machine/Integer.lean ====
section
/-! DEFINITION. Class 0x0: integer arithmetic, comparison, selection and moves (R78 to R89). -/

namespace Sys2Proof.Machine

/-- put of R80: the w-bit pattern of an exact value. -/
def putInt (m : IMod) (v : Int) : Nat :=
  let w := wdBits m.wd
  let v := if m.sat then min (max v (intMin w m.un)) (intMax w m.un) else v
  (v % (2 ^ w : Int)).toNat

/-- A w-bit pattern as it is written to a destination (R79). -/
def dstWords (wd : Wd) (un : Bool) (x : Nat) : List Word :=
  match wd with
  | .w64 => natWords 2 x
  | .w32 => natWords 1 x
  | .w16 => [if un then BitVec.ofNat 32 (x % 2 ^ 16) else (BitVec.ofNat 16 x).signExtend 32]
  | .w8 => [if un then BitVec.ofNat 32 (x % 2 ^ 8) else (BitVec.ofNat 8 x).signExtend 32]

def intRes (m : IMod) (d : Reg) (v : Int) : Res := .reg d (dstWords m.wd m.un (putInt m v))

/-- A two-source integer instruction on unit `unit`. -/
def execInt2 (c : Ctl) (m : IMod) (unit : Nat) (d : Reg) (a b : Src) (f : Int → Int → Int) (s : State) : Out :=
  execAlu c (unitsFor d [unit]) (fun t g => intRes m d (f (srcInt t g m.wd m.un a) (srcInt t g m.wd m.un b))) s

def execIadd (c : Ctl) (m : IMod) (d : Reg) (a b : Src) (s : State) : Out := execInt2 c m 1 d a b (· + ·) s
def execIsub (c : Ctl) (m : IMod) (d : Reg) (a b : Src) (s : State) : Out := execInt2 c m 1 d a b (· - ·) s

def execIadd3 (c : Ctl) (m : IMod) (d : Reg) (a b e : Src) (s : State) : Out :=
  execAlu c (unitsFor d [1]) (fun t g =>
    intRes m d (srcInt t g m.wd m.un a + srcInt t g m.wd m.un b + srcInt t g m.wd m.un e)) s

def execImul (c : Ctl) (m : IMod) (d : Reg) (a b : Src) (s : State) : Out := execInt2 c m 2 d a b (· * ·) s

/-- The upper w bits of the exact product (R82). -/
def execImulhi (c : Ctl) (m : IMod) (d : Reg) (a b : Src) (s : State) : Out :=
  execInt2 c m 2 d a b (fun x y => (x * y).fdiv (2 ^ wdBits m.wd)) s

def execImad (c : Ctl) (m : IMod) (d : Reg) (a b e : Src) (s : State) : Out :=
  execAlu c (unitsFor d [2]) (fun t g =>
    intRes m d (srcInt t g m.wd m.un a * srcInt t g m.wd m.un b + srcInt t g m.wd m.un e)) s

/-- a and b at 32 bits, c and the result at 64 (R82). -/
def execImadw (c : Ctl) (m : IMod) (d : Reg) (a b e : Src) (s : State) : Out :=
  execAlu c (unitsFor d [2]) (fun t g =>
    intRes { m with wd := .w64 } d
      (srcInt t g .w32 m.un a * srcInt t g .w32 m.un b + srcInt t g .w64 m.un e)) s

/-- R83. -/
def idivVal (m : IMod) (a b : Int) : Int :=
  let w := wdBits m.wd
  if b = 0 then (if m.un then 2 ^ w - 1 else if 0 ≤ a then intMax w false else intMin w false)
  else if !m.un ∧ a = intMin w false ∧ b = -1 then intMin w false
  else a.tdiv b

def iremVal (m : IMod) (a b : Int) : Int :=
  if b = 0 then a
  else if !m.un ∧ a = intMin (wdBits m.wd) false ∧ b = -1 then 0
  else a.tmod b

def execIdiv (c : Ctl) (m : IMod) (d : Reg) (a b : Src) (s : State) : Out :=
  execLong c 7 d (fun t g =>
    (dstWords m.wd m.un (putInt m (idivVal m (srcInt t g m.wd m.un a) (srcInt t g m.wd m.un b))), 0)) s

def execIrem (c : Ctl) (m : IMod) (d : Reg) (a b : Src) (s : State) : Out :=
  execLong c 7 d (fun t g =>
    (dstWords m.wd m.un (putInt m (iremVal m (srcInt t g m.wd m.un a) (srcInt t g m.wd m.un b))), 0)) s

def execImin (c : Ctl) (m : IMod) (d : Reg) (a b : Src) (s : State) : Out := execInt2 c m 1 d a b min s
def execImax (c : Ctl) (m : IMod) (d : Reg) (a b : Src) (s : State) : Out := execInt2 c m 1 d a b max s

def execIabs (c : Ctl) (m : IMod) (d : Reg) (a : Src) (s : State) : Out :=
  execAlu c (unitsFor d [1]) (fun t g => intRes m d |srcInt t g m.wd m.un a|) s

def execIneg (c : Ctl) (m : IMod) (d : Reg) (a : Src) (s : State) : Out :=
  execAlu c (unitsFor d [1]) (fun t g => intRes m d (-srcInt t g m.wd m.un a)) s

/-- |a − b| + c modulo 2^w, zero-extended (R84). -/
def execIsad (c : Ctl) (m : IMod) (d : Reg) (a b e : Src) (s : State) : Out :=
  execAlu c (unitsFor d [1]) (fun t g =>
    let v := |srcInt t g m.wd m.un a - srcInt t g m.wd m.un b| + srcInt t g m.wd m.un e
    .nat d 1 (v % (2 ^ wdBits m.wd : Int)).toNat) s

/-- R85. -/
def condHolds (cond : ICond) (a b : Int) : Bool :=
  match cond with
  | .eq => a == b
  | .ne => a != b
  | .lt => decide (a < b)
  | .le => decide (a ≤ b)
  | .gt => decide (b < a)
  | .ge => decide (b ≤ a)

def bopApply (bop : Bop) (x p : Bool) : Bool :=
  match bop with
  | .none => x
  | .and => x && p
  | .or => x || p
  | .xor => x != p

def execIcmp (c : Ctl) (m : IMod) (cond : ICond) (bop : Bop) (qd : PDst) (a b : Src) (p : PSrc) (s : State) : Out :=
  execAlu c [1] (fun t g =>
    { preds := [(qd.val, bopApply bop (condHolds cond (srcInt t g m.wd m.un a) (srcInt t g m.wd m.un b)) (predOf t p))] }) s

def execIsel (c : Ctl) (m : IMod) (d : Reg) (a b : Src) (p : PSrc) (s : State) : Out :=
  execAlu c (unitsFor d []) (fun t g => .nat d m.wd.nregs (srcNat t g m.wd.nregs (if predOf t p then a else b))) s

def execIaddi (c : Ctl) (m : IMod) (d : Reg) (a : Src) (imm : Word) (s : State) : Out :=
  execAlu c (unitsFor d [1]) (fun t g => intRes m d (srcInt t g m.wd m.un a + immInt m.wd m.un imm)) s

def execImuli (c : Ctl) (m : IMod) (d : Reg) (a : Src) (imm : Word) (s : State) : Out :=
  execAlu c (unitsFor d [2]) (fun t g => intRes m d (srcInt t g m.wd m.un a * immInt m.wd m.un imm)) s

def execIcmpi (c : Ctl) (m : IMod) (cond : ICond) (bop : Bop) (qd : PDst) (a : Src) (imm : Word) (p : PSrc) (s : State) :
    Out :=
  execAlu c [1] (fun t g =>
    { preds := [(qd.val, bopApply bop (condHolds cond (srcInt t g m.wd m.un a) (immInt m.wd m.un imm)) (predOf t p))] }) s

/-- a + ext(b) × 2^s, wrapping (R87). -/
def execLea (c : Ctl) (m : IMod) (sh : Fin 16) (d : Reg) (a b : Src) (s : State) : Out :=
  execAlu c (unitsFor d [1]) (fun t g =>
    intRes { m with sat := false } d (srcInt t g m.wd m.un a + srcInt t g .w32 m.un b * 2 ^ sh.val)) s

/-- The dot product of R88 over `n` fields of `bw` bits. -/
def idotVal (n bw : Nat) (ua ub : Bool) (a b : Nat) (v : Int) : Int :=
  (List.range n).foldl (fun v i => v + intOf (a / 2 ^ (bw * i)) bw ua * intOf (b / 2 ^ (bw * i)) bw ub) v

def idotRes (n bw : Nat) (sat ua ub : Bool) (d : Reg) (a b e : Src) (t : Thread) (g : Group) : Res :=
  intRes ⟨.w32, ua && ub, sat⟩ d (idotVal n bw ua ub (srcNat t g 1 a) (srcNat t g 1 b) (srcInt t g .w32 (ua && ub) e))

def execIdot4 (c : Ctl) (sat ua ub : Bool) (d : Reg) (a b e : Src) (s : State) : Out :=
  execAlu c (unitsFor d [1, 2]) (idotRes 4 8 sat ua ub d a b e) s

def execIdot2 (c : Ctl) (sat ua ub : Bool) (d : Reg) (a b e : Src) (s : State) : Out :=
  execAlu c (unitsFor d [1, 2]) (idotRes 2 16 sat ua ub d a b e) s

def execMov (c : Ctl) (m : IMod) (d : Reg) (a : Src) (s : State) : Out :=
  execAlu c (unitsFor d []) (fun t g => .nat d m.wd.nregs (srcNat t g m.wd.nregs a)) s

def execMovi (c : Ctl) (m : IMod) (d : Reg) (imm : Word) (s : State) : Out :=
  execAlu c (unitsFor d []) (fun _ _ =>
    match m.wd with
    | .w64 => .nat d 2 (if m.un then imm.toNat else (imm.signExtend 64).toNat)
    | _ => .nat d 1 imm.toNat) s

def execMovw (c : Ctl) (d : Reg) (imm : DWord) (s : State) : Out :=
  execAlu c (unitsFor d []) (fun _ _ => .nat d 2 imm.toNat) s

end Sys2Proof.Machine
end

