-- ==== Sys2Proof/Machine/Logic.lean ====
section
/-! DEFINITION. Class 0x1: logic, shifts, bit fields and predicate moves (R90 to R99). -/

namespace Sys2Proof.Machine

def w64Bits (w64 : Bool) : Nat := if w64 then 64 else 32

/-- A bitwise instruction of two sources. -/
def execLogic2 (c : Ctl) (w64 : Bool) (d : Reg) (a b : Src) (f : DWord → DWord → DWord) (s : State) : Out :=
  execAlu c (unitsFor d []) (fun t g =>
    .nat d (nregs64 w64) (f (BitVec.ofNat 64 (srcNat t g (nregs64 w64) a)) (BitVec.ofNat 64 (srcNat t g (nregs64 w64) b))).toNat) s

def execAnd (c : Ctl) (w64 : Bool) (d : Reg) (a b : Src) (s : State) : Out := execLogic2 c w64 d a b (· &&& ·) s
def execOr (c : Ctl) (w64 : Bool) (d : Reg) (a b : Src) (s : State) : Out := execLogic2 c w64 d a b (· ||| ·) s
def execXor (c : Ctl) (w64 : Bool) (d : Reg) (a b : Src) (s : State) : Out := execLogic2 c w64 d a b (· ^^^ ·) s
def execAndn (c : Ctl) (w64 : Bool) (d : Reg) (a b : Src) (s : State) : Out :=
  execLogic2 c w64 d a b (fun x y => x &&& ~~~y) s
def execNot (c : Ctl) (w64 : Bool) (d : Reg) (a : Src) (s : State) : Out := execLogic2 c w64 d a a (fun x _ => ~~~x) s

/-- A number whose bit i is `f i`, for i below `n`. -/
def bitsFrom (f : Nat → Bool) : Nat → Nat
  | 0 => 0
  | n + 1 => bitsFrom f n + (f n).toNat * 2 ^ n

/-- One bit of the truth table of R92. -/
def lutBit (lut : BitVec 8) (x y z : Bool) : Bool := lut.getLsbD (x.toNat + 2 * y.toNat + 4 * z.toNat)

def lutVal (lut : BitVec 8) (w x y z : Nat) : Nat := bitsFrom (fun i => lutBit lut (x.testBit i) (y.testBit i) (z.testBit i)) w

def execLtab (c : Ctl) (w64 : Bool) (lut : BitVec 8) (d : Reg) (a b e : Src) (s : State) : Out :=
  execAlu c (unitsFor d []) (fun t g =>
    let n := nregs64 w64
    .nat d n (lutVal lut (w64Bits w64) (srcNat t g n a) (srcNat t g n b) (srcNat t g n e))) s

def execLtabi (c : Ctl) (lut : BitVec 8) (d : Reg) (a b : Src) (imm : Word) (s : State) : Out :=
  execAlu c (unitsFor d []) (fun t g => .nat d 1 (lutVal lut 32 (srcNat t g 1 a) (srcNat t g 1 b) imm.toNat)) s

def execPtab (c : Ctl) (lut : BitVec 8) (qd : PDst) (pa pb pc : PSrc) (s : State) : Out :=
  execAlu c [] (fun t _ => { preds := [(qd.val, lutBit lut (predOf t pa) (predOf t pb) (predOf t pc))] }) s

/-! ### Shifts (R93, R94) -/

/-- The count acts modulo w when it wraps. -/
def shiftCount (w64 wrap : Bool) (n : Nat) : Nat := if wrap then n % w64Bits w64 else n

def execShift (c : Ctl) (w64 : Bool) (d : Reg) (a n : Src) (f : Nat → Nat → Nat) (s : State) : Out :=
  execAlu c (unitsFor d [5]) (fun t g => .nat d (nregs64 w64) (f (srcNat t g (nregs64 w64) a) (srcNat t g 1 n))) s

def shlVal (w64 wrap : Bool) (x n : Nat) : Nat :=
  let k := shiftCount w64 wrap n
  if k < w64Bits w64 then x * 2 ^ k % 2 ^ w64Bits w64 else 0

def shrVal (w64 wrap : Bool) (x n : Nat) : Nat :=
  let k := shiftCount w64 wrap n
  if k < w64Bits w64 then x / 2 ^ k else 0

def sarVal (w64 wrap : Bool) (x n : Nat) : Nat :=
  let w := w64Bits w64
  let k := min (shiftCount w64 wrap n) w
  ((intOf x w false).fdiv (2 ^ k) % (2 ^ w : Int)).toNat

def rotlVal (w64 : Bool) (x n : Nat) : Nat :=
  let w := w64Bits w64
  let k := n % w
  x * 2 ^ k % 2 ^ w + x / 2 ^ (w - k)

def execShl (c : Ctl) (w64 wrap : Bool) (d : Reg) (a n : Src) (s : State) : Out := execShift c w64 d a n (shlVal w64 wrap) s
def execShr (c : Ctl) (w64 wrap : Bool) (d : Reg) (a n : Src) (s : State) : Out := execShift c w64 d a n (shrVal w64 wrap) s
def execSar (c : Ctl) (w64 wrap : Bool) (d : Reg) (a n : Src) (s : State) : Out := execShift c w64 d a n (sarVal w64 wrap) s
def execRotl (c : Ctl) (w64 : Bool) (d : Reg) (a n : Src) (s : State) : Out := execShift c w64 d a n (rotlVal w64) s

def fshfVal (w64 wrap right : Bool) (hi lo n : Nat) : Nat :=
  let w := w64Bits w64
  let x := hi * 2 ^ w + lo
  let k := if wrap then n % w else min n w
  if right then x / 2 ^ k % 2 ^ w else x * 2 ^ k / 2 ^ w % 2 ^ w

def execFshf (c : Ctl) (w64 wrap right : Bool) (d : Reg) (hi lo n : Src) (s : State) : Out :=
  execAlu c (unitsFor d [5]) (fun t g =>
    let k := nregs64 w64
    .nat d k (fshfVal w64 wrap right (srcNat t g k hi) (srcNat t g k lo) (srcNat t g 1 n))) s

/-! ### Bit fields (R95) -/

def bfxVal (w64 un : Bool) (a pos len : Nat) : Nat :=
  let w := w64Bits w64
  let pos := pos % 256
  let len := min (len % 256) w
  let f := bitsFrom (fun i => if pos + i < w then a.testBit (pos + i) else !un && a.testBit (w - 1)) len
  if un || len == 0 then f else (intOf f len false % (2 ^ w : Int)).toNat

def bfiVal (w64 : Bool) (ins base pos len : Nat) : Nat :=
  let w := w64Bits w64
  let pos := pos % 256
  let len := min (len % 256) w
  bitsFrom (fun i => if pos ≤ i ∧ i < pos + len then ins.testBit (i - pos) else base.testBit i) w

def execBfx (c : Ctl) (w64 un : Bool) (d : Reg) (a pos len : Src) (s : State) : Out :=
  execAlu c (unitsFor d [5]) (fun t g =>
    .nat d (nregs64 w64) (bfxVal w64 un (srcNat t g (nregs64 w64) a) (srcNat t g 1 pos) (srcNat t g 1 len))) s

def execBfi (c : Ctl) (w64 : Bool) (d : Reg) (ins base pos len : Src) (s : State) : Out :=
  execAlu c (unitsFor d [5]) (fun t g =>
    let n := nregs64 w64
    .nat d n (bfiVal w64 (srcNat t g n ins) (srcNat t g n base) (srcNat t g 1 pos) (srcNat t g 1 len))) s

/-! ### Counts and reversal (R96) -/

def popVal (w x : Nat) : Nat := ((List.range w).filter (fun i => x.testBit i)).length
def clzVal (w x : Nat) : Nat := w - bitLen x
def ctzVal (w x : Nat) : Nat := ((List.range w).find? (fun i => x.testBit i)).getD w

def execPopc (c : Ctl) (w64 : Bool) (d : Reg) (a : Src) (s : State) : Out :=
  execAlu c (unitsFor d []) (fun t g => .nat d 1 (popVal (w64Bits w64) (srcNat t g (nregs64 w64) a))) s
def execClz (c : Ctl) (w64 : Bool) (d : Reg) (a : Src) (s : State) : Out :=
  execAlu c (unitsFor d []) (fun t g => .nat d 1 (clzVal (w64Bits w64) (srcNat t g (nregs64 w64) a))) s
def execCtz (c : Ctl) (w64 : Bool) (d : Reg) (a : Src) (s : State) : Out :=
  execAlu c (unitsFor d []) (fun t g => .nat d 1 (ctzVal (w64Bits w64) (srcNat t g (nregs64 w64) a))) s

def execBrev (c : Ctl) (w64 : Bool) (d : Reg) (a : Src) (s : State) : Out :=
  execAlu c (unitsFor d []) (fun t g =>
    let x := srcNat t g (nregs64 w64) a
    let w := w64Bits w64
    .nat d (nregs64 w64) (bitsFrom (fun i => x.testBit (w - 1 - i)) w)) s

/-! ### Bytes and carry-less products (R97, R98) -/

def bpermByte (x sel i : Nat) : Nat :=
  let k := sel / 2 ^ (4 * i) % 16
  let y := x / 2 ^ (8 * (k % 8)) % 256
  if 8 ≤ k then (if 128 ≤ y then 255 else 0) else y

def bpermVal (a b sel : Nat) : Nat :=
  let x := b * 2 ^ 32 + a
  bpermByte x sel 0 + bpermByte x sel 1 * 2 ^ 8 + bpermByte x sel 2 * 2 ^ 16 + bpermByte x sel 3 * 2 ^ 24

def execBperm (c : Ctl) (d : Reg) (a b sel : Src) (s : State) : Out :=
  execAlu c (unitsFor d []) (fun t g => .nat d 1 (bpermVal (srcNat t g 1 a) (srcNat t g 1 b) (srcNat t g 1 sel))) s

/-- The polynomial product of R98. -/
def clmulVal (w a b : Nat) : Nat := (List.range w).foldl (fun p j => if b.testBit j then p ^^^ (a * 2 ^ j) else p) 0

def execClmul (c : Ctl) (w64 : Bool) (d : Reg) (a b : Src) (s : State) : Out :=
  execAlu c (unitsFor d []) (fun t g =>
    let n := nregs64 w64
    .nat d n (clmulVal (w64Bits w64) (srcNat t g n a) (srcNat t g n b) % 2 ^ w64Bits w64)) s

def execClmulh (c : Ctl) (w64 : Bool) (d : Reg) (a b : Src) (s : State) : Out :=
  execAlu c (unitsFor d []) (fun t g =>
    let n := nregs64 w64
    .nat d n (clmulVal (w64Bits w64) (srcNat t g n a) (srcNat t g n b) / 2 ^ w64Bits w64)) s

/-- R99: the predicates to a register, or the masked bits of a register to the predicates. -/
def execPmov (c : Ctl) (form : PmovForm) (s : State) : Out :=
  match form with
  | .toReg d => execAlu c (unitsFor d []) (fun t _ => .nat d 1 (bitsFrom (fun i => qread t i) 8)) s
  | .toPred mask a =>
    execAlu c [] (fun t g =>
      let x := srcNat t g 1 a
      { preds := ((List.range 7).filter (fun i => mask.getLsbD i)).map (fun i => (i, x.testBit i)) }) s

end Sys2Proof.Machine
end

