-- ==== Sys2Proof/Machine/Power.lean ====
section
/-! DEFINITION. Power, boot and reset (R4, R5, R428), and words of no assigned opcode (R68, R71). -/

namespace Sys2Proof.Machine

/-- A cluster after reset: its fused V_safe table, the rail at V_safe(24) (R394). -/
def coldCluster (k : Cluster) : Cluster :=
  let v := k.vfuse.getD 24 800
  { clusterReset with vfuse := k.vfuse, vsafe := k.vfuse, vfloor := k.vfloor, railmv := v, goal := v, rcvset := v }

/-- The part with all device state lost but fused values. What lies outside the part stays, as do the model's own counters. -/
def coldState (s : State) (powered : Bool) : State :=
  { State.reset with
    powered, agenda := s.agenda, nextId := s.nextId, free := s.free, host := s.host, remote := s.remote, msix := s.msix
    dies := tmap (fun _ d => { dieReset with fuse := d.fuse }) s.dies
    clusters := tmap (fun _ k => coldCluster k) s.clusters }

def execPowerOff (s : State) : Out := .next (coldState s false)

/-- Cold reset; the boot follows as POWER_ON describes it. -/
def execColdReset (s : State) : Out := .next (if s.powered then coldState s true else s)

/-- The ROM verifies the first image, and the die's measurements of both begin, each extended from 48 zero bytes: stage 1, or 0xF
(R423). -/
def bootRom (s : State) (die : Nat) (romOk : Bool) (trained : List Bool) : State :=
  s.modDie die (fun d => if romOk then
      { d with stage := 1, trained, m0 := extend 0 (Config.bootDigest die 0), m1 := extend 0 (Config.bootDigest die 1) }
    else { d with stage := 0xF })

def pairsOfDies : List (Nat × Nat) := [(0, 1), (0, 2), (0, 3), (1, 2), (1, 3), (2, 3)]

/-- The bridges of a die to those at stage 5 or 6 are trained. -/
def bridgesUp (s : State) (die : Nat) : State :=
  let up (d : Nat) : Bool := d != die && ((s.die d).stage == 5 || (s.die d).stage == 6)
  { s with fw := { s.fw with bridgesDown := s.fw.bridgesDown.filter (fun p => !((p.1 == die && up p.2) || (p.2 == die && up p.1))) } }

/-- A die that boots passes to its next stage (R428): its firmware runs, its fuses are applied, its stacks are trained, its bridges are
up, and it is ready once its Lace port is up. It stops at 0xF when a stack does not train (DEDUCED, log entry 28). -/
def bootNext (s : State) (die : Nat) : State :=
  let reach (s : State) (n : Nat) : State := s.modDie die (fun d => { d with stage := n })
  let d := s.die die
  match d.stage with
  | 1 => reach s 2
  | 2 => reach s 3
  | 3 =>
    let s := (List.range 4).foldl (fun s i => s.modStack (4 * die + i) (fun x =>
      if d.trained.getD i false then { x with st := 2, ecsen := true } else { x with st := 3 })) s
    reach s (if (List.range 4).all (fun i => d.trained.getD i false) then 4 else 0xF)
  | 4 => bridgesUp (reach s 5) die
  | 5 => if d.laceDown then s else reach s 6
  | _ => s

/-- The boot of a die goes on by itself. -/
def booting (d : Die) : Bool := decide (1 ≤ d.stage ∧ d.stage ≤ 4) || (d.stage == 5 && !d.laceDown)

/-- Power-on, or the boot after a cold reset: the ROMs of the dies at stage 0 run, and their bridges are not yet trained. `romOk` by
die, and `trainOk` by stack for the training that follows. -/
def execPowerOn (romOk trainOk : List Bool) (s : State) : Out :=
  let s := if s.powered then s else coldState s true
  let waiting (d : Nat) : Bool := (s.die d).fuse.present && (s.die d).stage == 0
  let ds := (List.range nDies).filter waiting
  if ds.isEmpty then .next s
  else
    let down := pairsOfDies.filter (fun p => s.fw.bridgesDown.contains p || ds.contains p.1 || ds.contains p.2)
    .next (ds.foldl (fun s d => bootRom s d (romOk.getD d false) ((trainOk.drop (4 * d)).take 4)) { s with fw := { s.fw with bridgesDown := down } })

/-- Every thread of the PC group traps, whatever its guard. -/
def execUnassignedOpcode (_w : IWord) (s : State) : Out :=
  .next (s.iss.members.foldl (fun s t => takeTrap s t 1 0 0 0 false) s)

end Sys2Proof.Machine
end

