-- ==== Sys2Proof/Machine/Sfu.lean ====
section
/-! DEFINITION. Class 0x4: special functions, square root and division (R121 to R124). An approximate function delivers what
`Config.approx` gives when that lies within the bound of R122 of the exact value, and otherwise the nearest FP32 value; the
exact value is enclosed in fixed point far more closely than the bound. -/

namespace Sys2Proof.Machine

/-- The exact value lies between lo × 2^e and hi × 2^e. -/
structure Encl where
  lo : Int
  hi : Int
  e : Int

/-- An error bound: a number of ulp, or a power of two, or the larger of both (R122). -/
structure Bound where
  ulps : Nat
  abs : Option Int

/-- floor(log2) of the smaller end. -/
def Encl.log2 (x : Encl) : Int := x.e + (bitLen (min x.lo.natAbs x.hi.natAbs) : Int) - 1

/-- |r − y| is within the bound for every y of the enclosure. -/
def withinBound (x : Encl) (b : Bound) (r : FVal) : Bool :=
  match r with
  | .fin _ _ er =>
    let q : Int := max x.log2 (-126) - 23
    let u : Int := min (min x.e er) (min q (-200))
    let at' (v : Int) : Int := v * 2 ^ (x.e - u).toNat
    let b1 : Int := b.ulps * 2 ^ (q - u).toNat
    let b2 : Int := match b.abs with
      | some k => 2 ^ (k - u).toNat
      | none => 0
    let m := max b1 b2
    let v := r.units u
    decide (v - at' x.lo ≤ m) && decide (at' x.hi - v ≤ m)
  | _ => false

/-- The delivered bits of an approximate function, with the flags of R51. -/
def approxResult (fn : Nat) (a : Nat) (x : Encl) (b : Bound) : Nat × Fl :=
  let free := (Config.approx fn (BitVec.ofNat 32 a)).toNat
  let r := if withinBound x b (f32.dec free) then free
    else (roundFin f32 .rn false (x.lo < 0) x.lo.natAbs x.e true).1
  (r, flIX ||| flIf (r % 2 ^ 31 < 2 ^ 23) flUF)

/-! ### Fixed-point constants and series, at 2^−256 -/

def fixK : Nat := 256
def fixOne : Nat := 2 ^ 256

/-- ln 2 × 2^320, rounded down. -/
def ln2Fix : Nat :=
  1480553391661173448385607439722553250922680800745876974795605978609098082859138712941075737848984

/-- π/2 × 2^600, rounded down. -/
def halfPiFix : Nat :=
  6518043813576499567614396574662941853205725930320758529756346294674678463642478116061492973562434162130186664563002114985125569132920968072887375650813181200752343318675935818455173

/-- 1 + z/1 (1 + z/2 (1 + …)) from term n down, z in fixed point. -/
def expSeries (z : Nat) : Nat → Nat → Nat
  | 0, s => s
  | n + 1, s => expSeries z n (fixOne + z * s / fixOne / (n + 1))

def sqTimes : Nat → Nat → Nat
  | 0, y => y
  | n + 1, y => sqTimes n (y * y / fixOne)

/-- e^x for 0 ≤ x < 128: the argument is halved 12 times, and the series squared back. -/
def expFix (x : Nat) : Nat := sqTimes 12 (expSeries (x / 2 ^ 12) 28 fixOne)

/-- m × 2^e in fixed point. -/
def toFix (m : Nat) (e : Int) : Nat := shiftN m (e + 256)

/-- An enclosure of a computed value with relative error below 2^−k. -/
def enclose (v k : Nat) (e : Int) : Encl := ⟨(v : Int) - v / 2 ^ k - 1, v + v / 2 ^ k + 1, e⟩

/-! ### The functions -/

/-- RCP (R122, R123): one of the two FP32 values adjacent to 1 / a. -/
def rcpVal (a : Nat) : Nat × Fl :=
  match f32.dec a with
  | .nan => (f32.nan, 0)
  | .inf n => (f32.sign n, 0)
  | .fin n m e =>
    if m = 0 then (f32.sign n + f32.inf, flDZ)
    else
      let (q, ex, st) := divMag f32.p 1 0 m e
      let z := roundFin f32 .rz false n q ex st
      let away := roundFin f32 (if n then .dn else .rp) false n q ex st
      if z.2 &&& flOF ≠ 0 ∨ away.2 &&& flOF ≠ 0 then (f32.sign n + f32.inf, flOF ||| flIX)
      else if (Config.approx 0 (BitVec.ofNat 32 a)).getLsbD 0 then away else z

/-- RSQ: exact at powers of 4. -/
def rsqVal (a : Nat) : Nat × Fl :=
  match f32.dec a with
  | .nan => (f32.nan, 0)
  | .inf n => if n then (f32.nan, flNV) else (0, 0)
  | .fin n m e =>
    if m = 0 then (f32.sign n + f32.inf, flDZ)
    else if n then (f32.nan, flNV)
    else
      let odd := e % 2 ≠ 0
      let m := if odd then 2 * m else m
      let e := if odd then e - 1 else e
      let r := sqrtFloor (2 ^ 240 / m)
      if r * r * m = 2 ^ 240 then roundFin f32 .rn false false r (-(e / 2) - 120) false
      else approxResult 1 a ⟨r, r + 1, -(e / 2) - 120⟩ ⟨2, none⟩

/-- EX2. -/
def ex2Val (a : Nat) : Nat × Fl :=
  match f32.dec a with
  | .nan => (f32.nan, 0)
  | .inf n => if n then (0, 0) else (f32.inf, 0)
  | .fin n m e =>
    let v := (FVal.fin n m e).units (min e 0)
    let k : Int := 2 ^ (-(min e 0)).toNat
    if v > 127 * k then (f32.inf, flOF ||| flIX)
    else if v < -149 * k then (0, flUF ||| flIX)
    else
      let fl := v.fdiv k
      let fr := (v - fl * k).toNat
      if fr = 0 then roundFin f32 .rn false false 1 fl false
      else
        let y := expFix (fr * (ln2Fix / 2 ^ 64) / k.toNat)
        let x := enclose y 100 (fl - 256)
        approxResult 2 a { x with lo := max x.lo fixOne } ⟨2, none⟩

/-- Binary digits of log2 of y, 1 ≤ y < 2, by squaring. -/
def log2Digits : Nat → Nat → Nat → Nat
  | 0, _, l => l
  | n + 1, y, l =>
    let z := y * y / fixOne
    if z < 2 * fixOne then log2Digits n z (2 * l) else log2Digits n (z / 2) (2 * l + 1)

/-- LG2. -/
def lg2Val (a : Nat) : Nat × Fl :=
  match f32.dec a with
  | .nan => (f32.nan, 0)
  | .inf n => if n then (f32.nan, flNV) else (f32.inf, 0)
  | .fin n m e =>
    if m = 0 then (f32.sign true + f32.inf, flDZ)
    else if n then (f32.nan, flNV)
    else
      let k := bitLen m - 1
      let ex : Int := e + k
      if m = 2 ^ k then ofInt f32 .rn false ex
      else
        let l := log2Digits 80 (m * 2 ^ (256 - k)) 0
        let lo : Int := ex * 2 ^ 80 + l
        let near := ex == -1 || ex == 0
        approxResult 3 a ⟨lo, lo + 1, -80⟩ (if near then ⟨0, some (-22)⟩ else ⟨2, none⟩)

/-- sin (odd first term) or cos of x in fixed point, alternating terms x^k/k!. -/
def trigSeries (x : Nat) : Nat → Nat → Int → Nat → Int → Int
  | 0, _, acc, _, _ => acc
  | n + 1, term, acc, k, sg =>
    trigSeries x n (term * x / fixOne * x / fixOne / ((k + 1) * (k + 2))) (acc + sg * term) (k + 2) (-sg)

/-- sin or cos of a finite angle, with exact argument reduction: quadrant and remainder of |a| by π/2. -/
def trigEncl (cos neg : Bool) (m : Nat) (e : Int) : Encl :=
  let x := shiftN m (e + 600)
  let q := x / halfPiFix
  let r := (x % halfPiFix) / 2 ^ 344
  let sinR := trigSeries r 40 r 0 1 1
  let cosR := trigSeries r 40 fixOne 0 0 1
  let v : Int :=
    if cos then
      match q % 4 with
      | 0 => cosR | 1 => -sinR | 2 => -cosR | _ => sinR
    else
      let w : Int := match q % 4 with
        | 0 => sinR | 1 => cosR | 2 => -sinR | _ => -cosR
      if neg then -w else w
  ⟨v - 2 ^ 156, v + 2 ^ 156, -256⟩

def trigVal (cos : Bool) (a : Nat) : Nat × Fl :=
  match f32.dec a with
  | .nan => (f32.nan, 0)
  | .inf _ => (f32.nan, flNV)
  | .fin n m e =>
    if m = 0 then (if cos then 0x3F800000 else f32.sign n, 0)
    else approxResult (if cos then 5 else 4) a (trigEncl cos n m e) ⟨0, some (-22)⟩

def Encl.flip (x : Encl) (neg : Bool) : Encl := if neg then ⟨-x.hi, -x.lo, x.e⟩ else x

/-- TANH: ±1 for |a| ≥ 9.1; near 0 between x − x × 2^−79 and x. -/
def tanhVal (a : Nat) : Nat × Fl :=
  match f32.dec a with
  | .nan => (f32.nan, 0)
  | .inf n => (f32.sign n + 0x3F800000, 0)
  | .fin n m e =>
    if m = 0 then (f32.sign n, 0)
    else if cmpV (.fin false (10 * m) e) (.fin false 91 0) ≥ 0 then (f32.sign n + 0x3F800000, flIX)
    else if (FVal.fin false m e).log2 < -40 then
      let x : Encl := ⟨(m : Int) * 2 ^ 100 - m * 2 ^ 21, m * 2 ^ 100, e - 100⟩
      approxResult 6 a (x.flip n) ⟨2, none⟩
    else
      let t := expFix (2 * toFix m e)
      let v := (t - fixOne) * fixOne / (t + fixOne)
      let x := enclose v 56 (-256)
      approxResult 6 a (({ x with hi := min x.hi fixOne } : Encl).flip n) ⟨2, none⟩

/-- SIGM: e^−|a| stands for 0 beyond 128, far below the bound. -/
def sigmVal (a : Nat) : Nat × Fl :=
  match f32.dec a with
  | .nan => (f32.nan, 0)
  | .inf n => (if n then 0 else 0x3F800000, 0)
  | .fin n m e =>
    if m = 0 then (0x3F000000, 0)
    else
      let big := cmpV (.fin false m e) (.fin false 128 0) ≥ 0
      let t := if big then 0 else fixOne * fixOne / expFix (toFix m e)
      let v := (if n then t else fixOne) * fixOne / (t + fixOne)
      let x := enclose v 90 (-256)
      approxResult 7 a ⟨max x.lo 0, min (x.hi + 2 ^ 72) fixOne, x.e⟩ ⟨2, some (-24)⟩

/-- An approximate function of class SFU. -/
def execSfu1 (c : Ctl) (d : Reg) (a : Src) (f : Nat → Nat × Fl) (s : State) : Out :=
  execLong c 6 d (fun t g =>
    let r := f (srcF32 t g a)
    (natWords 1 r.1, r.2)) s

def execRcp (c : Ctl) (d : Reg) (a : Src) (s : State) : Out := execSfu1 c d a rcpVal s
def execRsq (c : Ctl) (d : Reg) (a : Src) (s : State) : Out := execSfu1 c d a rsqVal s
def execEx2 (c : Ctl) (d : Reg) (a : Src) (s : State) : Out := execSfu1 c d a ex2Val s
def execLg2 (c : Ctl) (d : Reg) (a : Src) (s : State) : Out := execSfu1 c d a lg2Val s
def execSin (c : Ctl) (d : Reg) (a : Src) (s : State) : Out := execSfu1 c d a (trigVal false) s
def execCos (c : Ctl) (d : Reg) (a : Src) (s : State) : Out := execSfu1 c d a (trigVal true) s
def execTanh (c : Ctl) (d : Reg) (a : Src) (s : State) : Out := execSfu1 c d a tanhVal s
def execSigm (c : Ctl) (d : Reg) (a : Src) (s : State) : Out := execSfu1 c d a sigmVal s

def execSqrt (c : Ctl) (dbl : Bool) (rm : Rnd) (d : Reg) (a : Src) (s : State) : Out :=
  execLong c (if dbl then 7 else 6) d (fun t g =>
    let r := fSqrt (if dbl then f64 else f32) rm (srcF t g dbl a)
    (natWords (nregs64 dbl) r.1, r.2)) s

def execFdiv (c : Ctl) (dbl : Bool) (rm : Rnd) (d : Reg) (a b : Src) (s : State) : Out :=
  execLong c 7 d (fun t g =>
    let r := fDiv (if dbl then f64 else f32) rm (srcF t g dbl a) (srcF t g dbl b)
    (natWords (nregs64 dbl) r.1, r.2)) s

end Sys2Proof.Machine
end

