-- ==== Sys2Proof/Machine/Dispatch.lean ====
section
/-! DEFINITION. One arm per constructor of `Instr`: the meaning of an instruction or event. -/

namespace Sys2Proof.Machine

def exec (i : Instr) (s : State) : Host.Outcome State Fault Refusal :=
  match i with
  | .iadd c m d a b => Sys2Proof.Machine.execIadd c m d a b s
  | .isub c m d a b => Sys2Proof.Machine.execIsub c m d a b s
  | .iadd3 c m d a b e => Sys2Proof.Machine.execIadd3 c m d a b e s
  | .imul c m d a b => Sys2Proof.Machine.execImul c m d a b s
  | .imulhi c m d a b => Sys2Proof.Machine.execImulhi c m d a b s
  | .imad c m d a b e => Sys2Proof.Machine.execImad c m d a b e s
  | .imadw c m d a b e => Sys2Proof.Machine.execImadw c m d a b e s
  | .idiv c m d a b => Sys2Proof.Machine.execIdiv c m d a b s
  | .irem c m d a b => Sys2Proof.Machine.execIrem c m d a b s
  | .imin c m d a b => Sys2Proof.Machine.execImin c m d a b s
  | .imax c m d a b => Sys2Proof.Machine.execImax c m d a b s
  | .iabs c m d a => Sys2Proof.Machine.execIabs c m d a s
  | .ineg c m d a => Sys2Proof.Machine.execIneg c m d a s
  | .isad c m d a b e => Sys2Proof.Machine.execIsad c m d a b e s
  | .icmp c m cond bop qd a b p => Sys2Proof.Machine.execIcmp c m cond bop qd a b p s
  | .isel c m d a b p => Sys2Proof.Machine.execIsel c m d a b p s
  | .iaddi c m d a imm => Sys2Proof.Machine.execIaddi c m d a imm s
  | .imuli c m d a imm => Sys2Proof.Machine.execImuli c m d a imm s
  | .icmpi c m cond bop qd a imm p => Sys2Proof.Machine.execIcmpi c m cond bop qd a imm p s
  | .lea c m sh d a b => Sys2Proof.Machine.execLea c m sh d a b s
  | .idot4 c sat ua ub d a b e => Sys2Proof.Machine.execIdot4 c sat ua ub d a b e s
  | .idot2 c sat ua ub d a b e => Sys2Proof.Machine.execIdot2 c sat ua ub d a b e s
  | .mov c m d a => Sys2Proof.Machine.execMov c m d a s
  | .movi c m d imm => Sys2Proof.Machine.execMovi c m d imm s
  | .movw c d imm => Sys2Proof.Machine.execMovw c d imm s
  | .and c w64 d a b => Sys2Proof.Machine.execAnd c w64 d a b s
  | .or c w64 d a b => Sys2Proof.Machine.execOr c w64 d a b s
  | .xor c w64 d a b => Sys2Proof.Machine.execXor c w64 d a b s
  | .andn c w64 d a b => Sys2Proof.Machine.execAndn c w64 d a b s
  | .not c w64 d a => Sys2Proof.Machine.execNot c w64 d a s
  | .ltab c w64 lut d a b e => Sys2Proof.Machine.execLtab c w64 lut d a b e s
  | .ltabi c lut d a b imm => Sys2Proof.Machine.execLtabi c lut d a b imm s
  | .ptab c lut qd pa pb pc => Sys2Proof.Machine.execPtab c lut qd pa pb pc s
  | .shl c w64 wrap d a n => Sys2Proof.Machine.execShl c w64 wrap d a n s
  | .shr c w64 wrap d a n => Sys2Proof.Machine.execShr c w64 wrap d a n s
  | .sar c w64 wrap d a n => Sys2Proof.Machine.execSar c w64 wrap d a n s
  | .rotl c w64 d a n => Sys2Proof.Machine.execRotl c w64 d a n s
  | .fshf c w64 wrap right d hi lo n => Sys2Proof.Machine.execFshf c w64 wrap right d hi lo n s
  | .bfx c w64 un d a pos len => Sys2Proof.Machine.execBfx c w64 un d a pos len s
  | .bfi c w64 d ins base pos len => Sys2Proof.Machine.execBfi c w64 d ins base pos len s
  | .popc c w64 d a => Sys2Proof.Machine.execPopc c w64 d a s
  | .clz c w64 d a => Sys2Proof.Machine.execClz c w64 d a s
  | .ctz c w64 d a => Sys2Proof.Machine.execCtz c w64 d a s
  | .brev c w64 d a => Sys2Proof.Machine.execBrev c w64 d a s
  | .bperm c d a b sel => Sys2Proof.Machine.execBperm c d a b sel s
  | .clmul c w64 d a b => Sys2Proof.Machine.execClmul c w64 d a b s
  | .clmulh c w64 d a b => Sys2Proof.Machine.execClmulh c w64 d a b s
  | .pmov c form => Sys2Proof.Machine.execPmov c form s
  | .fadd c f64 rm d a b => Sys2Proof.Machine.execFadd c f64 rm d a b s
  | .fsub c f64 rm d a b => Sys2Proof.Machine.execFsub c f64 rm d a b s
  | .fmul c f64 rm d a b => Sys2Proof.Machine.execFmul c f64 rm d a b s
  | .ffma c f64 rm d a b e => Sys2Proof.Machine.execFfma c f64 rm d a b e s
  | .faddi c f64 rm d a imm => Sys2Proof.Machine.execFaddi c f64 rm d a imm s
  | .fmuli c f64 rm d a imm => Sys2Proof.Machine.execFmuli c f64 rm d a imm s
  | .ffmai c f64 rm d a b imm => Sys2Proof.Machine.execFfmai c f64 rm d a b imm s
  | .fmin c f64 d a b => Sys2Proof.Machine.execFmin c f64 d a b s
  | .fmax c f64 d a b => Sys2Proof.Machine.execFmax c f64 d a b s
  | .fcmp c f64 cond bop qd a b p => Sys2Proof.Machine.execFcmp c f64 cond bop qd a b p s
  | .fclass c f64 mask qd a => Sys2Proof.Machine.execFclass c f64 mask qd a s
  | .hadd2 c bf rm d a b => Sys2Proof.Machine.execHadd2 c bf rm d a b s
  | .hmul2 c bf rm d a b => Sys2Proof.Machine.execHmul2 c bf rm d a b s
  | .hfma2 c bf rm d a b e => Sys2Proof.Machine.execHfma2 c bf rm d a b e s
  | .hmin2 c bf d a b => Sys2Proof.Machine.execHmin2 c bf d a b s
  | .hmax2 c bf d a b => Sys2Proof.Machine.execHmax2 c bf d a b s
  | .hcmp2 c bf cond bop qd qe a b p => Sys2Proof.Machine.execHcmp2 c bf cond bop qd qe a b p s
  | .fdot2 c bf rm d a b e => Sys2Proof.Machine.execFdot2 c bf rm d a b e s
  | .cvt c df sf rm sat d a => Sys2Proof.Machine.execCvt c df sf rm sat d a s
  | .cvtpk c df sf rm sat d a b x e => Sys2Proof.Machine.execCvtpk c df sf rm sat d a b x e s
  | .f2i c sf iw iu rm sat d a => Sys2Proof.Machine.execF2i c sf iw iu rm sat d a s
  | .i2f c df iw iu rm sat d a => Sys2Proof.Machine.execI2f c df iw iu rm sat d a s
  | .frnd c f64 rm d a => Sys2Proof.Machine.execFrnd c f64 rm d a s
  | .scalex c f64 rm d a n => Sys2Proof.Machine.execScalex c f64 rm d a n s
  | .qblk c f4x nosp rm d a => Sys2Proof.Machine.execQblk c f4x nosp rm d a s
  | .dqblk c f4x rm d a => Sys2Proof.Machine.execDqblk c f4x rm d a s
  | .rcp c d a => Sys2Proof.Machine.execRcp c d a s
  | .rsq c d a => Sys2Proof.Machine.execRsq c d a s
  | .sqrt c f64 rm d a => Sys2Proof.Machine.execSqrt c f64 rm d a s
  | .ex2 c d a => Sys2Proof.Machine.execEx2 c d a s
  | .lg2 c d a => Sys2Proof.Machine.execLg2 c d a s
  | .sin c d a => Sys2Proof.Machine.execSin c d a s
  | .cos c d a => Sys2Proof.Machine.execCos c d a s
  | .tanh c d a => Sys2Proof.Machine.execTanh c d a s
  | .sigm c d a => Sys2Proof.Machine.execSigm c d a s
  | .fdiv c f64 rm d a b => Sys2Proof.Machine.execFdiv c f64 rm d a b s
  | .lxch c w64 mode seg qe d a b m => Sys2Proof.Machine.execLxch c w64 mode seg qe d a b m s
  | .lpoll c form pa m => Sys2Proof.Machine.execLpoll c form pa m s
  | .lpeer c w64 same d a m => Sys2Proof.Machine.execLpeer c w64 same d a m s
  | .lred c op ty d a m => Sys2Proof.Machine.execLred c op ty d a m s
  | .lscan c op ty excl d a m => Sys2Proof.Machine.execLscan c op ty excl d a m s
  | .llead c hi qd m => Sys2Proof.Machine.execLlead c hi qd m s
  | .lbcast c w64 d a b m => Sys2Proof.Machine.execLbcast c w64 d a b m s
  | .bra c imm => Sys2Proof.Machine.execBra c imm s
  | .call c d imm => Sys2Proof.Machine.execCall c d imm s
  | .brx c rel a => Sys2Proof.Machine.execBrx c rel a s
  | .callx c rel d a => Sys2Proof.Machine.execCallx c rel d a s
  | .ret c a => Sys2Proof.Machine.execRet c a s
  | .joinset c j imm => Sys2Proof.Machine.execJoinset c j imm s
  | .joinwait c j => Sys2Proof.Machine.execJoinwait c j s
  | .joindrop c j => Sys2Proof.Machine.execJoindrop c j s
  | .exit c => Sys2Proof.Machine.execExit c s
  | .yield c => Sys2Proof.Machine.execYield c s
  | .nop c => Sys2Proof.Machine.execNop c s
  | .sleep c n => Sys2Proof.Machine.execSleep c n s
  | .ipf c n level imm => Sys2Proof.Machine.execIpf c n level imm s
  | .ld c sz d mem => Sys2Proof.Machine.execLd c sz d mem s
  | .st c sz mem b => Sys2Proof.Machine.execSt c sz mem b s
  | .ldk c sz d mem => Sys2Proof.Machine.execLdk c sz d mem s
  | .lds c sz d a imm => Sys2Proof.Machine.execLds c sz d a imm s
  | .sts c sz a imm b => Sys2Proof.Machine.execSts c sz a imm b s
  | .ldg c sz d a imm => Sys2Proof.Machine.execLdg c sz d a imm s
  | .stg c sz a imm b => Sys2Proof.Machine.execStg c sz a imm b s
  | .prf c l2 mem => Sys2Proof.Machine.execPrf c l2 mem s
  | .cline c op mem => Sys2Proof.Machine.execCline c op mem s
  | .objrd c hi d obj => Sys2Proof.Machine.execObjrd c hi d obj s
  | .otsync c => Sys2Proof.Machine.execOtsync c s
  | .atom c op w64 sc ord d mem b => Sys2Proof.Machine.execAtom c op w64 sc ord d mem b s
  | .atomcas c w64 sc ord d mem b => Sys2Proof.Machine.execAtomcas c w64 sc ord d mem b s
  | .red c op w64 sc ord mem b => Sys2Proof.Machine.execRed c op w64 sc ord mem b s
  | .atomf c op noret sc ord d mem b => Sys2Proof.Machine.execAtomf c op noret sc ord d mem b s
  | .bankop c op ty sc ord mem b => Sys2Proof.Machine.execBankop c op ty sc ord mem b s
  | .bankred c op ty sc ord d mem n => Sys2Proof.Machine.execBankred c op ty sc ord d mem n s
  | .cpy c dst mem b => Sys2Proof.Machine.execCpy c dst mem b s
  | .cpyt c dst st mem b => Sys2Proof.Machine.execCpyt c dst st mem b s
  | .cpymc c dst mem b => Sys2Proof.Machine.execCpymc c dst mem b s
  | .waitany c qe d m => Sys2Proof.Machine.execWaitany c qe d m s
  | .waitall c qe d m => Sys2Proof.Machine.execWaitall c qe d m s
  | .ffr c d m => Sys2Proof.Machine.execFfr c d m s
  | .tagclr c m => Sys2Proof.Machine.execTagclr c m s
  | .tagrd c d t => Sys2Proof.Machine.execTagrd c d t s
  | .bar c arv id n => Sys2Proof.Machine.execBar c arv id n s
  | .fence c ord sc => Sys2Proof.Machine.execFence c ord sc s
  | .boinit c a imm b => Sys2Proof.Machine.execBoinit c a imm b s
  | .boexpect c add a imm b => Sys2Proof.Machine.execBoexpect c add a imm b s
  | .boarrive c tx sc ret a imm b => Sys2Proof.Machine.execBoarrive c tx sc ret a imm b s
  | .bowait c sc d a imm b => Sys2Proof.Machine.execBowait c sc d a imm b s
  | .botest c sc d a imm b => Sys2Proof.Machine.execBotest c sc d a imm b s
  | .acq c sh qd obj => Sys2Proof.Machine.execAcq c sh qd obj s
  | .tryacq c sh qd obj => Sys2Proof.Machine.execTryacq c sh qd obj s
  | .rel c obj => Sys2Proof.Machine.execRel c obj s
  | .publish c obj => Sys2Proof.Machine.execPublish c obj s
  | .mma c p => Sys2Proof.Machine.execMma c p s
  | .wload c bfmt cmp bscl buf mem b => Sys2Proof.Machine.execWload c bfmt cmp bscl buf mem b s
  | .wdrop c buf => Sys2Proof.Machine.execWdrop c buf s
  | .accld c fmt mem b => Sys2Proof.Machine.execAccld c fmt mem b s
  | .accst c fmt rm sat mem b => Sys2Proof.Machine.execAccst c fmt rm sat mem b s
  | .accz c a => Sys2Proof.Machine.execAccz c a s
  | .mregion c mode a => Sys2Proof.Machine.execMregion c mode a s
  | .mstat c d a => Sys2Proof.Machine.execMstat c d a s
  | .mcancel c a => Sys2Proof.Machine.execMcancel c a s
  | .wtalloc c tryy d obj b => Sys2Proof.Machine.execWtalloc c tryy d obj b s
  | .wsend c a b rank size ctag => Sys2Proof.Machine.execWsend c a b rank size ctag s
  | .wtfree c a => Sys2Proof.Machine.execWtfree c a s
  | .wtquery c d a => Sys2Proof.Machine.execWtquery c d a s
  | .wtrenew c a b => Sys2Proof.Machine.execWtrenew c a b s
  | .awlnext c d qe => Sys2Proof.Machine.execAwlnext c d qe s
  | .awlpeek c d => Sys2Proof.Machine.execAwlpeek c d s
  | .emit c qd obj b => Sys2Proof.Machine.execEmit c qd obj b s
  | .emitclose c obj => Sys2Proof.Machine.execEmitclose c obj s
  | .spawn c wait gs d a imm => Sys2Proof.Machine.execSpawn c wait gs d a imm s
  | .lastsel c d qb obj => Sys2Proof.Machine.execLastsel c d qb obj s
  | .padmask c n qd qe a => Sys2Proof.Machine.execPadmask c n qd qe a s
  | .dlread c sel qe d => Sys2Proof.Machine.execDlread c sel qe d s
  | .commit c part a => Sys2Proof.Machine.execCommit c part a s
  | .idembeg c f n => Sys2Proof.Machine.execIdembeg c f n s
  | .idemend c => Sys2Proof.Machine.execIdemend c s
  | .wrapdone c => Sys2Proof.Machine.execWrapdone c s
  | .sysrd c w64 sel d => Sys2Proof.Machine.execSysrd c w64 sel d s
  | .syswr c w64 sel a => Sys2Proof.Machine.execSyswr c w64 sel a s
  | .trap c code => Sys2Proof.Machine.execTrap c code s
  | .bkpt c code => Sys2Proof.Machine.execBkpt c code s
  | .cntrd c w64 ctr d => Sys2Proof.Machine.execCntrd c w64 ctr d s
  | .cntcfg c gc a => Sys2Proof.Machine.execCntcfg c gc a s
  | .wayset c n => Sys2Proof.Machine.execWayset c n s
  | .trapret c act disc a b m => Sys2Proof.Machine.execTrapret c act disc a b m s
  | .parkrd c sel d a n => Sys2Proof.Machine.execParkrd c sel d a n s
  | .oplog c d a n => Sys2Proof.Machine.execOplog c d a n s
  | .replay c d a => Sys2Proof.Machine.execReplay c d a s
  | .errinj c a => Sys2Proof.Machine.execErrinj c a s
  | .objectCacheFill core part idx err => Sys2Proof.Machine.execObjectCacheFill core part idx err s
  | .loadComplete core id => Sys2Proof.Machine.execLoadComplete core id s
  | .accessLogged core id why => Sys2Proof.Machine.execAccessLogged core id why s
  | .storePerform core id why => Sys2Proof.Machine.execStorePerform core id why s
  | .pageWalk core part va => Sys2Proof.Machine.execPageWalk core part va s
  | .recordRetry part => Sys2Proof.Machine.execRecordRetry part s
  | .s2fault die => Sys2Proof.Machine.execS2fault die s
  | .sleepEnd thread => Sys2Proof.Machine.execSleepEnd thread s
  | .yieldEnd thread => Sys2Proof.Machine.execYieldEnd thread s
  | .requestAccept cluster => Sys2Proof.Machine.execRequestAccept cluster s
  | .requestGrant cluster => Sys2Proof.Machine.execRequestGrant cluster s
  | .attemptCheck cluster id late ecc => Sys2Proof.Machine.execAttemptCheck cluster id late ecc s
  | .passComplete cluster id ecc => Sys2Proof.Machine.execPassComplete cluster id ecc s
  | .wloadComplete cluster id why => Sys2Proof.Machine.execWloadComplete cluster id why s
  | .wdropComplete cluster id => Sys2Proof.Machine.execWdropComplete cluster id s
  | .transferComplete cluster id why => Sys2Proof.Machine.execTransferComplete cluster id why s
  | .copyEnd id why => Sys2Proof.Machine.execCopyEnd id why s
  | .cpymcBranchArrival id branch => Sys2Proof.Machine.execCpymcBranchArrival id branch s
  | .weltArrival id => Sys2Proof.Machine.execWeltArrival id s
  | .roundDelivery id why => Sys2Proof.Machine.execRoundDelivery id why s
  | .orphanExpiry part tag => Sys2Proof.Machine.execOrphanExpiry part tag s
  | .syncRequestArrival id => Sys2Proof.Machine.execSyncRequestArrival id s
  | .syncReleasePerform id => Sys2Proof.Machine.execSyncReleasePerform id s
  | .versionIncrement id => Sys2Proof.Machine.execVersionIncrement id s
  | .waysetTakesEffect core => Sys2Proof.Machine.execWaysetTakesEffect core s
  | .recordEnqueue id => Sys2Proof.Machine.execRecordEnqueue id s
  | .regionArmed group => Sys2Proof.Machine.execRegionArmed group s
  | .diversion die launch => Sys2Proof.Machine.execDiversion die launch s
  | .deadlineTermination die launch => Sys2Proof.Machine.execDeadlineTermination die launch s
  | .quantumEnd launch => Sys2Proof.Machine.execQuantumEnd launch s
  | .schedulerDecision die part => Sys2Proof.Machine.execSchedulerDecision die part s
  | .bankExchange core => Sys2Proof.Machine.execBankExchange core s
  | .spillFill core => Sys2Proof.Machine.execSpillFill core s
  | .launchCompletion launch => Sys2Proof.Machine.execLaunchCompletion launch s
  | .packetFetch queue why capFault => Sys2Proof.Machine.execPacketFetch queue why capFault s
  | .slotPollTimeout queue => Sys2Proof.Machine.execSlotPollTimeout queue s
  | .tornRepoll queue => Sys2Proof.Machine.execTornRepoll queue s
  | .launch queue why => Sys2Proof.Machine.execLaunch queue why s
  | .wait queue => Sys2Proof.Machine.execWait queue s
  | .waitPoll queue why => Sys2Proof.Machine.execWaitPoll queue why s
  | .heldRelease queue => Sys2Proof.Machine.execHeldRelease queue s
  | .signal queue why => Sys2Proof.Machine.execSignal queue why s
  | .xfer queue => Sys2Proof.Machine.execXfer queue s
  | .modload queue why => Sys2Proof.Machine.execModload queue why s
  | .moddrop queue => Sys2Proof.Machine.execModdrop queue s
  | .moddropComplete queue => Sys2Proof.Machine.execModdropComplete queue s
  | .graph queue why => Sys2Proof.Machine.execGraph queue why s
  | .preemptRequeue queue => Sys2Proof.Machine.execPreemptRequeue queue s
  | .preemptSuspend queue => Sys2Proof.Machine.execPreemptSuspend queue s
  | .preemptResume queue => Sys2Proof.Machine.execPreemptResume queue s
  | .preemptCancel queue => Sys2Proof.Machine.execPreemptCancel queue s
  | .apertureGate part => Sys2Proof.Machine.execApertureGate part s
  | .apertureUngate part => Sys2Proof.Machine.execApertureUngate part s
  | .invalidationComplete part stage2 => Sys2Proof.Machine.execInvalidationComplete part stage2 s
  | .ualcfgTakesEffect die => Sys2Proof.Machine.execUalcfgTakesEffect die s
  | .railStep cluster => Sys2Proof.Machine.execRailStep cluster s
  | .railSettled cluster => Sys2Proof.Machine.execRailSettled cluster s
  | .dividerChange cluster => Sys2Proof.Machine.execDividerChange cluster s
  | .controllerSample cluster => Sys2Proof.Machine.execControllerSample cluster s
  | .snapshotRefresh slice => Sys2Proof.Machine.execSnapshotRefresh slice s
  | .partitionFreed part => Sys2Proof.Machine.execPartitionFreed part s
  | .unassignedOpcode w => Sys2Proof.Machine.execUnassignedOpcode w s
  | .instructionLineFill core line parityErr => Sys2Proof.Machine.execInstructionLineFill core line parityErr s
  | .sfuDivResult core id bad => Sys2Proof.Machine.execSfuDivResult core id bad s
  | .scratchZeroFill core => Sys2Proof.Machine.execScratchZeroFill core s
  | .xferComplete queue why => Sys2Proof.Machine.execXferComplete queue why s
  | .launchRegisterStore queue bytes => Sys2Proof.Machine.execLaunchRegisterStore queue bytes s
  | .qcfgEnSet queue v => Sys2Proof.Machine.execQcfgEnSet queue v s
  | .qcfgEnClear queue v => Sys2Proof.Machine.execQcfgEnClear queue v s
  | .qctlResume queue => Sys2Proof.Machine.execQctlResume queue s
  | .qctlSkip queue => Sys2Proof.Machine.execQctlSkip queue s
  | .resumeReplay part handle secure => Sys2Proof.Machine.execResumeReplay part handle secure s
  | .resumeRetry part handle secure => Sys2Proof.Machine.execResumeRetry part handle secure s
  | .resumeSkip part handle secure => Sys2Proof.Machine.execResumeSkip part handle secure s
  | .resumeKill part handle secure => Sys2Proof.Machine.execResumeKill part handle secure s
  | .frtailWrite part v => Sys2Proof.Machine.execFrtailWrite part v s
  | .s1inval part v => Sys2Proof.Machine.execS1inval part v s
  | .registerWrite fn off v => Sys2Proof.Machine.execRegisterWrite fn off v s
  | .bankcfgWrite die v => Sys2Proof.Machine.execBankcfgWrite die v s
  | .ualcfgRetrain die v => Sys2Proof.Machine.execUalcfgRetrain die v s
  | .rcvsetWrite cluster v => Sys2Proof.Machine.execRcvsetWrite cluster v s
  | .rcfsetWrite cluster v => Sys2Proof.Machine.execRcfsetWrite cluster v s
  | .calvsafe v => Sys2Proof.Machine.execCalvsafe v s
  | .calvsafeRun vmin => Sys2Proof.Machine.execCalvsafeRun vmin s
  | .htrain stack v => Sys2Proof.Machine.execHtrain stack v s
  | .hbmTrainingDone stack ok => Sys2Proof.Machine.execHbmTrainingDone stack ok s
  | .ecsRead stack readings => Sys2Proof.Machine.execEcsRead stack readings s
  | .s2map die part seq gpa pa bytes r w x => Sys2Proof.Machine.execS2map die part seq gpa pa bytes r w x s
  | .s2unmap die part seq gpa bytes => Sys2Proof.Machine.execS2unmap die part seq gpa bytes s
  | .s2root die part seq pa => Sys2Proof.Machine.execS2root die part seq pa s
  | .pcreate die part seq test => Sys2Proof.Machine.execPcreate die part seq test s
  | .pdestroy die part seq => Sys2Proof.Machine.execPdestroy die part seq s
  | .s2reply die part seq handle mapped => Sys2Proof.Machine.execS2reply die part seq handle mapped s
  | .fwstage die seq pa bytes sigOk => Sys2Proof.Machine.execFwstage die seq pa bytes sigOk s
  | .fwactivate seq => Sys2Proof.Machine.execFwactivate seq s
  | .attest die seq pa nonce => Sys2Proof.Machine.execAttest die seq pa nonce s
  | .ptpSync within => Sys2Proof.Machine.execPtpSync within s
  | .flitReplay link ok => Sys2Proof.Machine.execFlitReplay link ok s
  | .bridgeRetrain d1 d2 => Sys2Proof.Machine.execBridgeRetrain d1 d2 s
  | .ualinkRequest die part req => Sys2Proof.Machine.execUalinkRequest die part req s
  | .bar4Access pa write bytes ue => Sys2Proof.Machine.execBar4Access pa write bytes ue s
  | .powerOn romOk trainOk => Sys2Proof.Machine.execPowerOn romOk trainOk s
  | .laceRetrain die => Sys2Proof.Machine.execLaceRetrain die s
  | .ptpAnnounceTimeout => Sys2Proof.Machine.execPtpAnnounceTimeout s
  | .coldReset => Sys2Proof.Machine.execColdReset s
  | .powerOff => Sys2Proof.Machine.execPowerOff s

end Sys2Proof.Machine
end

