-- ==== Sys2Proof/Machine/Issue.lean ====
section
/-! DEFINITION. Issue: which threads are eligible, PC groups, the two slots of a core clock, threads that issue a waiting
instruction again, consumers of logged accesses, lookahead violations (R26 to R34, R68, R107, R339, R348). -/

namespace Sys2Proof.Machine

/-! ### What an instruction is -/

/-- Of a latency class of 8 clocks or more (R33). -/
def isLong : Instr → Bool
  | .idiv .. | .irem .. | .fdiv .. | .sqrt .. | .rcp .. | .rsq .. | .ex2 .. | .lg2 .. | .sin .. | .cos .. | .tanh .. | .sigm ..
  | .qblk .. | .lxch .. | .lpoll .. | .lpeer .. | .lred .. | .lscan .. | .llead .. | .lbcast .. | .bar .. | .idembeg ..
  | .ld .. | .st .. | .ldk .. | .lds .. | .sts .. | .ldg .. | .stg .. | .cline .. | .objrd .. | .atom .. | .atomcas .. | .red ..
  | .atomf .. | .bankop .. | .bankred .. | .cpy .. | .cpyt .. | .cpymc .. | .fence .. | .boinit .. | .boexpect .. | .boarrive ..
  | .bowait .. | .botest .. | .acq .. | .tryacq .. | .rel .. | .publish .. | .mma .. | .wload .. | .wdrop .. | .accld ..
  | .accst .. | .accz .. | .mstat .. | .mcancel .. | .wtalloc .. | .wsend .. | .wtfree .. | .wtquery .. | .wtrenew ..
  | .awlnext .. | .awlpeek .. | .emit .. | .emitclose .. | .spawn .. | .lastsel .. | .commit .. | .trapret .. | .parkrd ..
  | .oplog .. | .replay .. => true
  | _ => false

/-- An instruction that needs FMA datapaths: whether it is an FP64 form (R107). -/
def fmaForm : Instr → Option Bool
  | .fadd _ f _ _ _ _ | .fsub _ f _ _ _ _ | .fmul _ f _ _ _ _ | .ffma _ f _ _ _ _ _ | .faddi _ f _ _ _ _ | .fmuli _ f _ _ _ _
  | .ffmai _ f _ _ _ _ _ | .scalex _ f _ _ _ _ | .frnd _ f _ _ _ => some f
  | .hadd2 .. | .hmul2 .. | .hfma2 .. | .fdot2 .. => some false
  | _ => none

/-- It waits for every earlier load and returning atomic of its thread (R348). -/
def awaitsLoads : Instr → Bool
  | .fence .. | .boarrive .. | .bar .. | .rel .. | .emit .. | .commit .. | .publish .. | .wrapdone .. => true
  | .atom _ _ _ _ o _ _ _ | .atomcas _ _ _ o _ _ _ | .red _ _ _ _ o _ _ | .atomf _ _ _ _ o _ _ _ | .bankop _ _ _ _ o _ _ =>
    o == .rel || o == .ar
  | _ => false

/-- The instructions of classes 0x7 and 0x8 that reach memory. -/
def isMemory : Instr → Bool
  | .ld .. | .st .. | .ldk .. | .lds .. | .sts .. | .ldg .. | .stg .. | .prf .. | .cline .. | .objrd .. | .atom .. | .atomcas ..
  | .red .. | .atomf .. | .bankop .. | .bankred .. => true
  | _ => false

/-! ### The scoreboard and the windows (R32, R33) -/

/-- The k registers that a waiting instruction of a thread has yet to write for its PC group. -/
def waitDests (th : Thread) (t : Nat) : List (Reg × Nat) :=
  let kOf (i : Instr) : List (Reg × Nat) := (usesOf i).wk.filterMap (fun p => if h : p.1 < 128 then some (.k ⟨p.1, h⟩, p.2) else none)
  match th.run, th.held with
  | .waiting (.bowait _ (some d) _), _ => [(d, 1)]
  | .waiting (.tags _ (some d) _ _), _ => [(d, 2)]
  | .waiting _, some h => if h.lead = some t then (match decodeWord h.word with | .ok i => kOf i | .error _ => []) else []
  | _, _ => []

/-- The k registers that the open instances of a group will write, beside the one that the thread itself is to join (R140). -/
def crossDests (x : Core) (g t : Nat) (pc : DWord) : List (Reg × Nat) :=
  (x.cross.filter (fun y => y.group == g && !(y.turn == turnOf t && y.pc == pc && (y.half == 2 || y.half == laneOf t / 32)))).flatMap (fun y =>
    (usesOf y.op).wk.filterMap (fun p => if h : p.1 < 128 then some (.k ⟨p.1, h⟩, p.2) else none))

/-- Destinations not yet written that hold back a thread: its own, and k registers of its group (R18, R32). -/
def pendingDests (s : State) (t : Nat) : List (Reg × Nat) :=
  let x := s.core (coreOfThread t)
  let g := (s.thread t).group
  let mine (u : Nat) (r : Reg) : Bool := match r with
    | .v _ => u == t
    | .k _ => (s.thread u).group == g
  let some' (u n : Nat) (d : Option Reg) : Option (Reg × Nat) := match d with
    | some r => if mine u r then some (r, n) else none
    | none => none
  x.loads.filterMap (fun e => some' e.thread e.nd e.d) ++ x.olog.filterMap (fun e => some' e.e.thread e.e.nd e.e.d) ++
    x.sfu.filterMap (fun e => some' e.thread e.res.length e.d) ++
    x.late.flatMap (fun e => e.regs.filterMap (fun p => some' e.thread p.2.length (some p.1))) ++
    (s.threadsOf g).flatMap (fun p => (waitDests p.2 p.1).filter (fun d => Reg.isK d.1)) ++ crossDests x g t (s.thread t).pc

/-- Predicates of the thread not yet written. -/
def pendingPreds (s : State) (t : Nat) : List Nat := (lateOf s t).flatMap (fun e => e.preds.map (·.1))

def Uses.touchesPred (u : Uses) (q : Nat) : Bool := u.rq.contains q || u.wq.contains q

def hazard (s : State) (t : Nat) (i : Instr) : Bool :=
  let u := usesOf i
  (pendingDests s t).any (fun p => u.touches p.1 p.2) || (pendingPreds s t).any u.touchesPred

/-- A store-buffer entry of the thread that holds a window (R33). -/
def StoreEntry.holdsWindow (e : StoreEntry) : Bool := e.win && !e.held

/-- The next instruction lies inside the window of every long-latency instruction in flight; logged accesses hold no window. In
a DET launch nothing of the group is in flight, no engine request of it waits for acceptance, and its accesses have performed
(R339; DEDUCED, log entry 30). -/
def windowOpen (s : State) (t : Nat) : Bool :=
  let x := s.core (coreOfThread t)
  let g := (s.thread t).group
  if s.detOf t then
    x.loads.all (fun e => e.group != g) && x.sfu.all (fun e => (s.thread e.thread).group != g) && x.late.all (fun e => e.group != g) &&
      x.stores.all (fun e => e.group != g || e.held) && syncClear s g && (s.liveOf g).all (fun p => !passingWait p.2 && p.2.run != .waiting .engine)
  else (loadsOf s t).all (fun e => e.left != 0) && (sfuOf s t).all (fun e => e.left != 0) && (lateOf s t).all (fun e => e.left != 0) &&
    (storesOf s t).all (fun e => !e.holdsWindow || e.left != 0)

def longInFlight (s : State) (t : Nat) : Nat :=
  (loadsOf s t).length + (loggedOf s t).length + (sfuOf s t).length + ((lateOf s t).filter (·.long)).length +
    ((storesOf s t).filter (·.win)).length

/-- A fill of an object-cache entry that the word names waits at a stack that trains: the instruction issues after it (R415; DEDUCED,
log entry 38). -/
def fillHeld (s : State) (t : Nat) (w : IWord) : Bool :=
  (wordObjs s t w).any (fun i => captureHeldUp s (coreOfThread t) (s.partOf t) i)

/-- An instruction that executes for the thread; one guarded off is no long-latency instruction (R31). -/
def executesFor (s : State) (t : Nat) (i : Instr) : Bool :=
  match ctlOf i with
  | some c => guardOf (s.thread t) c
  | none => true

/-- An instruction whose access takes an entry of the load queue (R347). -/
def entersLoads : Instr → Bool
  | .ld .. | .lds .. | .ldg .. | .atom .. | .atomcas .. | .atomf .. | .bankred .. => true
  | _ => false

/-- The load queue is full: of loads, and of logged accesses that wait for the operand log (R347). -/
def loadsFull (x : Core) : Bool := decide (loadQueueSize ≤ x.loads.length + (x.olog.filter (fun e => !e.inLog)).length)

/-- No hazard stands before the word, no more than 8 long-latency instructions will be in flight, and a load finds room in its
queue. -/
def wordFree (s : State) (t : Nat) (w : IWord) : Bool :=
  match decodeWord w with
  | .error _ => true
  | .ok i => !hazard s t i && !(isLong i && executesFor s t i && decide (8 ≤ longInFlight s t)) &&
      !(entersLoads i && executesFor s t i && loadsFull (s.core (coreOfThread t)))

/-! ### Eligibility (R26, R140, R278, R338) -/

/-- The group of a DET launch has made its QUANTUM issues. -/
def quantumSpent (s : State) (t : Nat) : Bool :=
  match s.launchOf t with
  | some l => l.detOn && decide (l.r.quantum ≤ l.issues)
  | none => false

/-- The launch runs and all its groups are resident. -/
def groupIssues (s : State) (gk : Nat) : Bool :=
  let lk := (s.group gk).launch
  match tfind s.launches lk with
  | some l => l.st == .running && s.groups.all (fun p => p.2.launch != lk || p.2.swap == .resident) &&
      (!l.detOn || l.token == gk)
  | none => false

inductive Elig where
  | yes
  /-- It fails only the condition of the instruction cache. -/
  | fetch
  | other
  deriving DecidableEq, Repr

def eligOf (s : State) (t : Nat) : Elig :=
  let th := s.thread t
  if th.run != .running || th.detHeld || (s.core (coreOfThread t)).rests.contains t || !groupIssues s th.group || diverting s t ||
      quantumSpent s t || crossBusy s t || !windowOpen s t then .other
  else
    match fetchOf s t with
    | .fault _ => .yes
    | .lost .. => .yes
    | .miss => .fetch
    | .word w => if wordFree s t w && !fillHeld s t w then .yes else .other

def threadsOn (s : State) (core : Nat) : List Nat := (s.threads.filter (fun p => coreOfThread p.1 == core)).map (·.1)

/-! ### PC groups (R27) -/

/-- `t`, and in each other lane the first of the candidates, which ascend by turn. -/
def pickLanes (t : Nat) : List Nat → List Nat → List Nat
  | [], _ => []
  | u :: us, seen =>
    if u == t || (laneOf u != laneOf t && !seen.contains (laneOf u)) then u :: pickLanes t us (laneOf u :: seen)
    else pickLanes t us seen

/-- The PC group around `t`, in ascending slot and so in ascending %tid. -/
def pcGroup (s : State) (t : Nat) (cands : List Nat) : List Nat :=
  let th := s.thread t
  pickLanes t (cands.filter (fun u => (s.thread u).group == th.group && (s.thread u).pc == th.pc)) []

/-! ### The slots (R28, R107, R339) -/

/-- The first at or after P, cyclically. -/
def fromP (p : Nat) (ts : List Nat) : Option Nat :=
  match ts.find? (fun t => decide (p ≤ slotOfThread t)) with
  | some t => some t
  | none => ts.head?

def eligibleOn (s : State) (core : Nat) : List Nat := (threadsOn s core).filter (fun t => eligOf s t == .yes)

/-- A thread of the token's group that counts for the choice of a DET launch. -/
def detLive (s : State) (t : Nat) : Bool :=
  let th := s.thread t
  groupIssues s th.group && !th.detHeld && !crossBusy s t && (match th.run with
    | .running => true
    | .sleeping _ => true
    | .resting _ => true
    | _ => false)

/-- The thread slot 0 chooses. -/
def slot0 (s : State) (core : Nat) : Option Nat :=
  let p := (s.core core).p
  match fromP p ((threadsOn s core).filter (fun t => s.detOf t && detLive s t)) with
  | some t => if eligOf s t == .yes then some t else none
  | none => fromP p (eligibleOn s core)

/-- What the next word of a thread decodes to. -/
def nextInstr (s : State) (t : Nat) : Option Instr :=
  match fetchOf s t with
  | .word w => (decodeWord w).toOption
  | _ => none

/-- A PC group whose next instruction needs FMA datapaths would use one that an FP64 form of the clock before holds (R107). -/
def fmaBlocked (x : Core) (ms : List Nat) (need : Option Bool) : Bool := need.isSome && ms.any (fun t => x.fmaHeld.contains (laneOf t))

/-- A PC group of slot 1 may issue beside slot 0: it fetches from another bank, and shares no lane's FMA datapaths with slot 0's
choice where either is an FP64 form. Of other units the spec gives no number, and the slots share none (R107; DESIGN CHOICE, log entry
100). -/
def besideSlot0 (s : State) (x : Core) (bank : Option Nat) (lanes : List Nat) (dbl : Bool) (u : Nat) (ms : List Nat) : Bool :=
  let need := (nextInstr s u).bind fmaForm
  bank != some (bankOfPc (s.thread u).pc) && !fmaBlocked x ms need &&
    (match need with
     | none => true
     | some d => !(d || dbl) || ms.all (fun t => !lanes.contains (laneOf t)))
where
  bankOfPc (pc : DWord) : Nat := pc.toNat / 16 % 8

/-- The PC group that R30 prefers: that around the lowest-numbered thread of one that issued with SH = 10 in the clock before, for
up to 4 issues in a row; of two, that of slot 0 (DEDUCED and DESIGN CHOICE, log entry 57). -/
def preferred (s : State) (x : Core) (cands : List Nat) (ok : Nat → List Nat → Bool) : Option (Nat × List Nat) :=
  x.holds.findSome? (fun h =>
    match h.1 with
    | u :: _ =>
      let ms := pcGroup s u cands
      if h.2 < 4 && cands.contains u && ok u ms then some (u, ms) else none
    | [] => none)

/-- The PC group with the most threads among those that may issue; of several, that of the lowest slot (R28). -/
def largest (s : State) (cands : List Nat) (ok : Nat → List Nat → Bool) : Option (Nat × List Nat) :=
  cands.foldl (fun best u =>
    let ms := pcGroup s u cands
    if ok u ms && decide ((best.map (·.2.length)).getD 0 < ms.length) then some (u, ms) else best) none

/-- Slot 1's choice among the threads `es` that were eligible when the clock's slots began. A DET launch uses slot 0 only (R339). -/
def slot1 (s : State) (core : Nat) (es : List Nat) (bank : Option Nat) (lanes : List Nat) (dbl : Bool) : Option (Nat × List Nat) :=
  let x := s.core core
  let cands := es.filter (fun u => !x.issued.contains u && !s.detOf u && eligOf s u == .yes)
  let ok := besideSlot0 s x bank lanes dbl
  match preferred s x cands ok with
  | some p => some p
  | none => largest s cands ok

/-- What a slot of a core would issue next in this clock. -/
structure Choice where
  slot : Nat
  t : Nat
  ms : List Nat
  /-- What the core notes when the slots of its clock begin (`Core.begun`). -/
  begun : List Nat × Option Nat × List Nat × Bool

/-- Slot 0 issues its choice, or stays empty while the datapaths that needs are held; then slot 1 makes its choice (R28, R107). -/
def nextIssue (s : State) (core : Nat) : Option Choice :=
  let x := s.core core
  match x.begun with
  | none =>
    match slot0 s core with
    | none => none
    | some t =>
      let es := eligibleOn s core
      let ms := pcGroup s t es
      let need := (nextInstr s t).bind fmaForm
      let lanes := if need.isSome then ms.map laneOf else []
      if fmaBlocked x ms need then
        (slot1 s core es none lanes false).map (fun p => ⟨1, p.1, p.2, (es, none, lanes, false)⟩)
      else some ⟨0, t, ms, (es, some (besideSlot0.bankOfPc (s.thread t).pc), lanes, need == some true)⟩
  | some (es, bank, lanes, dbl) =>
    if bank.isSome && x.slotsUsed == 1 then (slot1 s core es bank lanes dbl).map (fun p => ⟨1, p.1, p.2, (es, bank, lanes, dbl)⟩)
    else none

/-- A slot of the core has a PC group to issue in this clock. -/
def issueDue (s : State) (core : Nat) : Bool := (nextIssue s core).isSome

/-! ### Issuing (R28, R36, R68, R405) -/

def trapAll (s : State) (ms : List Nat) (code detail : Nat) : State := ms.foldl (fun s t => takeTrap s t code detail 0 0 false) s

/-- The count of consecutive issues with SH = 10 by the same threads; after the fourth it starts again (R30). -/
def holdCount (x : Core) (ms : List Nat) : Nat :=
  match x.holds.find? (fun h => h.1 == ms) with
  | some h => if h.2 < 4 then h.2 + 1 else 1
  | none => 1

/-- The core's slot is used, P moves, the issues are counted. -/
def issueCount (s : State) (core : Nat) (ch : Choice) (i : Option Instr) : State :=
  let lanes := if i.bind fmaForm = some true then ch.ms.map laneOf else []
  let hint := (i.bind ctlOf).map (·.sh)
  let s := s.modCore core (fun x => { x with
    p := if ch.slot = 0 then (slotOfThread ch.t + 1) % slotsPerCore else x.p
    begun := some ch.begun, slotsUsed := x.slotsUsed + 1, issued := x.issued ++ ch.ms, fmaNext := x.fmaNext ++ lanes
    holdsNext := if hint == some .hold then x.holdsNext ++ [(ch.ms, holdCount x ch.ms)] else x.holdsNext
    restsNext := if hint == some .yield then x.restsNext ++ ch.ms else x.restsNext
    cnt := bump 1 0x11 x.cnt })
  let s := s.modLaunch (s.group (s.thread ch.t).group).launch (fun l => if l.detOn then { l with issues := l.issues + 1 } else l)
  ch.ms.foldl (fun s u =>
    let long := match i with
      | some j => isLong j && executesFor s u j
      | none => false
    gcEvent (if long then gcEvent s 6 u 1 else s) 1 u 1) s

/-- The PC group `ms` executes a word: steps 2 to 6 of R68. `held` is what it read at issue, when it has waited since. -/
def runWord (s : State) (core : Nat) (ms : List Nat) (bad : List Bad) (pc : DWord) (w : IWord) (held : Option Held) : Out :=
  let s := { s with iss := ⟨core, ms, bad, pc, w, held⟩ }
  match decodeWord w with
  | .error _ => .next (trapAll s ms 2 0)
  | .ok i =>
    if (usesOf i).inRange ((ms.head?.map (fun t => (s.group (s.thread t).group).regs)).getD 0) then exec i s
    else .next (trapAll s ms 3 0)

/-- A PC group issues. -/
def issue (s : State) (core : Nat) (ch : Choice) (bad : List Bad) : Out :=
  let pc := (s.thread ch.t).pc
  match fetchOf s ch.t with
  | .miss => .next s
  | .lost code detail bad =>
    let s' := issueCount s core ch none
    .next (ch.ms.foldl (fun s u => takeTrap s u code detail pc 0 false) (match bad with | some l => countUeAt s' l detail | none => s'))
  | .fault f =>
    let detail := f.detail needX + (if f.stage2 then 2 ^ 15 else 0)
    let s' := issueCount s core ch none
    .next (ch.ms.foldl (fun s u => takeTrap s u 5 detail pc f.gpa f.s1walk)
      (if f.cause = 5 then countWalkUe s' (s.partOf ch.t) pc.toNat else s'))
  | .word w => runWord (issueCount s core ch (decodeWord w).toOption) core ch.ms bad pc w none

/-! ### Threads that wait to issue their instruction again -/

/-- 1 waits again, 2 completes before a diversion, 3 AWLNEXT, 4 another blocking instruction; 0 none of these. -/
def againKind (th : Thread) : Nat :=
  match th.run with
  | .waiting .again => 1
  | .waiting .finish => 2
  | .waiting (.awl _ _) => 3
  | .waiting .room => 4
  | _ => 0

/-- A swap of the group is requested, and an instruction of it that has issued completes before the group is at a boundary (R37). -/
def groupLeaves (s : State) (gk : Nat) : Bool :=
  match tfind s.launches (s.group gk).launch with
  | some l => (l.st == .running || l.st == .swappingOut) && ((s.group gk).swap == .requested || (s.group gk).swap == .resident)
  | none => false

/-- The thread may look again. In a DET launch a blocking instruction sees what it waits for at the start of a quantum (R339). -/
def mayRetry (s : State) (t : Nat) : Bool :=
  let th := s.thread t
  againKind th != 0 && !th.detHeld && (groupIssues s th.group || (passingWait th && groupLeaves s th.group)) &&
    (!diverting s t || againKind th == 2) &&
    (match s.launchOf t with
     | some l => !l.detOn || l.issues == 0 || againKind th < 3
     | none => false)

/-- The instruction it issued acts, with the threads of its PC group that still wait in it. It uses no slot, and has no effect
unless some thread gets on. -/
def retry (s : State) (core t : Nat) (bad : List Bad) : Out :=
  let th := s.thread t
  match th.held with
  | none => .next s
  | some h =>
    let ms := pcGroup s t ((threadsOn s core).filter (fun u => (s.thread u).held == some h && mayRetry s u))
    match runWord s core ms bad th.pc h.word (some h) with
    | .next s' => if ms.all (fun u => (s'.thread u).run == (s.thread u).run) then .next s else .next s'
    | o => o

/-! ### Consumers and violations (R34, R348) -/

/-- The instruction consumes what a logged access of its thread has yet to write. -/
def consumes (s : State) (t : Nat) (i : Instr) : Bool :=
  (loggedOf s t).any (fun l =>
    awaitsLoads i || (orderAcq l.e.acc && isMemory i) ||
      (match l.e.d with
       | some d => (usesOf i).touches d l.e.nd
       | none => false))

/-- A hazard on the destination of an instruction in flight inside whose window the instruction lies. The k register that a PC group's
instruction names is the destination for each of its threads (R18, R34). -/
def violates (s : State) (t : Nat) (i : Instr) : Bool :=
  let u := usesOf i
  let hits (d : Reg) (n : Nat) : Bool := u.touches d n && (pendingDests s t).any (fun p => u.touches p.1 p.2)
  (loadsOf s t).any (fun e => e.left != 0 && hits e.dn e.nd) || (sfuOf s t).any (fun e => e.left != 0 && hits e.dn e.res.length) ||
    (lateOf s t).any (fun e => e.long && e.left != 0 && (e.names.any (fun p => hits p.1 p.2) || e.preds.any (fun p => u.touchesPred p.1)))

/-- A thread whose next instruction is a consumer parks; a lookahead violation is counted once. -/
def settleThread (s : State) (t : Nat) : State :=
  let th := s.thread t
  if !(th.run == .running || waitsAgain s t) || !(groupIssues s th.group || (passingWait th && groupLeaves s th.group)) || diverting s t then s
  else
    match nextInstr s t with
    | none => s
    | some i =>
      if consumes s t i then s.modThread t (fun x => { x with run := .parked true, stalled := false, held := none })
      else if th.run == .running && !th.stalled && !s.detOf t && violates s t i then
        let s := s.modThread t (fun x => { x with stalled := true })
        gcEvent (s.modCore (coreOfThread t) (fun x => { x with laviol := x.laviol + 1 })) 5 t 1
      else s

/-- Threads with an instruction in flight or a logged access. -/
def threadsInFlight (s : State) : List Nat :=
  s.cores.flatMap (fun p => p.2.olog.map (fun e => e.e.thread) ++ p.2.loads.map (fun e => e.thread) ++ p.2.sfu.map (fun e => e.thread) ++
    p.2.late.map (fun e => e.thread))

def settle (s : State) : State := (threadsInFlight s).foldl settleThread s

/-! ### Clocks (R403, R404, R405) -/

/-- What an empty slot is charged to: 0x12 FETCH, 0x13 OTHER, 0x14 IDLE, which no counter holds; `used` issued in the clock. -/
def emptySlot (s : State) (core : Nat) (used : List Nat) : Nat :=
  let live := (threadsOn s core).filter (fun t => (s.thread t).run != .exited && !used.contains t)
  if live.any (fun t => eligOf s t == .yes) then 0x13
  else if live.any (fun t => eligOf s t == .fetch) then 0x12
  else if live.isEmpty then 0x14
  else 0x13

/-- Charge `n` empty slots of a core. -/
def chargeSlots (s : State) (core to' n : Nat) : State :=
  if to' = 0x14 then s
  else (coreCount s core to' n).modCluster (clusterOf core) (fun k => { k with
    wslots := k.wslots.set (to' - 0x11) (k.wslots.getD (to' - 0x11) 0 + n) })

/-- The slots of a core over `n` clocks, of which the first is the clock in progress. -/
def slotClocks (s : State) (core n : Nat) : State :=
  let x := s.core core
  let first := emptySlot s core x.issued
  let later := emptySlot s core []
  let s := chargeSlots (chargeSlots s core first (2 - x.slotsUsed)) core later (2 * (n - 1))
  let s := s.modCluster (clusterOf core) (fun k => { k with wslots := k.wslots.set 0 (k.wslots.getD 0 0 + x.slotsUsed) })
  s.modCore core (fun x => { x with
    slotsUsed := 0, issued := [], begun := none, fmaHeld := if n = 1 then x.fmaNext else [], fmaNext := []
    holds := if n = 1 then x.holdsNext else [], holdsNext := []
    rests := if n = 1 then x.restsNext else [], restsNext := [] })

/-- Clocks of `n`, the first in progress, in which the thread is not eligible: not the first, if it was when the slots began. -/
def stalledClocks (s : State) (t n : Nat) : Nat :=
  match (s.core (coreOfThread t)).begun with
  | some b => if b.1.contains t then n - 1 else n
  | none => n

/-- Events 3 and 4 of R405 for a thread, an exited one too (R26), when some counter may count them. -/
def stallEvents (s : State) (n : Nat) : State :=
  let counted := s.groups.any (fun p => p.2.gc.any (fun c => (c.cfg.toNat % 4096 == 3 || c.cfg.toNat % 4096 == 4) && flag c.cfg.toNat 12))
  if counted then
    s.threads.foldl (fun s' p =>
      match eligOf s p.1 with
      | .yes => s'
      | .fetch => gcEvent s' 3 p.1 (stalledClocks s p.1 n)
      | .other => gcEvent s' 4 p.1 (stalledClocks s p.1 n)) s
  else s

/-- Rests that have ended, and sleeps that can last no longer (R30, R135, R136). -/
def wakeDue (now : Nat) (th : Thread) : Thread :=
  match th.run with
  | .resting due => if due ≤ now then { th with run := .running } else th
  | .sleeping due => if due + 64 ≤ now then { th with run := .running } else th
  | _ => th

/-- The next clock changes what threads may issue, or what a group counter counts (R30, R150). -/
def nextClockMatters (s : State) : Bool :=
  s.cores.any (fun p => !p.2.rests.isEmpty || !p.2.restsNext.isEmpty) || s.groups.any (fun p => p.2.gc.any (fun c => c.next.isSome))

/-- How many clocks pass at once: none while a slot has a PC group to issue (R28, R29), one while some thread is eligible, and
otherwise no more than until a thread that rests or sleeps must go on, a window of a rail controller ends, or a rail moves (R396,
R400). -/
def clocksFree (s : State) : Nat → Nat :=
  let cores := s.cores.map (·.1)
  if cores.any (issueDue s) then fun _ => 0
  else if cores.any (fun c => !(eligibleOn s c).isEmpty) || nextClockMatters s then fun n => min n 1
  else fun n => s.threads.foldl (fun m p => match p.2.run with
    | .resting due => min m (max 1 (due - s.clock))
    | .sleeping due => min m (max 1 (due + 64 - s.clock))
    | _ => m) (s.dies.foldl (fun m p => min m (max 1 (p.2.winDue - s.clock)))
      (s.clusters.foldl (fun m p => match moveLeft (s.die (dieOfCluster p.1)).fuse.cclk p.2 with
        | some d => min m d
        | none => m) n))

/-- A counter's value is noted at the start of a clock, and a new configuration takes effect (R149, R150). -/
def GCnt.nextClock (c : GCnt) : GCnt :=
  match c.next with
  | some (cfg, who) =>
    let v := if cfg.getLsbD 13 then 0 else c.value
    { value := v, value0 := v, cfg, who }
  | none => { c with value0 := c.value }

/-- Counters as of the start of the clock that begins. -/
def noteCounters (s : State) : State :=
  { s with
    cores := tmap (fun _ x => { x with cnt0 := x.cnt }) s.cores
    clusters := tmap (fun _ x => { x with cnt0 := x.cnt }) s.clusters
    parts := tmap (fun _ x => { x with tel0 := x.tel }) s.parts
    groups := tmap (fun _ g => { g with gc := g.gc.map GCnt.nextClock }) s.groups }

/-- `n` core clocks pass: on every die also its deadline clock, at exactly its nominal rate, which only `Act.dltime` corrects (R296;
DESIGN CHOICE, log entry 11), in every cluster its matrix clock (R394, R403). -/
def passClocks (s : State) (n : Nat) : State :=
  let c := s.clock
  let s := stallEvents (weltExpire s n) n
  let s := (s.cores.map (·.1)).foldl (fun s k => slotClocks s k n) s
  let mhz (d : Nat) : Nat := (s.die d).fuse.cclk
  noteCounters (sampleClocks <| snapClocks { s with
    clock := c + n
    threads := tmap (fun _ th => wakeDue (c + n) th) s.threads
    dies := tmap (fun _ d => { d with dlclk := d.dlclk + ((c + n) * 1000 / d.fuse.cclk - c * 1000 / d.fuse.cclk) }) s.dies
    clusters := tmap (fun k x =>
      let f := 1000 + 25 * x.fstep
      let m := mhz (dieOfCluster k)
      moveClocks m n (fifoClocks f m n c { x with mclk := x.mclk + (matrixClock f m (c + n) - matrixClock f m c) })) s.clusters })

/-- Up to `n` core clocks pass. -/
def tick (s : State) (n : Nat) : State :=
  let n := clocksFree s n
  if n = 0 then s else passClocks s n

end Sys2Proof.Machine
end

