-- ==== Sys2Proof/Machine/Auto.lean ====
section
/-! DEFINITION. What the agenda may name beside events of the opcode table, what the part does of itself when the agenda is empty,
and how a word is laid where the next step fetches it (log entries 1 and 31). -/

namespace Sys2Proof.Machine

/-! ### Acts -/

/-- An error that names a slot, of the thread there. -/
def Bad.onCore (core : Nat) : Bad → Bad
  | .checker t u => .checker (slotsPerCore * core + t) u
  | .bank t => .bank (slotsPerCore * core + t)
  | .access t why => .access (slotsPerCore * core + t) why

/-- The PC group around a slot issues, or the threads that wait there issue their instruction again, with the errors `bad`. -/
def issueAct (core slot : Nat) (bad : List Bad) (s : State) : Out :=
  let t := slotsPerCore * core + slot
  let bad := bad.map (Bad.onCore core)
  if againKind (s.thread t) ≠ 0 then (if mayRetry s t then retry s core t bad else .next s)
  else
    match nextIssue s core with
    | some ch => if ch.t = t then issue s core ch bad else .next s
    | none => .next s

/-- A row of the opcode table that no thread executes. -/
def isEvent (i : Instr) : Bool :=
  match i with
  | .unassignedOpcode _ => false
  | i => (ctlOf i).isNone

/-- An event without power: only power-on. -/
def eventAct (i : Instr) (s : State) : Out :=
  if !isEvent i then .next s
  else if s.powered then exec i s
  else
    match i with
    | .powerOn .. => exec i s
    | _ => .next s

/-- A line leaves an instruction cache. A slice replaces its lines by R309 alone. -/
def evictI (s : State) (level unit line : Nat) : State :=
  match level with
  | 0 => if (tfind s.cores unit).isSome then s.modCore unit (fun x => { x with l1i := tdel line x.l1i }) else s
  | 1 => if (tfind s.clusters unit).isSome then s.modCluster unit (fun x => { x with l2i := tdel line x.l2i }) else s
  | _ => s

def ueLineAct (s : State) (line : Nat) (bad : Bool) : State :=
  let rest := s.fw.ueLines.filter (· != line)
  { s with fw := { s.fw with ueLines := if bad then line :: rest else rest } }

/-- No core has begun its slots of this clock: every core of a die reads one %dlclk in a clock (R296). -/
def betweenClocks (s : State) : Bool := s.cores.all (fun p => p.2.begun.isNone && p.2.issued.isEmpty)

/-- A die's deadline clock may go on by n ns: a locked one stays within 100 ns of the other locked ones (R296). -/
def dlFree (s : State) (die n : Nat) : Bool :=
  match tfind s.dies die with
  | none => false
  | some d => s.powered && betweenClocks s &&
      (!d.locked || s.dies.all (fun p => p.1 == die || !p.2.locked || decide (d.dlclk + n ≤ p.2.dlclk + 100)))

/-- The links of TARGET of class 3 (R358): UALink ports, Lace, the bridges to the other dies. -/
def injLink (die target : Nat) : Link :=
  if target < 4 then .ual die target
  else if target = 4 then .lace die
  else .bridge die (((List.range nDies).filter (· != die)).getD (target - 5) 0)

/-- One draw of an injector whose events the machine does not count: a struck byte is corrected and counted, a struck flit replayed
(R359; DEDUCED, log entry 51). -/
def injDraw (s : State) (core cls : Nat) : State :=
  match tfind (s.core core).inj cls with
  | none => s
  | some i =>
    if cls ≠ 3 ∧ (cls ≠ 2 ∨ i.target = 0) then s
    else
      let r := i.draw
      let s := setInj s core cls r.2
      if !r.1 then s
      else if cls = 2 then rasCount s (dieOfCore core) 0 1
      else match execFlitReplay (injLink (dieOfCore core) i.target) true s with
        | .next s => s
        | _ => s

/-- One act of the agenda. -/
def act (a : Act) (s : State) : Out :=
  match a with
  | .issue core slot bad => issueAct core slot bad s
  | .event i => eventAct i s
  | .tick n => .next (if s.powered then tick s n else s)
  | .dltime die n => .next (if dlFree s die n then s.modDie die (fun d => { d with dlclk := d.dlclk + n }) else s)
  | .dlall n => .next (if s.powered && betweenClocks s then { s with dies := tmap (fun _ d => { d with dlclk := d.dlclk + n }) s.dies } else s)
  | .matrixTick cluster n =>
    .next (if (tfind s.clusters cluster).isSome then s.modCluster cluster (fun k => { k with mclk := k.mclk + n }) else s)
  | .fifoLag cluster =>
    .next (if (tfind s.clusters cluster).isSome then s.modCluster cluster (fun k => { k with fifoLag := true }) else s)
  | .bootStage die => .next (if (tfind s.dies die).isSome then bootNext s die else s)
  | .sliceMap die sector => .next (sliceMapRead s die sector)
  | .evict core line => .next (l1Drop s core (partOfCluster s (clusterOf core)) line)
  | .evictI level unit line => .next (evictI s level unit line)
  | .ueLine line bad => .next (ueLineAct s line bad)
  | .ueChip detail key bad =>
    let rest := s.fw.ueChip.filter (· != (detail, key))
    .next { s with fw := { s.fw with ueChip := if bad then (detail, key) :: rest else rest } }
  | .injDraw core cls => .next (injDraw s core cls)
  | .capFault die core => .next { s with fw := { s.fw with mgmtLog := s.fw.mgmtLog ++ [.capFault die core] } }
  | .forkTurn id => .next (forkTurn s id)
  | .copyByte id i => .next (copyByteAct s id i)
  | .ras die hbm => .next (if (tfind s.dies die).isSome then rasCount s die (if hbm then 2 else 0) 1 else s)
  | .block pf queue off v => .next (queueWrite s pf queue off v)
  | .launchStore fn queue bytes =>
    if !s.powered then .next s
    else if reachesQueue s fn queue then execLaunchRegisterStore queue bytes s
    else .next { s with answer := some .unsupported }
  | .hostRead fn off => .next (hostRead s fn off)
  | .hostWrite part addr data => .next { s with host := msets s.host (hostKey part addr) data }

/-! ### What happens of itself -/

/-- The way an access fails if nothing changes. -/
def failsBy (s : State) (c part t : Nat) (a : Access) : List AccFail :=
  match accResolve s c part a with
  | .error f => [if f.code = 0x53 then .linkFail 0 else .xlate]
  | .ok loc =>
    if (linkFault s (dieOfCore c) loc t).isSome then [.linkFail 0]
    else if stackStops s c a loc && !hbmHeld s loc then [.dataError ((ueDetail s loc a.kind.size).getD 1)]
    else []

/-- The walk an access waits for. -/
def walkOf (s : State) (c part : Nat) (a : Access) : List Instr :=
  if ptrSpace a.ptr == 0 && (tlbFind s c part (ptrOff a.ptr)).isNone &&
      (match walk s part a.priv (ptrOff a.ptr) a.kind.need with | .ok _ => true | .error _ => false) then
    [.pageWalk c part (ptrOff a.ptr)]
  else []

def loadEvents (s : State) (c : Nat) (e : LoadEntry) : List Instr :=
  let part := partOfLaunch s e.launch
  walkOf s c part e.acc ++ [.loadComplete c e.id] ++ (failsBy s c part e.thread e.acc).map (fun f => .accessLogged c e.id f)

def storeEvents (s : State) (c : Nat) (e : StoreEntry) : List Instr :=
  let part := partOfLaunch s e.launch
  walkOf s c part e.acc ++ [.storePerform c e.id none] ++ (failsBy s c part e.thread e.acc).map (fun f => .storePerform c e.id (some f))

def coreEvents (s : State) (c : Nat) (x : Core) : List Instr :=
  x.loads.flatMap (loadEvents s c) ++ x.late.map (fun e => .loadComplete c e.id) ++ x.stores.flatMap (storeEvents s c) ++ x.sfu.map (fun e => .sfuDivResult c e.id false) ++
    [.waysetTakesEffect c] ++
    (if (coreGroups s c).any (fun p => p.2.swap == .spilling) then [.spillFill c] else [.scratchZeroFill c])

def threadEvents (s : State) (t : Nat) (th : Thread) : List Instr :=
  match th.run with
  | .sleeping _ => [.sleepEnd t]
  | .resting _ => [.yieldEnd t]
  | .exited => []
  | .parked _ => []
  | _ =>
    match fetchOf s t, fetchLineNo s t with
    | .miss, some l => [.instructionLineFill (coreOfThread t) l false]
    | .miss, none => [.pageWalk (coreOfThread t) (s.partOf t) th.pc.toNat]
    | _, _ => []

def clusterEvents (s : State) (k : Nat) (x : Cluster) : List Instr :=
  [.requestAccept k, .requestGrant k] ++
    x.table.flatMap (fun e => [.attemptCheck k e.id [] false, .passComplete k e.id false, .wloadComplete k e.id none, .wdropComplete k e.id,
      .transferComplete k e.id none]) ++
    [.railStep k, .railSettled k, .dividerChange k] ++
    (if windowEnd s k ≤ s.clock then [.controllerSample k] else [])

def copyEvents (id : Nat) (cp : Copy) : List Instr :=
  (cp.branches.map (fun b => Instr.cpymcBranchArrival id b.1)) ++ [.weltArrival id, .copyEnd id none, .copyEnd id (some (.linkFail 0))]

def launchEvents (lk : Nat) : List Instr :=
  (List.range nDies).flatMap (fun d => [.diversion d lk, .deadlineTermination d lk]) ++ [.launchCompletion lk]

def queueEvents (s : State) (q : Nat) (x : Queue) : List Instr :=
  (if x.latch.isSome then [.apertureUngate x.part] else []) ++
    (if fetching s q then [.packetFetch q none false, .tornRepoll q] else []) ++
    [.launch q none, .wait q, .waitPoll q none, .heldRelease q, .signal q none, .xfer q, .xferComplete q none, .modload q none,
     .moddrop q, .moddropComplete q, .graph q none, .preemptRequeue q, .preemptSuspend q, .preemptResume q, .preemptCancel q]

def partEvents (p : Nat) : List Instr :=
  [.recordRetry p, .invalidationComplete p false, .invalidationComplete p true, .schedulerDecision 0 p, .partitionFreed p]

/-- Everything that may happen of itself, in the order it is tried. -/
def internalEvents (s : State) : List Instr :=
  s.threads.flatMap (fun p => threadEvents s p.1 p.2) ++ s.cores.flatMap (fun p => coreEvents s p.1 p.2) ++
    s.groups.flatMap (fun p => [.regionArmed p.1, .bankExchange p.2.core]) ++ s.clusters.flatMap (fun p => clusterEvents s p.1 p.2) ++
    s.copies.flatMap (fun p => copyEvents p.1 p.2) ++
    s.rounds.flatMap (fun p => [.roundDelivery p.1 none, .roundDelivery p.1 (some (.linkFail 0))]) ++
    s.welts.map (fun p => .orphanExpiry (p.1 / 2 ^ 32) (p.1 % 2 ^ 32)) ++
    s.syncFly.map (fun p => .syncRequestArrival p.1) ++ s.rels.map (fun p => .syncReleasePerform p.1) ++
    s.pubs.map (fun p => .versionIncrement p.1) ++ s.emits.map (fun p => .recordEnqueue p.1) ++
    s.launches.flatMap (fun p => launchEvents p.1) ++ s.queues.flatMap (fun p => queueEvents s p.1 p.2) ++
    s.parts.flatMap (fun p => partEvents p.1) ++ s.dies.flatMap (fun p => [.s2fault p.1, .ualcfgTakesEffect p.1])

/-- The state after an outcome, when it is another. -/
def changed (s : State) : Out → Option State
  | .next s' => if s' = s then none else some s'
  | _ => none

/-- The first event that has an effect. -/
def firstEvent (s : State) : List Instr → Option State
  | [] => none
  | i :: is =>
    match changed s (exec i s) with
    | some s' => some s'
    | none => firstEvent s is

/-- The first waiting thread that gets on. -/
def firstRetry (s : State) : List Nat → Option State
  | [] => none
  | t :: ts =>
    match (if mayRetry s t then changed s (retry s (coreOfThread t) t []) else none) with
    | some s' => some s'
    | none => firstRetry s ts

/-- The first core with a PC group to issue. -/
def firstIssue (s : State) : List Nat → Option (Nat × Choice)
  | [] => none
  | c :: cs =>
    match nextIssue s c with
    | some ch => some (c, ch)
    | none => firstIssue s cs

/-- Quanta that have ended pass their tokens. -/
def endQuanta (s : State) : State :=
  s.launches.foldl (fun s p => match execQuantumEnd p.1 s with | .next s' => s' | _ => s) s

/-- The first die whose boot goes on. -/
def firstBoot (s : State) : Option Nat := (s.dies.find? (fun p => booting p.2)).map (·.1)

/-- With nothing on the agenda: a die's boot goes on, else the first internal event that has an effect, else the first waiting thread that gets on, else the
second half of a firmware activation, else the first core that can issue, else quanta end and one clock passes. -/
def auto (s : State) : Out :=
  match firstBoot s with
  | some d => .next (bootNext s d)
  | none =>
  match firstEvent s (internalEvents s) with
  | some s' => .next s'
  | none =>
    match firstRetry s (s.threads.map (·.1)) with
    | some s' => .next s'
    | none =>
      match (if s.fw.activating then changed s (execFwactivate 0 s) else none) with
      | some s' => .next s'
      | none =>
        match firstIssue s (s.cores.map (·.1)) with
        | some (c, ch) => issue s c ch []
        | none => .next (tick (endQuanta s) 1)

/-! ### A word placed for the next step (log entry 31) -/

/-- A launch record of one group of one thread with 1,024 registers. -/
def wordRec : LRec :=
  { det := false, idemok := false, testonly := false, noeng := false, codeobj := 0, cls := 0, entry := 0, groupsz := 1, regs := 1024
    scrways := 0, ncores := 1, diemask := 1, levels := [], awlDims := 0, awlRec := false, chunks := [], extents := [], shape := []
    lastobj := 0, deadline := 0, wrapentry := 0, wrapbudget := 0, slackest := 0, completion := 0, node := 0, queueObj := 0, k := []
    quantum := 0, seq := 0 }

/-- A launch of partition 0 runs on core 0 of die 0 with one thread, at virtual address 0, whose page translates to physical address
0 and whose line, already in the core's instruction cache, begins with the bytes `bs`. The next act issues it. -/
def placeWord (s : State) (bs : List Byte) : State :=
  let lk := s.nextId
  let gk := s.nextId + 1
  let l : Launch := { die := 0, part := 0, id := 1, r := wordRec, queue := 0, order := 0, st := .running, base := 0, extent := 128,
                      priv := false, cores := [0], everPlaced := true }
  let g : Group := { launch := lk, core := 0, grp := 0, turn := 0, size := 1, regs := 1024, mtol := mtolDefault, pads := [] }
  let tlb : Tlb := { part := 0, va := 0, size := 4096, gpa := 0, pa := 0, l1 := none, l2 := ⟨0, 4096, 0, 31⟩, priv := false }
  { s with
    agenda := [.issue 0 0 []], nextId := s.nextId + 2, powered := true
    launches := tset lk l s.launches, groups := tset gk g s.groups, threads := tset 0 { group := gk, tid := 0 } s.threads
    cores := tset 0 { tlb := [tlb], l1i := [(0, lineOfBytes bs)] } s.cores }

end Sys2Proof.Machine
end

