-- ==== Sys2Proof/Machine/Step.lean ====
section
/-! DEFINITION. The step: the next act of the agenda, or, with none, what the part does of itself; then threads that have come to a
consumer park, and lookahead violations are counted (R34, R348; log entry 1). -/

namespace Sys2Proof.Machine

/-- After an act. -/
def settled (o : Host.Outcome State Fault Refusal) : Host.Outcome State Fault Refusal :=
  match o with
  | .next s => .next (settle s)
  | .fault f => .fault f
  | .refused r => .refused r

def step (s : State) : Host.Outcome State Fault Refusal :=
  match s.agenda with
  | a :: rest => settled (act a { s with agenda := rest })
  | [] => if s.powered then settled (auto s) else .fault .poweredOff

/-- The word of the opcode table placed where the next step fetches and issues it (log entry 31). -/
def State.withFetchWord (s : State) (nbits w : Nat) : State := placeWord s (tableBytes nbits w)

end Sys2Proof.Machine
end

