-- ==== Sys2Proof/Safety.lean ====
section
/-! DEFINITION. The notions claims are stated in: canonical memories, the PC group that issues, what an instruction leaves alone,
and what its threads are after it. -/

namespace Sys2Proof.Machine

/-! ### Canonical tables and memories -/

/-- Keys strictly rise. -/
def Rising {α : Type} (t : Tbl α) : Prop := t.Pairwise (fun a b => a.1 < b.1)

/-- Every memory of the part, saved scratch among them, is in canonical form. -/
def State.memoriesOk (s : State) : Bool :=
  s.hbm.wf && s.bank.wf && s.host.wf && s.remote.wf && s.cores.all (fun p => p.2.scratch.wf) &&
    s.launches.all (fun p => p.2.ctx.all (fun q => q.2.scratch.wf))

/-! ### The PC group that issues -/

/-- The threads of the issuing PC group are distinct, placed, of placed groups, and on the issuing core (R27). -/
structure Placed (s : State) : Prop where
  nodup : s.iss.members.Nodup
  listed : ∀ t ∈ s.iss.members, (tfind s.threads t).isSome = true
  groups : ∀ t ∈ s.iss.members, (tfind s.groups (s.thread t).group).isSome = true
  core : ∀ t ∈ s.iss.members, coreOfThread t = s.iss.core

/-- Besides, the instruction issues now, not again after a wait; no checker of the core mismatches and no residue injector is armed
there (R344, R359). -/
structure Issues (s : State) : Prop extends Placed s where
  fresh : s.iss.held = none
  clean : s.iss.bad = []
  noInjector : tfind (s.core s.iss.core).inj 4 = none

/-! ### What is left alone -/

/-- All of the state but threads, groups and cores. -/
def outerState (s : State) : State := { s with threads := [], groups := [], cores := [] }

/-- All of a core but the window counts of its long-latency instructions in flight (R33). -/
def coreBody (x : Core) : Core :=
  { x with loads := x.loads.map (fun e => { e with left := 0 }), sfu := x.sfu.map (fun e => { e with left := 0 })
           late := x.late.map (fun e => { e with left := 0 }), stores := x.stores.map (fun e => { e with left := 0 }) }

/-- The same, but for the results of long-latency instructions that wait to be written. -/
def coreRest (x : Core) : Core := { coreBody x with late := [] }

/-- From `s` to `s'` nothing changes but the threads of the issuing PC group, k registers, group counters and window counts:
every memory, every special register and every other unit is as it was. -/
structure OnlyRegisters (s s' : State) : Prop where
  outer : outerState s' = outerState s
  cores : ∀ c, coreBody (s'.core c) = coreBody (s.core c)
  groups : ∀ g, s'.group g = { s.group g with gc := (s'.group g).gc, k := (s'.group g).k }
  threads : ∀ t, t ∉ s.iss.members → s'.thread t = s.thread t

/-- From `s` to `s'` nothing changes but the threads of the issuing PC group, group counters, the model's numbering, and the results
that wait in its core: what a cross-lane instruction changes when it completes (R141). -/
structure OnlyIssued (s s' : State) : Prop where
  outer : { outerState s' with nextId := 0 } = { outerState s with nextId := 0 }
  cores : ∀ c, (if c = s.iss.core then coreRest (s'.core c) = coreRest (s.core c) else coreBody (s'.core c) = coreBody (s.core c))
  groups : ∀ g, s'.group g = { s.group g with gc := (s'.group g).gc }
  threads : ∀ t, t ∉ s.iss.members → s'.thread t = s.thread t

/-! ### What a thread is after it -/

/-- `th`, when it has retired an instruction and goes on at `next` (R23, R35). -/
def Thread.retired' (th : Thread) (next : DWord) : Thread :=
  { th with pc := next, retired := th.retired + 1, stalled := false, held := none, run := .running }

/-- Words written to a register, where it is a v register. -/
def putV (x : Thread) (p : Reg × List Word) : Thread :=
  match p.1 with
  | .v n => vwrites n.val p.2 x
  | .k _ => x

/-- Words written to a register, where it is a k register. -/
def putK (x : Group) (p : Reg × List Word) : Group :=
  match p.1 with
  | .v _ => x
  | .k n => kwrites n.val p.2 x

/-- The v registers, predicates and flags of a result. -/
def Res.onThread (r : Res) (th : Thread) : Thread :=
  { r.preds.foldl (fun x p => qwrite p.1 p.2 x) (r.regs.foldl putV th) with fpflags := th.fpflags ||| r.fl }

/-- Its k registers. -/
def Res.onGroup (r : Res) (g : Group) : Group := r.regs.foldl putK g

/-- The result of a thread of the PC group, from its registers and its group's. -/
def resultOf (s : State) (r : Thread → Group → Res) (t : Nat) : Res := r (s.thread t) (s.group (s.thread t).group)

/-- A thread of the PC group after an instruction of result `r`: with a false guard it only moves on (R31). -/
def threadAfter (s : State) (c : Ctl) (r : Thread → Group → Res) (t : Nat) : Thread :=
  let th := s.thread t
  (if guardOf th c then (resultOf s r t).onThread th else th).retired' (th.pc + 16)

/-- The k registers of a group after it: those the lead writes (R18). -/
def kAfter (s : State) (c : Ctl) (r : Thread → Group → Res) (g : Nat) : Tbl Word :=
  match leadOf s c with
  | some t => if (s.thread t).group = g then ((resultOf s r t).onGroup (s.group g)).k else (s.group g).k
  | none => (s.group g).k

/-- Instruction `i` computes `r` for each thread of a PC group with a true guard, from the registers as they stood at its issue,
retires for every thread, and changes nothing else. A k register written while a result of an SFU- or DIV-class instruction of the
PC group is outstanding is written later (R344, log entry 29): this says nothing of it. -/
def Computes (i : Instr) (c : Ctl) (r : Thread → Group → Res) : Prop :=
  ∀ s, Issues s → (sfuDone s = true ∨ ∀ t ∈ s.iss.members, (resultOf s r t).writesK = false) →
    ∃ s', exec i s = .next s' ∧ OnlyRegisters s s' ∧
      (∀ t ∈ s.iss.members, s'.thread t = threadAfter s c r t) ∧ ∀ g, (s'.group g).k = kAfter s c r g

/-! ### A PC group of one thread -/

/-- Thread `t` alone issues, its guard holds, and it has waited in no instruction before: it is the one that writes k registers
(R18, R62). -/
structure Solo (s : State) (t : Nat) (c : Ctl) : Prop extends Issues s where
  only : s.iss.members = [t]
  guard : guardOf (s.thread t) c = true
  unheld : (s.thread t).held = none

/-- No phase of the group's barriers has all its arrivals, and none is complete but for stores: none is about to complete (R221). -/
def PhasesOpen (s : State) (g : Nat) : Prop := ∀ p ∈ (s.group g).bars, p.2.count < barExpected s g p.2 ∧ p.2.closing = []

/-- Besides, no result of its SFU- and DIV-class instructions is outstanding (R344). -/
structure Alone (s : State) (t : Nat) (c : Ctl) : Prop extends Solo s t c where
  sfu : sfuOf s t = []

/-- The thread's instruction has had its effect `s`, retires, and the thread goes on at `next`. -/
def finished (t : Nat) (s : State) (next : DWord) : State := retireTo s t next

/-- The thread waits in its instruction, which has had its effect `s'`, and keeps what it read and captured as it issued (R32, R156). `s` is
the state before the instruction. -/
def waitsIn (s : State) (c : Ctl) (t : Nat) (s' : State) (w : Wait) : State :=
  captureHeld s (s'.modThread t (fun x => { x with run := .waiting w, held := some (heldOf s c t) }))

/-- The same, going on at the next instruction. -/
def finishedNext (t : Nat) (s : State) : State := finished t s ((s.thread t).pc + 16)

/-! ### A PC group at a cross-lane instruction -/

/-- The cross-lane instructions (R139) and QBLK, whose lanes gather in instances. -/
def isCross : Instr → Bool
  | .lxch .. | .lpoll .. | .lpeer .. | .lred .. | .lscan .. | .llead .. | .lbcast .. | .qblk .. => true
  | _ => false

/-- Every thread of the issuing PC group stands at `pc` in turn `n` of group `g`, its guard holds, its mask is the set `m` of the
PC group's lanes, and no instance is open there: the PC group is a whole instance (R140, R141). `half` is 2, or the block of
a QBLK. -/
structure Gathered (s : State) (c : Ctl) (mask : Thread → Group → DWord) (g n : Nat) (pc m : DWord) (half : Nat) : Prop extends
    Issues s where
  group : ∀ t ∈ s.iss.members, (s.thread t).group = g ∧ turnOf t = n ∧ (s.thread t).pc = pc
  runs : ∀ t ∈ s.iss.members, guardOf (s.thread t) c = true ∧ (s.thread t).detHeld = false
  masks : half = 2 → ∀ t ∈ s.iss.members, mask (s.thread t) (s.group g) = m
  some' : s.iss.members ≠ []
  lanes : ∀ t, t ∈ s.iss.members ↔ ∃ l, l < 64 ∧ m.getLsbD l = true ∧ t = threadAt s.iss.core n l
  closed : findCross s s.iss.core g n pc half = none

/-- What an instance reads: its group, the thread in each lane, its lanes, and whether its core is degraded (R142). -/
structure Lanes where
  group : Group
  thread : Nat → Thread
  mask : DWord
  degr : Bool

def lanesOfTurn (s : State) (g n : Nat) (m : DWord) : Lanes :=
  ⟨s.group g, fun l => s.thread (threadAt s.iss.core n l), m, (s.core s.iss.core).degr⟩

/-- The lanes of an instance, ascending. -/
def Lanes.list (x : Lanes) : List Nat := (List.range 64).filter (fun l => x.mask.getLsbD l)

/-- The result `r` of an instruction that thread `t` of group `g` has retired waits to be written in core `co`; a k register is written
for the lead alone, and q7 never (R14, R18, R33). -/
def ResultWaits (s' : State) (co t g : Nat) (lead : Bool) (r : Res) : Prop :=
  ∃ e ∈ (s'.core co).late, e.thread = t ∧ e.group = g ∧ e.long = true ∧ e.preds = r.preds.filter (fun p => p.1 != 7) ∧ e.flags = r.fl ∧
    e.regs = r.regs.filter (fun p => lead || !Reg.isK p.1)

/-- Instruction `i` of a whole instance retires for every lane, the result `r` of each waits to be written, k registers for the lowest
lane alone (R18, R141), and nothing else changes. -/
def Exchanges (i : Instr) (c : Ctl) (half : Nat) (mask : Thread → Group → DWord) (r : Lanes → Nat → Res) : Prop :=
  ∀ s g n pc m, Gathered s c mask g n pc m half →
    let x := lanesOfTurn s g n m
    ∃ s', exec i s = .next s' ∧ OnlyIssued s s' ∧ (s'.core s.iss.core).late.length = (s.core s.iss.core).late.length + x.list.length ∧
      ∀ l, l < 64 → m.getLsbD l = true →
        s'.thread (threadAt s.iss.core n l) = (x.thread l).retired' (pc + 16) ∧
        ResultWaits s' s.iss.core (threadAt s.iss.core n l) g (x.list.head? == some l) (r x l)

/-- What lane `l` reads from lane `src` in its block of `w` lanes, and whether that lane is active. Of an inactive lane it reads its
own value, or, on a degraded core, that of the highest active lane of the block below it (R142). -/
def Lanes.reads (x : Lanes) (val : Thread → Group → DWord) (w l src : Nat) : DWord × Bool :=
  let v := fun i => val (x.thread i) x.group
  if x.mask.getLsbD src then (v src, true)
  else (match x.degr, (x.list.filter (fun i => decide (l - l % w ≤ i) && decide (i < src))).getLast? with
    | true, some i => v i
    | _, _ => v l, false)

/-- An integer reduction of words in ascending lane order (R145). -/
def reduced (op : RedOp) (ty : RedTy) (xs : List Word) : Word :=
  match op, ty with
  | .add, _ => xs.foldl (· + ·) 0
  | .and, _ => xs.foldl (· &&& ·) (BitVec.allOnes 32)
  | .or, _ => xs.foldl (· ||| ·) 0
  | .xor, _ => xs.foldl (· ^^^ ·) 0
  | .min, .s32 => xs.foldl (fun a b => if a.sle b then a else b) 0x7FFFFFFF
  | .min, _ => xs.foldl (fun a b => if a.ule b then a else b) (BitVec.allOnes 32)
  | .max, .s32 => xs.foldl (fun a b => if b.sle a then a else b) 0x80000000
  | .max, _ => xs.foldl (fun a b => if b.ule a then a else b) 0

/-! ### Values, as the rules write them -/

/-- The register words of an exact integer result: clamped under .sat, reduced to w bits, and below 32 bits extended by UN
(R79, R80). -/
def intWords (m : IMod) (v : Int) : List Word :=
  let v := if m.sat then min (max v (intMin (wdBits m.wd) m.un)) (intMax (wdBits m.wd) m.un) else v
  match m.wd with
  | .w32 => [BitVec.ofInt 32 v]
  | .w64 => dwords (BitVec.ofInt 64 v)
  | .w16 => [if m.un then (BitVec.ofInt 16 v).setWidth 32 else (BitVec.ofInt 16 v).signExtend 32]
  | .w8 => [if m.un then (BitVec.ofInt 8 v).setWidth 32 else (BitVec.ofInt 8 v).signExtend 32]

/-- A result of 32 or 64 bits. -/
def wideWords (w64 : Bool) (x : DWord) : List Word := if w64 then dwords x else [lo32 x]

/-- A source of 32 or 64 bits, zero-extended. -/
def wideSrc (t : Thread) (g : Group) (w64 : Bool) (a : Src) : DWord := BitVec.ofNat 64 (srcNat t g (nregs64 w64) a)

/-- A result at width 32 or 64 by one function on words of that width. -/
def byWidth (w64 : Bool) (f : (w : Nat) → BitVec w → BitVec w) (x : DWord) : List Word :=
  if w64 then dwords (f 64 x) else [f 32 (lo32 x)]

/-- The low `len` bits of `x`, zero-extended. -/
def lowBits {w : Nat} (x : BitVec w) (len : Nat) : BitVec w := (x <<< (w - len)) >>> (w - len)

/-- The low `len` bits of `x`, sign-extended. -/
def lowSigned {w : Nat} (x : BitVec w) (len : Nat) : BitVec w := (x <<< (w - len)).sshiftRight (w - len)

/-- x where b holds, the complement of x where it does not. -/
def pick {w : Nat} (b : Bool) (x : BitVec w) : BitVec w := if b then x else ~~~x

/-- The three-input table of R92 as a sum of minterms. -/
def tableOf (lut : BitVec 8) (x y z : DWord) : DWord :=
  (List.range 8).foldl (fun acc i =>
    if lut.getLsbD i then acc ||| (pick (i.testBit 0) x &&& pick (i.testBit 1) y &&& pick (i.testBit 2) z) else acc) 0

/-! ### Entries in flight -/

/-- An SFU- or DIV-class instruction of thread `t` has issued: its result, flags and checker wait in the core's queue (R33, R344). -/
def sfuQueued (s : State) (c : Ctl) (t : Nat) (d : Reg) (unit : Nat) (ws : List Word) (fl : Fl) : State :=
  ({ s with nextId := s.nextId + 1 } : State).modCore (coreOfThread t) (fun x => { x with
    sfu := x.sfu ++ [{ id := s.nextId, thread := t, pc := (s.thread t).pc, d := some d, dn := d, res := ws, flags := fl, punit := unitFor d unit,
                       left := c.la.val + 1, before := s.thread t, seen := arrivedIn x (s.thread t).group t }] })

/-- An access of thread `t` waits in its core's load queue (R35, R347). `s0` is the state before the instruction, `s` after its
checks; the PC group's access was numbered first. -/
def loadQueued (s0 s : State) (c : Ctl) (t : Nat) (acc : Access) (d : Reg) (nd : Nat) (aop : DWord) (idx : Nat) : State :=
  let th := s0.thread t
  ({ s with nextId := s.nextId + 1 } : State).modCore (coreOfThread t) (fun x => { x with
    loads := x.loads ++ [{ id := s.nextId, thread := t, group := th.group, launch := (s0.group th.group).launch, tid := th.tid,
                           pc := th.pc, word := s0.iss.word, acc, d := some d, dn := d, nd, aop, objIdx := idx, left := c.la.val + 1,
                           batch := s0.nextId, clk := s0.clock }] })

/-- An access of thread `t` waits in entry `slot` of its core's store buffer (R162), with a window of `win` instructions where its class
opens one (R33). -/
def storeQueued (s0 s : State) (t : Nat) (acc : Access) (slot : Nat) (win : Option Nat := none) : State :=
  let th := s0.thread t
  ({ s with nextId := s.nextId + 1 } : State).modCore (coreOfThread t) (fun x => { x with
    stores := x.stores ++ [{ id := s.nextId, slot, thread := t, group := th.group, launch := (s0.group th.group).launch,
                             tid := th.tid, pc := th.pc, word := s0.iss.word, acc, batch := s0.nextId, clk := s0.clock
                             win := win.isSome, left := win.getD 0 }] })

/-- The result of thread `t`'s long-latency instruction waits to be written, its k registers too (R33, R35). -/
def resultWaits (s : State) (c : Ctl) (t : Nat) (r : Res) : State := lateRes s t (c.la.val + 1) true true r

/-- The state in which an instruction that numbers its PC group's access makes its checks. -/
def numbered (s : State) : State := { s with nextId := s.nextId + 1 }

/-- obj_check of thread `t` on memory operand `m` answers `a` with entry `e`, and leaves `s1` (R156 to R158). -/
def Checked (s : State) (t : Nat) (need : Rights) (m : MemOp) (size align : Nat) (bankOnly : Bool) (e : Nat) (a : Chk)
    (s1 : State) : Prop :=
  objCheck s t (s.thread t) (s.group (s.thread t).group) [1, 2] need m size align bankOnly = some (e, a, s1)

/-- An engine request of thread `t` is posted, and the thread waits for its acceptance and keeps its issue (R185, R32). `s0` is the state
before the instruction, `s` after its checks. -/
def enginePosted (s0 s : State) (c' : Ctl) (t : Nat) (kind : ReqKind) (bo : DWord) : State :=
  let th := s0.thread t
  let c := coreOfThread t
  let r : EReq :=
    { id := s.nextId, core := c, thread := t, group := th.group, launch := (s0.group th.group).launch, kind, bo
      since := (s0.cluster (clusterOf c)).mclk }
  waitsIn s0 c' t (gcEvent (({ s with nextId := s.nextId + 1 } : State).modCluster (clusterOf c) (fun k =>
    { k with posted := k.posted ++ [r] })) 0xD t 1) .engine

/-- A position of the accumulator space lies in a rectangle. -/
def Rect.has (r : Rect) (i j : Nat) : Prop := r.row ≤ i ∧ i < r.row + r.nr ∧ r.col ≤ j ∧ j < r.col + r.nc

/-- Index of a position of a rectangle, row by row. -/
def Rect.index (r : Rect) (i j : Nat) : Nat := (i - r.row) * r.nc + (j - r.col)

/-- What n may be for a PARKRD of any thread (R354). -/
def parkIndexOk (sel : ParkSel) (n : Nat) : Prop :=
  match sel with
  | .recd => n ≤ 3
  | .reg => n % 4 = 0
  | .st => n = 0
  | .j => n ≤ 15

/-! ### Queues -/

/-- Queue `k` has executed its packet and goes on to the next (R319, R321). -/
def Advanced (s s' : State) (k : Nat) : Prop :=
  (s'.queue k).expseq = ((s.queue k).expseq + 1) % 2 ^ 16 ∧ (s'.queue k).cur = none ∧ (s'.queue k).st = .active

/-- The packet `x`, read from the ring or stored, of a type that may now execute, is in hand. -/
def InHand (s : State) (k ty : Nat) : Prop :=
  (s.queue k).st = .active ∧ (s.queue k).cur.isSome = true ∧ (s.queue k).xfering = false ∧ pkType (curPacket (s.queue k)) = ty

/-! ### The mailboxes -/

/-- A die's mailbox is reached and awaits a request (R385). -/
def MboxFree (s : State) (die : Nat) : Prop := hostDown s die = false ∧ (s.die die).mboxOut = none

/-- It has answered a request with a status, and the physical function's vector 2 has been sent (R385, R424). -/
def Answered (s s' : State) (die op seq part st : Nat) : Prop :=
  (s'.die die).mboxOut = none ∧
    (s'.die die).mboxRsp.take 8 = leBytes 1 op ++ leBytes 1 st ++ leBytes 2 seq ++ leBytes 4 part ∧ s'.msix = (0, 2) :: s.msix

/-! ### Copies -/

/-- Steps 2 to 7 of R225 pass: the object named by `mem` is captured, valid, of a memory type, grants the right, and its bytes
lie in bounds or fall under BMODE ZERO; the other side gives `sp`; scratch bytes lie below every pending way change; no
stack that trains holds a walk; and both sides translate, to `ds` and `ss`. The checks leave `s1`; `oob` says whether some byte lies outside its object. -/
structure CopyChecked (s : State) (t : Nat) (bo : DWord) (mem : MemOp0) (write : Bool) (size : Nat)
    (src : State → Except Lane (List Piece × Bool × State)) (mc here : Bool) (s1 : State) (ds ss : List Seg) (oob : Bool) : Prop where
  bar : bo = 0 ∨ boPtrOk s (coreOfThread t) (s.partOf t) bo = true
  checks : ∃ e sc sp out s2, capture s (coreOfThread t) (s.partOf t) (objIdx (s.group (s.thread t).group) mem.obj) = some (e, sc) ∧
    (let o : Int := (srcNat (s.thread t) (s.group (s.thread t).group) 1 mem.a : Int) + mem.off.toInt
     entryValid sc (s.partOf t) (dieOfCore (coreOfThread t)) e = true ∧ (oType e = 1 ∨ oType e = 2) ∧
      (if write then oW e else oR e) = true ∧ (outOfBounds e o size = false ∨ oBmode e ≠ 0) ∧
      src sc = .ok (sp, out, s2) ∧ (mc = true → ptrSpace (oBase e) = 1) ∧
      piecesInScratch ((if here then objPieces e o size else []) ++ sp) (pendingScratch (s2.core (coreOfThread t))) = true ∧
      piecesHeld s2 (coreOfThread t) (s.partOf t) (objPieces e o size ++ sp) = false ∧
      s1 = piecesWalk s2 (coreOfThread t) (s.partOf t) (objPieces e o size ++ sp) ∧
      resolvePieces s1 (coreOfThread t) (s.partOf t) (s.privOf t) (if write then needW else needR) (objPieces e o size) = .ok ds ∧
      resolvePieces s1 (coreOfThread t) (s.partOf t) (s.privOf t) (if write then needR else needW) sp = .ok ss ∧
      oob = (outOfBounds e o size || out))

/-- The shaped side of a CPYT: the pieces of the box, whether it leaves the shape, and the state after the names are captured
(R226, R227). -/
def boxSide (t part : Nat) (x : Nat) (st : Bool) (s : State) : Except Lane (List Piece × Bool × State) :=
  match shapePair t part (dw x 0) st s with
  | .error l => .error l
  | .ok p => match boxPieces x p with
    | .error l => .error l
    | .ok (ps, out) => .ok (ps, out, p.state)

/-- A copy or send is accepted: its tag counts it, the dirty bytes of its lines reach their homes, and it is in the queue
(R225, R231, R272). -/
def copyAccepted (s : State) (cp : Copy) : State :=
  let s := match cp.tag with
    | some n =>
      let g := tget {} (s.core cp.core).tags n
      s.modCore cp.core (fun x => { x with
        tags := tset n (if g.count = 0 then { count := 1 } else { g with count := g.count + 1 }) x.tags })
    | none => s
  let s := flushSegs s cp.core cp.part (cp.src ++ cp.dst)
  { s with nextId := s.nextId + 1, copies := tset s.nextId cp s.copies }

/-- It is accepted, and the access out of bounds is counted. -/
def copyCounted (s : State) (cp : Copy) (t : Nat) (oob : Bool) : State :=
  if oob then countOob (copyAccepted s cp) t else copyAccepted s cp

/-- There is room for a copy of a core, its tag can count it, and its thread has no access under way to what it reads or writes, and
none that acquires. -/
def copyRoom (s : State) (cp : Copy) (t : Nat) : Prop :=
  ownClear s cp.core cp.part t (cp.src ++ cp.dst) = true ∧ acqClear s cp.core t = true ∧ (s.copies.filter (fun p => p.2.core == cp.core)).length < 256 ∧
    ∀ n, cp.tag = some n → (tget {} (s.core cp.core).tags n).count < 255

/-- The barrier object that an instruction names can be used: it may act on it now (R164, R213 to R215, R264). -/
structure BarrierNamed (s : State) (t : Nat) (a : Reg) (imm : Word) (loc : Loc) : Prop where
  place : boLoc s (coreOfThread t) (s.partOf t) (regD (s.thread t) (s.group (s.thread t).group) a + imm.signExtend 64) = some loc
  legal : boPtrOk s (coreOfThread t) (s.partOf t) (regD (s.thread t) (s.group (s.thread t).group) a + imm.signExtend 64) = true
  ready : boReady a imm s t = true
  linked : linkFault s (dieOfCore (coreOfThread t)) loc = none

end Sys2Proof.Machine
end

