-- ==== Sys2Proof/Certificates/Slice0/Obligations.lean ====
section
/-! DEFINITION. The statements for the provers, from the rules of the spec. -/

open Sys2Proof Sys2Proof.Machine

/-! ### Decoding, the step, the whole machine -/

/-- R61 to R67: words that the spec writes out decode to the instructions they stand for: clmul.b32 v20, v21, -1; the FFMA of
the worked example, ffma.f64.rz v4, v6, v8, v10; the guarded branch of the decode example; joinset j0; atom.add.n32.die with its
object and constant; wsend; fence.rel.die; awlnext k8, q1; lscan.xor.b32.excl v16, v15, -1; a guarded cntrd; replay; lds. Changed in
a modifier that no form has, the first traps ILLEGAL_ENCODING; with opcode 0x115, which is not assigned, it is no instruction of the table. -/
def Obligations.DecodedSpecWords : Prop :=
  let plain : Ctl := ⟨0, ⟨7, false⟩, ⟨0, false⟩, .a, 0, .none⟩
  let all : Src := .c 0x3FF
  decodeWord 0x00000000_00200000_3FF05414_00070112 = .ok (.clmul plain false (.v 20) (.v 21) all) ∧
  decodeWord 0x00000000_90000002_80801804_00070203 = .ok (.ffma plain true .rz (.v 4) (.v 6) (.v 8) (.v 10)) ∧
  decodeWord 0xFFFFFFFF_FFFFFFE0_00000000_01390600 = .ok (.bra ⟨0, ⟨1, true⟩, ⟨3, false⟩, .both, 0, .none⟩ 0xFFFFFFFFFFFFFFE0) ∧
  decodeWord 0x00000000_00000080_00000000_00070605 = .ok (.joinset plain 0 0x80) ∧
  decodeWord 0x00000010_28080004_80101407_00072800 =
    .ok (.atom { plain with la := 2 } .add false .die .rlx (.v 7) ⟨.idx 9, .v 5, 0x10⟩ (.c 1)) ∧
  decodeWord 0x00000000_00000531_00A02400_00072C02 = .ok (.wsend { plain with la := 2 } (.v 9) (.v 10) 1 3 5) ∧
  decodeWord 0x00000001_60000000_00000000_00070A08 = .ok (.fence plain .rel .die) ∧
  decodeWord 0x00000000_04000100_00000008_00070D00 = .ok (.awlnext plain (.k 8) 1) ∧
  decodeWord 0x00000009_408000FF_C0003C10_00071504 =
    .ok (.lscan { plain with la := 1 } .xor .s32 true (.v 16) (.v 15) all) ∧
  decodeWord 0x00000000_00000308_0000000C_00010E08 = .ok (.cntrd { plain with ga := ⟨1, false⟩ } false 0x308 (.v 12)) ∧
  decodeWord 0x00000000_00000000_00001005_00070E07 = .ok (.replay plain (.v 5) (.v 4)) ∧
  decodeWord 0x00000000_00010000_0000003C_00070706 = .ok (.lds plain .b32 60 (.v 0) 0x10000) ∧
  decodeWord 0x00000000_80200000_3FF05414_00070112 = .error .illegalEncoding ∧
  decodeWord 0x00000000_00200000_3FF05414_00070115 = .ok (.unassignedOpcode 0x00000000_00200000_3FF05414_00070115)

/-- R61 to R72: the decoder reads back every well-formed instruction of the opcode table that is a word, whatever its operands. -/
def Obligations.DecodeReadsBackEveryEncoding : Prop :=
  ∀ i : Instr, i.wf = true → (ctlOf i).isSome = true → decodeWord (encode i) = .ok i

/-- R61, R63: an instruction that a word decodes to is well formed, and encodes to that word: no bit of a word is ignored. -/
def Obligations.DecodedWordsEncodeBack : Prop :=
  ∀ (w : IWord) (i : Instr), decodeWord w = .ok i → i.wf = true ∧ ((ctlOf i).isSome = true → encode i = w)

/-- R68: an act that issues a PC group whose word decodes to an instruction with its registers in range runs exactly that
instruction, with the PC group as its threads, after the issue is counted; then threads that have come to a consumer park. The model's
choice (log entry 61): an act that names a thread waiting in an instruction runs that instruction again, in no slot, for the threads that
wait in it with the thread, with what it read at issue, and has no effect unless one of them gets on. The model's choice (log entry 31): a
word placed after reset, which stands for the launch that brings a program, runs as the first instruction. -/
def Obligations.StepRunsTheDecodedInstruction : Prop :=
  (∀ (s : State) (core slot : Nat) (bad : List Bad) (rest : List Act) (ch : Choice) (w : IWord) (i : Instr),
    s.agenda = .issue core slot bad :: rest →
    let s0 : State := { s with agenda := rest }
    let t := 512 * core + slot
    againKind (s0.thread t) = 0 → nextIssue s0 core = some ch → ch.t = t → fetchOf s0 t = .word w → decodeWord w = .ok i →
    let s1 := issueCount s0 core ch (some i)
    (usesOf i).inRange ((ch.ms.head?.map (fun u => (s1.group (s1.thread u).group).regs)).getD 0) = true →
    step s = settled (exec i { s1 with iss := ⟨core, ch.ms, bad.map (Bad.onCore core), (s0.thread t).pc, w, none⟩ })) ∧
  (∀ (s : State) (core slot : Nat) (bad : List Bad) (rest : List Act) (h : Held) (i : Instr) (s' : State),
    s.agenda = .issue core slot bad :: rest →
    let s0 : State := { s with agenda := rest }
    let t := 512 * core + slot
    let ms := pcGroup s0 t ((threadsOn s0 core).filter (fun u => (s0.thread u).held == some h && mayRetry s0 u))
    mayRetry s0 t = true → (s0.thread t).held = some h → decodeWord h.word = .ok i →
    (usesOf i).inRange ((ms.head?.map (fun u => (s0.group (s0.thread u).group).regs)).getD 0) = true →
    exec i { s0 with iss := ⟨core, ms, bad.map (Bad.onCore core), (s0.thread t).pc, h.word, some h⟩ } = .next s' →
    step s = settled (.next (if ms.all (fun u => (s'.thread u).run == (s0.thread u).run) then s0 else s'))) ∧
  (∀ (nbits w : Nat) (i : Instr), nbits ≤ 128 → decodeTableWord nbits w = some i → (usesOf i).inRange 1024 = true →
    ∃ s0, step (State.reset.withFetchWord nbits w) = settled (exec i s0) ∧ s0.iss.members = [0] ∧ s0.iss.core = 0 ∧ s0.iss.bad = [] ∧ s0.iss.held = none ∧
      s0.threads = (State.reset.withFetchWord nbits w).threads ∧ s0.hbm = [])

/-- Every row of the opcode table has a meaning: executing it gives a next state, from every state, whatever its operands. -/
def Obligations.EveryInstructionHasAMeaning : Prop :=
  ∀ (i : Instr) (s : State), ∃ s', exec i s = .next s'

/-- Every step keeps every memory of the part in its one canonical form: addresses strictly rising, and no byte listed that reads as
an unlisted one. -/
def Obligations.StepsKeepMemoriesCanonical : Prop :=
  ∀ s s' : State, s.memoriesOk = true → step s = .next s' → s'.memoriesOk = true

/-- R5, R17, R428: what reset leaves. Every die is at stage 0 with its clock unlocked, and no core, thread, launch, queue or partition
holds anything; every memory lists nothing, which is its canonical form. The model's choices: bytes that nothing has written read 0 (log
entry 3), links are up, endpoint ids, ports and tables 0 or empty (log entry 10), clocks start at 0 (log entry 11). -/
def Obligations.ResetLeavesNothingRunning : Prop :=
  let s := State.reset
  s.memoriesOk = true ∧ s.powered = true ∧ s.threads = [] ∧ s.groups = [] ∧ s.launches = [] ∧ s.insts = [] ∧ s.queues = [] ∧
    s.parts = [] ∧ s.copies = [] ∧ s.welts = [] ∧ s.rounds = [] ∧ s.syncFly = [] ∧ s.syncReg = [] ∧ s.agenda = [] ∧ s.msix = [] ∧
    s.clock = 0 ∧
    (∀ d, d < 4 → (s.die d).stage = 0 ∧ (s.die d).locked = false ∧ (s.die d).laceDown = false ∧ (s.die d).mboxOut = none ∧
      (s.die d).hsteps = 0 ∧ (s.die d).epid = 0 ∧ (s.die d).porten = 0) ∧
    (∀ q, (s.queue q).en = false ∧ (s.queue q).st = .off) ∧ (∀ p, (s.part p).st = .free) ∧
    ∀ a, mget s.hbm a = 0

/-! ### Registers and guards -/

/-- R14: q7 reads 1 and a write to it has no effect; q0 to q6 hold what was last written to them. -/
def Obligations.PredicatesHoldWhatWasWritten : Prop :=
  ∀ (th : Thread) (s : State) (t : Nat) (n : Nat) (b : Bool), n < 8 →
    qread th 7 = true ∧ qwrite 7 b th = th ∧ writePred s t (some 7) b = s.modThread t id ∧
    (∀ neg, predOf th ⟨7, neg⟩ = !neg) ∧
    (∀ m : Fin 8, qread (qwrite n b th) m.val = if m.val = n ∧ n ≠ 7 then b else qread th m.val) ∧
    (qwrite n b th).v = th.v ∧ (qwrite n b th).pc = th.pc

/-- R13, R18: a v or k register reads the word last written to it, in a single, pair or quad, and no other register changes.

A byte of a memory reads what was last stored there, and a store changes no other byte. -/
def Obligations.RegistersAndMemoriesHoldWhatWasWritten : Prop :=
  (
    ∀ (th : Thread) (g : Group) (n i : Nat) (ws : List Word),
      vread (vwrites n ws th) i = (if n ≤ i ∧ i < n + ws.length then ws.getD (i - n) 0 else vread th i) ∧
      kread (kwrites n ws g) i = (if n ≤ i ∧ i < n + ws.length then ws.getD (i - n) 0 else kread g i) ∧
      (vwrites n ws th).q = th.q ∧ (vwrites n ws th).pc = th.pc ∧ (kwrites n ws g).bars = g.bars) ∧
  (
    ∀ (m : Mem) (a : Nat) (bs : List Byte), m.wf = true → (msets m a bs).wf = true ∧
      ∀ x, mget (msets m a bs) x = if a ≤ x ∧ x < a + bs.length then bs.getD (x - a) 0 else mget m x)

/-- R31: an instruction whose guard is false for the thread retires for it with no other effect (but for the model's own numbering
`nextId`), and is no long-latency instruction for it; a cross-lane instruction also counts its lane as arrived (R140). The traps of R68 before the guard are taken all the same:
a word that does not decode, a register out of range, a page that grants no fetch, a line that cannot be had (R383, R411, R415; that this
traps is log entry 109), and an unassigned opcode. -/
def Obligations.FalseGuardOnlyRetires : Prop :=
  (∀ (s : State) (t : Nat) (i : Instr) (c : Ctl), Placed s → s.iss.members = [t] → s.iss.held = none → ctlOf i = some c →
    guardOf (s.thread t) c = false → executesFor s t i = false ∧
    ((∀ p ∈ s.threads, ∀ f n, p.2.run ≠ .waiting (.idem f n)) → PhasesOpen s (s.thread t).group → (s.thread t).run = .running →
      isCross i = false →
      ∃ n, exec i s = .next { finishedNext t s with nextId := n }) ∧
    (isCross i = true → (s.core (coreOfThread t)).cross = [] → ∃ s', exec i s = .next s' ∧
      s'.thread t = (s.thread t).retired' ((s.thread t).pc + 16) ∧
      outerState s' = outerState s ∧ (∀ u, u ≠ t → s'.thread u = s.thread u) ∧
      ∀ g, s'.group g = { s.group g with gc := (s'.group g).gc })) ∧
  (∀ (s : State) (core : Nat) (ms : List Nat) (bad : List Bad) (pc : DWord) (w : IWord) (held : Option Held),
    let s0 := { s with iss := ⟨core, ms, bad, pc, w, held⟩ }
    (∀ e, decodeWord w = .error e → runWord s core ms bad pc w held = .next (trapAll s0 ms 2 0)) ∧
    (∀ i t rest, decodeWord w = .ok i → ms = t :: rest → (usesOf i).inRange (s.group (s.thread t).group).regs = false →
      runWord s core ms bad pc w held = .next (trapAll s0 ms 3 0))) ∧
  (∀ (s : State) (core : Nat) (ch : Choice) (bad : List Bad) (f : XFail), fetchOf s ch.t = .fault f → f.cause ≠ 5 →
    issue s core ch bad = .next (ch.ms.foldl (fun s' u => takeTrap s' u 5 (f.detail needX + (if f.stage2 then 2 ^ 15 else 0))
      (s.thread ch.t).pc f.gpa f.s1walk) (issueCount s core ch none))) ∧
  (∀ (s : State) (core : Nat) (ch : Choice) (bad : List Bad) (code detail : Nat), fetchOf s ch.t = .lost code detail none →
    issue s core ch bad = .next (ch.ms.foldl (fun s' u => takeTrap s' u code detail (s.thread ch.t).pc 0 false)
      (issueCount s core ch none))) ∧
  (∀ (s : State) (w : IWord), exec (.unassignedOpcode w) s = .next (trapAll s s.iss.members 1 0))

/-! ### Classes 0x0 to 0x4 -/

/-- R79, R80, R82, R84, R86 to R88: the exact value of each integer instruction, clamped or wrapped and extended by `intWords`. -/
def Obligations.IntegerArithmeticResults : Prop :=
  (∀ c m d a b, Computes (.iadd c m d a b) c (fun t g =>
    .reg d (intWords m (srcInt t g m.wd m.un a + srcInt t g m.wd m.un b)))) ∧
  (∀ c m d a b, Computes (.isub c m d a b) c (fun t g =>
    .reg d (intWords m (srcInt t g m.wd m.un a - srcInt t g m.wd m.un b)))) ∧
  (∀ c m d a b e, Computes (.iadd3 c m d a b e) c (fun t g =>
    .reg d (intWords m (srcInt t g m.wd m.un a + srcInt t g m.wd m.un b + srcInt t g m.wd m.un e)))) ∧
  (∀ c m d a b, Computes (.imul c m d a b) c (fun t g =>
    .reg d (intWords m (srcInt t g m.wd m.un a * srcInt t g m.wd m.un b)))) ∧
  (∀ c m d a b, Computes (.imulhi c m d a b) c (fun t g =>
    .reg d (intWords m (srcInt t g m.wd m.un a * srcInt t g m.wd m.un b / 2 ^ wdBits m.wd)))) ∧
  (∀ c m d a b e, Computes (.imad c m d a b e) c (fun t g =>
    .reg d (intWords m (srcInt t g m.wd m.un a * srcInt t g m.wd m.un b + srcInt t g m.wd m.un e)))) ∧
  (∀ c m d a b e, Computes (.imadw c m d a b e) c (fun t g =>
    .reg d (intWords { m with wd := .w64 } (srcInt t g .w32 m.un a * srcInt t g .w32 m.un b + srcInt t g .w64 m.un e)))) ∧
  (∀ c m d a b, Computes (.imin c m d a b) c (fun t g =>
    .reg d (intWords m (min (srcInt t g m.wd m.un a) (srcInt t g m.wd m.un b))))) ∧
  (∀ c m d a b, Computes (.imax c m d a b) c (fun t g =>
    .reg d (intWords m (max (srcInt t g m.wd m.un a) (srcInt t g m.wd m.un b))))) ∧
  (∀ c m d a, Computes (.iabs c m d a) c (fun t g => .reg d (intWords m |srcInt t g m.wd m.un a|))) ∧
  (∀ c m d a, Computes (.ineg c m d a) c (fun t g => .reg d (intWords m (0 - srcInt t g m.wd m.un a)))) ∧
  (∀ c m d a b e, Computes (.isad c m d a b e) c (fun t g =>
    .reg d [BitVec.ofInt 32 ((|srcInt t g m.wd m.un a - srcInt t g m.wd m.un b| + srcInt t g m.wd m.un e) % 2 ^ wdBits m.wd)])) ∧
  (∀ c m d a imm, Computes (.iaddi c m d a imm) c (fun t g =>
    .reg d (intWords m (srcInt t g m.wd m.un a + immInt m.wd m.un imm)))) ∧
  (∀ c m d a imm, Computes (.imuli c m d a imm) c (fun t g =>
    .reg d (intWords m (srcInt t g m.wd m.un a * immInt m.wd m.un imm)))) ∧
  (∀ c m sh d a b, Computes (.lea c m sh d a b) c (fun t g =>
    .reg d (intWords { m with sat := false } (srcInt t g m.wd m.un a + srcInt t g .w32 m.un b * 2 ^ sh.val)))) ∧
  (∀ c sat ua ub d a b e, Computes (.idot4 c sat ua ub d a b e) c (fun t g =>
    let x := fun i => intOf (srcNat t g 1 a / 2 ^ (8 * i)) 8 ua * intOf (srcNat t g 1 b / 2 ^ (8 * i)) 8 ub
    .reg d (intWords ⟨.w32, ua && ub, sat⟩ (srcInt t g .w32 (ua && ub) e + x 0 + x 1 + x 2 + x 3)))) ∧
  (∀ c sat ua ub d a b e, Computes (.idot2 c sat ua ub d a b e) c (fun t g =>
    let x := fun i => intOf (srcNat t g 1 a / 2 ^ (16 * i)) 16 ua * intOf (srcNat t g 1 b / 2 ^ (16 * i)) 16 ub
    .reg d (intWords ⟨.w32, ua && ub, sat⟩ (srcInt t g .w32 (ua && ub) e + x 0 + x 1))))

/-- R90 to R92, R99: bitwise instructions, truth tables and the predicate move.

R81, R85, R89: comparisons write one predicate under BOP, selects and moves copy w bits without extension. -/
def Obligations.LogicCompareAndMoveResults : Prop :=
  (
    (∀ c w d a b, Computes (.and c w d a b) c (fun t g => .reg d (wideWords w (wideSrc t g w a &&& wideSrc t g w b)))) ∧
    (∀ c w d a b, Computes (.or c w d a b) c (fun t g => .reg d (wideWords w (wideSrc t g w a ||| wideSrc t g w b)))) ∧
    (∀ c w d a b, Computes (.xor c w d a b) c (fun t g => .reg d (wideWords w (wideSrc t g w a ^^^ wideSrc t g w b)))) ∧
    (∀ c w d a b, Computes (.andn c w d a b) c (fun t g => .reg d (wideWords w (wideSrc t g w a &&& ~~~wideSrc t g w b)))) ∧
    (∀ c w d a, Computes (.not c w d a) c (fun t g => .reg d (wideWords w (~~~wideSrc t g w a)))) ∧
    (∀ c w lut d a b e, Computes (.ltab c w lut d a b e) c (fun t g =>
      .reg d (wideWords w (tableOf lut (wideSrc t g w a) (wideSrc t g w b) (wideSrc t g w e))))) ∧
    (∀ c lut d a b imm, Computes (.ltabi c lut d a b imm) c (fun t g =>
      .reg d [lo32 (tableOf lut (wideSrc t g false a) (wideSrc t g false b) (imm.setWidth 64))])) ∧
    (∀ c lut q pa pb pc, Computes (.ptab c lut q pa pb pc) c (fun t _ =>
      { preds := [(q.val, lut.getLsbD ((predOf t pa).toNat + 2 * (predOf t pb).toNat + 4 * (predOf t pc).toNat))] })) ∧
    (∀ c d, Computes (.pmov c (.toReg d)) c (fun t _ => .reg d [(t.q ||| 128).setWidth 32])) ∧
    (∀ c mask a, Computes (.pmov c (.toPred mask a)) c (fun t g =>
      { preds := ((List.range 7).filter (fun i => mask.getLsbD i)).map (fun i => (i, (srcW t g a).getLsbD i)) }))) ∧
  (
    (∀ c m cond bop q a b p, Computes (.icmp c m cond bop q a b p) c (fun t g =>
      { preds := [(q.val, bopApply bop (condHolds cond (srcInt t g m.wd m.un a) (srcInt t g m.wd m.un b)) (predOf t p))] })) ∧
    (∀ c m cond bop q a imm p, Computes (.icmpi c m cond bop q a imm p) c (fun t g =>
      { preds := [(q.val, bopApply bop (condHolds cond (srcInt t g m.wd m.un a) (immInt m.wd m.un imm)) (predOf t p))] })) ∧
    (∀ c m d a b p, Computes (.isel c m d a b p) c (fun t g =>
      .reg d (srcWords t g m.wd.nregs (if predOf t p then a else b)))) ∧
    (∀ c m d a, Computes (.mov c m d a) c (fun t g => .reg d (srcWords t g m.wd.nregs a))) ∧
    (∀ c m d imm, Computes (.movi c m d imm) c (fun _ _ =>
      .reg d (if m.wd = .w64 then dwords (if m.un then imm.setWidth 64 else imm.signExtend 64) else [imm]))) ∧
    (∀ c d imm, Computes (.movw c d imm) c (fun _ _ => .reg d (dwords imm))))

/-- R93 to R95: shifts, the rotation, the funnel shift and the bit fields, at width 32 or 64. -/
def Obligations.ShiftAndFieldResults : Prop :=
  (∀ c w wr d a n, Computes (.shl c w wr d a n) c (fun t g =>
    .reg d (byWidth w (fun v x => x <<< (if wr then srcNat t g 1 n % v else srcNat t g 1 n)) (wideSrc t g w a)))) ∧
  (∀ c w wr d a n, Computes (.shr c w wr d a n) c (fun t g =>
    .reg d (byWidth w (fun v x => x >>> (if wr then srcNat t g 1 n % v else srcNat t g 1 n)) (wideSrc t g w a)))) ∧
  (∀ c w wr d a n, Computes (.sar c w wr d a n) c (fun t g =>
    .reg d (byWidth w (fun v x => x.sshiftRight (if wr then srcNat t g 1 n % v else srcNat t g 1 n)) (wideSrc t g w a)))) ∧
  (∀ c w d a n, Computes (.rotl c w d a n) c (fun t g =>
    .reg d (byWidth w (fun _ x => x.rotateLeft (srcNat t g 1 n)) (wideSrc t g w a)))) ∧
  (∀ c w wr right d hi lo n, Computes (.fshf c w wr right d hi lo n) c (fun t g =>
    let k := fun v => if wr then srcNat t g 1 n % v else min (srcNat t g 1 n) v
    .reg d (byWidth w (fun v x =>
      let y : BitVec (v + v) := x ++ (wideSrc t g w lo).setWidth v
      if right then (y >>> k v).setWidth v else (y <<< k v).extractLsb' v v) (wideSrc t g w hi)))) ∧
  (∀ c w un d a pos len, Computes (.bfx c w un d a pos len) c (fun t g =>
    .reg d (byWidth w (fun v x =>
      let p := srcNat t g 1 pos % 256
      let l := min (srcNat t g 1 len % 256) v
      if un then lowBits (x >>> p) l else lowSigned (x.sshiftRight p) l) (wideSrc t g w a)))) ∧
  (∀ c w d ins base pos len, Computes (.bfi c w d ins base pos len) c (fun t g =>
    .reg d (byWidth w (fun v x =>
      let p := srcNat t g 1 pos % 256
      let mask := lowBits (BitVec.allOnes v) (min (srcNat t g 1 len % 256) v) <<< p
      ((x <<< p) &&& mask) ||| ((wideSrc t g w base).setWidth v &&& ~~~mask)) (wideSrc t g w ins))))

/-- R96 to R98: counts, bit reversal, byte selection and carry-less products. -/
def Obligations.CountAndByteResults : Prop :=
  (∀ c w d a, Computes (.popc c w d a) c (fun t g =>
    .reg d [BitVec.ofNat 32 ((List.range 64).filter (fun i => (wideSrc t g w a).getLsbD i)).length])) ∧
  (∀ c w d a, Computes (.clz c w d a) c (fun t g =>
    .reg d [if w then (wideSrc t g w a).clz.setWidth 32 else (lo32 (wideSrc t g w a)).clz])) ∧
  (∀ c w d a, Computes (.ctz c w d a) c (fun t g =>
    .reg d [if w then (wideSrc t g w a).ctz.setWidth 32 else (lo32 (wideSrc t g w a)).ctz])) ∧
  (∀ c w d a, Computes (.brev c w d a) c (fun t g => .reg d (byWidth w (fun _ x => x.reverse) (wideSrc t g w a)))) ∧
  (∀ c d a b sel, Computes (.bperm c d a b sel) c (fun t g =>
    let byte := fun i => bpermByte (pair (srcW t g a) (srcW t g b)).toNat (srcNat t g 1 sel) i
    .reg d [BitVec.ofNat 8 (byte 3) ++ BitVec.ofNat 8 (byte 2) ++ BitVec.ofNat 8 (byte 1) ++ BitVec.ofNat 8 (byte 0)])) ∧
  (∀ c w d a b, Computes (.clmul c w d a b) c (fun t g =>
    .reg d (wideWords w ((List.range 64).foldl (fun p j =>
      if (wideSrc t g w b).getLsbD j then p ^^^ (wideSrc t g w a <<< j) else p) 0)))) ∧
  (∀ c w d a b, Computes (.clmulh c w d a b) c (fun t g =>
    let v := if w then 64 else 32
    let prod := (List.range 64).foldl (fun (p : BitVec 128) j =>
      if (wideSrc t g w b).getLsbD j then p ^^^ ((wideSrc t g w a).setWidth 128 <<< j) else p) 0
    .reg d (wideWords w ((prod >>> v).setWidth 64))))

/-- R102 to R106: each floating-point instruction delivers the correctly rounded value of its formula with its flags. -/
def Obligations.FloatArithmeticResults : Prop :=
  (∀ c f rm d a b, Computes (.fadd c f rm d a b) c (fun t g => .fp d (nregs64 f) (fAdd (ftOf f) rm (srcF t g f a) (srcF t g f b)))) ∧
  (∀ c f rm d a b, Computes (.fsub c f rm d a b) c (fun t g =>
    .fp d (nregs64 f) (fAdd (ftOf f) rm (srcF t g f a) (fNeg (ftOf f) (srcF t g f b))))) ∧
  (∀ c f rm d a b, Computes (.fmul c f rm d a b) c (fun t g => .fp d (nregs64 f) (fMul (ftOf f) rm (srcF t g f a) (srcF t g f b)))) ∧
  (∀ c f rm d a b e, Computes (.ffma c f rm d a b e) c (fun t g =>
    .fp d (nregs64 f) (fFma (ftOf f) rm (srcF t g f a) (srcF t g f b) (srcF t g f e)))) ∧
  (∀ c f rm d a imm, Computes (.faddi c f rm d a imm) c (fun t g =>
    .fp d (nregs64 f) (fAdd (ftOf f) rm (srcF t g f a) (immF f imm)))) ∧
  (∀ c f rm d a imm, Computes (.fmuli c f rm d a imm) c (fun t g =>
    .fp d (nregs64 f) (fMul (ftOf f) rm (srcF t g f a) (immF f imm)))) ∧
  (∀ c f rm d a b imm, Computes (.ffmai c f rm d a b imm) c (fun t g =>
    .fp d (nregs64 f) (fFma (ftOf f) rm (srcF t g f a) (immF f imm) (srcF t g f b)))) ∧
  (∀ c f d a b, Computes (.fmin c f d a b) c (fun t g => .fp d (nregs64 f) (fMin (ftOf f) (srcF t g f a) (srcF t g f b), 0))) ∧
  (∀ c f d a b, Computes (.fmax c f d a b) c (fun t g => .fp d (nregs64 f) (fMax (ftOf f) (srcF t g f a) (srcF t g f b), 0))) ∧
  (∀ c f cond bop q a b p, Computes (.fcmp c f cond bop q a b p) c (fun t g =>
    let r := fCmp (ftOf f) cond (srcF t g f a) (srcF t g f b)
    { preds := [(q.val, bopApply bop r.1 (predOf t p))], fl := r.2 })) ∧
  (∀ c f mask q a, Computes (.fclass c f mask q a) c (fun t g =>
    { preds := [(q.val, mask.getLsbD (fClass (ftOf f) (srcF t g f a)))] }))

/-- R108 to R110: both halves by one scalar operation; FDOT2 sums exactly and rounds once. -/
def Obligations.PackedHalfResults : Prop :=
  (∀ c bf rm d a b, Computes (.hadd2 c bf rm d a b) c (fun t g =>
    .fp d 1 (packed (fun x y _ => fAdd (hfOf bf) rm x y) (srcH2 t g a) (srcH2 t g b) 0))) ∧
  (∀ c bf rm d a b, Computes (.hmul2 c bf rm d a b) c (fun t g =>
    .fp d 1 (packed (fun x y _ => fMul (hfOf bf) rm x y) (srcH2 t g a) (srcH2 t g b) 0))) ∧
  (∀ c bf rm d a b e, Computes (.hfma2 c bf rm d a b e) c (fun t g =>
    .fp d 1 (packed (fFma (hfOf bf) rm) (srcH2 t g a) (srcH2 t g b) (srcH2 t g e)))) ∧
  (∀ c bf d a b, Computes (.hmin2 c bf d a b) c (fun t g =>
    .fp d 1 (packed (fun x y _ => (fMin (hfOf bf) x y, 0)) (srcH2 t g a) (srcH2 t g b) 0))) ∧
  (∀ c bf d a b, Computes (.hmax2 c bf d a b) c (fun t g =>
    .fp d 1 (packed (fun x y _ => (fMax (hfOf bf) x y, 0)) (srcH2 t g a) (srcH2 t g b) 0))) ∧
  (∀ c bf cond bop q r a b p, Computes (.hcmp2 c bf cond bop q r a b p) c (fun t g =>
    let lo := fCmp (hfOf bf) cond (srcH2 t g a % 2 ^ 16) (srcH2 t g b % 2 ^ 16)
    let hi := fCmp (hfOf bf) cond (srcH2 t g a / 2 ^ 16) (srcH2 t g b / 2 ^ 16)
    { preds := [(q.val, bopApply bop lo.1 (predOf t p)), (r.val, bopApply bop hi.1 (predOf t p))], fl := lo.2 ||| hi.2 })) ∧
  (∀ c bf rm d a b e, Computes (.fdot2 c bf rm d a b e) c (fun t g =>
    .fp d 1 (fdot2Val (hfOf bf) rm (srcH2 t g a) (srcH2 t g b) (srcF32 t g e))))

/-- R111 to R116, R120: conversions, rounding to an integral value, scaling by a power of two and the dequantised element. -/
def Obligations.ConversionResults : Prop :=
  (∀ c df sf rm sat d a, Computes (.cvt c df sf rm sat d a) c (fun t g =>
    .fp d (fmtRegs df) (convert df.toNat sf.toNat rm sat (srcFmt t g sf.toNat a)))) ∧
  (∀ c df sf rm sat d a b x e, Computes (.cvtpk c df sf rm sat d a b x e) c (fun t g =>
    let v := fun s => convert df.toNat sf.toNat rm sat (srcFmt t g sf.toNat s)
    if Fmt.is8 df then
      .fp d 1 ((v a).1 + (v b).1 * 2 ^ 8 + (v x).1 * 2 ^ 16 + (v e).1 * 2 ^ 24, (v a).2 ||| (v b).2 ||| (v x).2 ||| (v e).2)
    else .fp d 1 ((v a).1 + (v b).1 * 2 ^ 16, (v a).2 ||| (v b).2))) ∧
  (∀ c sf iw iu rm sat d a, Computes (.f2i c sf iw iu rm sat d a) c (fun t g =>
    let r := toInt (decCode sf.toNat (srcFmt t g sf.toNat a)) (wdBits iw) iu (if iw = .w8 then .ra else rm) sat
    { regs := [(d, intWords ⟨iw, iu, false⟩ (r.1 : Int))], fl := r.2 })) ∧
  (∀ c df iw iu rm sat d a, Computes (.i2f c df iw iu rm sat d a) c (fun t g =>
    .fp d (fmtRegs df) (ofInt (fpOf df.toNat) (rmFor df.toNat rm) sat (srcInt t g iw iu a)))) ∧
  (∀ c f rm d a, Computes (.frnd c f rm d a) c (fun t g => .fp d (nregs64 f) (fRnd (ftOf f) rm (srcF t g f a)))) ∧
  (∀ c f rm d a n, Computes (.scalex c f rm d a n) c (fun t g =>
    .fp d (nregs64 f) (fScale (ftOf f) rm (srcF t g f a) (srcInt t g .w32 false n)))) ∧
  (∀ c f4x rm d a, Computes (.dqblk c f4x rm d a) c (fun t g => .fp d 1 (dequant f4x rm (srcNat t g 1 a))))

/-- R32, R33, R83, R121: an instruction of class SFU or DIV issues and retires; its result and flags wait in the core's queue
with the detail of its checker (R410: 6 SFU, 7 DIV; that SQRT.f64 counts as 7 and a k destination as 8 is log entry 52).

R33, R344: SFU_DIV_RESULT of the oldest instruction of its thread whose checker finds nothing writes the destination and
ORs the flags into %fpflags, those alone for a thread whose PC group's k register another thread writes (R18); its entry leaves the
queue, and no memory, k register (for a v destination) or other thread changes. -/
def Obligations.SfuAndDividerInstructionsCompleteInTwoSteps : Prop :=
  (
    ∀ (s : State) (t : Nat) (c : Ctl), Solo s t c →
      let th := s.thread t
      let g := s.group th.group
      (∀ m d a b, exec (.idiv c m d a b) s = .next (finishedNext t (sfuQueued s c t d 7
        (intWords m (idivVal m (srcInt th g m.wd m.un a) (srcInt th g m.wd m.un b))) 0))) ∧
      (∀ m d a b, exec (.irem c m d a b) s = .next (finishedNext t (sfuQueued s c t d 7
        (intWords m (iremVal m (srcInt th g m.wd m.un a) (srcInt th g m.wd m.un b))) 0))) ∧
      (∀ d a, exec (.rcp c d a) s = .next (finishedNext t (sfuQueued s c t d 6
        (natWords 1 (rcpVal (srcF32 th g a)).1) (rcpVal (srcF32 th g a)).2))) ∧
      (∀ d a, exec (.rsq c d a) s = .next (finishedNext t (sfuQueued s c t d 6
        (natWords 1 (rsqVal (srcF32 th g a)).1) (rsqVal (srcF32 th g a)).2))) ∧
      (∀ d a, exec (.ex2 c d a) s = .next (finishedNext t (sfuQueued s c t d 6
        (natWords 1 (ex2Val (srcF32 th g a)).1) (ex2Val (srcF32 th g a)).2))) ∧
      (∀ d a, exec (.lg2 c d a) s = .next (finishedNext t (sfuQueued s c t d 6
        (natWords 1 (lg2Val (srcF32 th g a)).1) (lg2Val (srcF32 th g a)).2))) ∧
      (∀ d a, exec (.sin c d a) s = .next (finishedNext t (sfuQueued s c t d 6
        (natWords 1 (trigVal false (srcF32 th g a)).1) (trigVal false (srcF32 th g a)).2))) ∧
      (∀ d a, exec (.cos c d a) s = .next (finishedNext t (sfuQueued s c t d 6
        (natWords 1 (trigVal true (srcF32 th g a)).1) (trigVal true (srcF32 th g a)).2))) ∧
      (∀ d a, exec (.tanh c d a) s = .next (finishedNext t (sfuQueued s c t d 6
        (natWords 1 (tanhVal (srcF32 th g a)).1) (tanhVal (srcF32 th g a)).2))) ∧
      (∀ d a, exec (.sigm c d a) s = .next (finishedNext t (sfuQueued s c t d 6
        (natWords 1 (sigmVal (srcF32 th g a)).1) (sigmVal (srcF32 th g a)).2))) ∧
      (∀ f rm d a, exec (.sqrt c f rm d a) s = .next (finishedNext t (sfuQueued s c t d (if f then 7 else 6)
        (natWords (nregs64 f) (fSqrt (ftOf f) rm (srcF th g f a)).1) (fSqrt (ftOf f) rm (srcF th g f a)).2))) ∧
      (∀ f rm d a b, exec (.fdiv c f rm d a b) s = .next (finishedNext t (sfuQueued s c t d 7
        (natWords (nregs64 f) (fDiv (ftOf f) rm (srcF th g f a) (srcF th g f b)).1)
        (fDiv (ftOf f) rm (srcF th g f a) (srcF th g f b)).2)))) ∧
  (
    ∀ (s : State) (core : Nat) (e : SfuEntry), (s.core core).sfu.find? (fun y => y.id == e.id) = some e →
      (∀ y ∈ (s.core core).sfu, y.thread = e.thread → e.id ≤ y.id) → coreOfThread e.thread = core →
      tfind (s.core core).inj 4 = none → (tfind s.threads e.thread).isSome = true →
      (tfind s.groups (s.thread e.thread).group).isSome = true →
      ∃ s', exec (.sfuDivResult core e.id false) s = .next s' ∧
        outerState s' = outerState s ∧ (∀ u, u ≠ e.thread → s'.thread u = s.thread u) ∧
        (∀ y ∈ (s'.core core).sfu, y.id ≠ e.id) ∧
        (match e.d with
         | some (.v n) => s'.thread e.thread = vwrites n.val e.res { s.thread e.thread with
             fpflags := (s.thread e.thread).fpflags ||| e.flags } ∧ ∀ g, s'.group g = s.group g
         | some (.k n) => s'.thread e.thread = { s.thread e.thread with fpflags := (s.thread e.thread).fpflags ||| e.flags } ∧
             ∀ g, s'.group g = if g = (s.thread e.thread).group then kwrites n.val e.res (s.group g) else s.group g
         | none => s'.thread e.thread = { s.thread e.thread with fpflags := (s.thread e.thread).fpflags ||| e.flags } ∧
             ∀ g, s'.group g = s.group g))

/-! ### Classes 0x5, 0x6 and 0xE -/

/-- R16, R126 to R128: a transfer whose target is a legal PC goes there, a call with the address after it in its link pair; to
any other target it traps BRANCH_TARGET and nothing is written. -/
def Obligations.TransfersOfControl : Prop :=
  ∀ (s : State) (t : Nat) (c : Ctl), Solo s t c →
    let th := s.thread t
    let g := s.group th.group
    let go := fun (s' : State) (pc : DWord) => if pc.toNat % 16 = 0 ∧ pc.toNat < 2 ^ 57 then finished t s' pc
      else takeTrap s t 4 0 0 0 false
    let link := fun (d : VReg) => s.modThread t (vwrites d.val [lo32 (th.pc + 16), hi32 (th.pc + 16)])
    (∀ imm, exec (.bra c imm) s = .next (go s (th.pc + imm))) ∧
    (∀ d imm, exec (.call c d imm) s = .next (go (link d) (th.pc + imm))) ∧
    (∀ rel a, exec (.brx c rel a) s = .next (go s (if rel then th.pc + regD th g a else regD th g a))) ∧
    (∀ rel d a, exec (.callx c rel d a) s = .next (go (link d) (if rel then th.pc + regD th g a else regD th g a))) ∧
    (∀ a, exec (.ret c a) s = .next (go s (regD th g a)))

/-- R135, R136: NOP only retires; YIELD and SLEEP retire, and the thread is ineligible for the 16 clocks after the YIELD's, or for
the n clocks after the SLEEP's, with n = 0 until the next clock. R136 lets a sleep end up to 64 clocks late: the clock given is the first
at which it may end (log entry 69).

A sleeping or resting thread is not eligible; SLEEP_END and YIELD_END let it run on once its clock has come, and not before. -/
def Obligations.NopYieldAndSleep : Prop :=
  (
    ∀ (s : State) (t : Nat) (c : Ctl), Alone s t c →
      let next := retireTo s t ((s.thread t).pc + 16)
      exec (.nop c) s = .next (finishedNext t s) ∧
      exec (.yield c) s = .next (next.modThread t (fun x => { x with run := .resting (s.clock + 17) })) ∧
      ∀ n, exec (.sleep c n) s = .next (next.modThread t (fun x =>
        { x with run := if n = 0 then .resting (s.clock + 1) else .sleeping (s.clock + n.toNat + 1) }))) ∧
  (
    ∀ (s : State) (t due : Nat),
      ((s.thread t).run = .sleeping due ∨ (s.thread t).run = .resting due → eligOf s t = .other) ∧
      ((s.thread t).run = .sleeping due →
        exec (.sleepEnd t) s = .next (if due ≤ s.clock then s.modThread t (fun x => { x with run := .running }) else s)) ∧
      ((s.thread t).run = .resting due →
        exec (.yieldEnd t) s = .next (if due ≤ s.clock then s.modThread t (fun x => { x with run := .running }) else s)))

/-- R129 to R131: JOINSET arms jN with the start and the join PC, JOINDROP and a JOINWAIT on an empty jN retire. JOINDROP of an armed jN
leaves the instance and retires; JOINWAIT waits while another member is still to come. Once every other member waits, a JOINWAIT or a
JOINDROP releases the instance: all its members retire with jN empty.

R134, R346: EXIT of a thread with nothing in flight ends it: it is counted as retired, its barriers are empty, its GEN
advances, and no memory changes. -/
def Obligations.ReconvergenceBarriersAndExit : Prop :=
  (
    ∀ (s : State) (t : Nat) (c : Ctl) (j : Fin 16), Alone s t c →
      let th := s.thread t
      (∀ imm : DWord, (th.pc + imm).toNat % 16 = 0 → (th.pc + imm).toNat < 2 ^ 57 → tfind th.j j.val = none →
        exec (.joinset c j imm) s = .next (finishedNext t (({ s with nextId := s.nextId + 1 } : State).modThread t (fun x =>
          { x with j := tset j.val ⟨th.pc, th.pc + imm, s.nextId⟩ x.j })))) ∧
      (tfind th.j j.val = none → exec (.joindrop c j) s = .next (finishedNext t s) ∧
        exec (.joinwait c j) s = .next (finishedNext t s)) ∧
      (∀ b, tfind th.j j.val = some b → Rising s.threads →
        let others := (instMembers s th.group j.val b.inst).filter (fun p => p.1 != t)
        let dropped := fun (x : Thread) => { x with j := tdel j.val x.j }
        ((others = [] ∨ ∃ p ∈ others, p.2.run ≠ .waiting (.join j.val)) →
          exec (.joindrop c j) s = .next (finishedNext t (s.modThread t dropped))) ∧
        ((∃ p ∈ others, p.2.run ≠ .waiting (.join j.val)) →
          exec (.joinwait c j) s = .next (s.modThread t (fun x => { x with run := .waiting (.join j.val) }))) ∧
        ((∀ p ∈ others, p.2.run = .waiting (.join j.val)) →
          (∃ s', exec (.joinwait c j) s = .next s' ∧ outerState s' = outerState s ∧
            s'.thread t = { dropped (th.retired' (th.pc + 16)) with detHeld := false } ∧
            (∀ p ∈ others, s'.thread p.1 = { dropped (p.2.retired' (p.2.pc + 16)) with detHeld := false }) ∧
            ∀ u, u ≠ t → (∀ p ∈ others, p.1 ≠ u) → s'.thread u = s.thread u) ∧
          ∃ s', exec (.joindrop c j) s = .next s' ∧ outerState s' = outerState s ∧
            s'.thread t = dropped (th.retired' (th.pc + 16)) ∧
            (∀ p ∈ others, s'.thread p.1 = { dropped (p.2.retired' (p.2.pc + 16)) with detHeld := false }) ∧
            ∀ u, u ≠ t → (∀ p ∈ others, p.1 ≠ u) → s'.thread u = s.thread u))) ∧
  (
    ∀ (s : State) (t : Nat) (c : Ctl), Solo s t c → loadsOf s t = [] → sfuOf s t = [] → lateOf s t = [] → (s.thread t).j = [] →
      (s.group (s.thread t).group).bars = [] → (s.core (coreOfThread t)).cross = [] →
      Rising s.threads → (∀ p ∈ s.threads, p.1 ≠ t → p.2.group ≠ (s.thread t).group) →
      ∃ s', exec (.exit c) s = .next s' ∧ outerState s' = outerState s ∧
        s'.thread t = { s.thread t with pc := (s.thread t).pc + 16, retired := (s.thread t).retired + 1, run := .exited
                                        stalled := false, held := none, j := [], gen := none } ∧
        (∀ u, u ≠ t → s'.thread u = s.thread u) ∧
        tget 0 (s'.core (coreOfThread t)).gens (slotOfThread t) = (tget 0 (s.core (coreOfThread t)).gens (slotOfThread t) + 1) % 2 ^ 13)

/-- R139 to R145: when every lane of the mask has arrived, the instruction retires for all of them and its results wait to be written:
LXCH and LBCAST read the named lane, LPOLL and LPEER answer about the active lanes, LRED and LSCAN combine their values in ascending
lane order, LLEAD names the first or last of them, and QBLK gives each lane of its block its code, scale and special value. A k destination
takes the result of the lowest active lane (the model's reading, log entry 54). -/
def Obligations.CrossLaneInstructionsExchange : Prop :=
  (∀ c w64 mode (seg : Fin 6) qe d a b m, Exchanges (.lxch c w64 mode seg qe d a b m) c 2 (fun t g => srcD t g m) (fun x l =>
    let w := 64 / 2 ^ seg.val
    let base := l - l % w
    let y := srcW (x.thread l) x.group b
    let r := match mode with
      | .idx => x.reads (fun t g => wideSrc t g w64 a) w l (base + y.toNat % w)
      | .rot => x.reads (fun t g => wideSrc t g w64 a) w l (base + (l % w + y.toNat) % w)
      | .bfly => x.reads (fun t g => wideSrc t g w64 a) w l (l ^^^ (y.toNat % w))
      | .dist => if (base : Int) ≤ l + y.toInt ∧ (l : Int) + y.toInt < base + w then
          x.reads (fun t g => wideSrc t g w64 a) w l ((l : Int) + y.toInt).toNat
        else (wideSrc (x.thread l) x.group w64 a, false)
    { regs := [(d, wideWords w64 r.1)], preds := qe.toList.map (fun q => (q.val, r.2)) })) ∧
  (∀ c w64 d a b m, Exchanges (.lbcast c w64 d a b m) c 2 (fun t g => srcD t g m) (fun x l =>
    .reg d (wideWords w64 (x.reads (fun t g => wideSrc t g w64 a) 64 l ((srcW (x.thread l) x.group b).toNat % 64)).1))) ∧
  (∀ c pa m, let p := fun (x : Lanes) l => predOf (x.thread l) pa
    (∀ q, Exchanges (.lpoll c (.any q) pa m) c 2 (fun t g => srcD t g m) (fun x _ => { preds := [(q.val, x.list.any (p x))] })) ∧
    (∀ q, Exchanges (.lpoll c (.all q) pa m) c 2 (fun t g => srcD t g m) (fun x _ => { preds := [(q.val, x.list.all (p x))] })) ∧
    (∀ q, Exchanges (.lpoll c (.uni q) pa m) c 2 (fun t g => srcD t g m) (fun x _ =>
      { preds := [(q.val, x.list.all (p x) || !x.list.any (p x))] })) ∧
    (∀ d, Exchanges (.lpoll c (.count d) pa m) c 2 (fun t g => srcD t g m) (fun x _ =>
      .reg d [BitVec.ofNat 32 (x.list.filter (p x)).length])) ∧
    ∀ d, Exchanges (.lpoll c (.mask d) pa m) c 2 (fun t g => srcD t g m) (fun x _ =>
      .reg d (dwords (x.list.foldl (fun y l => if p x l then y ||| (1#64 <<< l) else y) 0)))) ∧
  (∀ c w64 same d a m, Exchanges (.lpeer c w64 same d a m) c 2 (fun t g => srcD t g m) (fun x l =>
    let v := fun i => wideSrc (x.thread i) x.group w64 a
    .reg d (dwords (if same then (if x.list.all (fun i => v i == v l) then x.mask else 0)
      else x.list.foldl (fun y i => if v i == v l then y ||| (1#64 <<< i) else y) 0)))) ∧
  (∀ c op ty d a m, Exchanges (.lred c op ty d a m) c 2 (fun t g => srcD t g m) (fun x _ =>
    let xs := fun (ls : List Nat) => ls.map (fun i => lo32 (redArg ty (x.thread i) x.group a))
    if ty = .f32 then .fp d 1 (redVals op ty ((xs x.list).map (·.toNat))) else .reg d [reduced op ty (xs x.list)])) ∧
  (∀ c op ty excl d a m, Exchanges (.lscan c op ty excl d a m) c 2 (fun t g => srcD t g m) (fun x l =>
    let xs := ((x.list.filter (fun i => if excl then decide (i < l) else decide (i ≤ l))).map
      (fun i => lo32 (redArg ty (x.thread i) x.group a)))
    if ty = .f32 then .fp d 1 (redVals op ty (xs.map (·.toNat))) else .reg d [reduced op ty xs])) ∧
  (∀ c hi q m, Exchanges (.llead c hi q m) c 2 (fun t g => srcD t g m) (fun x l =>
    { preds := [(q.val, (if hi then x.list.getLast? else x.list.head?) == some l)] })) ∧
  (∀ c f4x nosp rm d a h m, h < 2 → m = (BitVec.allOnes 32).setWidth 64 <<< (32 * h) →
    ∀ s g n pc, Gathered s c (fun _ _ => 0) g n pc m h → ∃ s', exec (.qblk c f4x nosp rm d a) s = .next s' ∧ OnlyIssued s s' ∧
      ∀ l, l < 64 → m.getLsbD l = true →
        let el := fun i => f32.dec (srcF32 (s.thread (threadAt s.iss.core n i)) (s.group g) a)
        let xs := (List.range 32).map (fun i => el (32 * h + i))
        let sc := qScale f4x xs
        let sp := qSpecial f4x nosp sc xs
        let code := qCode f4x sc sp (el l)
        s'.thread (threadAt s.iss.core n l) = (s.thread (threadAt s.iss.core n l)).retired' (pc + 16) ∧
        ResultWaits s' s.iss.core (threadAt s.iss.core n l) g (l == 32 * h)
          (Res.fp d 1 (code.1 + sc * 2 ^ 8 + sp * 2 ^ 16, code.2)))

/-- R19 to R22, R149, R292, R297: reads of system registers, counters, deadlines and padding write the value to the destination
and retire.

R20 to R22, R150, R202, R253: writes of system registers and configuration take effect once for the PC group, and an illegal
value traps with nothing written.

R358 to R360: ERRINJ of a test partition disarms every injector of the core with CLASS 0 and arms one otherwise; of another
partition it is ignored and recorded; a descriptor with a bad field traps INJ_DESC. -/
def Obligations.SystemRegistersCountersAndInjectors : Prop :=
  (
    ∀ (s : State) (t : Nat) (c : Ctl), Alone s t c →
      (∀ w sel d, exec (.sysrd c w sel d) s =
        .next (finishedNext t (writeReg s t true d (natWords (nregs64 w) (sysVal s t sel.toNat))))) ∧
      (∀ w ctr d, exec (.cntrd c w ctr d) s =
        .next (finishedNext t (writeReg (cntRead s t ctr.toNat) t true d (natWords (nregs64 w) (cntVal s t ctr.toNat).toNat)))) ∧
      (∀ sel q d, exec (.dlread c sel q d) s =
        .next (finishedNext t (writePred (writeReg s t true d (natWords 2 (dlValue s t sel))) t q
          (s.die (dieOfCore (coreOfThread t))).locked))) ∧
      (∀ n qd qe a l, s.launchOf t = some l →
        let x := srcW (s.thread t) (s.group (s.thread t).group) a
        let sh := l.r.shape.getD n.val 0
        let p := (s.group (s.thread t).group).pads.getD n.val 0
        exec (.padmask c n qd qe a) s =
          .next (finishedNext t (writePred (writePred s t (some qd) (decide (x < sh ∧ x < p))) t (some qe) (decide (sh ≤ x ∧ x < p)))))) ∧
  (
    ∀ (s : State) (t : Nat) (c : Ctl), Alone s t c →
      let th := s.thread t
      let g := s.group th.group
      let co := coreOfThread t
      let next := finishedNext t s
      (lateOf s t = [] → ∀ w a, exec (.syswr c w 0x039 a) s = .next (finishedNext t (s.modThread t (fun x =>
        { x with fpflags := (BitVec.ofNat 32 (srcNat th g (nregs64 w) a)).setWidth 5 })))) ∧
      (∀ w a, exec (.syswr c w 0x03A a) s =
        .next (next.modCore co (fun x => { x with laviol := BitVec.ofNat 32 (srcNat th g (nregs64 w) a) }))) ∧
      (∀ w a n, n ≤ 12 → srcNat th g (nregs64 w) a % 2 ^ 16 = 2 ^ n - 1 →
        exec (.syswr c w 0x038 a) s = .next (next.modCore co (fun x => { x with ways := x.ways ++ [(n, s.nextId)] }))) ∧
      (∀ w a, (∀ n, n ≤ 12 → srcNat th g (nregs64 w) a % 2 ^ 16 ≠ 2 ^ n - 1) →
        exec (.syswr c w 0x038 a) s = .next (takeTrap s t 0x11 0 0 0 false)) ∧
      (∀ n : Fin 16, exec (.wayset c n) s = .next (if n.val ≤ 12 then
        next.modCore co (fun x => { x with ways := x.ways ++ [(n.val, s.nextId)] }) else takeTrap s t 0x11 0 0 0 false)) ∧
      (∀ gc a, cntCfgOk (srcW th g a) = true → exec (.cntcfg c gc a) s = .next (next.modGroup th.group (fun y =>
        { y with gc := y.gc.set gc.val { y.gc.getD gc.val {} with next := some (srcW th g a, t) } }))) ∧
      (∀ gc a, cntCfgOk (srcW th g a) = false → exec (.cntcfg c gc a) s = .next (takeTrap s t 0x12 0 0 0 false)) ∧
      (∀ mode, exec (.mregion c mode none) s = .next (next.modGroup th.group (fun y =>
        { y with region := regionCode mode, mtol := mtolDefault, mretry := 3 }))) ∧
      (∀ mode r, hi32 (regD th g r) < 16 → exec (.mregion c mode (some r)) s = .next (next.modGroup th.group (fun y =>
        { y with region := regionCode mode, mtol := lo32 (regD th g r), mretry := (hi32 (regD th g r)).toNat }))) ∧
      (∀ mode r, 16 ≤ hi32 (regD th g r) → exec (.mregion c mode (some r)) s = .next (takeTrap s t 0x40 2 0 0 false))) ∧
  (
    ∀ (s : State) (t : Nat) (c : Ctl) (a : Reg), Alone s t c →
      let th := s.thread t
      let x := regNat th (s.group th.group) 8 a
      let lk := (s.group th.group).launch
      let next := finishedNext t s
      ((s.part (s.partOf t)).test = false → exec (.errinj c a) s = .next (injIgnored next t (x % 16) th.pc)) ∧
      ((s.part (s.partOf t)).test = true → injParse x t lk (s.partOf t) s.nextId = none →
        exec (.errinj c a) s = .next (takeTrap s t 0x34 0 0 0 false)) ∧
      (∀ i, (s.part (s.partOf t)).test = true → injParse x t lk (s.partOf t) s.nextId = some (0, i) →
        exec (.errinj c a) s = .next (next.modCore (coreOfThread t) (fun y => { y with inj := [] }))) ∧
      (∀ cls i, (s.part (s.partOf t)).test = true → injParse x t lk (s.partOf t) s.nextId = some (cls + 1, i) →
        exec (.errinj c a) s = .next (next.modCore (coreOfThread t) (fun y => { y with inj := tset (cls + 1) i y.inj }))))

/-- R342: TRAP and BKPT take their exceptions, SOFTWARE and BREAKPOINT, with the code as DETAIL.

R36, R346, R349: taking a precise trap parks the thread with its PC and registers as they were; its record carries the code,
the detail, the PC, the thread's place and handle; the region of its group is disarmed; no other thread changes but in the place
its own latest record has in the ring.

R344, R345, R410: where the checker of a thread's unit mismatches, an instruction that would retire traps PIPE_ERROR with the
unit as DETAIL instead, and has none of its effect: an integer addition to a v register (unit 1) or a k register (unit 8; that this stands
in place of unit 1 is log entry 52). -/
def Obligations.TrapsParkTheirThread : Prop :=
  (
    ∀ (s : State) (t : Nat) (c : Ctl) (code : BitVec 16), Alone s t c →
      exec (.trap c code) s = .next (takeTrap s t 6 code.toNat 0 0 false) ∧
      exec (.bkpt c code) s = .next (takeTrap s t 7 code.toNat 0 0 false)) ∧
  (
    ∀ (s : State) (t code detail : Nat) (addr : DWord) (gpa : Nat) (w : Bool), (tfind s.threads t).isSome = true →
      let s' := takeTrap s t code detail addr gpa w
      (∃ f, (s'.thread t).lastRec = some f ∧ f.code = code ∧ f.detail = detail ∧ f.pc = (s.thread t).pc.toNat ∧
        f.addr = addr.toNat ∧ f.gpa = gpa ∧ f.tid = (s.thread t).tid ∧ f.handle = handleOf s t ∧
        f.flags = 1 + 16 * w.toNat ∧ f.die = dieOfCore (coreOfThread t) ∧ f.core = coreInDie (coreOfThread t)) ∧
      s'.thread t = { s.thread t with run := .parked false, stalled := false, held := none, lastRec := (s'.thread t).lastRec } ∧
      (∀ u, u ≠ t → s'.thread u = { s.thread u with lastRec := (s'.thread u).lastRec }) ∧
      (s'.group (s.thread t).group).idem = none ∧
      ∀ g, (s'.group g).k = (s.group g).k) ∧
  (
    ∀ (s : State) (t : Nat) (c : Ctl) (m : IMod) (d : Reg) (a b : Src), Placed s → s.iss.members = [t] → s.iss.held = none →
      s.iss.bad = [.checker t (match d with | .v _ => 1 | .k _ => 8)] →
      tfind (s.core s.iss.core).inj 4 = none → guardOf (s.thread t) c = true → sfuOf s t = [] →
      exec (.iadd c m d a b) s = .next (takeTrap s t 8 (match d with | .v _ => 1 | .k _ => 8) 0 0 false))

/-! ### Classes 0x7 and 0x8, and accesses that perform -/

/-- R152, R158, R164: the checks on a captured memory entry in their order; the first that fails decides, and an access in bounds
has address BASE + offset. -/
def Obligations.ObjectChecksInOrder : Prop :=
  ∀ (s : State) (c part e : Nat) (need : Rights) (am : AM) (o : Int) (out : Bool) (size align : Nat),
    let r := checkEntry s c part e [1, 2] need am o out size align
    let addr := oBase e + BitVec.ofInt 64 o
    (entryValid s part (dieOfCore c) e = false → r = .trap 0x20 0) ∧
    (entryValid s part (dieOfCore c) e = true →
      (oType e ≠ 1 ∧ oType e ≠ 2 → r = .trap 0x21 0) ∧
      (oType e = 1 ∨ oType e = 2 →
        (need.r = true ∧ oR e = false ∨ need.w = true ∧ oW e = false ∨ need.a = true ∧ oA e = false → r = .trap 0x22 0) ∧
        ((need.r = true → oR e = true) → (need.w = true → oW e = true) → (need.a = true → oA e = true) →
          (am = .el ∧ oEfmt e = 8 → r = .trap 0x23 0) ∧
          (¬(am = .el ∧ oEfmt e = 8) →
            (o < 0 ∨ oExtent e < o + size ∨ out = true → r = if oBmode e = 0 then .trap 0x24 0 else .out) ∧
            (0 ≤ o → o + size ≤ oExtent e → out = false →
              (ptrSpace addr = 1 ∧ scratchSize (s.core c) < ptrOff addr + size → r = .trap 0x28 addr) ∧
              (¬(ptrSpace addr = 1 ∧ scratchSize (s.core c) < ptrOff addr + size) →
                (ptrOff addr % align ≠ 0 → r = .trap 0x25 addr) ∧ (ptrOff addr % align = 0 → r = .inb addr)))))))

/-- R159, R161, R164, R166: a load whose checks pass enters its core's load queue with its address and destination and retires;
out of bounds under BMODE ZERO the zeros for its destination wait to be written; a failed check traps. LDS checks its offset alone (ADDR
of an offset out of range is log entry 96), LDG that the thread is privileged. -/
def Obligations.LoadsIssue : Prop :=
  ∀ (s : State) (t : Nat) (c : Ctl) (sz : LdSz) (d : VReg), Alone s t c →
    let th := s.thread t
    let g := s.group th.group
    let co := coreOfThread t
    let n := ldBytes sz
    (∀ mem e addr s1, Checked (numbered s) t { r := true } mem n n false e (.inb addr) s1 → ptrUnfilled s1 co addr n = false →
      exec (.ld c sz d mem) s = .next (finishedNext t (loadQueued s s1 c t
        { kind := .load sz, ptr := addr, data := [], ch := c.ch, priv := s.privOf t, held := heldAt g addr } (.v d) sz.nregs
        (aopOf th g mem) (objIdx g mem.obj)))) ∧
    (∀ mem e s1, Checked (numbered s) t { r := true } mem n n false e .out s1 →
      exec (.ld c sz d mem) s =
        .next (finishedNext t (resultWaits (countOob s1 t) c t (.reg (.v d) (List.replicate sz.nregs 0))))) ∧
    (∀ mem e code addr s1, Checked (numbered s) t { r := true } mem n n false e (.trap code addr) s1 →
      exec (.ld c sz d mem) s = .next (takeTrap (numbered s) t code 0 addr 0 false)) ∧
    (∀ a (imm : Word) (x : Nat), (x : Int) = (srcNat th g 1 a : Int) + imm.toInt → x + n ≤ scratchSize (s.core co) → x % n = 0 →
      unfilledAt s co x n = false →
      exec (.lds c sz d a imm) s = .next (finishedNext t (loadQueued s (numbered s) c t
        { kind := .load sz, ptr := BitVec.ofNat 64 (2 ^ 60 + x), data := [] } (.v d) sz.nregs (BitVec.ofNat 64 (srcNat th g 1 a)) 0))) ∧
    (∀ a (imm : Word), ((srcNat th g 1 a : Int) + imm.toInt < 0 ∨ (scratchSize (s.core co) : Int) < srcNat th g 1 a + imm.toInt + n) →
      exec (.lds c sz d a imm) s = .next (takeTrap (numbered s) t 0x28 0
        (BitVec.ofNat 64 (2 ^ 60 + (((srcNat th g 1 a : Int) + imm.toInt) % 2 ^ 60).toNat)) 0 false)) ∧
    (∀ a (imm : Word) (x : Nat), (x : Int) = (srcNat th g 1 a : Int) + imm.toInt → x + n ≤ scratchSize (s.core co) → x % n ≠ 0 →
      exec (.lds c sz d a imm) s = .next (takeTrap (numbered s) t 0x25 0 (BitVec.ofNat 64 (2 ^ 60 + x)) 0 false)) ∧
    (∀ a imm, rawCheck (numbered s) t (regD th g a) (regD th g a + imm.signExtend 64) n = none →
      ptrUnfilled s co (regD th g a + imm.signExtend 64) n = false →
      exec (.ldg c sz d a imm) s = .next (finishedNext t (loadQueued s (numbered s) c t
        { kind := .load sz, ptr := regD th g a + imm.signExtend 64, data := [], ch := c.ch, priv := true
          held := heldAt g (regD th g a + imm.signExtend 64) } (.v d) sz.nregs (regD th g a) 0))) ∧
    (∀ a imm, s.privOf t = false →
      exec (.ldg c sz d a imm) s = .next (takeTrap (numbered s) t 0x26 0 0 0 false))

/-- R159, R161, R162, R164, R166: a store whose checks pass enters a free entry of its core's store buffer with its data and
retires; out of bounds under BMODE ZERO it is dropped; a failed check traps. STS, of a class that opens a window, checks its offset alone
(ADDR of an offset out of range is log entry 96). -/
def Obligations.StoresIssue : Prop :=
  ∀ (s : State) (t : Nat) (c : Ctl) (sz : StSz) (b : Src) (slot : Nat), Alone s t c →
    freeStoreSlot (s.core (coreOfThread t)) = some slot →
    let th := s.thread t
    let g := s.group th.group
    let co := coreOfThread t
    let n := stBytes sz
    (∀ mem e addr s1, Checked (numbered s) t { w := true } mem n n false e (.inb addr) s1 → ptrUnfilled s1 co addr n = false →
      exec (.st c sz mem b) s = .next (finishedNext t (storeQueued s s1 t
        { kind := .store n, ptr := addr, data := srcWords th g sz.nregs b, ch := c.ch, priv := s.privOf t } slot))) ∧
    (∀ mem e s1, Checked (numbered s) t { w := true } mem n n false e .out s1 →
      exec (.st c sz mem b) s = .next (finishedNext t (countOob s1 t))) ∧
    (∀ mem e code addr s1, Checked (numbered s) t { w := true } mem n n false e (.trap code addr) s1 →
      exec (.st c sz mem b) s = .next (takeTrap (numbered s) t code 0 addr 0 false)) ∧
    (∀ a (imm : Word) (x : Nat), (x : Int) = (srcNat th g 1 a : Int) + imm.toInt → x + n ≤ scratchSize (s.core co) → x % n = 0 →
      unfilledAt s co x n = false →
      exec (.sts c sz a imm b) s = .next (finishedNext t (storeQueued s (numbered s) t
        { kind := .store n, ptr := BitVec.ofNat 64 (2 ^ 60 + x), data := srcWords th g sz.nregs b } slot
        (some (c.la.val + 1))))) ∧
    (∀ a (imm : Word), ((srcNat th g 1 a : Int) + imm.toInt < 0 ∨ (scratchSize (s.core co) : Int) < srcNat th g 1 a + imm.toInt + n) →
      exec (.sts c sz a imm b) s = .next (takeTrap (numbered s) t 0x28 0
        (BitVec.ofNat 64 (2 ^ 60 + (((srcNat th g 1 a : Int) + imm.toInt) % 2 ^ 60).toNat)) 0 false)) ∧
    (∀ a (imm : Word) (x : Nat), (x : Int) = (srcNat th g 1 a : Int) + imm.toInt → x + n ≤ scratchSize (s.core co) → x % n ≠ 0 →
      exec (.sts c sz a imm b) s = .next (takeTrap (numbered s) t 0x25 0 (BitVec.ofNat 64 (2 ^ 60 + x)) 0 false)) ∧
    (∀ a imm, rawCheck (numbered s) t (regD th g a) (regD th g a + imm.signExtend 64) n = none →
      ptrUnfilled s co (regD th g a + imm.signExtend 64) n = false →
      exec (.stg c sz a imm b) s = .next (finishedNext t (storeQueued s (numbered s) t
        { kind := .store n, ptr := regD th g a + imm.signExtend 64, data := srcWords th g sz.nregs b, ch := c.ch, priv := true }
        slot))) ∧
    (∀ a imm, s.privOf t = false →
      exec (.stg c sz a imm b) s = .next (takeTrap (numbered s) t 0x26 0 0 0 false))

/-- R163, R167 to R170: LDK reads for the PC group, and the words for its k registers wait to be written, as those of OBJRD do; a CLINE
in device memory waits in the store buffer, elsewhere only .zero acts, as 128 B of stores; PRF and OTSYNC have their effect; each
retires.

R138: IPF of the only thread of a PC group requests its lines, counts what it got and what was skipped, and retires. -/
def Obligations.LineTableAndPrefetchInstructions : Prop :=
  (
    ∀ (s : State) (t : Nat) (c : Ctl), Alone s t c →
      let th := s.thread t
      let g := s.group th.group
      let co := coreOfThread t
      let part := s.partOf t
      (∀ sz d mem e addr s1 loc bs s2, Checked s t { r := true } mem (ldkBytes sz) (ldkBytes sz) false e (.inb addr) s1 →
        accOrdered s co part t s.nextId { kind := .load (ldkKind sz), ptr := addr, data := [], priv := s.privOf t } = true →
        ptrUnfilled s1 co addr (ldkBytes sz) = false → ptrWalkHeld s1 co part addr = false →
        let sw := ptrWalk s1 co part addr
        resolve sw co part (s.privOf t) addr needR = .ok loc →
        (hbmHeld sw loc = false ∨ l1Serves sw co loc (ldkBytes sz) = true) → readFault sw co t loc (ldkBytes sz) = none →
        readNow sw co t part (heldAt g addr) c.ch loc (ldkBytes sz) = (bs, s2) →
        exec (.ldk c sz d mem) s = .next (finishedNext t (resultWaits s2 c t (.reg (.k d) (natWords sz.nregs (leNat bs)))))) ∧
      (∀ l2 mem s1 got, prfLine s s t l2 mem = (s1, got) →
        exec (.prf c l2 mem) s = .next (finishedNext t
          (gcEvent (coreCount s1 co (if got then 0x17 else 0x18) 1) (if got then 0xB else 0xC) t 1))) ∧
      (∀ op mem e addr s1 slot, freeStoreSlot (s.core co) = some slot →
        Checked (numbered s) t { r := op != .zero, w := op == .zero } mem (if op = .zero then 128 else 1)
          (if op = .zero then 128 else 1) false e (.inb addr) s1 →
        ptrUnfilled s1 co addr (if op = .zero then 128 else 1) = false →
        (∀ pa, ptrSpace addr = 0 → walkHeld s1 co part (ptrOff addr) = false →
          resolve (ptrWalk s1 co part addr) co part (s.privOf t) addr (if op = .zero then needW else needR) = .ok (.hbm pa) →
          exec (.cline c op mem) s = .next (finishedNext t (storeQueued s (ptrWalk s1 co part addr) t
            { kind := .cline op pa, ptr := addr, data := [], priv := s.privOf t } slot (some (c.la.val + 1))))) ∧
        (ptrSpace addr = 4 → exec (.cline c op mem) s = .next (takeTrap (numbered s) t 0x27 0 addr 0 false)) ∧
        (ptrSpace addr ≠ 0 → ptrSpace addr ≠ 4 → exec (.cline c op mem) s = .next (finishedNext t
          (if op = .zero then storeQueued s s1 t { kind := .store 128, ptr := addr, data := List.replicate 32 0, priv := s.privOf t } slot
            (some (c.la.val + 1)) else s1)))) ∧
      (∀ hi d obj e s1, capture s co part (objIdx g obj) = some (e, s1) →
        exec (.objrd c hi d obj) s = .next (finishedNext t (resultWaits s1 c t (.reg (.v d)
          (natWords 4 (if hi then e / 2 ^ 128 else e % 2 ^ 128)))))) ∧
      exec (.otsync c) s = .next (finishedNext t (s.modCore co (fun x => { x with
        ocache := x.ocache.filter (fun y => y.1 != part), obad := x.obad.filter (fun y => y.1 != part) })))) ∧
  (
    ∀ (s : State) (t : Nat) (c : Ctl) (n : BitVec 8) (level : Fin 3) (imm : DWord), Alone s t c →
      let co := coreOfThread t
      let r := ipfLines s co (s.partOf t) level.val (s.privOf t) (((s.thread t).pc + imm).toNat / 128 * 128) (n.toNat + 1) 0
      exec (.ipf c n level imm) s = .next (finishedNext t
        (gcEvent (gcEvent (coreCount (coreCount r.1 co 0x15 r.2) co 0x16 (n.toNat + 1 - r.2)) 9 t r.2) 0xA t (n.toNat + 1 - r.2))))

/-- R161, R162, R248: LOAD_COMPLETE of a load that may perform writes its destination with the bytes at its place, extended as its
size says, and takes it from the load queue: from scratch, bank memory or a window as they stand, from device memory by
the home line when the L1 does not hold it. No memory byte changes there.

R33, R35, R141: the same event of the result of another long-latency instruction, once it is known and the older SFU- and DIV-class instructions of its
thread have passed their checkers, writes its registers and predicates and ORs its flags into %fpflags, and changes nothing else. -/
def Obligations.LoadsPerform : Prop :=
  (∀ (s : State) (core : Nat) (e : LoadEntry) (sz : LdSz) (d : VReg) (loc : Loc),
    (s.core core).loads.find? (fun y => y.id == e.id) = some e → e.acc.kind = .load sz → e.d = some (.v d) →
    loadReady s core e = some loc → coreOfThread e.thread = core → (tfind s.threads e.thread).isSome = true →
    e.acc.order = .rlx → (s.core core).l1d.length < l1Capacity (s.core core) →
    (∀ pa, loc = .hbm pa → tfind (s.core core).l1d (lineNo pa) = none ∧ e.acc.held = false ∧ pa % 128 + ldBytes sz ≤ 128) →
    ∃ s', exec (.loadComplete core e.id) s = .next s' ∧
      s'.thread e.thread = vwrites d.val (ldWords sz (locRead s loc (ldBytes sz))) (s.thread e.thread) ∧
      (∀ u, u ≠ e.thread → s'.thread u = s.thread u) ∧ (∀ y ∈ (s'.core core).loads, y.id ≠ e.id) ∧
      s'.hbm = s.hbm ∧ s'.bank = s.bank ∧ s'.host = s.host ∧ s'.remote = s.remote ∧
      (∀ x, (s'.core x).scratch = (s.core x).scratch) ∧ ∀ g, (s'.group g).k = (s.group g).k) ∧
  (∀ (s : State) (core : Nat) (e : LateEntry), (∀ y ∈ (s.core core).loads, y.id ≠ e.id) →
    (s.core core).late.find? (fun y => y.id == e.id) = some e → e.ready = true → coreOfThread e.thread = core →
    (∀ y ∈ (s.core core).sfu, y.thread = e.thread → e.id ≤ y.id) → (tfind s.threads e.thread).isSome = true →
    (tfind s.groups (s.thread e.thread).group).isSome = true →
    let r : Res := { regs := e.regs, preds := e.preds, fl := e.flags }
    ∃ s', exec (.loadComplete core e.id) s = .next s' ∧ outerState s' = outerState s ∧
      s'.thread e.thread = r.onThread (s.thread e.thread) ∧ (∀ u, u ≠ e.thread → s'.thread u = s.thread u) ∧
      (∀ g, s'.group g = if g = (s.thread e.thread).group then r.onGroup (s.group g) else s.group g) ∧
      (∀ y ∈ (s'.core core).late, y.id ≠ e.id) ∧ (s'.core core).scratch = (s.core core).scratch ∧ ∀ x, x ≠ core → s'.core x = s.core x)

/-- R162, R248: STORE_PERFORM of a store that may perform, of a launch that is not swapped out and no barrier waits for, writes its bytes at its place and leaves the store buffer; in scratch and
bank memory every byte outside the place is as it was. In device memory the bytes are dirty bytes of the L1 line and the home
is unchanged, but for the counters of hits and misses. -/
def Obligations.StoresPerform : Prop :=
  ∀ (s : State) (core : Nat) (e : StoreEntry) (n : Nat) (loc : Loc),
    (s.core core).stores.find? (fun y => y.id == e.id) = some e → e.acc.kind = .store n → storeReady s core e = some loc →
    e.acc.order = .rlx → s.bank.wf = true → (∀ x, (s.core x).scratch.wf = true) → (∀ p ∈ (s.group e.group).bars, p.2.closing = []) →
    (∀ l, tfind s.launches e.launch = some l → l.ctx = []) →
    let bs := (bytesOfWords e.acc.data).take n
    ∃ s', exec (.storePerform core e.id none) s = .next s' ∧ (∀ y ∈ (s'.core core).stores, y.id ≠ e.id) ∧
      s'.threads = s.threads ∧ (∀ g, s'.group g = { s.group g with gc := (s'.group g).gc }) ∧
      (∀ c o, loc = .scratch c o → s'.hbm = s.hbm ∧ s'.bank = s.bank ∧
        ∀ c' x, mget (s'.core c').scratch x =
          if c' = c ∧ o ≤ x ∧ x < o + bs.length then bs.getD (x - o) 0 else mget (s.core c').scratch x) ∧
      (∀ die b, loc = .bank die b → b + bs.length ≤ 2 ^ 27 → s'.hbm = s.hbm ∧ (∀ c, (s'.core c).scratch = (s.core c).scratch) ∧
        ∀ d x, x < 2 ^ 27 → bankGet s' d x =
          if d = die ∧ b ≤ x ∧ x < b + bs.length then bs.getD (x - b) 0 else bankGet s d x) ∧
      (∀ pa, loc = .hbm pa → pa % 128 + bs.length ≤ 128 → e.acc.ch.toNat % 4 ≠ 3 →
        (s.core core).l1d.length < l1Capacity (s.core core) →
        s'.hbm = s.hbm ∧ s'.bank = s.bank ∧ ∃ ln, tfind (s'.core core).l1d (lineNo pa) = some ln ∧
          ∀ i, i < bs.length → lineByte ln.data (pa % 128 + i) = bs.getD i 0 ∧ ln.dirty.getLsbD (pa % 128 + i) = true)

/-- R168: CLINE.zero makes the 128 bytes of the line zero at the home and takes the line from the L1; every byte outside the line
is unchanged. CLINE.wb writes the dirty bytes of the line home and nothing else. The line's home is reached (over a bridge that is down
dirty bytes stay, log entry 108).

R136, R137, R156, R254, R351, R363: fills and walks. An object-cache fill that a thread awaits brings the table's entry in; a walk that an
access awaits installs its translation; an instruction line that a thread waits for enters the L1; a scratch way not yet filled is
filled; a record that can be written leaves the held ones. -/
def Obligations.LineOperationsFillsAndWalks : Prop :=
  (
    ∀ (s : State) (c part pa : Nat), s.hbm.wf = true → homeCut s c (lineNo pa) = false →
      (let s' := clineAct s c part .zero pa
       (∀ a, mget s'.hbm a = if a / 128 = pa / 128 then 0 else mget s.hbm a) ∧ s'.hbm.wf = true ∧
         s'.bank = s.bank ∧ s'.host = s.host ∧ s'.remote = s.remote ∧ ∀ x, (s'.core x).scratch = (s.core x).scratch) ∧
      (let s' := clineAct s c part .wb pa
       (∀ a, mget s'.hbm a = match tfind (s.core c).l1d (a / 128) with
         | some ln => if a / 128 = pa / 128 ∧ ln.dirty.getLsbD (a % 128) = true then lineByte ln.data (a % 128) else mget s.hbm a
         | none => mget s.hbm a) ∧ s'.hbm.wf = true ∧ s'.bank = s.bank ∧ s'.host = s.host ∧ s'.remote = s.remote)) ∧
  (
    (∀ (s : State) (core part idx : Nat), idx < 2 ^ 16 → fillAwaited s core part idx = true →
      hbmHeld s (otLoc s part idx) = false → ∃ s', exec (.objectCacheFill core part idx false) s = .next s' ∧
      (s'.core core).ocache.head? = some (part, idx, BitVec.ofNat 256 (tableEntry s part idx)) ∧
      (s'.core core).obad.contains (part, idx) = false ∧ s'.hbm = s.hbm ∧ s'.threads = s.threads) ∧
    (∀ (s : State) (core part idx : Nat), idx < 2 ^ 16 → fillAwaited s core part idx = true →
      hbmHeld s (otLoc s part idx) = false → ∃ s', exec (.objectCacheFill core part idx true) s = .next s' ∧
      (s'.core core).obad.contains (part, idx) = true ∧ s'.hbm = s.hbm ∧ s'.threads = s.threads) ∧
    (∀ (s : State) (core part va pa : Nat) (e : Tlb), tlbFind s core part va = none →
      walkHeld s core part va = false → walkLink s core part va = none → walkAwaited s core part va = true →
      walk s part true va {} = .ok (pa, e) →
      ∃ s', exec (.pageWalk core part va) s = .next s' ∧ (s'.core core).tlb = (e :: (s.core core).tlb).take 1024 ∧
        (∀ x, x ≠ core → s'.core x = s.core x) ∧ s'.hbm = s.hbm ∧ s'.threads = s.threads) ∧
    (∀ (s : State) (core line t : Nat) (th : Thread), (t, th) ∈ s.threads → coreOfThread t = core → th.run ≠ .exited →
      fetchLineNo s t = some line → tfind (s.core core).l1i line = none → tfind (s.cluster (clusterOf core)).l2i line = none →
      tfind (s.die (dieOfPa (128 * line))).l2i line = none → lineHeld s core line = false → lineFault s core line = none →
      ∃ s', exec (.instructionLineFill core line false) s = .next s' ∧
        tfind (s'.core core).l1i line = some (homeLine s line) ∧ s'.hbm = s.hbm ∧ s'.threads = s.threads) ∧
    (∀ (s : State) (core w : Nat), w < 12 → (s.core core).unfilled.getLsbD w = true →
      (∀ v, v < w → (s.core core).unfilled.getLsbD v = false) →
      ∃ s', exec (.scratchZeroFill core) s = .next s' ∧ s'.core core = { s.core core with unfilled := (s'.core core).unfilled } ∧
        ∀ v, v < 12 → (s'.core core).unfilled.getLsbD v = ((s.core core).unfilled.getLsbD v && v != w)) ∧
    (∀ (s s1 : State) (part : Nat) (f : FRec), (s.part part).heldRecs = [f] → ringWrite s part f = some s1 →
      exec (.recordRetry part) s = .next (s1.modPart part (fun p => { p with heldRecs := [] }))))

/-- R347 to R350: an access that fails where it would perform is recorded, not performed. A load leaves the queue for the operand
log and its thread's registers stay, or is dropped where its thread has reached its EXIT (R134); a store stays in the buffer, held; no memory of the thread's kind changes but where a
record is written. -/
def Obligations.FailedAccessesAreRecorded : Prop :=
  (∀ (s : State) (core : Nat) (e : LoadEntry) (why : AccFail) (f : AFail),
    (s.core core).loads.find? (fun y => y.id == e.id) = some e →
    accOrdered s core (partOfLaunch s e.launch) e.thread e.id e.acc = true →
    failOf s core (partOfLaunch s e.launch) e.thread e.acc why = some f → coreOfThread e.thread = core →
    ((s.thread e.thread).run = .exited ∨ exiting (s.thread e.thread) = true → exec (.accessLogged core e.id why) s =
      .next (s.modCore core (fun x => { x with loads := x.loads.filter (fun y => y.id != e.id) }))) ∧
    ((s.thread e.thread).run ≠ .exited → exiting (s.thread e.thread) = false → ∃ s', exec (.accessLogged core e.id why) s = .next s' ∧ (∀ y ∈ (s'.core core).loads, y.id ≠ e.id) ∧
      (∃ y ∈ (s'.core core).olog, y.e = e ∧ y.replaying = false ∧ y.detail = f.detail ∧
        (y.inLog = true ↔ logCount (s.core core) < 64)) ∧
      (∀ u, s'.thread u = { s.thread u with lastRec := (s'.thread u).lastRec }) ∧
      (∀ g, (s'.group g).k = (s.group g).k) ∧ s'.bank = s.bank ∧ s'.remote = s.remote ∧
      ∀ x, (s'.core x).scratch = (s.core x).scratch)) ∧
  (∀ (s : State) (core : Nat) (e : StoreEntry) (why : AccFail) (f : AFail),
    (s.core core).stores.find? (fun y => y.id == e.id) = some e →
    accOrdered s core (partOfLaunch s e.launch) e.thread e.id e.acc = true →
    e.held = false → failOf s core (partOfLaunch s e.launch) e.thread e.acc why = some f →
    ∃ s', exec (.storePerform core e.id (some why)) s = .next s' ∧
      (∃ y ∈ (s'.core core).stores, y = { e with held := true }) ∧
      (∀ u, s'.thread u = { s.thread u with lastRec := (s'.thread u).lastRec }) ∧
      (∀ g, (s'.group g).k = (s.group g).k) ∧ s'.bank = s.bank ∧ s'.remote = s.remote ∧
      ∀ x, (s'.core x).scratch = (s.core x).scratch)

/-- R171, R172, R174 to R179: an atomic whose checks pass waits for its point of atomicity with its operand, scope and order, in
the load queue when it returns the old value and in the store buffer otherwise, and retires; out of bounds under BMODE ZERO it changes
nothing and zeros wait for its destination, if it has one; a failed check traps; on a host window, a floating-point one on remote memory
too, it traps BAD_SPACE (R381). -/
def Obligations.AtomicsIssue : Prop :=
  ∀ (s : State) (t : Nat) (c : Ctl) (sc : Scope) (ord : Order) (mem : MemOp0), Alone s t c →
    let th := s.thread t
    let g := s.group th.group
    let co := coreOfThread t
    let acc := fun (k : AccKind) (addr : DWord) (ws : List Word) =>
      ({ kind := k, ptr := addr, data := ws, scope := sc, order := ord, ch := c.ch, priv := s.privOf t } : Access)
    let queued := fun s1 k addr ws d nd => loadQueued s s1 c t (acc k addr ws) d nd (aopOf th g (memOf mem)) (objIdx g mem.obj)
    let checked := fun (k : AccKind) (b : Bool) e a s1 => Checked (numbered s) t { a := true } (memOf mem) k.size k.size b e a s1
    let room := fun slot => freeStoreSlot (s.core co) = some slot ∧ (s.core co).stores.length < 512
    (∀ op w d b e addr s1, checked (.atom op w) false e (.inb addr) s1 → ptrUnfilled s co addr (AccKind.atom op w).size = false →
      ptrSpace addr ≠ 4 → exec (.atom c op w sc ord d mem b) s =
        .next (finishedNext t (queued s1 (.atom op w) addr (srcWords th g (nregs64 w) b) d (nregs64 w)))) ∧
    (∀ w d b e addr s1, checked (.cas w) false e (.inb addr) s1 → ptrUnfilled s co addr (AccKind.cas w).size = false →
      ptrSpace addr ≠ 4 → exec (.atomcas c w sc ord d mem b) s =
        .next (finishedNext t (queued s1 (.cas w) addr (regWords th g (2 * nregs64 w) b) d (nregs64 w)))) ∧
    (∀ op w b e addr s1 slot, checked (.atom op w) false e (.inb addr) s1 → room slot →
      ptrUnfilled s co addr (AccKind.atom op w).size = false → ptrSpace addr ≠ 4 → exec (.red c op w sc ord mem b) s =
        .next (finishedNext t (storeQueued s s1 t (acc (.atom op w) addr (srcWords th g (nregs64 w) b)) slot))) ∧
    (∀ op d b e addr s1, checked (.atomf op) false e (.inb addr) s1 → ptrUnfilled s co addr (AccKind.atomf op).size = false →
      ptrSpace addr ≠ 4 → ptrSpace addr ≠ 3 → exec (.atomf c op false sc ord d mem b) s =
        .next (finishedNext t (queued s1 (.atomf op) addr (atomfArg op th g b) d (atomfBytes op / 4)))) ∧
    (∀ op d b e addr s1 slot, checked (.atomf op) false e (.inb addr) s1 → room slot →
      ptrUnfilled s co addr (AccKind.atomf op).size = false → ptrSpace addr ≠ 4 → ptrSpace addr ≠ 3 →
      exec (.atomf c op true sc ord d mem b) s =
        .next (finishedNext t (storeQueued s s1 t (acc (.atomf op) addr (atomfArg op th g b)) slot))) ∧
    (∀ op ty b e addr s1 slot, checked (.bankop op ty) true e (.inb addr) s1 → room slot →
      ptrUnfilled s co addr (AccKind.bankop op ty).size = false → ptrSpace addr ≠ 4 → exec (.bankop c op ty sc ord mem b) s =
        .next (finishedNext t (storeQueued s s1 t (acc (.bankop op ty) addr (regWords th g 4 b)) slot))) ∧
    (∀ op ty d n k e addr s1, srcNat th g 1 n = k → 1 ≤ k → k ≤ 32 →
      Checked (numbered s) t { r := true } (memOf mem) (4 * k) 4 true e (.inb addr) s1 → ptrUnfilled s1 co addr (4 * k) = false →
      addr.toNat / 128 = (addr.toNat + 4 * k - 1) / 128 →
      exec (.bankred c op ty sc ord d mem n) s =
        .next (finishedNext t (queued s1 (.bankred op ty k) addr [BitVec.ofNat 32 k] d 1))) ∧
    (let zeros := fun (k : AccKind) (d : Reg) (nd : Nat) (i : Instr) => ∀ e s1, checked k false e .out s1 →
      exec i s = .next (finishedNext t (resultWaits (countOob s1 t) c t (.reg d (List.replicate nd 0))))
     let nothing := fun (k : AccKind) (bank : Bool) (i : Instr) => ∀ e s1, checked k bank e .out s1 → (s.core co).stores.length < 512 →
      exec i s = .next (finishedNext t (countOob s1 t))
     let traps := fun (k : AccKind) (bank : Bool) (spaces : List Nat) (i : Instr) =>
      (∀ e code addr s1, checked k bank e (.trap code addr) s1 → exec i s = .next (takeTrap (numbered s) t code 0 addr 0 false)) ∧
      ∀ e addr s1, checked k bank e (.inb addr) s1 → ptrUnfilled s co addr k.size = false → ptrSpace addr ∈ spaces →
        exec i s = .next (takeTrap (numbered s) t 0x27 0 addr 0 false)
     (∀ op w d b, zeros (.atom op w) d (nregs64 w) (.atom c op w sc ord d mem b) ∧
        traps (.atom op w) false [4] (.atom c op w sc ord d mem b)) ∧
     (∀ w d b, zeros (.cas w) d (nregs64 w) (.atomcas c w sc ord d mem b) ∧ traps (.cas w) false [4] (.atomcas c w sc ord d mem b)) ∧
     (∀ op d b, zeros (.atomf op) d (atomfBytes op / 4) (.atomf c op false sc ord d mem b) ∧
        traps (.atomf op) false [3, 4] (.atomf c op false sc ord d mem b)) ∧
     (∀ op w b, nothing (.atom op w) false (.red c op w sc ord mem b) ∧ traps (.atom op w) false [4] (.red c op w sc ord mem b)) ∧
     (∀ op d b, nothing (.atomf op) false (.atomf c op true sc ord d mem b) ∧
        traps (.atomf op) false [3, 4] (.atomf c op true sc ord d mem b)) ∧
     (∀ op ty b, nothing (.bankop op ty) true (.bankop c op ty sc ord mem b) ∧
        traps (.bankop op ty) true [4] (.bankop c op ty sc ord mem b))) ∧
    (∀ op ty d n k e, srcNat th g 1 n = k → 1 ≤ k → k ≤ 32 →
      (∀ s1, Checked (numbered s) t { r := true } (memOf mem) (4 * k) 4 true e .out s1 → exec (.bankred c op ty sc ord d mem n) s =
        .next (finishedNext t (resultWaits (countOob s1 t) c t (.reg d [0])))) ∧
      (∀ code addr s1, Checked (numbered s) t { r := true } (memOf mem) (4 * k) 4 true e (.trap code addr) s1 →
        exec (.bankred c op ty sc ord d mem n) s = .next (takeTrap (numbered s) t code 0 addr 0 false)) ∧
      ∀ addr s1, Checked (numbered s) t { r := true } (memOf mem) (4 * k) 4 true e (.inb addr) s1 →
        ptrUnfilled s1 co addr (4 * k) = false → addr.toNat / 128 ≠ (addr.toNat + 4 * k - 1) / 128 →
        exec (.bankred c op ty sc ord d mem n) s = .next (takeTrap (numbered s) t 0x29 0 addr 0 false)) ∧
    (∀ op ty d n, srcNat th g 1 n = 0 ∨ 32 < srcNat th g 1 n →
      exec (.bankred c op ty sc ord d mem n) s = .next (takeTrap (numbered s) t 0x29 0 0 0 false))

/-- R172, R174 to R178: the new contents an atomic leaves at its place in bank memory, and the words it returns. No byte outside
the place changes. -/
def Obligations.AtomicsUpdateTheirPlace : Prop :=
  ∀ (s : State) (c t part die b : Nat) (acc : Access), s.bank.wf = true → acc.kind.atomic = true →
    b + acc.kind.size ≤ 2 ^ 27 →
    let old := locNat s (.bank die b) acc.kind.size
    let r := performAcc s c t part acc (.bank die b)
    r.1 = natWords (acc.kind.size / 4) old ∧
    locNat r.2 (.bank die b) acc.kind.size = acc.kind.rmw acc.data old % 2 ^ (8 * acc.kind.size) ∧
    (∀ d x, (d ≠ die ∨ x < b ∨ b + acc.kind.size ≤ x) → x < 2 ^ 27 → bankGet r.2 d x = bankGet s d x) ∧
    (wideScope acc.scope = false ∨ acc.order = .rlx → r.2.hbm = s.hbm) ∧ r.2.host = s.host ∧ r.2.remote = s.remote ∧
    (∀ y, (r.2.core y).scratch = (s.core y).scratch) ∧ r.2.threads = s.threads ∧ r.2.groups = s.groups

/-! ### Classes 0x9, 0xA and 0xC -/

/-- R261 to R263: a FENCE whose thread's earlier accesses have reached the points its order and scope ask for makes the core's dirty
bytes reach their homes (release) and its clean lines leave (acquire), and retires. R220, R221: BAR counts the arrival, with the
stores of its thread still under way that it releases; an .arv arrival retires, another waits; a thread whose arrival completes the
phase retires with the barrier empty; with n = 0 the threads that have not exited are expected; a count past the group's size and one
unlike the phase's own trap. No dirty byte of the core is kept from its home by a bridge that is down where a release goes beyond the
group (log entry 108), and in a DET launch an arrival waits for its thread's stores (log entry 30). -/
def Obligations.FencesAndGroupBarriers : Prop :=
  ∀ (s : State) (t : Nat) (c : Ctl), Alone s t c →
    let th := s.thread t
    let g := s.group th.group
    let co := coreOfThread t
    (∀ ord sc, (if ord = .acq then loadsDone s t else releaseReady s t sc) = true →
      exec (.fence c ord sc) s = .next (finishedNext t
        (acquireAt (releaseAt s co (s.partOf t) sc (fenceOrder ord)) co sc (fenceOrder ord)))) ∧
    (∀ (id : Fin 16) n, PhasesOpen s th.group → th.run = .running → ∀ arv,
      (g.size < srcNat th g 1 n → exec (.bar c arv id n) s = .next (takeTrap s t 0x13 0 0 0 false)) ∧
      (srcNat th g 1 n ≤ g.size → (tget {} g.bars id.val).count ≠ 0 → (tget {} g.bars id.val).n ≠ srcNat th g 1 n →
        exec (.bar c arv id n) s = .next (takeTrap s t 0x14 0 0 0 false))) ∧
    (∀ (id : Fin 16) n, let k := srcNat th g 1 n
      let b := tget {} g.bars id.val
      let expected := if k = 0 then (s.liveOf th.group).length else k
      barReady s t = true → k ≤ g.size → (b.count = 0 ∨ b.n = k) → b.closing = [] → b.count + 1 < expected →
      let rel := if (storesOf s t).isEmpty then b.rel else b.rel ++ [(t, s.nextId)]
      let arrived := s.modGroup th.group (fun x =>
        { x with bars := tset id.val { b with n := k, count := b.count + 1, rel := rel } x.bars })
      exec (.bar c true id n) s = .next (finishedNext t arrived) ∧
      exec (.bar c false id n) s = .next (arrived.modThread t (fun x => { x with run := .waiting (.bar id.val b.phase) }))) ∧
    (∀ (id : Fin 16) n arv, let k := srcNat th g 1 n
      (k = 1 ∨ k = 0 ∧ (s.liveOf th.group).length = 1) → k ≤ g.size → th.run ≠ .exited → accessesDone s t = true → g.bars = [] →
      Rising s.threads → (∀ p ∈ s.threads, ∀ phase, p.2.run ≠ .waiting (.bar id.val phase)) →
      ∃ s', exec (.bar c arv id n) s = .next s' ∧ (s'.group th.group).bars = [] ∧ (s'.thread t).pc = th.pc + 16 ∧
        (s'.thread t).run = .running ∧ (s'.thread t).v = th.v ∧ outerState s' = outerState s ∧ ∀ u, u ≠ t → s'.thread u = s.thread u)

/-- R214 to R218: the instructions on a barrier object. BOINIT writes it; BOEXPECT sets or adds expected bytes; BOARRIVE contributes
after its release and returns the old phase; BOWAIT and BOTEST answer at once when the phase differs from the parity, and
otherwise BOWAIT waits and BOTEST answers that it is not done. A pointer that names no legal object, and the null pointer, traps
BARRIER_PTR with it as ADDR (of BOINIT's illegal value ADDR is 0; the choice of both is log entry 53).

R211, R212: a contribution adds to the arrival counts, which saturate; the object flips, with its counts zero and its phase
inverted, when the contribution brings an error code or both counts have reached what is expected, and not otherwise. -/
def Obligations.BarrierObjectsInstructionsAndUpdates : Prop :=
  (
    ∀ (s : State) (t : Nat) (c : Ctl) (a : Reg) (imm : Word) (b : Src), Alone s t c →
      let th := s.thread t
      let g := s.group th.group
      let co := coreOfThread t
      (∀ loc, BarrierNamed s t a imm loc →
        let x := locNat s loc 16
        let y := srcNat th g 1 b
        (srcNat th g 2 b < 2 ^ 56 →
          exec (.boinit c a imm b) s = .next (finishedNext t (locWrite s loc (leBytes 16 (srcNat th g 2 b))))) ∧
        (2 ^ 56 ≤ srcNat th g 2 b → exec (.boinit c a imm b) s = .next (takeTrap s t 0x2B 0 0 0 false)) ∧
        (ueDetail s loc 16 = none →
        (∀ add, exec (.boexpect c add a imm b) s = .next (finishedNext t
          (boUpdate (locWrite s loc (leBytes 16 (boExpectVal x y add))) loc 0 0 0 (some th.group)))) ∧
        (∀ tx sc ret, releaseReady s t sc = true →
          let s1 := releaseAt s co (s.partOf t) sc .rel
          let s2 := boUpdate s1 loc (if tx then y else 0) (if tx then 0 else y) 0 (some th.group)
          exec (.boarrive c tx sc ret a imm b) s = .next (finishedNext t (match ret with
            | some d => resultWaits s2 c t (.reg d [if boPhase (locNat s1 loc 16) then 1 else 0])
            | none => s2))) ∧
        (∀ sc d, boPhase x ≠ y.testBit 0 →
          let done := finishedNext t (resultWaits (acquireAt s co sc .acq) c t (.reg d [boWord (boErr x) false (boPhase x) true]))
          exec (.bowait c sc d a imm b) s = .next done ∧ exec (.botest c sc d a imm b) s = .next done) ∧
        (∀ sc d, boPhase x = y.testBit 0 →
          exec (.bowait c sc d a imm b) s = .next (waitsIn s c t s (.bowait loc (some d) (y.testBit 0))) ∧
          exec (.botest c sc d a imm b) s =
            .next (finishedNext t (resultWaits s c t (.reg d [boWord 0 false (boPhase x) false])))))) ∧
      (let p := regD th g a + imm.signExtend 64
       boPtrOk s co (s.partOf t) p = false →
        exec (.boinit c a imm b) s = .next (takeTrap s t 0x2B 0 p 0 false) ∧
        (∀ add, exec (.boexpect c add a imm b) s = .next (takeTrap s t 0x2B 0 p 0 false)) ∧
        (∀ tx sc ret, exec (.boarrive c tx sc ret a imm b) s = .next (takeTrap s t 0x2B 0 p 0 false)) ∧
        (∀ sc d, exec (.bowait c sc d a imm b) s = .next (takeTrap s t 0x2B 0 p 0 false)) ∧
        ∀ sc d, exec (.botest c sc d a imm b) s = .next (takeTrap s t 0x2B 0 p 0 false))) ∧
  (
    ∀ (x ab ac ec : Nat), x < 2 ^ 128 → ec < 128 →
      let y := (boUpdateVal x ab ac ec).1
      let nb := min (boArrBytes x + ab) (2 ^ 40 - 1)
      let na := min (boArrCnt x + ac) 65535
      let flips : Prop := ec ≠ 0 ∨ boExpBytes x ≤ nb ∧ boExpArr x ≤ na
      y < 2 ^ 128 ∧ boExpBytes y = boExpBytes x ∧ boExpArr y = boExpArr x ∧
      (flips → (boUpdateVal x ab ac ec).2 = true ∧ boPhase y = !boPhase x ∧ boArrBytes y = 0 ∧ boArrCnt y = 0 ∧ boErr y = ec) ∧
      (¬ flips → (boUpdateVal x ab ac ec).2 = false ∧ boPhase y = boPhase x ∧ boArrBytes y = nb ∧ boArrCnt y = na ∧
        boErr y = boErr x))

/-- R223 to R228, R239: a copy, box copy, multicast copy or welt send whose descriptor and checks are legal, for which there is room,
is accepted and retires; a descriptor with an illegal field traps COPY_DESC. -/
def Obligations.CopiesAreAccepted : Prop :=
  ∀ (s : State) (t : Nat) (c : Ctl) (dst : CopyDst) (mem : MemOp0) (b : Reg) (s1 : State) (ds ss : List Seg) (oob : Bool), Alone s t c →
    let th := s.thread t
    let g := s.group th.group
    let co := coreOfThread t
    let x := regNat th g 16 b
    let src := srcObject t (s.partOf t) (dw x 0) (dwInt x 1) (dw x 2)
    let plain := newCopy s c t dst (descBo x) ss ds (dw x 2)
    let dests := ((List.range 4).map (fun i => fld x (12 + 2 * i) 2)).filterMap destEntry
    let multi := { plain with mc := true, reach := mcReach s1 t mem (dw x 2), branches := dests.zipIdx.map (fun p => (p.2, p.1)) }
    (dw x 0 < 2 ^ 16 → 1 ≤ dw x 2 → dw x 2 ≤ 0x1000000 → (∀ i, 3 ≤ i → i ≤ 13 → dw x i = 0) → boFormOk dst (descBo x) = true →
      CopyChecked s t (descBo x) mem true (dw x 2) src false true s1 ds ss oob → copyRoom s1 plain t →
      exec (.cpy c dst mem b) s = .next (finishedNext t (copyCounted s1 plain t oob))) ∧
    (dw x 2 = 0 ∨ 0x1000000 < dw x 2 → exec (.cpy c dst mem b) s = .next (takeTrap s t 0x2C 0 0 0 false)) ∧
    (dw x 0 < 2 ^ 16 → 1 ≤ dw x 2 → dw x 2 ≤ 0x100000 → (∀ i, 5 ≤ i → i ≤ 13 → dw x i = 0) → boFormOk dst (descBo x) = true →
      (∀ i, i < 4 → destEntryOk s (fld x (12 + 2 * i) 2) = true) → dests ≠ [] →
      CopyChecked s t (descBo x) mem true (dw x 2) src true (dests.contains co) s1 ds ss oob → copyRoom s1 multi t →
      exec (.cpymc c dst mem b) s = .next (finishedNext t (copyCounted s1 multi t oob))) ∧
    (∀ st p, dw x 0 < 2 ^ 16 → (∀ i, 1 ≤ i → i ≤ 3 → dw x i = 0) → (∀ i, i < 5 → 1 ≤ boxExtent x i ∧ boxExtent x i ≤ 65535) →
      boFormOk dst (descBo x) = true → shapePair t (s.partOf t) (dw x 0) st s = .ok p → boxOk x p = true →
      let size := boxCount x p.head * unitBytes p.head
      let box := newCopy s c t dst (descBo x) (if st then ds else ss) (if st then ss else ds) size
      CopyChecked s t (descBo x) mem (!st) size (boxSide t (s.partOf t) x st) false true s1 ds ss oob → copyRoom s1 box t →
      exec (.cpyt c dst st mem b) s = .next (finishedNext t (copyCounted s1 box t oob))) ∧
    (∀ a bs (rank : Fin 8) (size : Fin 16) (ctag : Fin 64),
      let off := srcNat th g 1 bs
      let n := 64 * (size.val + 1)
      let send := { newCopy s c t (.tag ctag) 0 [⟨.scratch co off, n⟩] [] n with
        noL2 := false, welt := some ((regW th g a).toNat, rank.val, n) }
      off % 64 = 0 → off + n ≤ pendingScratch (s.core co) → copyRoom s send t →
      exec (.wsend c a bs rank size ctag) s = .next (finishedNext t (copyAccepted s send)))

/-- R231 to R234: WAITANY and WAITALL whose condition holds return it with their predicate 0, and otherwise wait; FFR finds the
lowest ready tag, TAGCLR clears the tags with no copy outstanding, TAGRD reads one tag. -/
def Obligations.TagInstructions : Prop :=
  ∀ (s : State) (t : Nat) (c : Ctl), Alone s t c →
    let th := s.thread t
    let g := s.group th.group
    let co := coreOfThread t
    let ready := BitVec.ofNat 64 (tagMap (s.core co) (·.ready))
    let errs := BitVec.ofNat 64 (tagMap (s.core co) (·.err))
    (∀ q d m, (ready &&& srcD th g m ≠ 0 ∨ srcD th g m = 0) → exec (.waitany c q d m) s =
      .next (finishedNext t (writePred (writeReg s t true d (dwords (ready &&& srcD th g m))) t q false))) ∧
    (∀ q d m, ready &&& srcD th g m = 0 → srcD th g m ≠ 0 → exec (.waitany c q d m) s =
      .next (waitsIn s c t s (.tags false (some d) q (srcD th g m)))) ∧
    (∀ q d m, ready &&& srcD th g m = srcD th g m → exec (.waitall c q d m) s =
      .next (finishedNext t (writePred (writeReg s t true d (dwords (errs &&& srcD th g m))) t q false))) ∧
    (∀ q d m, ready &&& srcD th g m ≠ srcD th g m → exec (.waitall c q d m) s =
      .next (waitsIn s c t s (.tags true (some d) q (srcD th g m)))) ∧
    (∀ d m, ∃ i : Nat, (∀ j, j < i → j < 64 → (ready &&& srcD th g m).getLsbD j = false) ∧
      (i < 64 ∧ (ready &&& srcD th g m).getLsbD i = true ∨ i = 64) ∧
      exec (.ffr c d m) s = .next (finishedNext t (writeReg s t true d [BitVec.ofNat 32 i]))) ∧
    (∀ m, exec (.tagclr c m) s = .next (finishedNext t (s.modCore co (fun y =>
      { y with tags := tkeep (fun n x => !((srcD th g m).getLsbD n && x.count == 0)) y.tags })))) ∧
    (∀ d n, exec (.tagrd c d n) s = .next (finishedNext t (writeReg s t true d
      (natWords 1 (tagWord (tget {} (s.core co).tags (srcNat th g 1 n % 64)))))))

/-- R228 to R231: COPY_END of a copy from scratch to bank memory on a tag puts the bytes at the destination, takes it from the
queue and counts its tag down, ready with the last; every other bank byte, and scratch, is as it was.

R228: a branch of a CPYMC on a tag that arrives at a core running the launch writes the bytes into its scratch and is no longer
awaited; no other scratch, and no other memory, changes.

R219, R254, R255: a way change that nothing holds back takes effect: the mask, the loss of the bytes of ways taken, zeros in the
ways given, and the end of waits at objects in the ways taken; the request leaves its queue. -/
def Obligations.CopiesBranchesAndWayChangesTakeEffect : Prop :=
  (
    ∀ (s : State) (id n die a b tag : Nat) (cp : Copy), tfind s.copies id = some cp → Rising s.copies → s.bank.wf = true →
      cp.src = [⟨.scratch cp.core a, n⟩] → cp.dst = [⟨.bank die b, n⟩] → cp.bytes = n → cp.tag = some tag → cp.mc = false →
      cp.welt = none → cp.moved = [] → b + n ≤ 2 ^ 27 → linkFault s (dieOfCore cp.core) (.bank die b) = none →
      unfilledAt s cp.core a n = false → ueDetail s (.scratch cp.core a) n = none →
      (∀ l, tfind s.launches cp.launch = some l → l.ctx = []) → (∀ p ∈ s.threads, ∀ all d q m, p.2.run ≠ .waiting (.tags all d q m)) →
      ∃ s', exec (.copyEnd id none) s = .next s' ∧ tfind s'.copies id = none ∧
        (∀ d x, x < 2 ^ 27 → bankGet s' d x =
          if d = die ∧ b ≤ x ∧ x < b + n then mget (s.core cp.core).scratch (a + (x - b)) else bankGet s d x) ∧
        (∀ k, (s'.core k).scratch = (s.core k).scratch) ∧ s'.hbm = s.hbm ∧ s'.threads = s.threads ∧ s'.groups = s.groups ∧
        (let old := tget {} (s.core cp.core).tags tag
         let new := tget {} (s'.core cp.core).tags tag
         new.count = old.count - 1 ∧ new.err = old.err ∧ new.ready = (old.ready || decide (old.count ≤ 1)))) ∧
  (
    ∀ (s : State) (id branch core n a o : Nat) (cp : Copy), tfind s.copies id = some cp → tfind cp.branches branch = some core →
      (∀ k, (s.core k).scratch.wf = true) → cp.src = [⟨.scratch cp.core a, n⟩] → cp.dst = [⟨.scratch cp.core o, n⟩] →
      cp.bo = 0 → cp.data = none → Rising cp.branches → core ≠ cp.core → runsLaunch s core cp.launch = true →
      cp.reach ≤ scratchSize (s.core core) → unfilledAt s cp.core a n = false → unfilledAt s core o n = false →
      ueDetail s (.scratch cp.core a) n = none → (∀ l, tfind s.launches cp.launch = some l → l.ctx = []) →
      bridgeDown s (dieOfCore cp.core) (dieOfCore core) = false →
      ∃ s', exec (.cpymcBranchArrival id branch) s = .next s' ∧
        (∃ cp', tfind s'.copies id = some cp' ∧ tfind cp'.branches branch = none ∧ cp'.code = cp.code) ∧
        (∀ k x, mget (s'.core k).scratch x =
          if k = core ∧ o ≤ x ∧ x < o + n then mget (s.core cp.core).scratch (a + (x - o)) else mget (s.core k).scratch x) ∧
        s'.hbm = s.hbm ∧ s'.bank = s.bank ∧ s'.threads = s.threads) ∧
  (
    ∀ (s : State) (core n mark : Nat) (rest : List (Nat × Nat)), (s.core core).ways = (n, mark) :: rest → n ≤ 12 →
      (s.core core).scratch.wf = true → waysHeld s core (131072 * n) (scratchSize (s.core core)) mark = false →
      (∀ p ∈ s.threads, waitsAgain s p.1 = false ∧ ∀ o d par, p.2.run ≠ .waiting (.bowait (.scratch core o) d par)) →
      ∃ s', exec (.waysetTakesEffect core) s = .next s' ∧ (s'.core core).scrways = BitVec.ofNat 16 (2 ^ n - 1) ∧
        (s'.core core).ways = rest ∧ scratchSize (s'.core core) = 131072 * n ∧ s'.threads = s.threads ∧
        ∀ x, mget (s'.core core).scratch x =
          if (131072 * n ≤ x ∧ x < scratchSize (s.core core)) ∨ (scratchSize (s.core core) ≤ x ∧ x < 131072 * n) then 0
          else mget (s.core core).scratch x)

/-- R268 to R274: ACQ and TRYACQ send a request to their object's bank ALU; ACQ waits, TRYACQ retires, its predicate to be written once
the request is decided (the model's choice, log entry 62). REL and PUBLISH send a release or a version increment and retire once the
thread's loads have returned. -/
def Obligations.SyncInstructionsSendTheirRequests : Prop :=
  ∀ (s : State) (t : Nat) (c : Ctl) (obj : ObjSel), Alone s t c →
    let th := s.thread t
    let g := s.group th.group
    let co := coreOfThread t
    (∀ sh q o s1, syncCheck s s t (!sh) obj = .ok (o, s1) →
      let sent := { s1 with nextId := s1.nextId + 1, syncFly := tset s1.nextId (syncRequest s t o sh false) s1.syncFly }
      exec (.acq c sh q obj) s = .next (waitsIn s c t sent (.acq q))) ∧
    (∀ sh q o s1, syncCheck s s t false obj = .ok (o, s1) →
      let due := (resultWaits s1 c t { preds := [(q.val, false)] }).modCore co (fun x => { x with
        late := x.late.map (fun e => if e.id == s1.nextId then { e with ready := false } else e) })
      exec (.tryacq c sh q obj) s = .next (finishedNext t { due with
        nextId := due.nextId + 1, syncFly := tset due.nextId (syncRequest s t o sh true s1.nextId) due.syncFly })) ∧
    (∀ o s1, syncCheck s s t false obj = .ok (o, s1) → loadsDone s1 t = true →
      let r : RelReq := { thread := t, ptr := o.ptr, tid := th.tid, pc := th.pc, group := th.group, launch := g.launch, core := co,
                          part := s.partOf t, die := o.die, word := o.word, exts := o.exts }
      exec (.rel c obj) s =
        .next (finishedNext t { s1 with nextId := s1.nextId + 1, rels := tset s1.nextId r s1.rels })) ∧
    (∀ e s1, capture s co (s.partOf t) (objIdx g obj) = some (e, s1) → entryValid s1 (s.partOf t) (dieOfCore co) e = true →
      (oType e = 1 ∨ oType e = 2) → oW e = true → ptrSpace (oBase e) = 4 → loadsDone s1 t = true →
      let r : PubReq := { thread := t, tid := th.tid, pc := th.pc, ptr := oBase e, group := th.group, launch := g.launch
                          part := s.partOf t, win := ptrWin (oBase e) }
      exec (.publish c obj) s =
        .next (finishedNext t { s1 with nextId := s1.nextId + 1, pubs := tset s1.nextId r s1.pubs }))

/-- R267, R269: a TRYACQ that reaches its bank ALU is decided: 1, and the word and the group's held set changed, when no request is
registered and the word lets it in; 0, and the word as it was, otherwise; its predicate may then be written (log entry 62). An ACQ that
reaches it where none is registered is granted when the word lets it in: its thread retires with its predicate 0, and the word and the
held set change; otherwise it is registered, WAITING is set and its thread waits on.

R267, R270: a release that may perform clears the exclusive holder, or takes one shared holder away, and advances the sequence;
of a word nobody holds it is reported SYNC_STATE and the word stays. R274, R380: a publication increments the window's version counter
and writes it to the host. -/
def Obligations.SyncRequestsAreDecidedAndReleased : Prop :=
  (
    ∀ (s : State) (id : Nat) (r : SyncReq), tfind s.syncFly id = some r →
      earlierOnWay s id r.thread r.die r.word = false → bridgeDown s (dieOfCore r.core) r.die = false →
      r.exts = [] → s.bank.wf = true → r.word + 16 ≤ 2 ^ 27 → (tfind s.groups r.group).isSome = true →
      let x := locNat s (.bank r.die r.word) 16
      let lets := !swExcl x && (if r.shared then decide (swSh x < 65535) else swSh x == 0)
      let taken := fun (s' : State) => let y := locNat s' (.bank r.die r.word) 16
        (if r.shared then swSh y = swSh x + 1 else swExcl y = true) ∧ ∃ h ∈ (s'.group r.group).holds, h.word = wordKey r.die r.word
      (r.tryOnly = true →
        let ok := (registered s r.die r.word).isEmpty && lets
        ∃ s', exec (.syncRequestArrival id) s = .next s' ∧ s'.threads = s.threads ∧ s'.hbm = s.hbm ∧
          (∀ e ∈ (s.core r.core).late, e.id = r.late →
            { e with preds := e.preds.map (fun p => (p.1, ok)), ready := true } ∈ (s'.core r.core).late) ∧
          (ok = true → taken s') ∧
          (ok = false → s'.bank = s.bank ∧ (s'.group r.group).holds = (s.group r.group).holds)) ∧
      (∀ q, r.tryOnly = false → (s.thread r.thread).run = .waiting (.acq q) → registered s r.die r.word = [] → Rising s.syncReg →
        ∃ s', exec (.syncRequestArrival id) s = .next s' ∧ s'.hbm = s.hbm ∧ (∀ u, u ≠ r.thread → s'.thread u = s.thread u) ∧
          let y := locNat s' (.bank r.die r.word) 16
          (lets = true → taken s' ∧ flag y 17 = false ∧ (∀ p ∈ s'.syncReg, p.2.die = r.die → p.2.word ≠ r.word) ∧
            (s'.thread r.thread).pc = (s.thread r.thread).pc + 16 ∧ (s'.thread r.thread).run = .running ∧
            ∀ p, q = some p → p ≠ 7 → qread (s'.thread r.thread) p.val = false) ∧
          (lets = false → tfind s'.syncReg s.nextId = some r ∧ flag y 17 = true ∧ swSh y = swSh x ∧ swExcl y = swExcl x ∧
            s'.thread r.thread = s.thread r.thread ∧ (s'.group r.group).holds = (s.group r.group).holds))) ∧
  (
    (∀ (s : State) (id : Nat) (r : RelReq), tfind s.rels id = some r → r.exts = [] → Rising s.rels → s.bank.wf = true →
      r.word + 16 ≤ 2 ^ 27 → (s.core r.core).stores = [] → earlierOnWay s id r.thread r.die r.word = false →
      bridgeDown s (dieOfCore r.core) r.die = false → registered s r.die r.word = [] →
      let x := locNat s (.bank r.die r.word) 16
      ∃ s', exec (.syncReleasePerform id) s = .next s' ∧ tfind s'.rels id = none ∧
        (∀ u, s'.thread u = { s.thread u with lastRec := (s'.thread u).lastRec }) ∧
        (let y := locNat s' (.bank r.die r.word) 16
         (swExcl x = true ∨ swSh x ≠ 0 → swExcl y = false ∧ swSh y = (if swExcl x then swSh x else swSh x - 1) ∧
           swSeq y = (swSeq x + 1) % 2 ^ 32 ∧ s'.hbm = s.hbm) ∧
         (swExcl x = false → swSh x = 0 → s'.bank = s.bank ∧ ∃ f : FRec, f.code = 0x2F ∧ f.detail = 0 ∧ f.tid = r.tid ∧
           f.pc = r.pc.toNat ∧ s' = sendRec { s with rels := tdel id s.rels, nextId := s.nextId + 1 } r.part r.launch f))) ∧
    (∀ (s : State) (id : Nat) (r : PubReq), tfind s.pubs id = some r → Rising s.pubs →
      (s.core (coreOfThread r.thread)).stores = [] → (∀ p ∈ s.pubs, p.2.thread = r.thread → id ≤ p.1) →
      let w := tget {} (s.part r.part).wins r.win
      linkFault s (dieOfCore (coreOfThread r.thread)) (.host r.part r.win 0) = none →
      ∃ s', exec (.versionIncrement id) s = .next s' ∧ tfind s'.pubs id = none ∧
        (tget {} (s'.part r.part).wins r.win).version = w.version + 1 ∧
        s'.host = msets s.host (hostKey r.part w.veraddr.toNat) (leBytes 8 (w.version + 1).toNat) ∧ s'.hbm = s.hbm ∧
        s'.threads = s.threads))

/-- R237, R238, R244: WTALLOC takes the lowest free tag of its pool for a legal descriptor, or answers 0 under .try when there is
none; WTFREE of a tag with no operands frees it; WTQUERY reads its status; WTRENEW sets its timeout.

R240 to R243: an operand that reaches its station is kept, and the last of a round closes it with the elements combined in
ascending rank; a round to bank memory is delivered there; the timer of an overdue round ends, and with the clock the round closes with
code 3 and its allocation is dead, as after a WTFREE of an open round; its delivery frees the tag. That the end of the timer only marks the
round, and the clock closes it, 2 us late at most, is log entry 2. -/
def Obligations.WeltInstructionsAndRounds : Prop :=
  (
    ∀ (s : State) (t : Nat) (c : Ctl), Alone s t c →
      let th := s.thread t
      let g := s.group th.group
      let co := coreOfThread t
      let part := s.partOf t
      (∀ tr d obj b e s1 w, capture s co part (objIdx g obj) = some (e, s1) → entryValid s1 part (dieOfCore co) e = true →
        oType e = 6 → oA e = true → weltDesc s1 part co (regNat th g 8 b) = some w →
        (∀ n, freeTag s1 part (bitsAt e 32 32) (bitsAt e 64 16) = some n →
          let w' := { w with launch := g.launch, station := stationOf s1 n }
          exec (.wtalloc c tr d obj b) s = .next (finishedNext t
            (resultWaits { s1 with welts := tset (weltKey part n) w' s1.welts } c t (.reg d [BitVec.ofNat 32 n])))) ∧
        (freeTag s1 part (bitsAt e 32 32) (bitsAt e 64 16) = none →
          exec (.wtalloc c true d obj b) s = .next (finishedNext t (resultWaits s1 c t (.reg d [0]))))) ∧
      (∀ a, let key := weltKey part (regW th g a).toNat
        (liveWelt s key = none → exec (.wtfree c a) s = .next (finishedNext t s) ∧
          (∀ d, exec (.wtquery c d a) s = .next (finishedNext t (resultWaits s c t (.reg d [0, 0]))))) ∧
        ∀ w, liveWelt s key = some w →
          (w.kept = [] → exec (.wtfree c a) s = .next (finishedNext t (wakeRoom { s with welts := tdel key s.welts } th.group))) ∧
          (w.kept ≠ [] → exec (.wtfree c a) s = .next (finishedNext t (wakeRoom (closeRound s key w 3) th.group))) ∧
          (∀ d, exec (.wtquery c d a) s = .next (finishedNext t (resultWaits s c t (.nat d 2 (weltStatus s w))))) ∧
          (∀ b, srcNat th g 1 b ≤ 16777215 →
            let timeout := if srcNat th g 1 b = 0 then w.timeout else srcNat th g 1 b
            let started := if w.kept = [] then w.started else s.clock
            exec (.wtrenew c a b) s = .next (finishedNext t
              { s with welts := tset key { w with timeout := timeout, started := started, expiring := false } s.welts })))) ∧
  (
    (∀ (s : State) (id tag rank size n : Nat) (cp : Copy) (w : Welt), tfind s.copies id = some cp → Rising s.copies →
      cp.welt = some (tag, rank, size) → cp.tag = some n → cp.src.any (segWaits s) = false → cp.src.any (segBad s) = false →
      bridgeDown s (dieOfCore cp.core) (stationDie s (stationOf s tag)) = false → liveWelt s (weltKey cp.part tag) = some w →
      rank < w.arity → size = w.size → (∀ k ∈ w.kept, k.1 ≠ rank) → slotsUsed s cp.part w.station < (s.part cp.part).pslots →
      (∀ p ∈ s.threads, ∀ all d q m, p.2.run ≠ .waiting (.tags all d q m)) →
      ∃ s', exec (.weltArrival id) s = .next s' ∧ tfind s'.copies id = none ∧ s'.hbm = s.hbm ∧ s'.bank = s.bank ∧
        (w.kept.length + 1 ≠ w.arity → ∃ w', tfind s'.welts (weltKey cp.part tag) = some w' ∧
          (w'.kept.map (fun k => (k.1, k.2.2))) = (w.kept.map (fun k => (k.1, k.2.2))) ++ [(rank, segsRead s cp.src)]) ∧
        (w.kept.length + 1 = w.arity → ∃ w' r, tfind s'.welts (weltKey cp.part tag) = some w' ∧ w'.kept = [] ∧
          tfind s'.rounds s.nextId = some r ∧ r.code = 0 ∧ r.dest = w.dest ∧ r.bo = w.bo ∧
          r.result = combine w.op w.size (w.kept ++ [(rank, false, segsRead s cp.src)]))) ∧
    (∀ (s : State) (id b : Nat) (r : Round), tfind s.rounds id = some r → Rising s.rounds → ptrSpace r.dest = 2 → r.bo = 0 →
      boLoc s 0 r.part r.dest = some (.bank (bankDie r.dest) b) → s.bank.wf = true → b + r.result.length ≤ 2 ^ 27 →
      bridgeDown s (stationDie s r.station) (bankDie r.dest) = false →
      ∃ s', exec (.roundDelivery id none) s = .next s' ∧ tfind s'.rounds id = none ∧ s'.hbm = s.hbm ∧ s'.threads = s.threads ∧
        (∀ key, r.frees = some key → Rising s.welts → tfind s'.welts key = none) ∧
        ∀ d x, x < 2 ^ 27 → bankGet s' d x = if d = bankDie r.dest ∧ b ≤ x ∧ x < b + r.result.length then r.result.getD (x - b) 0
          else bankGet s d x) ∧
    (∀ (s : State) (part tag : Nat) (w : Welt), liveWelt s (weltKey part tag) = some w → Rising s.welts → w.kept ≠ [] →
      (weltDue s w ≤ s.clock →
        exec (.orphanExpiry part tag) s = .next { s with welts := tset (weltKey part tag) { w with expiring := true } s.welts }) ∧
      ∀ n, w.expiring = true ∨ weltDue s w + stationClocks s w.station 2 ≤ s.clock + n →
        let s' := weltExpire s n
        liveWelt s' (weltKey part tag) = none ∧ s'.hbm = s.hbm ∧ s'.threads = s.threads ∧
          ∃ id r, tfind s'.rounds id = some r ∧ r.part = part ∧ r.code = 3 ∧ r.frees = some (weltKey part tag) ∧
            r.result = combine w.op w.size w.kept))

/-! ### Class 0xB -/

/-- R183, R185, R192, R193, R197, R203, R204: a request of a thread whose launch holds the engine, and that passes its checks, is
posted, and the thread waits for its acceptance; without the engine it traps ENGINE_ISSUE.

R207, R208: MSTAT answers with the latest status entry of the group with the PASSID, or zeros; MCANCEL ends the group's passes whose
accumulate stage has not begun, with code 6, and retires. -/
def Obligations.EngineRequestsStatusAndCancel : Prop :=
  (
    ∀ (s : State) (t : Nat) (c : Ctl), Alone s t c →
      let th := s.thread t
      let g := s.group th.group
      let co := coreOfThread t
      let part := s.partOf t
      (holdsEngine s t = true →
        (∀ buf, exec (.wdrop c buf) s = .next (enginePosted s s c t (.wdrop buf.val) 0)) ∧
        (∀ a, let x := regNat th g 2 a
          pbits x 0 19 13 = 0 → pbits x 1 19 13 = 0 → (regionRect x).row + (regionRect x).nr ≤ 512 →
          (regionRect x).col + (regionRect x).nc ≤ 768 →
          exec (.accz c a) s = .next (enginePosted s s c t (.accz (regionRect x)) 0)) ∧
        (∀ bfmt cmp bscl buf mem b e s1 ps out segs, let x := regNat th g 4 b
          let k := pbits x 0 0 10 + 1
          let n := pbits x 0 10 10 + 1
          let bo := BitVec.ofNat 64 (pbits x 2 0 64)
          let walked := fun (ps : List (List Piece)) => piecesWalk s1 co part ps.flatten
          ∀ cs, pbits x 0 20 12 = 0 → pbits x 1 0 32 = 0 → colSize bfmt.toNat cmp bscl k = some cs → n ≤ 768 →
            (bo = 0 ∨ boPtrOk s co part bo = true) → capture s co part (objIdx g mem.obj) = some (e, s1) →
            runsCheck s1 co part e false 1 ((List.range n).map (fun j =>
              ((srcNat th g 1 mem.a : Int) + mem.off.toInt + (j * (if oStride0 e = 0 then cs else oStride0 e) : Nat), cs))) = .ok (ps, out) →
            ptrSpace (oBase e) ≠ 4 → piecesHeld s1 co part ps.flatten = false → resolvePieces (walked ps) co part (s.privOf t) needR ps.flatten = .ok segs →
            exec (.wload c bfmt cmp bscl buf mem b) s = .next (enginePosted s (if out then countOob (walked ps) t else walked ps) c t
              (.wload buf.val bfmt.toNat cmp bscl k n segs (n * cs)) bo)) ∧
        (∀ fmt mem b e s1 ps out segs, let x := regNat th g 4 b
          let r := regionRect x
          let bo := BitVec.ofNat 64 (pbits x 2 0 64)
          let run := fun (i : Nat) => ((srcNat th g 1 mem.a : Int) + mem.off.toInt +
            (i * (if oStride0 e = 0 then r.nc * elemBytes (BitVec.toNat fmt) else oStride0 e) : Nat), r.nc * elemBytes (BitVec.toNat fmt))
          let walked := fun (ps : List (List Piece)) => piecesWalk s1 co part ps.flatten
          pbits x 0 19 13 = 0 → pbits x 1 19 13 = 0 → r.row + r.nr ≤ 512 → r.col + r.nc ≤ 768 →
          (bo = 0 ∨ boPtrOk s co part bo = true) → capture s co part (objIdx g mem.obj) = some (e, s1) → ptrSpace (oBase e) ≠ 4 →
          (runsCheck s1 co part e false (elemBytes fmt.toNat) ((List.range r.nr).map run) = .ok (ps, out) →
            piecesHeld s1 co part ps.flatten = false → resolvePieces (walked ps) co part (s.privOf t) needR ps.flatten = .ok segs →
            exec (.accld c fmt mem b) s = .next (enginePosted s (if out then countOob (walked ps) t else walked ps) c t
              (.accld fmt.toNat r segs (inBounds ps.flatten)) bo)) ∧
          (∀ rm sat, runsCheck s1 co part e true (elemBytes fmt.toNat) ((List.range r.nr).map run) = .ok (ps, out) →
            piecesHeld s1 co part ps.flatten = false → resolvePieces (walked ps) co part (s.privOf t) needW ps.flatten = .ok segs →
            exec (.accst c fmt rm sat mem b) s = .next (enginePosted s (if out then countOob (walked ps) t else walked ps) c t
              (.accst fmt.toNat rm sat r segs (inBounds ps.flatten)) bo))) ∧
        (∀ (p : VReg) ea ra outA s1 es rs outS s2, let x := regNat th g 16 (.v p)
          let m := pbits x 0 0 10 + 1
          let n := pbits x 0 10 10 + 1
          let k := pbits x 0 20 10 + 1
          let afmt := pbits x 1 16 4
          let ascale := flag (pbits x 1 0 32) 20
          let wbuf := pbits x 1 23 1
          let cl := s.cluster (clusterOf co)
          let d := (if wbuf = 0 then cl.w0 else cl.w1).desc
          let rect : Rect := ⟨128 * pbits x 1 24 2 + pbits x 6 0 10, pbits x 6 10 10, m, n⟩
          let bo := BitVec.ofNat 64 (pbits x 7 0 64)
          mmaFieldsOk x = true → d.st ≠ .empty → pairOk afmt d.bfmt = true →
          d.k = k → d.n = n → rect.row + m ≤ 512 → rect.col + n ≤ 768 → pbits x 2 0 4 = 0 → pbits x 3 0 4 = 0 →
          mmaObject s t part (pbits x 1 0 16) ((List.range m).map (fun i => (((pbits x 2 0 32 + i * pbits x 3 0 32 : Nat) : Int),
            vecBytes afmt k))) = .ok (ea, ra, outA, s1) →
          (ascale = false → (es, rs, outS, s2) = (ea, [], false, s1)) →
          (ascale = true → mmaObject s1 t part (pbits x 4 0 16) ((List.range m).map (fun i =>
            (((pbits x 5 0 32 + i * nBlocks k : Nat) : Int), nBlocks k))) = .ok (es, rs, outS, s2)) →
          ptrSpace (oBase ea) = 1 → ptrSpace (oBase es) = 1 → (bo = 0 ∨ boPtrOk s2 co part bo = true) →
          let kind : MmaReq := { m, n, k, acc := pbits x 0 30 2 == 1, afmt, ascale,
                                 mode := modeOf (if pbits x 1 21 2 = 0 then g.region.toNat else pbits x 1 21 2), wbuf,
                                 pri := pbits x 1 26 2, rect, passid := BitVec.ofNat 32 (pbits x 10 0 32), bytes := pbits x 9 0 32,
                                 mtol := g.mtol, mretry := g.mretry, rows := ra, srows := rs }
          exec (.mma c p) s = .next (enginePosted s (if outA || outS then countOob s2 t else s2) c t (.mma kind) bo))) ∧
      (holdsEngine s t = false →
        (∀ buf, exec (.wdrop c buf) s = .next (takeTrap s t 0x40 1 0 0 false)) ∧
        (∀ a, exec (.accz c a) s = .next (takeTrap s t 0x40 1 0 0 false)) ∧
        (∀ p, exec (.mma c p) s = .next (takeTrap s t 0x40 1 0 0 false)) ∧
        (∀ bfmt cmp bscl buf mem b, exec (.wload c bfmt cmp bscl buf mem b) s = .next (takeTrap s t 0x40 1 0 0 false)) ∧
        (∀ fmt mem b, exec (.accld c fmt mem b) s = .next (takeTrap s t 0x40 1 0 0 false)) ∧
        (∀ fmt rm sat mem b, exec (.accst c fmt rm sat mem b) s = .next (takeTrap s t 0x40 1 0 0 false)))) ∧
  (
    ∀ (s : State) (t : Nat) (c : Ctl), Alone s t c →
      let th := s.thread t
      let g := s.group th.group
      let k := clusterOf (coreOfThread t)
      (∀ d a, let mine := fun (p : PStat) => p.group == th.group && (match a with | some a => p.passid == srcW th g a | none => true)
        (∀ p rest, ((s.core (coreOfThread t)).ring.filter mine) = p :: rest → exec (.mstat c d a) s =
          .next (finishedNext t (resultWaits s c t (.reg (.v d) [p.passid, p.d1, p.d2, p.d3])))) ∧
        ((s.core (coreOfThread t)).ring.filter mine = [] → exec (.mstat c d a) s =
          .next (finishedNext t (resultWaits s c t (.reg (.v d) [0, 0, 0, 0]))))) ∧
      (holdsEngine s t = true → ∀ a, exec (.mcancel c a) s = .next (finishedNext t
        (((s.cluster k).table.filter (fun e => e.group == th.group && (match e.kind, e.stage with
          | .mma _, .accum .. => false
          | .mma _, .failed .. => false
          | .mma _, .transfer => false
          | .mma r, _ => (match a with | some a => r.passid == srcW th g a | none => true)
          | _, _ => false))).foldl (fun s e => failEntry s k e 6) (gcEvent s 0xD t 1)))) ∧
      (holdsEngine s t = false → ∀ a, exec (.mcancel c a) s = .next (takeTrap s t 0x40 1 0 0 false)))

/-- R185 to R188, R191, R193, R200, R204: a posted request takes a table entry and its thread retires; a request that nothing holds
back runs; an attempt all of whose rows and columns match is accumulated; once the output stage is free (R402; that its entries count as
they get there is log entry 68), a completed pass, load, drop or transfer has its effect on the accumulators or the half, and leaves the
table. -/
def Obligations.EngineEventsAdvanceRequests : Prop :=
  (∀ s k r, firstPosted ((s.cluster k).posted.filter (acceptable s k)) = some r → (tfind s.threads r.thread).isSome = true →
    ∃ s', exec (.requestAccept k) s = .next s' ∧
      (s'.cluster k).table = (s.cluster k).table ++ [{ r with since := (s.cluster k).mclk }] ∧
      (s'.cluster k).posted = (s.cluster k).posted.filter (fun x => x.id != r.id) ∧ (s'.cluster k).acc = (s.cluster k).acc ∧
      (s'.thread r.thread).pc = (s.thread r.thread).pc + 16 ∧ (s'.thread r.thread).run = .running ∧
      (s'.thread r.thread).v = (s.thread r.thread).v) ∧
  (∀ s k e, let cs := (candidates (s.cluster k)).filter (grantOpen s)
    cs.any safeNext = false → bestEntry (s.cluster k) cs = some e →
    let stage := match e.kind with
      | .mma _ => PassStage.stream { attempt := 1, safe := false, railmv := (s.cluster k).railmv, fstep := (s.cluster k).fstep
                                     began := (s.cluster k).mclk }
      | _ => .transfer
    e.stage = .waiting →
    (∀ r, e.kind = .mma r → ((halfOf (s.cluster k) r.wbuf).after.getD (halfOf (s.cluster k) r.wbuf).held).st ≠ .error) →
    exec (.requestGrant k) s = .next (s.modCluster k (fun x =>
      { x with table := x.table.map (fun y => if y.id = e.id then { y with stage := stage } else y)
               sent := match e.kind with | .mma _ => x.sent | _ => 0 }))) ∧
  (∀ s k id e r p, entryOf s k id = some e → e.kind = .mma r → e.stage = .stream p → (s.core e.core).inj = [] →
    (∀ l ∈ r.rows ++ r.srows, ∀ g ∈ l, segWaits s g = false ∧ segBad s g = false) →
    (∀ l ∈ r.rows ++ r.srows, ∀ g ∈ l, ∀ co o, g.loc = .scratch co o → (s.core co).inj = []) →
    let h := halfOf (s.cluster k) r.wbuf
    h.held.st = .ready → h.held.k = r.k → h.held.n = r.n → pairOk r.afmt h.held.bfmt = true →
    let as := (List.range r.m).map (fun i => vecVals r.afmt r.k (segsRead s (r.rows.getD i []))
      (if r.ascale then some (segsRead s (r.srows.getD i [])) else none))
    let ws := (columnsOf h.held h.tile).map (·.1)
    let dc := passDc r.afmt r.k as ws
    let v := judgeAll r.m r.n (quantities r.k as ws) dc (mtolFor r.mtol r.afmt (r.ascale || h.held.bscl)) (r.mode == .tolerant)
    v.rows = [] → v.cols = [] →
    ∃ s' e' p', exec (.attemptCheck k id [] false) s = .next s' ∧ entryOf s' k id = some e' ∧
      e'.stage = .accum p' none false dc ∧ p'.unj = v.unj ∧ s'.threads = s.threads ∧ (s'.cluster k).acc = (s.cluster k).acc) ∧
  (∀ s k id e r p corr approx dc, entryOf s k id = some e → e.kind = .mma r → e.stage = .accum p corr approx dc → outputFree s k = true →
    dc.length = r.rect.nr * r.rect.nc → r.rect.col + r.rect.nc ≤ 768 →
    ∃ s', exec (.passComplete k id false) s = .next s' ∧ (∀ x ∈ (s'.cluster k).table, x.id ≠ id) ∧
      (∀ i j, j < 768 → (r.rect.has i j →
        let x := dc.getD (r.rect.index i j) 0
        accGet (s'.cluster k) i j = if r.acc then
          BitVec.ofNat 32 (fAdd f32 .rn (accGet (s.cluster k) i j).toNat x.toNat).1 else x) ∧
        (¬ r.rect.has i j → accGet (s'.cluster k) i j = accGet (s.cluster k) i j)) ∧
      (s'.core e.core).ring = (passStat e.group r p 0 corr approx :: (s.core e.core).ring).take 16) ∧
  (∀ s k id e buf bfmt cmp bscl kk n src bytes, entryOf s k id = some e → e.kind = .wload buf bfmt cmp bscl kk n src bytes →
    e.stage = .transfer → transferReady s e = true → outputFree s k = true → halfBusy (s.cluster k) buf = false →
    (∀ g ∈ src, ∀ co o, g.loc = .scratch co o → (s.core co).inj = []) →
    ∃ s', exec (.wloadComplete k id none) s = .next s' ∧ (∀ x ∈ (s'.cluster k).table, x.id ≠ id) ∧
      (halfOf (s'.cluster k) buf).held = { st := .ready, bfmt, cmp, bscl, k := kk, n } ∧
      (halfOf (s'.cluster k) buf).tile = segsRead s src ∧ (s'.cluster k).acc = (s.cluster k).acc) ∧
  (∀ s k id e buf, entryOf s k id = some e → e.kind = .wdrop buf → e.stage = .transfer → halfBusy (s.cluster k) buf = false →
    ∃ s', exec (.wdropComplete k id) s = .next s' ∧ (∀ x ∈ (s'.cluster k).table, x.id ≠ id) ∧
      (halfOf (s'.cluster k) buf).held = {} ∧ (halfOf (s'.cluster k) buf).tile = [] ∧ (s'.cluster k).acc = (s.cluster k).acc) ∧
  (∀ s k id e, entryOf s k id = some e → e.stage = .transfer → transferReady s e = true → outputFree s k = true →
    dataEntries e ≤ (s.cluster k).sent →
    (∀ rect, e.kind = .accz rect → rect.col + rect.nc ≤ 768 →
      ∃ s', exec (.transferComplete k id none) s = .next s' ∧ (∀ x ∈ (s'.cluster k).table, x.id ≠ id) ∧
        ∀ i j, j < 768 → (rect.has i j → accGet (s'.cluster k) i j = 0) ∧
          (¬ rect.has i j → accGet (s'.cluster k) i j = accGet (s.cluster k) i j)) ∧
    (∀ fmt rect src bytes, e.kind = .accld fmt rect src bytes → rect.col + rect.nc ≤ 768 →
      (∀ g ∈ src, ∀ co o, g.loc = .scratch co o → (s.core co).inj = []) →
      let xs := elems fmt (rect.nr * rect.nc) (segsRead s src)
      ∃ s', exec (.transferComplete k id none) s = .next s' ∧ (∀ x ∈ (s'.cluster k).table, x.id ≠ id) ∧
        ∀ i j, j < 768 → (rect.has i j → accGet (s'.cluster k) i j =
            BitVec.ofNat 32 (deliver f32 .rn false (xs.getD (rect.index i j) zeroV)).1) ∧
          (¬ rect.has i j → accGet (s'.cluster k) i j = accGet (s.cluster k) i j)) ∧
    (∀ fmt rm sat rect co o n bytes, e.kind = .accst fmt rm sat rect [⟨.scratch co o, n⟩] bytes → e.bo = 0 →
      n = rect.nr * rect.nc * elemBytes fmt →
      let bs := (List.range (rect.nr * rect.nc)).flatMap (fun p => leBytes (elemBytes fmt) (convert fmt 2 rm sat
        (accGet (s.cluster k) (rect.row + p / rect.nc) (rect.col + p % rect.nc)).toNat).1)
      (s.core co).scratch.wf = true →
      ∃ s', exec (.transferComplete k id none) s = .next s' ∧ (∀ x ∈ (s'.cluster k).table, x.id ≠ id) ∧
        (s'.cluster k).acc = (s.cluster k).acc ∧ s'.hbm = s.hbm ∧ s'.bank = s.bank ∧
        ∀ x, mget (s'.core co).scratch x = if o ≤ x ∧ x < o + n then bs.getD (x - o) 0 else mget (s.core co).scratch x))

/-! ### Class 0xD and the handlers -/

/-- R280 to R283: in index mode of a launch that is not DET an AWLNEXT takes the next chunk with its origin and index, or answers
that there is none; in record mode it takes the oldest record, with an acquire, answers that the queue is exhausted, or waits.
AWLPEEK reports the counts.

R285 to R287: an EMIT to a queue with room, once its thread's accesses have reached the package, is on its way to the queue and
retires; a full queue answers 0 under .try; a closed edge traps EMIT_CLOSED. EMITCLOSE with nothing on its way closes the edge. A
record that arrives stands last in its queue. -/
def Obligations.AwlAndRecordsDispenseWork : Prop :=
  (
    ∀ (s : State) (t : Nat) (c : Ctl) (d : Reg) (q : PDst) (l : Launch), Alone s t c → s.launchOf t = some l → l.r.det = false →
      bridgeDown s (dieOfCore (coreOfThread t)) l.die = false →
      let lk := (s.group (s.thread t).group).launch
      let total := awlTotal l.r
      let taken := s.modLaunch lk (fun l => { l with dispensed := l.dispensed + 1 })
      let none' := finishedNext t (resultWaits s c t { regs := [(d, [0, 0, 0, 0, 0, 0, 0, 0])], preds := [(q.val, false)] })
      (l.r.awlRec = false →
        (l.dispensed < total → exec (.awlnext c d q) s = .next (finishedNext t (resultWaits taken c t
          { regs := [(d, (awlOrigin l.r l.dispensed ++ [l.dispensed, 0, 0, 0]).map (BitVec.ofNat 32))], preds := [(q.val, true)] }))) ∧
        (total ≤ l.dispensed → exec (.awlnext c d q) s = .next none') ∧
        exec (.awlpeek c d) s = .next (finishedNext t (resultWaits s c t (.reg d
          [BitVec.ofNat 32 (total - l.dispensed), BitVec.ofNat 32 l.dispensed, if total ≤ l.dispensed then 2 else 0, 0])))) ∧
      (∀ gi g n, l.r.awlRec = true → l.inst = some gi → tfind s.insts gi = some g → g.nodes[l.r.node]? = some n →
        (∀ w rest, n.recs = w :: rest → exec (.awlnext c d q) s = .next (finishedNext t (resultWaits (acquireAt
          (modNode taken gi l.r.node (fun n => { n with dispensed := n.dispensed + 1, recs := n.recs.drop 1 }))
          (coreOfThread t) .pkg .acq) c t { regs := [(d, w)], preds := [(q.val, true)] }))) ∧
        (n.recs = [] → inputClosed g l.r.node = true → exec (.awlnext c d q) s = .next none') ∧
        (n.recs = [] → inputClosed g l.r.node = false → exec (.awlnext c d q) s =
          .next (waitsIn s c t s (.awl (some d) q))))) ∧
  (
    (∀ (s : State) (t : Nat) (c : Ctl) (obj : ObjSel) (l : Launch) (gi : Nat) (g : GInst) (n : Nat) (s1 : State), Alone s t c →
      s.launchOf t = some l → emitEdge s s t l obj = .ok (gi, g, n, s1) →
      let lk := (s.group (s.thread t).group).launch
      let cap := match g.nodes[n]? with | some x => x.qcap | none => 0
      let sent := fun (s' : State) (q : Option PDst) ok =>
        match q with | some q => resultWaits s' c t { preds := [(q.val, ok)] } | none => s'
      (∀ q b, l.closed.contains n = false → releaseReady s t .pkg = true → queued s1 gi n < cap →
        let s2 := releaseAt s1 (coreOfThread t) l.part .pkg .rel
        let r : EmitReq := { thread := t, launch := lk, inst := gi, node := n,
                             data := regWords (s.thread t) (s.group (s.thread t).group) 8 b }
        exec (.emit c q obj b) s = .next (finishedNext t
          (sent { s2 with nextId := s2.nextId + 1, emits := tset s2.nextId r s2.emits } q true))) ∧
      (∀ q b, l.closed.contains n = false → releaseReady s t .pkg = true → cap ≤ queued s1 gi n →
        exec (.emit c (some q) obj b) s = .next (finishedNext t (sent s1 (some q) false))) ∧
      (∀ q b, l.closed.contains n = true → exec (.emit c q obj b) s = .next (takeTrap s t 0x31 0 0 0 false)) ∧
      ((∀ p ∈ s1.emits, p.2.launch = lk → p.2.node ≠ n) → exec (.emitclose c obj) s = .next (finishedNext t
        (graphSettle (closeEdge (s1.modLaunch lk (fun l => { l with closed := if l.closed.contains n then l.closed else l.closed ++ [n] }))
          gi l.r.node n) gi)))) ∧
    (∀ (s : State) (id : Nat) (r : EmitReq) (g : GInst) (x : GNode), tfind s.emits id = some r → Rising s.emits →
      (∀ p ∈ s.emits, p.1 < id → p.2.thread = r.thread → p.2.inst = r.inst → p.2.node ≠ r.node) →
      tfind s.insts r.inst = some g → g.nodes[r.node]? = some x → x.done = false →
      ∃ s' g' x', exec (.recordEnqueue id) s = .next s' ∧ tfind s'.emits id = none ∧ tfind s'.insts r.inst = some g' ∧
        g'.nodes[r.node]? = some x' ∧ x'.recs = x.recs ++ [r.data]))

/-- R16, R17, R288, R289: SPAWN with room starts a group, with %grp NCORES plus the count of the launch's spawns, whose threads start
at the target with the eight words in v0 to v7, and writes that %grp; without room or after a diversion it writes all ones; in a
DET launch it traps DET_UNSUPPORTED.

R290, R291: LASTSEL writes the code of the first last that accepts the shape, sets the group's pad values from it, and answers 1;
with none it writes 0 and the shape. -/
def Obligations.SpawnAndLastsel : Prop :=
  (
    ∀ (s : State) (t : Nat) (c : Ctl) (wait : Bool) (gs : Fin 8) (d : VReg) (a : Reg) (imm : DWord) (l : Launch), Alone s t c →
      s.launchOf t = some l →
      let th := s.thread t
      let g := s.group th.group
      let pc := th.pc + imm
      let size := 64 * (gs.val + 1)
      let grp := l.r.ncores + l.spawned
      let none' := finishedNext t (resultWaits s c t (.reg (.v d) [BitVec.allOnes 32]))
      ((pc.toNat % 16 ≠ 0 ∨ 2 ^ 57 ≤ pc.toNat) → exec (.spawn c wait gs d a imm) s = .next (takeTrap s t 4 0 0 0 false)) ∧
      (pc.toNat % 16 = 0 → pc.toNat < 2 ^ 57 →
        (l.r.det = true → exec (.spawn c wait gs d a imm) s = .next (takeTrap s t 0x17 0 0 0 false)) ∧
        (l.r.det = false → l.diverted = true → exec (.spawn c wait gs d a imm) s = .next none') ∧
        (l.r.det = false → l.diverted = false →
          (l.spawned < 65536 - l.r.ncores → findTurns s g.core size g.regs = none →
            exec (.spawn c false gs d a imm) s = .next none') ∧
          (65536 - l.r.ncores ≤ l.spawned → exec (.spawn c false gs d a imm) s = .next none') ∧
          (∀ turn, l.spawned < 65536 - l.r.ncores → findTurns s g.core size g.regs = some turn →
            let s1 := addGroup s g.launch l g.core turn grp size g.regs pc (regWords th g 8 a)
            exec (.spawn c wait gs d a imm) s = .next (finishedNext t (resultWaits
              (s1.modLaunch g.launch (fun l => { l with spawned := l.spawned + 1 })) c t (.reg (.v d) [BitVec.ofNat 32 grp]))) ∧
            ∀ i, i < size → ∃ x, tfind s1.threads (512 * g.core + 64 * turn + i) = some x ∧ x.pc = pc ∧ x.tid = i ∧ x.q = 0 ∧
              x.run = .running ∧ x.j = [] ∧ (s1.group x.group).grp = grp ∧ (s1.group x.group).launch = g.launch ∧
              ∀ n, n < 1024 → vread x n = if n < 8 then (regWords th g 8 a).getD n 0 else 0)))) ∧
  (
    ∀ (s : State) (t : Nat) (c : Ctl) (d : Reg) (q : PDst) (obj : Option ObjSel) (l : Launch) (e : Nat) (s1 s2 : State) (base : DWord)
      (hit : Option (Nat × Nat)), Alone s t c → s.launchOf t = some l →
      let g := s.group (s.thread t).group
      capture s (coreOfThread t) (s.partOf t) (match obj with | some o => objIdx g o | none => l.r.lastobj) = some (e, s1) →
      checkEntry s1 (coreOfThread t) (s.partOf t) e [1, 2] { r := true } .plain 0 false (oExtent e) 1 = .inb base →
      oExtent e % 128 = 0 → 128 ≤ oExtent e → oExtent e ≤ 32768 →
      rangeOrdered s (coreOfThread t) (s.partOf t) t (s.privOf t) base (oExtent e) = true →
      lastScan s1 t base l.r.shape (oExtent e / 128) 0 = .ok (hit, s2) →
      let field := fun (x i : Nat) => BitVec.ofNat 32 (fld x (0x40 + 4 * i) 4)
      let pads := (List.range 8).map (fun i => match hit with
        | some (_, x) => if flag (fld x 0x68 1) i then field x i else l.r.shape.getD i 0
        | none => l.r.shape.getD i 0)
      let v : DWord := match hit with | some (_, x) => l.base + BitVec.ofNat 64 (fld x 0x60 8) | none => 0
      let s3 := s2.modGroup (s.thread t).group (fun g =>
        { g with pads, selected := match hit with | some (n, _) => n | none => g.selected })
      exec (.lastsel c d q obj) s = .next (finishedNext t (resultWaits s3 c t { regs := [(d, dwords v)], preds := [(q.val, hit.isSome)] })))

/-- R293 to R295, R301, R302: COMMIT, once the thread's accesses are done, releases at .sys and sets the commit state. IDEMBEG and
IDEMEND of a launch without IDEMOK only retire; with it, IDEMBEG of a group's only thread opens the region with its snapshot,
which is armed when its write ends, and IDEMEND disarms it. WRAPDONE ends every thread of the launch. -/
def Obligations.CommitRegionsAndWrapdone : Prop :=
  (∀ (s : State) (t : Nat) (c : Ctl), Alone s t c →
    let th := s.thread t
    let g := s.group th.group
    (∀ part a, accessesDone s t = true → exec (.commit c part a) s = .next (finishedNext t
      ((releaseAt s (coreOfThread t) (s.partOf t) .sys .rel).modLaunch g.launch (fun l =>
        { l with commit := some (srcD th g a, part) })))) ∧
    exec (.idemend c) s = .next (finishedNext t (if idemOk s t then s.modGroup th.group (fun x => { x with idem := none }) else s)) ∧
    ((∀ p ∈ s.threads, p.2.group = th.group → p.1 = t) → Rising s.threads → ∀ f n,
      (g.regs < f.toNat + n.val + 1 → exec (.idembeg c f n) s = .next (takeTrap s t 3 0 0 0 false)) ∧
      (f.toNat + n.val + 1 ≤ g.regs → idemOk s t = false → exec (.idembeg c f n) s = .next (finishedNext t s)) ∧
      (f.toNat + n.val + 1 ≤ g.regs → idemOk s t = true → th.run ≠ .exited →
        ∃ s' r, exec (.idembeg c f n) s = .next s' ∧ (s'.group th.group).idem = some r ∧ r.armed = false ∧ r.first = f.toNat ∧
          r.n = n.val + 1 ∧ r.pc = th.pc + 16 ∧ r.k = g.k ∧ r.region = g.region ∧ r.mtol = g.mtol ∧ r.mretry = g.mretry ∧
          r.pads = g.pads ∧ r.snap = [(t, ((List.range (n.val + 1)).map (fun i => vread th (f.toNat + i)), th.q, th.fpflags,
            th.retired + 1, th.dvpc))] ∧ (s'.thread t).pc = th.pc + 16 ∧ (s'.thread t).v = th.v ∧ outerState s' = outerState s))) ∧
  (∀ (s : State) (g : Nat) (r : Idem), (s.group g).idem = some r →
    exec (.regionArmed g) s = .next (s.modGroup g (fun x => { x with idem := some { r with armed := true } }))) ∧
  (∀ (s : State) (t : Nat) (c : Ctl), Solo s t c → loadsOf s t = [] → sfuOf s t = [] → lateOf s t = [] →
    Rising s.threads →
    let lk := (s.group (s.thread t).group).launch
    (∀ p ∈ s.syncReg, (s.group (s.thread p.2.thread).group).launch ≠ lk) →
    ∃ s', exec (.wrapdone c) s = .next s' ∧
      (∀ p ∈ s.threads, (s.group p.2.group).launch = lk → (s'.thread p.1).run = .exited) ∧
      (∀ p ∈ s.threads, (s.group p.2.group).launch ≠ lk → (s'.thread p.1).run = p.2.run ∧ (s'.thread p.1).pc = p.2.pc ∧
        (s'.thread p.1).v = p.2.v) ∧
      ∀ l, tfind s.launches lk = some l → ∃ l', tfind s'.launches lk = some l' ∧ l'.noDivert = (l.noDivert || !l.diverted))

/-- R353 to R356: for a thread without privilege each handler instruction traps PRIVILEGE. With it, PARKRD and OPLOG write what they
read of a parked thread, or zeros for a stale handle; REPLAY writes its word; TRAPRET lets a parked thread run on at its own PC,
the next, or the target, with .disc without its logged accesses; with .kill its launch is cancelled with its fault, and each of the launch's
threads exits, be the issuing thread among them or not.

R357, R377: a resume action on a stale handle leaves 0 in RESULT (after a retry, skip or kill this is the model's reading, log entry
20); retry and skip let a parked thread run on at its PC or the
next; kill ends every thread of its launch. -/
def Obligations.HandlersAndResumeRegisters : Prop :=
  (
    ∀ (s : State) (t : Nat) (c : Ctl) (a : Reg), Alone s t c →
      let th := s.thread t
      let g := s.group th.group
      let part := s.partOf t
      let h := regW th g a
      let got := fun (d : VReg) ws => finishedNext t (resultWaits s c t (.reg (.v d) ws))
      (s.privOf t = false →
        (∀ d, exec (.replay c d a) s = .next (takeTrap s t 0x26 0 0 0 false)) ∧
        (∀ act disc b m, exec (.trapret c act disc a b m) s = .next (takeTrap s t 0x26 0 0 0 false)) ∧
        (∀ sel d n, exec (.parkrd c sel d a n) s = .next (takeTrap s t 0x26 0 0 0 false)) ∧
        (∀ d n, exec (.oplog c d a n) s = .next (takeTrap s t 0x26 0 0 0 false))) ∧
      (s.privOf t = true →
        (∀ d, replayHeld s part h = false →
          exec (.replay c d a) s = .next (finishedNext t (resultWaits (replay s part h).1 c t (.reg d [(replay s part h).2])))) ∧
        (findHandle s part h = .stale → (replay s part h) = (s, 0) ∧
          (∀ act disc b m, exec (.trapret c act disc a b m) s = .next (if th.run = .exited then s else finishedNext t s)) ∧
          (∀ sel d n, parkIndexOk sel (srcNat th g 1 n) →
            exec (.parkrd c sel d a n) s = .next (got d [0, 0, 0, 0])) ∧
          (∀ d n, srcNat th g 1 n < 32 → exec (.oplog c d a n) s = .next (got d [0, 0, 0, 0]))) ∧
        (∀ sel d n, ¬ parkIndexOk sel (srcNat th g 1 n) →
          exec (.parkrd c sel d a n) s = .next (takeTrap s t 0x33 0 0 0 false)) ∧
        (∀ d n, 32 ≤ srcNat th g 1 n → exec (.oplog c d a n) s = .next (takeTrap s t 0x33 0 0 0 false)) ∧
        (∀ u, findHandle s part h = .thread u → u ≠ t → let x := s.thread u
          (∀ d n, srcNat th g 1 n % 4 = 0 → srcNat th g 1 n < (s.group x.group).regs →
            exec (.parkrd c .reg d a n) s = .next (got d ((List.range 4).map (fun i => vread x (srcNat th g 1 n + i))))) ∧
          (∀ d n b, srcNat th g 1 n ≤ 15 → tfind x.j (srcNat th g 1 n) = some b →
            exec (.parkrd c .j d a n) s = .next (got d (dwords b.start ++ dwords b.jpc))) ∧
          (∀ d n f r, srcNat th g 1 n ≤ 3 → x.lastRec = some f → f.rseq = some r →
            exec (.parkrd c .recd d a n) s = .next (got d (((wordsOf (recBytes f r)).drop (4 * srcNat th g 1 n)).take 4))) ∧
          (∀ d n, srcNat th g 1 n = 0 → exec (.parkrd c .st d a n) s = .next (got d
            [BitVec.ofNat 32 ((x.q ||| 128#8).toNat + x.fpflags.toNat * 256), BitVec.ofNat 32 (x.j.foldl (fun m p => m ||| 2 ^ p.1) 0),
             BitVec.ofNat 32 (((loggedOf s u).filter (·.inLog)).length + (isParked x).toNat * 256 + x.diverted.toNat * 512), 0])) ∧
          (∀ d n e, srcNat th g 1 n < 32 → ((loggedOf s u).filter (·.inLog))[srcNat th g 1 n / 4]? = some e →
            exec (.oplog c d a n) s = .next (got d (((logWords e).drop (4 * (srcNat th g 1 n % 4))).take 4))) ∧
          (∀ b m act disc, act ≠ .kill → isParked x = true → x.j = [] → th.run ≠ .exited → (tfind s.threads u).isSome = true →
            (act = .jump → (regD th g b).toNat % 16 = 0 ∧ (regD th g b).toNat < 2 ^ 57) →
            ∃ s', exec (.trapret c act disc a b m) s = .next s' ∧ (s'.thread u).run = .running ∧
              (s'.thread u).pc = (match act with | .skip => x.pc + 16 | .jump => regD th g b | _ => x.pc) ∧ (s'.thread u).v = x.v ∧
              loggedOf s' u = (if disc then [] else loggedOf s u) ∧
              (s'.thread t).pc = th.pc + 16 ∧ (s'.thread t).v = th.v ∧ outerState s' = outerState s) ∧
          (∀ disc b m l, let lk := (s.group x.group).launch
            isParked x = true → th.run ≠ .exited → tfind s.launches lk = some l → Rising s.threads →
            ∃ s' l', exec (.trapret c .kill disc a b m) s = .next s' ∧ tfind s'.launches lk = some l' ∧ l'.cancelled = true ∧
              (∀ f, x.lastRec = some f → toSecure f.code f.detail = false → l'.fault = some (f.code, f.detail)) ∧
              (∀ p ∈ s.threads, p.1 < 196608 → (s.group p.2.group).launch = lk → (s'.thread p.1).run = .exited) ∧
              ((s.group th.group).launch ≠ lk → (s'.thread t).pc = th.pc + 16 ∧ (s'.thread t).v = th.v)) ∧
          (∀ act disc b m, isParked x = false → th.run ≠ .exited →
            exec (.trapret c act disc a b m) s = .next (finishedNext t s)) ∧
          (∀ disc b m, isParked x = true → th.run ≠ .exited →
            ¬ ((regD th g b).toNat % 16 = 0 ∧ (regD th g b).toNat < 2 ^ 57) →
            exec (.trapret c .jump disc a b m) s = .next (takeTrap s t 4 0 0 0 false))))) ∧
  (
    ∀ (s : State) (part : Nat) (h : Word),
      (findHandle s part h = .stale →
        let none' := s.modPart part (fun p => { p with result := 0 })
        exec (.resumeReplay part h false) s = .next none' ∧ exec (.resumeRetry part h false) s = .next none' ∧
        exec (.resumeSkip part h false) s = .next none' ∧ exec (.resumeKill part h false) s = .next none') ∧
      (∀ u, findHandle s part h = .thread u → (s.thread u).j = [] → isParked (s.thread u) = true → (tfind s.threads u).isSome = true →
        (∃ s', exec (.resumeRetry part h false) s = .next s' ∧ (s'.thread u).run = .running ∧ (s'.thread u).pc = (s.thread u).pc ∧
          (s'.thread u).v = (s.thread u).v ∧ s'.hbm = s.hbm ∧ s'.bank = s.bank) ∧
        (∃ s', exec (.resumeSkip part h false) s = .next s' ∧ (s'.thread u).run = .running ∧
          (s'.thread u).pc = (s.thread u).pc + 16 ∧ (s'.thread u).v = (s.thread u).v ∧ s'.hbm = s.hbm ∧ s'.bank = s.bank) ∧
        (∀ l, let lk := (s.group (s.thread u).group).launch
          tfind s.launches lk = some l → Rising s.threads →
          ∃ s' l', exec (.resumeKill part h false) s = .next s' ∧ tfind s'.launches lk = some l' ∧ l'.cancelled = true ∧
            ∀ p ∈ s.threads, p.1 < 196608 → (s.group p.2.group).launch = lk → (s'.thread p.1).run = .exited) ∧
        (loggedOf s u = [] → beingSwapped s u = false → ∃ s', exec (.resumeReplay part h false) s = .next s' ∧
          (s'.part part).result = BitVec.ofNat 32 (if (s.thread u).run = .parked true then 2 ^ 16 else 0))))

/-! ### Queues, launches, the scheduler -/

/-- R320 to R322, R335: an active queue whose turn it is takes the held inline packet of its number, or its ring slot, and holds a packet whose barrier is
not met until it is; a torn slot is read again and stops the queue with PACKET_TORN at the 64th time; an empty one makes it
IDLE. -/
def Obligations.QueuesTakeTheirPackets : Prop :=
  ∀ (s : State) (k : Nat), let q := s.queue k
    let s1 := turnTaken s k
    (fetching s k = true → itsTurn s k = true →
      (∀ bs, q.inline = some bs → pkSeq (leNat bs) = q.expseq → pkLimitsOk (leNat bs) = true →
        (needsBarrier (leNat bs) = false ∨ barrierMet s k = true) → exec (.packetFetch k none false) s =
          .next (s1.modQueue k (fun q => { q with inline := none, cur := some (bs, false), retries := 0 }))) ∧
      (inlineNow q = none → ∀ x, slotRead s k q.expseq = some x → pkMarkOk x q.expseq = true →
        (pkCrcOk x = true → pkSeq x = q.expseq → q.expseq < 2 ^ 16 → pkReservedOk x = true → pkLimitsOk (leNat (leBytes 64 x)) = true →
          let taken := s1.modQueue k (fun q => { q with cur := some (leBytes 64 x, true), retries := 0 })
          (needsBarrier (leNat (leBytes 64 x)) = false ∨ barrierMet s k = true →
            exec (.packetFetch k none false) s = .next taken) ∧
          (needsBarrier (leNat (leBytes 64 x)) = true → barrierMet s k = false →
            exec (.packetFetch k none false) s = .next (taken.modQueue k (fun q => { q with st := .held })))) ∧
        (pkCrcOk x = false →
          (q.retries < 63 → exec (.tornRepoll k) s = .next (s.modQueue k (fun q => { q with retries := q.retries + 1 }))) ∧
          (q.retries = 63 → ∃ s', exec (.tornRepoll k) s = .next s' ∧ (s'.queue k).st = .stopped ∧ (s'.queue k).stopcode = 1 ∧
            (s'.queue k).expseq = q.expseq))) ∧
      (inlineNow q = none → ∀ x, slotRead s k q.expseq = some x → pkMarkOk x q.expseq = false →
        exec (.slotPollTimeout k) s = .next (s.modQueue k (fun q => { q with st := .idle, retries := 0 })))) ∧
    (q.st = .held → q.dropping = none → q.waiting = false →
      exec (.heldRelease k) s = .next (if barrierMet s k then s.modQueue k (fun q => { q with st := .active }) else s))

/-- R319, R324, R327, R330: the packets have their effects. A LAUNCH of a legal record makes a launch ready; a WAIT holds the queue
until what it names has come; a SIGNAL writes or adds its value; an XFER copies its bytes; MODLOAD copies and loads a module, and
MODDROP unloads it and waits for its launches; a GRAPH of legal nodes becomes an instance whose first node launches. -/
def Obligations.PacketsHaveTheirEffects : Prop :=
  ∀ (s : State) (k : Nat), let q := s.queue k
    let x := curPacket q
    let die := queueDie k
    (InHand s k 1 → qHeld s k (BitVec.ofNat 64 (fld x 8 8)) 256 = false → ∀ b, qRead s q.part die (BitVec.ofNat 64 (fld x 8 8)) 256 = some b → recRow1 b (pkSeq x) = true →
      let r := overrideRec (parseRec b) x
      recFailRow s q.part q.classmax false b r = 0 →
      ∃ s' l, exec (.launch k none) s = .next s' ∧ Advanced s s' k ∧ tfind s'.launches s.nextId = some l ∧ l.r = r ∧ l.part = q.part ∧
        l.queue = k ∧ l.st = .ready (s.die die).dlclk ∧ s'.threads = s.threads ∧ s'.hbm = s.hbm) ∧
    (InHand s k 2 → (flag x 32 = true ∨ ((tfind s.queues (1024 * die + fld x 8 2)).isSome = true ∧
        (s.queue (1024 * die + fld x 8 2)).part = q.part)) →
      exec (.wait k) s = .next (s.modQueue k (fun q => { q with st := .held, waiting := true }))) ∧
    (q.st = .held → q.waiting = true → q.dropping = none →
      (flag x 32 = false → waitMet s k x = true → ∃ s', exec (.heldRelease k) s = .next s' ∧ Advanced s s' k) ∧
      (flag x 32 = true → qHeld s k (BitVec.ofNat 64 (fld x 8 8)) = false → ∀ v, qRead s q.part die (BitVec.ofNat 64 (fld x 8 8)) 8 = some v →
        (fld x 0x10 8 ≤ v → ∃ s', exec (.waitPoll k none) s = .next s' ∧ Advanced s s' k) ∧
        (v < fld x 0x10 8 → exec (.waitPoll k none) s = .next s))) ∧
    (InHand s k 3 → ∀ pa, let p := BitVec.ofNat 64 (fld x 8 8)
      let v := fld x 0x10 8
      qHeld s k p = false → qReach s q.part die p needW = some (.hbm pa) → (qReach s q.part die (p + 7) needW).isSome = true → s.hbm.wf = true →
      (flag x 32 = true → qReach s q.part die p needA = some (.hbm pa)) →
      ∃ s', exec (.signal k none) s = .next s' ∧ Advanced s s' k ∧
        leGet s'.hbm pa 8 = (if flag x 32 then (leGet s.hbm pa 8 + v) % 2 ^ 64 else v) ∧
        ∀ a, a < pa ∨ pa + 8 ≤ a → mget s'.hbm a = mget s.hbm a) ∧
    (InHand s k 4 → exec (.xfer k) s = .next (s.modQueue k (fun q => { q with xfering := true }))) ∧
    (q.st = .active → q.xfering = true → ∀ a b, let n := fld x 0x18 4
      let src := BitVec.ofNat 64 (fld x 8 8)
      let dst := BitVec.ofNat 64 (fld x 0x10 8)
      qHeld s k src n = false → qHeld s k dst n = false → 0 < n → src.toNat % 4096 + n ≤ 4096 → dst.toNat % 4096 + n ≤ 4096 → s.hbm.wf = true →
      xferPlace s q.part die src needR = .ok (.hbm a) → (xferPlace s q.part die (src + BitVec.ofNat 64 (n - 1)) needR).isOk = true →
      xferPlace s q.part die dst needW = .ok (.hbm b) → (xferPlace s q.part die (dst + BitVec.ofNat 64 (n - 1)) needW).isOk = true →
      ∃ s', exec (.xferComplete k none) s = .next s' ∧ Advanced s s' k ∧
        ∀ y, mget s'.hbm y = if b ≤ y ∧ y < b + n then mget s.hbm (a + (y - b)) else mget s.hbm y) ∧
    (InHand s k 5 → let idx := fld x 4 2
      let e := tableEntry s q.part idx
      let n := fld x 0x10 4
      let copied := xferCopy s q.part die true (xferFuel n) (BitVec.ofNat 64 (fld x 8 8)) (oBase e) n
      qHeld s k (BitVec.ofNat 64 (fld x 8 8)) n = false → qHeld s k (oBase e) n = false → oType e = 5 → (s.part q.part).loaded.contains idx = false → n ≤ oExtent e → copied.2 = 0 →
      ∃ s', exec (.modload k none) s = .next s' ∧ Advanced s s' k ∧ (s'.part q.part).loaded = (s.part q.part).loaded ++ [idx] ∧
        s'.hbm = copied.1.hbm) ∧
    (InHand s k 6 → let idx := fld x 4 2
      ∃ s', exec (.moddrop k) s = .next s' ∧ (s'.part q.part).loaded = (s.part q.part).loaded.filter (· != idx) ∧
        (s'.queue k).st = .held ∧ (s'.queue k).dropping = some idx ∧ s'.hbm = s.hbm) ∧
    (∀ idx, q.dropping = some idx → moduleIdle s q.part idx = true →
      ∃ s', exec (.moddropComplete k) s = .next s' ∧ Advanced s s' k ∧ s'.hbm = s.hbm) ∧
    (InHand s k 7 → qHeld s k (BitVec.ofNat 64 (fld x 8 8)) (64 * fld x 4 2) = false → ∀ ns, readNodes s q.part die (BitVec.ofNat 64 (fld x 8 8)) (fld x 4 2) 0 = .ok ns → ns ≠ [] →
      (∀ i n, ns[i]? = some n → let r := parseRec n.rec'
        nodeOk s q.part q.classmax ns i n (if fld x 0x18 8 = 0 then r else { r with deadline := fld x 0x18 8 }) = true) →
      ∃ s' g n, exec (.graph k none) s = .next s' ∧ Advanced s s' k ∧ tfind s'.insts s.nextId = some g ∧ g.nodes.length = ns.length ∧
        g.nodes[0]? = some n ∧ n.launched.isSome = true ∧ s'.threads = s.threads ∧ s'.hbm = s.hbm)

/-- R337: PREEMPT of a running launch that is not DET asks for its swap, unless a cluster of it drains (R422; that the packet then has
executed is the model's reading, log entry 98); suspend takes a ready launch out until a resume makes it
ready; cancel ends its threads; each packet then has executed. Of no live launch it does nothing else.

R313 to R315, R320 to R322, R374, R379: a store to the launch register wakes an idle queue; a well-formed packet that is not behind
the queue is held, another is counted; a store by a function that does not reach the queue is unsupported. EN set with a legal configuration starts the queue at SEQ0, with another it stops
with BAD_CONFIG; EN cleared turns it off; RESUME and SKIP start a stopped queue; a gated aperture latches stores and replays
them. -/
def Obligations.PreemptAndQueueRegisters : Prop :=
  (
    ∀ (s : State) (k : Nat), InHand s k 8 → let action := bitsAt (curPacket (s.queue k)) 32 2
      (preemptTarget s k = none →
        (action = 0 → ∃ s', exec (.preemptRequeue k) s = .next s' ∧ Advanced s s' k ∧ s'.launches = s.launches) ∧
        (action = 1 → ∃ s', exec (.preemptSuspend k) s = .next s' ∧ Advanced s s' k ∧ s'.launches = s.launches) ∧
        (action = 2 → ∃ s', exec (.preemptResume k) s = .next s' ∧ Advanced s s' k ∧ s'.launches = s.launches) ∧
        (action = 3 → ∃ s', exec (.preemptCancel k) s = .next s' ∧ Advanced s s' k ∧ s'.launches = s.launches)) ∧
      (∀ lk l, preemptTarget s k = some (lk, l) → Rising s.launches → Rising s.groups → Rising s.threads →
        (action = 0 → drains s l = true → ∃ s', exec (.preemptRequeue k) s = .next s' ∧ Advanced s s' k ∧ s'.launches = s.launches ∧
          s'.groups = s.groups) ∧
        (action = 0 → drains s l = false → l.st = .running → l.detOn = false → ∃ s' l', exec (.preemptRequeue k) s = .next s' ∧ Advanced s s' k ∧
          tfind s'.launches lk = some l' ∧ l'.st = .swappingOut ∧ l'.suspendNext = false ∧
          ∀ p ∈ s.groups, p.2.launch = lk → p.2.swap = .resident → (s'.group p.1).swap = .requested) ∧
        (∀ since, action = 1 → l.st = .ready since → ∃ s' l', exec (.preemptSuspend k) s = .next s' ∧ Advanced s s' k ∧
          tfind s'.launches lk = some l' ∧ l'.st = .suspended) ∧
        (action = 2 → l.st = .suspended → ∃ s' l', exec (.preemptResume k) s = .next s' ∧ Advanced s s' k ∧
          tfind s'.launches lk = some l' ∧ l'.st = .ready (s.die l.die).dlclk) ∧
        (action = 3 → ∃ s' l', exec (.preemptCancel k) s = .next s' ∧ (s'.queue k).expseq = ((s.queue k).expseq + 1) % 2 ^ 16 ∧
          tfind s'.launches lk = some l' ∧ l'.cancelled = true ∧
          ∀ p ∈ s.threads, p.1 < 196608 → (s.group p.2.group).launch = lk → (s'.thread p.1).run = .exited))) ∧
  (
    ∀ (s : State) (k : Nat), hostDown s (queueDie k) = false → let q := s.queue k
      (∀ fn bytes rest, s.powered = true → step { s with agenda := .launchStore fn k bytes :: rest } = settled
        (if reachesQueue s fn k then exec (.launchRegisterStore k bytes) { s with agenda := rest }
         else .next { s with agenda := rest, answer := some .unsupported })) ∧
      ((s.part q.part).gated = false →
        (∀ bytes, bytes.length = 64 → let x := leNat bytes
          let st := if q.st = .idle then .active else q.st
          (pkWellFormed x = true → (pkSeq x + 2 ^ 16 - q.expseq) % 2 ^ 16 ≤ 32767 → exec (.launchRegisterStore k bytes) s =
            .next (s.modQueue k (fun q => { q with inline := some bytes, st := st }))) ∧
          (pkWellFormed x = false ∨ 32767 < (pkSeq x + 2 ^ 16 - q.expseq) % 2 ^ 16 → exec (.launchRegisterStore k bytes) s =
            .next (telCount (s.modQueue k (fun q => { q with st := st })) q.part (queueDie k) 0xB 1))) ∧
        (∀ v, q.en = false → v.getLsbD 8 = true →
          (queueConfigOk s (qcfgFields q v) = true → ∃ s', exec (.qcfgEnSet k v) s = .next s' ∧ (s'.queue k).st = .active ∧
            (s'.queue k).en = true ∧ (s'.queue k).expseq = bitsAt v.toNat 16 16 ∧ (s'.queue k).inline = none) ∧
          (queueConfigOk s (qcfgFields q v) = false → ∃ s', exec (.qcfgEnSet k v) s = .next s' ∧ (s'.queue k).st = .stopped ∧
            (s'.queue k).stopcode = 3)) ∧
        (∀ v, q.en = true → v.getLsbD 8 = false → ∃ s', exec (.qcfgEnClear k v) s = .next s' ∧ (s'.queue k).st = .off ∧
          (s'.queue k).en = false ∧ s'.launches = s.launches) ∧
        (q.st = .stopped →
          exec (.qctlResume k) s = .next (s.modQueue k (fun q => { q with st := .active, stopcode := 0, retries := 0 })) ∧
          exec (.qctlSkip k) s = .next (s.modQueue k (fun q =>
            { q.seqNext with st := .active, stopcode := 0, retries := 0 })) ∧ (q.seqNext).expseq = (q.expseq + 1) % 2 ^ 16)) ∧
      ((s.part q.part).gated = true → ∀ bytes, bytes.length = 64 →
        exec (.launchRegisterStore k bytes) s = .next (s.modQueue k (fun q => { q with latch := some bytes }))) ∧
      (∀ part, ((s.part part).st ≠ .free → (∀ p ∈ s.queues, p.2.part = part → p.2.st = .idle ∨ p.2.st = .off) →
          exec (.apertureGate part) s = .next (s.modPart part (fun p => { p with gated := true }))) ∧
        ((s.part part).gated = true → Rising s.queues → ∃ s', exec (.apertureUngate part) s = .next s' ∧
          (s'.part part).gated = false ∧ ∀ p ∈ s.queues, p.2.part = part → (s'.queue p.1).latch = none)))

/-- R328, R329, R335, R366, R17: the scheduler places the only ready launch of a partition on the cores it finds, with one group
staged for each, whose threads are to start at its entry; a core that groups leave gives up their context to the launch (the whole of it at
the exchange, when the core's scratch empties: the model's choice, log entry 97); a core whose
staged groups wait for nothing makes them resident with their context; the spill of outgoing groups ends, and with the last of them
the launch is ready again, or suspended. -/
def Obligations.LaunchesArePlacedAndSwapped : Prop :=
  (∀ (s : State) (die part lk : Nat) (l : Launch) (cs : List Nat), (s.die die).fuse.present = true → readyList s part = [lk] →
    tfind s.launches lk = some l → Rising s.launches → deadlinePast s l = false → wouldTake s lk l [] [] = some cs → cs.Nodup →
    (divertible l = true → ∀ d, (s.die d).dlclk < divTime l) →
    ∃ s' l', exec (.schedulerDecision die part) s = .next s' ∧ tfind s'.launches lk = some l' ∧ l'.st = .running ∧ l'.cores = cs ∧
      l'.everPlaced = true ∧ s'.hbm = s.hbm ∧ s'.bank = s.bank ∧
      (l.everPlaced = false → (∀ p ∈ s.groups, p.1 < s.nextId) → l.r.groupsz ≤ 512 → ∀ (i core : Nat), cs[i]? = some core →
        ∃ g x ctx, tfind s'.groups g = some x ∧ x.launch = lk ∧ x.core = core ∧ x.grp = i ∧ x.turn = 0 ∧ x.size = l.r.groupsz ∧
          x.regs = l.r.regs ∧ x.swap = .staged ∧ tfind l'.ctx core = some ctx ∧ ctx.fresh = true ∧
          ∀ j, j < l.r.groupsz → ∃ y, tfind ctx.threads (512 * core + j) = some y ∧ y.group = g ∧ y.tid = j ∧
            y.pc = l.base + BitVec.ofNat 64 l.r.entry ∧ y.q = 0 ∧ y.v = [] ∧ y.j = [] ∧ y.fpflags = 0 ∧ y.retired = 0 ∧ y.dvpc = 0)) ∧
  (∀ (s : State) (core lk : Nat) (l : Launch) (x : CoreCtx), let gs := coreGroups s core
    (∃ p ∈ gs, p.2.swap = .staged) → (∀ p ∈ gs, p.2.swap ≠ .spilling ∧ p.2.swap ≠ .requested) →
    (∀ p ∈ gs, p.2.swap = .staged ∨ p.2.swap = .resident → p.2.launch = lk) → swapReady s core [] = true →
    tfind s.launches lk = some l → tfind l.ctx core = some x → (x.fresh = true ∨ saveBad s l core = false) →
    (∀ p ∈ gs, p.2.swap = .staged → p.2.bars = []) →
    (s.core core).olog = [] → x.olog = [] → Rising s.groups → Rising x.threads →
    ∃ s', exec (.bankExchange core) s = .next s' ∧ (∀ p ∈ gs, p.2.swap = .staged → (s'.group p.1).swap = .resident) ∧
      (s'.core core).scratch = x.scratch ∧ (s'.core core).tags = x.tags ∧
      (∀ n, n ≤ 12 → x.scrways = BitVec.ofNat 16 (2 ^ n - 1) → (s'.core core).scrways = x.scrways) ∧
      ∀ q ∈ x.threads, ∃ y, tfind s'.threads q.1 = some y ∧ y.pc = q.2.pc ∧ y.v = q.2.v ∧ y.q = q.2.q ∧ y.j = q.2.j ∧
        y.run = restoredRun s.clock q.2.run) ∧
  (∀ (s : State) (core gk : Nat) (g : Group) (l : Launch), tfind s.groups gk = some g → g.core = core → g.swap = .requested →
    (∀ p ∈ coreGroups s core, p.1 = gk ∨ p.2.swap = .out) → swapReady s core [(gk, g)] = true → tfind s.launches g.launch = some l →
    g.idem = none → s.liveOf gk ≠ [] → s.syncReg = [] → Rising s.groups → Rising s.threads → Rising s.launches →
    ∃ s' l' x, exec (.bankExchange core) s = .next s' ∧ (s'.group gk).swap = .spilling ∧ tfind s'.launches g.launch = some l' ∧
      tfind l'.ctx core = some x ∧ (∀ p ∈ s.threads, p.2.group = gk → tfind s'.threads p.1 = none ∧
        ∃ y, tfind x.threads p.1 = some y ∧ y.pc = p.2.pc ∧ y.v = p.2.v ∧ y.q = p.2.q ∧ y.j = p.2.j ∧
          y.fpflags = p.2.fpflags ∧ y.retired = p.2.retired ∧ y.run = savedRun s.clock p.2) ∧
      x.scratch = (s.core core).scratch ∧ (s'.core core).scratch = [] ∧ s'.hbm = s.hbm ∧ s'.bank = s.bank) ∧
  (∀ (s : State) (core gk : Nat) (g : Group) (l : Launch), tfind s.groups gk = some g → g.core = core → g.swap = .spilling →
    (∀ p ∈ coreGroups s core, p.2.swap = .spilling → p.1 = gk) → tfind s.launches g.launch = some l → Rising s.groups →
    Rising s.launches →
    ∃ s' l', exec (.spillFill core) s = .next s' ∧ (s'.group gk).swap = .out ∧ s'.threads = s.threads ∧ s'.cores = s.cores ∧
      s'.hbm = s.hbm ∧ s'.bank = s.bank ∧ tfind s'.launches g.launch = some l' ∧
      (l.st = .swappingOut → (∀ p ∈ s.groups, p.2.launch = g.launch → p.1 = gk ∨ p.2.swap = .out) →
        l'.st = (if l.suspendNext then .suspended else .ready (s.die l.die).dlclk) ∧ l'.swaps = l.swaps + 1 ∧ l'.ctx = l.ctx))

/-- R298 to R300, R303, R326, R338: a running thread of a launch whose diversion is due goes to WRAPENTRY with its PC in %dvpc; at
DEADLINE every thread of the launch on the die exits, and one that was never placed is terminated all the same; a launch all of whose groups have ended is ending, and with all its work
ended it is gone, its cores having written back what they held (log entry 77) and its record written; at the end of a quantum the token goes to the next group. -/
def Obligations.LaunchesDivertTerminateAndComplete : Prop :=
  (∀ (s : State) (die lk t : Nat) (l : Launch) (x : Thread), tfind s.launches lk = some l → tfind s.threads t = some x →
    (s.group x.group).launch = lk → dieOfCore (coreOfThread t) = die → divertible l = true → l.everPlaced = true →
    (l.cores.any (fun c => dieOfCore c == die)) = true → divTime l ≤ (s.die die).dlclk → x.run = .running → x.diverted = false →
    sfuOf s t = [] → Rising s.threads → Rising s.groups →
    ∃ s' x', exec (.diversion die lk) s = .next s' ∧ tfind s'.threads t = some x' ∧ x'.dvpc = x.pc ∧
      x'.pc = l.base + BitVec.ofNat 64 l.r.wrapentry ∧ x'.diverted = true ∧ x'.run = .running ∧ x'.j = [] ∧ x'.v = x.v ∧ x'.q = x.q) ∧
  (∀ (s : State) (die lk : Nat) (l : Launch), tfind s.launches lk = some l → l.r.deadline ≠ 0 → l.r.deadline ≤ (s.die die).dlclk →
    l.everPlaced = true → (l.cores.any (fun c => dieOfCore c == die)) = true → Rising s.threads →
    ∃ s' l', exec (.deadlineTermination die lk) s = .next s' ∧ tfind s'.launches lk = some l' ∧ l'.terminated = true ∧
      ∀ p ∈ s.threads, (s.group p.2.group).launch = lk → dieOfCore (coreOfThread p.1) = die → (s'.thread p.1).run = .exited) ∧
  (∀ (s : State) (lk : Nat) (l : Launch), tfind s.launches lk = some l → l.r.deadline ≠ 0 → l.r.deadline ≤ (s.die l.die).dlclk →
    l.everPlaced = false → ∃ s' l', exec (.deadlineTermination l.die lk) s = .next s' ∧ tfind s'.launches lk = some l' ∧ l'.terminated = true) ∧
  (∀ (s : State) (lk : Nat) (l : Launch), tfind s.launches lk = some l → groupsEnded s lk l = true →
    (workEnded s lk l = false → l.st = .running → exec (.launchCompletion lk) s =
      .next (s.modLaunch lk (fun l => { l with st := .ending }))) ∧
    (workEnded s lk l = true → Rising s.launches → l.inst = none → heldLeft s lk = false →
      (∀ p ∈ s.welts, p.2.launch ≠ lk) → ∀ pa, s.hbm.wf = true →
      qReach (releaseCores s l.part l.cores) l.part (queueDie l.queue) l.r.completion needW = some (.hbm pa) →
      (qReach (releaseCores s l.part l.cores) l.part (queueDie l.queue) (l.r.completion + 63) needW).isSome = true →
      ∃ s', exec (.launchCompletion lk) s = .next s' ∧ tfind s'.launches lk = none ∧
        (∀ p ∈ s'.groups, p.2.launch ≠ lk) ∧ s'.bank = s.bank ∧
        (l.heldFault = false → leGet s'.hbm pa 1 = statusOf l ∧ leGet s'.hbm (pa + 2) 2 = l.r.seq % 2 ^ 16 ∧
          leGet s'.hbm (pa + 4) 4 = l.id % 2 ^ 32 ∧ leGet s'.hbm (pa + 60) 4 = 0xC0B1 * 2 ^ 16 + l.r.seq % 2 ^ 16) ∧
        ∀ a, a < pa ∨ pa + 64 ≤ a → mget s'.hbm a = mget (releaseCores s l.part l.cores).hbm a)) ∧
  (∀ (s : State) (lk : Nat) (l : Launch), tfind s.launches lk = some l → l.detOn = true → l.st = .running → quantumOver s l = true →
    l.swapAsked = none →
    ∃ s' l', exec (.quantumEnd lk) s = .next s' ∧ tfind s'.launches lk = some l' ∧ l'.token = nextToken s lk l.token ∧
      l'.issues = 0 ∧ (∀ t, (s'.thread t).pc = (s.thread t).pc ∧ (s'.thread t).v = (s.thread t).v ∧
        (s'.thread t).run = (s.thread t).run) ∧ s'.hbm = s.hbm)

/-! ### Rails, the driver, links, firmware, power -/

/-- R395, R398, R399: RCVSET moves the goal at once when no change and no V_safe request stands; a value outside the grid or below
V_floor moves nothing and is noted (that RCVSET then reads back the value below V_floor, and the one off the grid not, is the model's reading,
log entry 22). RCFSET starts a change: a raise with the rail first, a lowering at once.

R201, R400, R401: the rail moves by at most 5 mV toward its goal and settles there, and moves to no lower value while a request for
V_safe stands; a raise of the clock waits for the rail, a lowering does not (how a lowering stands to a request for V_safe is the model's
reading, log entry 22). -/
def Obligations.RailsFollowTheirRegisters : Prop :=
  (
    ∀ (s : State) (k : Nat) (v : DWord), railReached s k = true →
      let x := s.cluster k
      let mv := v.toNat % 1024
      let n := v.toNat % 64
      ((mv % 5 ≠ 0 ∨ mv < 500 ∨ 800 < mv) → exec (.rcvsetWrite k v) s = .next (s.modCluster k (fun x => { x with badreq := true }))) ∧
      (mv % 5 = 0 → 500 ≤ mv → mv ≤ 800 →
        (mv < x.vfloor → ∃ s', exec (.rcvsetWrite k v) s = .next s' ∧ (s'.cluster k).denied = true ∧ (s'.cluster k).goal = x.goal) ∧
        (x.vfloor ≤ mv → x.change = none → x.safereq = false →
          exec (.rcvsetWrite k v) s = .next (s.modCluster k (fun x => { x with rcvset := mv, goal := mv, returning := false }))) ∧
        (x.vfloor ≤ mv → x.change = none → x.safereq = true →
          exec (.rcvsetWrite k v) s = .next (s.modCluster k (fun x => { x with rcvset := mv, ret := mv })))) ∧
      (32 < n → exec (.rcfsetWrite k v) s = .next (s.modCluster k (fun x => { x with badreq := true }))) ∧
      (n ≤ 32 → x.change = none → x.safereq = false →
        (n = x.fstep → exec (.rcfsetWrite k v) s = .next (s.modCluster k (fun x => { x with rcfset := n }))) ∧
        (x.fstep < n → let up := min 800 (x.railmv + x.vsafe.getD n 800 - x.vsafe.getD x.fstep 800)
          exec (.rcfsetWrite k v) s = .next (s.modCluster k (fun x => { x with rcfset := n, change := some (n, up, false), goal := up, returning := false }))) ∧
        (n < x.fstep → exec (.rcfsetWrite k v) s =
          .next (s.modCluster k (fun x => { x with rcfset := n, change := some (n, x.railmv, false) }))))) ∧
  (
    ∀ (s : State) (k : Nat), let x := s.cluster k
      (x.safereq = true → ∃ s', exec (.railStep k) s = .next s' ∧ x.railmv ≤ (s'.cluster k).railmv ∧
        (s'.cluster k).railmv ≤ x.railmv + 5) ∧
      (x.change = none → x.safereq = false →
        (x.railmv < x.goal → ∃ s', exec (.railStep k) s = .next s' ∧ (s'.cluster k).railmv = min x.goal (x.railmv + 5) ∧
          (s'.cluster k).settling = true ∧ (s'.cluster k).fstep = x.fstep ∧ (s'.cluster k).acc = x.acc) ∧
        (x.goal < x.railmv → ∃ s', exec (.railStep k) s = .next s' ∧ (s'.cluster k).railmv = max x.goal (x.railmv - 5) ∧
          (s'.cluster k).settling = true ∧ (s'.cluster k).fstep = x.fstep ∧ (s'.cluster k).acc = x.acc) ∧
        (x.railmv = x.goal → exec (.railSettled k) s = .next (s.modCluster k (fun x => { x with settling := false, moveAge := 0 })))) ∧
      (∀ n up, x.change = some (n, up, false) → x.safereq = false → x.heldw = [] →
        (x.fstep < n → x.railmv = x.goal → x.settling = false → ∃ s', exec (.dividerChange k) s = .next s' ∧
          (s'.cluster k).fstep = n ∧ (s'.cluster k).change = none ∧ (s'.cluster k).railmv = x.railmv) ∧
        (x.fstep < n → (x.railmv ≠ x.goal ∨ x.settling = true) → exec (.dividerChange k) s = .next (s.setCluster k x)) ∧
        (n < x.fstep → ∃ s', exec (.dividerChange k) s = .next s' ∧ (s'.cluster k).fstep = n ∧ (s'.cluster k).railmv = x.railmv ∧
          (s'.cluster k).goal = max x.vfloor (x.railmv + x.vsafe.getD n 800 - x.vsafe.getD x.fstep 800))))

/-- R251, R396, R397, R403, R421, R422: a sample at the end of a window latches its counts and moves the goal, by 5 mV from where the goal stands (log entry 36), up, down or not (when the windows of a
cluster end is the model's choice, log entry 2); a snapshot holds the
lines of each partition in the slice; CALVSAFE drains its cluster, and the end of its run installs the new table. -/
def Obligations.SamplesSnapshotsAndRecalibration : Prop :=
  (∀ (s : State) (k : Nat), clusterPresent s k = true → sampleTime s k = true → let x := s.cluster k
    let act := (sampleAct x).1
    ∃ s', exec (.controllerSample k) s = .next s' ∧ tget 0 (s'.cluster k).cnt 0x111 = BitVec.ofNat 64 x.watt ∧
      tget 0 (s'.cluster k).cnt 0x112 = BitVec.ofNat 64 x.wevt ∧ tget 0 (s'.cluster k).cnt 0x118 = BitVec.ofNat 64 act ∧
      (s'.cluster k).watt = 0 ∧ (s'.cluster k).wevt = 0 ∧ (s'.cluster k).railmv = x.railmv ∧
      (s'.cluster k).goal = (if act = 1 then min 800 (x.goal + 5) else if act = 2 then max x.vfloor (x.goal - 5) else x.goal)) ∧
  (∀ (s : State) (slice p : Nat), p < 16 → let d := slice / 96
    let es := tget [] (s.die d).l2 (slice % 96)
    ∃ s', exec (.snapshotRefresh slice) s = .next s' ∧ (s'.die d).l2 = (s.die d).l2 ∧
      tget 0 (s'.die d).snap (16 * (slice % 96) + p) =
        BitVec.ofNat 64 ((es.filter (fun e => e.part == p && !e.rcopy)).length % 2 ^ 32 +
          (es.filter (fun e => e.part == p && e.rcopy)).length * 2 ^ 32)) ∧
  (∀ (s : State) (v : DWord), s.fw.calBusy = false → v.toNat % 256 = 1 → bitsAt v.toNat 8 5 < 24 →
    clusterPresent s (mgmtCluster v) = true → ∃ s', exec (.calvsafe v) s = .next s' ∧ s'.fw.calBusy = true ∧
      (s'.cluster (mgmtCluster v)).draining = true ∧ bitsAt s'.fw.mgmtCmd.toNat 16 8 = 0) ∧
  (∀ (s : State) (vmin : List (Option Nat)) (table : List Nat), s.fw.calBusy = true → let k := mgmtCluster s.fw.mgmtCmd
    (∀ c ∈ coresOfCluster k, ∀ p ∈ coreGroups s c, p.2.swap = .out) → vmin.length = 33 →
    newVsafe (s.cluster k).vfloor 0 vmin = some table → ∃ s', exec (.calvsafeRun vmin) s = .next s' ∧ s'.fw.calBusy = false ∧
      (s'.cluster k).vsafe = table ∧ (s'.cluster k).draining = false ∧ (s'.cluster k).goal = table.getD (s.cluster k).fstep 800)

/-- R351, R363, R373, R377, R381, R412, R414, R415, R420: register writes of the driver have their effects when the part takes them,
and otherwise leave the bit that says so; an offset outside the BARs of the function, or of the function of a partition that is free, is
unsupported (R374, R371), and one in BAR 0 that no register block holds reads zero and ignores writes (R375, R377). (That a write of S1INVAL
dropped while BUSY sets ERR whatever its bit 2 says is the model's choice, log entry 79.) -/
def Obligations.DriverRegistersAct : Prop :=
  ∀ (s : State) (part die : Nat) (v : DWord),
    (∀ w : Word, let p := s.part part
      (p.heldRecs = [] → (p.frhead - w).toNat ≤ ringSize p →
        exec (.frtailWrite part w) s = .next (s.setPart part { p with frtail := w })) ∧
      (ringSize p < (p.frhead - w).toNat → exec (.frtailWrite part w) s = .next (telCount s part 0 0xB 1))) ∧
    ((s.part part).s1inval.getLsbD 0 = true →
      exec (.s1inval part v) s = .next (s.modPart part (fun p => { p with s1inval := p.s1inval ||| 4 }))) ∧
    ((s.part part).s1inval.getLsbD 0 = false → ∃ s', exec (.s1inval part v) s = .next s' ∧
      (s'.part part).s1inval.getLsbD 0 = true ∧ (s'.part part).s1inval.getLsbD 1 = v.getLsbD 1 ∧
      ∀ i, 3 ≤ i → i < 57 → (s'.part part).s1inval.getLsbD i = v.getLsbD i) ∧
    ((s.part part).s1inval.getLsbD 0 = true → let r := invalRange (s.part part).s1inval
      ∃ s', exec (.invalidationComplete part false) s = .next s' ∧ (s'.part part).s1inval.getLsbD 0 = false ∧
        (∀ c, (s'.core c).tlb = (s.core c).tlb.filter (fun t => !(t.part == part && decide (t.va < r.2) && decide (r.1 < t.va + t.size)))) ∧
        s'.hbm = s.hbm) ∧
    ((s.part part).s2inval.getLsbD 0 = true →
      ∃ s', exec (.invalidationComplete part true) s = .next s' ∧ (s'.part part).s2inval.getLsbD 0 = false ∧
        ∀ c, ∀ t ∈ (s'.core c).tlb, t ∈ (s.core c).tlb ∧ (t.part = part → 0 < t.size → 2 ^ 57 ≤ t.va)) ∧
    (hostDown s die = false → let h := v.toNat % 16
      let used := s.parts.any (fun p => placedOn s p.1 (some die))
      ((s.die die).hsteps ≠ h → (8 < h ∨ used = true) →
        exec (.bankcfgWrite die v) s = .next (s.modDie die (fun d => { d with busyrej := true }))) ∧
      ((s.die die).hsteps ≠ h → h ≤ 8 → used = false → ∃ s', exec (.bankcfgWrite die v) s = .next s' ∧ (s'.die die).hsteps = h ∧
        (s'.die die).l2 = [] ∧ (s'.die die).copies = [] ∧ s'.hbm = s.hbm ∧ s'.threads = s.threads)) ∧
    (hostDown s die = false → ∃ s', exec (.ualcfgRetrain die v) s = .next s' ∧
      (s'.die die).portsDown = (s.die die).portsDown &&& (15 - bitsAt v.toNat 16 4) ∧
      (s'.die die).epid = (s.die die).epid ∧ (s'.die die).porten = (s.die die).porten) ∧
    (∀ e p, (s.die die).ualPend = some (e, p) →
      exec (.ualcfgTakesEffect die) s = .next (s.modDie die (fun d => { d with epid := e, porten := p, ualPend := none }))) ∧
    (∀ stack, hostDown s (stack / 4) = false → v.getLsbD 0 = true → let x := s.stack stack
      (x.st = 2 ∨ x.st = 3 → exec (.htrain stack v) s = .next (s.modStack stack (fun x => { x with st := 1 }))) ∧
      (x.st ≠ 2 → x.st ≠ 3 → exec (.htrain stack v) s = .next (s.modStack stack (fun x => { x with ignored := true })))) ∧
    (∀ stack ok, (s.stack stack).st = 1 → ∃ s', exec (.hbmTrainingDone stack ok) s = .next s' ∧
      (s'.stack stack).st = (if ok then 2 else 3) ∧ (ok = true → (s'.stack stack).ecsen = true)) ∧
    (∀ stack r, (s.stack stack).ecsen = true → r.channel < 32 → ∃ s', exec (.ecsRead stack [r]) s = .next s' ∧
      tget 0 (s'.stack stack).ecs r.channel = (tget 0 (s.stack stack).ecs r.channel + r.count) % 2 ^ 32 ∧ s'.hbm = s.hbm) ∧
    (∀ c, c < 96 → die < 4 → corePresent s die c = true → hostDown s die = false →
      exec (.registerWrite 0 (0x4000 + 0x400 * die + 8 * c) v) s =
        .next (s.modCore (96 * die + c) (fun x => { x with degr := v.getLsbD 0 }))) ∧
    (part < 16 → (s.part part).st ≠ .free → placedOn s part none = false →
      exec (.registerWrite (part + 1) 0x38 v) s = .next (s.modPart part (fun p => { p with s1root := v }))) ∧
    (∀ fn off, off % 8 ≠ 0 → exec (.registerWrite fn off v) s = .next s) ∧
    (∀ fn off, off % 8 = 0 → absentReg s fn off = true → exec (.registerWrite fn off v) s = .next { s with answer := some .unsupported } ∧
      act (.hostRead fn off) s = .next { s with answer := some .unsupported }) ∧
    (∀ off, off % 8 = 0 → 0x510 ≤ off → off < 0x4000 → exec (.registerWrite 0 off v) s = .next s ∧
      act (.hostRead 0 off) s = .next { s with answer := some (.data (leBytes 8 0)) }) ∧
    (∀ off, part < 16 → (s.part part).st ≠ .free → off % 8 = 0 → 0x1800 ≤ off → off < 0x10000 →
      exec (.registerWrite (part + 1) off v) s = .next s ∧
      act (.hostRead (part + 1) off) s = .next { s with answer := some (.data (leBytes 8 0)) })

/-- R374, R376, R381 to R383, R386, R387: BAR 4 and UALink writes reach device memory, a BAR 4 or UALink read answers with its bytes, and one
where no memory is, is unsupported; a UALink request that is not supported gets an error response; a flit replay is counted, and the eighth
in a row that fails takes its link down until it is retrained (R12); a die locks at its eighth sync in a row within bounds, and unlocks at one
that is not, or when announcements stop. While an activation runs a sync within bounds leaves the clocks as they are (R426; DEDUCED, log
entry 27). -/
def Obligations.LinksHostAndClockSync : Prop :=
  ∀ (s : State),
    (∀ pa bs n ue, bs ≠ [] → let z := pa + bs.length - 1
      paPresent s pa = true → paPresent s z = true → hostDown s (dieOfPa pa) = false →
      hbmHeld s (.hbm pa) = false → hbmHeld s (.hbm z) = false → hbmFailed s (.hbm pa) = false → hbmFailed s (.hbm z) = false →
      s.hbm.wf = true →
      (∃ s', exec (.bar4Access pa (some bs) n ue) s = .next s' ∧ s'.bank = s.bank ∧ s'.threads = s.threads ∧
        ∀ a, mget s'.hbm a = if pa ≤ a ∧ a < pa + bs.length then bs.getD (a - pa) 0 else mget s.hbm a)) ∧
    (∀ pa n, let z := pa + n - 1
      paPresent s pa = true → paPresent s z = true → hostDown s (dieOfPa pa) = false →
      hbmHeld s (.hbm pa) = false → hbmHeld s (.hbm z) = false → hbmFailed s (.hbm pa) = false → hbmFailed s (.hbm z) = false →
      ueDetail s (.hbm pa) n = none →
      exec (.bar4Access pa none n false) s = .next { s with answer := some (.data (mgets s.hbm pa n)) }) ∧
    (∀ pa w n ue, paPresent s pa = false → exec (.bar4Access pa w n ue) s = .next { s with answer := some .unsupported }) ∧
    (∀ die part off bs pa tlb, 1 ≤ bs.length → off % 256 + bs.length ≤ 256 → walk s part false (off % 2 ^ 50) needW = .ok (pa, tlb) →
      (∀ a ∈ walkReads s part (off % 2 ^ 50), hbmHeld s (.hbm a) = false) → hbmHeld s (.hbm pa) = false →
      placeFault s die (.hbm pa) = none → ueDetail s (.hbm pa) bs.length = none → s.hbm.wf = true →
      ∃ s', exec (.ualinkRequest die part (.write off bs)) s = .next s' ∧ s'.bank = s.bank ∧ s'.threads = s.threads ∧
        s'.reply = some (.done []) ∧
        ∀ a, mget s'.hbm a = if pa ≤ a ∧ a < pa + bs.length then bs.getD (a - pa) 0 else mget s.hbm a) ∧
    (∀ die part off n pa tlb, 1 ≤ n → off % 256 + n ≤ 256 → walk s part false (off % 2 ^ 50) needR = .ok (pa, tlb) →
      (∀ a ∈ walkReads s part (off % 2 ^ 50), hbmHeld s (.hbm a) = false) → hbmHeld s (.hbm pa) = false →
      placeFault s die (.hbm pa) = none → ueDetail s (.hbm pa) n = none →
      ∃ s', exec (.ualinkRequest die part (.read off n)) s = .next s' ∧ s'.hbm = s.hbm ∧ s'.bank = s.bank ∧ s'.threads = s.threads ∧
        s'.reply = some (.done (mgets s.hbm pa n))) ∧
    (∀ die part, exec (.ualinkRequest die part .unsupported) s = .next { telCount s part die 8 1 with reply := some .error }) ∧
    (∀ d ok, let n := replaysOf s (.lace d)
      ∃ s', exec (.flitReplay (.lace d) ok) s = .next s' ∧
        (s'.die d).laceDown = ((s.die d).laceDown || (!ok && decide (7 ≤ n))) ∧
        replaysOf s' (.lace d) = (if ok = true ∨ 7 ≤ n then 0 else n + 1) ∧
        tget 0 (s'.die d).ras 5 = tget 0 (s.die d).ras 5 + 1 ∧
        tget 0 (s'.die d).ras 7 = tget 0 (s.die d).ras 7 + (if ok = false ∧ 7 ≤ n then 1 else 0) ∧ s'.hbm = s.hbm ∧ s'.threads = s.threads) ∧
    (∀ d1 d2 : Nat, d1 < d2 → (7 ≤ replaysOf s (.bridge d1 d2) →
        ∃ s', exec (.flitReplay (.bridge d1 d2) false) s = .next s' ∧ bridgeDown s' d1 d2 = true) ∧
      (replaysOf s (.bridge d1 d2) < 7 → ∃ s', exec (.flitReplay (.bridge d1 d2) false) s = .next s' ∧
        bridgeDown s' d1 d2 = bridgeDown s d1 d2) ∧
      ∃ s', exec (.bridgeRetrain d1 d2) s = .next s' ∧ (d1, d2) ∉ s'.fw.bridgesDown ∧
        ∀ p, p ≠ (d1, d2) → (p ∈ s'.fw.bridgesDown ↔ p ∈ s.fw.bridgesDown)) ∧
    (∀ d, exec (.laceRetrain d) s = .next (s.modDie d (fun x => { x with laceDown := false }))) ∧
    (∀ within d, s.fw.ptpcfg.getLsbD 0 = true → s.fw.activating = false → agreeing s within = true → d < 4 →
      (s.die d).fuse.present = true →
      ∃ s', exec (.ptpSync within) s = .next s' ∧ s'.hbm = s.hbm ∧
        (s'.die d).syncRun = (if within.getD d false then (s.die d).syncRun + 1 else 0) ∧
        (s'.die d).locked = (within.getD d false && ((s.die d).locked || decide (7 ≤ (s.die d).syncRun)))) ∧
    (∀ within d, s.fw.ptpcfg.getLsbD 0 = true → s.fw.activating = true → within.getD d false = true →
      ∃ s', exec (.ptpSync within) s = .next s' ∧ s'.hbm = s.hbm ∧ s'.die d = s.die d) ∧
    (∃ s', exec .ptpAnnounceTimeout s = .next s' ∧ ∀ d, d < 4 → (s'.die d).locked = false)

/-- R361 to R365, R385, R424: an S2MAP maps its pages, S2UNMAP clears them and starts an invalidation, at whose end it is answered,
S2ROOT sets the root; a request that is not legal is answered with its status and changes nothing; a stage-2 fault's notice is
written, and its reply ends the wait, with a retry, or a replay, when the page was mapped. While an activation runs the requests wait for its
end (R426; that they stay outstanding is the model's reading, log entry 27). -/
def Obligations.MailboxMapsAndAnswersFaults : Prop :=
  (∀ (s : State) (die part seq : Nat), MboxFree s die → s.fw.activating = false →
    let asked := fun op => s.modDie die (fun d => { d with mboxOut := some (op, seq, part) })
    (∀ gpa pa bytes r w x, let ok : Prop := gpa % 4096 = 0 ∧ pa % 4096 = 0 ∧ bytes % 4096 = 0 ∧ gpa + bytes ≤ 2 ^ 52 ∧
        pa + bytes ≤ 2 ^ 52 ∧ hitsFirmware s pa bytes = false
      let bits := 3 + 4 * Bool.toNat r + 8 * Bool.toNat w + 16 * Bool.toNat x
      let s0 := { asked 1 with fw := { s.fw with mapped := (pa, bytes) :: s.fw.mapped } }
      (ok → (s.part part).s2root ≠ 0 → ∃ s', exec (.s2map die part seq gpa pa bytes r w x) s = .next s' ∧
        Answered s s' die 1 seq part 0 ∧ s'.hbm = (s2Pages part (some bits) (bytes / 4096) s0 gpa pa).hbm) ∧
      (ok → (s.part part).s2root = 0 → ∃ s', exec (.s2map die part seq gpa pa bytes r w x) s = .next s' ∧
        Answered s s' die 1 seq part 6 ∧ s'.hbm = s.hbm) ∧
      (¬ ok → ∃ s', exec (.s2map die part seq gpa pa bytes r w x) s = .next s' ∧ Answered s s' die 1 seq part 2 ∧ s'.hbm = s.hbm)) ∧
    (∀ gpa bytes, let ok : Prop := gpa % 4096 = 0 ∧ bytes % 4096 = 0 ∧ gpa + bytes ≤ 2 ^ 52
      (ok → ∃ s', exec (.s2unmap die part seq gpa bytes) s = .next s' ∧ (s'.die die).mboxOut = some (2, seq, part) ∧
        (s'.part part).s2inval = (s.part part).s2inval ||| 3 ∧
        s'.hbm = (if (s.part part).s2root = 0 then s.hbm else (s2Pages part none (bytes / 4096) (asked 2) gpa 0).hbm)) ∧
      (¬ ok → ∃ s', exec (.s2unmap die part seq gpa bytes) s = .next s' ∧ Answered s s' die 2 seq part 2 ∧ s'.hbm = s.hbm)) ∧
    (∀ pa, (pa % 128 = 0 → pa < 2 ^ 40 → placedOn s part none = false → ∃ s', exec (.s2root die part seq pa) s = .next s' ∧
        Answered s s' die 3 seq part 0 ∧ (s'.part part).s2root = pa ∧ s'.hbm = s.hbm) ∧
      (pa % 128 = 0 → pa < 2 ^ 40 → placedOn s part none = true → ∃ s', exec (.s2root die part seq pa) s = .next s' ∧
        Answered s s' die 3 seq part 6 ∧ s'.parts = s.parts) ∧
      (¬ (pa % 128 = 0 ∧ pa < 2 ^ 40) → ∃ s', exec (.s2root die part seq pa) s = .next s' ∧ Answered s s' die 3 seq part 2 ∧
        s'.parts = s.parts)) ∧
    (∀ n rest, (s.die die).notices = n :: rest → 2 ≤ n.length → ∃ s', exec (.s2fault die) s = .next s' ∧
      (s'.die die).notices = rest ∧ (s'.die die).mboxRsp.take 2 = n.take 2 ∧ s'.msix = (0, 2) :: s.msix ∧ s'.hbm = s.hbm) ∧
    (∀ h, (s.die die).stage2Open.find? (fun p => p.1 == BitVec.toNat h) = none → ∀ mapped,
      ∃ s', exec (.s2reply die part seq h mapped) s = .next s' ∧ Answered s s' die 6 seq part 6 ∧ s'.threads = s.threads ∧
        s'.cores = s.cores) ∧
    (∀ h precise, (s.die die).stage2Open.find? (fun p => p.1 == BitVec.toNat h) = some (h.toNat, precise) →
      noticeSent (s.die die) h = true →
      (∃ s', exec (.s2reply die part seq h false) s = .next s' ∧ Answered s s' die 6 seq part 0 ∧ s'.threads = s.threads ∧
        (s'.die die).stage2Open = (s.die die).stage2Open.filter (fun p => p.1 != h.toNat)) ∧
      (∀ u, precise = true → findHandle s part h = .thread u → (s.thread u).j = [] → isParked (s.thread u) = true →
        (tfind s.threads u).isSome = true → ∃ s', exec (.s2reply die part seq h true) s = .next s' ∧
          Answered s s' die 6 seq part 0 ∧ (s'.thread u).run = .running ∧ (s'.thread u).pc = (s.thread u).pc) ∧
      (precise = false → let s0 := dropTlb ((asked 6).modDie die (fun d => { d with
          stage2Open := d.stage2Open.filter (fun p => p.1 != h.toNat) })) part 0 (2 ^ 57)
        ∃ s', exec (.s2reply die part seq h true) s = .next s' ∧ (s'.die die).mboxOut = none ∧ s'.hbm = (replay s0 part h).1.hbm ∧
          s'.threads = (replay s0 part h).1.threads))) ∧
  (∀ (s : State) (die part seq : Nat), (s.part part).s2inval.getLsbD 0 = true → (s.die die).mboxOut = some (2, seq, part) →
    Rising s.dies → (∀ p ∈ s.dies, p.1 ≠ die → ∀ q, p.2.mboxOut ≠ some (2, q, part)) →
    ∃ s', exec (.invalidationComplete part true) s = .next s' ∧ Answered s s' die 2 seq part 0 ∧
      (s'.part part).s2inval.getLsbD 0 = false ∧ s'.hbm = s.hbm) ∧
  (∀ (s : State) (die part seq : Nat), MboxFree s die → s.fw.activating = true →
    let kept := fun (op : Nat) (r : OutReq) => Host.Outcome.next { s.modDie die (fun d => { d with mboxOut := some (op, seq, part) }) with
      fw := { s.fw with waiting := s.fw.waiting ++ [r] } }
    (∀ gpa pa bytes r w x, exec (.s2map die part seq gpa pa bytes r w x) s = kept 1 (.s2map die part seq gpa pa bytes r w x)) ∧
      (∀ gpa bytes, exec (.s2unmap die part seq gpa bytes) s = kept 2 (.s2unmap die part seq gpa bytes)) ∧
      (∀ pa, exec (.s2root die part seq pa) s = kept 3 (.s2root die part seq pa)) ∧
      (∀ h mapped, exec (.s2reply die part seq h mapped) s = kept 6 (.s2reply die part seq h mapped)) ∧ exec (.s2fault die) s = .next s)

/-- R5, R371, R378, R423 to R426: PCREATE activates a free partition that has clusters; PDESTROY ends its launches and turns its
queues off, and once nothing of it is left it is FREE; FWSTAGE holds an image that passes its checks, and answers 3 to one whose signatures or
digest fail, 4 to one whose VERSION is too low; FWACTIVATE extends M1 of every die with the image, pauses the partitions, and later resumes
them; ATTEST writes its report with the nonce, the die and the measurements M0, M1 and M2. (The layouts of the image's header and of the report
are the model's choice, log entries 27 and 7.) -/
def Obligations.PartitionsAndFirmware : Prop :=
  ∀ (s : State) (die part seq : Nat),
    (MboxFree s die → s.fw.activating = false →
      (∀ test, (s.part part).st = .free → (s.part part).pclu.all (· == 0) = false →
        ∃ s', exec (.pcreate die part seq test) s = .next s' ∧ Answered s s' die 4 seq part 0 ∧ (s'.part part).st = .active ∧
          (s'.part part).test = test ∧ (s'.part part).pclu = (s.part part).pclu ∧ s'.threads = s.threads) ∧
      (∀ test, (s.part part).st ≠ .free → ∃ s', exec (.pcreate die part seq test) s = .next s' ∧ Answered s s' die 4 seq part 6 ∧
        s'.parts = s.parts ∧ s'.hbm = s.hbm) ∧
      ((s.part part).st = .active → Rising s.threads → Rising s.queues → Rising s.launches →
        (∀ p ∈ s.insts, p.2.part ≠ part) →
        ∃ s', exec (.pdestroy die part seq) s = .next s' ∧ (s'.die die).mboxOut = none ∧
          (s'.die die).mboxRsp.take 2 = [5, 0] ∧ (s'.part part).st = .destroying ∧
          (∀ p ∈ s.queues, p.2.part = part → (s'.queue p.1).st = .off) ∧
          ∀ p ∈ s.threads, p.1 < 196608 → ∀ l, tfind s.launches (s.group p.2.group).launch = some l → l.part = part →
            (s'.thread p.1).run = .exited)) ∧
    ((s.part part).st = .destroying → (∀ l ∈ s.launches, l.2.part ≠ part) → (∀ g ∈ s.insts, g.2.part ≠ part) →
      (∀ q ∈ s.queues, q.2.part = part → q.2.st = .off) → ∃ s', exec (.partitionFreed part) s = .next s' ∧
        (s'.part part).st = .free ∧ (s'.part part).tel = [] ∧ (s'.part part).loaded = [] ∧ s'.threads = s.threads) ∧
    (MboxFree s die → ∀ pa bytes, 0 < bytes → paPresent s pa = true → paPresent s (pa + bytes - 1) = true →
      let img := mgets s.hbm pa bytes
      (bodyMatches img = true → (s.die die).fuse.minVersion ≤ leNat (img.take 4) →
        ∃ s', exec (.fwstage die seq pa bytes true) s = .next s' ∧ Answered s s' die 0x10 seq 0 0 ∧ s'.fw.held = true ∧
          s'.fw.image = sha384 img ∧ s'.hbm = s.hbm) ∧
      (∀ sigOk, sigOk = false ∨ bodyMatches img = false → (s.die die).fuse.minVersion ≤ leNat (img.take 4) →
        ∃ s', exec (.fwstage die seq pa bytes sigOk) s = .next s' ∧ Answered s s' die 0x10 seq 0 3 ∧ s'.fw = s.fw) ∧
      (bodyMatches img = true → leNat (img.take 4) < (s.die die).fuse.minVersion →
        ∃ s', exec (.fwstage die seq pa bytes true) s = .next s' ∧ Answered s s' die 0x10 seq 0 4 ∧ s'.fw = s.fw)) ∧
    (MboxFree s 0 → s.fw.activating = false → s.fw.held = true → Rising s.parts → Rising s.dies →
      ∃ s', exec (.fwactivate seq) s = .next s' ∧
        s'.fw.activating = true ∧ s'.fw.held = false ∧ (s'.die 0).mboxOut = some (0x11, seq, 0) ∧
        (∀ p ∈ s.dies, (s'.die p.1).m1 = extend p.2.m1 s.fw.image) ∧
        ∀ p ∈ s.parts, (s'.part p.1).st = if p.2.st = .active then .paused else p.2.st) ∧
    (s.fw.activating = true → queuesQuiet s = true → s.fw.waiting = [] → Rising s.parts → ∃ s', exec (.fwactivate seq) s = .next s' ∧
      s'.fw.activating = false ∧ ∀ p ∈ s.parts, (s'.part p.1).st = if p.2.st = .paused then .active else p.2.st) ∧
    (s.fw.activating = true → queuesQuiet s = false → exec (.fwactivate seq) s = .next s) ∧
    (MboxFree s die → ∀ pa nonce, pa % 4096 = 0 → nonce.length = 32 → paPresent s pa = true → paPresent s (pa + 8191) = true →
      s.hbm.wf = true → ∃ s', exec (.attest die seq pa nonce) s = .next s' ∧ Answered s s' die 0x20 seq 0 0 ∧
        mgets s'.hbm pa 32 = nonce ∧ mgets s'.hbm (pa + 48) 4 = leBytes 4 die ∧ mgets s'.hbm (pa + 52) 48 = digestBytes (s.die die).m0 ∧
        mgets s'.hbm (pa + 100) 48 = digestBytes (s.die die).m1 ∧ mgets s'.hbm (pa + 148) 48 = digestBytes (m2 s die) ∧
        ∀ a, a < pa ∨ pa + 8192 ≤ a → mget s'.hbm a = mget s.hbm a)

/-- R4, R5, R428: power off and cold reset lose all device state but the fused values, and leave what is outside the part (what the emptied
memories read is the model's choice, log entry 3); at power-on, and at the boot after a reset, a die whose first image passes is at stage 1 with
its first measurements, and one whose image fails is FAILED; it passes stage by stage, FAILED when a stack does not train (log entry 28), and
is ready at stage 6 once its Lace port is up. -/
def Obligations.PowerAndReset : Prop :=
  ∀ (s : State),
    (∃ s', exec .powerOff s = .next s' ∧ s'.powered = false ∧ s'.hbm = [] ∧ s'.bank = [] ∧ s'.threads = [] ∧ s'.cores = [] ∧
      s'.launches = [] ∧ s'.parts = [] ∧ s'.queues = [] ∧ s'.host = s.host ∧ ∀ d, (s'.die d).fuse = (s.die d).fuse) ∧
    (s.powered = true → ∃ s', exec .coldReset s = .next s' ∧ s'.powered = true ∧ s'.hbm = [] ∧ s'.bank = [] ∧ s'.threads = [] ∧
      s'.cores = [] ∧ s'.launches = [] ∧ s'.parts = [] ∧ s'.queues = [] ∧ s'.clock = 0 ∧ s'.host = s.host ∧
      ∀ d, (s'.die d).fuse = (s.die d).fuse ∧ (s'.die d).stage = 0 ∧ (s'.die d).locked = false) ∧
    (s.powered = false → exec .coldReset s = .next s) ∧
    (∀ rom train d, d < 4 → (s.die d).fuse.present = true → s.powered = false ∨ (s.die d).stage = 0 →
      ∃ s', exec (.powerOn rom train) s = .next s' ∧ s'.powered = true ∧ (s'.die d).fuse = (s.die d).fuse ∧
        (rom.getD d false = false → (s'.die d).stage = 0xF) ∧
        (rom.getD d false = true → (s'.die d).stage = 1 ∧ (s'.die d).trained = (train.drop (4 * d)).take 4 ∧
          (s'.die d).m0 = extend 0 (Config.bootDigest d 0) ∧ (s'.die d).m1 = extend 0 (Config.bootDigest d 1))) ∧
    (∀ rom train, s.powered = true → (∀ d, d < 4 → (s.die d).fuse.present = true → (s.die d).stage ≠ 0) →
      exec (.powerOn rom train) s = .next s) ∧
    (∀ rom train, s.powered = false → ∃ s', exec (.powerOn rom train) s = .next s' ∧ s'.powered = true) ∧
    (∀ d, (tfind s.dies d).isSome = true → let x := s.die d
      let reached := fun n => s.modDie d (fun x => { x with stage := n })
      (x.stage = 1 → act (.bootStage d) s = .next (reached 2)) ∧
      (x.stage = 2 → act (.bootStage d) s = .next (reached 3)) ∧
      (x.stage = 3 → ∃ s', act (.bootStage d) s = .next s' ∧
        ((∀ i, i < 4 → x.trained.getD i false = true) → (s'.die d).stage = 4) ∧
        ((∃ i, i < 4 ∧ x.trained.getD i false = false) → (s'.die d).stage = 0xF) ∧
        ∀ i, i < 4 → (s'.stack (4 * d + i)).st = (if x.trained.getD i false then 2 else 3)) ∧
      (x.stage = 4 → ∃ s', act (.bootStage d) s = .next s' ∧ (s'.die d).stage = 5 ∧
        ∀ e, e ≠ d → (s.die e).stage = 5 ∨ (s.die e).stage = 6 → bridgeDown s' d e = false) ∧
      (x.stage = 5 → x.laceDown = false → act (.bootStage d) s = .next (reached 6)) ∧
      (x.stage = 5 → x.laceDown = true → act (.bootStage d) s = .next s))
end

