-- ==== Sys2Proof/Laws/State.lean ====
section
/-! SUPPORT. One lemma for each field of `State` and each update of a unit. -/

namespace Sys2Proof.Machine

@[simp] theorem State.setCore_agenda (s : State) (c : Nat) (x : Core) : (s.setCore c x).agenda = s.agenda := rfl
@[simp] theorem State.setCore_iss (s : State) (c : Nat) (x : Core) : (s.setCore c x).iss = s.iss := rfl
@[simp] theorem State.setCore_nextId (s : State) (c : Nat) (x : Core) : (s.setCore c x).nextId = s.nextId := rfl
@[simp] theorem State.setCore_free (s : State) (c : Nat) (x : Core) : (s.setCore c x).free = s.free := rfl
@[simp] theorem State.setCore_powered (s : State) (c : Nat) (x : Core) : (s.setCore c x).powered = s.powered := rfl
@[simp] theorem State.setCore_clock (s : State) (c : Nat) (x : Core) : (s.setCore c x).clock = s.clock := rfl
@[simp] theorem State.setCore_cores (s : State) (c : Nat) (x : Core) : (s.setCore c x).cores = tset c x s.cores := rfl
@[simp] theorem State.setCore_threads (s : State) (c : Nat) (x : Core) : (s.setCore c x).threads = s.threads := rfl
@[simp] theorem State.setCore_groups (s : State) (c : Nat) (x : Core) : (s.setCore c x).groups = s.groups := rfl
@[simp] theorem State.setCore_clusters (s : State) (c : Nat) (x : Core) : (s.setCore c x).clusters = s.clusters := rfl
@[simp] theorem State.setCore_launches (s : State) (c : Nat) (x : Core) : (s.setCore c x).launches = s.launches := rfl
@[simp] theorem State.setCore_insts (s : State) (c : Nat) (x : Core) : (s.setCore c x).insts = s.insts := rfl
@[simp] theorem State.setCore_queues (s : State) (c : Nat) (x : Core) : (s.setCore c x).queues = s.queues := rfl
@[simp] theorem State.setCore_parts (s : State) (c : Nat) (x : Core) : (s.setCore c x).parts = s.parts := rfl
@[simp] theorem State.setCore_dies (s : State) (c : Nat) (x : Core) : (s.setCore c x).dies = s.dies := rfl
@[simp] theorem State.setCore_hbmStacks (s : State) (c : Nat) (x : Core) : (s.setCore c x).hbmStacks = s.hbmStacks := rfl
@[simp] theorem State.setCore_fw (s : State) (c : Nat) (x : Core) : (s.setCore c x).fw = s.fw := rfl
@[simp] theorem State.setCore_hbm (s : State) (c : Nat) (x : Core) : (s.setCore c x).hbm = s.hbm := rfl
@[simp] theorem State.setCore_bank (s : State) (c : Nat) (x : Core) : (s.setCore c x).bank = s.bank := rfl
@[simp] theorem State.setCore_host (s : State) (c : Nat) (x : Core) : (s.setCore c x).host = s.host := rfl
@[simp] theorem State.setCore_remote (s : State) (c : Nat) (x : Core) : (s.setCore c x).remote = s.remote := rfl
@[simp] theorem State.setCore_copies (s : State) (c : Nat) (x : Core) : (s.setCore c x).copies = s.copies := rfl
@[simp] theorem State.setCore_welts (s : State) (c : Nat) (x : Core) : (s.setCore c x).welts = s.welts := rfl
@[simp] theorem State.setCore_rounds (s : State) (c : Nat) (x : Core) : (s.setCore c x).rounds = s.rounds := rfl
@[simp] theorem State.setCore_syncFly (s : State) (c : Nat) (x : Core) : (s.setCore c x).syncFly = s.syncFly := rfl
@[simp] theorem State.setCore_syncReg (s : State) (c : Nat) (x : Core) : (s.setCore c x).syncReg = s.syncReg := rfl
@[simp] theorem State.setCore_rels (s : State) (c : Nat) (x : Core) : (s.setCore c x).rels = s.rels := rfl
@[simp] theorem State.setCore_pubs (s : State) (c : Nat) (x : Core) : (s.setCore c x).pubs = s.pubs := rfl
@[simp] theorem State.setCore_emits (s : State) (c : Nat) (x : Core) : (s.setCore c x).emits = s.emits := rfl
@[simp] theorem State.setCore_msix (s : State) (c : Nat) (x : Core) : (s.setCore c x).msix = s.msix := rfl
@[simp] theorem State.setCore_answer (s : State) (c : Nat) (x : Core) : (s.setCore c x).answer = s.answer := rfl

@[simp] theorem State.modCore_agenda (s : State) (c : Nat) (f : Core → Core) : (s.modCore c f).agenda = s.agenda := rfl
@[simp] theorem State.modCore_iss (s : State) (c : Nat) (f : Core → Core) : (s.modCore c f).iss = s.iss := rfl
@[simp] theorem State.modCore_nextId (s : State) (c : Nat) (f : Core → Core) : (s.modCore c f).nextId = s.nextId := rfl
@[simp] theorem State.modCore_free (s : State) (c : Nat) (f : Core → Core) : (s.modCore c f).free = s.free := rfl
@[simp] theorem State.modCore_powered (s : State) (c : Nat) (f : Core → Core) : (s.modCore c f).powered = s.powered := rfl
@[simp] theorem State.modCore_clock (s : State) (c : Nat) (f : Core → Core) : (s.modCore c f).clock = s.clock := rfl
@[simp] theorem State.modCore_cores (s : State) (c : Nat) (f : Core → Core) : (s.modCore c f).cores = tset c (f (s.core c)) s.cores := rfl
@[simp] theorem State.modCore_threads (s : State) (c : Nat) (f : Core → Core) : (s.modCore c f).threads = s.threads := rfl
@[simp] theorem State.modCore_groups (s : State) (c : Nat) (f : Core → Core) : (s.modCore c f).groups = s.groups := rfl
@[simp] theorem State.modCore_clusters (s : State) (c : Nat) (f : Core → Core) : (s.modCore c f).clusters = s.clusters := rfl
@[simp] theorem State.modCore_launches (s : State) (c : Nat) (f : Core → Core) : (s.modCore c f).launches = s.launches := rfl
@[simp] theorem State.modCore_insts (s : State) (c : Nat) (f : Core → Core) : (s.modCore c f).insts = s.insts := rfl
@[simp] theorem State.modCore_queues (s : State) (c : Nat) (f : Core → Core) : (s.modCore c f).queues = s.queues := rfl
@[simp] theorem State.modCore_parts (s : State) (c : Nat) (f : Core → Core) : (s.modCore c f).parts = s.parts := rfl
@[simp] theorem State.modCore_dies (s : State) (c : Nat) (f : Core → Core) : (s.modCore c f).dies = s.dies := rfl
@[simp] theorem State.modCore_hbmStacks (s : State) (c : Nat) (f : Core → Core) : (s.modCore c f).hbmStacks = s.hbmStacks := rfl
@[simp] theorem State.modCore_fw (s : State) (c : Nat) (f : Core → Core) : (s.modCore c f).fw = s.fw := rfl
@[simp] theorem State.modCore_hbm (s : State) (c : Nat) (f : Core → Core) : (s.modCore c f).hbm = s.hbm := rfl
@[simp] theorem State.modCore_bank (s : State) (c : Nat) (f : Core → Core) : (s.modCore c f).bank = s.bank := rfl
@[simp] theorem State.modCore_host (s : State) (c : Nat) (f : Core → Core) : (s.modCore c f).host = s.host := rfl
@[simp] theorem State.modCore_remote (s : State) (c : Nat) (f : Core → Core) : (s.modCore c f).remote = s.remote := rfl
@[simp] theorem State.modCore_copies (s : State) (c : Nat) (f : Core → Core) : (s.modCore c f).copies = s.copies := rfl
@[simp] theorem State.modCore_welts (s : State) (c : Nat) (f : Core → Core) : (s.modCore c f).welts = s.welts := rfl
@[simp] theorem State.modCore_rounds (s : State) (c : Nat) (f : Core → Core) : (s.modCore c f).rounds = s.rounds := rfl
@[simp] theorem State.modCore_syncFly (s : State) (c : Nat) (f : Core → Core) : (s.modCore c f).syncFly = s.syncFly := rfl
@[simp] theorem State.modCore_syncReg (s : State) (c : Nat) (f : Core → Core) : (s.modCore c f).syncReg = s.syncReg := rfl
@[simp] theorem State.modCore_rels (s : State) (c : Nat) (f : Core → Core) : (s.modCore c f).rels = s.rels := rfl
@[simp] theorem State.modCore_pubs (s : State) (c : Nat) (f : Core → Core) : (s.modCore c f).pubs = s.pubs := rfl
@[simp] theorem State.modCore_emits (s : State) (c : Nat) (f : Core → Core) : (s.modCore c f).emits = s.emits := rfl
@[simp] theorem State.modCore_msix (s : State) (c : Nat) (f : Core → Core) : (s.modCore c f).msix = s.msix := rfl
@[simp] theorem State.modCore_answer (s : State) (c : Nat) (f : Core → Core) : (s.modCore c f).answer = s.answer := rfl

@[simp] theorem State.modThread_agenda (s : State) (t : Nat) (f : Thread → Thread) : (s.modThread t f).agenda = s.agenda := rfl
@[simp] theorem State.modThread_iss (s : State) (t : Nat) (f : Thread → Thread) : (s.modThread t f).iss = s.iss := rfl
@[simp] theorem State.modThread_nextId (s : State) (t : Nat) (f : Thread → Thread) : (s.modThread t f).nextId = s.nextId := rfl
@[simp] theorem State.modThread_free (s : State) (t : Nat) (f : Thread → Thread) : (s.modThread t f).free = s.free := rfl
@[simp] theorem State.modThread_powered (s : State) (t : Nat) (f : Thread → Thread) : (s.modThread t f).powered = s.powered := rfl
@[simp] theorem State.modThread_clock (s : State) (t : Nat) (f : Thread → Thread) : (s.modThread t f).clock = s.clock := rfl
@[simp] theorem State.modThread_cores (s : State) (t : Nat) (f : Thread → Thread) : (s.modThread t f).cores = s.cores := rfl
@[simp] theorem State.modThread_threads (s : State) (t : Nat) (f : Thread → Thread) : (s.modThread t f).threads = tmod t f s.threads := rfl
@[simp] theorem State.modThread_groups (s : State) (t : Nat) (f : Thread → Thread) : (s.modThread t f).groups = s.groups := rfl
@[simp] theorem State.modThread_clusters (s : State) (t : Nat) (f : Thread → Thread) : (s.modThread t f).clusters = s.clusters := rfl
@[simp] theorem State.modThread_launches (s : State) (t : Nat) (f : Thread → Thread) : (s.modThread t f).launches = s.launches := rfl
@[simp] theorem State.modThread_insts (s : State) (t : Nat) (f : Thread → Thread) : (s.modThread t f).insts = s.insts := rfl
@[simp] theorem State.modThread_queues (s : State) (t : Nat) (f : Thread → Thread) : (s.modThread t f).queues = s.queues := rfl
@[simp] theorem State.modThread_parts (s : State) (t : Nat) (f : Thread → Thread) : (s.modThread t f).parts = s.parts := rfl
@[simp] theorem State.modThread_dies (s : State) (t : Nat) (f : Thread → Thread) : (s.modThread t f).dies = s.dies := rfl
@[simp] theorem State.modThread_hbmStacks (s : State) (t : Nat) (f : Thread → Thread) : (s.modThread t f).hbmStacks = s.hbmStacks := rfl
@[simp] theorem State.modThread_fw (s : State) (t : Nat) (f : Thread → Thread) : (s.modThread t f).fw = s.fw := rfl
@[simp] theorem State.modThread_hbm (s : State) (t : Nat) (f : Thread → Thread) : (s.modThread t f).hbm = s.hbm := rfl
@[simp] theorem State.modThread_bank (s : State) (t : Nat) (f : Thread → Thread) : (s.modThread t f).bank = s.bank := rfl
@[simp] theorem State.modThread_host (s : State) (t : Nat) (f : Thread → Thread) : (s.modThread t f).host = s.host := rfl
@[simp] theorem State.modThread_remote (s : State) (t : Nat) (f : Thread → Thread) : (s.modThread t f).remote = s.remote := rfl
@[simp] theorem State.modThread_copies (s : State) (t : Nat) (f : Thread → Thread) : (s.modThread t f).copies = s.copies := rfl
@[simp] theorem State.modThread_welts (s : State) (t : Nat) (f : Thread → Thread) : (s.modThread t f).welts = s.welts := rfl
@[simp] theorem State.modThread_rounds (s : State) (t : Nat) (f : Thread → Thread) : (s.modThread t f).rounds = s.rounds := rfl
@[simp] theorem State.modThread_syncFly (s : State) (t : Nat) (f : Thread → Thread) : (s.modThread t f).syncFly = s.syncFly := rfl
@[simp] theorem State.modThread_syncReg (s : State) (t : Nat) (f : Thread → Thread) : (s.modThread t f).syncReg = s.syncReg := rfl
@[simp] theorem State.modThread_rels (s : State) (t : Nat) (f : Thread → Thread) : (s.modThread t f).rels = s.rels := rfl
@[simp] theorem State.modThread_pubs (s : State) (t : Nat) (f : Thread → Thread) : (s.modThread t f).pubs = s.pubs := rfl
@[simp] theorem State.modThread_emits (s : State) (t : Nat) (f : Thread → Thread) : (s.modThread t f).emits = s.emits := rfl
@[simp] theorem State.modThread_msix (s : State) (t : Nat) (f : Thread → Thread) : (s.modThread t f).msix = s.msix := rfl
@[simp] theorem State.modThread_answer (s : State) (t : Nat) (f : Thread → Thread) : (s.modThread t f).answer = s.answer := rfl

@[simp] theorem State.modGroup_agenda (s : State) (g : Nat) (f : Group → Group) : (s.modGroup g f).agenda = s.agenda := rfl
@[simp] theorem State.modGroup_iss (s : State) (g : Nat) (f : Group → Group) : (s.modGroup g f).iss = s.iss := rfl
@[simp] theorem State.modGroup_nextId (s : State) (g : Nat) (f : Group → Group) : (s.modGroup g f).nextId = s.nextId := rfl
@[simp] theorem State.modGroup_free (s : State) (g : Nat) (f : Group → Group) : (s.modGroup g f).free = s.free := rfl
@[simp] theorem State.modGroup_powered (s : State) (g : Nat) (f : Group → Group) : (s.modGroup g f).powered = s.powered := rfl
@[simp] theorem State.modGroup_clock (s : State) (g : Nat) (f : Group → Group) : (s.modGroup g f).clock = s.clock := rfl
@[simp] theorem State.modGroup_cores (s : State) (g : Nat) (f : Group → Group) : (s.modGroup g f).cores = s.cores := rfl
@[simp] theorem State.modGroup_threads (s : State) (g : Nat) (f : Group → Group) : (s.modGroup g f).threads = s.threads := rfl
@[simp] theorem State.modGroup_groups (s : State) (g : Nat) (f : Group → Group) : (s.modGroup g f).groups = tmod g f s.groups := rfl
@[simp] theorem State.modGroup_clusters (s : State) (g : Nat) (f : Group → Group) : (s.modGroup g f).clusters = s.clusters := rfl
@[simp] theorem State.modGroup_launches (s : State) (g : Nat) (f : Group → Group) : (s.modGroup g f).launches = s.launches := rfl
@[simp] theorem State.modGroup_insts (s : State) (g : Nat) (f : Group → Group) : (s.modGroup g f).insts = s.insts := rfl
@[simp] theorem State.modGroup_queues (s : State) (g : Nat) (f : Group → Group) : (s.modGroup g f).queues = s.queues := rfl
@[simp] theorem State.modGroup_parts (s : State) (g : Nat) (f : Group → Group) : (s.modGroup g f).parts = s.parts := rfl
@[simp] theorem State.modGroup_dies (s : State) (g : Nat) (f : Group → Group) : (s.modGroup g f).dies = s.dies := rfl
@[simp] theorem State.modGroup_hbmStacks (s : State) (g : Nat) (f : Group → Group) : (s.modGroup g f).hbmStacks = s.hbmStacks := rfl
@[simp] theorem State.modGroup_fw (s : State) (g : Nat) (f : Group → Group) : (s.modGroup g f).fw = s.fw := rfl
@[simp] theorem State.modGroup_hbm (s : State) (g : Nat) (f : Group → Group) : (s.modGroup g f).hbm = s.hbm := rfl
@[simp] theorem State.modGroup_bank (s : State) (g : Nat) (f : Group → Group) : (s.modGroup g f).bank = s.bank := rfl
@[simp] theorem State.modGroup_host (s : State) (g : Nat) (f : Group → Group) : (s.modGroup g f).host = s.host := rfl
@[simp] theorem State.modGroup_remote (s : State) (g : Nat) (f : Group → Group) : (s.modGroup g f).remote = s.remote := rfl
@[simp] theorem State.modGroup_copies (s : State) (g : Nat) (f : Group → Group) : (s.modGroup g f).copies = s.copies := rfl
@[simp] theorem State.modGroup_welts (s : State) (g : Nat) (f : Group → Group) : (s.modGroup g f).welts = s.welts := rfl
@[simp] theorem State.modGroup_rounds (s : State) (g : Nat) (f : Group → Group) : (s.modGroup g f).rounds = s.rounds := rfl
@[simp] theorem State.modGroup_syncFly (s : State) (g : Nat) (f : Group → Group) : (s.modGroup g f).syncFly = s.syncFly := rfl
@[simp] theorem State.modGroup_syncReg (s : State) (g : Nat) (f : Group → Group) : (s.modGroup g f).syncReg = s.syncReg := rfl
@[simp] theorem State.modGroup_rels (s : State) (g : Nat) (f : Group → Group) : (s.modGroup g f).rels = s.rels := rfl
@[simp] theorem State.modGroup_pubs (s : State) (g : Nat) (f : Group → Group) : (s.modGroup g f).pubs = s.pubs := rfl
@[simp] theorem State.modGroup_emits (s : State) (g : Nat) (f : Group → Group) : (s.modGroup g f).emits = s.emits := rfl
@[simp] theorem State.modGroup_msix (s : State) (g : Nat) (f : Group → Group) : (s.modGroup g f).msix = s.msix := rfl
@[simp] theorem State.modGroup_answer (s : State) (g : Nat) (f : Group → Group) : (s.modGroup g f).answer = s.answer := rfl

@[simp] theorem State.modLaunch_agenda (s : State) (l : Nat) (f : Launch → Launch) : (s.modLaunch l f).agenda = s.agenda := rfl
@[simp] theorem State.modLaunch_iss (s : State) (l : Nat) (f : Launch → Launch) : (s.modLaunch l f).iss = s.iss := rfl
@[simp] theorem State.modLaunch_nextId (s : State) (l : Nat) (f : Launch → Launch) : (s.modLaunch l f).nextId = s.nextId := rfl
@[simp] theorem State.modLaunch_free (s : State) (l : Nat) (f : Launch → Launch) : (s.modLaunch l f).free = s.free := rfl
@[simp] theorem State.modLaunch_powered (s : State) (l : Nat) (f : Launch → Launch) : (s.modLaunch l f).powered = s.powered := rfl
@[simp] theorem State.modLaunch_clock (s : State) (l : Nat) (f : Launch → Launch) : (s.modLaunch l f).clock = s.clock := rfl
@[simp] theorem State.modLaunch_cores (s : State) (l : Nat) (f : Launch → Launch) : (s.modLaunch l f).cores = s.cores := rfl
@[simp] theorem State.modLaunch_threads (s : State) (l : Nat) (f : Launch → Launch) : (s.modLaunch l f).threads = s.threads := rfl
@[simp] theorem State.modLaunch_groups (s : State) (l : Nat) (f : Launch → Launch) : (s.modLaunch l f).groups = s.groups := rfl
@[simp] theorem State.modLaunch_clusters (s : State) (l : Nat) (f : Launch → Launch) : (s.modLaunch l f).clusters = s.clusters := rfl
@[simp] theorem State.modLaunch_launches (s : State) (l : Nat) (f : Launch → Launch) : (s.modLaunch l f).launches = tmod l f s.launches := rfl
@[simp] theorem State.modLaunch_insts (s : State) (l : Nat) (f : Launch → Launch) : (s.modLaunch l f).insts = s.insts := rfl
@[simp] theorem State.modLaunch_queues (s : State) (l : Nat) (f : Launch → Launch) : (s.modLaunch l f).queues = s.queues := rfl
@[simp] theorem State.modLaunch_parts (s : State) (l : Nat) (f : Launch → Launch) : (s.modLaunch l f).parts = s.parts := rfl
@[simp] theorem State.modLaunch_dies (s : State) (l : Nat) (f : Launch → Launch) : (s.modLaunch l f).dies = s.dies := rfl
@[simp] theorem State.modLaunch_hbmStacks (s : State) (l : Nat) (f : Launch → Launch) : (s.modLaunch l f).hbmStacks = s.hbmStacks := rfl
@[simp] theorem State.modLaunch_fw (s : State) (l : Nat) (f : Launch → Launch) : (s.modLaunch l f).fw = s.fw := rfl
@[simp] theorem State.modLaunch_hbm (s : State) (l : Nat) (f : Launch → Launch) : (s.modLaunch l f).hbm = s.hbm := rfl
@[simp] theorem State.modLaunch_bank (s : State) (l : Nat) (f : Launch → Launch) : (s.modLaunch l f).bank = s.bank := rfl
@[simp] theorem State.modLaunch_host (s : State) (l : Nat) (f : Launch → Launch) : (s.modLaunch l f).host = s.host := rfl
@[simp] theorem State.modLaunch_remote (s : State) (l : Nat) (f : Launch → Launch) : (s.modLaunch l f).remote = s.remote := rfl
@[simp] theorem State.modLaunch_copies (s : State) (l : Nat) (f : Launch → Launch) : (s.modLaunch l f).copies = s.copies := rfl
@[simp] theorem State.modLaunch_welts (s : State) (l : Nat) (f : Launch → Launch) : (s.modLaunch l f).welts = s.welts := rfl
@[simp] theorem State.modLaunch_rounds (s : State) (l : Nat) (f : Launch → Launch) : (s.modLaunch l f).rounds = s.rounds := rfl
@[simp] theorem State.modLaunch_syncFly (s : State) (l : Nat) (f : Launch → Launch) : (s.modLaunch l f).syncFly = s.syncFly := rfl
@[simp] theorem State.modLaunch_syncReg (s : State) (l : Nat) (f : Launch → Launch) : (s.modLaunch l f).syncReg = s.syncReg := rfl
@[simp] theorem State.modLaunch_rels (s : State) (l : Nat) (f : Launch → Launch) : (s.modLaunch l f).rels = s.rels := rfl
@[simp] theorem State.modLaunch_pubs (s : State) (l : Nat) (f : Launch → Launch) : (s.modLaunch l f).pubs = s.pubs := rfl
@[simp] theorem State.modLaunch_emits (s : State) (l : Nat) (f : Launch → Launch) : (s.modLaunch l f).emits = s.emits := rfl
@[simp] theorem State.modLaunch_msix (s : State) (l : Nat) (f : Launch → Launch) : (s.modLaunch l f).msix = s.msix := rfl
@[simp] theorem State.modLaunch_answer (s : State) (l : Nat) (f : Launch → Launch) : (s.modLaunch l f).answer = s.answer := rfl

@[simp] theorem State.setCluster_agenda (s : State) (c : Nat) (x : Cluster) : (s.setCluster c x).agenda = s.agenda := rfl
@[simp] theorem State.setCluster_iss (s : State) (c : Nat) (x : Cluster) : (s.setCluster c x).iss = s.iss := rfl
@[simp] theorem State.setCluster_nextId (s : State) (c : Nat) (x : Cluster) : (s.setCluster c x).nextId = s.nextId := rfl
@[simp] theorem State.setCluster_free (s : State) (c : Nat) (x : Cluster) : (s.setCluster c x).free = s.free := rfl
@[simp] theorem State.setCluster_powered (s : State) (c : Nat) (x : Cluster) : (s.setCluster c x).powered = s.powered := rfl
@[simp] theorem State.setCluster_clock (s : State) (c : Nat) (x : Cluster) : (s.setCluster c x).clock = s.clock := rfl
@[simp] theorem State.setCluster_cores (s : State) (c : Nat) (x : Cluster) : (s.setCluster c x).cores = s.cores := rfl
@[simp] theorem State.setCluster_threads (s : State) (c : Nat) (x : Cluster) : (s.setCluster c x).threads = s.threads := rfl
@[simp] theorem State.setCluster_groups (s : State) (c : Nat) (x : Cluster) : (s.setCluster c x).groups = s.groups := rfl
@[simp] theorem State.setCluster_clusters (s : State) (c : Nat) (x : Cluster) : (s.setCluster c x).clusters = tset c x s.clusters := rfl
@[simp] theorem State.setCluster_launches (s : State) (c : Nat) (x : Cluster) : (s.setCluster c x).launches = s.launches := rfl
@[simp] theorem State.setCluster_insts (s : State) (c : Nat) (x : Cluster) : (s.setCluster c x).insts = s.insts := rfl
@[simp] theorem State.setCluster_queues (s : State) (c : Nat) (x : Cluster) : (s.setCluster c x).queues = s.queues := rfl
@[simp] theorem State.setCluster_parts (s : State) (c : Nat) (x : Cluster) : (s.setCluster c x).parts = s.parts := rfl
@[simp] theorem State.setCluster_dies (s : State) (c : Nat) (x : Cluster) : (s.setCluster c x).dies = s.dies := rfl
@[simp] theorem State.setCluster_hbmStacks (s : State) (c : Nat) (x : Cluster) : (s.setCluster c x).hbmStacks = s.hbmStacks := rfl
@[simp] theorem State.setCluster_fw (s : State) (c : Nat) (x : Cluster) : (s.setCluster c x).fw = s.fw := rfl
@[simp] theorem State.setCluster_hbm (s : State) (c : Nat) (x : Cluster) : (s.setCluster c x).hbm = s.hbm := rfl
@[simp] theorem State.setCluster_bank (s : State) (c : Nat) (x : Cluster) : (s.setCluster c x).bank = s.bank := rfl
@[simp] theorem State.setCluster_host (s : State) (c : Nat) (x : Cluster) : (s.setCluster c x).host = s.host := rfl
@[simp] theorem State.setCluster_remote (s : State) (c : Nat) (x : Cluster) : (s.setCluster c x).remote = s.remote := rfl
@[simp] theorem State.setCluster_copies (s : State) (c : Nat) (x : Cluster) : (s.setCluster c x).copies = s.copies := rfl
@[simp] theorem State.setCluster_welts (s : State) (c : Nat) (x : Cluster) : (s.setCluster c x).welts = s.welts := rfl
@[simp] theorem State.setCluster_rounds (s : State) (c : Nat) (x : Cluster) : (s.setCluster c x).rounds = s.rounds := rfl
@[simp] theorem State.setCluster_syncFly (s : State) (c : Nat) (x : Cluster) : (s.setCluster c x).syncFly = s.syncFly := rfl
@[simp] theorem State.setCluster_syncReg (s : State) (c : Nat) (x : Cluster) : (s.setCluster c x).syncReg = s.syncReg := rfl
@[simp] theorem State.setCluster_rels (s : State) (c : Nat) (x : Cluster) : (s.setCluster c x).rels = s.rels := rfl
@[simp] theorem State.setCluster_pubs (s : State) (c : Nat) (x : Cluster) : (s.setCluster c x).pubs = s.pubs := rfl
@[simp] theorem State.setCluster_emits (s : State) (c : Nat) (x : Cluster) : (s.setCluster c x).emits = s.emits := rfl
@[simp] theorem State.setCluster_msix (s : State) (c : Nat) (x : Cluster) : (s.setCluster c x).msix = s.msix := rfl
@[simp] theorem State.setCluster_answer (s : State) (c : Nat) (x : Cluster) : (s.setCluster c x).answer = s.answer := rfl

@[simp] theorem State.modCluster_agenda (s : State) (c : Nat) (f : Cluster → Cluster) : (s.modCluster c f).agenda = s.agenda := rfl
@[simp] theorem State.modCluster_iss (s : State) (c : Nat) (f : Cluster → Cluster) : (s.modCluster c f).iss = s.iss := rfl
@[simp] theorem State.modCluster_nextId (s : State) (c : Nat) (f : Cluster → Cluster) : (s.modCluster c f).nextId = s.nextId := rfl
@[simp] theorem State.modCluster_free (s : State) (c : Nat) (f : Cluster → Cluster) : (s.modCluster c f).free = s.free := rfl
@[simp] theorem State.modCluster_powered (s : State) (c : Nat) (f : Cluster → Cluster) : (s.modCluster c f).powered = s.powered := rfl
@[simp] theorem State.modCluster_clock (s : State) (c : Nat) (f : Cluster → Cluster) : (s.modCluster c f).clock = s.clock := rfl
@[simp] theorem State.modCluster_cores (s : State) (c : Nat) (f : Cluster → Cluster) : (s.modCluster c f).cores = s.cores := rfl
@[simp] theorem State.modCluster_threads (s : State) (c : Nat) (f : Cluster → Cluster) : (s.modCluster c f).threads = s.threads := rfl
@[simp] theorem State.modCluster_groups (s : State) (c : Nat) (f : Cluster → Cluster) : (s.modCluster c f).groups = s.groups := rfl
@[simp] theorem State.modCluster_clusters (s : State) (c : Nat) (f : Cluster → Cluster) : (s.modCluster c f).clusters = tset c (f (s.cluster c)) s.clusters := rfl
@[simp] theorem State.modCluster_launches (s : State) (c : Nat) (f : Cluster → Cluster) : (s.modCluster c f).launches = s.launches := rfl
@[simp] theorem State.modCluster_insts (s : State) (c : Nat) (f : Cluster → Cluster) : (s.modCluster c f).insts = s.insts := rfl
@[simp] theorem State.modCluster_queues (s : State) (c : Nat) (f : Cluster → Cluster) : (s.modCluster c f).queues = s.queues := rfl
@[simp] theorem State.modCluster_parts (s : State) (c : Nat) (f : Cluster → Cluster) : (s.modCluster c f).parts = s.parts := rfl
@[simp] theorem State.modCluster_dies (s : State) (c : Nat) (f : Cluster → Cluster) : (s.modCluster c f).dies = s.dies := rfl
@[simp] theorem State.modCluster_hbmStacks (s : State) (c : Nat) (f : Cluster → Cluster) : (s.modCluster c f).hbmStacks = s.hbmStacks := rfl
@[simp] theorem State.modCluster_fw (s : State) (c : Nat) (f : Cluster → Cluster) : (s.modCluster c f).fw = s.fw := rfl
@[simp] theorem State.modCluster_hbm (s : State) (c : Nat) (f : Cluster → Cluster) : (s.modCluster c f).hbm = s.hbm := rfl
@[simp] theorem State.modCluster_bank (s : State) (c : Nat) (f : Cluster → Cluster) : (s.modCluster c f).bank = s.bank := rfl
@[simp] theorem State.modCluster_host (s : State) (c : Nat) (f : Cluster → Cluster) : (s.modCluster c f).host = s.host := rfl
@[simp] theorem State.modCluster_remote (s : State) (c : Nat) (f : Cluster → Cluster) : (s.modCluster c f).remote = s.remote := rfl
@[simp] theorem State.modCluster_copies (s : State) (c : Nat) (f : Cluster → Cluster) : (s.modCluster c f).copies = s.copies := rfl
@[simp] theorem State.modCluster_welts (s : State) (c : Nat) (f : Cluster → Cluster) : (s.modCluster c f).welts = s.welts := rfl
@[simp] theorem State.modCluster_rounds (s : State) (c : Nat) (f : Cluster → Cluster) : (s.modCluster c f).rounds = s.rounds := rfl
@[simp] theorem State.modCluster_syncFly (s : State) (c : Nat) (f : Cluster → Cluster) : (s.modCluster c f).syncFly = s.syncFly := rfl
@[simp] theorem State.modCluster_syncReg (s : State) (c : Nat) (f : Cluster → Cluster) : (s.modCluster c f).syncReg = s.syncReg := rfl
@[simp] theorem State.modCluster_rels (s : State) (c : Nat) (f : Cluster → Cluster) : (s.modCluster c f).rels = s.rels := rfl
@[simp] theorem State.modCluster_pubs (s : State) (c : Nat) (f : Cluster → Cluster) : (s.modCluster c f).pubs = s.pubs := rfl
@[simp] theorem State.modCluster_emits (s : State) (c : Nat) (f : Cluster → Cluster) : (s.modCluster c f).emits = s.emits := rfl
@[simp] theorem State.modCluster_msix (s : State) (c : Nat) (f : Cluster → Cluster) : (s.modCluster c f).msix = s.msix := rfl
@[simp] theorem State.modCluster_answer (s : State) (c : Nat) (f : Cluster → Cluster) : (s.modCluster c f).answer = s.answer := rfl

@[simp] theorem State.setQueue_agenda (s : State) (q : Nat) (x : Queue) : (s.setQueue q x).agenda = s.agenda := rfl
@[simp] theorem State.setQueue_iss (s : State) (q : Nat) (x : Queue) : (s.setQueue q x).iss = s.iss := rfl
@[simp] theorem State.setQueue_nextId (s : State) (q : Nat) (x : Queue) : (s.setQueue q x).nextId = s.nextId := rfl
@[simp] theorem State.setQueue_free (s : State) (q : Nat) (x : Queue) : (s.setQueue q x).free = s.free := rfl
@[simp] theorem State.setQueue_powered (s : State) (q : Nat) (x : Queue) : (s.setQueue q x).powered = s.powered := rfl
@[simp] theorem State.setQueue_clock (s : State) (q : Nat) (x : Queue) : (s.setQueue q x).clock = s.clock := rfl
@[simp] theorem State.setQueue_cores (s : State) (q : Nat) (x : Queue) : (s.setQueue q x).cores = s.cores := rfl
@[simp] theorem State.setQueue_threads (s : State) (q : Nat) (x : Queue) : (s.setQueue q x).threads = s.threads := rfl
@[simp] theorem State.setQueue_groups (s : State) (q : Nat) (x : Queue) : (s.setQueue q x).groups = s.groups := rfl
@[simp] theorem State.setQueue_clusters (s : State) (q : Nat) (x : Queue) : (s.setQueue q x).clusters = s.clusters := rfl
@[simp] theorem State.setQueue_launches (s : State) (q : Nat) (x : Queue) : (s.setQueue q x).launches = s.launches := rfl
@[simp] theorem State.setQueue_insts (s : State) (q : Nat) (x : Queue) : (s.setQueue q x).insts = s.insts := rfl
@[simp] theorem State.setQueue_queues (s : State) (q : Nat) (x : Queue) : (s.setQueue q x).queues = tset q x s.queues := rfl
@[simp] theorem State.setQueue_parts (s : State) (q : Nat) (x : Queue) : (s.setQueue q x).parts = s.parts := rfl
@[simp] theorem State.setQueue_dies (s : State) (q : Nat) (x : Queue) : (s.setQueue q x).dies = s.dies := rfl
@[simp] theorem State.setQueue_hbmStacks (s : State) (q : Nat) (x : Queue) : (s.setQueue q x).hbmStacks = s.hbmStacks := rfl
@[simp] theorem State.setQueue_fw (s : State) (q : Nat) (x : Queue) : (s.setQueue q x).fw = s.fw := rfl
@[simp] theorem State.setQueue_hbm (s : State) (q : Nat) (x : Queue) : (s.setQueue q x).hbm = s.hbm := rfl
@[simp] theorem State.setQueue_bank (s : State) (q : Nat) (x : Queue) : (s.setQueue q x).bank = s.bank := rfl
@[simp] theorem State.setQueue_host (s : State) (q : Nat) (x : Queue) : (s.setQueue q x).host = s.host := rfl
@[simp] theorem State.setQueue_remote (s : State) (q : Nat) (x : Queue) : (s.setQueue q x).remote = s.remote := rfl
@[simp] theorem State.setQueue_copies (s : State) (q : Nat) (x : Queue) : (s.setQueue q x).copies = s.copies := rfl
@[simp] theorem State.setQueue_welts (s : State) (q : Nat) (x : Queue) : (s.setQueue q x).welts = s.welts := rfl
@[simp] theorem State.setQueue_rounds (s : State) (q : Nat) (x : Queue) : (s.setQueue q x).rounds = s.rounds := rfl
@[simp] theorem State.setQueue_syncFly (s : State) (q : Nat) (x : Queue) : (s.setQueue q x).syncFly = s.syncFly := rfl
@[simp] theorem State.setQueue_syncReg (s : State) (q : Nat) (x : Queue) : (s.setQueue q x).syncReg = s.syncReg := rfl
@[simp] theorem State.setQueue_rels (s : State) (q : Nat) (x : Queue) : (s.setQueue q x).rels = s.rels := rfl
@[simp] theorem State.setQueue_pubs (s : State) (q : Nat) (x : Queue) : (s.setQueue q x).pubs = s.pubs := rfl
@[simp] theorem State.setQueue_emits (s : State) (q : Nat) (x : Queue) : (s.setQueue q x).emits = s.emits := rfl
@[simp] theorem State.setQueue_msix (s : State) (q : Nat) (x : Queue) : (s.setQueue q x).msix = s.msix := rfl
@[simp] theorem State.setQueue_answer (s : State) (q : Nat) (x : Queue) : (s.setQueue q x).answer = s.answer := rfl

@[simp] theorem State.modQueue_agenda (s : State) (q : Nat) (f : Queue → Queue) : (s.modQueue q f).agenda = s.agenda := rfl
@[simp] theorem State.modQueue_iss (s : State) (q : Nat) (f : Queue → Queue) : (s.modQueue q f).iss = s.iss := rfl
@[simp] theorem State.modQueue_nextId (s : State) (q : Nat) (f : Queue → Queue) : (s.modQueue q f).nextId = s.nextId := rfl
@[simp] theorem State.modQueue_free (s : State) (q : Nat) (f : Queue → Queue) : (s.modQueue q f).free = s.free := rfl
@[simp] theorem State.modQueue_powered (s : State) (q : Nat) (f : Queue → Queue) : (s.modQueue q f).powered = s.powered := rfl
@[simp] theorem State.modQueue_clock (s : State) (q : Nat) (f : Queue → Queue) : (s.modQueue q f).clock = s.clock := rfl
@[simp] theorem State.modQueue_cores (s : State) (q : Nat) (f : Queue → Queue) : (s.modQueue q f).cores = s.cores := rfl
@[simp] theorem State.modQueue_threads (s : State) (q : Nat) (f : Queue → Queue) : (s.modQueue q f).threads = s.threads := rfl
@[simp] theorem State.modQueue_groups (s : State) (q : Nat) (f : Queue → Queue) : (s.modQueue q f).groups = s.groups := rfl
@[simp] theorem State.modQueue_clusters (s : State) (q : Nat) (f : Queue → Queue) : (s.modQueue q f).clusters = s.clusters := rfl
@[simp] theorem State.modQueue_launches (s : State) (q : Nat) (f : Queue → Queue) : (s.modQueue q f).launches = s.launches := rfl
@[simp] theorem State.modQueue_insts (s : State) (q : Nat) (f : Queue → Queue) : (s.modQueue q f).insts = s.insts := rfl
@[simp] theorem State.modQueue_queues (s : State) (q : Nat) (f : Queue → Queue) : (s.modQueue q f).queues = tset q (f (s.queue q)) s.queues := rfl
@[simp] theorem State.modQueue_parts (s : State) (q : Nat) (f : Queue → Queue) : (s.modQueue q f).parts = s.parts := rfl
@[simp] theorem State.modQueue_dies (s : State) (q : Nat) (f : Queue → Queue) : (s.modQueue q f).dies = s.dies := rfl
@[simp] theorem State.modQueue_hbmStacks (s : State) (q : Nat) (f : Queue → Queue) : (s.modQueue q f).hbmStacks = s.hbmStacks := rfl
@[simp] theorem State.modQueue_fw (s : State) (q : Nat) (f : Queue → Queue) : (s.modQueue q f).fw = s.fw := rfl
@[simp] theorem State.modQueue_hbm (s : State) (q : Nat) (f : Queue → Queue) : (s.modQueue q f).hbm = s.hbm := rfl
@[simp] theorem State.modQueue_bank (s : State) (q : Nat) (f : Queue → Queue) : (s.modQueue q f).bank = s.bank := rfl
@[simp] theorem State.modQueue_host (s : State) (q : Nat) (f : Queue → Queue) : (s.modQueue q f).host = s.host := rfl
@[simp] theorem State.modQueue_remote (s : State) (q : Nat) (f : Queue → Queue) : (s.modQueue q f).remote = s.remote := rfl
@[simp] theorem State.modQueue_copies (s : State) (q : Nat) (f : Queue → Queue) : (s.modQueue q f).copies = s.copies := rfl
@[simp] theorem State.modQueue_welts (s : State) (q : Nat) (f : Queue → Queue) : (s.modQueue q f).welts = s.welts := rfl
@[simp] theorem State.modQueue_rounds (s : State) (q : Nat) (f : Queue → Queue) : (s.modQueue q f).rounds = s.rounds := rfl
@[simp] theorem State.modQueue_syncFly (s : State) (q : Nat) (f : Queue → Queue) : (s.modQueue q f).syncFly = s.syncFly := rfl
@[simp] theorem State.modQueue_syncReg (s : State) (q : Nat) (f : Queue → Queue) : (s.modQueue q f).syncReg = s.syncReg := rfl
@[simp] theorem State.modQueue_rels (s : State) (q : Nat) (f : Queue → Queue) : (s.modQueue q f).rels = s.rels := rfl
@[simp] theorem State.modQueue_pubs (s : State) (q : Nat) (f : Queue → Queue) : (s.modQueue q f).pubs = s.pubs := rfl
@[simp] theorem State.modQueue_emits (s : State) (q : Nat) (f : Queue → Queue) : (s.modQueue q f).emits = s.emits := rfl
@[simp] theorem State.modQueue_msix (s : State) (q : Nat) (f : Queue → Queue) : (s.modQueue q f).msix = s.msix := rfl
@[simp] theorem State.modQueue_answer (s : State) (q : Nat) (f : Queue → Queue) : (s.modQueue q f).answer = s.answer := rfl

@[simp] theorem State.setPart_agenda (s : State) (p : Nat) (x : Part) : (s.setPart p x).agenda = s.agenda := rfl
@[simp] theorem State.setPart_iss (s : State) (p : Nat) (x : Part) : (s.setPart p x).iss = s.iss := rfl
@[simp] theorem State.setPart_nextId (s : State) (p : Nat) (x : Part) : (s.setPart p x).nextId = s.nextId := rfl
@[simp] theorem State.setPart_free (s : State) (p : Nat) (x : Part) : (s.setPart p x).free = s.free := rfl
@[simp] theorem State.setPart_powered (s : State) (p : Nat) (x : Part) : (s.setPart p x).powered = s.powered := rfl
@[simp] theorem State.setPart_clock (s : State) (p : Nat) (x : Part) : (s.setPart p x).clock = s.clock := rfl
@[simp] theorem State.setPart_cores (s : State) (p : Nat) (x : Part) : (s.setPart p x).cores = s.cores := rfl
@[simp] theorem State.setPart_threads (s : State) (p : Nat) (x : Part) : (s.setPart p x).threads = s.threads := rfl
@[simp] theorem State.setPart_groups (s : State) (p : Nat) (x : Part) : (s.setPart p x).groups = s.groups := rfl
@[simp] theorem State.setPart_clusters (s : State) (p : Nat) (x : Part) : (s.setPart p x).clusters = s.clusters := rfl
@[simp] theorem State.setPart_launches (s : State) (p : Nat) (x : Part) : (s.setPart p x).launches = s.launches := rfl
@[simp] theorem State.setPart_insts (s : State) (p : Nat) (x : Part) : (s.setPart p x).insts = s.insts := rfl
@[simp] theorem State.setPart_queues (s : State) (p : Nat) (x : Part) : (s.setPart p x).queues = s.queues := rfl
@[simp] theorem State.setPart_parts (s : State) (p : Nat) (x : Part) : (s.setPart p x).parts = tset p x s.parts := rfl
@[simp] theorem State.setPart_dies (s : State) (p : Nat) (x : Part) : (s.setPart p x).dies = s.dies := rfl
@[simp] theorem State.setPart_hbmStacks (s : State) (p : Nat) (x : Part) : (s.setPart p x).hbmStacks = s.hbmStacks := rfl
@[simp] theorem State.setPart_fw (s : State) (p : Nat) (x : Part) : (s.setPart p x).fw = s.fw := rfl
@[simp] theorem State.setPart_hbm (s : State) (p : Nat) (x : Part) : (s.setPart p x).hbm = s.hbm := rfl
@[simp] theorem State.setPart_bank (s : State) (p : Nat) (x : Part) : (s.setPart p x).bank = s.bank := rfl
@[simp] theorem State.setPart_host (s : State) (p : Nat) (x : Part) : (s.setPart p x).host = s.host := rfl
@[simp] theorem State.setPart_remote (s : State) (p : Nat) (x : Part) : (s.setPart p x).remote = s.remote := rfl
@[simp] theorem State.setPart_copies (s : State) (p : Nat) (x : Part) : (s.setPart p x).copies = s.copies := rfl
@[simp] theorem State.setPart_welts (s : State) (p : Nat) (x : Part) : (s.setPart p x).welts = s.welts := rfl
@[simp] theorem State.setPart_rounds (s : State) (p : Nat) (x : Part) : (s.setPart p x).rounds = s.rounds := rfl
@[simp] theorem State.setPart_syncFly (s : State) (p : Nat) (x : Part) : (s.setPart p x).syncFly = s.syncFly := rfl
@[simp] theorem State.setPart_syncReg (s : State) (p : Nat) (x : Part) : (s.setPart p x).syncReg = s.syncReg := rfl
@[simp] theorem State.setPart_rels (s : State) (p : Nat) (x : Part) : (s.setPart p x).rels = s.rels := rfl
@[simp] theorem State.setPart_pubs (s : State) (p : Nat) (x : Part) : (s.setPart p x).pubs = s.pubs := rfl
@[simp] theorem State.setPart_emits (s : State) (p : Nat) (x : Part) : (s.setPart p x).emits = s.emits := rfl
@[simp] theorem State.setPart_msix (s : State) (p : Nat) (x : Part) : (s.setPart p x).msix = s.msix := rfl
@[simp] theorem State.setPart_answer (s : State) (p : Nat) (x : Part) : (s.setPart p x).answer = s.answer := rfl

@[simp] theorem State.modPart_agenda (s : State) (p : Nat) (f : Part → Part) : (s.modPart p f).agenda = s.agenda := rfl
@[simp] theorem State.modPart_iss (s : State) (p : Nat) (f : Part → Part) : (s.modPart p f).iss = s.iss := rfl
@[simp] theorem State.modPart_nextId (s : State) (p : Nat) (f : Part → Part) : (s.modPart p f).nextId = s.nextId := rfl
@[simp] theorem State.modPart_free (s : State) (p : Nat) (f : Part → Part) : (s.modPart p f).free = s.free := rfl
@[simp] theorem State.modPart_powered (s : State) (p : Nat) (f : Part → Part) : (s.modPart p f).powered = s.powered := rfl
@[simp] theorem State.modPart_clock (s : State) (p : Nat) (f : Part → Part) : (s.modPart p f).clock = s.clock := rfl
@[simp] theorem State.modPart_cores (s : State) (p : Nat) (f : Part → Part) : (s.modPart p f).cores = s.cores := rfl
@[simp] theorem State.modPart_threads (s : State) (p : Nat) (f : Part → Part) : (s.modPart p f).threads = s.threads := rfl
@[simp] theorem State.modPart_groups (s : State) (p : Nat) (f : Part → Part) : (s.modPart p f).groups = s.groups := rfl
@[simp] theorem State.modPart_clusters (s : State) (p : Nat) (f : Part → Part) : (s.modPart p f).clusters = s.clusters := rfl
@[simp] theorem State.modPart_launches (s : State) (p : Nat) (f : Part → Part) : (s.modPart p f).launches = s.launches := rfl
@[simp] theorem State.modPart_insts (s : State) (p : Nat) (f : Part → Part) : (s.modPart p f).insts = s.insts := rfl
@[simp] theorem State.modPart_queues (s : State) (p : Nat) (f : Part → Part) : (s.modPart p f).queues = s.queues := rfl
@[simp] theorem State.modPart_parts (s : State) (p : Nat) (f : Part → Part) : (s.modPart p f).parts = tset p (f (s.part p)) s.parts := rfl
@[simp] theorem State.modPart_dies (s : State) (p : Nat) (f : Part → Part) : (s.modPart p f).dies = s.dies := rfl
@[simp] theorem State.modPart_hbmStacks (s : State) (p : Nat) (f : Part → Part) : (s.modPart p f).hbmStacks = s.hbmStacks := rfl
@[simp] theorem State.modPart_fw (s : State) (p : Nat) (f : Part → Part) : (s.modPart p f).fw = s.fw := rfl
@[simp] theorem State.modPart_hbm (s : State) (p : Nat) (f : Part → Part) : (s.modPart p f).hbm = s.hbm := rfl
@[simp] theorem State.modPart_bank (s : State) (p : Nat) (f : Part → Part) : (s.modPart p f).bank = s.bank := rfl
@[simp] theorem State.modPart_host (s : State) (p : Nat) (f : Part → Part) : (s.modPart p f).host = s.host := rfl
@[simp] theorem State.modPart_remote (s : State) (p : Nat) (f : Part → Part) : (s.modPart p f).remote = s.remote := rfl
@[simp] theorem State.modPart_copies (s : State) (p : Nat) (f : Part → Part) : (s.modPart p f).copies = s.copies := rfl
@[simp] theorem State.modPart_welts (s : State) (p : Nat) (f : Part → Part) : (s.modPart p f).welts = s.welts := rfl
@[simp] theorem State.modPart_rounds (s : State) (p : Nat) (f : Part → Part) : (s.modPart p f).rounds = s.rounds := rfl
@[simp] theorem State.modPart_syncFly (s : State) (p : Nat) (f : Part → Part) : (s.modPart p f).syncFly = s.syncFly := rfl
@[simp] theorem State.modPart_syncReg (s : State) (p : Nat) (f : Part → Part) : (s.modPart p f).syncReg = s.syncReg := rfl
@[simp] theorem State.modPart_rels (s : State) (p : Nat) (f : Part → Part) : (s.modPart p f).rels = s.rels := rfl
@[simp] theorem State.modPart_pubs (s : State) (p : Nat) (f : Part → Part) : (s.modPart p f).pubs = s.pubs := rfl
@[simp] theorem State.modPart_emits (s : State) (p : Nat) (f : Part → Part) : (s.modPart p f).emits = s.emits := rfl
@[simp] theorem State.modPart_msix (s : State) (p : Nat) (f : Part → Part) : (s.modPart p f).msix = s.msix := rfl
@[simp] theorem State.modPart_answer (s : State) (p : Nat) (f : Part → Part) : (s.modPart p f).answer = s.answer := rfl

@[simp] theorem State.setDie_agenda (s : State) (d : Nat) (x : Die) : (s.setDie d x).agenda = s.agenda := rfl
@[simp] theorem State.setDie_iss (s : State) (d : Nat) (x : Die) : (s.setDie d x).iss = s.iss := rfl
@[simp] theorem State.setDie_nextId (s : State) (d : Nat) (x : Die) : (s.setDie d x).nextId = s.nextId := rfl
@[simp] theorem State.setDie_free (s : State) (d : Nat) (x : Die) : (s.setDie d x).free = s.free := rfl
@[simp] theorem State.setDie_powered (s : State) (d : Nat) (x : Die) : (s.setDie d x).powered = s.powered := rfl
@[simp] theorem State.setDie_clock (s : State) (d : Nat) (x : Die) : (s.setDie d x).clock = s.clock := rfl
@[simp] theorem State.setDie_cores (s : State) (d : Nat) (x : Die) : (s.setDie d x).cores = s.cores := rfl
@[simp] theorem State.setDie_threads (s : State) (d : Nat) (x : Die) : (s.setDie d x).threads = s.threads := rfl
@[simp] theorem State.setDie_groups (s : State) (d : Nat) (x : Die) : (s.setDie d x).groups = s.groups := rfl
@[simp] theorem State.setDie_clusters (s : State) (d : Nat) (x : Die) : (s.setDie d x).clusters = s.clusters := rfl
@[simp] theorem State.setDie_launches (s : State) (d : Nat) (x : Die) : (s.setDie d x).launches = s.launches := rfl
@[simp] theorem State.setDie_insts (s : State) (d : Nat) (x : Die) : (s.setDie d x).insts = s.insts := rfl
@[simp] theorem State.setDie_queues (s : State) (d : Nat) (x : Die) : (s.setDie d x).queues = s.queues := rfl
@[simp] theorem State.setDie_parts (s : State) (d : Nat) (x : Die) : (s.setDie d x).parts = s.parts := rfl
@[simp] theorem State.setDie_dies (s : State) (d : Nat) (x : Die) : (s.setDie d x).dies = tset d x s.dies := rfl
@[simp] theorem State.setDie_hbmStacks (s : State) (d : Nat) (x : Die) : (s.setDie d x).hbmStacks = s.hbmStacks := rfl
@[simp] theorem State.setDie_fw (s : State) (d : Nat) (x : Die) : (s.setDie d x).fw = s.fw := rfl
@[simp] theorem State.setDie_hbm (s : State) (d : Nat) (x : Die) : (s.setDie d x).hbm = s.hbm := rfl
@[simp] theorem State.setDie_bank (s : State) (d : Nat) (x : Die) : (s.setDie d x).bank = s.bank := rfl
@[simp] theorem State.setDie_host (s : State) (d : Nat) (x : Die) : (s.setDie d x).host = s.host := rfl
@[simp] theorem State.setDie_remote (s : State) (d : Nat) (x : Die) : (s.setDie d x).remote = s.remote := rfl
@[simp] theorem State.setDie_copies (s : State) (d : Nat) (x : Die) : (s.setDie d x).copies = s.copies := rfl
@[simp] theorem State.setDie_welts (s : State) (d : Nat) (x : Die) : (s.setDie d x).welts = s.welts := rfl
@[simp] theorem State.setDie_rounds (s : State) (d : Nat) (x : Die) : (s.setDie d x).rounds = s.rounds := rfl
@[simp] theorem State.setDie_syncFly (s : State) (d : Nat) (x : Die) : (s.setDie d x).syncFly = s.syncFly := rfl
@[simp] theorem State.setDie_syncReg (s : State) (d : Nat) (x : Die) : (s.setDie d x).syncReg = s.syncReg := rfl
@[simp] theorem State.setDie_rels (s : State) (d : Nat) (x : Die) : (s.setDie d x).rels = s.rels := rfl
@[simp] theorem State.setDie_pubs (s : State) (d : Nat) (x : Die) : (s.setDie d x).pubs = s.pubs := rfl
@[simp] theorem State.setDie_emits (s : State) (d : Nat) (x : Die) : (s.setDie d x).emits = s.emits := rfl
@[simp] theorem State.setDie_msix (s : State) (d : Nat) (x : Die) : (s.setDie d x).msix = s.msix := rfl
@[simp] theorem State.setDie_answer (s : State) (d : Nat) (x : Die) : (s.setDie d x).answer = s.answer := rfl

@[simp] theorem State.modDie_agenda (s : State) (d : Nat) (f : Die → Die) : (s.modDie d f).agenda = s.agenda := rfl
@[simp] theorem State.modDie_iss (s : State) (d : Nat) (f : Die → Die) : (s.modDie d f).iss = s.iss := rfl
@[simp] theorem State.modDie_nextId (s : State) (d : Nat) (f : Die → Die) : (s.modDie d f).nextId = s.nextId := rfl
@[simp] theorem State.modDie_free (s : State) (d : Nat) (f : Die → Die) : (s.modDie d f).free = s.free := rfl
@[simp] theorem State.modDie_powered (s : State) (d : Nat) (f : Die → Die) : (s.modDie d f).powered = s.powered := rfl
@[simp] theorem State.modDie_clock (s : State) (d : Nat) (f : Die → Die) : (s.modDie d f).clock = s.clock := rfl
@[simp] theorem State.modDie_cores (s : State) (d : Nat) (f : Die → Die) : (s.modDie d f).cores = s.cores := rfl
@[simp] theorem State.modDie_threads (s : State) (d : Nat) (f : Die → Die) : (s.modDie d f).threads = s.threads := rfl
@[simp] theorem State.modDie_groups (s : State) (d : Nat) (f : Die → Die) : (s.modDie d f).groups = s.groups := rfl
@[simp] theorem State.modDie_clusters (s : State) (d : Nat) (f : Die → Die) : (s.modDie d f).clusters = s.clusters := rfl
@[simp] theorem State.modDie_launches (s : State) (d : Nat) (f : Die → Die) : (s.modDie d f).launches = s.launches := rfl
@[simp] theorem State.modDie_insts (s : State) (d : Nat) (f : Die → Die) : (s.modDie d f).insts = s.insts := rfl
@[simp] theorem State.modDie_queues (s : State) (d : Nat) (f : Die → Die) : (s.modDie d f).queues = s.queues := rfl
@[simp] theorem State.modDie_parts (s : State) (d : Nat) (f : Die → Die) : (s.modDie d f).parts = s.parts := rfl
@[simp] theorem State.modDie_dies (s : State) (d : Nat) (f : Die → Die) : (s.modDie d f).dies = tset d (f (s.die d)) s.dies := rfl
@[simp] theorem State.modDie_hbmStacks (s : State) (d : Nat) (f : Die → Die) : (s.modDie d f).hbmStacks = s.hbmStacks := rfl
@[simp] theorem State.modDie_fw (s : State) (d : Nat) (f : Die → Die) : (s.modDie d f).fw = s.fw := rfl
@[simp] theorem State.modDie_hbm (s : State) (d : Nat) (f : Die → Die) : (s.modDie d f).hbm = s.hbm := rfl
@[simp] theorem State.modDie_bank (s : State) (d : Nat) (f : Die → Die) : (s.modDie d f).bank = s.bank := rfl
@[simp] theorem State.modDie_host (s : State) (d : Nat) (f : Die → Die) : (s.modDie d f).host = s.host := rfl
@[simp] theorem State.modDie_remote (s : State) (d : Nat) (f : Die → Die) : (s.modDie d f).remote = s.remote := rfl
@[simp] theorem State.modDie_copies (s : State) (d : Nat) (f : Die → Die) : (s.modDie d f).copies = s.copies := rfl
@[simp] theorem State.modDie_welts (s : State) (d : Nat) (f : Die → Die) : (s.modDie d f).welts = s.welts := rfl
@[simp] theorem State.modDie_rounds (s : State) (d : Nat) (f : Die → Die) : (s.modDie d f).rounds = s.rounds := rfl
@[simp] theorem State.modDie_syncFly (s : State) (d : Nat) (f : Die → Die) : (s.modDie d f).syncFly = s.syncFly := rfl
@[simp] theorem State.modDie_syncReg (s : State) (d : Nat) (f : Die → Die) : (s.modDie d f).syncReg = s.syncReg := rfl
@[simp] theorem State.modDie_rels (s : State) (d : Nat) (f : Die → Die) : (s.modDie d f).rels = s.rels := rfl
@[simp] theorem State.modDie_pubs (s : State) (d : Nat) (f : Die → Die) : (s.modDie d f).pubs = s.pubs := rfl
@[simp] theorem State.modDie_emits (s : State) (d : Nat) (f : Die → Die) : (s.modDie d f).emits = s.emits := rfl
@[simp] theorem State.modDie_msix (s : State) (d : Nat) (f : Die → Die) : (s.modDie d f).msix = s.msix := rfl
@[simp] theorem State.modDie_answer (s : State) (d : Nat) (f : Die → Die) : (s.modDie d f).answer = s.answer := rfl

@[simp] theorem State.modStack_agenda (s : State) (k : Nat) (f : Stack → Stack) : (s.modStack k f).agenda = s.agenda := rfl
@[simp] theorem State.modStack_iss (s : State) (k : Nat) (f : Stack → Stack) : (s.modStack k f).iss = s.iss := rfl
@[simp] theorem State.modStack_nextId (s : State) (k : Nat) (f : Stack → Stack) : (s.modStack k f).nextId = s.nextId := rfl
@[simp] theorem State.modStack_free (s : State) (k : Nat) (f : Stack → Stack) : (s.modStack k f).free = s.free := rfl
@[simp] theorem State.modStack_powered (s : State) (k : Nat) (f : Stack → Stack) : (s.modStack k f).powered = s.powered := rfl
@[simp] theorem State.modStack_clock (s : State) (k : Nat) (f : Stack → Stack) : (s.modStack k f).clock = s.clock := rfl
@[simp] theorem State.modStack_cores (s : State) (k : Nat) (f : Stack → Stack) : (s.modStack k f).cores = s.cores := rfl
@[simp] theorem State.modStack_threads (s : State) (k : Nat) (f : Stack → Stack) : (s.modStack k f).threads = s.threads := rfl
@[simp] theorem State.modStack_groups (s : State) (k : Nat) (f : Stack → Stack) : (s.modStack k f).groups = s.groups := rfl
@[simp] theorem State.modStack_clusters (s : State) (k : Nat) (f : Stack → Stack) : (s.modStack k f).clusters = s.clusters := rfl
@[simp] theorem State.modStack_launches (s : State) (k : Nat) (f : Stack → Stack) : (s.modStack k f).launches = s.launches := rfl
@[simp] theorem State.modStack_insts (s : State) (k : Nat) (f : Stack → Stack) : (s.modStack k f).insts = s.insts := rfl
@[simp] theorem State.modStack_queues (s : State) (k : Nat) (f : Stack → Stack) : (s.modStack k f).queues = s.queues := rfl
@[simp] theorem State.modStack_parts (s : State) (k : Nat) (f : Stack → Stack) : (s.modStack k f).parts = s.parts := rfl
@[simp] theorem State.modStack_dies (s : State) (k : Nat) (f : Stack → Stack) : (s.modStack k f).dies = s.dies := rfl
@[simp] theorem State.modStack_hbmStacks (s : State) (k : Nat) (f : Stack → Stack) : (s.modStack k f).hbmStacks = tset k (f (s.stack k)) s.hbmStacks := rfl
@[simp] theorem State.modStack_fw (s : State) (k : Nat) (f : Stack → Stack) : (s.modStack k f).fw = s.fw := rfl
@[simp] theorem State.modStack_hbm (s : State) (k : Nat) (f : Stack → Stack) : (s.modStack k f).hbm = s.hbm := rfl
@[simp] theorem State.modStack_bank (s : State) (k : Nat) (f : Stack → Stack) : (s.modStack k f).bank = s.bank := rfl
@[simp] theorem State.modStack_host (s : State) (k : Nat) (f : Stack → Stack) : (s.modStack k f).host = s.host := rfl
@[simp] theorem State.modStack_remote (s : State) (k : Nat) (f : Stack → Stack) : (s.modStack k f).remote = s.remote := rfl
@[simp] theorem State.modStack_copies (s : State) (k : Nat) (f : Stack → Stack) : (s.modStack k f).copies = s.copies := rfl
@[simp] theorem State.modStack_welts (s : State) (k : Nat) (f : Stack → Stack) : (s.modStack k f).welts = s.welts := rfl
@[simp] theorem State.modStack_rounds (s : State) (k : Nat) (f : Stack → Stack) : (s.modStack k f).rounds = s.rounds := rfl
@[simp] theorem State.modStack_syncFly (s : State) (k : Nat) (f : Stack → Stack) : (s.modStack k f).syncFly = s.syncFly := rfl
@[simp] theorem State.modStack_syncReg (s : State) (k : Nat) (f : Stack → Stack) : (s.modStack k f).syncReg = s.syncReg := rfl
@[simp] theorem State.modStack_rels (s : State) (k : Nat) (f : Stack → Stack) : (s.modStack k f).rels = s.rels := rfl
@[simp] theorem State.modStack_pubs (s : State) (k : Nat) (f : Stack → Stack) : (s.modStack k f).pubs = s.pubs := rfl
@[simp] theorem State.modStack_emits (s : State) (k : Nat) (f : Stack → Stack) : (s.modStack k f).emits = s.emits := rfl
@[simp] theorem State.modStack_msix (s : State) (k : Nat) (f : Stack → Stack) : (s.modStack k f).msix = s.msix := rfl
@[simp] theorem State.modStack_answer (s : State) (k : Nat) (f : Stack → Stack) : (s.modStack k f).answer = s.answer := rfl

@[simp] theorem gcEvent_agenda (s : State) (ev t n : Nat) : (gcEvent s ev t n).agenda = s.agenda := rfl
@[simp] theorem gcEvent_iss (s : State) (ev t n : Nat) : (gcEvent s ev t n).iss = s.iss := rfl
@[simp] theorem gcEvent_nextId (s : State) (ev t n : Nat) : (gcEvent s ev t n).nextId = s.nextId := rfl
@[simp] theorem gcEvent_free (s : State) (ev t n : Nat) : (gcEvent s ev t n).free = s.free := rfl
@[simp] theorem gcEvent_powered (s : State) (ev t n : Nat) : (gcEvent s ev t n).powered = s.powered := rfl
@[simp] theorem gcEvent_clock (s : State) (ev t n : Nat) : (gcEvent s ev t n).clock = s.clock := rfl
@[simp] theorem gcEvent_cores (s : State) (ev t n : Nat) : (gcEvent s ev t n).cores = s.cores := rfl
@[simp] theorem gcEvent_threads (s : State) (ev t n : Nat) : (gcEvent s ev t n).threads = s.threads := rfl
@[simp] theorem gcEvent_clusters (s : State) (ev t n : Nat) : (gcEvent s ev t n).clusters = s.clusters := rfl
@[simp] theorem gcEvent_launches (s : State) (ev t n : Nat) : (gcEvent s ev t n).launches = s.launches := rfl
@[simp] theorem gcEvent_insts (s : State) (ev t n : Nat) : (gcEvent s ev t n).insts = s.insts := rfl
@[simp] theorem gcEvent_queues (s : State) (ev t n : Nat) : (gcEvent s ev t n).queues = s.queues := rfl
@[simp] theorem gcEvent_parts (s : State) (ev t n : Nat) : (gcEvent s ev t n).parts = s.parts := rfl
@[simp] theorem gcEvent_dies (s : State) (ev t n : Nat) : (gcEvent s ev t n).dies = s.dies := rfl
@[simp] theorem gcEvent_hbmStacks (s : State) (ev t n : Nat) : (gcEvent s ev t n).hbmStacks = s.hbmStacks := rfl
@[simp] theorem gcEvent_fw (s : State) (ev t n : Nat) : (gcEvent s ev t n).fw = s.fw := rfl
@[simp] theorem gcEvent_hbm (s : State) (ev t n : Nat) : (gcEvent s ev t n).hbm = s.hbm := rfl
@[simp] theorem gcEvent_bank (s : State) (ev t n : Nat) : (gcEvent s ev t n).bank = s.bank := rfl
@[simp] theorem gcEvent_host (s : State) (ev t n : Nat) : (gcEvent s ev t n).host = s.host := rfl
@[simp] theorem gcEvent_remote (s : State) (ev t n : Nat) : (gcEvent s ev t n).remote = s.remote := rfl
@[simp] theorem gcEvent_copies (s : State) (ev t n : Nat) : (gcEvent s ev t n).copies = s.copies := rfl
@[simp] theorem gcEvent_welts (s : State) (ev t n : Nat) : (gcEvent s ev t n).welts = s.welts := rfl
@[simp] theorem gcEvent_rounds (s : State) (ev t n : Nat) : (gcEvent s ev t n).rounds = s.rounds := rfl
@[simp] theorem gcEvent_syncFly (s : State) (ev t n : Nat) : (gcEvent s ev t n).syncFly = s.syncFly := rfl
@[simp] theorem gcEvent_syncReg (s : State) (ev t n : Nat) : (gcEvent s ev t n).syncReg = s.syncReg := rfl
@[simp] theorem gcEvent_rels (s : State) (ev t n : Nat) : (gcEvent s ev t n).rels = s.rels := rfl
@[simp] theorem gcEvent_pubs (s : State) (ev t n : Nat) : (gcEvent s ev t n).pubs = s.pubs := rfl
@[simp] theorem gcEvent_emits (s : State) (ev t n : Nat) : (gcEvent s ev t n).emits = s.emits := rfl
@[simp] theorem gcEvent_msix (s : State) (ev t n : Nat) : (gcEvent s ev t n).msix = s.msix := rfl
@[simp] theorem gcEvent_answer (s : State) (ev t n : Nat) : (gcEvent s ev t n).answer = s.answer := rfl

@[simp] theorem freshId_agenda (s : State) : (freshId s).2.agenda = s.agenda := rfl
@[simp] theorem freshId_iss (s : State) : (freshId s).2.iss = s.iss := rfl
@[simp] theorem freshId_nextId (s : State) : (freshId s).2.nextId = s.nextId + 1 := rfl
@[simp] theorem freshId_free (s : State) : (freshId s).2.free = s.free := rfl
@[simp] theorem freshId_powered (s : State) : (freshId s).2.powered = s.powered := rfl
@[simp] theorem freshId_clock (s : State) : (freshId s).2.clock = s.clock := rfl
@[simp] theorem freshId_cores (s : State) : (freshId s).2.cores = s.cores := rfl
@[simp] theorem freshId_threads (s : State) : (freshId s).2.threads = s.threads := rfl
@[simp] theorem freshId_groups (s : State) : (freshId s).2.groups = s.groups := rfl
@[simp] theorem freshId_clusters (s : State) : (freshId s).2.clusters = s.clusters := rfl
@[simp] theorem freshId_launches (s : State) : (freshId s).2.launches = s.launches := rfl
@[simp] theorem freshId_insts (s : State) : (freshId s).2.insts = s.insts := rfl
@[simp] theorem freshId_queues (s : State) : (freshId s).2.queues = s.queues := rfl
@[simp] theorem freshId_parts (s : State) : (freshId s).2.parts = s.parts := rfl
@[simp] theorem freshId_dies (s : State) : (freshId s).2.dies = s.dies := rfl
@[simp] theorem freshId_hbmStacks (s : State) : (freshId s).2.hbmStacks = s.hbmStacks := rfl
@[simp] theorem freshId_fw (s : State) : (freshId s).2.fw = s.fw := rfl
@[simp] theorem freshId_hbm (s : State) : (freshId s).2.hbm = s.hbm := rfl
@[simp] theorem freshId_bank (s : State) : (freshId s).2.bank = s.bank := rfl
@[simp] theorem freshId_host (s : State) : (freshId s).2.host = s.host := rfl
@[simp] theorem freshId_remote (s : State) : (freshId s).2.remote = s.remote := rfl
@[simp] theorem freshId_copies (s : State) : (freshId s).2.copies = s.copies := rfl
@[simp] theorem freshId_welts (s : State) : (freshId s).2.welts = s.welts := rfl
@[simp] theorem freshId_rounds (s : State) : (freshId s).2.rounds = s.rounds := rfl
@[simp] theorem freshId_syncFly (s : State) : (freshId s).2.syncFly = s.syncFly := rfl
@[simp] theorem freshId_syncReg (s : State) : (freshId s).2.syncReg = s.syncReg := rfl
@[simp] theorem freshId_rels (s : State) : (freshId s).2.rels = s.rels := rfl
@[simp] theorem freshId_pubs (s : State) : (freshId s).2.pubs = s.pubs := rfl
@[simp] theorem freshId_emits (s : State) : (freshId s).2.emits = s.emits := rfl
@[simp] theorem freshId_msix (s : State) : (freshId s).2.msix = s.msix := rfl
@[simp] theorem freshId_answer (s : State) : (freshId s).2.answer = s.answer := rfl

@[simp] theorem freeValue_agenda (s : State) : (freeValue s).2.agenda = s.agenda := rfl
@[simp] theorem freeValue_iss (s : State) : (freeValue s).2.iss = s.iss := rfl
@[simp] theorem freeValue_nextId (s : State) : (freeValue s).2.nextId = s.nextId := rfl
@[simp] theorem freeValue_free (s : State) : (freeValue s).2.free = s.free + 1 := rfl
@[simp] theorem freeValue_powered (s : State) : (freeValue s).2.powered = s.powered := rfl
@[simp] theorem freeValue_clock (s : State) : (freeValue s).2.clock = s.clock := rfl
@[simp] theorem freeValue_cores (s : State) : (freeValue s).2.cores = s.cores := rfl
@[simp] theorem freeValue_threads (s : State) : (freeValue s).2.threads = s.threads := rfl
@[simp] theorem freeValue_groups (s : State) : (freeValue s).2.groups = s.groups := rfl
@[simp] theorem freeValue_clusters (s : State) : (freeValue s).2.clusters = s.clusters := rfl
@[simp] theorem freeValue_launches (s : State) : (freeValue s).2.launches = s.launches := rfl
@[simp] theorem freeValue_insts (s : State) : (freeValue s).2.insts = s.insts := rfl
@[simp] theorem freeValue_queues (s : State) : (freeValue s).2.queues = s.queues := rfl
@[simp] theorem freeValue_parts (s : State) : (freeValue s).2.parts = s.parts := rfl
@[simp] theorem freeValue_dies (s : State) : (freeValue s).2.dies = s.dies := rfl
@[simp] theorem freeValue_hbmStacks (s : State) : (freeValue s).2.hbmStacks = s.hbmStacks := rfl
@[simp] theorem freeValue_fw (s : State) : (freeValue s).2.fw = s.fw := rfl
@[simp] theorem freeValue_hbm (s : State) : (freeValue s).2.hbm = s.hbm := rfl
@[simp] theorem freeValue_bank (s : State) : (freeValue s).2.bank = s.bank := rfl
@[simp] theorem freeValue_host (s : State) : (freeValue s).2.host = s.host := rfl
@[simp] theorem freeValue_remote (s : State) : (freeValue s).2.remote = s.remote := rfl
@[simp] theorem freeValue_copies (s : State) : (freeValue s).2.copies = s.copies := rfl
@[simp] theorem freeValue_welts (s : State) : (freeValue s).2.welts = s.welts := rfl
@[simp] theorem freeValue_rounds (s : State) : (freeValue s).2.rounds = s.rounds := rfl
@[simp] theorem freeValue_syncFly (s : State) : (freeValue s).2.syncFly = s.syncFly := rfl
@[simp] theorem freeValue_syncReg (s : State) : (freeValue s).2.syncReg = s.syncReg := rfl
@[simp] theorem freeValue_rels (s : State) : (freeValue s).2.rels = s.rels := rfl
@[simp] theorem freeValue_pubs (s : State) : (freeValue s).2.pubs = s.pubs := rfl
@[simp] theorem freeValue_emits (s : State) : (freeValue s).2.emits = s.emits := rfl
@[simp] theorem freeValue_msix (s : State) : (freeValue s).2.msix = s.msix := rfl
@[simp] theorem freeValue_answer (s : State) : (freeValue s).2.answer = s.answer := rfl

end Sys2Proof.Machine
end

