-- ==== Sys2Proof/Laws/Tables.lean ====
section
/-! SUPPORT. Reading a table after it is changed, and the canonical form of memories: every memory operation keeps it. -/

namespace Sys2Proof.Machine

/-! ### Tables -/

theorem tfind_tset_self {α : Type} (x : Nat) (y : α) (t : Tbl α) : tfind (tset x y t) x = some y := by
  induction t with
  | nil => simp [tset, tfind]
  | cons p t ih =>
    obtain ⟨k, v⟩ := p
    unfold tset
    split_ifs with h1 h2
    · simp [tfind]
    · simp [tfind]
    · simp [tfind, h1, h2, ih]

theorem tfind_tset_ne {α : Type} {x z : Nat} (h : z ≠ x) (y : α) (t : Tbl α) : tfind (tset x y t) z = tfind t z := by
  induction t with
  | nil => simp [tset, tfind, h]
  | cons p t ih =>
    obtain ⟨k, v⟩ := p
    unfold tset
    split_ifs with h1 h2
    · subst h1; simp [tfind, h]
    · simp only [tfind, h, if_false]
      split_ifs <;> first | rfl | omega
    · simp only [tfind, ih]

@[simp] theorem tfind_tset {α : Type} (x z : Nat) (y : α) (t : Tbl α) :
    tfind (tset x y t) z = if z = x then some y else tfind t z := by
  split_ifs with h
  · rw [h, tfind_tset_self]
  · rw [tfind_tset_ne h]

@[simp] theorem tget_tset {α : Type} (d : α) (x z : Nat) (y : α) (t : Tbl α) :
    tget d (tset x y t) z = if z = x then y else tget d t z := by
  unfold tget
  rw [tfind_tset]
  split_ifs <;> rfl

@[simp] theorem tfind_tmod {α : Type} (x z : Nat) (f : α → α) (t : Tbl α) :
    tfind (tmod x f t) z = if z = x then (tfind t x).map f else tfind t z := by
  unfold tmod
  split
  · next v h => simp only [tfind_tset, h, Option.map_some]
  · next h => split_ifs with hz <;> simp [h, hz]

@[simp] theorem tfind_tmap {α : Type} (z : Nat) (f : Nat → α → α) (t : Tbl α) :
    tfind (tmap f t) z = (tfind t z).map (f z) := by
  unfold tmap
  induction t with
  | nil => rfl
  | cons p t ih =>
    obtain ⟨k, v⟩ := p
    simp only [List.map_cons, tfind]
    split_ifs with h1 h2
    · subst h1; rfl
    · rfl
    · exact ih

theorem tset_keys {α : Type} (x : Nat) (y : α) (t : Tbl α) {p : Nat × α} (h : p ∈ tset x y t) : p = (x, y) ∨ p ∈ t := by
  induction t with
  | nil => simp only [tset, List.mem_singleton] at h; exact .inl h
  | cons q t ih =>
    obtain ⟨k, v⟩ := q
    unfold tset at h
    split_ifs at h
    · rcases List.mem_cons.1 h with h | h
      · exact .inl h
      · exact .inr (List.mem_cons_of_mem _ h)
    · rcases List.mem_cons.1 h with h | h
      · exact .inl h
      · exact .inr h
    · rcases List.mem_cons.1 h with h | h
      · exact .inr (h ▸ List.mem_cons_self ..)
      · exact (ih h).imp id (List.mem_cons_of_mem _)

theorem Rising.tset {α : Type} {t : Tbl α} (h : Rising t) (x : Nat) (y : α) : Rising (tset x y t) := by
  induction t with
  | nil => exact List.pairwise_singleton _ _
  | cons q t ih =>
    obtain ⟨k, v⟩ := q
    have hk : ∀ b ∈ t, k < b.1 := fun b hb => List.rel_of_pairwise_cons h hb
    unfold Machine.tset
    split_ifs with h1 h2
    · subst h1; exact List.pairwise_cons.2 ⟨fun b hb => hk _ hb, h.of_cons⟩
    · refine List.pairwise_cons.2 ⟨fun b hb => ?_, h⟩
      rcases List.mem_cons.1 hb with rfl | hb
      · exact h2
      · exact Nat.lt_trans h2 (hk _ hb)
    · refine List.pairwise_cons.2 ⟨fun b hb => ?_, ih h.of_cons⟩
      rcases tset_keys x y t hb with rfl | hb
      · show k < x; omega
      · exact hk _ hb

theorem tdel_sublist {α : Type} (x : Nat) (t : Tbl α) : (tdel x t).Sublist t := by
  induction t with
  | nil => exact List.Sublist.refl _
  | cons q t ih =>
    obtain ⟨k, v⟩ := q
    unfold tdel
    split_ifs
    · exact List.sublist_cons_self _ _
    · exact List.Sublist.refl _
    · exact ih.cons_cons _

theorem Rising.sublist {α : Type} {t u : Tbl α} (h : Rising t) (s : u.Sublist t) : Rising u := List.Pairwise.sublist s h

theorem tfind_none_of_lt {α : Type} {t : Tbl α} {z : Nat} (h : ∀ p ∈ t, z < p.1) : tfind t z = none := by
  cases t with
  | nil => rfl
  | cons q t =>
    have := h q (List.mem_cons_self ..)
    obtain ⟨k, v⟩ := q
    simp only [tfind]
    split_ifs with h1
    · simp only at this; omega
    · rfl

theorem tfind_tdel {α : Type} {t : Tbl α} (h : Rising t) (x z : Nat) :
    tfind (tdel x t) z = if z = x then none else tfind t z := by
  induction t with
  | nil => simp [tdel, tfind]
  | cons q t ih =>
    obtain ⟨k, v⟩ := q
    have hk : ∀ b ∈ t, k < b.1 := fun b hb => List.rel_of_pairwise_cons h hb
    unfold tdel
    by_cases h1 : x = k
    · subst h1
      rw [if_pos rfl]
      by_cases h2 : z = x
      · rw [if_pos h2, h2]; exact tfind_none_of_lt hk
      · rw [if_neg h2]
        simp only [tfind, h2, if_false]
        split_ifs with h5
        · exact tfind_none_of_lt (fun p hp => by have := hk p hp; omega)
        · rfl
    · rw [if_neg h1]
      by_cases h3 : x < k
      · rw [if_pos h3]
        by_cases h2 : z = x
        · rw [if_pos h2, h2]; simp [tfind, h1, h3]
        · rw [if_neg h2]
      · rw [if_neg h3]
        simp only [tfind]
        rw [ih h.of_cons]
        split_ifs <;> first | rfl | omega

/-! ### Memories -/

theorem Mem.wf_iff (m : Mem) : m.wf = true ↔ Rising m ∧ ∀ c ∈ m, c.2 ≠ 0 := by
  have hr : Mem.rising m = true ↔ Rising m := by
    induction m with
    | nil => exact ⟨fun _ => List.Pairwise.nil, fun _ => rfl⟩
    | cons c t ih =>
      cases t with
      | nil => exact ⟨fun _ => List.pairwise_singleton _ _, fun _ => rfl⟩
      | cons d t =>
        obtain ⟨a, x⟩ := c
        obtain ⟨b, y⟩ := d
        simp only [Mem.rising, Bool.and_eq_true, decide_eq_true_eq, ih]
        constructor
        · rintro ⟨h1, h2⟩
          refine List.pairwise_cons.2 ⟨fun p hp => ?_, h2⟩
          rcases List.mem_cons.1 hp with rfl | hp
          · exact h1
          · exact Nat.lt_trans h1 (List.rel_of_pairwise_cons h2 hp)
        · intro h
          exact ⟨List.rel_of_pairwise_cons h (List.mem_cons_self ..), h.of_cons⟩
  simp only [Mem.wf, Bool.and_eq_true, hr, List.all_eq_true, bne_iff_ne]

theorem Mem.wf_nil : Mem.wf [] = true := rfl

theorem Mem.wf_mset {m : Mem} (h : m.wf = true) (a : Nat) (b : Byte) : (mset m a b).wf = true := by
  rw [Mem.wf_iff] at h ⊢
  unfold mset
  split_ifs with hb
  · exact ⟨h.1.sublist (tdel_sublist a m), fun c hc => h.2 c ((tdel_sublist a m).subset hc)⟩
  · refine ⟨h.1.tset a b, fun c hc => ?_⟩
    rcases tset_keys a b m hc with rfl | hc
    · exact hb
    · exact h.2 c hc

theorem Mem.wf_msets {m : Mem} (h : m.wf = true) (a : Nat) (bs : List Byte) : (msets m a bs).wf = true := by
  induction bs generalizing m a with
  | nil => exact h
  | cons b bs ih => exact ih (Mem.wf_mset h a b) (a + 1)

theorem Mem.wf_filter {m : Mem} (h : m.wf = true) (f : Host.Cell → Bool) : Mem.wf (m.filter f) = true := by
  rw [Mem.wf_iff] at h ⊢
  exact ⟨h.1.sublist List.filter_sublist, fun c hc => h.2 c (List.mem_of_mem_filter hc)⟩

theorem Mem.wf_mclear {m : Mem} (h : m.wf = true) (a n : Nat) : (mclear m a n).wf = true := Mem.wf_filter h _

theorem Mem.wf_tkeep {m : Mem} (h : m.wf = true) (f : Nat → Byte → Bool) : Mem.wf (tkeep f m) = true := Mem.wf_filter h _

/-- The byte written is the byte read, and every other byte is unchanged. -/
theorem mget_mset {m : Mem} (h : m.wf = true) (a x : Nat) (b : Byte) :
    mget (mset m a b) x = if x = a then b else mget m x := by
  rw [Mem.wf_iff] at h
  unfold mget mset
  split_ifs with hb hx hx
  · rw [tfind_tdel h.1, if_pos hx, hb]; rfl
  · rw [tfind_tdel h.1, if_neg hx]
  · rw [tfind_tset, if_pos hx]; rfl
  · rw [tfind_tset, if_neg hx]

theorem mget_msets {m : Mem} (h : m.wf = true) (a x : Nat) (bs : List Byte) :
    mget (msets m a bs) x = if a ≤ x ∧ x < a + bs.length then bs.getD (x - a) 0 else mget m x := by
  induction bs generalizing m a with
  | nil => simp only [msets, List.length_nil]; rw [if_neg (by omega)]
  | cons b bs ih =>
    simp only [msets, List.length_cons]
    rw [ih (Mem.wf_mset h a b), mget_mset h]
    by_cases h1 : x = a
    · subst h1; rw [if_neg (by omega), if_pos (by omega)]; simp
    · split_ifs with h2 h3 h3
      · obtain ⟨k, hk⟩ : ∃ k, x - a = k + 1 := ⟨x - a - 1, by omega⟩
        rw [show x - (a + 1) = k by omega, hk, List.getD_cons_succ]
      · omega
      · omega
      · rfl

theorem mgets_length (m : Mem) (a n : Nat) : (mgets m a n).length = n := by
  induction n generalizing a with
  | zero => rfl
  | succ n ih => simp [mgets, ih]

theorem mget_mclear {m : Mem} (h : m.wf = true) (a n x : Nat) :
    mget (mclear m a n) x = if a ≤ x ∧ x < a + n then 0 else mget m x := by
  rw [Mem.wf_iff] at h
  have key : ∀ t : Mem, Rising t → tfind (mclear t a n) x = if a ≤ x ∧ x < a + n then none else tfind t x := by
    intro t ht
    induction t with
    | nil => simp [mclear, tfind]
    | cons c t ih =>
      obtain ⟨k, v⟩ := c
      have ih := ih ht.of_cons
      have hk : ∀ p ∈ t, k < p.1 := fun p hp => List.rel_of_pairwise_cons ht hp
      unfold mclear at ih ⊢
      rw [List.filter_cons]
      split_ifs with h1 h2 h2
      · simp only [tfind]
        simp only [decide_eq_true_eq, Bool.or_eq_true] at h1
        rw [if_neg (by omega), ih, if_pos h2]; simp
      · simp only [tfind, ih, if_neg h2]
      · rw [ih, if_pos h2]
      · simp only [Bool.or_eq_true, decide_eq_true_eq] at h1
        rw [ih, if_neg h2]
        simp only [tfind]
        rw [if_neg (by omega)]
        split_ifs with h3
        · exact tfind_none_of_lt (fun p hp => by have := hk p hp; omega)
        · rfl
  unfold mget
  rw [key m h.1]
  split_ifs <;> rfl

end Sys2Proof.Machine
end

