-- ==== Sys2Proof/Laws/Lanes.lean ====
section
/-! SUPPORT. The driver of an instruction: what running the threads of a PC group one after another does, said once. -/

namespace Sys2Proof.Machine

/-! ### Units read after an update -/

theorem thread_modThread (s : State) (t u : Nat) (f : Thread → Thread) (h : (tfind s.threads t).isSome = true) :
    (s.modThread t f).thread u = if u = t then f (s.thread t) else s.thread u := by
  obtain ⟨x, hx⟩ := Option.isSome_iff_exists.1 h
  unfold State.thread
  rw [State.modThread_threads, tfind_tmod]
  split_ifs with hu <;> simp [hx]

theorem listed_modThread (s : State) (t u : Nat) (f : Thread → Thread) :
    (tfind (s.modThread t f).threads u).isSome = (tfind s.threads u).isSome := by
  rw [State.modThread_threads, tfind_tmod]
  split_ifs with hu <;> simp [hu]

theorem group_modGroup (s : State) (g u : Nat) (f : Group → Group) (h : (tfind s.groups g).isSome = true) :
    (s.modGroup g f).group u = if u = g then f (s.group g) else s.group u := by
  obtain ⟨x, hx⟩ := Option.isSome_iff_exists.1 h
  unfold State.group
  rw [State.modGroup_groups, tfind_tmod]
  split_ifs with hu <;> simp [hx]

theorem placed_modGroup (s : State) (g u : Nat) (f : Group → Group) :
    (tfind (s.modGroup g f).groups u).isSome = (tfind s.groups u).isSome := by
  rw [State.modGroup_groups, tfind_tmod]
  split_ifs with hu <;> simp [hu]

theorem core_modCore (s : State) (c u : Nat) (f : Core → Core) :
    (s.modCore c f).core u = if u = c then f (s.core c) else s.core u := by
  show (tfind (tset c (f (s.core c)) s.cores) u).getD {} = _
  rw [tfind_tset]
  split_ifs with h <;> rfl

/-! ### Counting an event -/

theorem gcEvent_core (s : State) (ev t n c : Nat) : (gcEvent s ev t n).core c = s.core c := rfl
theorem gcEvent_thread (s : State) (ev t n u : Nat) : (gcEvent s ev t n).thread u = s.thread u := rfl

/-- What an event makes of a group's counters. -/
def gcStep (s : State) (ev t n gk : Nat) (g : Group) : Group :=
  if g.core == coreOfThread t then
    { g with gc := g.gc.map (fun c => if gcCounts s gk g c ev t then { c with value := c.value + BitVec.ofNat 64 n } else c) }
  else g

theorem gcEvent_groups (s : State) (ev t n : Nat) : (gcEvent s ev t n).groups = tmap (gcStep s ev t n) s.groups := rfl

/-- Only group counters change. -/
theorem gcEvent_group (s : State) (ev t n g : Nat) :
    (gcEvent s ev t n).group g = { s.group g with gc := ((gcEvent s ev t n).group g).gc } := by
  unfold State.group
  rw [gcEvent_groups, tfind_tmap]
  cases tfind s.groups g with
  | none => rfl
  | some x => simp only [Option.map_some, Option.getD_some, gcStep]; split_ifs <;> rfl

theorem gcEvent_listed (s : State) (ev t n g : Nat) :
    (tfind (gcEvent s ev t n).groups g).isSome = (tfind s.groups g).isSome := by
  rw [gcEvent_groups, tfind_tmap, Option.isSome_map]

/-! ### A thread's turn -/

/-- From `s` to `s'` thread `t` becomes `th`, the k registers of its group become `ks`, and nothing else of what claims speak of
changes. -/
structure Turned (s s' : State) (t : Nat) (th : Thread) (ks : Nat → Tbl Word) : Prop where
  outer : outerState s' = outerState s
  cores : ∀ c, coreBody (s'.core c) = coreBody (s.core c)
  groups : ∀ g, s'.group g = { s.group g with gc := (s'.group g).gc, k := ks g }
  threads : ∀ u, s'.thread u = if u = t then th else s.thread u
  listed : ∀ u, (tfind s'.threads u).isSome = (tfind s.threads u).isSome
  placed : ∀ g, (tfind s'.groups g).isSome = (tfind s.groups g).isSome

theorem coreBody_windowStep (x : Core) (t : Nat) : coreBody (windowStep x t) = coreBody x := by
  unfold coreBody windowStep
  simp only [List.map_map]
  have h1 : ((fun e : LoadEntry => ({ e with left := 0 } : LoadEntry)) ∘
      fun e => if e.thread == t then { e with left := e.left - 1 } else e) = fun e => { e with left := 0 } := by
    funext e; simp only [Function.comp]; split_ifs <;> rfl
  have h2 : ((fun e : SfuEntry => ({ e with left := 0 } : SfuEntry)) ∘
      fun e => if e.thread == t then { e with left := e.left - 1 } else e) = fun e => { e with left := 0 } := by
    funext e; simp only [Function.comp]; split_ifs <;> rfl
  have h3 : ((fun e : LateEntry => ({ e with left := 0 } : LateEntry)) ∘
      fun e => if e.thread == t then { e with left := e.left - 1 } else e) = fun e => { e with left := 0 } := by
    funext e; simp only [Function.comp]; split_ifs <;> rfl
  have h4 : ((fun e : StoreEntry => ({ e with left := 0 } : StoreEntry)) ∘
      fun e => if e.thread == t then { e with left := e.left - 1 } else e) = fun e => { e with left := 0 } := by
    funext e; simp only [Function.comp]; split_ifs <;> rfl
  rw [h1, h2, h3, h4]

/-- Retiring moves the thread on and counts (R23). -/
theorem retireTo_turned (s : State) (t : Nat) (pc : DWord) (h : (tfind s.threads t).isSome = true) :
    Turned s (retireTo s t pc) t
      { s.thread t with pc := pc, retired := (s.thread t).retired + 1, stalled := false, held := none, run := .running }
      (fun g => (s.group g).k) := by
  unfold retireTo
  constructor
  · rfl
  · intro c
    rw [gcEvent_core, core_modCore]
    split_ifs with hc
    · subst hc; exact coreBody_windowStep _ _
    · rfl
  · intro g
    rw [gcEvent_group]
    rfl
  · intro u
    rw [gcEvent_thread]
    exact thread_modThread s t u _ h
  · intro u
    exact listed_modThread s t u _
  · intro g
    exact gcEvent_listed _ _ _ _ _

/-! ### Writing a result -/

theorem foldl_writeReg (t : Nat) (lead : Bool) (rs : List (Reg × List Word)) (s : State)
    (h : (tfind s.threads t).isSome = true) (hg : (tfind s.groups (s.thread t).group).isSome = true) :
    let s' := rs.foldl (fun s p => writeReg s t lead p.1 p.2) s
    s' = { s with threads := s'.threads, groups := s'.groups } ∧
    (∀ u, s'.thread u = if u = t then
      rs.foldl putV (s.thread t) else s.thread u) ∧
    (∀ g, s'.group g = if g = (s.thread t).group ∧ lead = true then
      rs.foldl putK (s.group g) else s.group g) ∧
    (∀ u, (tfind s'.threads u).isSome = (tfind s.threads u).isSome) ∧
    (∀ g, (tfind s'.groups g).isSome = (tfind s.groups g).isSome) := by
  have keepV : ∀ (n : Nat) (ws : List Word) (x : Thread), (vwrites n ws x).group = x.group := by
    intro n ws
    induction ws generalizing n with
    | nil => intro x; rfl
    | cons w ws ih => intro x; exact ih (n + 1) (vwrite n w x)
  induction rs generalizing s with
  | nil =>
    refine ⟨rfl, fun u => ?_, fun g => ?_, fun _ => rfl, fun _ => rfl⟩
    · simp only [List.foldl_nil]; split_ifs with hu
      · rw [hu]
      · rfl
    · simp
  | cons p rs ih =>
    obtain ⟨d, ws⟩ := p
    cases d with
    | v n =>
      have h1 : (tfind (s.modThread t (vwrites n.val ws)).threads t).isSome = true := by rw [listed_modThread]; exact h
      have ht : (s.modThread t (vwrites n.val ws)).thread t = vwrites n.val ws (s.thread t) := by
        rw [thread_modThread s t t _ h, if_pos rfl]
      have hgr : ((s.modThread t (vwrites n.val ws)).thread t).group = (s.thread t).group := by rw [ht, keepV]
      have h2 := ih (s.modThread t (vwrites n.val ws)) h1 (by rw [hgr]; exact hg)
      obtain ⟨a1, a2, a3, a4, a5⟩ := h2
      refine ⟨a1, fun u => ?_, fun g => ?_, fun u => ?_, fun g => ?_⟩
      · refine (a2 u).trans ?_
        split_ifs with hu
        · rw [ht]; rfl
        · rw [thread_modThread s t u _ h, if_neg hu]
      · refine (a3 g).trans ?_
        rw [hgr]; rfl
      · exact (a4 u).trans (listed_modThread s t u _)
      · exact a5 g
    | k n =>
      cases lead with
      | false =>
        obtain ⟨a1, a2, a3, a4, a5⟩ := ih s h hg
        refine ⟨a1, a2, fun g => (a3 g).trans ?_, a4, a5⟩
        simp
      | true =>
        have e : writeReg s t true (.k n) ws = s.modGroup (s.thread t).group (kwrites n.val ws) := rfl
        have h2 := ih (s.modGroup (s.thread t).group (kwrites n.val ws)) h (by rw [placed_modGroup]; exact hg)
        obtain ⟨a1, a2, a3, a4, a5⟩ := h2
        refine ⟨a1, a2, fun g => (a3 g).trans ?_, a4, fun g => (a5 g).trans (placed_modGroup s _ g _)⟩
        show (if g = (s.thread t).group ∧ true = true then _ else _) = _
        rw [group_modGroup s _ g _ hg]
        split_ifs with hc h3 h3
        · rw [← hc.1]; rfl
        · exact absurd hc.1 h3
        · exact absurd ⟨h3, rfl⟩ hc
        · rfl

/-- Writing a result to a thread: its v registers, predicates and flags, and the k registers of its group when it is the lead. -/
theorem applyRes_turned (s : State) (t : Nat) (lead : Bool) (r : Res)
    (h : (tfind s.threads t).isSome = true) (hg : (tfind s.groups (s.thread t).group).isSome = true) :
    Turned s (applyRes s t lead r) t (r.onThread (s.thread t))
      (fun g => if g = (s.thread t).group ∧ lead = true then (r.onGroup (s.group g)).k else (s.group g).k) := by
  obtain ⟨a1, a2, a3, a4, a5⟩ := foldl_writeReg t lead r.regs s h hg
  have kOnly : ∀ (rs : List (Reg × List Word)) (x : Group),
      rs.foldl putK x =
        { x with k := (rs.foldl putK x).k } := by
    have kw : ∀ (ws : List Word) (n : Nat) (x : Group), kwrites n ws x = { x with k := (kwrites n ws x).k } := by
      intro ws
      induction ws with
      | nil => intro n x; rfl
      | cons w ws ih => intro n x; show kwrites (n + 1) ws (kwrite n w x) = _; rw [ih]; rfl
    intro rs
    induction rs with
    | nil => intro x; rfl
    | cons p rs ih =>
      intro x
      obtain ⟨d, ws⟩ := p
      cases d with
      | v n => exact ih x
      | k n =>
        have e : putK x (.k n, ws) = { x with k := (kwrites n.val ws x).k } := kw ws n.val x
        rw [List.foldl_cons, e]
        exact ih _
  have hl : (tfind (r.regs.foldl (fun s p => writeReg s t lead p.1 p.2) s).threads t).isSome = true := (a4 t).trans h
  have ht : (r.regs.foldl (fun s p => writeReg s t lead p.1 p.2) s).thread t = r.regs.foldl putV (s.thread t) :=
    (a2 t).trans (if_pos rfl)
  have hf : (r.regs.foldl putV (s.thread t)).fpflags = (s.thread t).fpflags := by
    have kv : ∀ (n : Nat) (ws : List Word) (x : Thread), (vwrites n ws x).fpflags = x.fpflags := by
      intro n ws
      induction ws generalizing n with
      | nil => intro x; rfl
      | cons w ws ih => intro x; exact ih (n + 1) (vwrite n w x)
    generalize s.thread t = x
    induction r.regs generalizing x with
    | nil => rfl
    | cons p rs ih =>
      rw [List.foldl_cons, ih]
      obtain ⟨d, ws⟩ := p
      cases d with
      | v n => exact kv _ _ _
      | k n => rfl
  unfold applyRes
  generalize hS : r.regs.foldl (fun s p => writeReg s t lead p.1 p.2) s = S at *
  simp only
  have hgr : ∀ f g, (S.modThread t f).group g = S.group g := fun _ _ => rfl
  constructor
  · show outerState (S.modThread t _) = _
    rw [a1]; rfl
  · intro c
    show coreBody (S.core c) = _
    rw [a1]; rfl
  · intro g
    rw [hgr, a3 g]
    split_ifs with hc
    · have e : (r.regs.foldl putK (s.group g)).gc = (s.group g).gc := by rw [kOnly]
      rw [e]
      unfold Res.onGroup
      exact kOnly r.regs (s.group g)
    · rfl
  · intro u
    rw [thread_modThread _ t u _ hl, a2 u, ht]
    split_ifs with hu
    · unfold Res.onThread; rw [hf]
    · rfl
  · intro u
    rw [listed_modThread]; exact a4 u
  · exact a5

/-! ### The whole PC group -/

/-- At a first issue the lead is the first thread with a true guard. -/
theorem leadOf_fresh {s : State} (h : s.iss.held = none) (c : Ctl) :
    leadOf s c = s.iss.members.find? (fun t => guardOf (s.thread t) c) := by unfold leadOf; rw [h]

/-- At a first issue an instruction reads the state as it is. -/
theorem issueView_fresh {s : State} (h : s.iss.held = none) : issueView s = s := by unfold issueView; rw [h]

theorem Turned.retire {s s' : State} {t : Nat} {th : Thread} {ks : Nat → Tbl Word} (h : Turned s s' t th ks)
    (hl : (tfind s.threads t).isSome = true) :
    Turned s (Machine.retire s' t) t
      { th with pc := th.pc + 16, retired := th.retired + 1, stalled := false, held := none, run := .running } ks := by
  have hl' : (tfind s'.threads t).isSome = true := (h.listed t).trans hl
  have ht : s'.thread t = th := by rw [h.threads, if_pos rfl]
  obtain ⟨b1, b2, b3, b4, b5, b6⟩ := retireTo_turned s' t ((s'.thread t).pc + 16) hl'
  rw [ht] at b1 b2 b3 b4 b5 b6
  unfold Machine.retire
  rw [ht]
  refine ⟨b1.trans h.outer, fun c => (b2 c).trans (h.cores c), fun g => ?_, fun u => ?_, fun u => (b5 u).trans (h.listed u),
    fun g => (b6 g).trans (h.placed g)⟩
  · have hk : (s'.group g).k = ks g := by rw [h.groups g]
    rw [b3 g, hk]
    have := h.groups g
    generalize ((retireTo s' t (th.pc + 16)).group g).gc = gc
    rw [this]
  · rw [b4 u]
    split_ifs with hu
    · rfl
    · rw [h.threads u, if_neg hu]

theorem injPipe_none {s : State} {t : Nat} {us : List Nat} (h : tfind (s.core (coreOfThread t)).inj 4 = none) :
    injPipe s t us = (none, s) := by unfold injPipe; rw [h]

/-- Nothing goes wrong in a unit of an instruction that issues without an error. -/
theorem checkerStruck_none {s0 : State} (h : s0.iss.bad = []) (t : Nat) (us : List Nat) : checkerStruck s0 t us = none := by
  unfold checkerStruck; rw [h]; simp

theorem bankStruck_false {s0 : State} (h : s0.iss.bad = []) (t : Nat) : bankStruck s0 t = false := by
  unfold bankStruck; rw [h]; simp

/-- A thread's turn where nothing goes wrong in its units: what its lane function answers. -/
theorem laneStep_clean {c : Ctl} {us : List Nat} {f : State → Nat → State → Lane} {s0 s : State} {t : Nat}
    (hb : s0.iss.bad = []) (hi : tfind (s.core (coreOfThread t)).inj 4 = none) (hg : guardOf (s0.thread t) c = true) :
    laneStep c us f s0 s t = (match f s0 t s with
      | .retire s' => retire s' t
      | .goto s' pc => retireTo s' t pc
      | .trap code detail addr gpa w => takeTrap (trapCount s t code detail addr) t code detail addr gpa w
      | .hold s' => (s'.modCore (coreOfThread t) (fun x => { x with inj := (s.core (coreOfThread t)).inj })).modThread t
          (fun x => { x with held := some (heldOf s0 c t) })
      | .done s' => keepIssue s0 c t s') := by
  unfold laneStep
  simp only [hg, Bool.not_true, Bool.false_eq_true, if_false, injPipe_none hi, checkerStruck_none hb, bankStruck_false hb, Option.or_none]
  cases f s0 t s <;> simp [pipeTrap]

/-- A thread's turn at an instruction that only computes: no checker mismatches, no residue injector is armed, and a k register
does not wait. -/
theorem laneStep_alu {c : Ctl} {us : List Nat} {r : Thread → Group → Res} {s0 s : State} {t : Nat}
    (hb : s0.iss.bad = []) (hi : tfind (s.core (coreOfThread t)).inj 4 = none)
    (hk : (resultOf s0 r t).writesK = false ∨ sfuOf s0 t = []) :
    laneStep c us (fun s0 t s =>
      retireAlu s0 s t c (r (s0.thread t) (s0.group (s0.thread t).group))) s0 s t =
      retire (if guardOf (s0.thread t) c then applyRes s t (leadOf s0 c == some t) (resultOf s0 r t) else s) t := by
  cases hg : guardOf (s0.thread t) c with
  | false => unfold laneStep; simp [hg]
  | true =>
    have hw : (leadOf s0 c == some t && (resultOf s0 r t).writesK && !(sfuOf s0 t).isEmpty) = false := by
      rcases hk with hk | hk <;> simp [hk]
    rw [laneStep_clean hb hi hg]
    unfold resultOf at hw ⊢
    simp only [retireAlu, hw, Bool.false_eq_true, if_false, if_true]

theorem onGroup_k (r : Res) (x y : Group) (h : x.k = y.k) : (r.onGroup x).k = (r.onGroup y).k := by
  have kw : ∀ (ws : List Word) (n : Nat) (x y : Group), x.k = y.k → (kwrites n ws x).k = (kwrites n ws y).k := by
    intro ws
    induction ws with
    | nil => intro n x y h; exact h
    | cons w ws ih => intro n x y h; exact ih (n + 1) _ _ (by unfold kwrite; simp only [h])
  unfold Res.onGroup
  induction r.regs generalizing x y with
  | nil => exact h
  | cons p rs ih =>
    rw [List.foldl_cons, List.foldl_cons]
    obtain ⟨d, ws⟩ := p
    cases d with
    | v n => exact ih x y h
    | k n => exact ih _ _ (kw ws n.val x y h)

theorem inj_of_body {x y : Core} (h : coreBody x = coreBody y) : x.inj = y.inj := (congrArg Core.inj h :)

/-- A thread that has taken its turn. -/
def threadRan (s : State) (c : Ctl) (r : Thread → Group → Res) (t : Nat) : Thread :=
  let th := s.thread t
  { (if guardOf th c then (resultOf s r t).onThread th else th) with
    pc := th.pc + 16, retired := th.retired + 1, stalled := false, held := none, run := .running }

theorem onThread_pc (r : Res) (th : Thread) : (r.onThread th).pc = th.pc ∧ (r.onThread th).retired = th.retired := by
  have hv : ∀ (n : Nat) (ws : List Word) (x : Thread),
      (vwrites n ws x).pc = x.pc ∧ (vwrites n ws x).retired = x.retired := by
    intro n ws
    induction ws generalizing n with
    | nil => intro x; exact ⟨rfl, rfl⟩
    | cons w ws ih => intro x; exact ih (n + 1) (vwrite n w x)
  have h1 : ∀ (rs : List (Reg × List Word)) (x : Thread),
      (rs.foldl putV x).pc = x.pc ∧ (rs.foldl putV x).retired = x.retired := by
    intro rs
    induction rs with
    | nil => intro x; exact ⟨rfl, rfl⟩
    | cons p rs ih =>
      intro x
      rw [List.foldl_cons]
      obtain ⟨d, ws⟩ := p
      cases d with
      | v n => exact ⟨(ih _).1.trans (hv _ _ _).1, (ih _).2.trans (hv _ _ _).2⟩
      | k n => exact ih x
  have h2 : ∀ (ps : List (Nat × Bool)) (x : Thread),
      (ps.foldl (fun x p => qwrite p.1 p.2 x) x).pc = x.pc ∧ (ps.foldl (fun x p => qwrite p.1 p.2 x) x).retired = x.retired := by
    intro ps
    induction ps with
    | nil => intro x; exact ⟨rfl, rfl⟩
    | cons p ps ih =>
      intro x
      rw [List.foldl_cons]
      have hq : (qwrite p.1 p.2 x).pc = x.pc ∧ (qwrite p.1 p.2 x).retired = x.retired := by
        unfold qwrite; split_ifs <;> exact ⟨rfl, rfl⟩
      exact ⟨(ih _).1.trans hq.1, (ih _).2.trans hq.2⟩
  exact ⟨(h2 _ _).1.trans (h1 _ _).1, (h2 _ _).2.trans (h1 _ _).2⟩

/-- The state after the turns of the threads `ps`. -/
structure Ran (s0 s : State) (c : Ctl) (r : Thread → Group → Res) (ps : List Nat) : Prop where
  outer : outerState s = outerState s0
  cores : ∀ x, coreBody (s.core x) = coreBody (s0.core x)
  groups : ∀ g, s.group g = { s0.group g with
    gc := (s.group g).gc
    k := if ∃ t ∈ ps, leadOf s0 c = some t then kAfter s0 c r g else (s0.group g).k }
  threads : ∀ u, s.thread u = if u ∈ ps then threadRan s0 c r u else s0.thread u
  listed : ∀ u, (tfind s.threads u).isSome = (tfind s0.threads u).isSome
  placed : ∀ g, (tfind s.groups g).isSome = (tfind s0.groups g).isSome

/-- The turns of a PC group at an instruction that only computes. -/
theorem foldl_alu {c : Ctl} {us : List Nat} {r : Thread → Group → Res} {s0 : State} (hi : Issues s0)
    (hk : sfuDone s0 = true ∨ ∀ t ∈ s0.iss.members, (resultOf s0 r t).writesK = false) (ms ps : List Nat) (s : State)
    (hm : s0.iss.members = ps ++ ms) (hr : Ran s0 s c r ps) :
    Ran s0 (ms.foldl (laneStep c us (fun s0 t s =>
      retireAlu s0 s t c (r (s0.thread t) (s0.group (s0.thread t).group))) s0) s) c r s0.iss.members := by
  induction ms generalizing ps s with
  | nil => rw [List.append_nil] at hm; rw [hm]; exact hr
  | cons t ms ih =>
    have htm : t ∈ s0.iss.members := by rw [hm]; simp
    have hnp : t ∉ ps := by
      have := hi.nodup
      rw [hm] at this
      exact fun h => (List.disjoint_of_nodup_append this) h (List.mem_cons_self ..)
    have ht : s.thread t = s0.thread t := by rw [hr.threads, if_neg hnp]
    have hl : (tfind s.threads t).isSome = true := (hr.listed t).trans (hi.listed t htm)
    have hg : (tfind s.groups (s.thread t).group).isSome = true := by
      rw [ht]; exact (hr.placed _).trans (hi.groups t htm)
    have hinj : tfind (s.core (coreOfThread t)).inj 4 = none := by
      rw [inj_of_body (hr.cores _), hi.core t htm]; exact hi.noInjector
    have hkt : (resultOf s0 r t).writesK = false ∨ sfuOf s0 t = [] :=
      hk.symm.imp (fun h => h t htm) (fun h => by simpa using List.all_eq_true.1 h t htm)
    rw [List.foldl_cons, laneStep_alu hi.clean hinj hkt]
    refine ih (ps ++ [t]) _ (by rw [hm]; simp) ?_
    have htn : ∀ th ks, Turned s (if guardOf (s0.thread t) c then applyRes s t (leadOf s0 c == some t) (resultOf s0 r t) else s)
        t th ks → th = (if guardOf (s0.thread t) c then (resultOf s0 r t).onThread (s0.thread t) else s0.thread t) →
        (∀ g, ks g = if ∃ u ∈ ps ++ [t], leadOf s0 c = some u then kAfter s0 c r g else (s0.group g).k) →
        Ran s0 (retire (if guardOf (s0.thread t) c then applyRes s t (leadOf s0 c == some t) (resultOf s0 r t) else s) t)
          c r (ps ++ [t]) := by
      intro th ks hT hth hks
      obtain ⟨b1, b2, b3, b4, b5, b6⟩ := hT.retire hl
      have hpc : th.pc = (s0.thread t).pc ∧ th.retired = (s0.thread t).retired := by
        rw [hth]; split_ifs
        · exact onThread_pc _ _
        · exact ⟨rfl, rfl⟩
      refine ⟨b1.trans hr.outer, fun x => (b2 x).trans (hr.cores x), fun g => ?_, fun u => ?_,
        fun u => (b5 u).trans (hr.listed u), fun g => (b6 g).trans (hr.placed g)⟩
      · rw [← hks g, b3 g, hr.groups g]
      · rw [b4 u]
        by_cases hu : u = t
        · subst hu
          rw [if_pos rfl, if_pos (by simp), hpc.1, hpc.2, hth]
          unfold threadRan
          rfl
        · rw [if_neg hu, hr.threads u]
          have : u ∈ ps ++ [t] ↔ u ∈ ps := by simp [hu]
          simp only [this]
    have hkg : ∀ g, (s.group g).k = if ∃ u ∈ ps, leadOf s0 c = some u then kAfter s0 c r g else (s0.group g).k := by
      intro g; rw [hr.groups g]
    cases hgd : guardOf (s0.thread t) c with
    | false =>
      simp only [hgd, Bool.false_eq_true, if_false] at htn ⊢
      refine htn (s0.thread t) (fun g => (s.group g).k)
        ⟨rfl, fun _ => rfl, fun g => rfl, fun u => by split_ifs with hu <;> simp [hu, ht], fun _ => rfl, fun _ => rfl⟩ rfl ?_
      intro g
      have hne : leadOf s0 c ≠ some t := by
        intro h
        have := List.find?_some (leadOf_fresh hi.fresh c ▸ h)
        rw [hgd] at this
        simp at this
      have : (∃ u ∈ ps ++ [t], leadOf s0 c = some u) ↔ ∃ u ∈ ps, leadOf s0 c = some u := by
        constructor
        · rintro ⟨u, hu, h⟩
          rcases List.mem_append.1 hu with hu | hu
          · exact ⟨u, hu, h⟩
          · rw [List.mem_singleton.1 hu] at h; exact absurd h hne
        · rintro ⟨u, hu, h⟩
          exact ⟨u, List.mem_append_left _ hu, h⟩
      show (s.group g).k = _
      rw [hkg g]
      simp only [this]
    | true =>
      simp only [hgd, if_true] at htn ⊢
      have hT := applyRes_turned s t (leadOf s0 c == some t) (resultOf s0 r t) hl hg
      rw [ht] at hT
      refine htn _ _ hT rfl ?_
      intro g
      by_cases hlead : leadOf s0 c = some t
      · have h1 : ¬ ∃ u ∈ ps, leadOf s0 c = some u := by
          rintro ⟨u, hu, h⟩
          rw [hlead] at h
          exact hnp (Option.some.inj h ▸ hu)
        have h2 : ∃ u ∈ ps ++ [t], leadOf s0 c = some u := ⟨t, by simp, hlead⟩
        have hk0 : (s.group g).k = (s0.group g).k := by rw [hkg g, if_neg h1]
        rw [if_pos h2]
        simp only [hlead, beq_self_eq_true, and_true, kAfter]
        by_cases hgt : g = (s0.thread t).group
        · rw [if_pos hgt, if_pos hgt.symm]; exact onGroup_k _ _ _ hk0
        · rw [if_neg hgt, if_neg (Ne.symm hgt)]; exact hk0
      · have hb : (leadOf s0 c == some t) = false := by simp [hlead]
        simp only [hb, Bool.false_eq_true, and_false, if_false]
        rw [hkg g]
        have : (∃ u ∈ ps ++ [t], leadOf s0 c = some u) ↔ ∃ u ∈ ps, leadOf s0 c = some u := by
          constructor
          · rintro ⟨u, hu, h⟩
            rcases List.mem_append.1 hu with hu | hu
            · exact ⟨u, hu, h⟩
            · rw [List.mem_singleton.1 hu] at h; exact absurd h hlead
          · rintro ⟨u, hu, h⟩
            exact ⟨u, List.mem_append_left _ hu, h⟩
        simp only [this]

/-- Writing a listed value back changes nothing. -/
theorem tset_same {α : Type} {x : Nat} {v : α} : ∀ {t : Tbl α}, tfind t x = some v → tset x v t = t
  | [], h => by simp [tfind] at h
  | (k, w) :: t, h => by
    unfold tfind at h
    unfold tset
    split_ifs at h ⊢ with h1 h2
    · cases h; rw [h1]
    · rw [tset_same h]

/-- A change that leaves the thread as it is changes nothing. -/
theorem modThread_same {s : State} {t : Nat} {f : Thread → Thread} (h : f (s.thread t) = s.thread t) : s.modThread t f = s := by
  unfold State.modThread tmod
  cases hf : tfind s.threads t with
  | none => rfl
  | some x =>
    have hx : s.thread t = x := by unfold State.thread; rw [hf]; rfl
    rw [hx] at h
    simp only [h, tset_same hf]

/-- Where no thread of the PC group keeps its issue, the object cache is kept for none. -/
theorem captureHeld_of_none (s0 s : State) (h : ∀ t ∈ s0.iss.members, (s.thread t).held = none) : captureHeld s0 s = s := by
  unfold captureHeld
  split_ifs
  · rfl
  · generalize s0.iss.members = ms at h
    induction ms with
    | nil => rfl
    | cons t ms ih =>
      rw [List.foldl_cons]
      simp only [h t (List.mem_cons_self ..)]
      exact ih (fun u hu => h u (List.mem_cons_of_mem _ hu))

theorem leadOf_mem {s : State} (hi : s.iss.held = none) {c : Ctl} {t : Nat} (h : leadOf s c = some t) : t ∈ s.iss.members :=
  List.mem_of_find?_eq_some (leadOf_fresh hi c ▸ h)

/-- WHAT AN INSTRUCTION THAT ONLY COMPUTES DOES for a PC group. -/
theorem execAlu_spec {c : Ctl} {us : List Nat} {r : Thread → Group → Res} {s : State} (hi : Issues s)
    (hk : sfuDone s = true ∨ ∀ t ∈ s.iss.members, (resultOf s r t).writesK = false) :
    ∃ s', execAlu c us r s = .next s' ∧ OnlyRegisters s s' ∧
      (∀ t ∈ s.iss.members, s'.thread t = threadAfter s c r t) ∧ ∀ g, (s'.group g).k = kAfter s c r g := by
  refine ⟨_, rfl, ?_⟩
  have hR := foldl_alu (c := c) (us := us) hi hk s.iss.members [] s rfl
    ⟨rfl, fun _ => rfl, fun g => by simp, fun u => by simp, fun _ => rfl, fun _ => rfl⟩
  unfold runLanes
  rw [issueView_fresh hi.fresh]
  generalize s.iss.members.foldl _ s = s1 at hR ⊢
  rw [captureHeld_of_none s s1 (fun t ht => by rw [hR.threads t, if_pos ht]; rfl)]
  have hkk : ∀ g, (s1.group g).k = kAfter s c r g := by
    intro g
    rw [hR.groups g]
    simp only
    split_ifs with h
    · rfl
    · unfold kAfter
      split
      · next t ht => exact absurd ⟨t, leadOf_mem hi.fresh ht, ht⟩ h
      · rfl
  refine ⟨⟨hR.outer, hR.cores, fun g => ?_, fun t ht => ?_⟩, fun t ht => ?_, hkk⟩
  · rw [hR.groups g]
  · rw [hR.threads t, if_neg ht]
  · rw [hR.threads t, if_pos ht]
    have hp : (if guardOf (s.thread t) c then (resultOf s r t).onThread (s.thread t) else s.thread t).retired =
        (s.thread t).retired := by
      split_ifs
      · exact (onThread_pc _ _).2
      · rfl
    unfold threadAfter Thread.retired' threadRan
    simp only
    rw [hp]

/-! ### Taking a trap -/

/-- A thread that is changed, or is not listed and reads as none. -/
theorem thread_modThread_self {P : Thread → Prop} (s : State) (t : Nat) (f : Thread → Thread) (h : P (f (s.thread t))) (h0 : P noThread) :
    P ((s.modThread t f).thread t) := by
  cases hl : tfind s.threads t with
  | some x => rw [thread_modThread s t t f (by rw [hl]; rfl), if_pos rfl]; exact h
  | none =>
    have : (s.modThread t f).thread t = noThread := by
      show (tfind (tmod t f s.threads) t).getD noThread = _
      rw [tfind_tmod, if_pos rfl, hl]; rfl
    rw [this]; exact h0

theorem recPlaced_thread (s : State) (f : FRec) (r u : Nat) :
    (recPlaced s f r).thread u = { s.thread u with lastRec := ((recPlaced s f r).thread u).lastRec } := by
  unfold recPlaced State.thread
  simp only [tfind_tmap]
  cases tfind s.threads u with
  | none => rfl
  | some x =>
    simp only [Option.map_some, Option.getD_some]
    split
    · split_ifs <;> rfl
    · rfl

theorem locWrite_threads (s : State) (l : Loc) (bs : List Byte) : (locWrite s l bs).threads = s.threads := by
  induction bs generalizing s l with
  | nil => rfl
  | cons b bs ih => exact (ih (locSet s l b) (l.add 1)).trans (by cases l <;> rfl)

theorem locUse_threads (s : State) (part : Nat) (l : Loc) : (locUse s part l).threads = s.threads := by cases l <;> rfl

theorem recPlaced_threads {s s' : State} (f : FRec) (r : Nat) (h : s'.threads = s.threads) :
    (recPlaced s' f r).threads = (recPlaced s f r).threads := by unfold recPlaced; rw [h]

/-- A record written to the ring changes the threads as its placing does. -/
theorem ringWrite_threads {s s' : State} {part : Nat} {f : FRec} (h : ringWrite s part f = some s') :
    s'.threads = (recPlaced s f (s.part part).frhead.toNat).threads := by
  have h := congrArg (Option.map State.threads) h
  unfold ringWrite at h
  simp only at h
  split_ifs at h
  · cases h
  · split at h
    · cases h
    · split_ifs at h
      · cases h
      · simp only [Option.map_some, Option.some.injEq] at h
        rw [← h]
        apply recPlaced_threads
        rw [State.modPart_threads, locWrite_threads, locUse_threads]

/-- Sending a record changes nothing of a thread but what its latest record says. -/
theorem sendRec_thread (s : State) (part l : Nat) (f : FRec) (u : Nat) :
    (sendRec s part l f).thread u = { s.thread u with lastRec := ((sendRec s part l f).thread u).lastRec } := by
  unfold sendRec
  split_ifs
  · exact recPlaced_thread _ f _ u
  · unfold emitRecord
    split_ifs
    · cases hr : ringWrite (noteFault s l f.code f.detail) part f with
      | none => rfl
      | some s' =>
        have ht : s'.thread u = (recPlaced (noteFault s l f.code f.detail) f
            ((noteFault s l f.code f.detail).part part).frhead.toNat).thread u := by
          unfold State.thread; rw [ringWrite_threads hr]
        rw [Option.getD_some, ht]
        exact recPlaced_thread (noteFault s l f.code f.detail) f _ u
    · rfl

/-- TAKING A PRECISE TRAP, for its thread: it parks at its instruction, keeps no issue, and all else but its record is as it
was (R36). -/
theorem takeTrap_thread (s : State) (t code detail : Nat) (addr : DWord) (gpa : Nat) (w : Bool)
    (h : (tfind s.threads t).isSome = true) (u : Nat) :
    (takeTrap s t code detail addr gpa w).thread u =
      (if u = t then { s.thread t with run := .parked false, stalled := false, held := none
                                       lastRec := ((takeTrap s t code detail addr gpa w).thread t).lastRec }
       else { s.thread u with lastRec := ((takeTrap s t code detail addr gpa w).thread u).lastRec }) := by
  unfold takeTrap
  simp only [freshId]
  generalize hY : (({ s with nextId := s.nextId + 1 } : State).modThread t _) = Y
  generalize hS : (if code = 8 then _ else gcEvent Y 14 t 1 : State) = S
  have e : ∀ v, S.thread v = Y.thread v := fun v => by rw [← hS]; split_ifs <;> rfl
  rw [sendRec_thread]
  have hd : (disarm S (s.thread t).group).thread u = Y.thread u := e u
  have hl : (tfind ({ s with nextId := s.nextId + 1 } : State).threads t).isSome = true := h
  rw [hd, ← hY, thread_modThread _ t u _ hl]
  by_cases hu : u = t
  · subst hu
    rw [if_pos rfl, if_pos rfl]; rfl
  · rw [if_neg hu, if_neg hu]; rfl

theorem takeTrap_held (s : State) (t code detail : Nat) (addr : DWord) (gpa : Nat) (w : Bool) :
    ((takeTrap s t code detail addr gpa w).thread t).held = none := by
  unfold takeTrap
  simp only [freshId]
  rw [sendRec_thread]
  split_ifs <;> exact thread_modThread_self (P := fun x => x.held = none) { s with nextId := s.nextId + 1 } t _ rfl rfl

/-! ### A PC group of one thread -/

theorem leadOf_solo {s : State} {t : Nat} {c : Ctl} (h : Solo s t c) : leadOf s c = some t := by
  rw [leadOf_fresh h.fresh, h.only]
  simp [h.guard]

theorem captureHeld_one {s0 : State} {t : Nat} (h : s0.iss.members = [t]) {s : State} (hh : (s.thread t).held = none) :
    captureHeld s0 s = s := captureHeld_of_none s0 s (fun u hu => by rw [h, List.mem_singleton] at hu; rw [hu]; exact hh)

/-- After retiring a thread keeps no issue. -/
theorem retireTo_held (s : State) (t : Nat) (pc : DWord) : ((retireTo s t pc).thread t).held = none :=
  thread_modThread_self (P := fun x => x.held = none) s t _ rfl rfl

theorem sfuDone_alone {s : State} {t : Nat} {c : Ctl} (h : Alone s t c) : sfuDone s = true := by
  unfold sfuDone
  rw [h.only]
  simp [h.sfu]

/-- The thread keeps its issue and waits, where `s'` is what its instruction answered in `s`. -/
def keptIssue (c : Ctl) (t : Nat) (s s' : State) : State :=
  captureHeld s ((s'.modCore (coreOfThread t) (fun x => { x with inj := (s.core (coreOfThread t)).inj })).modThread t
    (fun x => { x with held := some (heldOf s c t) }))

/-- The thread waits otherwise, where `s'` is what its instruction answered in `s`: it keeps its issue in the waits that a swap ends. -/
def keptDone (c : Ctl) (t : Nat) (s s' : State) : State := captureHeld s (keepIssue s c t s')

/-- A trap that no uncorrectable error has caused counts none. -/
theorem trapCount_other (s : State) (t code detail : Nat) (addr : DWord) (h : code ≠ 8 ∧ code ≠ 0x52)
    (h' : (code ≠ 0x50 ∧ code ≠ 0x51) ∨ detail % 8 ≠ 5) : trapCount s t code detail addr = s := by
  unfold trapCount
  simp only [h.1, h.2, if_false, false_and]
  split_ifs with h5
  · exact absurd h5 (by rintro ⟨a, b⟩; rcases h' with c | c <;> omega)
  · rfl

theorem trapCount_thread (s : State) (t code detail : Nat) (addr : DWord) (u : Nat) :
    (trapCount s t code detail addr).thread u = s.thread u := by
  unfold trapCount countWalkUe countUeAt
  split_ifs <;> try rfl
  split <;> rfl

/-- WHAT AN INSTRUCTION DOES for a PC group of one thread: what its lane function answers, finished. -/
theorem forLanes_solo {c : Ctl} {us : List Nat} {f : State → Nat → State → Lane} {s : State} {t : Nat} (h : Solo s t c) :
    forLanes c us f s = .next (match f s t s with
      | .retire s' => finishedNext t s'
      | .goto s' pc => finished t s' pc
      | .trap code detail addr gpa w => takeTrap (trapCount s t code detail addr) t code detail addr gpa w
      | .hold s' => keptIssue c t s s'
      | .done s' => keptDone c t s s') := by
  have hc : coreOfThread t = s.iss.core := h.core t (by rw [h.only]; simp)
  have hi : tfind (s.core (coreOfThread t)).inj 4 = none := by rw [hc]; exact h.noInjector
  unfold forLanes runLanes
  rw [issueView_fresh h.fresh, h.only]
  simp only [List.foldl_cons, List.foldl_nil]
  rw [laneStep_clean h.clean hi h.guard]
  cases f s t s with
  | retire s' => simp only [retire]; rw [captureHeld_one h.only (retireTo_held ..)]; rfl
  | goto s' pc => simp only; rw [captureHeld_one h.only (retireTo_held ..)]; rfl
  | trap code detail addr gpa w => simp only; rw [captureHeld_one h.only (takeTrap_held ..)]
  | hold s' => rfl
  | done s' => rfl

theorem forOut_alone {c : Ctl} {us : List Nat} {f : State → Nat → State → Lane} {s : State} {t : Nat} (h : Alone s t c) :
    forOut c us f s = .next (match f s t s with
      | .retire s' => finishedNext t s'
      | .goto s' pc => finished t s' pc
      | .trap code detail addr gpa w => takeTrap (trapCount s t code detail addr) t code detail addr gpa w
      | .hold s' => keptIssue c t s s'
      | .done s' => keptDone c t s s') := by
  unfold forOut
  rw [forLanes_solo h.toSolo]
  simp only [outward, sfuDone_alone h, if_true]

/-! ### Waiting together, and results that are written later -/

/-- Once every thread with a true guard is ready, an instruction that its PC group performs together does what it does. -/
theorem gated_ready {c : Ctl} {ready : State → Nat → Bool} {wait : State → Nat → State} {f : State → Nat → State → Lane}
    {s0 s : State} {t : Nat} (h : ∀ u ∈ s0.iss.members, guardOf (s0.thread u) c = true → ready s0 u = true) :
    gated c ready wait f s0 t s = f s0 t s := by
  have : s0.iss.members.all (fun u => !guardOf (s0.thread u) c || ready s0 u) = true := by
    rw [List.all_eq_true]
    intro u hu
    cases hg : guardOf (s0.thread u) c with
    | false => rfl
    | true => simp [h u hu hg]
  unfold gated
  rw [this]
  cases f s0 t s <;> rfl

/-- Until then it waits, unless its own checks fail. -/
theorem gated_waits {c : Ctl} {ready : State → Nat → Bool} {wait : State → Nat → State} {f : State → Nat → State → Lane}
    {s0 s : State} {t u : Nat} (hu : u ∈ s0.iss.members) (hg : guardOf (s0.thread u) c = true) (hr : ready s0 u = false)
    (hf : ∀ code detail addr gpa w, f s0 t s ≠ .trap code detail addr gpa w) : gated c ready wait f s0 t s = .hold (wait s t) := by
  have : s0.iss.members.all (fun u => !guardOf (s0.thread u) c || ready s0 u) = false := by
    rw [List.all_eq_false]
    exact ⟨u, hu, by simp [hg, hr]⟩
  unfold gated
  rw [this]
  cases h : f s0 t s with
  | trap code detail addr gpa w => exact absurd h (hf code detail addr gpa w)
  | _ => rfl

/-- Its own checks come first. -/
theorem gated_traps {c : Ctl} {ready : State → Nat → Bool} {wait : State → Nat → State} {f : State → Nat → State → Lane}
    {s0 s : State} {t code detail gpa : Nat} {addr : DWord} {w : Bool} (hf : f s0 t s = .trap code detail addr gpa w) :
    gated c ready wait f s0 t s = .trap code detail addr gpa w := by unfold gated; rw [hf]

/-- For a PC group of one thread, it waits for that thread alone. -/
theorem gated_solo {c : Ctl} {ready : State → Nat → Bool} {wait : State → Nat → State} {f : State → Nat → State → Lane}
    {s : State} {t : Nat} (h : Solo s t c) (hr : ready s t = true) : gated c ready wait f s t s = f s t s :=
  gated_ready (fun u hu _ => by rw [h.only, List.mem_singleton] at hu; rw [hu]; exact hr)

/-- A result that waits to be written changes no thread and no group. -/
@[simp] theorem lateRes_threads (s : State) (t left : Nat) (long lead : Bool) (r : Res) :
    (lateRes s t left long lead r).threads = s.threads := rfl
@[simp] theorem lateRes_groups (s : State) (t left : Nat) (long lead : Bool) (r : Res) :
    (lateRes s t left long lead r).groups = s.groups := rfl

/-- What stands in its core's queue of results. -/
theorem lateRes_late (s : State) (t left : Nat) (long lead : Bool) (r : Res) :
    ((lateRes s t left long lead r).core (coreOfThread t)).late = (s.core (coreOfThread t)).late ++
      [{ id := s.nextId, thread := t, group := (s.thread t).group, regs := r.regs.filter (fun p => lead || !Reg.isK p.1)
         preds := r.preds.filter (fun p => p.1 != 7), flags := r.fl, names := r.regs.map (fun p => (p.1, p.2.length)), left, long }] := by
  unfold lateRes freshId
  rw [core_modCore, if_pos rfl]
  rfl

/-- An ALU-class result of a thread with no result of its SFU- and DIV-class instructions outstanding is written at once. -/
theorem retireAlu_alone {s0 s : State} {t : Nat} {c : Ctl} {r : Res} (h : sfuOf s0 t = []) :
    retireAlu s0 s t c r = .retire (applyRes s t (leadOf s0 c == some t) r) := by
  unfold retireAlu
  simp only [h, List.isEmpty_nil, Bool.not_true, Bool.and_false, Bool.false_eq_true, if_false]

/-- A fresh number changes nothing of what a PC group of one thread needs. -/
theorem Alone.numbered {s : State} {t : Nat} {c : Ctl} (h : Alone s t c) : Alone { s with nextId := s.nextId + 1 } t c := by
  obtain ⟨⟨⟨⟨h1, h2, h3, h4⟩, h5, h6, h7⟩, h8, h9, h10⟩, h11⟩ := h
  exact ⟨⟨⟨⟨h1, h2, h3, h4⟩, h5, h6, h7⟩, h8, h9, h10⟩, h11⟩

/-- A value that an instruction takes once for its PC group (R147), for a PC group of one thread. -/
theorem execLead_alone {c : Ctl} {f : State → Nat → Except Lane (State → State)} {s : State} {t : Nat} (h : Alone s t c)
    {eff : State → State} (hf : f s t = .ok eff) : execLead c f s = .next (eff (finishedNext t s)) := by
  have hl := h.listed t (by rw [h.only]; simp)
  have hr : runLanes c [] (fun _ _ s => .retire s) s = finishedNext t s := by
    have := forLanes_solo (us := []) (f := fun _ _ s => .retire s) h.toSolo
    unfold forLanes at this
    exact Host.Outcome.next.inj this
  have hret : ((finishedNext t s).thread t).retired = (s.thread t).retired + 1 := by
    unfold finishedNext finished
    rw [(retireTo_turned s t _ hl).threads, if_pos rfl]
  unfold execLead
  rw [leadOf_solo h.toSolo]
  have hb : s.iss.members.any (fun t => guardOf (s.thread t) c && !(sfuOf s t).isEmpty) = false := by
    rw [h.only]; simp [h.sfu]
  simp only [hb, Bool.false_eq_true, if_false, issueView_fresh h.fresh, hf, hr, hret]
  have : ((s.thread t).retired + 1 == (s.thread t).retired) = false := by
    simp only [beq_eq_false_iff_ne]
    intro hh
    have := congrArg (fun x => x - (s.thread t).retired) hh
    simp at this
  simp only [this, Bool.false_eq_true, if_false]

end Sys2Proof.Machine
end

