-- ==== Sys2Proof/Tests/Slice0.lean ====
section
/-! SUPPORT. The model's own tests: terms that the checks of `WellFormed` refuse, words of the spec and what they decode to, the
spec's worked values, and for each statement a state that meets its hypotheses. -/

namespace Sys2Proof.Tests
open Sys2Proof Sys2Proof.Machine

set_option Elab.async false  -- theorem after theorem: every thread of a compile takes a stack of its own

/-! ### Common fields -/

/-- No guard, no hint. -/
def plain : Ctl := ⟨0, ⟨7, false⟩, ⟨0, false⟩, .a, 0, .none⟩
/-- Guard false for every thread (R62). -/
def never : Ctl := { plain with ga := ⟨7, true⟩ }
def w32 : IMod := ⟨.w32, false, false⟩
def w64 : IMod := ⟨.w64, false, false⟩

/-! ### Terms that the encoding checks refuse (R62 to R68 and each instruction's own limits) -/

theorem test_wf_accepts : (Instr.iadd plain w64 (.v 4) (.v 6) (.c 5)).wf = true ∧ (Instr.bra plain 0x20).wf = true ∧
    (Instr.ld { plain with ch := 5 } .b128 8 ⟨.idx 3, .ij, .v 4, 0⟩).wf = true := by decide

/-- R62: GB under GM = 00; R65: CH where it is not accepted. -/
theorem test_wf_common : (Instr.nop { plain with gb := ⟨1, false⟩ }).wf = false ∧ (Instr.nop { plain with ch := 1 }).wf = false ∧
    (Instr.atom { plain with gb := ⟨0, true⟩ } .add false .pkg .rlx (.v 0) ⟨.idx 0, .c 0, 0⟩ (.v 0)).wf = false := by decide

/-- R13, R66: pairs, quads and longer blocks start at their multiples, in v and in k. -/
theorem test_wf_alignment : (Instr.iadd plain w64 (.v 5) (.v 6) (.v 8)).wf = false ∧
    (Instr.iadd plain w64 (.v 4) (.k 7) (.v 8)).wf = false ∧ (Instr.movw plain (.k 1) 0).wf = false ∧
    (Instr.ld plain .b128 6 ⟨.idx 0, .plain, .c 0, 0⟩).wf = false ∧ (Instr.objrd plain false 2 (.idx 0)).wf = false ∧
    (Instr.emit plain none (.idx 0) (.v 4)).wf = false ∧ (Instr.cpy plain .bo ⟨.idx 0, .c 0, 0⟩ (.v 8)).wf = false ∧
    (Instr.mma plain 8).wf = false ∧ (Instr.ret plain (.v 3)).wf = false ∧ (Instr.call plain 3 0).wf = false := by decide

/-- R81, R90: widths, saturation and signedness that a row does not allow; the predicate of a compare with BOP = 00. -/
theorem test_wf_integer : (Instr.iadd3 plain ⟨.w8, false, false⟩ (.v 0) (.v 0) (.v 0) (.v 0)).wf = false ∧
    (Instr.imul plain ⟨.w8, false, false⟩ (.v 0) (.v 0) (.v 0)).wf = false ∧
    (Instr.imulhi plain ⟨.w32, false, true⟩ (.v 0) (.v 0) (.v 0)).wf = false ∧
    (Instr.imadw plain w64 (.v 0) (.v 0) (.v 0) (.v 0)).wf = false ∧
    (Instr.iabs plain ⟨.w32, true, false⟩ (.v 0) (.v 0)).wf = false ∧
    (Instr.isad plain w64 (.v 0) (.v 0) (.v 0) (.v 0)).wf = false ∧
    (Instr.imin plain ⟨.w32, false, true⟩ (.v 0) (.v 0) (.v 0)).wf = false ∧
    (Instr.icmp plain w32 .eq .none 0 (.v 0) (.v 0) ⟨1, false⟩).wf = false ∧
    (Instr.isel plain ⟨.w16, false, false⟩ (.v 0) (.v 0) (.v 0) ⟨0, false⟩).wf = false ∧
    (Instr.movi plain ⟨.w32, true, false⟩ (.v 0) 0).wf = false ∧ (Instr.lea plain ⟨.w8, false, false⟩ 0 (.v 0) (.v 0) (.v 0)).wf = false := by
  decide

/-- R100, R111: format codes, roundings of 8-bit formats, .sat, constants without an expansion; R102: the predicate of FCMP. -/
theorem test_wf_float : (Instr.cvt plain 7 2 .rn false (.v 0) (.v 0)).wf = false ∧
    (Instr.cvt plain 5 2 .rz false (.v 0) (.v 0)).wf = false ∧ (Instr.cvt plain 6 2 .rn true (.v 0) (.v 0)).wf = false ∧
    (Instr.cvt plain 2 5 .rn false (.v 0) (.c 0)).wf = false ∧
    (Instr.cvtpk plain 3 2 .rn false (.v 0) (.v 0) (.v 0) (.v 1) (.v 0)).wf = false ∧
    (Instr.qblk plain false true .rn (.v 0) (.v 0)).wf = false ∧ (Instr.qblk plain true false .rp (.v 0) (.v 0)).wf = false ∧
    (Instr.f2i plain 0 .w32 false .rn false (.v 0) (.v 0)).wf = false ∧
    (Instr.fcmp plain false .eq .none 0 (.v 0) (.v 0) ⟨0, true⟩).wf = false := by decide

/-- R139, R157, R161, R171, R177: pairs of operation and type, address modes, orders, 128-bit constants. -/
theorem test_wf_memory : (Instr.lred plain .and .n32 (.v 0) (.v 0) (.c 0)).wf = false ∧
    (Instr.ld plain .b32 0 ⟨.idx 0, .x64, .c 0, 0⟩).wf = false ∧ (Instr.ld plain .b32 0 ⟨.idx 0, .ij, .v 3, 0⟩).wf = false ∧
    (Instr.st plain .b128 ⟨.idx 0, .plain, .c 0, 0⟩ (.c 0)).wf = false ∧
    (Instr.ldk plain .b32 0 ⟨.idx 0, .plain, .v 0, 0⟩).wf = false ∧ (Instr.ldk plain .b32 0 ⟨.idx 0, .ij, .k 0, 0⟩).wf = false ∧
    (Instr.red plain .add false .pkg .acq ⟨.idx 0, .c 0, 0⟩ (.v 0)).wf = false ∧
    (Instr.atomf plain .addF32 true .pkg .rlx (.v 1) ⟨.idx 0, .c 0, 0⟩ (.v 0)).wf = false ∧
    (Instr.bankop plain .add .b32 .pkg .rlx ⟨.idx 0, .c 0, 0⟩ (.v 0)).wf = false ∧
    (Instr.bankred plain .mul .s32 .pkg .rlx (.v 0) ⟨.idx 0, .c 0, 0⟩ (.v 0)).wf = false ∧
    (Instr.bankred plain .add .s32 .pkg .rel (.v 0) ⟨.idx 0, .c 0, 0⟩ (.v 0)).wf = false := by decide

/-- R189, R204: formats of the engine; R19, R403: selectors; R353: B of TRAPRET. -/
theorem test_wf_others : (Instr.wload plain 2 .none false 0 ⟨.idx 0, .c 0, 0⟩ (.v 0)).wf = false ∧
    (Instr.accld plain 5 ⟨.idx 0, .c 0, 0⟩ (.v 0)).wf = false ∧ (Instr.accst plain 6 .rn true ⟨.idx 0, .c 0, 0⟩ (.v 0)).wf = false ∧
    (Instr.accst plain 5 .rz false ⟨.idx 0, .c 0, 0⟩ (.v 0)).wf = false ∧ (Instr.sysrd plain false 0x009 (.v 0)).wf = false ∧
    (Instr.cntrd plain false 0x004 (.v 0)).wf = false ∧ (Instr.trapret plain .retry false (.v 0) (.v 2) (.v 0)).wf = false ∧
    (Instr.trapret plain .jump false (.v 0) (.v 1) (.v 0)).wf = false ∧ (Instr.unassignedOpcode 0).wf = false := by decide

/-! ### Words written out in the spec, and what they stand for -/

/-- R61 to R67, R71, R92: ltab.b32 v4, v5, v6, v7, 0xD8: OPC [11:0], GA [19:16], D [41:32], A [51:42], B [61:52], C [71:62],
OPM [127:92] = 0xD80. Class 0x1. -/
theorem test_decode_logic : decodeWord (BitVec.ofNat 128 (0x105 + 7 * 2 ^ 16 + 4 * 2 ^ 32 + 5 * 2 ^ 42 + 6 * 2 ^ 52 + 7 * 2 ^ 62 +
    0xD80 * 2 ^ 92)) = .ok (.ltab plain false 0xD8 (.v 4) (.v 5) (.v 6) (.v 7)) := by decide +kernel

/-- R78, R81: iadd.n8.sat k3, v5, 7, with WD = 11, UN and SAT in OPM [3:0], KB = 10 and KD = 01. Class 0x0. -/
theorem test_decode_integer : decodeWord (BitVec.ofNat 128 (7 * 2 ^ 16 + 3 * 2 ^ 32 + 5 * 2 ^ 42 + 7 * 2 ^ 52 + 2 * 2 ^ 84 + 1 * 2 ^ 90 +
    0xF * 2 ^ 92)) = .ok (.iadd plain ⟨.w8, true, true⟩ (.k 3) (.v 5) (.c 7)) := by decide +kernel

/-- The spec's FFMA word (class 0x2): bytes 03 02 07 00, 04 18 80 80, 02 00 00 90, 00 00 00 00. -/
theorem test_decode_float : decodeWord 0x00000000_90000002_80801804_00070203 =
    .ok (.ffma plain true .rz (.v 4) (.v 6) (.v 8) (.v 10)) := by decide +kernel

/-- R100, R108: hadd2.bf16.ra v1, v2, k3: FT = 01, RM = 001, KB = 01. Class 0x3. -/
theorem test_decode_packed : decodeWord (BitVec.ofNat 128 (0x300 + 7 * 2 ^ 16 + 1 * 2 ^ 32 + 2 * 2 ^ 42 + 3 * 2 ^ 52 + 1 * 2 ^ 84 +
    5 * 2 ^ 92)) = .ok (.hadd2 plain true .ra (.v 1) (.v 2) (.k 3)) := by decide +kernel

/-- R121: rcp.f32 v9, v8 under guard !q2, LA 4. Class 0x4. -/
theorem test_decode_sfu : decodeWord (BitVec.ofNat 128 (0x400 + 4 * 2 ^ 12 + 0xA * 2 ^ 16 + 9 * 2 ^ 32 + 8 * 2 ^ 42)) =
    .ok (.rcp { plain with la := 4, ga := ⟨2, true⟩ } (.v 9) (.v 8)) := by decide +kernel

/-- The spec's LSCAN word (class 0x5) and its guarded BRA (class 0x6). -/
theorem test_decode_control : decodeWord 0x00000009_408000FF_C0003C10_00071504 =
      .ok (.lscan { plain with la := 1 } .xor .s32 true (.v 16) (.v 15) (.c 0x3FF)) ∧
    decodeWord 0xFFFFFFFF_FFFFFFE0_00000000_01390600 =
      .ok (.bra ⟨0, ⟨1, true⟩, ⟨3, false⟩, .both, 0, .none⟩ 0xFFFFFFFFFFFFFFE0) := by decide +kernel

/-- The spec's LDS word (class 0x7); ld.s8.el v3, [ob:k5 + v2 − 1] with CH = 2, by R63, R64, R157 and R161: SZ = 100, SX, AM = 01,
OBJR and its k register. -/
theorem test_decode_load : decodeWord 0x00000000_00010000_0000003C_00070706 = .ok (.lds plain .b32 60 (.v 0) 0x10000) ∧
    decodeWord (BitVec.ofNat 128 (0x700 + 7 * 2 ^ 16 + 2 * 2 ^ 26 + 3 * 2 ^ 32 + 2 * 2 ^ 42 + 1 * 2 ^ 62 + 5 * 2 ^ 63 +
      0x1C * 2 ^ 86 + 0xFFFFFFFF * 2 ^ 96)) = .ok (.ld { plain with ch := 2 } .s8 3 ⟨.k 5, .el, .v 2, 0xFFFFFFFF⟩) := by
  decide +kernel

/-- The spec's ATOM and ATOMCAS words (class 0x8). -/
theorem test_decode_atomic : decodeWord 0x00000010_28080004_80101407_00072800 =
      .ok (.atom { plain with la := 2 } .add false .die .rlx (.v 7) ⟨.idx 9, .v 5, 0x10⟩ (.c 1)) ∧
    decodeWord 0x00000000_40020001_00600008_00070801 =
      .ok (.atomcas plain false .pkg .acq (.v 8) ⟨.idx 2, .c 0, 0⟩ (.v 6)) := by decide +kernel

/-- R223: cpy t5, [ob:3], v16; the spec's FENCE word (class 0xA). -/
theorem test_decode_copy : decodeWord (BitVec.ofNat 128 (0x900 + 7 * 2 ^ 16 + 5 * 2 ^ 32 + 16 * 2 ^ 52 + 3 * 2 ^ 63 + 2 * 2 ^ 80)) =
      .ok (.cpy plain (.tag 5) ⟨.idx 3, .c 0, 0⟩ (.v 16)) ∧
    decodeWord 0x00000001_60000000_00000000_00070A08 = .ok (.fence plain .rel .die) := by decide +kernel

/-- The spec's MMA and WLOAD words (class 0xB). -/
theorem test_decode_engine : decodeWord 0x00000000_00000000_00008000_00074B00 = .ok (.mma { plain with la := 4 } 32) ∧
    decodeWord 0x00000040_00C20000_80800000_00072B01 =
      .ok (.wload { plain with la := 2 } 3 .none false 0 ⟨.idx 1, .c 0, 0x40⟩ (.v 8)) := by decide +kernel

/-- The spec's WSEND, WTALLOC and AWLNEXT words (classes 0xC and 0xD). -/
theorem test_decode_welt : decodeWord 0x00000000_00000531_00A02400_00072C02 =
      .ok (.wsend { plain with la := 2 } (.v 9) (.v 10) 1 3 5) ∧
    decodeWord 0x00000000_00020003_00800007_00070C00 = .ok (.wtalloc plain false (.v 7) (.idx 6) (.v 8)) ∧
    decodeWord 0x00000000_04000100_00000008_00070D00 = .ok (.awlnext plain (.k 8) 1) := by decide +kernel

/-- The spec's CNTRD and REPLAY words (class 0xE). -/
theorem test_decode_system : decodeWord 0x00000000_00000308_0000000C_00010E08 =
      .ok (.cntrd { plain with ga := ⟨1, false⟩ } false 0x308 (.v 12)) ∧
    decodeWord 0x00000000_00000000_00001005_00070E07 = .ok (.replay plain (.v 5) (.v 4)) := by decide +kernel

/-- R62, R64, R66, R68: words that trap ILLEGAL_ENCODING: GM = 11, SH = 11, a kind of 11, a constant destination, a bit that no form
uses, a k number of 128. -/
theorem test_decode_refuses : decodeWord 0x0307060A = .error .illegalEncoding ∧ decodeWord 0xC007060A = .error .illegalEncoding ∧
    decodeWord 0x00000000_00300000_3FF05414_00070112 = .error .illegalEncoding ∧
    decodeWord 0x00000000_08000000_00000000_00070016 = .error .illegalEncoding ∧
    decodeWord 0x00000001_00000000_00000000_0007060A = .error .illegalEncoding ∧
    decodeWord (BitVec.ofNat 128 (0x016 + 7 * 2 ^ 16 + 128 * 2 ^ 42 + 1 * 2 ^ 82)) = .error .illegalEncoding := by decide +kernel

/-! ### A small machine -/

/-- A launch record of a small launch of one core. -/
def rec1 : LRec :=
  { det := false, idemok := true, testonly := false, noeng := false, codeobj := 3, cls := 1, entry := 0x100, groupsz := 64
    regs := 64, scrways := 1, ncores := 1, diemask := 1, levels := [], awlDims := 1, awlRec := false, chunks := [4, 1, 1, 1]
    extents := [10, 1, 1, 1], shape := [16, 0, 0, 0, 0, 0, 0, 0], lastobj := 0, deadline := 0, wrapentry := 0x800, wrapbudget := 0
    slackest := 0, completion := 0x1000, node := 0, queueObj := 0, k := [], quantum := 1000, seq := 5 }

/-- Launch 1 of partition 1, running on core 0. -/
def launch1 : Launch :=
  { die := 0, part := 1, id := 7, r := rec1, queue := 0, order := 0, st := .running, base := 0, extent := 4096, priv := false
    cores := [0], everPlaced := true }

/-- Group 1 of launch 1 on core 0. -/
def group1 : Group :=
  { launch := 1, core := 0, grp := 0, turn := 0, size := 64, regs := 64, mtol := mtolDefault, pads := [16, 0, 0, 0, 0, 0, 0, 0] }

/-- Thread 0 with v0 = 3, v4 = 0x17F, v5 = 1, v6:v7 = −1. -/
def thread0 : Thread := { group := 1, tid := 0, v := [(0, 3), (4, 0x17F), (5, 1), (6, 0xFFFFFFFF), (7, 0xFFFFFFFF)], pc := 0x100 }

/-- Thread 0 of group 1 alone issues on core 0. -/
def small : State :=
  { State.reset with threads := [(0, thread0)], groups := [(1, group1)], launches := [(1, launch1)], iss := ⟨0, [0], [], 0x100, 0, none⟩
                     nextId := 10 }

/-- The thread after instruction `i`. -/
def after (i : Instr) (s : State) : Thread :=
  match exec i s with
  | .next s' => s'.thread 0
  | _ => noThread

/-- What `Alone` asks, as a check. -/
def aloneOk (s : State) (t : Nat) (c : Ctl) : Bool :=
  s.iss.members == [t] && s.iss.bad == [] && (tfind (s.core s.iss.core).inj 4).isNone && (tfind s.threads t).isSome &&
    (tfind s.groups (s.thread t).group).isSome && coreOfThread t == s.iss.core && guardOf (s.thread t) c && (s.thread t).held.isNone &&
    (sfuOf s t).isEmpty && s.iss.held.isNone

theorem alone_of_ok {s : State} {t : Nat} {c : Ctl} (h : aloneOk s t c = true) : Alone s t c := by
  simp only [aloneOk, Bool.and_eq_true, beq_iff_eq, Option.isNone_iff_eq_none, List.isEmpty_iff] at h
  obtain ⟨⟨⟨⟨⟨⟨⟨⟨⟨hm, hb⟩, hi⟩, ht⟩, hg⟩, hc⟩, hq⟩, hl⟩, hs⟩, hh⟩ := h
  refine ⟨⟨⟨⟨?_, ?_, ?_, ?_⟩, hh, hb, hi⟩, hm, hq, hl⟩, hs⟩ <;> simp [hm, ht, hg, hc]

/-- Keys of a concrete table rise, as a check. -/
theorem rising_of {α : Type} {t : Tbl α} (h : (decide ((t.map (·.1)).Pairwise (· < ·))) = true) : Rising t :=
  List.pairwise_map.mp (of_decide_eq_true h)

/-- Cores not listed hold nothing. -/
theorem all_cores {p : Core → Prop} {s : State} (h0 : p {}) (h : ∀ x ∈ s.cores, p x.2) (c : Nat) : p (s.core c) := by
  have aux : ∀ t : Tbl Core, (∀ x ∈ t, p x.2) → p ((tfind t c).getD {}) := by
    intro t
    induction t with
    | nil => intro _; exact h0
    | cons x t ih =>
      intro hx
      obtain ⟨k, v⟩ := x
      simp only [tfind]
      split
      · exact hx _ List.mem_cons_self
      · split
        · exact h0
        · exact ih (fun y hy => hx y (List.mem_cons_of_mem _ hy))
  exact aux _ h

theorem small_alone : Alone small 0 plain := alone_of_ok (by decide +kernel)

/-! ### Values the spec works out -/

/-- R80: iadd.s8 of 0x17F and 1 wraps to −128, clamps to 127 with .sat; iadd.n8 gives 0x80. -/
theorem test_iadd : vread (after (.iadd plain ⟨.w8, false, false⟩ (.v 1) (.v 4) (.v 5)) small) 1 = 0xFFFFFF80 ∧
    vread (after (.iadd plain ⟨.w8, false, true⟩ (.v 1) (.v 4) (.v 5)) small) 1 = 0x7F ∧
    vread (after (.iadd plain ⟨.w8, true, false⟩ (.v 1) (.v 4) (.v 5)) small) 1 = 0x80 := by decide +kernel

/-- R84: isad.s8 of 127, −128 and 1 gives 256 mod 256. -/
theorem test_isad : vread (after (.isad plain ⟨.w8, false, false⟩ (.v 1) (.v 4) (.c 0x380) (.v 5)) small) 1 = 0 := by decide +kernel

/-- R13, R14: a pair is read before it is written; a result in q7 is ignored. -/
theorem test_pairs : (after (.iadd plain w64 (.v 6) (.v 6) (.v 6)) small).v = [(0, 3), (4, 0x17F), (5, 1), (6, 0xFFFFFFFE), (7, 0xFFFFFFFF)] ∧
    (after (.icmp plain w32 .eq .none 7 (.v 5) (.v 0) ⟨0, false⟩) small).q = 0 := by decide +kernel

/-- R92: LUT 0xD8 is x ? y : z; R97: selector 0x0010 takes bytes 0, 1, 0, 0; R95: a field of 12 bits at 4. -/
theorem test_bits : vread (after (.ltab plain false 0xD8 (.v 1) (.v 4) (.v 6) (.v 5)) small) 1 = 0x17F ∧
    vread (after (.bperm plain (.v 1) (.v 4) (.v 5) (.c 0x010)) small) 1 = 0x7F7F017F ∧
    vread (after (.bfx plain false true (.v 1) (.v 4) (.c 4) (.c 12)) small) 1 = 0x17 := by decide +kernel

/-- R98: clmul by all ones gives the prefix parity: of 0x22, 0x1E. -/
theorem test_clmul : vread (after (.clmul plain false (.v 1) (.c 0x22) (.c 0x3FF)) small) 1 = 0x1E := by decide +kernel

/-- R83: a quotient by zero, R126: a call links the next PC, R16: a target of no word traps BRANCH_TARGET. -/
theorem test_control : (after (.call plain 2 0x40) small).pc = 0x140 ∧ vread (after (.call plain 2 0x40) small) 2 = 0x110 ∧
    (after (.bra plain 8) small).run = .parked false ∧ (after (.bra plain 8) small).pc = 0x100 ∧
    ((after (.bra plain 8) small).lastRec.map (·.code)) = some 4 := by decide +kernel

/-- R31: a false guard leaves all but the PC and %retired. -/
theorem test_guard : after (.iadd never w32 (.v 1) (.v 4) (.v 5)) small = { thread0 with pc := 0x110, retired := 1 } := by decide +kernel

/-- R103: 1.0 + 2^-24 rounds to even, 1.0 (constant 0x0FE is 1.0, R67). -/
theorem test_fadd : vread (after (.faddi plain false .rn (.v 1) (.c 0x0FE) 0x33800000) small) 1 = 0x3F800000 ∧
    vread (after (.faddi plain false .rp (.v 1) (.c 0x0FE) 0x33800000) small) 1 = 0x3F800001 ∧
    (after (.faddi plain false .rn (.v 1) (.c 0x0FE) 0x33800000) small).fpflags ≠ 0 := by decide +kernel

/-- FIPS 180-4: SHA-384 of "abc". -/
theorem test_sha384 : sha384 [0x61, 0x62, 0x63] =
    0xcb00753f45a35e8bb5a03d699ac65007272c32ab0eded1631a8b605a43ff5bed8086072ba1e7cc2358baeca134c825a7 := by decide +kernel

/-! ### States that meet the hypotheses of the statements

One theorem `witness_<statement>` for each group of hypotheses; where a statement has clauses of its own conditions, one conjunct or
theorem for each, at a boundary value where there is one. -/

theorem some_of {α : Type} {o : Option α} {p : α → Bool} (h : o.any p = true) : ∃ x, o = some x ∧ p x = true := by
  cases o with
  | none => simp at h
  | some x => exact ⟨x, rfl, by simpa using h⟩

def okAnd {ε α : Type} (e : Except ε α) (p : α → Bool) : Bool :=
  match e with
  | .ok x => p x
  | .error _ => false

theorem ok_of {ε α : Type} {e : Except ε α} {p : α → Bool} (h : okAnd e p = true) : ∃ x, e = .ok x ∧ p x = true := by
  cases e with
  | ok x => exact ⟨x, rfl, h⟩
  | error _ => simp [okAnd] at h

/-- Whether no phase of a group's barriers is about to complete, as a check. -/
theorem phases_open {s : State} {g : Nat} (h : ((s.group g).bars.all (fun p => decide (p.2.count < barExpected s g p.2 ∧ p.2.closing = []))) = true) :
    PhasesOpen s g := fun p hp => of_decide_eq_true (List.all_eq_true.1 h p hp)

/-! Registers and guards. -/

theorem witness_predicate_index : (7 < 8 ∧ 0 < 8 : Prop) := by decide

theorem witness_memory : Mem.wf [(3, 1), (9, 255)] = true := by decide

theorem witness_false_guard : Placed small ∧ small.iss.members = [0] ∧ ctlOf (.iadd never w32 (.v 1) (.v 4) (.v 5)) = some never ∧
    guardOf (small.thread 0) never = false ∧ small.iss.held = none ∧ PhasesOpen small (small.thread 0).group ∧
    (small.thread 0).run = .running ∧ (∀ p ∈ small.threads, ∀ f n, p.2.run ≠ .waiting (.idem f n)) ∧
    isCross (.iadd never w32 (.v 1) (.v 4) (.v 5)) = false ∧ isCross (.llead never false 0 (.c 0)) = true ∧
    (small.core (coreOfThread 0)).cross = [] := by
  refine ⟨small_alone.toSolo.toIssues.toPlaced, rfl, rfl, by decide +kernel, rfl, phases_open (by decide +kernel), by decide +kernel, ?_, rfl,
    rfl, by decide +kernel⟩
  intro p hp f n
  simp only [small, List.mem_singleton] at hp
  subst hp
  simp [thread0]

theorem witness_decode_error : decodeWord 0x0307060A = .error .illegalEncoding ∧
    decodeWord (BitVec.ofNat 128 (0x016 + 7 * 2 ^ 16 + 64 * 2 ^ 32)) = .ok (.mov plain w32 (.v 64) (.v 0)) ∧
    (usesOf (.mov plain w32 (.v 64) (.v 0))).inRange (small.group (small.thread 0).group).regs = false := by decide +kernel

def fetchFaults (s : State) (t : Nat) : Bool :=
  match fetchOf s t with
  | .fault f => f.cause != 5
  | _ => false

theorem witness_fetch_fault : ∃ f, fetchOf small 0 = .fault f ∧ f.cause ≠ 5 := by
  have h : fetchFaults small 0 = true := by decide +kernel
  unfold fetchFaults at h
  split at h
  · exact ⟨_, ‹_›, bne_iff_ne.1 h⟩
  · cases h

/-! Classes 0x0 to 0x4. -/

theorem witness_computes : Issues small ∧ sfuDone small = true := ⟨small_alone.toSolo.toIssues, by decide +kernel⟩

/-- Threads 0 and 1 issue together; a result to k3 is the lead's. -/
def twoThreads : State := { small with threads := [(0, thread0), (1, { thread0 with tid := 1 })], iss := ⟨0, [0, 1], [], 0x100, 0, none⟩ }

theorem witness_computes_two : Issues twoThreads ∧ sfuDone twoThreads = true ∧ leadOf twoThreads plain = some 0 :=
  ⟨⟨⟨by decide +kernel, by decide +kernel, by decide +kernel, by decide +kernel⟩, rfl, rfl, by decide +kernel⟩, by decide +kernel, by decide +kernel⟩

/-- Thread 0 awaits a result of its SFU-class instruction. -/
def sfuEntry (d : Option Reg) : SfuEntry :=
  { id := 3, thread := 0, pc := 0xF0, d, dn := .v 2, res := [5], flags := 1, punit := 6, left := 0, before := thread0 }
def sfuWaits (d : Option Reg) : State := { small with cores := [(0, { sfu := [sfuEntry d] })] }

theorem witness_sfu_result : (∀ d ∈ [some (Reg.v 2), some (.k 2), none],
    ((sfuWaits d).core 0).sfu.find? (fun y => y.id == (sfuEntry d).id) = some (sfuEntry d) ∧
    (∀ y ∈ ((sfuWaits d).core 0).sfu, y.thread = (sfuEntry d).thread → (sfuEntry d).id ≤ y.id) ∧ coreOfThread (sfuEntry d).thread = 0 ∧
    tfind ((sfuWaits d).core 0).inj 4 = none ∧ (tfind (sfuWaits d).threads (sfuEntry d).thread).isSome = true ∧
    (tfind (sfuWaits d).groups ((sfuWaits d).thread (sfuEntry d).thread).group).isSome = true) := by decide +kernel

/-- While it is outstanding, an instruction that writes v registers only may issue. -/
theorem witness_computes_outstanding : Issues (sfuWaits (some (.v 2))) ∧
    ∀ t ∈ (sfuWaits (some (.v 2))).iss.members, (resultOf (sfuWaits (some (.v 2))) (fun th _ => .reg (.v 9) [vread th 0]) t).writesK = false :=
  ⟨⟨⟨by decide +kernel, by decide +kernel, by decide +kernel, by decide +kernel⟩, rfl, rfl, by decide +kernel⟩, by decide +kernel⟩

/-! Class 0x6. -/

/-- Targets at the first and last legal PC, and one beyond. -/
theorem witness_transfers : Solo small 0 plain ∧ ((small.thread 0).pc + (0 - 0x100 : DWord)).toNat = 0 ∧
    ((small.thread 0).pc + 0x1FFFFFFFFFFFEF0).toNat % 16 = 0 ∧ ((small.thread 0).pc + 0x1FFFFFFFFFFFEF0).toNat = 2 ^ 57 - 16 ∧
    ((small.thread 0).pc + 0x1FFFFFFFFFFFF00).toNat = 2 ^ 57 := ⟨small_alone.toSolo, by decide +kernel⟩

def asleep (r : RunState) : State := { small with threads := [(0, { thread0 with run := r })] }

theorem witness_sleep : ((asleep (.sleeping 0)).thread 0).run = .sleeping 0 ∧ ((asleep (.resting 1)).thread 0).run = .resting 1 := by
  decide +kernel

theorem witness_joinset : ((small.thread 0).pc + 0x20).toNat % 16 = 0 ∧ ((small.thread 0).pc + 0x20).toNat < 2 ^ 57 ∧
    tfind (small.thread 0).j 15 = none := by decide +kernel

/-- j3 is armed in thread 0. -/
def joined : State := { small with threads := [(0, { thread0 with j := [(3, ⟨0xF0, 0x100, 2⟩)] })] }

theorem witness_joinwait : Alone joined 0 plain ∧ tfind (joined.thread 0).j 3 = some ⟨0xF0, 0x100, 2⟩ ∧ Rising joined.threads ∧
    (∀ p ∈ joined.threads, p.1 ≠ 0 → p.2.group = (joined.thread 0).group → ∀ y, tfind p.2.j 3 = some y → y.inst ≠ 2) := by
  refine ⟨alone_of_ok (by decide +kernel), by decide +kernel, rising_of (by decide +kernel), ?_⟩
  intro p hp h0
  simp only [joined, List.mem_singleton] at hp
  subst hp
  exact absurd rfl h0

/-- Another member of the instance is still to come, or waits in its JOINWAIT. -/
def joinedTwo (r : RunState) : State :=
  { joined with threads := joined.threads ++ [(1, { thread0 with tid := 1, run := r, j := [(3, ⟨0xF0, 0x100, 2⟩)] })] }

theorem witness_join_two :
    (Alone (joinedTwo .running) 0 plain ∧ Rising (joinedTwo .running).threads ∧
      ∃ p ∈ (instMembers (joinedTwo .running) 1 3 2).filter (fun p => p.1 != 0), p.2.run ≠ .waiting (.join 3)) ∧
    (Alone (joinedTwo (.waiting (.join 3))) 0 plain ∧ Rising (joinedTwo (.waiting (.join 3))).threads ∧
      (instMembers (joinedTwo (.waiting (.join 3))) 1 3 2).filter (fun p => p.1 != 0) ≠ [] ∧
      ∀ p ∈ (instMembers (joinedTwo (.waiting (.join 3))) 1 3 2).filter (fun p => p.1 != 0), p.2.run = .waiting (.join 3)) :=
  ⟨⟨alone_of_ok (by decide +kernel), rising_of (by decide +kernel), by decide +kernel⟩,
    alone_of_ok (by decide +kernel), rising_of (by decide +kernel), by decide +kernel, by decide +kernel⟩

theorem witness_exit : Solo small 0 plain ∧ loadsOf small 0 = [] ∧ sfuOf small 0 = [] ∧ lateOf small 0 = [] ∧ (small.thread 0).j = [] ∧
    (small.group (small.thread 0).group).bars = [] ∧ (small.core (coreOfThread 0)).cross = [] ∧ Rising small.threads ∧
    (∀ p ∈ small.threads, p.1 ≠ 0 → p.2.group ≠ (small.thread 0).group) :=
  ⟨small_alone.toSolo, by decide +kernel, by decide +kernel, by decide +kernel, by decide +kernel, by decide +kernel,
    by decide +kernel, rising_of (by decide +kernel), by decide +kernel⟩

/-! Class 0xE. -/

theorem witness_padmask : small.launchOf 0 = some launch1 ∧ lateOf small 0 = [] := by decide +kernel

/-- v8 = 4095, v9 = 0x10003 (of which %scrways takes 3), v10:v11 = (5, 15), v12:v13 = (5, 16). -/
def sysRegs : State :=
  { small with threads := [(0, { thread0 with v := [(8, 4095), (9, 0x10003), (10, 5), (11, 15), (12, 5), (13, 16)] })] }

theorem witness_ways : srcNat (small.thread 0) (small.group 1) (nregs64 false) (.c 0) % 2 ^ 16 = 2 ^ 0 - 1 ∧
    srcNat (sysRegs.thread 0) (sysRegs.group 1) (nregs64 false) (.v 8) % 2 ^ 16 = 2 ^ 12 - 1 ∧
    srcNat (sysRegs.thread 0) (sysRegs.group 1) (nregs64 false) (.v 9) % 2 ^ 16 = 2 ^ 2 - 1 ∧
    (∀ n, n ≤ 12 → srcNat (small.thread 0) (small.group 1) (nregs64 false) (.c 2) % 2 ^ 16 ≠ 2 ^ n - 1) := by decide +kernel

theorem witness_counters : cntCfgOk (srcW (small.thread 0) (small.group 1) (.c 0xE)) = true ∧
    cntCfgOk (srcW (small.thread 0) (small.group 1) (.c 0xF)) = false ∧
    cntCfgOk (srcW (small.thread 0) (small.group 1) (.c 0)) = false := by decide +kernel

theorem witness_regions : Alone sysRegs 0 plain ∧ hi32 (regD (sysRegs.thread 0) (sysRegs.group 1) (.v 10)) < 16 ∧
    16 ≤ hi32 (regD (sysRegs.thread 0) (sysRegs.group 1) (.v 12)) := ⟨alone_of_ok (by decide +kernel), by decide +kernel⟩

/-- A test partition; v8 to v15 hold a descriptor of class 0, v16 to v23 one of class 4 (residue of unit 8), v24 to v31 one
whose seed is zero. -/
def testPart : State :=
  { small with
    parts := [(1, { test := true })]
    threads := [(0, { thread0 with v := [(9, 1), (16, 4 + 8 * 1024), (17, 1), (24, 1)] })] }

theorem witness_injectors : (small.part (small.partOf 0)).test = false ∧ Alone testPart 0 plain ∧
    (testPart.part (testPart.partOf 0)).test = true ∧
    (injParse (regNat (testPart.thread 0) (testPart.group 1) 8 (.v 8)) 0 1 1 testPart.nextId).map (·.1) = some 0 ∧
    (injParse (regNat (testPart.thread 0) (testPart.group 1) 8 (.v 16)) 0 1 1 testPart.nextId).map (·.1) = some (3 + 1) ∧
    injParse (regNat (testPart.thread 0) (testPart.group 1) 8 (.v 24)) 0 1 1 testPart.nextId = none :=
  ⟨by decide +kernel, alone_of_ok (by decide +kernel), by decide +kernel⟩

theorem witness_trap : (tfind small.threads 0).isSome = true := by decide +kernel

/-- The checker of thread 0 mismatches. -/
def mismatching : State := { small with iss := { small.iss with bad := [.checker 0 1] } }

theorem witness_checker : Placed mismatching ∧ mismatching.iss.members = [0] ∧ mismatching.iss.held = none ∧ mismatching.iss.bad = [.checker 0 1] ∧
    tfind (mismatching.core mismatching.iss.core).inj 4 = none ∧ guardOf (mismatching.thread 0) plain = true ∧ sfuOf mismatching 0 = [] :=
  ⟨⟨by decide +kernel, by decide +kernel, by decide +kernel, by decide +kernel⟩, rfl, rfl, rfl, by decide +kernel⟩

/-! Classes 0x7 and 0x8. -/

/-- An object entry of R152: type, the rights R, W and A as a mask, BMODE, base, extent. -/
def objEntry (type rights bmode base extent : Nat) : BitVec 256 :=
  BitVec.ofNat 256 (type + 16 * rights + 4096 * bmode + 2 ^ 32 * base + 2 ^ 96 * extent)

/-- Objects of partition 1: 1 device memory at 0x1000, 2 the whole scratch, 3 bank memory of die 0, 4 sixteen bytes under BMODE ZERO,
5 without rights, 6 a FREE entry, 7 of type sync, 8 a table object of 24 KiB, 9 a welt pool of one tag, 10 the edge to node 1,
11 a host window, 12 an array with the F4X format. -/
def objects : List (Nat × Nat × BitVec 256) :=
  [(1, 1, objEntry 1 7 0 0x1000 0x1000), (1, 2, objEntry 1 7 0 (2 ^ 60) 0x20000), (1, 3, objEntry 2 7 0 (2 ^ 61) 0x1000),
   (1, 4, objEntry 1 7 1 0x1000 16), (1, 5, objEntry 1 0 0 0x1000 16), (1, 6, 0), (1, 7, BitVec.ofNat 256 (3 + 64 + 2 ^ 32 * (2 ^ 61))),
   (1, 8, objEntry 1 7 0 0x1000 128), (1, 9, BitVec.ofNat 256 (6 + 64 + 2 ^ 32 * 5 + 2 ^ 64)),
   (1, 11, objEntry 1 7 0 (2 ^ 62) 0x1000), (1, 12, BitVec.ofNat 256 (1 + 16 * 7 + 256 * 8 + 2 ^ 32 * 0x1000 + 2 ^ 96 * 0x1000))]

/-- Core 0: one scratch way, a translation of the first 1 GiB to itself, the objects in its cache. -/
def core0 : Core :=
  { scrways := 1, tlb := [{ part := 1, va := 0, size := 2 ^ 30, gpa := 0, pa := 0, l1 := none, l2 := ⟨0, 2 ^ 30, 2, 0x1F⟩, priv := false }]
    ocache := objects }

/-- Partition 1: active, with stage-2 tables at 0x10000 that map the first 1 GiB to itself, four bank granules on die 0, an enabled
fault ring at 0x20000, host window 0. -/
def part1 : Part :=
  { st := .active, s2root := 0x10000, pbank := [(0, 4), (0, 0), (0, 0), (0, 0)], frcfg := 1, frbase := 0x20000, pslots := 4
    pclu := [1, 0, 0, 0], wins := [(0, { base := 0, size := 0x1000, veraddr := 0x40, flags := 7 })] }

/-- The page-table entries of partition 1. -/
def tables : Mem :=
  [(0x10000, 1), (0x10001, 0x10), (0x10002, 1), (0x11000, 1), (0x11001, 0x20), (0x11002, 1), (0x12000, 0x1F)]

/-- The small machine with memory: v20:v21 point to scratch offset 0x100, v22:v23 to bank byte 0x40, v24:v25 to device memory. -/
def demo : State :=
  { small with
    cores := [(0, core0)]
    parts := [(1, part1)]
    hbm := tables
    hbmStacks := (List.range 16).map (fun i => (i, { st := 2, ecsen := true }))
    threads := [(0, { thread0 with v := [(0, 3), (20, 0x100), (21, 0x10000000), (22, 0x40), (23, 0x20000000), (24, 0x1000)] })] }

theorem demo_alone : Alone demo 0 plain := alone_of_ok (by decide +kernel)

def fetchLost (s : State) (t : Nat) : Bool :=
  match fetchOf s t with
  | .lost 0x52 1 none => true
  | _ => false

/-- Every stack has failed its training. -/
theorem witness_fetch_lost :
    fetchOf { demo with hbmStacks := (List.range 16).map (fun i => (i, { st := 3 })) } 0 = .lost 0x52 1 none := by
  have h : fetchLost { demo with hbmStacks := (List.range 16).map (fun i => (i, { st := 3 })) } 0 = true := by decide +kernel
  unfold fetchLost at h
  split at h
  · assumption
  · cases h

/-- The memory operand [ob:n + off]. -/
def mem (n : Nat) (off : Word) : MemOp := ⟨.idx (BitVec.ofNat 16 n), .plain, .c 0, off⟩
def mem0 (n : Nat) (off : Word) : MemOp0 := ⟨.idx (BitVec.ofNat 16 n), .c 0, off⟩

/-- obj_check of thread 0 answers `a` (and `p` of the state it leaves), as a check. -/
def checkIs (s : State) (need : Rights) (m : MemOp) (size align : Nat) (bankOnly : Bool) (a : Chk) (p : State → Bool) : Bool :=
  (objCheck s 0 (s.thread 0) (s.group (s.thread 0).group) [1, 2] need m size align bankOnly).any (fun x => x.2.1 == a && p x.2.2)

theorem checked_of {s : State} {need : Rights} {m : MemOp} {size align : Nat} {b : Bool} {a : Chk} {p : State → Bool}
    (h : checkIs s need m size align b a p = true) : ∃ e s1, Checked s 0 need m size align b e a s1 ∧ p s1 = true := by
  obtain ⟨⟨e, a', s1⟩, hx, hp⟩ := some_of h
  simp only [Bool.and_eq_true, beq_iff_eq] at hp
  exact ⟨e, s1, by rw [Checked, hx, hp.1], hp.2⟩

/-- Each answer of obj_check: of an invalid entry, a wrong type, a missing right, AM .el of a format without a size, out of bounds
with and without BMODE ZERO, past the scratch, misaligned, and in bounds at the last byte. -/
theorem witness_object_checks :
    let e := fun i => ((objects[i]?).map (fun x => x.2.2.toNat)).getD 0
    let s := demo
    entryValid s 1 0 (e 5) = false ∧ entryValid s 1 0 (e 6) = true ∧ (oType (e 6) ≠ 1 ∧ oType (e 6) ≠ 2) ∧
    entryValid s 1 0 (e 4) = true ∧ oR (e 4) = false ∧ oEfmt (e 10) = 8 ∧ entryValid s 1 0 (e 10) = true ∧
    ((4093 : Int) + 4 > oExtent (e 0)) ∧ ((4092 : Int) + 4 ≤ oExtent (e 0)) ∧ oBmode (e 0) = 0 ∧ oBmode (e 3) = 1 ∧
    entryValid s 1 0 (e 0) = true ∧ (oBase (e 0) + BitVec.ofInt 64 2).toNat % 4 = 2 ∧
    ptrSpace (oBase (e 1)) = 1 ∧ scratchSize (s.core 0) = 0x20000 ∧ scratchSize (({} : Core)) < 4 := by decide +kernel

theorem witness_loads : (∃ e s1, Checked (numbered demo) 0 { r := true } (mem 1 0xFFC) 4 4 false e (.inb 0x1FFC) s1 ∧
      (!ptrUnfilled s1 0 0x1FFC 4) = true) ∧
    (∃ e s1, Checked (numbered demo) 0 { r := true } (mem 4 16) 4 4 false e .out s1 ∧ true = true) ∧
    (∃ e s1, Checked (numbered demo) 0 { r := true } (mem 1 0xFFD) 4 4 false e (.trap 0x24 0) s1 ∧ true = true) :=
  ⟨checked_of (by decide +kernel), checked_of (p := fun _ => true) (by decide +kernel), checked_of (p := fun _ => true) (by decide +kernel)⟩

theorem witness_scratch_loads :
    ((131068 : Int) = (srcNat (demo.thread 0) (demo.group 1) 1 (.v 0) : Int) + (131065 : Word).toInt) ∧
    131068 + ldBytes .b32 ≤ scratchSize (demo.core 0) ∧ 131068 % ldBytes .b32 = 0 ∧ unfilledAt demo 0 131068 (ldBytes .b32) = false ∧
    ((srcNat (demo.thread 0) (demo.group 1) 1 (.v 0) : Int) + (0xFFFFFFFC : Word).toInt < 0) ∧
    ((scratchSize (demo.core 0) : Int) < srcNat (demo.thread 0) (demo.group 1) 1 (.v 0) + (131066 : Word).toInt + ldBytes .b32) ∧
    ((3 : Int) = (srcNat (demo.thread 0) (demo.group 1) 1 (.v 0) : Int) + (0 : Word).toInt ∧ 3 % ldBytes .b32 ≠ 0) := by
  decide +kernel

/-- As `demo`, of a privileged launch. -/
def privileged : State := { demo with launches := [(1, { launch1 with priv := true })] }

def noLane : Option Lane → Bool
  | none => true
  | some _ => false

theorem none_of {o : Option Lane} (h : noLane o = true) : o = none := by
  cases o with
  | none => rfl
  | some _ => cases h

theorem witness_raw_access : Alone privileged 0 plain ∧
    rawCheck (numbered privileged) 0 (regD (privileged.thread 0) (privileged.group 1) (.v 24))
      (regD (privileged.thread 0) (privileged.group 1) (.v 24) + (0xFFC : Word).signExtend 64) 4 = none ∧
    ptrUnfilled privileged 0 (regD (privileged.thread 0) (privileged.group 1) (.v 24) + (0xFFC : Word).signExtend 64) 4 = false ∧
    demo.privOf 0 = false :=
  ⟨alone_of_ok (by decide +kernel), none_of (by decide +kernel), by decide +kernel, by decide +kernel⟩

theorem witness_stores : freeStoreSlot (demo.core (coreOfThread 0)) = some 0 ∧
    (∃ e s1, Checked (numbered demo) 0 { w := true } (mem 3 0xFF0) 16 16 false e (.inb 0x2000000000000FF0) s1 ∧
      (!ptrUnfilled s1 0 0x2000000000000FF0 16) = true) ∧
    (∃ e s1, Checked (numbered demo) 0 { w := true } (mem 4 13) 4 4 false e .out s1 ∧ true = true) ∧
    (∃ e s1, Checked (numbered demo) 0 { w := true } (mem 5 0) 4 4 false e (.trap 0x22 0) s1 ∧ true = true) :=
  ⟨by decide +kernel, checked_of (by decide +kernel), checked_of (p := fun _ => true) (by decide +kernel),
    checked_of (p := fun _ => true) (by decide +kernel)⟩

/-- An answer that resolves, meets no fault there and reads a value, as one check. -/
def lineOk (addr : DWord) (s1 : State) : Bool :=
  let sw := ptrWalk s1 0 1 addr
  !ptrWalkHeld s1 0 1 addr && okAnd (resolve sw 0 1 false addr needR) (fun l => (readFault sw 0 0 l 16).isNone && !hbmHeld sw l &&
    (match l with | .hbm _ => true | _ => false))

/-- An answer that resolves to a place of device memory, as a check. -/
def placeOk (need : Need) (addr : DWord) (s1 : State) : Bool :=
  !walkHeld s1 0 1 (ptrOff addr) &&
    okAnd (resolve (ptrWalk s1 0 1 addr) 0 1 false addr need) (fun l => match l with | .hbm _ => true | _ => false)

theorem witness_line_instructions :
    accOrdered demo 0 (demo.partOf 0) 0 demo.nextId { kind := .load (ldkKind .b128), ptr := 0x1000, data := [], priv := false } = true ∧
    ldkBytes .b128 = 16 ∧
    (∃ e s1, Checked demo 0 { r := true } (mem 1 0) 16 16 false e (.inb 0x1000) s1 ∧
      (!ptrUnfilled s1 0 0x1000 16 && lineOk 0x1000 s1) = true) ∧
    (∃ e s1, Checked (numbered demo) 0 { r := false, w := true } (mem 1 0x80) 128 128 false e (.inb 0x1080) s1 ∧
      (!ptrUnfilled s1 0 0x1080 128 && placeOk needW 0x1080 s1) = true) ∧
    (∃ e s1, Checked (numbered demo) 0 { r := true, w := false } (mem 1 0xFFF) 1 1 false e (.inb 0x1FFF) s1 ∧
      (!ptrUnfilled s1 0 0x1FFF 1 && placeOk needR 0x1FFF s1) = true) ∧
    (∃ e s1, Checked (numbered demo) 0 { r := false, w := true } (mem 2 0x80) 128 128 false e (.inb 0x1000000000000080) s1 ∧
      (!ptrUnfilled s1 0 0x1000000000000080 128) = true) ∧
    (∃ e s1, Checked (numbered demo) 0 { r := true, w := false } (mem 11 0) 1 1 false e (.inb 0x4000000000000000) s1 ∧
      (!ptrUnfilled s1 0 0x4000000000000000 1) = true) ∧
    (∃ x, capture demo 0 1 65535 = some x ∧ true = true) ∧ ptrSpace 0x1080 = 0 ∧ ptrSpace 0x1000000000000080 = 1 ∧
    ptrSpace 0x4000000000000000 = 4 ∧ freeStoreSlot (demo.core 0) = some 0 :=
  ⟨by decide +kernel, rfl, checked_of (by decide +kernel), checked_of (by decide +kernel), checked_of (by decide +kernel),
    checked_of (by decide +kernel), checked_of (by decide +kernel), some_of (p := fun _ => true) (by decide +kernel), by decide +kernel⟩

theorem witness_memories : demo.hbm.wf = true ∧ demo.bank.wf = true := by decide +kernel

theorem witness_atomic_room : freeStoreSlot (demo.core 0) = some 0 ∧ (demo.core 0).stores.length < 512 ∧
    (∃ e s1, Checked (numbered demo) 0 { a := true } (mem 4 16) 4 4 false e .out s1 ∧ true = true) ∧
    (∃ e s1, Checked (numbered demo) 0 { a := true } (mem 5 0) 4 4 false e (.trap 0x22 0) s1 ∧ true = true) ∧
    (∃ e s1, Checked (numbered demo) 0 { a := true } (mem 3 0xFFC) 4 4 false e (.inb 0x2000000000000FFC) s1 ∧
      (!ptrUnfilled s1 0 0x2000000000000FFC 4) = true) ∧ (AccKind.atomf .addF32).size = 4 ∧ (AccKind.cas false).size = 4 :=
  ⟨by decide +kernel, by decide +kernel, checked_of (p := fun _ => true) (by decide +kernel),
    checked_of (p := fun _ => true) (by decide +kernel), checked_of (by decide +kernel), by decide +kernel⟩

theorem witness_atomics :
    (∃ e s1, Checked (numbered demo) 0 { a := true } (mem 3 0xFF8) 8 8 false e (.inb 0x2000000000000FF8) s1 ∧
      (!ptrUnfilled s1 0 0x2000000000000FF8 8) = true) ∧
    (∃ e s1, Checked (numbered demo) 0 { a := true } (mem 3 0xFF0) 16 16 true e (.inb 0x2000000000000FF0) s1 ∧
      (!ptrUnfilled s1 0 0x2000000000000FF0 16) = true) ∧
    (∃ e s1, Checked (numbered demo) 0 { r := true } (mem 3 0x80) 128 4 true e (.inb 0x2000000000000080) s1 ∧
      (!ptrUnfilled s1 0 0x2000000000000080 128) = true) ∧
    (0x2000000000000080 : DWord).toNat / 128 = ((0x2000000000000080 : DWord).toNat + 4 * 32 - 1) / 128 ∧
    srcNat (demo.thread 0) (demo.group 1) 1 (.c 32) = 32 ∧ srcNat (demo.thread 0) (demo.group 1) 1 (.c 1) = 1 ∧
    srcNat (demo.thread 0) (demo.group 1) 1 (.c 0) = 0 ∧ 32 < srcNat (demo.thread 0) (demo.group 1) 1 (.c 33) ∧
    (∃ e s1, Checked (numbered demo) 0 { a := true } (mem 11 0) 4 4 false e (.inb 0x4000000000000000) s1 ∧
      (!ptrUnfilled s1 0 0x4000000000000000 4) = true) ∧ ptrSpace 0x4000000000000000 = 4 :=
  ⟨checked_of (by decide +kernel), checked_of (by decide +kernel), checked_of (by decide +kernel), by decide +kernel, by decide +kernel,
    by decide +kernel, by decide +kernel, by decide +kernel, checked_of (by decide +kernel), by decide +kernel⟩

theorem witness_atomic_place : (AccKind.atom .add false).atomic = true ∧ (AccKind.bankop .add .s32).atomic = true ∧
    2 ^ 27 - 16 + (AccKind.bankop .add .s32).size ≤ 2 ^ 27 := by decide +kernel

/-- A load and a store in flight from thread 0, at pointer `p`. -/
def loadAt' (p : DWord) : LoadEntry :=
  { id := 3, thread := 0, group := 1, launch := 1, tid := 0, pc := 0xF0, word := 0, acc := { kind := .load .b32, ptr := p, data := [] }
    d := some (.v 2), dn := .v 2, nd := 1, aop := 0, objIdx := 1, left := 0, batch := 3, clk := 0 }
def storeAt' (p : DWord) : StoreEntry :=
  { id := 3, slot := 0, thread := 0, group := 1, launch := 1, tid := 0, pc := 0xF0, word := 0
    acc := { kind := .store 4, ptr := p, data := [7] }, batch := 3, clk := 0 }
def flying (ls : List LoadEntry) (ss : List StoreEntry) : State :=
  { demo with cores := [(0, { core0 with loads := ls, stores := ss })] }

theorem witness_load_performs : ∀ x ∈ [((0x1FFC : DWord), Loc.hbm 0x1FFC), (0x100000000001FFFC, .scratch 0 0x1FFFC),
      (0x2000000000000040, .bank 0 0x40)],
    let s := flying [loadAt' x.1] []
    (s.core 0).loads.find? (fun y => y.id == (loadAt' x.1).id) = some (loadAt' x.1) ∧ loadReady s 0 (loadAt' x.1) = some x.2 ∧
    coreOfThread 0 = 0 ∧ (tfind s.threads 0).isSome = true ∧ (loadAt' x.1).acc.order = .rlx ∧
    (s.core 0).l1d.length < l1Capacity (s.core 0) ∧ tfind (s.core 0).l1d (lineNo 0x1FFC) = none ∧ 0x1FFC % 128 + ldBytes .b32 ≤ 128 := by
  decide +kernel

/-- A result that waits to be written, to a v, a k register and a predicate. -/
def late1 : LateEntry := { id := 4, thread := 0, group := 1, regs := [(.v 2, [9]), (.k 2, [8])], preds := [(1, true)], flags := 1, names := [(.v 2, 1)], left := 0, long := true }
def lateWaits : State := { demo with cores := [(0, { core0 with late := [late1] })] }

theorem witness_late_result : (∀ y ∈ (lateWaits.core 0).loads, y.id ≠ late1.id) ∧
    (lateWaits.core 0).late.find? (fun y => y.id == late1.id) = some late1 ∧ late1.ready = true ∧ coreOfThread late1.thread = 0 ∧
    (∀ y ∈ (lateWaits.core 0).sfu, y.thread = late1.thread → late1.id ≤ y.id) ∧ (tfind lateWaits.threads late1.thread).isSome = true ∧
    (tfind lateWaits.groups (lateWaits.thread late1.thread).group).isSome = true := by decide +kernel

theorem witness_store_performs : (∀ x ∈ [((0x1FFC : DWord), Loc.hbm 0x1FFC), (0x100000000001FFFC, .scratch 0 0x1FFFC),
      (0x2000000000000040, .bank 0 0x40)],
    let s := flying [] [storeAt' x.1]
    (s.core 0).stores.find? (fun y => y.id == (storeAt' x.1).id) = some (storeAt' x.1) ∧ storeReady s 0 (storeAt' x.1) = some x.2 ∧
    (storeAt' x.1).acc.order = .rlx ∧ s.bank.wf = true ∧ (storeAt' x.1).acc.ch.toNat % 4 ≠ 3 ∧
    (s.core 0).l1d.length < l1Capacity (s.core 0) ∧ 0x40 + ((bytesOfWords (storeAt' x.1).acc.data).take 4).length ≤ 2 ^ 27 ∧
    (s.group (storeAt' x.1).group).bars = [] ∧ tfind s.launches (storeAt' x.1).launch = some launch1 ∧ launch1.ctx = []) ∧
    (∀ c, ((flying [] [storeAt' 0x1FFC]).core c).scratch.wf = true) :=
  ⟨by decide +kernel, all_cores (p := fun x => x.scratch.wf = true) (by decide) (by decide +kernel)⟩

theorem witness_access_fails :
    accOrdered (flying [loadAt' 0x40000000] []) 0 1 0 3 (loadAt' 0x40000000).acc = true ∧
    partOfLaunch (flying [loadAt' 0x40000000] []) 1 = 1 ∧
    (failOf (flying [loadAt' 0x40000000] []) 0 1 0 (loadAt' 0x40000000).acc .xlate).isSome = true ∧
    (let s : State := { flying [loadAt' 0x1000] [] with fw := { ueLines := [32] } }
     (failOf s 0 1 0 (loadAt' 0x1000).acc (.dataError 2)).isSome = true) ∧
    (let s : State := { flying [loadAt' 0x1000] [] with threads := [(0, { thread0 with run := .exited })], fw := { ueLines := [32] } }
     (failOf s 0 1 0 (loadAt' 0x1000).acc (.dataError 2)).isSome = true ∧ accOrdered s 0 1 0 3 (loadAt' 0x1000).acc = true ∧
     (s.thread 0).run = .exited) ∧
    ((flying [loadAt' 0x40000000] []).thread 0).run ≠ .exited ∧ exiting ((flying [loadAt' 0x40000000] []).thread 0) = false ∧
    exiting { thread0 with run := .waiting .finish, held := some { word := encode (.exit plain), lead := none, k := [], caps := [] } } = true ∧
    accOrdered (flying [] [storeAt' 0x40000000]) 0 1 0 3 (storeAt' 0x40000000).acc = true ∧ (storeAt' 0x40000000).held = false ∧
    (failOf (flying [] [storeAt' 0x40000000]) 0 1 0 (storeAt' 0x40000000).acc .xlate).isSome = true := by decide +kernel

def ok2 {ε α : Type} (e : Except ε α) : Bool := okAnd e (fun _ => true)

/-- A line that thread 0 waits for, a walk, a way to fill, one held record. -/
def filling : State :=
  { demo with
    cores := [(0, { core0 with scrways := 3, unfilled := 2 })]
    parts := [(1, { part1 with heldRecs := [{ code := 0x50, detail := 1 }] })] }

/-- No translation is held, and a load awaits one. -/
def walking : State := { demo with cores := [(0, { core0 with tlb := [], loads := [loadAt' 0x3FFFFFFF] })] }

theorem witness_walk : tlbFind walking 0 1 0x3FFFFFFF = none ∧ walkHeld walking 0 1 0x3FFFFFFF = false ∧
    walkLink walking 0 1 0x3FFFFFFF = none ∧ walkAwaited walking 0 1 0x3FFFFFFF = true ∧
    (∃ r, walk walking 1 true 0x3FFFFFFF {} = .ok r ∧ (r.1 == 0x3FFFFFFF) = true) :=
  ⟨by decide +kernel, by decide +kernel, by decide +kernel, by decide +kernel, ok_of (by decide +kernel)⟩

/-- Thread 0 is about to load from object 65535, which the object cache lacks. -/
def naming : State :=
  { demo with cores := [(0, { core0 with l1i := [(2, (encode (.ld plain .b32 1 (mem 0xFFFF 0))).setWidth 1024)] })] }

theorem witness_object_fill : fillAwaited naming 0 1 0xFFFF = true ∧ hbmHeld naming (otLoc naming 1 0xFFFF) = false := by decide +kernel

theorem witness_line_actions : demo.hbm.wf = true ∧ homeCut demo 0 (lineNo 0) = false ∧ homeCut demo 0 (lineNo (2 ^ 40 - 1)) = false := by
  decide +kernel

theorem witness_fills : fetchLineNo demo 0 = some 2 ∧
    tfind (demo.core 0).l1i 2 = none ∧ tfind (demo.cluster (clusterOf 0)).l2i 2 = none ∧
    tfind (demo.die (dieOfPa (128 * 2))).l2i 2 = none ∧ lineHeld demo 0 2 = false ∧ lineFault demo 0 2 = none ∧ (demo.thread 0).run ≠ .exited ∧
    (filling.core 0).unfilled.getLsbD 1 = true ∧ (∀ v, v < 1 → (filling.core 0).unfilled.getLsbD v = false) ∧
    (filling.part 1).heldRecs = [{ code := 0x50, detail := 1 }] ∧ (ringWrite filling 1 { code := 0x50, detail := 1 }).isSome = true := by
  decide +kernel

/-! Classes 0x9, 0xA and 0xC. -/

theorem witness_fences : releaseReady demo 0 .sys = true ∧ loadsDone demo 0 = true ∧ accessesDone demo 0 = true ∧
    (demo.group 1).size < srcNat (demo.thread 0) (demo.group 1) 1 (.c 65) ∧ srcNat (demo.thread 0) (demo.group 1) 1 (.c 64) ≤ (demo.group 1).size ∧
    barReady demo 0 = true ∧ (tget {} (demo.group 1).bars 15).closing = [] ∧
    (tget {} (demo.group 1).bars 15).count = 0 ∧ (tget {} (demo.group 1).bars 15).count + 1 < srcNat (demo.thread 0) (demo.group 1) 1 (.c 64) ∧
    srcNat (demo.thread 0) (demo.group 1) 1 (.c 1) = 1 ∧ 1 ≤ (demo.group 1).size ∧ (demo.group 1).bars = [] := by decide +kernel

/-- `demo` with a second thread in the group. -/
def demoTwo : State := { demo with threads := demo.threads ++ [(1, { thread0 with tid := 1 })] }

/-- n = 0 with two threads that have not exited, and with one. -/
theorem witness_bar_all : Alone demoTwo 0 plain ∧ barReady demoTwo 0 = true ∧ srcNat (demoTwo.thread 0) (demoTwo.group 1) 1 (.c 0) = 0 ∧
    (tget {} (demoTwo.group 1).bars 3).count + 1 < (demoTwo.liveOf (demoTwo.thread 0).group).length ∧
    srcNat (demo.thread 0) (demo.group 1) 1 (.c 0) = 0 ∧ (demo.liveOf (demo.thread 0).group).length = 1 ∧ (demo.thread 0).run ≠ .exited :=
  ⟨alone_of_ok (by decide +kernel), by decide +kernel⟩

/-- Barrier 3 of the group has one arrival of 64. -/
def arriving : State := { demo with groups := [(1, { group1 with bars := [(3, { n := 64, count := 1 })] })] }

theorem witness_phases : Alone arriving 0 plain ∧ PhasesOpen arriving (arriving.thread 0).group ∧ (arriving.thread 0).run = .running ∧
    srcNat (arriving.thread 0) (arriving.group 1) 1 (.c 2) ≤ (arriving.group 1).size ∧ (tget {} (arriving.group 1).bars 3).count ≠ 0 ∧
    (tget {} (arriving.group 1).bars 3).n ≠ srcNat (arriving.thread 0) (arriving.group 1) 1 (.c 2) ∧
    PhasesOpen demo (demo.thread 0).group ∧ (demo.thread 0).run = .running ∧ barReady arriving 0 = true ∧
    (tget {} (arriving.group 1).bars 3).closing = [] ∧
    (tget {} (arriving.group 1).bars 3).n = srcNat (arriving.thread 0) (arriving.group 1) 1 (.c 64) ∧
    (tget {} (arriving.group 1).bars 3).count + 1 < srcNat (arriving.thread 0) (arriving.group 1) 1 (.c 64) :=
  ⟨alone_of_ok (by decide +kernel), phases_open (by decide +kernel), by decide +kernel, by decide +kernel, by decide +kernel,
    by decide +kernel, phases_open (by decide +kernel), by decide +kernel⟩

theorem demo_threads {p : Nat × Thread} (h : p ∈ demo.threads) : p.2.run = .running := by
  simp only [demo, List.mem_singleton] at h
  subst h
  rfl

theorem witness_no_waits : Rising demo.threads ∧ (∀ p ∈ demo.threads, ∀ phase, p.2.run ≠ .waiting (.bar 3 phase)) ∧
    (∀ p ∈ demo.threads, ∀ all d q m, p.2.run ≠ .waiting (.tags all d q m)) ∧
    (∀ p ∈ demo.threads, ∀ o d par, p.2.run ≠ .waiting (.bowait (.scratch 0 o) d par)) :=
  ⟨rising_of (by decide +kernel), fun _ h => by simp [demo_threads h], fun _ h => by simp [demo_threads h],
    fun _ h => by simp [demo_threads h]⟩

/-- A barrier object at the last place of the scratch; in bank memory; values of BOINIT and both parities; a misaligned pointer and the
null pointer. -/
theorem witness_barrier_objects : BarrierNamed demo 0 (.v 20) 0x1FEF0 (.scratch 0 0x1FFF0) ∧
    BarrierNamed demo 0 (.v 22) 0 (.bank 0 0x40) ∧ srcNat (demo.thread 0) (demo.group 1) 2 (.c 1) < 2 ^ 56 ∧
    2 ^ 56 ≤ srcNat (demo.thread 0) (demo.group 1) 2 (.c 0x3FF) ∧
    boPhase (locNat demo (.scratch 0 0x1FFF0) 16) ≠ (srcNat (demo.thread 0) (demo.group 1) 1 (.c 1)).testBit 0 ∧
    boPhase (locNat demo (.scratch 0 0x1FFF0) 16) = (srcNat (demo.thread 0) (demo.group 1) 1 (.c 0)).testBit 0 ∧
    ueDetail demo (.scratch 0 0x1FFF0) 16 = none ∧ ueDetail demo (.bank 0 0x40) 16 = none ∧ releaseReady demo 0 .sys = true ∧
    regD (demo.thread 0) (demo.group 1) (.v 20) + (0x1FEF8 : Word).signExtend 64 ≠ 0 ∧
    boPtrOk demo 0 1 (regD (demo.thread 0) (demo.group 1) (.v 20) + (0x1FEF8 : Word).signExtend 64) = false ∧
    regD (demo.thread 0) (demo.group 1) (.v 2) + (0 : Word).signExtend 64 = 0 ∧ boPtrOk demo 0 1 0 = false :=
  ⟨⟨by decide +kernel, by decide +kernel, by decide +kernel, by decide +kernel⟩,
    ⟨by decide +kernel, by decide +kernel, by decide +kernel, by decide +kernel⟩, by decide +kernel⟩

theorem witness_object_value : (2 ^ 128 - 1 < 2 ^ 128 ∧ 127 < 128 : Prop) ∧
    (boExpBytes (2 ^ 40 - 1) ≤ min (boArrBytes (2 ^ 40 - 1) + 2 ^ 40) (2 ^ 40 - 1) ∧
      boExpArr (2 ^ 40 - 1) ≤ min (boArrCnt (2 ^ 40 - 1) + 0) 65535) ∧
    ¬ (boExpArr (2 ^ 40) ≤ min (boArrCnt (2 ^ 40) + 0) 65535) := by decide +kernel

/-- What `CopyChecked` asks, as a check, with `p` of the state left. -/
def copyOk (s : State) (bo : DWord) (m : MemOp0) (write : Bool) (size : Nat) (src : State → Except Lane (List Piece × Bool × State))
    (mc here : Bool) (ds ss : List Seg) (oob : Bool) (p : State → Bool) : Bool :=
  let part := s.partOf 0
  let o : Int := (srcNat (s.thread 0) (s.group (s.thread 0).group) 1 m.a : Int) + m.off.toInt
  (bo == 0 || boPtrOk s 0 part bo) &&
  (match capture s 0 part (objIdx (s.group (s.thread 0).group) m.obj) with
   | none => false
   | some (e, sc) => okAnd (src sc) (fun x =>
      entryValid sc part 0 e && (oType e == 1 || oType e == 2) && (if write then oW e else oR e) &&
      (outOfBounds e o size == false || oBmode e != 0) && (!mc || ptrSpace (oBase e) == 1) &&
      piecesInScratch ((if here then objPieces e o size else []) ++ x.1) (pendingScratch (x.2.2.core 0)) &&
      !piecesHeld x.2.2 0 part (objPieces e o size ++ x.1) &&
      okAnd (resolvePieces (piecesWalk x.2.2 0 part (objPieces e o size ++ x.1)) 0 part (s.privOf 0) (if write then needW else needR)
        (objPieces e o size)) (· == ds) &&
      okAnd (resolvePieces (piecesWalk x.2.2 0 part (objPieces e o size ++ x.1)) 0 part (s.privOf 0) (if write then needR else needW)
        x.1) (· == ss) &&
      (oob == (outOfBounds e o size || x.2.1)) && p (piecesWalk x.2.2 0 part (objPieces e o size ++ x.1))))

theorem copy_of {s : State} {bo : DWord} {m : MemOp0} {write : Bool} {size : Nat}
    {src : State → Except Lane (List Piece × Bool × State)} {mc here : Bool} {ds ss : List Seg} {oob : Bool} {p : State → Bool}
    (h : copyOk s bo m write size src mc here ds ss oob p = true) :
    ∃ s1, CopyChecked s 0 bo m write size src mc here s1 ds ss oob ∧ p s1 = true := by
  simp only [copyOk, Bool.and_eq_true, Bool.or_eq_true, beq_iff_eq] at h
  obtain ⟨hb, h⟩ := h
  split at h
  · cases h
  · rename_i e sc hc
    obtain ⟨⟨sp, out, s2⟩, hx, h⟩ := ok_of h
    simp only [Bool.and_eq_true, Bool.or_eq_true, beq_iff_eq, bne_iff_ne, Bool.not_eq_true'] at h
    obtain ⟨⟨⟨⟨⟨⟨⟨⟨⟨⟨h1, h2⟩, h3⟩, h4⟩, h5⟩, h6⟩, h11⟩, h7⟩, h8⟩, h10⟩, h9⟩ := h
    obtain ⟨d', hd, hd'⟩ := ok_of h7
    obtain ⟨r', hr, hr'⟩ := ok_of h8
    rw [beq_iff_eq] at hd' hr'
    subst hd' hr'
    refine ⟨_, ⟨hb, e, sc, sp, out, s2, hc, h1, h2, h3, h4, hx, ?_, h6, h11, rfl, hd, hr, h10⟩, h9⟩
    intro hm
    rcases h5 with h5 | h5
    · rw [hm] at h5
      cases h5
    · exact h5

def roomOk (s : State) (cp : Copy) : Bool :=
  ownClear s cp.core cp.part 0 (cp.src ++ cp.dst) && acqClear s cp.core 0 && decide ((s.copies.filter (fun p => p.2.core == cp.core)).length < 256) &&
    (match cp.tag with
     | some n => decide ((tget {} (s.core cp.core).tags n).count < 255)
     | none => true)

theorem room_of {s : State} {cp : Copy} (h : roomOk s cp = true) : copyRoom s cp 0 := by
  simp only [roomOk, Bool.and_eq_true, decide_eq_true_eq] at h
  refine ⟨h.1.1.1, h.1.1.2, h.1.2, fun n hn => ?_⟩
  rw [hn] at h
  simpa using h.2

/-- Descriptors in v32 to v47 (CPY: 16 bytes of object 1), v48 to v63 (CPYMC to cores 0 and 1 of die 0) and v64 to v79 (a box of 4
bytes of the shape pair 13, 14); v80:v81 a mask of tag 1; v82 a welt tag; v88 to v95 a welt descriptor (MAX.S32 of two operands
of 64 bytes to bank byte 0). -/
def copying : State :=
  { demo with
    cores := [(0, { core0 with
      ocache := objects ++ [(1, 13, objEntry 2 7 0 (2 ^ 61) 0x1000 ||| BitVec.ofNat 256 (4 * 2 ^ 208)),
                            (1, 14, BitVec.ofNat 256 (3 + 16))] })]
    threads := [(0, { thread0 with v :=
      [(32, 1), (34, 16), (48, 2), (50, 64), (51, 0x80018000), (64, 13), (73, 4), (74, 1), (75, 1), (76, 1), (77, 1), (80, 2), (82, 5),
       (88, 2 + 16 * 7), (89, 100), (91, 0x20000000)] })] }

theorem copying_alone : Alone copying 0 plain := alone_of_ok (by decide +kernel)

theorem witness_copy :
    let x := regNat (copying.thread 0) (copying.group 1) 16 (.v 32)
    (dw x 0 < 2 ^ 16 ∧ 1 ≤ dw x 2 ∧ dw x 2 ≤ 0x1000000 ∧ (∀ i, 3 ≤ i → i ≤ 13 → dw x i = 0) ∧
      boFormOk (.tag 63) (descBo x) = true) ∧
    ∃ s1, CopyChecked copying 0 (descBo x) (mem0 2 0x1FFF0) true (dw x 2) (srcObject 0 (copying.partOf 0) (dw x 0) (dwInt x 1) (dw x 2))
        false true s1 [⟨.scratch 0 0x1FFF0, 16⟩] [⟨.hbm 0x1000, 16⟩] false ∧
      roomOk s1 (newCopy copying plain 0 (.tag 63) (descBo x) [⟨.hbm 0x1000, 16⟩] [⟨.scratch 0 0x1FFF0, 16⟩] (dw x 2)) = true :=
  ⟨⟨by decide +kernel, by decide +kernel, by decide +kernel, by
      intro i h3 h13
      have : ∀ j < 14, 3 ≤ j → dw (regNat (copying.thread 0) (copying.group 1) 16 (.v 32)) j = 0 := by decide +kernel
      exact this i (by omega) h3, by decide +kernel⟩, copy_of (by decide +kernel)⟩

/-- A copy of no bytes. -/
theorem witness_copy_empty : dw (regNat (copying.thread 0) (copying.group 1) 16 (.v 0)) 2 = 0 := by decide +kernel

theorem witness_multicast :
    let x := regNat (copying.thread 0) (copying.group 1) 16 (.v 48)
    let dests := ((List.range 4).map (fun i => fld x (12 + 2 * i) 2)).filterMap destEntry
    (dw x 0 < 2 ^ 16 ∧ 1 ≤ dw x 2 ∧ dw x 2 ≤ 0x100000 ∧ dests ≠ [] ∧ boFormOk (.tag 0) (descBo x) = true) ∧
    (∀ j < 14, 5 ≤ j → dw x j = 0) ∧ (∀ i < 4, destEntryOk copying (fld x (12 + 2 * i) 2) = true) ∧
    ∃ s1, CopyChecked copying 0 (descBo x) (mem0 2 0) true (dw x 2) (srcObject 0 (copying.partOf 0) (dw x 0) (dwInt x 1) (dw x 2))
        true (dests.contains 0) s1 [⟨.scratch 0 0, 64⟩] [⟨.scratch 0 0, 64⟩] false ∧
      roomOk s1 (newCopy copying plain 0 (.tag 0) (descBo x) [⟨.scratch 0 0, 64⟩] [⟨.scratch 0 0, 64⟩] (dw x 2)) = true :=
  ⟨by decide +kernel, by decide +kernel, by decide +kernel, copy_of (by decide +kernel)⟩

theorem witness_box :
    let x := regNat (copying.thread 0) (copying.group 1) 16 (.v 64)
    (dw x 0 < 2 ^ 16 ∧ (∀ i < 4, 1 ≤ i → dw x i = 0) ∧ (∀ i < 5, 1 ≤ boxExtent x i ∧ boxExtent x i ≤ 65535) ∧
      boFormOk .bo (descBo (x + 2 ^ 504)) = true) ∧
    ∃ p, shapePair 0 (copying.partOf 0) (dw x 0) false copying = .ok p ∧
      (boxOk x p && boxCount x p.head * unitBytes p.head == 4 &&
       copyOk copying (descBo x) (mem0 2 0) true 4 (boxSide 0 (copying.partOf 0) x false) false true [⟨.scratch 0 0, 4⟩]
        [⟨.bank 0 0, 1⟩, ⟨.bank 0 1, 1⟩, ⟨.bank 0 2, 1⟩, ⟨.bank 0 3, 1⟩] false (fun s1 => roomOk s1
          (newCopy copying plain 0 .bo (descBo x) [⟨.bank 0 0, 1⟩, ⟨.bank 0 1, 1⟩, ⟨.bank 0 2, 1⟩, ⟨.bank 0 3, 1⟩]
            [⟨.scratch 0 0, 4⟩] 4))) = true :=
  ⟨by decide +kernel, ok_of (by decide +kernel)⟩

theorem witness_welt_send : srcNat (copying.thread 0) (copying.group 1) 1 (.c 0) % 64 = 0 ∧
    srcNat (copying.thread 0) (copying.group 1) 1 (.c 0) + 64 * (15 + 1) ≤ pendingScratch (copying.core 0) ∧
    roomOk copying (newCopy copying plain 0 (.tag 63) 0 [⟨.scratch 0 0, 1024⟩] [] 1024) = true := by decide +kernel

/-- A copy partly out of bounds of object 4, which has BMODE ZERO. -/
theorem witness_copy_out_of_bounds : let x := regNat (copying.thread 0) (copying.group 1) 16 (.v 32)
    ∃ s1, CopyChecked copying 0 (descBo x) (mem0 4 8) true (dw x 2) (srcObject 0 (copying.partOf 0) 2 0 (dw x 2))
        false true s1 [⟨.hbm 0x1008, 8⟩, ⟨.zero, 8⟩] [⟨.scratch 0 0, 16⟩] true ∧ true = true := copy_of (p := fun _ => true) (by decide +kernel)

/-- Tag 1 is ready with an error. -/
def tagged : State := { copying with cores := [(0, { core0 with tags := [(1, { count := 0, ready := true, err := true, code := 7 })] })] }

theorem witness_tags : Alone tagged 0 plain ∧
    (BitVec.ofNat 64 (tagMap (tagged.core 0) (·.ready)) &&& srcD (tagged.thread 0) (tagged.group 1) (.v 80) ≠ 0) ∧
    srcD (tagged.thread 0) (tagged.group 1) (.c 0) = 0 ∧
    (BitVec.ofNat 64 (tagMap (tagged.core 0) (·.ready)) &&& srcD (tagged.thread 0) (tagged.group 1) (.c 1) = 0 ∧
      srcD (tagged.thread 0) (tagged.group 1) (.c 1) ≠ 0) ∧
    (BitVec.ofNat 64 (tagMap (tagged.core 0) (·.ready)) &&& srcD (tagged.thread 0) (tagged.group 1) (.v 80) =
      srcD (tagged.thread 0) (tagged.group 1) (.v 80)) ∧
    (BitVec.ofNat 64 (tagMap (tagged.core 0) (·.ready)) &&& srcD (tagged.thread 0) (tagged.group 1) (.c 3) ≠
      srcD (tagged.thread 0) (tagged.group 1) (.c 3)) := ⟨alone_of_ok (by decide +kernel), by decide +kernel⟩

/-- A copy of 8 bytes from the end of the scratch to the end of bank memory, on tag 2. -/
def copy1 : Copy :=
  { core := 0, thread := 0, launch := 1, part := 1, tag := some 2, bo := 0, src := [⟨.scratch 0 0x1FFF8, 8⟩]
    dst := [⟨.bank 0 (2 ^ 27 - 8), 8⟩], bytes := 8 }
def copies1 : State := { demo with copies := [(4, copy1)] }

theorem witness_copy_end : tfind copies1.copies 4 = some copy1 ∧ Rising copies1.copies ∧ copies1.bank.wf = true ∧
    copy1.src = [⟨.scratch copy1.core 0x1FFF8, 8⟩] ∧ copy1.dst = [⟨.bank 0 (2 ^ 27 - 8), 8⟩] ∧ copy1.bytes = 8 ∧ copy1.tag = some 2 ∧
    copy1.mc = false ∧ copy1.welt = none ∧ copy1.moved = [] ∧ linkFault copies1 (dieOfCore copy1.core) (.bank 0 (2 ^ 27 - 8)) = none ∧
    unfilledAt copies1 copy1.core 0x1FFF8 8 = false ∧ tfind copies1.launches copy1.launch = some launch1 ∧ launch1.ctx = [] ∧
    ueDetail copies1 (.scratch copy1.core 0x1FFF8) 8 = none ∧
    (∀ p ∈ copies1.threads, ∀ all d q m, p.2.run ≠ .waiting (.tags all d q m)) :=
  ⟨rfl, rising_of (by decide +kernel), by decide +kernel, rfl, rfl, rfl, rfl, rfl, rfl, rfl, by decide +kernel, by decide +kernel, rfl, rfl,
    by decide +kernel, fun _ h => by simp [demo_threads h]⟩

/-- A multicast of 8 bytes whose branch 1 goes to core 5, where the launch runs too. -/
def multicast1 : Copy :=
  { copy1 with dst := [⟨.scratch 0 0, 8⟩], mc := true, branches := [(0, 0), (1, 5)], reach := 8 }
def multicasting : State :=
  { demo with
    copies := [(4, multicast1)]
    cores := [(0, core0), (5, core0)]
    groups := [(1, group1), (2, { group1 with core := 5 })]
    threads := demo.threads ++ [(512 * 5, { thread0 with group := 2 })] }

theorem witness_branch : tfind multicasting.copies 4 = some multicast1 ∧ tfind multicast1.branches 1 = some 5 ∧
    (∀ k, (multicasting.core k).scratch.wf = true) ∧ multicast1.src = [⟨.scratch multicast1.core 0x1FFF8, 8⟩] ∧
    multicast1.dst = [⟨.scratch multicast1.core 0, 8⟩] ∧ multicast1.bo = 0 ∧ multicast1.data = none ∧ Rising multicast1.branches ∧
    5 ≠ multicast1.core ∧ runsLaunch multicasting 5 multicast1.launch = true ∧ multicast1.reach ≤ scratchSize (multicasting.core 5) ∧
    unfilledAt multicasting multicast1.core 0x1FFF8 8 = false ∧ unfilledAt multicasting 5 0 8 = false ∧
    ueDetail multicasting (.scratch multicast1.core 0x1FFF8) 8 = none ∧
    (∀ x ∈ multicasting.launches, x.2.ctx = []) ∧
    bridgeDown multicasting (dieOfCore multicast1.core) (dieOfCore 5) = false :=
  ⟨rfl, rfl, all_cores (p := fun x => x.scratch.wf = true) (by decide) (by decide +kernel), rfl, rfl, rfl, rfl,
    rising_of (by decide +kernel), by decide, by decide +kernel⟩

/-- A change to 12 ways, and one to none, at the head of core 0's requests. -/
def wayChange (n : Nat) : State := { demo with cores := [(0, { core0 with ways := [(n, 5)] })] }

theorem witness_way_change : ∀ n ∈ [0, 12], ((wayChange n).core 0).ways = [(n, 5)] ∧ n ≤ 12 ∧ ((wayChange n).core 0).scratch.wf = true ∧
    waysHeld (wayChange n) 0 (131072 * n) (scratchSize ((wayChange n).core 0)) 5 = false ∧
    ∀ p ∈ (wayChange n).threads, waitsAgain (wayChange n) p.1 = false := by decide +kernel

/-- Object 7 is a sync object whose extent is object 1 and whose word is at bank byte 0. -/
def syncing : State :=
  { demo with cores := [(0, { core0 with
      ocache := [(1, 7, BitVec.ofNat 256 (4 + 16 * 3 + 2 ^ 32 * 1 + 2 ^ 96 * 2 ^ 61)), (1, 1, objEntry 1 7 0 0x1000 0x1000)] })] }

theorem witness_sync_objects : Alone syncing 0 plain ∧ (∀ w, ∃ r, syncCheck syncing syncing 0 w (.idx 7) = .ok r ∧ true = true) ∧
    (∃ e, capture demo 0 1 11 = some e ∧ (entryValid e.2 1 0 e.1 && oType e.1 == 1 && oW e.1 && ptrSpace (oBase e.1) == 4 &&
      loadsDone e.2 0) = true) := by
  refine ⟨alone_of_ok (by decide +kernel), fun w => ok_of (p := fun _ => true) ?_, some_of (by decide +kernel)⟩
  cases w <;> decide +kernel

/-- A TRYACQ, a release and a publication on their way. -/
def try1 : SyncReq := { thread := 0, ptr := 0x2000000007FFFFF0, group := 1, core := 0, part := 1, die := 0, word := 2 ^ 27 - 16, exts := [], shared := true, tryOnly := true, launch := 1, tid := 0, pc := 0x100, late := 4 }
def rel1 : RelReq := { thread := 0, ptr := 0x2000000000000000, tid := 0, pc := 0x100, group := 1, launch := 1, core := 0, part := 1, die := 0, word := 0, exts := [] }
def pub1 : PubReq := { thread := 0, tid := 0, pc := 0x100, ptr := 0x4000000000000000, group := 1, launch := 1, part := 1, win := 0 }
def requests : State :=
  { demo with
    syncFly := [(3, try1)], rels := [(3, rel1)], pubs := [(3, pub1)]
    cores := [(0, { core0 with late := [{ id := 4, thread := 0, group := 1, regs := [], preds := [(3, false)], flags := 0, names := [],
                                          left := 1, long := true, ready := false }] })]
    threads := [(0, { thread0 with run := .waiting (.acq (some 3)) })] }

/-- The same request as an ACQ's. -/
def acquiring : State := { requests with syncFly := [(3, { try1 with tryOnly := false })] }

theorem witness_try : tfind requests.syncFly 3 = some try1 ∧ try1.tryOnly = true ∧
    earlierOnWay requests 3 0 0 (2 ^ 27 - 16) = false ∧ bridgeDown requests (dieOfCore 0) 0 = false ∧
    try1.exts = [] ∧ requests.bank.wf = true ∧ try1.word + 16 ≤ 2 ^ 27 ∧ (tfind requests.groups 1).isSome = true ∧
    (∃ e ∈ (requests.core 0).late, e.id = try1.late) ∧ (acquiring.thread 0).run = .waiting (.acq (some 3)) ∧
    registered acquiring 0 (2 ^ 27 - 16) = [] := by decide +kernel

theorem witness_releases : tfind requests.rels 3 = some rel1 ∧ rel1.exts = [] ∧ rel1.word + 16 ≤ 2 ^ 27 ∧ (requests.core 0).stores = [] ∧
    earlierOnWay requests 3 0 0 0 = false ∧ registered requests 0 0 = [] ∧ tfind requests.pubs 3 = some pub1 ∧
    (∀ p ∈ requests.pubs, p.2.thread = 0 → 3 ≤ p.1) ∧ linkFault requests (dieOfCore (coreOfThread 0)) (.host 1 0 0) = none ∧
    bridgeDown requests (dieOfCore rel1.core) rel1.die = false := by decide +kernel

theorem witness_releases_rising : Rising requests.rels ∧ Rising requests.pubs := ⟨rising_of (by decide +kernel), rising_of (by decide +kernel)⟩

/-- The word of an object nobody holds, held by three, held exclusively. -/
theorem witness_words : swExcl 0 = false ∧ swSh 0 = 0 ∧ swSh 65535 ≠ 0 ∧ swExcl 0x10000 = true := by decide +kernel

theorem witness_welt_alloc : ∃ x, capture copying 0 1 9 = some x ∧
    (entryValid x.2 1 0 x.1 && oType x.1 == 6 && oA x.1 &&
      (weltDesc x.2 1 0 (regNat (copying.thread 0) (copying.group 1) 8 (.v 88))).isSome &&
      freeTag x.2 1 (bitsAt x.1 32 32) (bitsAt x.1 64 16) == some 5) = true := some_of (by decide +kernel)

/-- Welt tag 5 is allocated: two operands, MAX.S32, to bank byte 0; `kept` are the operands it holds. -/
def welt1 (kept : List (Nat × Bool × List Byte)) : Welt :=
  { launch := 1, arity := 2, op := 7, size := 64, mc := false, timeout := 100, dest := 0x2000000000000000, cores := [], bo := 0
    station := 5, kept }
def zeros64 : List Byte := List.replicate 64 0
def welting (kept : List (Nat × Bool × List Byte)) : State :=
  { copying with
    clock := 200000
    welts := [(weltKey 1 5, welt1 kept)]
    copies := [(4, { copy1 with src := [⟨.scratch 0 0, 64⟩], dst := [], bytes := 64, welt := some (5, 1, 64) })] }

theorem witness_welt_full : Alone (welting []) 0 plain ∧ (∃ x, capture (welting []) 0 1 9 = some x ∧
    (freeTag x.2 1 (bitsAt x.1 32 32) (bitsAt x.1 64 16) == none) = true) ∧
    liveWelt (welting []) (weltKey 1 (regW ((welting []).thread 0) ((welting []).group 1) (.v 82)).toNat) = some (welt1 []) ∧
    liveWelt (welting []) (weltKey 1 (regW ((welting []).thread 0) ((welting []).group 1) (.v 83)).toNat) = none ∧
    liveWelt (welting [(0, false, zeros64)]) (weltKey 1 5) = some (welt1 [(0, false, zeros64)]) ∧
    srcNat ((welting []).thread 0) ((welting []).group 1) 1 (.c 0) ≤ 16777215 :=
  ⟨alone_of_ok (by decide +kernel), some_of (by decide +kernel), by decide +kernel⟩

theorem witness_welt_arrival : ∀ kept ∈ [[], [(0, false, zeros64)]],
    let s := welting kept
    let cp := (tfind s.copies 4).getD copy1
    cp.welt = some (5, 1, 64) ∧ cp.tag = some 2 ∧ cp.src.any (segWaits s) = false ∧
    cp.src.any (segBad s) = false ∧
    bridgeDown s (dieOfCore cp.core) (stationDie s (stationOf s 5)) = false ∧ liveWelt s (weltKey cp.part 5) = some (welt1 kept) ∧
    1 < (welt1 kept).arity ∧ 64 = (welt1 kept).size ∧ (∀ k ∈ (welt1 kept).kept, k.1 ≠ 1) ∧
    slotsUsed s cp.part (welt1 kept).station < (s.part cp.part).pslots := by decide +kernel

/-- A closed round to bank byte 0, whose delivery frees tag 5; and an overdue one. -/
def delivering : State :=
  { copying with welts := [(weltKey 1 5, { welt1 [] with expired := true })]
                 rounds := [(3, { part := 1, launch := 1, result := zeros64, dest := 0x2000000000000000, cores := [], bo := 0, code := 0
                                  station := 5, slots := 1, ovf := 0, mc := false, frees := some (weltKey 1 5) })] }

theorem witness_rounds : (∃ r, tfind delivering.rounds 3 = some r ∧ (ptrSpace r.dest == 2 && r.bo == 0 &&
      boLoc delivering 0 r.part r.dest == some (.bank (bankDie r.dest) 0) && decide (0 + r.result.length ≤ 2 ^ 27) &&
      !bridgeDown delivering (stationDie delivering r.station) (bankDie r.dest) && r.frees == some (weltKey 1 5)) = true) ∧
    Rising delivering.rounds ∧ Rising delivering.welts ∧
    (let s := welting [(0, false, zeros64)]
     let w := welt1 [(0, false, zeros64)]
     liveWelt s (weltKey 1 5) = some w ∧ w.kept ≠ [] ∧ weltDue s w ≤ s.clock ∧
      weltDue s w + stationClocks s w.station 2 ≤ s.clock + 4000 ∧ ({ w with expiring := true } : Welt).expiring = true) ∧
    Rising (welting [(0, false, zeros64)]).welts :=
  ⟨some_of (by decide +kernel), rising_of (by decide +kernel), rising_of (by decide +kernel), by decide +kernel, rising_of (by decide +kernel)⟩

/-! The step, classes 0x5 and 0xB. -/

/-- A NOP placed after reset. -/
def placed : State := State.reset.withFetchWord 128 0x0007060A

def wordIs (s : State) (t : Nat) (w : IWord) : Bool :=
  match fetchOf s t with
  | .word x => x == w
  | _ => false

theorem word_of {s : State} {t : Nat} {w : IWord} (h : wordIs s t w = true) : fetchOf s t = .word w := by
  unfold wordIs at h
  split at h
  · rename_i x hx
    rw [hx, (beq_iff_eq.mp h)]
  · cases h

theorem witness_step : placed.agenda = .issue 0 0 [] :: [] ∧ againKind (({ placed with agenda := [] } : State).thread 0) = 0 ∧
    (∃ ch, nextIssue { placed with agenda := [] } 0 = some ch ∧ (ch.t == 0 && ch.ms == [0] &&
      (let s1 := issueCount { placed with agenda := [] } 0 ch (some (.nop plain))
       (usesOf (.nop plain)).inRange ((ch.ms.head?.map (fun u => (s1.group (s1.thread u).group).regs)).getD 0))) = true) ∧
    fetchOf { placed with agenda := [] } 0 = .word 0x0007060A ∧
    decodeWord 0x0007060A = .ok (.nop plain) ∧ decodeTableWord 128 0x0007060A = some (.nop plain) ∧
    (usesOf (.nop plain)).inRange 1024 = true :=
  ⟨rfl, by decide +kernel, some_of (by decide +kernel), word_of (by decide +kernel), by decide +kernel, by decide +kernel,
    by decide +kernel⟩

/-- Thread 0 waits in a NOP it has issued. -/
def held1 : Held := { word := 0x0007060A, lead := some 0, k := [], caps := [] }
def waitsAgain1 : State :=
  { demo with agenda := [.issue 0 0 []], threads := [(0, { thread0 with run := .waiting .again, held := some held1 })] }

theorem witness_retry : let s0 : State := { waitsAgain1 with agenda := [] }
    waitsAgain1.agenda = [.issue 0 0 []] ∧ mayRetry s0 0 = true ∧ (s0.thread 0).held = some held1 ∧ decodeWord held1.word = .ok (.nop plain) ∧
    pcGroup s0 0 ((threadsOn s0 0).filter (fun u => (s0.thread u).held == some held1 && mayRetry s0 u)) = [0] ∧
    (usesOf (.nop plain)).inRange (s0.group (s0.thread 0).group).regs = true := by decide +kernel

def goesOn (s : State) : Bool :=
  match step s with
  | .next _ => true
  | _ => false

theorem witness_step_keeps : demo.memoriesOk = true ∧ placed.memoriesOk = true ∧ goesOn placed = true ∧
    goesOn { demo with agenda := [.event (.sleepEnd 0)] } = true := by decide +kernel

/-- The lanes of a mask are the threads of a list, as a check. -/
theorem lanes_of {ms : List Nat} {core n : Nat} {m : DWord} (h : ms = ((List.range 64).filter (fun l => m.getLsbD l)).map (threadAt core n))
    (t : Nat) : t ∈ ms ↔ ∃ l, l < 64 ∧ m.getLsbD l = true ∧ t = threadAt core n l := by
  rw [h]
  constructor
  · intro ht
    obtain ⟨l, hl, rfl⟩ := List.mem_map.mp ht
    rw [List.mem_filter, List.mem_range] at hl
    exact ⟨l, hl.1, hl.2, rfl⟩
  · rintro ⟨l, hl, hm, rfl⟩
    exact List.mem_map.mpr ⟨l, List.mem_filter.mpr ⟨List.mem_range.mpr hl, hm⟩, rfl⟩

theorem witness_cross_lanes : Gathered twoThreads plain (fun t g => srcD t g (.c 3)) 1 0 0x100 3 2 where
  toIssues := witness_computes_two.1
  group := by decide +kernel
  runs := by decide +kernel
  masks := by decide +kernel
  some' := by decide +kernel
  lanes := lanes_of (by decide +kernel)
  closed := rfl

/-- Lanes 32 to 63 issue together. -/
def upperHalf : State :=
  { small with
    threads := (List.range 32).map (fun i => (32 + i, { thread0 with tid := 32 + i }))
    iss := ⟨0, (List.range 32).map (fun i => 32 + i), [], 0x100, 0, none⟩ }

theorem witness_quantize : Gathered upperHalf plain (fun _ _ => 0) 1 0 0x100 0xFFFFFFFF00000000 1 ∧
    (0xFFFFFFFF00000000 : DWord) = (BitVec.allOnes 32).setWidth 64 <<< (32 * 1) := by
  refine ⟨⟨⟨⟨by decide +kernel, by decide +kernel, by decide +kernel, by decide +kernel⟩, rfl, rfl, rfl⟩,
    by decide +kernel, by decide +kernel, by decide, by decide +kernel, lanes_of (by decide +kernel), rfl⟩, by decide⟩

/-- Launch 1 holds the engine of cluster 0, whose half 0 has a tile of one weight of code 5. v32 is the block of an MMA of one row, one
column and one element, v48 the same with a scale from scratch byte 16, v96 a request of one element. -/
def engined : State :=
  let d : WDesc := { st := .ready, bfmt := 5, k := 1, n := 1 }
  { copying with
    clusters := [(0, { copying.cluster 0 with holder := some 1, mclk := 1, w0 := { desc := d, held := d, tile := [0x38] } })]
    threads := [(0, { thread0 with v :=
      [(33, 2 + 5 * 2 ^ 16), (38, 767 * 2 ^ 10 + 383), (49, 2 + 5 * 2 ^ 16 + 2 ^ 20), (52, 2), (53, 16), (96, 511 + 767 * 512)] })] }

theorem witness_engine_held : Alone engined 0 plain ∧ holdsEngine engined 0 = true ∧ holdsEngine copying 0 = false :=
  ⟨alone_of_ok (by decide +kernel), by decide +kernel⟩

/-- The last position of the accumulator space. -/
theorem witness_accz : let x := regNat (engined.thread 0) (engined.group 1) 2 (.v 96)
    pbits x 0 19 13 = 0 ∧ pbits x 1 19 13 = 0 ∧ (regionRect x).row + (regionRect x).nr = 512 ∧
    (regionRect x).col + (regionRect x).nc = 768 := by decide +kernel

def runsOk (s : State) (write : Bool) (need : Need) (e align : Nat) (runs : List (Int × Nat)) : Bool :=
  okAnd (runsCheck s 0 1 e write align runs) (fun x => !piecesHeld s 0 1 x.1.flatten &&
    okAnd (resolvePieces (piecesWalk s 0 1 x.1.flatten) 0 1 (s.privOf 0) need x.1.flatten) (fun _ => true))

theorem witness_engine_transfers : let x := regNat (engined.thread 0) (engined.group 1) 4 (.v 0)
    pbits x 0 20 12 = 0 ∧ pbits x 1 0 32 = 0 ∧ BitVec.ofNat 64 (pbits x 2 0 64) = 0 ∧
    colSize 5 .none false (pbits x 0 0 10 + 1) = some 1 ∧ pbits x 0 10 10 + 1 ≤ 768 ∧ pbits x 0 19 13 = 0 ∧ pbits x 1 19 13 = 0 ∧
    (capture engined 0 1 2).any (fun y => ptrSpace (oBase y.1) == 1 &&
      runsOk y.2 false needR y.1 1 [((srcNat (engined.thread 0) (engined.group 1) 1 (mem0 2 0).a : Int) + (mem0 2 0).off.toInt, 1)] &&
      runsOk y.2 false needR y.1 4 [((srcNat (engined.thread 0) (engined.group 1) 1 (mem0 2 0).a : Int) + (mem0 2 0).off.toInt, 4)] &&
      runsOk y.2 true needW y.1 4 [((srcNat (engined.thread 0) (engined.group 1) 1 (mem0 2 0).a : Int) + (mem0 2 0).off.toInt, 4)]) =
      true ∧ elemBytes 2 = 4 ∧ (regionRect x).nr = 1 ∧ (regionRect x).nc = 1 := by decide +kernel

theorem witness_mma : ∀ v ∈ [(32, false), (48, true)],
    let x := regNat (engined.thread 0) (engined.group 1) 16 (.v (Fin.ofNat 1024 v.1))
    let d := (engined.cluster 0).w0.desc
    mmaFieldsOk x = true ∧ pbits x 0 0 10 + 1 = 1 ∧ pbits x 0 10 10 + 1 = 1 ∧ pbits x 1 23 1 = 0 ∧ d.st ≠ .empty ∧
    pairOk (pbits x 1 16 4) d.bfmt = true ∧ d.k = pbits x 0 20 10 + 1 ∧ d.n = 1 ∧ pbits x 6 0 10 + 1 ≤ 512 ∧ pbits x 6 10 10 + 1 ≤ 768 ∧
    pbits x 2 0 4 = 0 ∧ pbits x 3 0 4 = 0 ∧ flag (pbits x 1 0 32) 20 = v.2 ∧ pbits x 7 0 64 = 0 ∧
    okAnd (mmaObject engined 0 1 (pbits x 1 0 16) [(((pbits x 2 0 32 : Nat) : Int), vecBytes 5 1)]) (fun a => ptrSpace (oBase a.1) == 1 &&
      (!v.2 || okAnd (mmaObject a.2.2.2 0 1 (pbits x 4 0 16) [(((pbits x 5 0 32 : Nat) : Int), nBlocks 1)])
        (fun b => ptrSpace (oBase b.1) == 1))) = true := by decide +kernel

/-- A pass of one position at the last place, an element 1.0 in scratch byte 0. -/
def pass1 : MmaReq :=
  { m := 1, n := 1, k := 1, acc := true, afmt := 5, ascale := false, mode := .checked, wbuf := 0, pri := 0, rect := ⟨511, 767, 1, 1⟩
    passid := 9, bytes := 1, mtol := mtolDefault, mretry := 2, rows := [[⟨.scratch 0 0, 1⟩]], srows := [] }
def scaled1 : MmaReq := { pass1 with ascale := true, srows := [[⟨.scratch 0 16, 1⟩]] }
def entry1 (kind : ReqKind) (stage : PassStage) : EReq := { id := 3, core := 0, thread := 0, group := 1, launch := 1, kind, bo := 0, stage }
def working (kind : ReqKind) (stage : PassStage) : State :=
  { engined with
    clusters := [(0, { engined.cluster 0 with table := [entry1 kind stage], sent := 1 })]
    cores := [(0, { core0 with scratch := [(0, 0x38), (16, 0x7F)], ring := [⟨1, 9, 1, 2, 3⟩] })] }

theorem witness_status : ((working (.mma pass1) .waiting).core 0).ring.filter (fun p => p.group == 1 && p.passid == 9) = [⟨1, 9, 1, 2, 3⟩] ∧
    (engined.core 0).ring = [] ∧ Alone (working (.mma pass1) .waiting) 0 plain ∧ holdsEngine (working (.mma pass1) .waiting) 0 = true :=
  ⟨by decide +kernel, by decide +kernel, alone_of_ok (by decide +kernel), by decide +kernel⟩

/-- A posted WDROP that the table has room for. -/
def posted1 : State :=
  { engined with
    clusters := [(0, { engined.cluster 0 with posted := [entry1 (.wdrop 1) .waiting] })]
    threads := [(0, { thread0 with run := .waiting .engine })] }

theorem witness_engine_events : firstPosted ((posted1.cluster 0).posted.filter (acceptable posted1 0)) =
      some (entry1 (.wdrop 1) .waiting) ∧ (tfind posted1.threads 0).isSome = true ∧ posted1.detOf 0 = false ∧
    (∀ x ∈ [ReqKind.mma pass1, .accz ⟨511, 767, 1, 1⟩],
      let s := working x .waiting
      let cs := (candidates (s.cluster 0)).filter (grantOpen s)
      cs.any safeNext = false ∧ bestEntry (s.cluster 0) cs = some (entry1 x .waiting)) ∧
    (let h := halfOf ((working (.mma pass1) .waiting).cluster 0) pass1.wbuf
     (h.after.getD h.held).st ≠ .error) := by decide +kernel

theorem witness_attempt : ∀ r ∈ [pass1, scaled1],
    let s := working (.mma r) (.stream { attempt := 1 })
    let e := entry1 (.mma r) (.stream { attempt := 1 })
    entryOf s 0 3 = some e ∧ (s.core e.core).inj = [] ∧ (∀ l ∈ r.rows ++ r.srows, ∀ g ∈ l, segWaits s g = false ∧ segBad s g = false) ∧
    (let h := halfOf (s.cluster 0) r.wbuf
     h.held.st = .ready ∧ h.held.k = r.k ∧ h.held.n = r.n ∧ pairOk r.afmt h.held.bfmt = true ∧
     (let as := (List.range r.m).map (fun i => vecVals r.afmt r.k (segsRead s (r.rows.getD i []))
        (if r.ascale then some (segsRead s (r.srows.getD i [])) else none))
      let ws := (columnsOf h.held h.tile).map (·.1)
      let dc := passDc r.afmt r.k as ws
      let v := judgeAll r.m r.n (quantities r.k as ws) dc (mtolFor r.mtol r.afmt (r.ascale || h.held.bscl)) (r.mode == .tolerant)
      dc = [0x3F800000] ∧ v.rows = [] ∧ v.cols = [])) := by decide +kernel

theorem working_cores (x : ReqKind) (st : PassStage) (c : Nat) : ((working x st).core c).inj = [] ∧ ((working x st).core c).scratch.wf = true :=
  all_cores (p := fun y => y.inj = [] ∧ y.scratch.wf = true) (by decide)
    (fun y hy => by simp only [working, List.mem_singleton] at hy; subst hy; decide) c

theorem witness_attempt_injectors (r : MmaReq) : ∀ l ∈ r.rows ++ r.srows, ∀ g ∈ l, ∀ co o, g.loc = .scratch co o →
    ((working (.mma r) (.stream { attempt := 1 })).core co).inj = [] := fun _ _ _ _ co _ _ => (working_cores _ _ co).1

theorem witness_pass_complete : let s := working (.mma pass1) (.accum {} none false [0x3F800000])
    entryOf s 0 3 = some (entry1 (.mma pass1) (.accum {} none false [0x3F800000])) ∧
    outputFree s 0 = true ∧ ([0x3F800000] : List Word).length = pass1.rect.nr * pass1.rect.nc ∧ pass1.rect.col + pass1.rect.nc = 768 := by decide +kernel

/-- The four requests of the transfer port and the drop, granted. -/
def requests5 : List ReqKind :=
  [.wload 1 5 .none false 1 1 [⟨.scratch 0 0, 1⟩] 1, .wdrop 0, .accz ⟨511, 767, 1, 1⟩, .accld 2 ⟨511, 767, 1, 1⟩ [⟨.scratch 0 0, 4⟩] 4,
   .accst 2 .rn false ⟨511, 767, 1, 1⟩ [⟨.scratch 0 0x1FFFC, 4⟩] 4]

theorem witness_transfers_complete : (∀ x ∈ requests5, entryOf (working x .transfer) 0 3 = some (entry1 x .transfer) ∧
      transferReady (working x .transfer) (entry1 x .transfer) = true ∧ outputFree (working x .transfer) 0 = true ∧
      dataEntries (entry1 x .transfer) ≤ ((working x .transfer).cluster 0).sent ∧ halfBusy ((working x .transfer).cluster 0) 0 = false ∧
      halfBusy ((working x .transfer).cluster 0) 1 = false) ∧
    (∀ x ∈ requests5, ∀ c, ((working x .transfer).core c).inj = [] ∧ ((working x .transfer).core c).scratch.wf = true) :=
  ⟨by decide +kernel, fun x _ c => working_cores x .transfer c⟩

/-! Class 0xD and the handlers of class 0xE. -/

/-- A graph instance of two nodes: node 0 is launch 1, its queue takes one record, an edge goes to node 1. -/
def node0 (recs : List (List Word)) : GNode := { r := { rec1 with awlRec := true }, qcap := 1, coalesce := 1, succ := [1], recs, launched := some 1 }
def node1 (recs : List (List Word)) : GNode := { r := { rec1 with node := 1 }, qcap := 1, coalesce := 1, succ := [], recs }
def word8 : List Word := [1, 2, 3, 4, 5, 6, 7, 8]
def inst1 (r0 r1 : List (List Word)) (open' : Bool) : GInst :=
  { die := 0, part := 1, queue := 0, seq := 5, deadline := 0, completion := 0x1000, qarea := 0x2000
    nodes := [if open' then { node0 r0 with succ := [0, 1] } else node0 r0, node1 r1] }

/-- Launch 1 as node 0 of instance 2, with what it has dispensed and closed, and what the two queues hold; object 10 names node 1. -/
def graphing (l : Launch) (r0 r1 : List (List Word)) (open' : Bool) : State :=
  { copying with
    launches := [(1, { l with inst := some 2 })]
    insts := [(2, inst1 r0 r1 open')]
    cores := [(0, { core0 with ocache := objects ++ [(1, 10, objEntry 7 7 0 1 0)] })] }

def rec2 : LRec := { rec1 with awlRec := true }

theorem graphing_alone (l : Launch) (r0 r1 : List (List Word)) (o : Bool) : Alone (graphing l r0 r1 o) 0 plain := alone_of_ok rfl

/-- The last chunk, and none left; a record, an exhausted queue, an open one. -/
theorem witness_awl : demo.launchOf 0 = some launch1 ∧ launch1.r.det = false ∧ launch1.r.awlRec = false ∧
    bridgeDown demo (dieOfCore (coreOfThread 0)) launch1.die = false ∧ awlTotal rec1 = 3 ∧ 2 < awlTotal launch1.r ∧ awlTotal launch1.r ≤ 3 ∧
    (∀ x ∈ [([word8], false), ([], false), ([], true)],
      let s := graphing { launch1 with r := rec2 } x.1 [] x.2
      let l : Launch := { launch1 with r := rec2, inst := some 2 }
      s.launchOf 0 = some l ∧ l.r.det = false ∧ bridgeDown s (dieOfCore (coreOfThread 0)) l.die = false ∧ l.r.awlRec = true ∧ tfind s.insts 2 = some (inst1 x.1 [] x.2) ∧
      ((inst1 x.1 [] x.2).nodes[l.r.node]?).map (·.recs) = some x.1 ∧ inputClosed (inst1 x.1 [] x.2) l.r.node = !x.2) := by decide +kernel

def edgeOk (s : State) (l : Launch) (p : State → Bool) : Bool :=
  okAnd (emitEdge s s 0 l (.idx 10)) (fun x => x.1 == 2 && x.2.2.1 == 1 && p x.2.2.2)

/-- Room in the queue of node 1, none, and a closed edge. -/
theorem witness_emit :
    (∀ x ∈ [([], 0), ([word8], 1)],
      let s := graphing launch1 [] x.1 false
      let l : Launch := { launch1 with inst := some 2 }
      s.launchOf 0 = some l ∧ edgeOk s l (fun s1 => releaseReady s1 0 .pkg && (queued s1 2 1 == x.2) && s1.emits.isEmpty) = true ∧
      ((inst1 [] x.1 false).nodes[1]?).map (·.qcap) = some 1 ∧ l.closed.contains 1 = false) ∧
    (let l : Launch := { launch1 with closed := [1], inst := some 2 }
     (graphing { launch1 with closed := [1] } [] [] false).launchOf 0 = some l ∧ l.closed.contains 1 = true ∧
     edgeOk (graphing { launch1 with closed := [1] } [] [] false) l (fun _ => true) = true) := by decide +kernel

/-- A record on its way to node 1. -/
def emitting : State :=
  { graphing launch1 [] [] false with emits := [(3, { thread := 0, launch := 1, inst := 2, node := 1, data := word8 })] }

theorem witness_record : tfind emitting.emits 3 = some { thread := 0, launch := 1, inst := 2, node := 1, data := word8 } ∧
    Rising emitting.emits ∧ (∀ p ∈ emitting.emits, p.1 < 3 → p.2.thread = 0 → p.2.inst = 2 → p.2.node ≠ 1) ∧
    tfind emitting.insts 2 = some (inst1 [] [] false) ∧ (inst1 [] [] false).nodes[1]? = some (node1 []) ∧ (node1 []).done = false :=
  ⟨by decide +kernel, rising_of (by decide +kernel), by decide +kernel, by decide +kernel, by decide +kernel, rfl⟩

def launching (l : Launch) : State := { demo with launches := [(1, l)] }

/-- SPAWN: targets at the edges; a DET launch; a diverted one; the last %grp and none left; turns left for 448 threads and not for
512. -/
theorem witness_spawn : (∀ l ∈ [launch1, { launch1 with r := { rec1 with det := true } }, { launch1 with diverted := true },
      { launch1 with spawned := 65534 }, { launch1 with spawned := 65535 }], (launching l).launchOf 0 = some l) ∧
    Alone (launching launch1) 0 plain ∧ ((demo.thread 0).pc + 0x20).toNat % 16 = 0 ∧ ((demo.thread 0).pc + 0x28).toNat % 16 ≠ 0 ∧
    2 ^ 57 ≤ ((demo.thread 0).pc + 0x1FFFFFFFFFFFF00).toNat ∧ 65534 < 65536 - rec1.ncores ∧ 65536 - rec1.ncores ≤ 65535 ∧
    findTurns demo 0 448 64 = some 1 ∧ findTurns demo 0 512 64 = none :=
  ⟨by decide +kernel, alone_of_ok (by decide +kernel), by decide +kernel⟩

/-- Lasts at object 8: one that accepts every shape, and one that asks that dimension 0 be 0. -/
def lasting (bytes : Mem) : State := { demo with hbm := bytes ++ tables }

theorem witness_lastsel : ∀ x ∈ [([], true), ([(0x1068, 1)], false)],
    Alone (lasting x.1) 0 plain ∧ (lasting x.1).launchOf 0 = some launch1 ∧ rangeOrdered (lasting x.1) 0 1 0 false 0x1000 128 = true ∧
    ∃ y, capture (lasting x.1) 0 1 8 = some y ∧
      (checkEntry y.2 0 1 y.1 [1, 2] { r := true } .plain 0 false (oExtent y.1) 1 == .inb 0x1000 && oExtent y.1 == 128 &&
       okAnd (lastScan y.2 0 0x1000 launch1.r.shape (oExtent y.1 / 128) 0) (fun z => z.1.isSome == x.2)) = true := by
  intro x hx
  simp only [List.mem_cons, List.not_mem_nil, or_false] at hx
  rcases hx with rfl | rfl <;>
    exact ⟨alone_of_ok (by decide +kernel), by decide +kernel, by decide +kernel, some_of (by decide +kernel)⟩

/-- Registers of a region: all 64 of the group, and one too many; with IDEMOK and without. -/
theorem witness_idempotent_regions : (∀ p ∈ demo.threads, p.2.group = (demo.thread 0).group → p.1 = 0) ∧ Rising demo.threads ∧
    accessesDone demo 0 = true ∧ (demo.group (demo.thread 0).group).regs = (0 : BitVec 10).toNat + (63 : Fin 64).val + 1 ∧
    (demo.group (demo.thread 0).group).regs < (1 : BitVec 10).toNat + (63 : Fin 64).val + 1 ∧ idemOk demo 0 = true ∧
    idemOk (launching { launch1 with r := { rec1 with idemok := false } }) 0 = false ∧ (demo.thread 0).run ≠ .exited :=
  ⟨by decide +kernel, rising_of (by decide +kernel), by decide +kernel⟩

def region1 : Idem := { armed := false, first := 0, n := 1, pc := 0, snap := [], k := [], region := 0, mtol := 0, mretry := 0, pads := [] }

theorem witness_region_write : (({ demo with groups := [(1, { group1 with idem := some region1 })] } : State).group 1).idem = some region1 := by
  decide +kernel

theorem witness_wrapdone : Solo small 0 plain ∧ loadsOf small 0 = [] ∧ sfuOf small 0 = [] ∧ lateOf small 0 = [] ∧ Rising small.threads ∧
    (∀ p ∈ small.syncReg, (small.group (small.thread p.2.thread).group).launch ≠ (small.group (small.thread 0).group).launch) ∧
    tfind small.launches (small.group (small.thread 0).group).launch = some launch1 :=
  ⟨small_alone.toSolo, by decide +kernel, by decide +kernel, by decide +kernel, rising_of (by decide +kernel), by decide +kernel⟩

/-- Thread 0, a handler, has the handle of thread 1 in v26, a stale one in v27, the address 0x200 in v28:v29. Thread 1 is parked after
a fault whose record was the 70th; one of its loads is logged. -/
def handling (joined' : Bool) (logged : Bool) : State :=
  { privileged with
    cores := [(0, { core0 with olog := if logged then [⟨{ loadAt' 0x40000000 with thread := 1 }, false, false, 0, true⟩] else [] })]
    threads := [(0, { thread0 with v := [(26, 0x200), (27, 0x400), (28, 0x200), (30, 2 ^ 32 - 1)] }),
      (1, { thread0 with
        tid := 1, run := .parked false, lastRec := some { code := 0x24, detail := 0, rseq := some 70 }
        j := if joined' then [(15, ⟨0xF0, 0x200, 2⟩)] else [] })] }

def namesThread (x : Target) (u : Nat) : Bool := match x with | .thread t => t == u | _ => false
theorem thread_of {x : Target} {u : Nat} (h : namesThread x u = true) : x = .thread u := by
  cases x <;> simp_all [namesThread]
def isStale (x : Target) : Bool := match x with | .stale => true | _ => false
theorem stale_of {x : Target} (h : isStale x = true) : x = .stale := by
  cases x <;> simp_all [isStale]

theorem witness_handlers : ∀ x ∈ [(true, true), (false, false)],
    let s := handling x.1 x.2
    Alone s 0 plain ∧ s.privOf 0 = true ∧ s.partOf 0 = 1 ∧
    findHandle s 1 (regW (s.thread 0) (s.group (s.thread 0).group) (.v 27)) = .stale ∧
    findHandle s 1 (regW (s.thread 0) (s.group (s.thread 0).group) (.v 26)) = .thread 1 ∧ (1 : Nat) ≠ 0 ∧
    (tfind (s.thread 1).j 15).isSome = x.1 ∧ ((loggedOf s 1).filter (·.inLog))[0]?.isSome = x.2 ∧ isParked (s.thread 1) = true ∧
    ((s.thread 1).j = [] ∨ x.1 = true) ∧ ((loggedOf s 1) = [] ∨ x.2 = true) ∧ (s.thread 0).run ≠ .exited ∧
    (tfind s.threads 1).isSome = true := by
  intro x hx
  simp only [List.mem_cons, List.not_mem_nil, or_false] at hx
  rcases hx with rfl | rfl <;>
    exact ⟨alone_of_ok (by decide +kernel), by decide +kernel, by decide +kernel, stale_of (by decide +kernel), thread_of (by decide +kernel),
      by decide +kernel⟩

/-- Indexes of PARKRD and OPLOG that are allowed, the last ones, and the first that are not. -/
theorem witness_handler_indexes :
    let s := handling false false
    let th := s.thread 0
    let g := s.group 1
    srcNat th g 1 (.c 60) % 4 = 0 ∧ srcNat th g 1 (.c 60) < g.regs ∧ srcNat th g 1 (.c 15) = 15 ∧ srcNat th g 1 (.c 3) = 3 ∧
    srcNat th g 1 (.c 0) = 0 ∧ srcNat th g 1 (.c 31) < 32 ∧ 32 ≤ srcNat th g 1 (.c 32) ∧
    ((s.thread 1).lastRec.map (·.rseq)) = some (some 70) ∧ (regD th g (.v 28)).toNat % 16 = 0 ∧ (regD th g (.v 28)).toNat < 2 ^ 57 ∧
    toSecure 0x24 0 = false ∧ demo.privOf 0 = false ∧ ¬ ((regD th g (.v 30)).toNat % 16 = 0 ∧ (regD th g (.v 30)).toNat < 2 ^ 57) ∧
    replayHeld s 1 0x200 = false ∧ replayHeld (handling false true) 1 0x200 = false := by decide +kernel

/-- The named thread runs with a logged access; the handler is of a launch of its own. -/
def handlingRunning : State :=
  { handling false true with threads := [(0, (handling false true).thread 0), (1, { thread0 with tid := 1 })] }
def handlingOther : State :=
  { handling false false with
    launches := [(1, launch1), (2, { launch1 with priv := true })]
    groups := [(1, { group1 with launch := 2 }), (2, group1)]
    threads := [(0, (handling false false).thread 0), (1, { thread0 with group := 2, run := .parked false })] }

theorem witness_handler_kill :
    (Alone handlingRunning 0 plain ∧ findHandle handlingRunning 1 0x200 = .thread 1 ∧ isParked (handlingRunning.thread 1) = false) ∧
    (Alone handlingOther 0 plain ∧ findHandle handlingOther 1 0x200 = .thread 1 ∧ isParked (handlingOther.thread 1) = true ∧
      handlingOther.privOf 0 = true ∧ handlingOther.partOf 0 = 1 ∧ (handlingOther.group (handlingOther.thread 0).group).launch ≠ 1 ∧
      tfind handlingOther.launches (handlingOther.group (handlingOther.thread 1).group).launch = some launch1) ∧
    Rising (handling false false).threads ∧ Rising handlingOther.threads :=
  ⟨⟨alone_of_ok (by decide +kernel), thread_of (by decide +kernel), by decide +kernel⟩,
    ⟨alone_of_ok (by decide +kernel), thread_of (by decide +kernel), by decide +kernel⟩,
    rising_of (by decide +kernel), rising_of (by decide +kernel)⟩

theorem witness_park_index : parkIndexOk .recd 3 ∧ ¬ parkIndexOk .recd 4 ∧ parkIndexOk .reg 0 ∧ ¬ parkIndexOk .reg 2 ∧ parkIndexOk .st 0 ∧
    ¬ parkIndexOk .st 1 ∧ parkIndexOk .j 15 ∧ ¬ parkIndexOk .j 16 := by simp [parkIndexOk]

theorem witness_resume : findHandle (handling false false) 1 0x400 = .stale ∧ findHandle (handling false false) 1 0x200 = .thread 1 ∧
    ((handling false false).thread 1).j = [] ∧ isParked ((handling false false).thread 1) = true ∧
    tfind (handling false false).launches ((handling false false).group ((handling false false).thread 1).group).launch =
      some { launch1 with priv := true } ∧ Rising (handling false false).threads ∧ loggedOf (handling false false) 1 = [] ∧
    beingSwapped (handling false false) 1 = false :=
  ⟨stale_of (by decide +kernel), thread_of (by decide +kernel), by decide +kernel, by decide +kernel, by decide +kernel,
    rising_of (by decide +kernel), by decide +kernel, by decide +kernel⟩

/-! Queues. -/

theorem ok_eq {ε α : Type} [BEq α] [LawfulBEq α] {e : Except ε α} {a : α} (h : okAnd e (· == a) = true) : e = .ok a := by
  obtain ⟨x, hx, hp⟩ := ok_of h
  rw [hx, beq_iff_eq.mp hp]

/-- A value worked out before it is used. -/
def worked (n : Nat) (f : Nat → Nat) : Nat :=
  match n with
  | 0 => f 0
  | k + 1 => f (k + 1)

theorem worked_eq (n : Nat) (f : Nat → Nat) : worked n f = f n := by cases n <;> rfl

/-- The CRC worked out bit by bit. -/
def crcFrom : List Byte → Nat → Nat
  | [], c => c
  | b :: bs, c =>
    worked (c ^^^ b.toNat * 2 ^ 8) fun c => worked (crcBit c) fun c => worked (crcBit c) fun c => worked (crcBit c) fun c =>
      worked (crcBit c) fun c => worked (crcBit c) fun c => worked (crcBit c) fun c => worked (crcBit c) fun c =>
      worked (crcBit c) fun c => crcFrom bs c

theorem crc16_from (bs : List Byte) : crc16 bs = crcFrom bs 0xFFFF := by
  unfold crc16
  generalize 0xFFFF = c
  induction bs generalizing c with
  | nil => rfl
  | cons b bs ih => simp only [List.foldl_cons, crcFrom, worked_eq, ih]

/-- Queue 0 of partition 1. -/
def queue0 : Queue := { part := 1, en := true, ring := 0x1C00, st := .active }

/-- Slot 0 of the ring holds `bytes`; the queue is `q`, partition 1 is `p`. -/
def queueing (q : Queue) (p : Part) (bytes : Mem) (ls : Tbl Launch) : State :=
  { demo with queues := [(0, q)], parts := [(1, p)], launches := ls, hbm := bytes ++ tables }

/-- A LAUNCH packet, a MODDROP packet with its BARRIER bit, each with its CRC and its mark (R317), and their bytes in the ring. -/
def launch0 : Nat := 0xC0B100000000C7C40000000000000000000000000000000000000000000000000000000000000000000000000000000000000000000010000000000000000001
def launch0Cells : Mem := [(0x1C00, 0x1), (0x1C09, 0x10), (0x1C38, 0xC4), (0x1C39, 0xC7), (0x1C3E, 0xB1), (0x1C3F, 0xC0)]
def drop0 : Nat :=
  0xC0B10000000028290000000000000000000000000000000000000000000000000000000000000000000000000000000000000000000000000000000000000106
def drop0Cells : Mem := [(0x1C00, 0x6), (0x1C01, 0x1), (0x1C38, 0x29), (0x1C39, 0x28), (0x1C3E, 0xB1), (0x1C3F, 0xC0)]
/-- The LAUNCH packet with another bit set: its CRC does not match. -/
def torn0Cells : Mem :=
  [(0x1C00, 0x1), (0x1C08, 0x1), (0x1C09, 0x10), (0x1C38, 0xC4), (0x1C39, 0xC7), (0x1C3E, 0xB1), (0x1C3F, 0xC0)]
/-- A MODDROP packet of number 32767. -/
def drop32767 : Nat :=
  0xC0B17FFF0000AD78000000000000000000000000000000000000000000000000000000000000000000000000000000000000000000000000000000007FFF0006

theorem witness_inline : ∀ x ∈ [(launch0, [(1, launch1)]), (drop0, [])],
    let q := { queue0 with inline := some (leBytes 64 x.1) }
    let s := queueing q part1 [] x.2
    (s.queue 0) = q ∧ fetching s 0 = true ∧ itsTurn s 0 = true ∧ pkSeq (leNat (leBytes 64 x.1)) = q.expseq ∧ pkLimitsOk (leNat (leBytes 64 x.1)) = true ∧
    (needsBarrier (leNat (leBytes 64 x.1)) = false ∨ barrierMet s 0 = true) := by decide +kernel

theorem witness_ring : ∀ x ∈ [(launch0, launch0Cells, [(1, launch1)]), (drop0, drop0Cells, []), (drop0, drop0Cells, [(1, launch1)])],
    let s := queueing queue0 part1 x.2.1 x.2.2
    fetching s 0 = true ∧ itsTurn s 0 = true ∧ inlineNow queue0 = none ∧ slotRead s 0 0 = some x.1 ∧ pkMarkOk x.1 0 = true ∧ pkCrcOk x.1 = true ∧
    pkSeq x.1 = 0 ∧ pkReservedOk x.1 = true ∧ pkLimitsOk (leNat (leBytes 64 x.1)) = true ∧
    needsBarrier (leNat (leBytes 64 x.1)) = (x.1 == drop0) ∧ barrierMet s 0 = x.2.2.isEmpty := by
  simp only [pkCrcOk, crc16_from]
  decide +kernel

/-- A torn slot at its first and its 64th reading; an empty slot; a held queue. -/
theorem witness_torn : (∀ r ∈ [62, 63], let s := queueing { queue0 with retries := r } part1 torn0Cells []
      fetching s 0 = true ∧ itsTurn s 0 = true ∧ slotRead s 0 0 = some (launch0 + 2 ^ 64) ∧ pkMarkOk (launch0 + 2 ^ 64) 0 = true ∧
      pkCrcOk (launch0 + 2 ^ 64) = false ∧ (s.queue 0).retries = r ∧ (r < 63 ∨ r = 63)) ∧
    (let s := queueing queue0 part1 [] []
     fetching s 0 = true ∧ itsTurn s 0 = true ∧ slotRead s 0 0 = some 0 ∧ pkMarkOk 0 0 = false) ∧
    (let q := (queueing { queue0 with st := .held } part1 [] []).queue 0
     q.st = .held ∧ q.dropping = none ∧ q.xfering = false ∧ q.waiting = false) := by
  simp only [pkCrcOk, crc16_from]
  decide +kernel

/-- Queue 0 has packet `x` in hand; the object table is at 0x30000 with module 3 (0x800 bytes at 0x2000), loaded or not; memory has
a launch record at 0x1000 and a node entry of it at 0x1400. -/
def record1 : Nat :=
  1 + 3 * 2 ^ 32 + 64 * 2 ^ 128 + 32 * 2 ^ 144 + 1 * 2 ^ (8 * 0x16) + 0x1800 * 2 ^ (8 * 0xC0) + 0xB7F3 * 2 ^ (8 * 0xFA)
def memory1 : Mem :=
  [(0x1000, 0x1), (0x1004, 0x3), (0x1010, 0x40), (0x1012, 0x20), (0x1016, 0x1), (0x10C1, 0x18), (0x10FA, 0xF3), (0x10FB, 0xB7),
   (0x1401, 0x10)] ++ tables ++ [(0x30060, 0x5), (0x30065, 0x20), (0x3006D, 0x8)]
def packing (x : Nat) (q : Queue) (loaded : Bool) : State :=
  { demo with
    queues := [(0, { q with cur := some (leBytes 64 x, true) })]
    parts := [(1, { part1 with otpa := 0x30000, loaded := if loaded then [3] else [] })]
    hbm := memory1 }

theorem witness_launch : let s := packing (1 + 0x1000 * 2 ^ 64) queue0 true
    let r := overrideRec (parseRec record1) (curPacket (s.queue 0))
    InHand s 0 1 ∧ qHeld s 0 0x1000 256 = false ∧ qRead s 1 0 0x1000 256 = some record1 ∧ recRow1 record1 0 = true ∧ recFailRow s 1 0 false record1 r = 0 := by
  simp only [recRow1, crc16_from]
  exact ⟨⟨by decide +kernel, by decide +kernel, by decide +kernel, by decide +kernel⟩, by decide +kernel, by decide +kernel, by decide +kernel,
    by decide +kernel⟩

/-- WAIT of packet 4 of the queue itself, and WAIT for a value at 0x1200, met and not. -/
theorem witness_wait : (∀ x ∈ [2 + 4 * 2 ^ 80, 2 + 2 ^ 32 + 0x1200 * 2 ^ 64], let s := packing x queue0 true
      InHand s 0 2 ∧ (flag (curPacket (s.queue 0)) 32 = true ∨ ((tfind s.queues (1024 * 0 + fld (curPacket (s.queue 0)) 8 2)).isSome = true ∧
        (s.queue (1024 * 0 + fld (curPacket (s.queue 0)) 8 2)).part = (s.queue 0).part))) ∧
    (let q := { queue0 with st := .held, waiting := true, expseq := 5 }
     let s := packing (2 + 4 * 2 ^ 80) q true
     (s.queue 0).st = .held ∧ (s.queue 0).waiting = true ∧ (s.queue 0).dropping = none ∧ flag (curPacket (s.queue 0)) 32 = false ∧
      waitMet s 0 (curPacket (s.queue 0)) = true) ∧
    (∀ v ∈ [0, 1], let s := packing (2 + 2 ^ 32 + 0x1200 * 2 ^ 64 + v * 2 ^ 128) { queue0 with st := .held, waiting := true } true
      let x := curPacket (s.queue 0)
      flag x 32 = true ∧ qHeld s 0 (BitVec.ofNat 64 (fld x 8 8)) = false ∧ qRead s 1 0 (BitVec.ofNat 64 (fld x 8 8)) 8 = some 0 ∧ (fld x 0x10 8 ≤ 0 ∨ 0 < fld x 0x10 8)) := by
  simp only [InHand]
  decide +kernel

theorem witness_signal : ∀ add ∈ [0, 2 ^ 32], let s := packing (3 + add + 0x1FF8 * 2 ^ 64 + 9 * 2 ^ 128) queue0 true
    let p := BitVec.ofNat 64 (fld (curPacket (s.queue 0)) 8 8)
    InHand s 0 3 ∧ qHeld s 0 p = false ∧ qReach s 1 0 p needW = some (.hbm 0x1FF8) ∧ (qReach s 1 0 (p + 7) needW).isSome = true ∧ s.hbm.wf = true ∧
    qReach s 1 0 p needA = some (.hbm 0x1FF8) ∧ flag (curPacket (s.queue 0)) 32 = (add != 0) := by
  simp only [InHand]
  decide +kernel

/-- 4096 bytes from page 1 to page 0x30. -/
theorem witness_xfer : let x := 4 + 0x1000 * 2 ^ 64 + 0x30000 * 2 ^ 128 + 4096 * 2 ^ 192
    InHand (packing x queue0 true) 0 4 ∧
    (let s := packing x { queue0 with xfering := true } true
     let x := curPacket (s.queue 0)
     (s.queue 0).st = .active ∧ (s.queue 0).xfering = true ∧ 0 < fld x 0x18 4 ∧
     qHeld s 0 (BitVec.ofNat 64 (fld x 8 8)) (fld x 0x18 4) = false ∧ qHeld s 0 (BitVec.ofNat 64 (fld x 0x10 8)) (fld x 0x18 4) = false ∧
     (BitVec.ofNat 64 (fld x 8 8)).toNat % 4096 + fld x 0x18 4 ≤ 4096 ∧ (BitVec.ofNat 64 (fld x 0x10 8)).toNat % 4096 + fld x 0x18 4 ≤ 4096 ∧
     s.hbm.wf = true ∧
     okAnd (xferPlace s 1 0 (BitVec.ofNat 64 (fld x 8 8)) needR) (· == .hbm 0x1000) = true ∧
     (xferPlace s 1 0 (BitVec.ofNat 64 (fld x 8 8) + BitVec.ofNat 64 (fld x 0x18 4 - 1)) needR).isOk = true ∧
     okAnd (xferPlace s 1 0 (BitVec.ofNat 64 (fld x 0x10 8)) needW) (· == .hbm 0x30000) = true ∧
     (xferPlace s 1 0 (BitVec.ofNat 64 (fld x 0x10 8) + BitVec.ofNat 64 (fld x 0x18 4 - 1)) needW).isOk = true) := by
  simp only [InHand]
  decide +kernel

theorem witness_modules : (let s := packing (5 + 3 * 2 ^ 32 + 0x1000 * 2 ^ 64 + 0x800 * 2 ^ 128) queue0 false
      let x := curPacket (s.queue 0)
      let e := tableEntry s 1 (fld x 4 2)
      InHand s 0 5 ∧ qHeld s 0 (BitVec.ofNat 64 (fld x 8 8)) (fld x 0x10 4) = false ∧ qHeld s 0 (oBase e) (fld x 0x10 4) = false ∧
      oType e = 5 ∧ (s.part 1).loaded.contains (fld x 4 2) = false ∧ fld x 0x10 4 ≤ oExtent e ∧
      (xferCopy s 1 0 true (xferFuel (fld x 0x10 4)) (BitVec.ofNat 64 (fld x 8 8)) (oBase e) (fld x 0x10 4)).2 = 0) ∧
    InHand (packing (6 + 3 * 2 ^ 32) queue0 true) 0 6 ∧
    (let s := { packing (6 + 3 * 2 ^ 32) { queue0 with st := .held, dropping := some 4 } true with launches := [] }
     (s.queue 0).dropping = some 4 ∧ moduleIdle s (s.queue 0).part 4 = true) := by
  simp only [InHand]
  decide +kernel

def nodesOk (s : State) (ns : List NodeIn) : Bool :=
  !ns.isEmpty && ns.zipIdx.all (fun p => nodeOk s (s.queue 0).part (s.queue 0).classmax ns p.2 p.1 (parseRec p.1.rec'))

theorem witness_graph : let s := packing (7 + 2 ^ 32 + 0x1400 * 2 ^ 64 + 0x2000 * 2 ^ 128 + 0x1800 * 2 ^ 256) queue0 true
    let x := curPacket (s.queue 0)
    InHand s 0 7 ∧ fld x 0x18 8 = 0 ∧ qHeld s 0 (BitVec.ofNat 64 (fld x 8 8)) (64 * fld x 4 2) = false ∧ ∃ ns, readNodes s (s.queue 0).part 0 (BitVec.ofNat 64 (fld x 8 8)) (fld x 4 2) 0 = .ok ns ∧ ns ≠ [] ∧
      ∀ i n, ns[i]? = some n → nodeOk s (s.queue 0).part (s.queue 0).classmax ns i n (parseRec n.rec') = true := by
  refine ⟨⟨by decide +kernel, by decide +kernel, by decide +kernel, by decide +kernel⟩, by decide +kernel, by decide +kernel, ?_⟩
  obtain ⟨ns, h, hp⟩ := ok_of (p := nodesOk (packing (7 + 2 ^ 32 + 0x1400 * 2 ^ 64 + 0x2000 * 2 ^ 128 + 0x1800 * 2 ^ 256) queue0 true))
    (e := readNodes (packing (7 + 2 ^ 32 + 0x1400 * 2 ^ 64 + 0x2000 * 2 ^ 128 + 0x1800 * 2 ^ 256) queue0 true) 1 0 0x1400 1 0)
    (by
      unfold nodesOk nodeOk
      simp only [recRow1, crc16_from]
      decide +kernel)
  simp only [nodesOk, Bool.and_eq_true, Bool.not_eq_true', List.isEmpty_eq_false_iff, List.all_eq_true] at hp
  exact ⟨ns, h, hp.1, fun i n hi => hp.2 (n, i) (List.mem_zipIdx_iff_getElem?.mpr hi)⟩

/-- PREEMPT of launch 7 (running, ready, suspended) and of launch 8, which is none. -/
def preempting (action id : Nat) (st : LState) : State :=
  { packing (8 + action * 2 ^ 32 + id * 2 ^ 64) queue0 true with launches := [(1, { launch1 with st })] }

theorem witness_preempt : (∀ a ∈ [0, 1, 2, 3], InHand (preempting a 8 .running) 0 8 ∧ InHand (preempting a 7 .running) 0 8 ∧
      bitsAt (curPacket ((preempting a 7 .running).queue 0)) 32 2 = a ∧ bitsAt (curPacket ((preempting a 8 .running).queue 0)) 32 2 = a ∧
      preemptTarget (preempting a 8 .running) 0 = none) ∧
    (∀ x ∈ [(0, LState.running), (1, .ready 5), (2, .suspended), (3, .running)], InHand (preempting x.1 7 x.2) 0 8 ∧
      preemptTarget (preempting x.1 7 x.2) 0 = some (1, { launch1 with st := x.2 })) ∧ launch1.detOn = false ∧
    drains (preempting 0 7 .running) launch1 = false ∧
    (let s := { preempting 0 7 .running with clusters := [(0, { clusterReset with draining := true })] }
     drains s launch1 = true ∧ InHand s 0 8 ∧ preemptTarget s 0 = some (1, launch1)) := by
  simp only [InHand]
  decide +kernel

theorem witness_preempt_rising : Rising (preempting 0 7 .running).launches ∧ Rising (preempting 0 7 .running).groups ∧
    Rising (preempting 0 7 .running).threads :=
  ⟨rising_of (by decide +kernel), rising_of (by decide +kernel), rising_of (by decide +kernel)⟩

/-- Stores to the launch register: the furthest packet ahead that is held; a packet that is not well formed. -/
theorem witness_launch_register : hostDown (queueing queue0 part1 [] []) (queueDie 0) = false ∧
    reachesQueue (queueing queue0 part1 [] []) 0 0 = true ∧ reachesQueue (queueing queue0 part1 [] []) 2 0 = true ∧
    reachesQueue (queueing queue0 part1 [] []) 3 0 = false ∧
    ((queueing queue0 part1 [] []).part 1).gated = false ∧
    (let bs := leBytes 64 drop32767
     bs.length = 64 ∧ pkWellFormed (leNat bs) = true ∧ (pkSeq (leNat bs) + 2 ^ 16 - queue0.expseq) % 2 ^ 16 = 32767) ∧
    (leBytes 64 0).length = 64 ∧ pkWellFormed (leNat (leBytes 64 0)) = false ∧
    ((queueing queue0 { part1 with gated := true } [] []).part 1).gated = true := by
  simp only [pkWellFormed, pkCrcOk, crc16_from]
  decide +kernel

/-- QCFG with a ring at its multiple and without; QCFG that clears EN; a stopped queue. -/
def unstarted (ring : DWord) : Queue := { part := 1, ring }

theorem witness_queue_config :
    queueConfigOk (queueing (unstarted 0x1C00) part1 [] []) (qcfgFields (unstarted 0x1C00) 0x00010101) = true ∧
    queueConfigOk (queueing (unstarted 0x1C40) part1 [] []) (qcfgFields (unstarted 0x1C40) 0x00010101) = false ∧
    (∀ r, (unstarted r).en = false) ∧ (0x00010101 : DWord).getLsbD 8 = true ∧ queue0.en = true ∧ (1 : DWord).getLsbD 8 = false ∧
    ((queueing { queue0 with st := .stopped } part1 [] []).queue 0).st = .stopped :=
  ⟨by decide +kernel, by decide +kernel, fun _ => rfl, by decide +kernel⟩

theorem witness_aperture : (let s := queueing { queue0 with st := .idle } part1 [] []
      (s.part 1).st ≠ .free ∧ ∀ p ∈ s.queues, p.2.part = 1 → p.2.st = .idle ∨ p.2.st = .off) ∧
    (let s := queueing { queue0 with latch := some (leBytes 64 launch0) } { part1 with gated := true } [] []
     (s.part 1).gated = true) := by decide +kernel

theorem witness_aperture_rising : Rising (queueing { queue0 with latch := some (leBytes 64 launch0) } { part1 with gated := true } [] []).queues :=
  rising_of (by decide +kernel)

/-! Launches and the scheduler. -/

/-- Launch 1 is `l`, its group `g`, and die 0 shows time `now`. -/
def timed (now : Nat) (l : Launch) (g : Group) : State :=
  { demo with launches := [(1, l)], groups := [(1, g)], dies := tset 0 { dieReset with dlclk := now } demo.dies }

/-- Launch 1 is ready and nothing runs. -/
def ready1 : Launch := { launch1 with st := .ready 0, cores := [], everPlaced := false }
def idle1 : State := { demo with launches := [(1, ready1)], groups := [], threads := [] }

theorem witness_placement : (idle1.die 0).fuse.present = true ∧ readyList idle1 1 = [1] ∧ tfind idle1.launches 1 = some ready1 ∧
    Rising idle1.launches ∧ deadlinePast idle1 ready1 = false ∧ wouldTake idle1 1 ready1 [] [] = some [0] ∧ [0].Nodup ∧
    ready1.everPlaced = false ∧ (∀ p ∈ idle1.groups, p.1 < idle1.nextId) ∧ ready1.r.groupsz ≤ 512 := by
  refine ⟨by decide +kernel, ?_, by decide +kernel, rising_of (by decide +kernel), by decide +kernel, by decide +kernel, by decide, rfl,
    by decide +kernel, by decide +kernel⟩
  show ([(1, ready1)].mergeSort (readyBefore idle1)).map (·.1) = [1]
  rw [List.mergeSort_singleton]
  rfl

theorem witness_placed_undated : divertible ready1 = false ∧
    (let l : Launch := { ready1 with r := { rec1 with deadline := 100, wrapbudget := 50 } }
     divertible l = true ∧ ∀ d < 4, (idle1.die d).dlclk < divTime l) := by decide +kernel

/-- The context of launch 1 that waits at core 0: of a first placement, or saved with a sleeping thread. -/
def ctx1 (fresh : Bool) : CoreCtx :=
  { fresh, scrways := 3, scratch := [(5, 7)], tags := [(1, { count := 0, ready := true })]
    threads := [(0, { thread0 with run := .sleeping 4 })], gens := if fresh then [] else [(0, 9)] }
def staged1 (fresh : Bool) : State :=
  { timed 0 { launch1 with ctx := [(0, ctx1 fresh)] } { group1 with swap := .staged } with threads := [] }

/-- A context comes to its core. -/
theorem witness_exchange_in : ∀ fresh ∈ [true, false],
    let s := staged1 fresh
    let gs := coreGroups s 0
    (∃ p ∈ gs, p.2.swap = .staged) ∧ (∀ p ∈ gs, p.2.swap ≠ .spilling ∧ p.2.swap ≠ .requested) ∧
    (∀ p ∈ gs, p.2.swap = .staged ∨ p.2.swap = .resident → p.2.launch = 1) ∧ swapReady s 0 [] = true ∧
    tfind s.launches 1 = some { launch1 with ctx := [(0, ctx1 fresh)] } ∧ tfind ({ launch1 with ctx := [(0, ctx1 fresh)] } : Launch).ctx 0 = some (ctx1 fresh) ∧
    (∀ p ∈ gs, p.2.swap = .staged → p.2.bars = []) ∧ saveBad s { launch1 with ctx := [(0, ctx1 fresh)] } 0 = false ∧
    (s.core 0).olog = [] ∧ (ctx1 fresh).olog = [] := by decide +kernel

theorem witness_exchange_in_rising (fresh : Bool) : Rising (staged1 fresh).groups ∧ Rising (ctx1 fresh).threads :=
  ⟨List.pairwise_singleton _ _, List.pairwise_singleton _ _⟩

/-- Groups leave their core. -/
theorem witness_exchange_out : let g : Group := { group1 with swap := .requested }
    let s := timed 0 launch1 g
    tfind s.groups 1 = some g ∧ g.core = 0 ∧ g.swap = .requested ∧ (∀ p ∈ coreGroups s 0, p.1 = 1 ∨ p.2.swap = .out) ∧
    swapReady s 0 [(1, g)] = true ∧ tfind s.launches g.launch = some launch1 ∧ g.idem = none ∧ s.liveOf 1 ≠ [] ∧ s.syncReg = [] := by
  decide +kernel

/-- The last groups of a launch that leaves have gone. -/
theorem witness_spill : let g : Group := { group1 with swap := .spilling }
    let l : Launch := { launch1 with st := .swappingOut }
    let s := timed 0 l g
    tfind s.groups 1 = some g ∧ g.core = 0 ∧ g.swap = .spilling ∧ (∀ p ∈ coreGroups s 0, p.2.swap = .spilling → p.1 = 1) ∧
    tfind s.launches g.launch = some l ∧ l.st = .swappingOut ∧
    (∀ p ∈ s.groups, p.2.launch = g.launch → p.1 = 1 ∨ p.2.swap = .out) := by decide +kernel

theorem timed_rising (now : Nat) (l : Launch) (g : Group) : Rising (timed now l g).groups ∧ Rising (timed now l g).threads ∧
    Rising (timed now l g).launches :=
  ⟨List.pairwise_singleton _ _, List.pairwise_singleton _ _, List.pairwise_singleton _ _⟩

/-- A launch with DEADLINE 100 whose diversion is due 50 ns before it. -/
def dated1 : Launch := { launch1 with r := { rec1 with deadline := 100, wrapbudget := 50 } }

theorem witness_diversion : let s := timed 50 dated1 group1
    tfind s.launches 1 = some dated1 ∧ (∃ x, tfind s.threads 0 = some x ∧ (s.group x.group).launch = 1 ∧ x.run = .running ∧
      x.diverted = false) ∧ dieOfCore (coreOfThread 0) = 0 ∧ divertible dated1 = true ∧ dated1.everPlaced = true ∧
    (dated1.cores.any (fun c => dieOfCore c == 0)) = true ∧ divTime dated1 = (s.die 0).dlclk ∧ sfuOf s 0 = [] :=
  ⟨rfl, ⟨_, rfl, by decide +kernel, rfl, rfl⟩, by decide +kernel⟩

theorem witness_deadline : let s := timed 100 dated1 group1
    tfind s.launches 1 = some dated1 ∧ dated1.r.deadline ≠ 0 ∧ dated1.r.deadline = (s.die 0).dlclk ∧ dated1.everPlaced = true ∧
    (dated1.cores.any (fun c => dieOfCore c == 0)) = true := by decide +kernel

/-- One past its DEADLINE that was never placed. -/
theorem witness_deadline_unplaced : let l := { dated1 with everPlaced := false, st := .ready 0, cores := [] }
    let s := timed 100 l group1
    tfind s.launches 1 = some l ∧ l.r.deadline ≠ 0 ∧ l.r.deadline = (s.die l.die).dlclk ∧ l.everPlaced = false := by decide +kernel

/-- Every thread has ended; a store of the launch is still to perform, or nothing is. -/
def ended (ss : List StoreEntry) : State :=
  { demo with threads := [(0, { thread0 with run := .exited })], cores := [(0, { core0 with stores := ss })] }

theorem witness_completion : (tfind (ended [storeAt' 0x1000]).launches 1 = some launch1 ∧ groupsEnded (ended [storeAt' 0x1000]) 1 launch1 = true ∧
      workEnded (ended [storeAt' 0x1000]) 1 launch1 = false ∧ launch1.st = .running) ∧
    (let s := ended []
     tfind s.launches 1 = some launch1 ∧ groupsEnded s 1 launch1 = true ∧ workEnded s 1 launch1 = true ∧ launch1.inst = none ∧
     heldLeft s 1 = false ∧ (∀ p ∈ s.welts, p.2.launch ≠ 1) ∧ s.hbm.wf = true ∧
     qReach (releaseCores s 0 launch1.cores) launch1.part (queueDie launch1.queue) launch1.r.completion needW = some (.hbm 0x1000) ∧
     (qReach (releaseCores s 0 launch1.cores) launch1.part (queueDie launch1.queue) (launch1.r.completion + 63) needW).isSome = true ∧ launch1.heldFault = false) := by
  decide +kernel

theorem witness_quantum : let l := { launch1 with detOn := true, issues := 1000, token := 1 }
    tfind (timed 0 l group1).launches 1 = some l ∧ l.detOn = true ∧ l.st = .running ∧ quantumOver (timed 0 l group1) l = true ∧
    l.swapAsked = none := by decide +kernel

/-! Rails and clocks. -/

/-- Cluster 0 is `f` of its reset state. -/
def railing (f : Cluster → Cluster) : State := { demo with clusters := [(0, f clusterReset)] }

/-- Values at the ends of each range: 497, 495, 805; 555 and 560 mV about V_floor; steps 33, 32, the current one, one lower. -/
theorem witness_rail_writes : railReached (railing id) 0 = true ∧
    (let mv := fun (v : DWord) => v.toNat % 1024
     mv 497 % 5 ≠ 0 ∧ mv 495 < 500 ∧ 800 < mv 805 ∧ mv 555 % 5 = 0 ∧ 500 ≤ mv 500 ∧ mv 800 ≤ 800) ∧
    (let x := (railing id).cluster 0
     555 < x.vfloor ∧ x.vfloor ≤ 560 ∧ x.change = none ∧ x.safereq = false ∧ x.fstep = 24) ∧
    ((railing (fun k => { k with safereq := true })).cluster 0).safereq = true ∧
    (32 < (33 : DWord).toNat % 64 ∧ (32 : DWord).toNat % 64 ≤ 32 ∧ (24 : DWord).toNat % 64 = 24 ∧ 24 < (25 : DWord).toNat % 64 ∧
      (23 : DWord).toNat % 64 < 24) := by decide +kernel

theorem witness_rail_moves : ((railing (fun k => { k with goal := 705 })).cluster 0).railmv < ((railing (fun k => { k with goal := 705 })).cluster 0).goal ∧
    ((railing (fun k => { k with goal := 699 })).cluster 0).goal < ((railing (fun k => { k with goal := 699 })).cluster 0).railmv ∧
    ((railing id).cluster 0).change = none ∧ ((railing id).cluster 0).railmv = ((railing id).cluster 0).goal ∧
    (∀ x ∈ [(25, 705, 705), (25, 705, 700), (23, 700, 700)],
      let k := (railing (fun k => { k with change := some (x.1, x.2.1, false), goal := x.2.1, railmv := x.2.2 })).cluster 0
      k.change = some (x.1, x.2.1, false) ∧ k.safereq = false ∧ k.heldw = [] ∧ k.settling = false ∧
      (k.fstep < x.1 ∨ x.1 < k.fstep) ∧ (k.railmv = k.goal ∨ k.railmv = 700 ∧ k.goal = 705)) := by decide +kernel

/-- A sample that acts upward, downward and not at all. -/
theorem witness_samples : clusterPresent (railing id) 0 = true ∧ sampleTime (railing id) 0 = true ∧
    (sampleAct ((railing (fun k => { k with en := true, watt := 1, wevt := 1, railmv := 695, goal := 695 })).cluster 0)).1 = 1 ∧
    (sampleAct ((railing (fun k => { k with en := true, watt := 1, target := 1 })).cluster 0)).1 = 2 ∧
    (sampleAct ((railing id).cluster 0)).1 = 4 ∧ (15 < 16) := by decide +kernel

def calibrating : State := { demo with fw := { demo.fw with calBusy := true }, groups := [] }

theorem witness_calibration : demo.fw.calBusy = false ∧ (0x0001 : DWord).toNat % 256 = 1 ∧ bitsAt (0x1701 : DWord).toNat 8 5 = 23 ∧
    bitsAt (0x0001 : DWord).toNat 8 5 < 24 ∧ clusterPresent demo (mgmtCluster 0x0001) = true ∧ calibrating.fw.calBusy = true ∧
    (∀ c ∈ coresOfCluster (mgmtCluster calibrating.fw.mgmtCmd), ∀ p ∈ coreGroups calibrating c, p.2.swap = .out) ∧
    (List.replicate 33 (some 600)).length = 33 ∧
    newVsafe (calibrating.cluster (mgmtCluster calibrating.fw.mgmtCmd)).vfloor 0 (List.replicate 33 (some 600)) =
      some (List.replicate 33 620) := by decide +kernel

/-! The driver's registers, links, mailboxes, firmware, power. -/

/-- Partition 1 is `p`. -/
def parting (p : Part) : State := { demo with parts := [(1, p)] }
/-- Die 0 is `f` of its reset state. -/
def dying (f : Die → Die) : State := { demo with dies := tset 0 (f dieReset) demo.dies }

/-- FRTAIL at the oldest record that the ring holds, and one before it. -/
theorem witness_ring_tail : (demo.part 1).heldRecs = [] ∧ ((demo.part 1).frhead - 0xFFFFFFC0).toNat = ringSize (demo.part 1) ∧
    ringSize (demo.part 1) < ((demo.part 1).frhead - 0xFFFFFFBF).toNat := by decide +kernel

theorem witness_invalidations : ((parting { part1 with s1inval := 1 }).part 1).s1inval.getLsbD 0 = true ∧
    (demo.part 1).s1inval.getLsbD 0 = false ∧ ((parting { part1 with s2inval := 3 }).part 1).s2inval.getLsbD 0 = true := by decide +kernel

/-- BANKCFG: 9 steps, a step on a die in use, 8 steps on one that is not. -/
theorem witness_bankcfg : hostDown demo 0 = false ∧ (demo.die 0).hsteps ≠ (9 : DWord).toNat % 16 ∧ 8 < (9 : DWord).toNat % 16 ∧
    (demo.die 0).hsteps ≠ (1 : DWord).toNat % 16 ∧ demo.parts.any (fun p => placedOn demo p.1 (some 0)) = true ∧
    hostDown demo 1 = false ∧ (demo.die 1).hsteps ≠ (8 : DWord).toNat % 16 ∧ (8 : DWord).toNat % 16 ≤ 8 ∧
    demo.parts.any (fun p => placedOn demo p.1 (some 1)) = false := by decide +kernel

theorem witness_die_registers : ((dying (fun d => { d with ualPend := some (5, 1) })).die 0).ualPend = some (5, 1) ∧
    hostDown demo (15 / 4) = false ∧ (1 : DWord).getLsbD 0 = true ∧ (demo.stack 15).st = 2 ∧ (demo.stack 16).st ≠ 2 ∧
    (demo.stack 16).st ≠ 3 ∧ (({ demo with hbmStacks := [(0, { st := 1 })] } : State).stack 0).st = 1 ∧ (demo.stack 0).ecsen = true ∧
    ({ channel := 31, count := 5, rowPa := 0, rowBytes := 0 } : EcsReading).channel < 32 ∧ corePresent demo 3 95 = true ∧
    hostDown demo 3 = false ∧ absentReg demo 0 (2 ^ 20) = true ∧ 2 ^ 20 % 8 = 0 ∧ absentReg demo 3 0 = true ∧ (idle1.part 1).st ≠ .free ∧ placedOn idle1 1 none = false ∧ (0x39 : Nat) % 8 ≠ 0 ∧
    (0x510 % 8 = 0 ∧ 0x3FF8 % 8 = 0 ∧ 0x3FF8 < 0x4000) ∧ (0x1800 % 8 = 0 ∧ 0xFFF8 % 8 = 0 ∧ 0xFFF8 < 0x10000 ∧ (demo.part 1).st ≠ .free) := by
  decide +kernel

/-- Eight bytes at the end of device memory; four at the end of a block of 256. -/
theorem witness_host_writes : ([1, 2, 3, 4, 5, 6, 7, 8] : List Byte) ≠ [] ∧ paPresent demo (2 ^ 40 - 8) = true ∧
    paPresent demo (2 ^ 40 - 8 + ([1, 2, 3, 4, 5, 6, 7, 8] : List Byte).length - 1) = true ∧ hostDown demo (dieOfPa (2 ^ 40 - 8)) = false ∧
    ueDetail demo (.hbm (2 ^ 40 - 8)) 8 = none ∧ paPresent demo (2 ^ 40) = false ∧ ueDetail demo (.hbm 0x10FC) 4 = none ∧
    (∀ pa ∈ [2 ^ 40 - 8, 2 ^ 40 - 1], hbmHeld demo (.hbm pa) = false ∧ hbmFailed demo (.hbm pa) = false) ∧
    demo.hbm.wf = true ∧ 0x10FC % 256 + ([1, 2, 3, 4] : List Byte).length ≤ 256 ∧ placeFault demo 0 (.hbm 0x10FC) = none ∧
    hbmHeld demo (.hbm 0x10FC) = false ∧ (∀ a ∈ walkReads demo 1 (0x10FC % 2 ^ 50), hbmHeld demo (.hbm a) = false) := by
  decide +kernel

/-- A link whose last seven replays have failed, and one whose last has not. -/
theorem witness_links : (let s := { demo with fw := { demo.fw with replays := [(.lace 0, 7), (.bridge 0 1, 7)] } }
      replaysOf s (.lace 0) = 7 ∧ 7 ≤ replaysOf s (.bridge 0 1)) ∧ replaysOf demo (.lace 0) = 0 ∧ replaysOf demo (.bridge 0 1) < 7 := by
  decide +kernel

theorem witness_ualink : ∀ need ∈ [needR, needW], ∃ r, walk demo 1 false (0x10FC % 2 ^ 50) need = .ok r ∧ (r.1 == 0x10FC) = true := by
  intro need h
  simp only [List.mem_cons, List.not_mem_nil, or_false] at h
  rcases h with rfl | rfl <;> exact ok_of (by decide +kernel)

theorem witness_ptp : (({ demo with fw := { demo.fw with ptpcfg := 1 } } : State).fw.ptpcfg).getLsbD 0 = true ∧
    (demo.die 3).fuse.present = true ∧ (∀ w ∈ [[true, false, true, true], []],
      agreeing ({ demo with fw := { demo.fw with ptpcfg := 1 } } : State) w = true) ∧ demo.fw.activating = false ∧
    (let s := { demo with fw := { demo.fw with ptpcfg := 1, activating := true } }
     s.fw.ptpcfg.getLsbD 0 = true ∧ s.fw.activating = true) ∧ ([false, true] : List Bool).getD 1 false = true := by decide +kernel

theorem witness_mailbox : MboxFree demo 0 ∧ hitsFirmware demo (2 ^ 52 - 4096) 4096 = false ∧ (2 ^ 52 - 4096) % 4096 = 0 ∧
    2 ^ 52 - 4096 + 4096 = 2 ^ 52 ∧ (demo.part 1).s2root ≠ 0 ∧ (demo.part 2).s2root = 0 ∧ (1 % 4096 ≠ 0) := by
  simp only [MboxFree]
  decide +kernel

/-- An invalidation of partition 1 that the mailbox of die 0 awaits; an activation runs; a notice that is not of a parked thread. -/
theorem witness_mailbox_waits : let s := { parting { part1 with s2inval := 3 } with
                                             dies := tset 0 { dieReset with mboxOut := some (2, 9, 1) } demo.dies }
    (s.part 1).s2inval.getLsbD 0 = true ∧ (s.die 0).mboxOut = some (2, 9, 1) ∧ (∀ p ∈ s.dies, p.1 ≠ 0 → p.2.mboxOut = none) ∧
    (let s := { demo with fw := { demo.fw with activating := true } }
     MboxFree s 0 ∧ s.fw.activating = true) ∧ demo.fw.activating = false ∧
    (let s := dying (fun d => { d with stage2Open := [(0x200, false)] })
     MboxFree s 0 ∧ (s.die 0).stage2Open.find? (fun p => p.1 == BitVec.toNat (0x200 : Word)) = some (0x200, false) ∧
      noticeSent (s.die 0) 0x200 = true) ∧
    (demo.die 0).stage2Open.find? (fun p => p.1 == BitVec.toNat (0x200 : Word)) = none := by
  simp only [MboxFree]
  decide +kernel

theorem witness_mailbox_rising (d : Die) : Rising (tset 0 d demo.dies) := rising_of rfl

theorem witness_s2root : (2 ^ 40 - 128) % 128 = 0 ∧ 2 ^ 40 - 128 < 2 ^ 40 ∧ placedOn idle1 1 none = false ∧ placedOn demo 1 none = true := by
  decide +kernel

theorem witness_notice : let s := dying (fun d => { d with notices := [[7, 0], []] })
    MboxFree s 0 ∧ s.fw.activating = false ∧ (s.die 0).notices = [7, 0] :: [[]] ∧ 2 ≤ ([7, 0] : List Byte).length := by
  simp only [MboxFree]
  decide +kernel

/-- Thread 1's fault of stage 2 awaits its reply. -/
def replying : State :=
  { handling false false with dies := tset 0 { dieReset with stage2Open := [(0x200, true)] } demo.dies }

theorem witness_s2reply : MboxFree replying 0 ∧ (replying.die 0).stage2Open.find? (fun p => p.1 == BitVec.toNat (0x200 : Word)) = some (0x200, true) ∧
    noticeSent (replying.die 0) 0x200 = true ∧ findHandle replying 1 0x200 = .thread 1 ∧ (replying.thread 1).j = [] ∧
    isParked (replying.thread 1) = true ∧ (tfind replying.threads 1).isSome = true :=
  ⟨⟨by decide +kernel, by decide +kernel⟩, by decide +kernel, by decide +kernel, thread_of (by decide +kernel), by decide +kernel⟩

theorem witness_pcreate : let s := { demo with parts := [(2, { pclu := [0, 0, 0, 1] })] }
    MboxFree s 3 ∧ s.fw.activating = false ∧ (s.part 2).st = .free ∧ (s.part 2).pclu.all (· == 0) = false ∧ (demo.part 1).st ≠ .free := by
  simp only [MboxFree]
  decide +kernel

theorem witness_pdestroy : (demo.part 1).st = .active ∧ (∀ p ∈ demo.insts, p.2.part ≠ 1) ∧ Rising demo.threads ∧ Rising demo.queues ∧
    Rising demo.launches :=
  ⟨by decide +kernel, by decide +kernel, rising_of (by decide +kernel), rising_of (by decide +kernel), rising_of (by decide +kernel)⟩

theorem witness_freed : let s := { parting { part1 with st := .destroying } with launches := [], queues := [(0, { part := 1 })] }
    (s.part 1).st = .destroying ∧ (∀ l ∈ s.launches, l.2.part ≠ 1) ∧ (∀ g ∈ s.insts, g.2.part ≠ 1) ∧
    (∀ q ∈ s.queues, q.2.part = 1 → q.2.st = .off) := by decide +kernel

theorem witness_firmware : (0 < 8192 ∧ paPresent demo (2 ^ 40 - 8192) = true ∧ paPresent demo (2 ^ 40 - 8192 + 8192 - 1) = true) ∧
    (let s := { demo with fw := { demo.fw with held := true } }
     MboxFree s 0 ∧ s.fw.activating = false ∧ s.fw.held = true) ∧
    (let s := { demo with fw := { demo.fw with activating := true }, parts := [(1, { part1 with st := .paused })] }
     s.fw.activating = true ∧ queuesQuiet s = true ∧ s.fw.waiting = []) ∧ demo.hbm.wf = true ∧
    (let s := { demo with fw := { demo.fw with activating := true }
                          queues := [(0, { queue0 with cur := some (leBytes 64 launch0, true) })] }
     s.fw.activating = true ∧ queuesQuiet s = false) ∧
    ((2 ^ 40 - 8192) % 4096 = 0 ∧ (List.replicate 32 (7 : Byte)).length = 32 ∧ paPresent demo (2 ^ 40 - 8192 + 8191) = true) := by
  simp only [MboxFree]
  decide +kernel

theorem witness_firmware_rising : Rising demo.parts ∧ Rising demo.dies := ⟨rising_of (by decide +kernel), rising_of (by decide +kernel)⟩

/-- An image of VERSION 0 without a body: its digest is that of no bytes (FIPS 180-4). -/
def imaged : State := { demo with hbm := msets tables 0x40004 (digestBytes
  0x38b060a751ac96384cd9327eb1b1e36a21fdb71114be07434c0cc7bf63f6e1da274edebfe76f65fbd51ad2f14898b95b) }

theorem witness_image : bodyMatches (mgets imaged.hbm 0x40000 imageHeader) = true ∧ 0 < imageHeader ∧
    bodyMatches (mgets demo.hbm 0x40000 imageHeader) = false ∧ paPresent imaged 0x40000 = true ∧
    paPresent imaged (0x40000 + imageHeader - 1) = true ∧ (imaged.die 0).fuse.minVersion ≤ leNat ((mgets imaged.hbm 0x40000 imageHeader).take 4) ∧
    MboxFree imaged 0 ∧
    leNat ((mgets imaged.hbm 0x40000 imageHeader).take 4) <
      (({ imaged with dies := tset 0 { dieReset with fuse := { dieReset.fuse with minVersion := 1 } } imaged.dies } : State).die 0).fuse.minVersion := by
  simp only [MboxFree]
  decide +kernel

theorem witness_power : State.reset.powered = true ∧ (State.reset.die 3).fuse.present = true ∧ (State.reset.die 3).stage = 0 ∧
    (coldState demo false).powered = false ∧
    (List.replicate 4 true).getD 3 false = true ∧ ([true] : List Bool).getD 3 false = false ∧
    (let s := { demo with dies := tmap (fun _ d => { d with stage := 6 }) demo.dies }
     s.powered = true ∧ ∀ d < 4, (s.die d).fuse.present = true → (s.die d).stage ≠ 0) := by decide +kernel

/-- Die 0 at each stage of its boot; its stacks train, or one does not; its Lace port is up, or down; die 1 is at stage 6. -/
def booting (n : Nat) (train : List Bool) (down : Bool) : State :=
  { demo with dies := tset 0 { dieReset with stage := n, trained := train, laceDown := down }
                        (tset 1 { (demo.die 1) with stage := 6 } demo.dies) }

theorem witness_boot : (∀ n ∈ [1, 2, 3, 4, 5], ∀ train ∈ [[true, true, true, true], [true, true, true]], ∀ down ∈ [true, false],
      let s := booting n train down
      (tfind s.dies 0).isSome = true ∧ (s.die 0).stage = n ∧ (s.die 0).laceDown = down ∧ (s.die 0).trained = train) ∧
    ((booting 4 [] false).die 1).stage = 6 ∧ (∀ i < 4, ([true, true, true, true] : List Bool).getD i false = true) ∧
    ([true, true, true] : List Bool).getD 3 false = false := by decide +kernel

end Sys2Proof.Tests
end

section
/-! PROOFS. What reset leaves; registers and memory bytes after they are written. -/

namespace Sys2Proof.Machine

set_option Elab.async false  -- theorem after theorem: every thread of a compile takes a stack of its own

/-- The step that `vwrites` and `kwrites` share: the word read after the first of several writes, by the index read. -/
theorem getD_cons_window (w x : Word) (ws : List Word) (n i : Nat) :
    (if n + 1 ≤ i ∧ i < n + 1 + ws.length then ws.getD (i - (n + 1)) 0 else if i = n then w else x) =
      if n ≤ i ∧ i < n + (ws.length + 1) then (w :: ws).getD (i - n) 0 else x := by
  by_cases hi : i = n
  · subst hi
    rw [if_neg (by omega), if_pos rfl, if_pos (by omega), Nat.sub_self]
    rfl
  · by_cases hw : n + 1 ≤ i ∧ i < n + 1 + ws.length
    · rw [if_pos hw, if_pos (by omega), show i - n = (i - (n + 1)) + 1 by omega, List.getD_cons_succ]
    · rw [if_neg hw, if_neg hi, if_neg (by omega)]

@[simp] theorem vread_vwrite (n i : Nat) (w : Word) (th : Thread) : vread (vwrite n w th) i = if i = n then w else vread th i :=
  tget_tset 0 n i w th.v

@[simp] theorem kread_kwrite (n i : Nat) (w : Word) (g : Group) : kread (kwrite n w g) i = if i = n then w else kread g i :=
  tget_tset 0 n i w g.k

theorem vread_vwrites (th : Thread) (n i : Nat) (ws : List Word) :
    vread (vwrites n ws th) i = if n ≤ i ∧ i < n + ws.length then ws.getD (i - n) 0 else vread th i := by
  induction ws generalizing n th with
  | nil => rw [vwrites, List.length_nil, if_neg (by omega)]
  | cons w ws ih => rw [vwrites, ih, vread_vwrite, List.length_cons, getD_cons_window]

theorem kread_kwrites (g : Group) (n i : Nat) (ws : List Word) :
    kread (kwrites n ws g) i = if n ≤ i ∧ i < n + ws.length then ws.getD (i - n) 0 else kread g i := by
  induction ws generalizing n g with
  | nil => rw [kwrites, List.length_nil, if_neg (by omega)]
  | cons w ws ih => rw [kwrites, ih, kread_kwrite, List.length_cons, getD_cons_window]

@[simp] theorem vwrites_q (th : Thread) (n : Nat) (ws : List Word) : (vwrites n ws th).q = th.q := by
  induction ws generalizing n th with
  | nil => rfl
  | cons w ws ih => exact ih (vwrite n w th) (n + 1)

@[simp] theorem vwrites_pc (th : Thread) (n : Nat) (ws : List Word) : (vwrites n ws th).pc = th.pc := by
  induction ws generalizing n th with
  | nil => rfl
  | cons w ws ih => exact ih (vwrite n w th) (n + 1)

@[simp] theorem kwrites_bars (g : Group) (n : Nat) (ws : List Word) : (kwrites n ws g).bars = g.bars := by
  induction ws generalizing n g with
  | nil => rfl
  | cons w ws ih => exact ih (kwrite n w g) (n + 1)

end Sys2Proof.Machine

open Sys2Proof Sys2Proof.Machine

/-- Settles O7: each field of the reset state is read off its definition. -/
theorem resetLeavesNothingRunning : Obligations.ResetLeavesNothingRunning := by
  unfold Obligations.ResetLeavesNothingRunning
  refine ⟨by decide, rfl, rfl, rfl, rfl, rfl, rfl, rfl, rfl, rfl, rfl, rfl, rfl, rfl, rfl, rfl, by decide, ?_⟩
  exact ⟨fun _ => ⟨rfl, rfl⟩, fun _ => rfl, fun _ => rfl⟩

/-- Settles O9, by induction on the words and bytes written. -/
theorem registersAndMemoriesHoldWhatWasWritten : Obligations.RegistersAndMemoriesHoldWhatWasWritten := by
  unfold Obligations.RegistersAndMemoriesHoldWhatWasWritten
  refine ⟨fun th g n i ws => ?_, fun m a bs h => ⟨Mem.wf_msets h a bs, fun x => mget_msets h a x bs⟩⟩
  exact ⟨vread_vwrites th n i ws, kread_kwrites g n i ws, vwrites_q th n ws, vwrites_pc th n ws, kwrites_bars g n ws⟩

end

section
/-! PROOFS. Power, reset and boot. -/

namespace Sys2Proof.Machine

set_option Elab.async false  -- theorem after theorem: every thread of a compile takes a stack of its own

/-! ### Units read after an update, and folds over units -/

theorem die_modDie (s : State) (d e : Nat) (f : Die → Die) :
    (s.modDie d f).die e = if e = d then f (s.die d) else s.die e := by
  show (tfind (tset d (f (s.die d)) s.dies) e).getD dieReset = _
  rw [tfind_tset]
  split_ifs <;> rfl

@[simp] theorem die_modDie_self (s : State) (d : Nat) (f : Die → Die) : (s.modDie d f).die d = f (s.die d) := by
  rw [die_modDie, if_pos rfl]

@[simp] theorem die_modDie_ne {s : State} {d e : Nat} (h : e ≠ d) (f : Die → Die) : (s.modDie d f).die e = s.die e := by
  rw [die_modDie, if_neg h]

theorem part_modPart (s : State) (p q : Nat) (f : Part → Part) :
    (s.modPart p f).part q = if q = p then f (s.part p) else s.part q := by
  show (tfind (tset p (f (s.part p)) s.parts) q).getD {} = _
  rw [tfind_tset]
  split_ifs <;> rfl

@[simp] theorem part_modPart_self (s : State) (p : Nat) (f : Part → Part) : (s.modPart p f).part p = f (s.part p) := by
  rw [part_modPart, if_pos rfl]

theorem stack_modStack (s : State) (k m : Nat) (f : Stack → Stack) :
    (s.modStack k f).stack m = if m = k then f (s.stack k) else s.stack m := by
  show (tfind (tset k (f (s.stack k)) s.hbmStacks) m).getD {} = _
  rw [tfind_tset]
  split_ifs <;> rfl

/-- What no step of a fold changes, the fold does not change. -/
theorem foldl_keeps {σ α β : Type} (get : σ → α) {f : σ → β → σ} (h : ∀ s x, get (f s x) = get s) (l : List β) (s : σ) :
    get (l.foldl f s) = get s := by
  induction l generalizing s with
  | nil => rfl
  | cons x l ih => rw [List.foldl_cons, ih, h]

/-- What the steps for other units leave alone, a fold over such units leaves alone. -/
theorem foldl_of_not_mem {σ α : Type} (get : σ → α) {f : σ → Nat → σ} {d : Nat}
    (h : ∀ s e, e ≠ d → get (f s e) = get s) {l : List Nat}
    (hd : d ∉ l) (s : σ) : get (l.foldl f s) = get s := by
  induction l generalizing s with
  | nil => rfl
  | cons e l ih =>
    obtain ⟨he, hl⟩ := not_or.1 (fun h => hd (List.mem_cons.2 h))
    rw [List.foldl_cons, ih hl, h s e (Ne.symm he)]

/-- What only the step of unit `d` changes of all the steps of a fold over distinct units is, after it, as that one step leaves it. -/
theorem foldl_at {σ α : Type} (get : σ → α) {f : σ → Nat → σ} {d : Nat} (h : ∀ s e, e ≠ d → get (f s e) = get s)
    {l : List Nat}
    (hl : l.Nodup) (hd : d ∈ l) (s : σ) : ∃ s', get s' = get s ∧ get (l.foldl f s) = get (f s' d) := by
  induction l generalizing s with
  | nil => cases hd
  | cons e l ih =>
    obtain ⟨he, hl⟩ := List.nodup_cons.1 hl
    rw [List.foldl_cons]
    by_cases hed : e = d
    · subst hed
      exact ⟨s, rfl, foldl_of_not_mem get h he _⟩
    · obtain ⟨s', hs, hf⟩ := ih hl ((List.mem_cons.1 hd).resolve_left (fun h => hed h.symm)) (f s e)
      exact ⟨s', hs.trans (h s e hed), hf⟩

/-! ### Power and the boot -/

theorem coldState_die (s : State) (b : Bool) (d : Nat) :
    (coldState s b).die d = { dieReset with fuse := (s.die d).fuse } := by
  unfold State.die coldState
  rw [tfind_tmap]
  cases tfind s.dies d <;> rfl

@[simp] theorem bootRom_powered (s : State) (d : Nat) (ok : Bool) (tr : List Bool) : (bootRom s d ok tr).powered = s.powered := rfl

theorem bootRom_die_ne {s : State} {d e : Nat} (h : d ≠ e) (ok : Bool) (tr : List Bool) :
    (bootRom s e ok tr).die d = s.die d :=
  die_modDie_ne h _

theorem bootRom_die (s : State) (d : Nat) (ok : Bool) (tr : List Bool) : (bootRom s d ok tr).die d =
    if ok then { s.die d with stage := 1, trained := tr, m0 := extend 0 (Config.bootDigest d 0), m1 := extend 0 (Config.bootDigest d 1) }
    else { s.die d with stage := 0xF } := die_modDie_self s d _

/-- The state in which the ROMs run at power-on, and the dies whose ROM runs. -/
def poweredOn (s : State) : State := if s.powered then s else coldState s true
def waitingDies (s : State) : List Nat :=
  (List.range nDies).filter (fun d => ((poweredOn s).die d).fuse.present && ((poweredOn s).die d).stage == 0)

theorem waitingDies_nodup (s : State) : (waitingDies s).Nodup := List.nodup_range.filter _

theorem poweredOn_powered (s : State) : (poweredOn s).powered = true := by
  unfold poweredOn
  split_ifs with h
  · exact h
  · rfl

theorem poweredOn_fuse (s : State) (d : Nat) : ((poweredOn s).die d).fuse = (s.die d).fuse := by
  unfold poweredOn
  split_ifs
  · rfl
  · rw [coldState_die]

theorem poweredOn_stage {s : State} {d : Nat} (h : s.powered = false ∨ (s.die d).stage = 0) :
    ((poweredOn s).die d).stage = 0 := by
  unfold poweredOn
  split_ifs with hp
  · exact h.resolve_left (by simp [hp])
  · rw [coldState_die]; rfl

/-- The ROMs of the waiting dies run. -/
def romsRun (rom train : List Bool) (s : State) (ds : List Nat) : State :=
  ds.foldl (fun s d => bootRom s d (rom.getD d false) ((train.drop (4 * d)).take 4)) s

theorem romsRun_powered (rom train : List Bool) (s : State) (ds : List Nat) :
    (romsRun rom train s ds).powered = s.powered :=
  foldl_keeps State.powered (fun _ _ => bootRom_powered _ _ _ _) ds s

theorem romsRun_die (rom train : List Bool) (s : State) {ds : List Nat} {d : Nat} (hn : ds.Nodup) (hd : d ∈ ds) :
    ∃ s1, s1.die d = s.die d ∧
    (romsRun rom train s ds).die d = (bootRom s1 d (rom.getD d false) ((train.drop (4 * d)).take 4)).die d :=
  foldl_at (fun s : State => s.die d) (fun _ _ he => bootRom_die_ne (Ne.symm he) _ _) hn hd s

/-- The bridges of the dies that boot are not trained yet. -/
def bridgesUntrained (s : State) (ds : List Nat) : State :=
  { s with fw := { s.fw with
      bridgesDown := pairsOfDies.filter (fun p => s.fw.bridgesDown.contains p || ds.contains p.1 || ds.contains p.2) } }

@[simp] theorem bridgesUntrained_die (s : State) (ds : List Nat) (d : Nat) : (bridgesUntrained s ds).die d = s.die d := rfl

/-- Power-on leaves a powered part whose dies are as it found them, but for the ROM of each die that waits for its boot. -/
theorem execPowerOn_next (rom train : List Bool) (s : State) :
    ∃ s', execPowerOn rom train s = .next s' ∧ s'.powered = true ∧
    ∀ d ∈ waitingDies s, ∃ s1, s1.die d = (poweredOn s).die d ∧
      s'.die d = (bootRom s1 d (rom.getD d false) ((train.drop (4 * d)).take 4)).die d := by
  have hnext : execPowerOn rom train s = if (waitingDies s).isEmpty then .next (poweredOn s) else
      .next (romsRun rom train (bridgesUntrained (poweredOn s) (waitingDies s)) (waitingDies s)) := rfl
  rw [hnext]
  split_ifs with he
  · refine ⟨_, rfl, poweredOn_powered s, fun d hd => ?_⟩
    rw [List.isEmpty_iff.1 he] at hd
    cases hd
  · refine ⟨_, rfl, (romsRun_powered ..).trans (poweredOn_powered s), fun d hd => ?_⟩
    simpa using romsRun_die rom train (bridgesUntrained (poweredOn s) (waitingDies s)) (waitingDies_nodup s) hd

theorem mem_waitingDies {s : State} {d : Nat} : d ∈ waitingDies s ↔
    d < 4 ∧ (s.die d).fuse.present = true ∧ ((poweredOn s).die d).stage = 0 := by
  simp [waitingDies, poweredOn_fuse]

/-- A stack of die `d` after the training of the first `n` stacks of it. -/
theorem stack_foldl_modStack (s : State) (d : Nat) (f : Nat → Stack → Stack) {i : Nat} (h : i < 4) :
    ((List.range 4).foldl (fun s i => s.modStack (4 * d + i) (f i)) s).stack (4 * d + i) = f i (s.stack (4 * d + i)) := by
  obtain ⟨s1, h1, h2⟩ := foldl_at (f := fun (s : State) i => s.modStack (4 * d + i) (f i)) (d := i) (fun s => s.stack (4 * d + i))
    (fun s e he => by rw [stack_modStack, if_neg (by omega)]) List.nodup_range (List.mem_range.2 h) s
  rw [h2, stack_modStack, if_pos rfl, h1]

theorem bridgeDown_bridgesUp {s : State} {d e : Nat} (h : (s.die e).stage = 5 ∨ (s.die e).stage = 6) :
    bridgeDown (bridgesUp s d) d e = false := by
  by_cases hde : e = d
  · simp [bridgeDown, hde]
  · have hup : (s.die e).stage ≠ 5 → (s.die e).stage = 6 := h.resolve_left
    rcases Nat.lt_or_gt_of_ne hde with hlt | hlt
    · simpa [bridgeDown, bridgesUp, Nat.min_eq_right hlt.le, Nat.max_eq_left hlt.le, hde] using fun _ _ => hup
    · simpa [bridgeDown, bridgesUp, Nat.min_eq_left hlt.le, Nat.max_eq_right hlt.le, hde] using fun _ _ => hup

theorem act_bootStage {s : State} {d : Nat} (h : (tfind s.dies d).isSome = true) :
    act (.bootStage d) s = .next (bootNext s d) :=
  congrArg Host.Outcome.next (if_pos h)

/-- The training of the stacks of a die that boots. -/
def trainStacks (s : State) (d : Nat) (trained : List Bool) : State :=
  (List.range 4).foldl (fun s i => s.modStack (4 * d + i) (fun x =>
    if trained.getD i false then { x with st := 2, ecsen := true } else { x with st := 3 })) s

theorem trainStacks_stack (s : State) (d : Nat) (trained : List Bool) {i : Nat} (h : i < 4) :
    ((trainStacks s d trained).stack (4 * d + i)).st = if trained.getD i false then 2 else 3 := by
  unfold trainStacks
  rw [stack_foldl_modStack s d _ h]
  split_ifs <;> rfl

theorem bootNext_train {s : State} {d : Nat} (h : (s.die d).stage = 3) : bootNext s d =
    (trainStacks s d (s.die d).trained).modDie d (fun x => { x with
      stage := if (List.range 4).all (fun i => (s.die d).trained.getD i false) then 4 else 0xF }) := by
  simp only [bootNext, h]
  rfl

theorem bootNext_bridges {s : State} {d : Nat} (h : (s.die d).stage = 4) :
    bootNext s d = bridgesUp (s.modDie d (fun x => { x with stage := 5 })) d := by
  simp only [bootNext, h]

@[simp] theorem bridgesUp_die (s : State) (d e : Nat) : (bridgesUp s d).die e = s.die e := rfl

@[simp] theorem stack_modDie (s : State) (d k : Nat) (f : Die → Die) : (s.modDie d f).stack k = s.stack k := rfl

end Sys2Proof.Machine

open Sys2Proof Sys2Proof.Machine

/-- Settles O60: power off and reset by computation, power-on die by die, the boot by the die's stage. -/
theorem powerAndReset : Obligations.PowerAndReset := by
  unfold Obligations.PowerAndReset
  intro s
  refine ⟨?off, ?reset, ?unpowered, ?on, ?booted, ?powered, ?boot⟩
  case off => exact ⟨_, rfl, rfl, rfl, rfl, rfl, rfl, rfl, rfl, rfl, rfl, fun d => by rw [coldState_die]⟩
  case reset =>
    intro hp
    refine ⟨coldState s true, congrArg Host.Outcome.next (if_pos hp), rfl, rfl, rfl, rfl, rfl, rfl, rfl, rfl, rfl, rfl, fun d => ?_⟩
    rw [coldState_die]
    exact ⟨rfl, rfl, rfl⟩
  case unpowered => exact fun hp => congrArg Host.Outcome.next (if_neg (by simp [hp]))
  case on =>
    intro rom train d hd hpres hst
    obtain ⟨s', hs', hp, hdies⟩ := execPowerOn_next rom train s
    obtain ⟨s1, h1, h2⟩ := hdies d (mem_waitingDies.2 ⟨hd, hpres, poweredOn_stage hst⟩)
    rw [bootRom_die, h1] at h2
    refine ⟨s', hs', hp, ?_, fun hr => ?_, fun hr => ?_⟩
    · rw [h2, ← poweredOn_fuse s d]
      split_ifs <;> rfl
    · rw [h2, hr]; rfl
    · rw [h2, hr]; exact ⟨rfl, rfl, rfl, rfl⟩
  case booted =>
    intro rom train hp hst
    have hon : poweredOn s = s := if_pos hp
    have hnone : waitingDies s = [] := List.eq_nil_iff_forall_not_mem.2 fun d hd => by
      obtain ⟨hlt, hpres, hz⟩ := mem_waitingDies.1 hd
      rw [hon] at hz
      exact hst d hlt hpres hz
    have hnext : execPowerOn rom train s = .next (poweredOn s) := if_pos (List.isEmpty_iff.2 hnone)
    rw [← hon]
    exact (congrArg (execPowerOn rom train) hon).trans hnext
  case powered =>
    intro rom train _
    obtain ⟨s', hs', hp, -⟩ := execPowerOn_next rom train s
    exact ⟨s', hs', hp⟩
  case boot =>
    intro d hd
    rw [act_bootStage hd]
    refine ⟨fun h => ?_, fun h => ?_, fun h => ?_, fun h => ?_, fun h hl => ?_, fun h hl => ?_⟩
    · simp only [bootNext, h]
    · simp only [bootNext, h]
    · rw [bootNext_train h]
      refine ⟨_, rfl, fun hall => ?_, fun ⟨i, hi, hf⟩ => ?_, fun i hi => by rw [stack_modDie, trainStacks_stack s d _ hi]⟩
      · rw [die_modDie_self]
        exact if_pos (by simpa using hall)
      · rw [die_modDie_self]
        exact if_neg (by simpa using ⟨i, hi, by simpa using hf⟩)
    · rw [bootNext_bridges h]
      refine ⟨_, rfl, by rw [bridgesUp_die, die_modDie_self], fun e he hs => bridgeDown_bridgesUp ?_⟩
      rw [die_modDie_ne he]
      exact hs
    · simp only [bootNext, h, hl]; rfl
    · simp only [bootNext, h, hl]; rfl

end

section
/-! PROOFS. Accesses of the host and of other endpoints to device memory, links, and the clocks' locks. -/

namespace Sys2Proof.Machine

set_option Elab.async false  -- theorem after theorem: every thread of a compile takes a stack of its own

/-! ### BAR 4 and UALink -/

theorem locRead_hbm (s : State) (pa n : Nat) : locRead s (.hbm pa) n = mgets s.hbm pa n := by
  induction n generalizing pa with
  | zero => rfl
  | succ n ih => exact congrArg (mget s.hbm pa :: ·) (ih (pa + 1))

/-- Both ends of a host access lie where memory is, on a die that is reached, with no stack that trains or has failed. -/
structure HostReaches (s : State) (pa z : Nat) : Prop where
  first : paPresent s pa = true
  last : paPresent s z = true
  up : hostDown s (dieOfPa pa) = false
  held : hbmHeld s (.hbm pa) = false ∧ hbmHeld s (.hbm z) = false
  failed : hbmFailed s (.hbm pa) = false ∧ hbmFailed s (.hbm z) = false

theorem bar4Access_write {s : State} {pa : Nat} {bs : List Byte} (h : HostReaches s pa (pa + bs.length - 1)) (n : Nat)
    (ue : Bool) :
    bar4Access s pa (some bs) n ue = { s with hbm := msets s.hbm pa bs } := by
  obtain ⟨hf, hl, hu, ⟨hh1, hh2⟩, hx1, hx2⟩ := h
  simp [bar4Access, hf, hl, hu, hh1, hh2, hx1, hx2]

theorem bar4Access_read {s : State} {pa n : Nat} (h : HostReaches s pa (pa + n - 1))
    (hue : ueDetail s (.hbm pa) n = none) :
    bar4Access s pa none n false = { s with answer := some (.data (mgets s.hbm pa n)) } := by
  obtain ⟨hf, hl, hu, ⟨hh1, hh2⟩, hx1, hx2⟩ := h
  simp [bar4Access, hf, hl, hu, hh1, hh2, hx1, hx2, hue, locRead_hbm]

theorem bar4Access_absent {s : State} {pa : Nat} (h : paPresent s pa = false) (w : Option (List Byte)) (n : Nat)
    (ue : Bool) :
    bar4Access s pa w n ue = { s with answer := some .unsupported } := by
  simp [bar4Access, h]

/-- A request of an endpoint is supported, its walk reads no stack that trains and answers `pa`, and the bytes there can be had. -/
structure UalReaches (s : State) (die part off n pa : Nat) (need : Need) : Prop where
  walks : ∃ tlb, walk s part false (off % 2 ^ 50) need = .ok (pa, tlb)
  tables : ∀ a ∈ walkReads s part (off % 2 ^ 50), hbmHeld s (.hbm a) = false
  held : hbmHeld s (.hbm pa) = false
  placed : placeFault s die (.hbm pa) = none
  clean : ueDetail s (.hbm pa) n = none

theorem ualServe_done {s : State} {die part off n pa : Nat} {need : Need} {req : UalReq}
    (hs : ualShape req = some (off, n, need))
    (h : UalReaches s die part off n pa need) :
    ualServe s die part req = { ualPerform s part pa n req with reply := some (.done (ualData s pa n req)) } := by
  obtain ⟨⟨tlb, hw⟩, ht, hh, hp, hc⟩ := h
  have ht' : (walkReads s part (off % 2 ^ 50)).any (fun a => hbmHeld s (.hbm a)) = false := by
    rw [List.any_eq_false]
    exact fun a ha => by simp [ht a ha]
  simp only [ualServe, hs, ht', hw, hp, hh, hc, Option.isSome_none, Bool.false_eq_true, if_false]

/-! ### Replays of flits -/

theorem countReplay_keeps {α : Type} (get : State → α) (hfree : ∀ s n, get { s with free := n } = get s)
    (htel : ∀ s p d sel n, get (telCount s p d sel n) = get s) (s : State) (l : Link) : get (countReplay s l) = get s := by
  refine (foldl_keeps get (fun s' p => ?_) _ _).trans (hfree s (s.free + 1))
  split_ifs
  · exact htel _ _ _ _ _
  · rfl

@[simp] theorem countReplay_die (s : State) (l : Link) (d : Nat) : (countReplay s l).die d = s.die d :=
  countReplay_keeps (State.die · d) (fun _ _ => rfl) (fun _ _ _ _ _ => rfl) s l
@[simp] theorem countReplay_fw (s : State) (l : Link) : (countReplay s l).fw = s.fw :=
  countReplay_keeps State.fw (fun _ _ => rfl) (fun _ _ _ _ _ => rfl) s l
@[simp] theorem countReplay_hbm (s : State) (l : Link) : (countReplay s l).hbm = s.hbm :=
  countReplay_keeps State.hbm (fun _ _ => rfl) (fun _ _ _ _ _ => rfl) s l
@[simp] theorem countReplay_threads (s : State) (l : Link) : (countReplay s l).threads = s.threads :=
  countReplay_keeps State.threads (fun _ _ => rfl) (fun _ _ _ _ _ => rfl) s l

@[simp] theorem setReplays_die (s : State) (l : Link) (n d : Nat) : (setReplays s l n).die d = s.die d := rfl
@[simp] theorem setReplays_hbm (s : State) (l : Link) (n : Nat) : (setReplays s l n).hbm = s.hbm := rfl
@[simp] theorem setReplays_threads (s : State) (l : Link) (n : Nat) : (setReplays s l n).threads = s.threads := rfl
@[simp] theorem setReplays_bridgesDown (s : State) (l : Link) (n : Nat) : (setReplays s l n).fw.bridgesDown = s.fw.bridgesDown := rfl

theorem replaysOf_congr {s s' : State} (h : s'.fw.replays = s.fw.replays) (l : Link) :
    replaysOf s' l = replaysOf s l := by
  unfold replaysOf
  rw [h]

@[simp] theorem replaysOf_setReplays (s : State) (l : Link) (n : Nat) : replaysOf (setReplays s l n) l = n := by
  unfold replaysOf setReplays
  by_cases h : n = 0
  · have hnone : (s.fw.replays.filter (fun p => p.1 != l)).find? (fun p => p.1 == l) = none := by
      rw [List.find?_eq_none]
      intro p hp
      simpa using (List.mem_filter.1 hp).2
    simp [h, hnone]
  · simp [h]

@[simp] theorem rasCount_die (s : State) (d i n : Nat) : (rasCount s d i n).die d = { s.die d with ras := bump n i (s.die d).ras } :=
  die_modDie_self s d _
@[simp] theorem rasCount_hbm (s : State) (d i n : Nat) : (rasCount s d i n).hbm = s.hbm := rfl
@[simp] theorem rasCount_threads (s : State) (d i n : Nat) : (rasCount s d i n).threads = s.threads := rfl
@[simp] theorem rasCount_fw (s : State) (d i n : Nat) : (rasCount s d i n).fw = s.fw := rfl

theorem tget_bump (n k i : Nat) (t : Tbl DWord) :
    tget 0#64 (bump n k t) i = if i = k then tget 0#64 t k + BitVec.ofNat 64 n else tget 0#64 t i :=
  tget_tset 0 k i _ t

/-- A replay of a flit on a link of dies `ds`, named `l`, is counted. -/
def replayCounted (s : State) (ds : List Nat) (l : Link) : State := countReplay (ds.foldl (fun s d => rasCount s d 5 1) s) l

@[simp] theorem replayCounted_fw (s : State) (ds : List Nat) (l : Link) : (replayCounted s ds l).fw = s.fw := by
  rw [replayCounted, countReplay_fw]
  exact foldl_keeps State.fw (fun s d => rasCount_fw s d 5 1) ds s

theorem execFlitReplay_next (link : Link) (ok : Bool) (s : State) :
    let s1 := replayCounted s (linkDies link) (oneLink link)
    execFlitReplay link ok s = .next (if ok then setReplays s1 (oneLink link) 0
      else if replaysOf s (oneLink link) < 7 then setReplays s1 (oneLink link) (replaysOf s (oneLink link) + 1)
      else takeDown ((linkDies link).foldl (fun s d => rasCount s d 7 1) (setReplays s1 (oneLink link) 0)) link) := by
  intro s1
  have h : replaysOf s1 (oneLink link) = replaysOf s (oneLink link) := replaysOf_congr (by rw [replayCounted_fw]) _
  rw [← h]
  rfl

/-! ### Locks of the clocks -/

@[simp] theorem lockChange_dies (s : State) (d sel : Nat) : (lockChange s d sel).dies = s.dies :=
  foldl_keeps State.dies (fun s p => by split_ifs <;> rfl) s.parts s
@[simp] theorem lockChange_hbm (s : State) (d sel : Nat) : (lockChange s d sel).hbm = s.hbm :=
  foldl_keeps State.hbm (fun s p => by split_ifs <;> rfl) s.parts s

theorem lockChange_die (s : State) (d sel e : Nat) : (lockChange s d sel).die e = s.die e := by
  rw [State.die, lockChange_dies, State.die]

@[simp] theorem setLock_hbm (s : State) (d : Nat) (on : Bool) : (setLock s d on).hbm = s.hbm := by
  unfold setLock
  split_ifs
  · rfl
  all_goals rw [lockChange_hbm]; rfl

theorem setLock_die (s : State) (d : Nat) (on : Bool) : (setLock s d on).die d = { s.die d with locked := on } := by
  by_cases h : (s.die d).locked = on
  · rw [setLock, if_pos h, ← h]
  · rw [setLock, if_neg h, lockChange_die, die_modDie_self]

theorem setLock_die_ne {s : State} {d e : Nat} (h : d ≠ e) (on : Bool) : (setLock s e on).die d = s.die d := by
  unfold setLock
  split_ifs
  · rfl
  all_goals rw [lockChange_die, die_modDie_ne h]

@[simp] theorem syncDie_hbm (s : State) (d : Nat) (w : Bool) : (syncDie s d w).hbm = s.hbm := by
  unfold syncDie
  dsimp only
  split_ifs
  · rw [setLock_hbm]; rfl
  · rfl
  · rw [setLock_hbm]; rfl

theorem syncDie_die_ne {s : State} {d e : Nat} (h : d ≠ e) (w : Bool) : (syncDie s e w).die d = s.die d := by
  unfold syncDie
  dsimp only
  split_ifs
  · rw [setLock_die_ne h, die_modDie_ne h]
  · rw [die_modDie_ne h]
  · rw [setLock_die_ne h, die_modDie_ne h]

theorem syncDie_die (s : State) (d : Nat) (w : Bool) : (syncDie s d w).die d = { s.die d with
    syncRun := if w then (s.die d).syncRun + 1 else 0
    locked := w && ((s.die d).locked || decide (7 ≤ (s.die d).syncRun)) } := by
  unfold syncDie
  cases w with
  | false => simp [setLock_die]
  | true =>
    by_cases h : 7 ≤ (s.die d).syncRun
    · simp [setLock_die, h]
    · simp [h]

theorem unlockAll_die (s : State) {d : Nat} (h : d < 4) : ((unlockAll s).die d).locked = false := by
  obtain ⟨s1, -, h2⟩ := foldl_at (f := fun (s : State) d => setLock (s.modDie d (fun x => { x with syncRun := 0 })) d false)
    (fun s : State => s.die d) (fun s e he => by rw [setLock_die_ne (Ne.symm he), die_modDie_ne (Ne.symm he)])
    List.nodup_range (List.mem_range.2 h) s
  unfold unlockAll
  rw [h2, setLock_die]

/-- The dies that take part in a sync interval do so one by one. -/
def syncDies (s : State) (takes : Die → Nat → Bool) (within : Nat → Bool) : State :=
  (List.range nDies).foldl (fun s d => if takes (s.die d) d then syncDie s d (within d) else s) s

theorem syncDies_hbm (s : State) (takes : Die → Nat → Bool) (within : Nat → Bool) :
    (syncDies s takes within).hbm = s.hbm :=
  foldl_keeps State.hbm (fun s d => by split_ifs <;> simp) _ s

theorem syncDies_die (s : State) (takes : Die → Nat → Bool) (within : Nat → Bool) {d : Nat} (h : d < 4) :
    ∃ s1, s1.die d = s.die d ∧
      (syncDies s takes within).die d = if takes (s.die d) d then (syncDie s1 d (within d)).die d else s.die d := by
  obtain ⟨s1, h1, h2⟩ := foldl_at (f := fun (s : State) d => if takes (s.die d) d then syncDie s d (within d) else s)
    (fun s : State => s.die d) (fun s e he => by split_ifs; exacts [syncDie_die_ne (Ne.symm he) _, rfl])
    List.nodup_range (List.mem_range.2 h) s
  refine ⟨s1, h1, ?_⟩
  unfold syncDies
  rw [h2, h1]
  split_ifs
  · rfl
  · exact h1

/-- A die that takes no part is left as it is. -/
theorem syncDies_die_idle (s : State) {takes : Die → Nat → Bool} (within : Nat → Bool) {d : Nat}
    (h : ∀ x, takes x d = false) :
    (syncDies s takes within).die d = s.die d := by
  refine foldl_keeps (fun s : State => s.die d) (fun s e => ?_) _ s
  split_ifs with ht
  · exact syncDie_die_ne (fun he => by rw [← he, h] at ht; cases ht) _
  · rfl

end Sys2Proof.Machine

open Sys2Proof Sys2Proof.Machine

/-- Settles O57: the accesses through the guards they pass, the replays through the count of a link, the locks die by die. -/
theorem linksHostAndClockSync : Obligations.LinksHostAndClockSync := by
  unfold Obligations.LinksHostAndClockSync
  intro s
  refine ⟨?bar4Write, ?bar4Read, ?bar4Absent, ?ualWrite, ?ualRead, ?ualUnsupported, ?lace, ?bridge, fun _ => rfl, ?sync, ?activating,
    _, rfl, fun d hd => unlockAll_die s hd⟩
  case bar4Write =>
    intro pa bs n ue _ z hf hl hu hh1 hh2 hx1 hx2 hwf
    refine ⟨_, congrArg Host.Outcome.next (bar4Access_write ⟨hf, hl, hu, ⟨hh1, hh2⟩, hx1, hx2⟩ n ue), rfl, rfl, fun a => ?_⟩
    exact mget_msets hwf pa a bs
  case bar4Read =>
    intro pa n z hf hl hu hh1 hh2 hx1 hx2 hue
    exact congrArg Host.Outcome.next (bar4Access_read ⟨hf, hl, hu, ⟨hh1, hh2⟩, hx1, hx2⟩ hue)
  case bar4Absent => exact fun pa w n ue h => congrArg Host.Outcome.next (bar4Access_absent h w n ue)
  case ualWrite =>
    intro die part off bs pa tlb h1 hoff hw ht hh hp hc hwf
    have hs : ualShape (.write off bs) = some (off, bs.length, needW) := if_pos ⟨h1, by omega, hoff⟩
    exact ⟨_, congrArg Host.Outcome.next (ualServe_done hs ⟨⟨tlb, hw⟩, ht, hh, hp, hc⟩), rfl, rfl, rfl, fun a => mget_msets hwf pa a bs⟩
  case ualRead =>
    intro die part off n pa tlb h1 hoff hw ht hh hp hc
    have hs : ualShape (.read off n) = some (off, n, needR) := if_pos ⟨h1, by omega, hoff⟩
    refine ⟨_, congrArg Host.Outcome.next (ualServe_done hs ⟨⟨tlb, hw⟩, ht, hh, hp, hc⟩), rfl, rfl, rfl, ?_⟩
    exact congrArg (fun bs => some (UalAns.done bs)) (locRead_hbm s pa n)
  case ualUnsupported => exact fun die part => rfl
  case lace =>
    intro d ok n
    refine ⟨_, execFlitReplay_next (.lace d) ok s, ?_⟩
    cases ok with
    | true => simp [replayCounted, oneLink, linkDies, tget_bump]
    | false =>
      by_cases h7 : 7 ≤ n
      · have hn : ¬ replaysOf s (.lace d) < 7 := Nat.not_lt.2 h7
        have hz (s1 : State) : replaysOf (takeDown (rasCount (setReplays s1 (.lace d) 0) d 7 1) (.lace d)) (.lace d) = 0 :=
          (replaysOf_congr rfl _).trans (replaysOf_setReplays s1 (.lace d) 0)
        simp [replayCounted, oneLink, linkDies, hn, h7, hz]
        simp [takeDown, tget_bump]
      · have hn : replaysOf s (.lace d) < 7 := Nat.lt_of_not_le h7
        simp [replayCounted, oneLink, linkDies, tget_bump, hn, h7, n]
  case bridge =>
    intro d1 d2 h12
    have hl : oneLink (.bridge d1 d2) = .bridge d1 d2 := by
      simp [oneLink, Nat.min_eq_left h12.le, Nat.max_eq_right h12.le]
    refine ⟨fun h7 => ?_, fun h7 => ?_, ?_⟩
    · refine ⟨_, execFlitReplay_next _ _ _, ?_⟩
      rw [hl, if_neg (by simp), if_neg (Nat.not_lt.2 h7)]
      simp only [takeDown, bridgeDown]
      split_ifs with hin
      · simpa [h12.ne] using hin
      · simp [h12.ne]
    · refine ⟨_, execFlitReplay_next _ _ _, ?_⟩
      rw [hl, if_neg (by simp), if_pos h7]
      simp [bridgeDown]
    · refine ⟨_, rfl, ?_, fun p hp => ?_⟩
      · simp [Nat.min_eq_left h12.le, Nat.max_eq_right h12.le]
      · simp [Nat.min_eq_left h12.le, Nat.max_eq_right h12.le, hp]
  case sync =>
    intro within d hcfg hact hag hd hpres
    have hnext : execPtpSync within s = .next (syncDies { s with fw := { s.fw with syncs := s.fw.syncs + 1 } }
        (fun x _ => x.fuse.present) (within.getD · false)) := by
      simp only [execPtpSync, hcfg, hact, hag, Bool.not_true, Bool.false_eq_true, if_false]
      rfl
    obtain ⟨s1, h1, h2⟩ := syncDies_die { s with fw := { s.fw with syncs := s.fw.syncs + 1 } } (fun x _ => x.fuse.present)
      (within.getD · false) hd
    have hs1 : s1.die d = s.die d := h1
    rw [if_pos (by exact hpres), syncDie_die, hs1] at h2
    exact ⟨_, hnext, syncDies_hbm _ _ _, by rw [h2], by rw [h2]⟩
  case activating =>
    intro within d hcfg hact hw
    have hnext : execPtpSync within s = .next (syncDies s (fun x d => x.fuse.present && !within.getD d false) (fun _ => false)) := by
      simp only [execPtpSync, hcfg, hact, Bool.not_true, Bool.false_eq_true, if_false, if_true]
      rfl
    exact ⟨_, hnext, syncDies_hbm _ _ _, syncDies_die_idle s _ (fun x => by rw [hw, Bool.not_true, Bool.and_false])⟩

end

section
/-! PROOFS. What stopping the launches of a partition leaves alone: no thread that has exited runs again, and no queue changes. -/

namespace Sys2Proof.Machine

set_option Elab.async false  -- theorem after theorem: every thread of a compile takes a stack of its own

/-! ### Threads read after an update -/

/-- A thread after a change of one: changed where it is that one and listed. -/
theorem thread_modThread_listed (s : State) (t u : Nat) (f : Thread → Thread) :
    (s.modThread t f).thread u = if u = t ∧ (tfind s.threads t).isSome = true then f (s.thread t) else s.thread u := by
  unfold State.thread
  rw [State.modThread_threads, tfind_tmod]
  by_cases hu : u = t
  · subst hu
    cases tfind s.threads u <;> simp
  · simp [hu]

theorem group_modGroup_listed (s : State) (g u : Nat) (f : Group → Group) :
    (s.modGroup g f).group u = if u = g ∧ (tfind s.groups g).isSome = true then f (s.group g) else s.group u := by
  unfold State.group
  rw [State.modGroup_groups, tfind_tmod]
  by_cases hu : u = g
  · subst hu
    cases tfind s.groups u <;> simp
  · simp [hu]

theorem Rising.tmod {α : Type} {t : Tbl α} (h : Rising t) (x : Nat) (f : α → α) : Rising (tmod x f t) := by
  unfold Machine.tmod
  split
  · exact h.tset _ _
  · exact h

theorem Rising.tmap {α : Type} {t : Tbl α} (h : Rising t) (f : Nat → α → α) : Rising (tmap f t) :=
  List.pairwise_map.2 h

/-- In a rising table the entry found at a listed key is the listed one. -/
theorem tfind_of_mem {α : Type} {t : Tbl α} (h : Rising t) {p : Nat × α} (hp : p ∈ t) : tfind t p.1 = some p.2 := by
  induction t with
  | nil => cases hp
  | cons q t ih =>
    obtain ⟨k, v⟩ := q
    rcases List.mem_cons.1 hp with rfl | hp
    · simp [tfind]
    · have hlt : k < p.1 := List.rel_of_pairwise_cons h hp
      simp only [tfind]
      rw [if_neg (by omega), if_neg (by omega), ih h.of_cons hp]

theorem mem_of_tfind {α : Type} {t : Tbl α} {x : Nat} {v : α} (h : tfind t x = some v) : (x, v) ∈ t := by
  induction t with
  | nil => cases h
  | cons q t ih =>
    obtain ⟨k, w⟩ := q
    simp only [tfind] at h
    split_ifs at h with h1 h2
    · cases h; exact h1 ▸ List.mem_cons_self
    · exact List.mem_cons_of_mem _ (ih h)

theorem thread_of_mem {s : State} (h : Rising s.threads) {p : Nat × Thread} (hp : p ∈ s.threads) :
    s.thread p.1 = p.2 := by
  rw [State.thread, tfind_of_mem h hp]
  rfl

@[simp] theorem vwrites_group (th : Thread) (n : Nat) (ws : List Word) : (vwrites n ws th).group = th.group := by
  induction ws generalizing n th with
  | nil => rfl
  | cons w ws ih => exact ih (vwrite n w th) (n + 1)

@[simp] theorem vwrites_run (th : Thread) (n : Nat) (ws : List Word) : (vwrites n ws th).run = th.run := by
  induction ws generalizing n th with
  | nil => rfl
  | cons w ws ih => exact ih (vwrite n w th) (n + 1)

@[simp] theorem kwrites_launch (g : Group) (n : Nat) (ws : List Word) : (kwrites n ws g).launch = g.launch := by
  induction ws generalizing n g with
  | nil => rfl
  | cons w ws ih => exact ih (kwrite n w g) (n + 1)

theorem qwrite_group_run (i : Nat) (b : Bool) (th : Thread) :
    (qwrite i b th).group = th.group ∧ (qwrite i b th).run = th.run := by
  unfold qwrite
  split_ifs <;> exact ⟨rfl, rfl⟩

/-! ### The relation -/

/-- From `s` to `s'` the queues, the states of partitions, whose launch a group is and whose partition a launch is stay as they are; threads keep
their groups, and one that has exited stays so. -/
structure StopStep (s s' : State) : Prop where
  queues : s'.queues = s.queues
  parts : ∀ p, (s'.part p).st = (s.part p).st
  launches : ∀ k, (tfind s'.launches k).map Launch.part = (tfind s.launches k).map Launch.part
  groups : ∀ g, (s'.group g).launch = (s.group g).launch
  rising : Rising s.threads → Rising s'.threads
  threads : Rising s.threads → ∀ t, (s'.thread t).group = (s.thread t).group ∧ ((s.thread t).run = .exited → (s'.thread t).run = .exited)

theorem StopStep.refl (s : State) : StopStep s s :=
  ⟨rfl, fun _ => rfl, fun _ => rfl, fun _ => rfl, id, fun _ _ => ⟨rfl, id⟩⟩

theorem StopStep.trans {s s1 s2 : State} (h : StopStep s s1) (k : StopStep s1 s2) : StopStep s s2 where
  queues := k.queues.trans h.queues
  parts p := (k.parts p).trans (h.parts p)
  launches l := (k.launches l).trans (h.launches l)
  groups g := (k.groups g).trans (h.groups g)
  rising hr := k.rising (h.rising hr)
  threads hr t :=
    have ⟨hg, he⟩ := h.threads hr t
    have ⟨kg, ke⟩ := k.threads (h.rising hr) t
    ⟨kg.trans hg, fun hx => ke (he hx)⟩

/-- A change of nothing but memories, cores, clusters, dies and the like. -/
theorem StopStep.units {s s1 s2 : State} (h : StopStep s s1) (hq : s2.queues = s1.queues := by exact rfl)
    (hp : s2.parts = s1.parts := by exact rfl)
    (hl : s2.launches = s1.launches := by exact rfl) (hg : s2.groups = s1.groups := by exact rfl) (ht : s2.threads = s1.threads := by exact rfl) :
    StopStep s s2 :=
  h.trans
    { queues := hq
      parts := fun p => by rw [State.part, hp, State.part]
      launches := fun k => by rw [hl]
      groups := fun g => by rw [State.group, hg, State.group]
      rising := fun hr => by rw [ht]; exact hr
      threads := fun _ t => by rw [State.thread, ht, State.thread]; exact ⟨rfl, id⟩ }

theorem StopStep.foldl {β : Type} {s : State} {f : State → β → State}
    (h : ∀ s1 x, StopStep s s1 → StopStep s (f s1 x)) (l : List β)
    {s1 : State} (h1 : StopStep s s1) : StopStep s (l.foldl f s1) := by
  induction l generalizing s1 with
  | nil => exact h1
  | cons x l ih => exact ih (h s1 x h1)

/-- A fold whose steps go on for the entries of a table of `s`. -/
theorem StopStep.foldl_mem {β : Type} {s : State} {f : State → β → State} {l : List β}
    (h : ∀ x ∈ l, ∀ s1, StopStep s s1 → StopStep s (f s1 x)) {s1 : State} (h1 : StopStep s s1) : StopStep s (l.foldl f s1) := by
  induction l generalizing s1 with
  | nil => exact h1
  | cons x l ih =>
    exact ih (fun y hy => h y (List.mem_cons_of_mem _ hy)) (h x List.mem_cons_self s1 h1)

theorem StopStep.modCore {s s1 : State} (h : StopStep s s1) {c : Nat} {f : Core → Core} : StopStep s (s1.modCore c f) :=
  h.units
theorem StopStep.modCluster {s s1 : State} (h : StopStep s s1) {k : Nat} {f : Cluster → Cluster} :
    StopStep s (s1.modCluster k f) :=
  h.units
theorem StopStep.modDie {s s1 : State} (h : StopStep s s1) {d : Nat} {f : Die → Die} : StopStep s (s1.modDie d f) :=
  h.units

/-- A thread is changed that had not exited, or that stays exited where it had. -/
theorem StopStep.modThread {s s1 : State} (h : StopStep s s1) {t : Nat} {f : Thread → Thread}
    (hg : ∀ x, (f x).group = x.group := by exact fun _ => rfl)
    (hr : Rising s.threads → (s.thread t).run = .exited → ∀ x, x.run = .exited → (f x).run = .exited :=
      by exact fun _ _ _ h => h) :
    StopStep s (s1.modThread t f) where
  queues := h.queues
  parts := h.parts
  launches := h.launches
  groups := h.groups
  rising hs := (h.rising hs).tmod t f
  threads hs u := by
    obtain ⟨h1, h2⟩ := h.threads hs u
    rw [thread_modThread_listed]
    split_ifs with hu
    · obtain ⟨rfl, -⟩ := hu
      exact ⟨(hg _).trans h1, fun hx => hr hs hx _ (h2 hx)⟩
    · exact ⟨h1, h2⟩

/-- A thread that has not exited goes on. -/
theorem StopStep.revive {s s1 : State} (h : StopStep s s1) {t : Nat} {f : Thread → Thread}
    (hl : Rising s.threads → (s.thread t).run ≠ .exited) (hg : ∀ x, (f x).group = x.group := by exact fun _ => rfl) :
    StopStep s (s1.modThread t f) :=
  h.modThread hg (fun hr hx => absurd hx (hl hr))

theorem StopStep.modGroup {s s1 : State} (h : StopStep s s1) {g : Nat} {f : Group → Group}
    (hf : ∀ x, (f x).launch = x.launch := by exact fun _ => rfl) :
    StopStep s (s1.modGroup g f) :=
  h.trans
    { StopStep.refl s1 with
      groups := fun u => by
        rw [group_modGroup_listed]
        split_ifs with hu
        · rw [hf, hu.1]
        · rfl }

theorem StopStep.modLaunch {s s1 : State} (h : StopStep s s1) {k : Nat} {f : Launch → Launch}
    (hf : ∀ x, (f x).part = x.part := by exact fun _ => rfl) :
    StopStep s (s1.modLaunch k f) :=
  h.trans
    { StopStep.refl s1 with
      launches := fun u => by
        show (tfind (tmod k f s1.launches) u).map _ = _
        rw [tfind_tmod]
        split_ifs with hu
        · subst hu
          cases tfind s1.launches u with
          | none => rfl
          | some l => exact congrArg some (hf l)
        · rfl }

theorem StopStep.modPart {s s1 : State} (h : StopStep s s1) {p : Nat} {f : Part → Part}
    (hf : ∀ x, (f x).st = x.st := by exact fun _ => rfl) :
    StopStep s (s1.modPart p f) :=
  h.trans
    { StopStep.refl s1 with
      parts := fun u => by
        rw [part_modPart]
        split_ifs with hu
        · rw [hf, hu]
        · rfl }

/-! ### Operations of the core -/

theorem StopStep.after_gcEvent {s s1 : State} (h : StopStep s s1) {ev t n : Nat} : StopStep s (gcEvent s1 ev t n) :=
  h.trans { StopStep.refl s1 with groups := fun g => by rw [gcEvent_group] }


theorem StopStep.after_retireTo {s s1 : State} (h : StopStep s s1) {t : Nat} {pc : DWord}
    (hl : Rising s.threads → (s.thread t).run ≠ .exited) :
    StopStep s (retireTo s1 t pc) :=
  (h.revive hl).modCore.after_gcEvent

theorem StopStep.after_retireWaiter {s s1 : State} (h : StopStep s s1) {t : Nat} {own : Bool}
    (hl : Rising s.threads → (s.thread t).run ≠ .exited) : StopStep s (retireWaiter s1 t own) :=
  (h.after_retireTo hl).revive hl

/-- A waiting thread of the table has not exited. -/
theorem live_of_waiting {s : State} {p : Nat × Thread} {w : Wait} (hp : p ∈ s.threads) (hw : p.2.run = .waiting w) :
    Rising s.threads → (s.thread p.1).run ≠ .exited := fun hr => by
  rw [thread_of_mem hr hp, hw]
  exact fun h => RunState.noConfusion h

theorem StopStep.after_writeReg {s s1 : State} (h : StopStep s s1) {t : Nat} {lead : Bool} {d : Reg} {ws : List Word} :
    StopStep s (writeReg s1 t lead d ws) := by
  cases d with
  | v n => exact h.modThread (vwrites_group · _ _) (fun _ _ x hx => (vwrites_run x _ _).trans hx)
  | k n =>
    unfold writeReg
    dsimp only
    split_ifs
    · exact h.modGroup (kwrites_launch · _ _)
    · exact h

theorem StopStep.after_writeOpt {s s1 : State} (h : StopStep s s1) {t : Nat} {d : Option Reg} {ws : List Word} :
    StopStep s (writeOpt s1 t d ws) := by
  cases d with
  | none => exact h
  | some r => exact h.after_writeReg

theorem StopStep.after_writePred {s s1 : State} (h : StopStep s s1) {t : Nat} {q : Option PDst} {b : Bool} :
    StopStep s (writePred s1 t q b) := by
  cases q with
  | none => exact h
  | some i => exact h.modThread (fun x => (qwrite_group_run _ _ x).1) (fun _ _ x hx => (qwrite_group_run _ _ x).2.trans hx)

theorem StopStep.after_locWrite {s s1 : State} (h : StopStep s s1) {l : Loc} {bs : List Byte} :
    StopStep s (locWrite s1 l bs) := by
  induction bs generalizing s1 l with
  | nil => exact h
  | cons b bs ih => exact ih (by cases l <;> exact h.units)

theorem StopStep.after_l1InvalidateClean {s s1 : State} (h : StopStep s s1) {c : Nat} :
    StopStep s (l1InvalidateClean s1 c) :=
  (StopStep.foldl (f := fun s l => barCopy s c l) (fun _ _ h => h.modDie) _ h).modCore

theorem StopStep.after_l1Flush {s s1 : State} (h : StopStep s s1) {c part l : Nat} :
    StopStep s (l1Flush s1 c part l) := by
  unfold l1Flush
  split
  · split_ifs
    · exact h
    · exact h.units
  · exact h

theorem StopStep.after_l1Drop {s s1 : State} (h : StopStep s s1) {c part l : Nat} :
    StopStep s (l1Drop s1 c part l) := by
  unfold l1Drop
  split_ifs
  · exact h
  · exact h.after_l1Flush.modCore

/-! ### Sync objects -/

theorem StopStep.after_grantLines {s s1 : State} (h : StopStep s s1) {c part : Nat} {xs : List (Nat × Nat)} :
    StopStep s (grantLines s1 c part xs) :=
  StopStep.foldl (fun _ _ h => h.modDie) _ (StopStep.foldl (fun _ _ h => h.after_l1Drop) _ h)

theorem StopStep.after_grantTo {s s1 : State} (h : StopStep s s1) {r : SyncReq} : StopStep s (grantTo s1 r) :=
  h.after_locWrite.after_grantLines.modGroup

theorem StopStep.after_acqRetire {s s1 : State} (h : StopStep s s1) {t : Nat} {grp : Option Nat} :
    StopStep s (acqRetire s1 t grp) := by
  refine h.trans ?_
  unfold acqRetire
  split
  · next hw =>
    exact StopStep.after_retireWaiter (StopStep.refl s1).after_writePred (fun _ hx => by rw [hw] at hx; cases hx)
  · exact StopStep.refl s1

theorem StopStep.after_grantLoop {s s1 : State} (h : StopStep s s1) {grp : Option Nat} {die word n : Nat} :
    StopStep s (grantLoop s1 grp die word n) := by
  induction n generalizing s1 with
  | zero => exact h
  | succ n ih =>
    unfold grantLoop
    split
    · exact h
    · next id r _ _ =>
      dsimp only
      split_ifs
      · exact ih (StopStep.after_acqRetire (StopStep.after_grantTo (s1 := { s1 with syncReg := tdel id s1.syncReg }) h.units))
      · exact h

theorem StopStep.after_syncWithdraw {s s1 : State} (h : StopStep s s1) {ts : List Nat} {keepTry : Bool} :
    StopStep s (syncWithdraw s1 ts keepTry) :=
  StopStep.foldl (fun _ _ h => h.after_locWrite.after_grantLoop) _ h.units

theorem StopStep.after_withdraw {s s1 : State} (h : StopStep s s1) {t : Nat} {keepTry : Bool} :
    StopStep s (withdraw s1 t keepTry) := by
  unfold withdraw
  dsimp only
  split
  · exact h.after_syncWithdraw.modCluster
  · exact h.after_syncWithdraw

/-! ### Threads that end -/

theorem StopStep.after_exitThread {s s1 : State} (h : StopStep s s1) {t : Nat} : StopStep s (exitThread s1 t) := by
  have h1 : StopStep s ((withdraw s1 t).modThread t (fun x => { x with run := .exited, j := [] })) :=
    h.after_withdraw.modThread (hr := fun _ _ _ _ => rfl)
  exact h1.modCore.modThread.modCore.modGroup

theorem StopStep.after_stopThread {s s1 : State} (h : StopStep s s1) {t : Nat} : StopStep s (stopThread s1 t) :=
  h.after_exitThread.modCore

theorem exitThread_exited (s : State) (t : Nat) : ((exitThread s t).thread t).run = .exited := by
  unfold exitThread
  generalize withdraw s t = w
  dsimp only
  generalize hx : w.modThread t (fun x => { x with run := .exited, j := [] }) = x
  have h1 : (x.thread t).run = .exited := hx ▸ thread_modThread_self (P := fun x => x.run = .exited) w t _ rfl rfl
  exact thread_modThread_self (P := fun x => x.run = .exited) (x.modCore (coreOfThread t) _) t _ h1 rfl

theorem stopThread_exited (s : State) (t : Nat) : ((stopThread s t).thread t).run = .exited := by
  unfold stopThread
  generalize hx : exitThread s t = x
  have h : (x.thread t).run = .exited := hx ▸ exitThread_exited s t
  exact h

theorem StopStep.after_savedNext {s s1 : State} (h : StopStep s s1) {lk t : Nat} : StopStep s (savedNext s1 lk t) := by
  unfold savedNext
  dsimp only
  split_ifs
  · exact h.modThread.modLaunch.modCore
  · exact h.modLaunch.modCore

/-! ### Barriers and barrier objects -/

theorem StopStep.after_barSettle {s s1 : State} (h : StopStep s s1) {g id : Nat} : StopStep s (barSettle s1 g id) := by
  refine h.trans ?_
  unfold barSettle
  dsimp only
  split
  · exact StopStep.refl s1
  · refine StopStep.foldl_mem (fun p hp s2 h2 => h2.after_retireWaiter ?_) (StopStep.refl s1).modGroup
    obtain ⟨hmem, hrun⟩ := List.mem_filter.1 hp
    obtain ⟨q, -, hq⟩ := List.any_eq_true.1 hrun
    exact live_of_waiting (List.mem_filter.1 hmem).1 (by simpa using hq)

theorem StopStep.after_dropStore {s s1 : State} (h : StopStep s s1) {c : Nat} {e : StoreEntry} :
    StopStep s (dropStore s1 c e) := by
  unfold dropStore
  dsimp only
  split_ifs
  · exact h.modCore
  · exact StopStep.foldl (fun _ _ h => h.after_barSettle) _ h.modCore

theorem StopStep.after_boRelease {s s1 : State} (h : StopStep s s1) {obj : Loc} {x : Nat} {grp : Option Nat} :
    StopStep s (boRelease s1 obj x grp) := by
  refine h.trans (StopStep.foldl_mem (fun p hp s2 h2 => ?_) (StopStep.refl s1))
  split
  · next hw =>
    split_ifs
    · exact StopStep.after_retireWaiter h2.after_writeOpt.after_l1InvalidateClean (live_of_waiting hp hw)
    · exact h2
  · exact h2

theorem StopStep.after_boUpdate {s s1 : State} (h : StopStep s s1) {obj : Loc} {ab ac ec : Nat} {grp : Option Nat} :
    StopStep s (boUpdate s1 obj ab ac ec grp) := by
  unfold boUpdate
  dsimp only
  split_ifs
  · exact h.after_locWrite.after_boRelease
  · exact h.after_locWrite

theorem StopStep.after_boContribute {s s1 : State} (h : StopStep s s1) {c part : Nat} {p : DWord} {ab ac ec : Nat} :
    StopStep s (boContribute s1 c part p ab ac ec) := by
  unfold boContribute
  split
  · exact h.after_boUpdate
  · exact h

/-! ### Requests of the engines -/

theorem StopStep.after_asyncError {s s1 : State} (h : StopStep s s1) {lk code : Nat} :
    StopStep s (asyncError s1 lk code) := by
  unfold asyncError
  split_ifs
  · exact h
  · exact h.modLaunch (fun l => by split_ifs <;> rfl)

theorem StopStep.after_telCount {s s1 : State} (h : StopStep s s1) {p d sel n : Nat} :
    StopStep s (telCount s1 p d sel n) :=
  h.modPart

theorem StopStep.after_passCounts {s s1 : State} (h : StopStep s s1) {k : Nat} {e : EReq} {r : MmaReq} {p : PassInfo}
    {corr approx : Bool} :
    StopStep s (passCounts s1 k e r p corr approx) :=
  (StopStep.foldl (f := fun (s : State) (x : Nat × Nat) => clusterCount s k x.1 x.2) (fun _ _ h => h.modCluster) _
    h).after_telCount.after_telCount.after_telCount.modLaunch

theorem StopStep.after_endEntry {s s1 : State} (h : StopStep s s1) {k : Nat} {e : EReq} {code bytes : Nat} :
    StopStep s (endEntry s1 k e code bytes) := by
  unfold endEntry
  dsimp only
  generalize (if code = 0 then bytes else 0) = ab
  split_ifs
  · exact h.modCluster.after_asyncError
  · exact h.modCluster
  · exact h.modCluster.after_asyncError.modCluster.after_boContribute
  · exact h.modCluster.modCluster.after_boContribute

theorem StopStep.after_endPass {s s1 : State} (h : StopStep s s1) {k : Nat} {e : EReq} {r : MmaReq} {p : PassInfo}
    {code : Nat}
    {corr : Option (Nat × Nat)} {approx : Bool} : StopStep s (endPass s1 k e r p code corr approx) :=
  h.after_passCounts.modCluster.modCore.after_endEntry

theorem StopStep.after_streamCut {s s1 : State} (h : StopStep s s1) {k : Nat} {e : EReq} :
    StopStep s (streamCut s1 k e) := by
  unfold streamCut
  split
  · exact h.modCluster.modCluster.modCluster
  · exact h

theorem StopStep.after_failEntry {s s1 : State} (h : StopStep s s1) {k : Nat} {e : EReq} {code : Nat} :
    StopStep s (failEntry s1 k e code) := by
  unfold failEntry
  dsimp only
  split
  · exact h.after_streamCut.after_endPass
  · exact h.after_streamCut.modCluster.after_endEntry
  · exact h.after_streamCut.modCluster.after_endEntry
  · exact h.after_streamCut.after_endEntry

theorem StopStep.after_failRequests {s s1 : State} (h : StopStep s s1) {lk : Nat} {die : Option Nat} {code : Nat}
    {f : EReq → Bool} :
    StopStep s (failRequests s1 lk die code f) := by
  refine StopStep.foldl (fun s2 p h2 => ?_) _ h
  split_ifs
  · exact StopStep.foldl (fun _ _ h => h.after_failEntry) _ h2
  · exact h2

theorem StopStep.after_failPosted {s s1 : State} (h : StopStep s s1) {lk die code : Nat} :
    StopStep s (failPosted s1 lk die code) := by
  refine StopStep.foldl (fun s2 p h2 => ?_) _ h
  split_ifs
  · refine StopStep.foldl (fun s3 e h3 => ?_) _ h2
    split
    · exact h3.modCluster.after_failEntry
    · exact h3.modCluster.after_endEntry
  · exact h2

/-! ### Saved contexts -/

theorem StopStep.after_savedFail {s s1 : State} (h : StopStep s s1) {lk k code : Nat} {e : EReq} :
    StopStep s (savedFail s1 lk k code e) := by
  have hring {f : Launch → Launch} (hf : ∀ l, (f l).part = l.part) : StopStep s (s1.modLaunch lk f) := h.modLaunch hf
  unfold savedFail savedBo
  dsimp only
  split_ifs
  · exact (hring (fun l => by split <;> rfl)).modLaunch
  · exact StopStep.after_boContribute (hring (fun l => by split <;> rfl))

theorem StopStep.after_failSaved {s s1 : State} (h : StopStep s s1) {lk : Nat} {l : Launch} {die code : Nat} :
    StopStep s (failSaved s1 lk l die code) :=
  StopStep.foldl (fun _ _ h => (StopStep.foldl (fun _ _ h => h.after_savedFail) _ h).modLaunch) _ h

theorem StopStep.after_turnScratch {s s1 : State} (h : StopStep s s1) {lk : Nat} : StopStep s (turnScratch s1 lk) := by
  unfold turnScratch
  split
  · exact h
  · dsimp only
    split_ifs
    · exact h
    · exact (StopStep.foldl (fun _ _ h => h.modCore) _ h).modLaunch


/-! ### Work on a saved scratch, and copies that end -/

theorem tfind_tkeep {α : Type} {t : Tbl α} (h : Rising t) (f : Nat → Bool) (u : Nat) :
    tfind (tkeep (fun k _ => f k) t) u = if f u then tfind t u else none := by
  induction t with
  | nil => simp [tkeep, tfind]
  | cons q t ih =>
    obtain ⟨k, v⟩ := q
    have hk : ∀ p ∈ t, k < p.1 := fun p hp => List.rel_of_pairwise_cons h hp
    have ih : tfind (t.filter (fun p => f p.1)) u = if f u then tfind t u else none := ih h.of_cons
    show tfind (((k, v) :: t).filter (fun p => f p.1)) u = _
    rw [List.filter_cons]
    by_cases huk : u = k
    · subst huk
      have hn : tfind t u = none := tfind_none_of_lt hk
      split_ifs with hf
      · simp [tfind]
      · rw [ih, if_neg hf]
    · by_cases hlt : u < k
      · have hn : tfind t u = none := tfind_none_of_lt (fun p hp => hlt.trans (hk p hp))
        split_ifs <;> simp_all [tfind]
      · split_ifs <;> simp_all [tfind]

theorem tfind_foldl_tset {α : Type} {l : Tbl α} (h : Rising l) (t : Tbl α) (u : Nat) :
    tfind (l.foldl (fun t p => tset p.1 p.2 t) t) u = (tfind l u).or (tfind t u) := by
  induction l generalizing t with
  | nil => rfl
  | cons q l ih =>
    obtain ⟨k, v⟩ := q
    have hk : ∀ p ∈ l, k < p.1 := fun p hp => List.rel_of_pairwise_cons h hp
    rw [List.foldl_cons, ih h.of_cons, tfind_tset]
    simp only [tfind]
    by_cases huk : u = k
    · subst huk
      rw [tfind_none_of_lt hk, if_pos rfl, if_pos rfl]
      rfl
    · rw [if_neg huk, if_neg huk]
      split_ifs with hlt
      · rw [tfind_none_of_lt (fun p hp => Nat.lt_trans hlt (hk p hp))]
      · rfl

theorem Rising.foldl_tset {α : Type} {t : Tbl α} (h : Rising t) (l : Tbl α) :
    Rising (l.foldl (fun t p => Machine.tset p.1 p.2 t) t) := by
  induction l generalizing t with
  | nil => exact h
  | cons q l ih => exact ih (h.tset q.1 q.2)

/-- Threads of some cores are set aside while `f` works on the others, and put back. -/
def threadsAside (there : Nat → Bool) (f : State → State) (s : State) : State :=
  let s' := f { s with threads := tkeep (fun t _ => !there t) s.threads }
  { s' with threads := (s.threads.filter (fun p => there p.1)).foldl (fun ts p => tset p.1 p.2 ts) s'.threads }

theorem withScratch_eq (s : State) (lk : Nat) (f : State → State) : withScratch s lk f =
    if (awayCores s lk).isEmpty then f s
    else threadsAside (fun t => (awayCores s lk).contains (coreOfThread t)) (fun x => turnScratch (f (turnScratch x lk)) lk) s := rfl

theorem StopStep.after_threadsAside {s s1 : State} (h : StopStep s s1) {there : Nat → Bool} {f : State → State}
    (hf : ∀ x, StopStep x (f x)) : StopStep s (threadsAside there f s1) := by
  refine h.trans ?_
  obtain ⟨hq, hp, hl, hg, hr, ht⟩ := hf { s1 with threads := tkeep (fun t _ => !there t) s1.threads }
  have hkeep (hs : Rising s1.threads) : Rising (tkeep (fun t _ => !there t) s1.threads) := hs.sublist List.filter_sublist
  refine ⟨hq, hp, hl, hg, fun hs => Rising.foldl_tset (hr (hkeep hs)) _, fun hs u => ?_⟩
  obtain ⟨h1, h2⟩ := ht (hkeep hs) u
  have hfind := tfind_foldl_tset (hs.sublist (List.filter_sublist (p := fun p => there p.1)))
    (f { s1 with threads := tkeep (fun t _ => !there t) s1.threads }).threads u
  have hin : tfind (s1.threads.filter (fun p => there p.1)) u = if there u then tfind s1.threads u else none :=
    tfind_tkeep hs there u
  have hout : tfind (tkeep (fun t _ => !there t) s1.threads) u = if there u then none else tfind s1.threads u := by
    rw [tfind_tkeep hs]
    cases there u <;> rfl
  unfold State.thread at h1 h2 ⊢
  unfold threadsAside
  simp only [hout] at h1 h2
  rw [hfind, hin]
  cases hu : there u with
  | false => simpa [hu] using And.intro h1 h2
  | true =>
    rw [hu] at h1 h2
    cases hs1 : tfind s1.threads u with
    | some x => exact ⟨rfl, id⟩
    | none => exact ⟨h1, h2⟩

theorem StopStep.after_withScratch {s s1 : State} (h : StopStep s s1) {lk : Nat} {f : State → State}
    (hf : ∀ x, StopStep x (f x)) :
    StopStep s (withScratch s1 lk f) := by
  rw [withScratch_eq]
  split_ifs
  · exact h.trans (hf s1)
  · exact h.after_threadsAside (fun x => ((StopStep.refl x).after_turnScratch.trans (hf _)).after_turnScratch)

theorem StopStep.after_tagsRelease {s s1 : State} (h : StopStep s s1) {c : Nat} : StopStep s (tagsRelease s1 c) := by
  refine h.trans (StopStep.foldl_mem (fun p hp s2 h2 => ?_) (StopStep.refl s1))
  split
  · next hw =>
    split_ifs
    · split
      · exact h2.after_writeOpt.after_writePred.after_retireWaiter (live_of_waiting hp hw)
      · exact h2
    · exact h2
  · exact h2

theorem StopStep.after_tagEnd {s s1 : State} (h : StopStep s s1) {c n code : Nat} : StopStep s (tagEnd s1 c n code) :=
  h.modCore.after_tagsRelease

theorem StopStep.after_copyDone {s s1 : State} (h : StopStep s s1) {id : Nat} {cp : Copy} {code bytes : Nat} :
    StopStep s (copyDone s1 id cp code bytes) := by
  have h1 : StopStep s { s1 with copies := tdel id s1.copies } := h.units
  unfold copyDone
  dsimp only
  split
  · exact h1.after_asyncError.after_tagEnd
  · split_ifs
    · exact h1.after_asyncError
    · exact h1.after_asyncError.after_boContribute

theorem StopStep.after_mcFail {s s1 : State} (h : StopStep s s1) {cp : Copy} {code : Nat} :
    StopStep s (mcFail s1 cp code) := by
  unfold mcFail
  split_ifs
  · refine h.after_withScratch (fun x => StopStep.foldl (fun s2 b h2 => ?_) _ (StopStep.refl x))
    split_ifs
    · exact h2.after_boContribute
    · exact h2
  · exact h.after_boContribute

theorem StopStep.after_cancelCopy {s s1 : State} (h : StopStep s s1) {id : Nat} {cp : Copy} :
    StopStep s (cancelCopy s1 id cp) := by
  unfold cancelCopy
  split_ifs
  · exact h.after_mcFail.after_copyDone
  · exact h.after_copyDone

/-! ### Launches that are stopped -/

/-- Every thread of launch `lk` on a core of die `d` has exited. -/
def ThreadsEnded (s : State) (lk d : Nat) : Prop :=
  ∀ t, (s.group (s.thread t).group).launch = lk → dieOfCore (coreOfThread t) = d → (s.thread t).run = .exited

theorem ThreadsEnded.after {s s' : State} {lk d : Nat} (h : ThreadsEnded s lk d) (hr : Rising s.threads)
    (k : StopStep s s') :
    ThreadsEnded s' lk d := by
  intro t hl hd
  obtain ⟨hg, he⟩ := k.threads hr t
  rw [hg, k.groups] at hl
  exact he (h t hl hd)

/-- Stopping threads ends each of them, and none comes back. -/
theorem foldl_stopThread_exited (ts : List Nat) {s : State} (hr : Rising s.threads) {t : Nat}
    (h : t ∈ ts ∨ (s.thread t).run = .exited) :
    ((ts.foldl stopThread s).thread t).run = .exited := by
  induction ts generalizing s with
  | nil => exact h.resolve_left (List.not_mem_nil)
  | cons u ts ih =>
    have hstep : StopStep s (stopThread s u) := (StopStep.refl s).after_stopThread
    refine ih (hstep.rising hr) ?_
    rcases h with h | h
    · rcases List.mem_cons.1 h with rfl | h
      · exact .inr (stopThread_exited s t)
      · exact .inl h
    · exact .inr ((hstep.threads hr t).2 h)

/-- The launch's threads on a die are stopped, whatever was under way. -/
def threadsStopped (s : State) (lk die : Nat) : State :=
  let s := failPosted s lk die 6
  let ts := (launchThreads s lk (some die)).map (·.1)
  ts.foldl stopThread (syncWithdraw s ts)

theorem StopStep.after_threadsStopped {s s1 : State} (h : StopStep s s1) {lk die : Nat} :
    StopStep s (threadsStopped s1 lk die) :=
  StopStep.foldl (fun _ _ h => h.after_stopThread) _ h.after_failPosted.after_syncWithdraw

theorem threadsStopped_ended {s : State} (hr : Rising s.threads) (lk die : Nat) :
    ThreadsEnded (threadsStopped s lk die) lk die := by
  intro t hl hd
  have hall : StopStep s (threadsStopped s lk die) := (StopStep.refl s).after_threadsStopped
  have hpost : StopStep s (failPosted s lk die 6) := (StopStep.refl s).after_failPosted
  rw [(hall.threads hr t).1, hall.groups, ← (hpost.threads hr t).1, ← hpost.groups] at hl
  unfold threadsStopped
  dsimp only
  generalize failPosted s lk die 6 = s1 at *
  have hsync : StopStep s1 (syncWithdraw s1 ((launchThreads s1 lk (some die)).map (·.1))) := (StopStep.refl s1).after_syncWithdraw
  refine foldl_stopThread_exited _ (hsync.rising (hpost.rising hr)) ?_
  by_cases hx : (s1.thread t).run = .exited
  · exact .inr ((hsync.threads (hpost.rising hr) t).2 hx)
  · refine .inl (List.mem_map.2 ⟨(t, s1.thread t), List.mem_filter.2 ⟨?_, ?_⟩, rfl⟩)
    · cases hf : tfind s1.threads t with
      | some x =>
        rw [State.thread, hf]
        exact mem_of_tfind hf
      | none =>
        rw [State.thread, hf] at hx
        exact absurd rfl hx
    · simp [hl, hd, hx]

theorem stopOnDie_step {s : State} {lk : Nat} {l : Launch} {die : Nat} :
    StopStep (threadsStopped s lk die) (stopOnDie s lk l die) := by
  refine StopStep.modLaunch (StopStep.foldl (fun _ _ h => h.after_savedNext) _ ?_)
  exact (StopStep.refl (threadsStopped s lk die)).after_failRequests.after_failSaved

theorem StopStep.after_stopOnDie {s s1 : State} (h : StopStep s s1) {lk : Nat} {l : Launch} {die : Nat} :
    StopStep s (stopOnDie s1 lk l die) := h.after_threadsStopped.trans stopOnDie_step

/-- Stopping a launch on some dies ends its threads there. -/
theorem foldl_stopOnDie_ended (lk : Nat) (l : Launch) (ds : List Nat) {s : State} (hr : Rising s.threads) {d : Nat}
    (h : d ∈ ds ∨ ThreadsEnded s lk d) : ThreadsEnded (ds.foldl (fun s d => stopOnDie s lk l d) s) lk d := by
  induction ds generalizing s with
  | nil => exact h.resolve_left List.not_mem_nil
  | cons e ds ih =>
    have hthr : StopStep s (threadsStopped s lk e) := (StopStep.refl s).after_threadsStopped
    have hstep : StopStep s (stopOnDie s lk l e) := (StopStep.refl s).after_stopOnDie
    refine ih (hstep.rising hr) ?_
    rcases h with h | h
    · rcases List.mem_cons.1 h with rfl | h
      · exact .inr ((threadsStopped_ended hr lk d).after (hthr.rising hr) stopOnDie_step)
      · exact .inl h
    · exact .inr (h.after hr hstep)

theorem StopStep.after_stopLaunch {s s1 : State} (h : StopStep s s1) {lk : Nat} : StopStep s (stopLaunch s1 lk) := by
  unfold stopLaunch
  split
  · exact h
  · exact StopStep.foldl (fun _ _ h => h.after_stopOnDie) _ h

theorem StopStep.after_cancelLaunch {s s1 : State} (h : StopStep s s1) {lk : Nat} : StopStep s (cancelLaunch s1 lk) :=
  h.after_stopLaunch.modLaunch

theorem StopStep.after_dropHeld {s s1 : State} (h : StopStep s s1) {lk : Nat} : StopStep s (dropHeld s1 lk) :=
  StopStep.foldl (fun _ _ h => StopStep.foldl (fun _ _ h => h.after_dropStore) _ h) _ h

theorem cancelLaunch_ended {s : State} (hr : Rising s.threads) {lk : Nat} (hl : (tfind s.launches lk).isSome = true)
    {d : Nat} (hd : d < 4) :
    ThreadsEnded (cancelLaunch s lk) lk d := by
  obtain ⟨l, hl⟩ := Option.isSome_iff_exists.1 hl
  have h1 : ThreadsEnded (stopLaunch s lk) lk d := by
    unfold stopLaunch
    simp only [hl]
    exact foldl_stopOnDie_ended lk l _ hr (.inl (List.mem_range.2 hd))
  exact h1.after ((StopStep.refl s).after_stopLaunch.rising hr) (StopStep.refl _).modLaunch

/-- Cancelling launches ends their threads. -/
theorem foldl_cancelLaunch_ended (ls : List (Nat × Launch)) {s : State} (hr : Rising s.threads)
    (hls : ∀ p ∈ ls, (tfind s.launches p.1).isSome = true) {lk d : Nat} (hd : d < 4)
    (h : lk ∈ ls.map (·.1) ∨ ThreadsEnded s lk d) :
    ThreadsEnded (ls.foldl (fun s p => dropHeld (cancelLaunch s p.1) p.1) s) lk d := by
  induction ls generalizing s with
  | nil => exact h.resolve_left List.not_mem_nil
  | cons p ls ih =>
    have hcan : StopStep s (cancelLaunch s p.1) := (StopStep.refl s).after_cancelLaunch
    have hdrop : StopStep (cancelLaunch s p.1) (dropHeld (cancelLaunch s p.1) p.1) := (StopStep.refl _).after_dropHeld
    have hstep := hcan.trans hdrop
    refine ih (hstep.rising hr) (fun q hq => ?_) ?_
    · have hk := congrArg Option.isSome (hstep.launches q.1)
      rw [Option.isSome_map, Option.isSome_map] at hk
      exact hk.trans (hls q (List.mem_cons_of_mem _ hq))
    · rcases h with h | h
      · rcases List.mem_cons.1 h with rfl | h
        · exact .inr ((cancelLaunch_ended hr (hls p List.mem_cons_self) hd).after (hcan.rising hr) hdrop)
        · exact .inl h
      · exact .inr (h.after hr hstep)

end Sys2Proof.Machine
end

section
/-! PROOFS. Requests of the mailbox: partitions, firmware images, attestation. -/

namespace Sys2Proof.Machine

set_option Elab.async false  -- theorem after theorem: every thread of a compile takes a stack of its own

/-! ### Bytes -/

@[simp] theorem leBytes_length (n x : Nat) : (leBytes n x).length = n := by
  induction n generalizing x with
  | zero => rfl
  | succ n ih => rw [leBytes, List.length_cons, ih]

@[simp] theorem digestBytes_length (d : Digest) : (digestBytes d).length = 48 := by
  rw [digestBytes, List.length_reverse, leBytes_length]

@[simp] theorem reportBytes_length (die k n : Nat) : (reportBytes die k n).length = n := by
  induction n generalizing k with
  | zero => rfl
  | succ n ih => rw [reportBytes, List.length_cons, ih]

/-- A run of stored bytes reads as it was stored. -/
theorem mgets_msets {m : Mem} (h : m.wf = true) (a : Nat) (pre bs post : List Byte) :
    mgets (msets m a (pre ++ bs ++ post)) (a + pre.length) bs.length = bs := by
  have key : ∀ (l : List Byte) (x : Nat), (∀ i, i < l.length → mget (msets m a (pre ++ bs ++ post)) (x + i) = l.getD i 0) →
      mgets (msets m a (pre ++ bs ++ post)) x l.length = l := by
    intro l
    induction l with
    | nil => intro x _; rfl
    | cons b l ih =>
      intro x hx
      rw [List.length_cons, mgets, ih (x + 1) (fun i hi => ?_)]
      · rw [show mget _ x = b from hx 0 (Nat.succ_pos _)]
      · rw [Nat.add_assoc, Nat.add_comm 1 i, hx (i + 1) (Nat.succ_lt_succ hi), List.getD_cons_succ]
  refine key bs _ (fun i hi => ?_)
  rw [mget_msets h, if_pos (by simp only [List.length_append]; omega),
    show a + pre.length + i - a = pre.length + i by omega, List.append_assoc, List.getD_append_right _ _ _ _ (by omega),
    Nat.add_sub_cancel_left, List.getD_append _ _ _ _ hi]

/-! ### The mailbox -/

theorem freeWords_snd (s : State) (n : Nat) : (freeWords s n).2 = { s with free := s.free + n } := by
  induction n generalizing s with
  | zero => rfl
  | succ n ih => simp [freeWords, ih, freeValue, Nat.add_comm, Nat.add_left_comm]

/-- A die's mailbox holds a response, no request is outstanding there, and the message of it is sent. -/
def responded (s : State) (die : Nat) (rsp : List Byte) : State :=
  { ({ s with free := s.free + 12 } : State).modDie die (fun d => { d with mboxRsp := rsp, mboxOut := none }) with msix := (0, 2) :: s.msix }

theorem responded_die (s : State) (die : Nat) (rsp : List Byte) :
    (responded s die rsp).die die = { s.die die with mboxRsp := rsp, mboxOut := none } := by
  show (({ s with free := s.free + 12 } : State).modDie die (fun d => { d with mboxRsp := rsp, mboxOut := none })).die die = _
  rw [die_modDie_self]
  rfl

theorem mboxRespond_eq (s : State) (die op seq part st : Nat) : ∃ rsp : List Byte,
    rsp.take 8 = leBytes 1 op ++ leBytes 1 st ++ leBytes 2 seq ++ leBytes 4 part ∧
    mboxRespond s die op seq part st = responded s die rsp := by
  have hw : freeWords s 12 = ((freeWords s 12).1, { s with free := s.free + 12 }) := Prod.ext rfl (freeWords_snd s 12)
  unfold mboxRespond
  rw [hw]
  refine ⟨_, ?_, rfl⟩
  have hlen : (leBytes 1 op ++ leBytes 1 st ++ leBytes 2 seq ++ leBytes 4 part).length = 8 := by simp
  generalize leBytes 1 op ++ leBytes 1 st ++ leBytes 2 seq ++ leBytes 4 part = b at *
  simp [hlen]

theorem answered_mboxRespond (s : State) (die op seq part st : Nat) :
    Answered s (mboxRespond s die op seq part st) die op seq part st := by
  obtain ⟨rsp, hr, heq⟩ := mboxRespond_eq s die op seq part st
  rw [heq]
  refine ⟨?_, ?_, rfl⟩
  · rw [responded_die]
  · rw [responded_die]
    exact hr

section
variable (s : State) (die op seq part st : Nat)

theorem mboxRespond_keeps {α : Type} (get : State → α) (hfree : ∀ s n, get { s with free := n } = get s)
    (hdie : ∀ (s : State) (d f), get (s.modDie d f) = get s) (hmsix : ∀ s l, get { s with msix := l } = get s) :
    get (mboxRespond s die op seq part st) = get s := by
  obtain ⟨rsp, -, heq⟩ := mboxRespond_eq s die op seq part st
  rw [heq, responded, hmsix, hdie, hfree]

@[simp] theorem mboxRespond_parts : (mboxRespond s die op seq part st).parts = s.parts :=
  mboxRespond_keeps s die op seq part st State.parts (fun _ _ => rfl) (fun _ _ _ => rfl) (fun _ _ => rfl)
@[simp] theorem mboxRespond_threads : (mboxRespond s die op seq part st).threads = s.threads :=
  mboxRespond_keeps s die op seq part st State.threads (fun _ _ => rfl) (fun _ _ _ => rfl) (fun _ _ => rfl)
@[simp] theorem mboxRespond_queues : (mboxRespond s die op seq part st).queues = s.queues :=
  mboxRespond_keeps s die op seq part st State.queues (fun _ _ => rfl) (fun _ _ _ => rfl) (fun _ _ => rfl)
@[simp] theorem mboxRespond_hbm : (mboxRespond s die op seq part st).hbm = s.hbm :=
  mboxRespond_keeps s die op seq part st State.hbm (fun _ _ => rfl) (fun _ _ _ => rfl) (fun _ _ => rfl)
@[simp] theorem mboxRespond_fw : (mboxRespond s die op seq part st).fw = s.fw :=
  mboxRespond_keeps s die op seq part st State.fw (fun _ _ => rfl) (fun _ _ _ => rfl) (fun _ _ => rfl)

end

/-- A request that has come is outstanding at its die. -/
def asked (s : State) (die op seq part : Nat) : State := s.modDie die (fun d => { d with mboxOut := some (op, seq, part) })

theorem asked_die (s : State) (die op seq part d : Nat) :
    (asked s die op seq part).die d = { s.die d with mboxOut := ((asked s die op seq part).die d).mboxOut } := by
  unfold asked
  rw [die_modDie]
  split_ifs with h
  · rw [h]
  · rfl

theorem paPresent_asked (s : State) (die op seq part pa : Nat) :
    paPresent (asked s die op seq part) pa = paPresent s pa := by
  unfold paPresent
  rw [asked_die]

/-- A request that the mailbox takes and answers at once. -/
theorem mboxRequest_answers {s s1 : State} {die op seq part st : Nat} {f : State → State × Option Nat}
    (h : MboxFree s die)
    (hf : f (asked s die op seq part) = (s1, some st)) : mboxRequest s die op seq part f = mboxRespond s1 die op seq part st := by
  obtain ⟨hup, hout⟩ := h
  unfold asked at hf
  simp only [mboxRequest, hup, hout, Option.isSome_none, Bool.false_eq_true, if_false, hf]

/-- A request that it takes and answers later. -/
theorem mboxRequest_defers {s s1 : State} {die op seq part : Nat} {f : State → State × Option Nat} (h : MboxFree s die)
    (hf : f (asked s die op seq part) = (s1, none)) : mboxRequest s die op seq part f = s1 := by
  obtain ⟨hup, hout⟩ := h
  unfold asked at hf
  simp only [mboxRequest, hup, hout, Option.isSome_none, Bool.false_eq_true, if_false, hf]

theorem Answered.of_msix {s s1 s' : State} {die op seq part st : Nat} (h : Answered s1 s' die op seq part st)
    (hm : s1.msix = s.msix) :
    Answered s s' die op seq part st := by
  obtain ⟨h1, h2, h3⟩ := h
  exact ⟨h1, h2, by rw [h3, hm]⟩

/-! ### Partitions -/

/-- From `s` to `s'` partitions, threads, messages, firmware and launches stay as they are. -/
structure KeepsOwners (s s' : State) : Prop where
  parts : s'.parts = s.parts
  threads : s'.threads = s.threads
  msix : s'.msix = s.msix

theorem KeepsOwners.trans {s s1 s2 : State} (h : KeepsOwners s s1) (k : KeepsOwners s1 s2) : KeepsOwners s s2 :=
  ⟨k.parts.trans h.parts, k.threads.trans h.threads, k.msix.trans h.msix⟩

theorem KeepsOwners.foldl {β : Type} {f : State → β → State} (h : ∀ s x, KeepsOwners s (f s x)) (l : List β)
    (s : State) :
    KeepsOwners s (l.foldl f s) := by
  induction l generalizing s with
  | nil => exact ⟨rfl, rfl, rfl⟩
  | cons x l ih => exact (h s x).trans (ih (f s x))

theorem keepsOwners_bankUndefineAll (s : State) (die g : Nat) (zero : Bool) (n : Nat) :
    KeepsOwners s (bankUndefineAll s die g zero n) := by
  induction n generalizing s g with
  | zero => exact ⟨rfl, rfl, rfl⟩
  | succ n ih => exact KeepsOwners.trans (by cases zero <;> exact ⟨rfl, rfl, rfl⟩) (ih (bankUndefine s die g zero) (g + 1))

theorem keepsOwners_zeroAreas (s : State) (part : Nat) : KeepsOwners s (zeroAreas s part) :=
  KeepsOwners.trans (s1 := { s with hbm := mclear (mclear s.hbm (s.part part).otpa (2 ^ 21)) (s.part part).povfbase (ovfBytes (s.part part)) })
    ⟨rfl, rfl, rfl⟩ (KeepsOwners.foldl (f := fun s d => bankUndefineAll s d _ true _) (fun _ _ => keepsOwners_bankUndefineAll _ _ _ _ _) _ _)

theorem part_of_parts {s s' : State} (h : s'.parts = s.parts) (p : Nat) : s'.part p = s.part p := by
  rw [State.part, h, State.part]

/-- A new partition: ACTIVE, in its test mode, with the clusters it was given. -/
theorem createPart_spec (s : State) (part : Nat) (test : Bool) :
    ((createPart s part test).part part).st = .active ∧ ((createPart s part test).part part).test = test ∧
      ((createPart s part test).part part).pclu = (s.part part).pclu ∧ (createPart s part test).threads = s.threads ∧
      (createPart s part test).msix = s.msix := by
  have h : ∃ a b : Nat, createPart s part test = zeroAreas (({ s with free := s.free + 1 + 1 } : State).modPart part (fun p => { p with
      st := .active, test, pevent := 0, otpa := a, potgpa := b })) part := ⟨_, _, rfl⟩
  obtain ⟨a, b, h⟩ := h
  rw [h]
  obtain ⟨hp, ht, hm⟩ := keepsOwners_zeroAreas (({ s with free := s.free + 1 + 1 } : State).modPart part (fun p => { p with
      st := .active, test, pevent := 0, otpa := a, potgpa := b })) part
  rw [part_of_parts hp, part_modPart_self]
  exact ⟨rfl, rfl, rfl, ht, hm⟩

/-- The queues of a partition are turned off. -/
def queuesOff (s : State) (part : Nat) : State :=
  { s with queues := tmap (fun _ q => if q.part == part then
      { q with en := false, st := .off, stopcode := 0, inline := none, cur := none, retries := 0, latch := none, dropping := none
               waiting := false, xfering := false } else q) s.queues }

@[simp] theorem queuesOff_part (s : State) (part p : Nat) : (queuesOff s part).part p = s.part p := rfl

theorem queuesOff_st {s : State} (h : Rising s.queues) {part : Nat} {p : Nat × Queue} (hp : p ∈ s.queues)
    (hpart : p.2.part = part) :
    ((queuesOff s part).queue p.1).st = .off := by
  unfold State.queue queuesOff
  dsimp only
  rw [tfind_tmap, tfind_of_mem h hp]
  simp [hpart]

/-- The launches and copies of a partition whose queues are off are ended. -/
def workStopped (s : State) (part : Nat) : State :=
  let s := (s.launches.filter (fun p => p.2.part == part)).foldl (fun s p => dropHeld (cancelLaunch s p.1) p.1) s
  (s.copies.filter (fun p => p.2.part == part)).foldl (fun s p => cancelCopy s p.1 p.2) s

theorem destroyPart_eq {s : State} {part : Nat} (h : ∀ p ∈ s.insts, p.2.part ≠ part) :
    let s1 := workStopped (queuesOff (s.modPart part (fun p => { p with st := .destroying })) part) part
    destroyPart s part =
      { s1 with welts := tkeep (fun k _ => k / 2 ^ 32 != part) s1.welts
                rounds := tkeep (fun _ r => r.part != part) s1.rounds } := by
  have hnil : (s.insts.filter (fun p => p.2.part == part)) = [] := by
    rw [List.filter_eq_nil_iff]
    exact fun p hp => by simpa using h p hp
  unfold destroyPart
  dsimp only [State.modPart_insts]
  rw [hnil]
  rfl

theorem workStopped_step (s : State) (part : Nat) : StopStep s (workStopped s part) :=
  StopStep.foldl (fun _ _ h => h.after_cancelCopy) _
    (StopStep.foldl (fun _ _ h => h.after_cancelLaunch.after_dropHeld) _ (StopStep.refl s))

/-- Every thread of a launch of the partition, on a core of the part, has exited. -/
theorem workStopped_ended {s : State} {part : Nat} (hr : Rising s.threads) (hl : Rising s.launches) {t : Nat}
    (ht : t < 196608) {l : Launch}
    (hf : tfind s.launches (s.group (s.thread t).group).launch = some l) (hp : l.part = part) :
    ((workStopped s part).thread t).run = .exited := by
  have hmem := mem_of_tfind hf
  have hended := foldl_cancelLaunch_ended (s.launches.filter (fun p => p.2.part == part)) hr
    (fun p hp => by rw [tfind_of_mem hl (List.mem_filter.1 hp).1]; rfl) (d := dieOfCore (coreOfThread t))
    (lk := (s.group (s.thread t).group).launch) (by simp only [dieOfCore, coreOfThread, coresPerDie, slotsPerCore]; omega)
    (.inl (List.mem_map.2 ⟨_, List.mem_filter.2 ⟨hmem, by simpa using hp⟩, rfl⟩))
  have hlaunch : StopStep s ((s.launches.filter (fun p => p.2.part == part)).foldl (fun s p => dropHeld (cancelLaunch s p.1) p.1) s) :=
    StopStep.foldl (fun _ _ h => h.after_cancelLaunch.after_dropHeld) _ (StopStep.refl s)
  unfold workStopped
  dsimp only
  generalize (s.launches.filter (fun p => p.2.part == part)).foldl (fun s p => dropHeld (cancelLaunch s p.1) p.1) s = s1 at *
  have hcopies : StopStep s1 ((s1.copies.filter (fun p => p.2.part == part)).foldl (fun s p => cancelCopy s p.1 p.2) s1) :=
    StopStep.foldl (fun _ _ h => h.after_cancelCopy) _ (StopStep.refl s1)
  refine (hcopies.threads (hlaunch.rising hr) t).2 (hended t ?_ rfl)
  rw [(hlaunch.threads hr t).1, hlaunch.groups]

/-! ### Firmware images -/

@[simp] theorem part_withMsix (s : State) (l : List (Nat × Nat)) (q : Nat) : ({ s with msix := l } : State).part q = s.part q := rfl

theorem partEvent_st (s : State) (p k q : Nat) : ((partEvent s p k).part q).st = (s.part q).st := by
  unfold partEvent
  dsimp only
  rw [part_withMsix, part_modPart]
  split_ifs with h
  · rw [h]
  · rfl

theorem moveParts_keeps {α : Type} (get : State → α) (hpart : ∀ (s : State) (p f), get (s.modPart p f) = get s)
    (hmsix : ∀ s l, get { s with msix := l } = get s) (s : State) (a b : PState) (k : Nat) : get (moveParts s a b k) = get s :=
  foldl_keeps get (fun _ _ => (hmsix _ _).trans ((hpart _ _ _).trans (hpart _ _ _))) _ s

@[simp] theorem moveParts_fw (s : State) (a b : PState) (k : Nat) : (moveParts s a b k).fw = s.fw :=
  moveParts_keeps State.fw (fun _ _ _ => rfl) (fun _ _ => rfl) s a b k
@[simp] theorem moveParts_dies (s : State) (a b : PState) (k : Nat) : (moveParts s a b k).dies = s.dies :=
  moveParts_keeps State.dies (fun _ _ _ => rfl) (fun _ _ => rfl) s a b k

/-- One partition moves. -/
def movePart (b : PState) (k : Nat) (s : State) (p : Nat) : State := partEvent (s.modPart p (fun p => { p with st := b })) p k

theorem movePart_st (b : PState) (k : Nat) (s : State) (p q : Nat) :
    ((movePart b k s p).part q).st = if q = p then b else (s.part q).st := by
  unfold movePart
  rw [partEvent_st, part_modPart]
  split_ifs <;> rfl

theorem Rising.keys_nodup {α : Type} {t : Tbl α} (h : Rising t) : (t.map (·.1)).Nodup :=
  (List.pairwise_map.2 (h.imp fun hlt => Nat.ne_of_lt hlt) :)

theorem moveParts_part {s : State} (hr : Rising s.parts) (a b : PState) (k : Nat) {p : Nat × Part} (hp : p ∈ s.parts) :
    ((moveParts s a b k).part p.1).st = if p.2.st = a then b else p.2.st := by
  have heq : moveParts s a b k = ((s.parts.filter (fun p => p.2.st == a)).map (·.1)).foldl (movePart b k) s := by
    rw [List.foldl_map]
    rfl
  have hother : ∀ (s : State) (e : Nat), e ≠ p.1 → ((movePart b k s e).part p.1).st = (s.part p.1).st :=
    fun s e he => by rw [movePart_st, if_neg (Ne.symm he)]
  have hpart : s.part p.1 = p.2 := by rw [State.part, tfind_of_mem hr hp]; rfl
  rw [heq]
  split_ifs with ha
  · obtain ⟨s1, -, h2⟩ := foldl_at (fun s : State => (s.part p.1).st) hother
      (Rising.keys_nodup (hr.sublist (List.filter_sublist (p := fun p => p.2.st == a))))
      (List.mem_map.2 ⟨p, List.mem_filter.2 ⟨hp, by simpa using ha⟩, rfl⟩) s
    rw [h2, movePart_st, if_pos rfl]
  · rw [foldl_of_not_mem (fun s : State => (s.part p.1).st) hother _ s, hpart]
    intro hmem
    obtain ⟨q, hq, hqp⟩ := List.mem_map.1 hmem
    obtain ⟨hq, hst⟩ := List.mem_filter.1 hq
    have hfind := tfind_of_mem hr hq
    rw [hqp, tfind_of_mem hr hp, Option.some.injEq] at hfind
    exact ha (by simpa [hfind] using hst)

/-! ### Attestation -/

theorem m2_asked (s : State) (die op seq part d : Nat) : m2 (asked s die op seq part) d = m2 s d := by
  have hcap (o : Nat) : capWord (asked s die op seq part) d o = capWord s d o := by unfold capWord; rw [asked_die]
  have hmap (i : Nat) : sliceMapReg (asked s die op seq part) d i = sliceMapReg s d i := by unfold sliceMapReg; rw [asked_die]
  unfold m2
  simp only [hcap, hmap]
  rfl

/-- The report begins with the nonce, and names the die and its measurements where they are looked for. -/
theorem report_layout (s : State) (die n : Nat) (nonce : List Byte) :
    ∃ serial signs : List Byte, serial.length = 16 ∧ signs.length = 64 + 3309 ∧
      report s die n nonce = nonce ++ (serial ++ (leBytes 4 die ++ (digestBytes (s.die die).m0 ++ (digestBytes (s.die die).m1 ++
        (digestBytes (m2 s die) ++ signs))))) := by
  refine ⟨_, _, reportBytes_length nDies 0 16, reportBytes_length die (4096 * n) (64 + 3309), ?_⟩
  unfold report
  simp only [List.append_assoc]

/-- What the report says once it is written at `pa`. -/
theorem report_read {m : Mem} (hm : m.wf = true) (s : State) (die n pa : Nat) {nonce : List Byte}
    (hn : nonce.length = 32) :
    let m' := msets m pa (report s die n nonce)
    mgets m' pa 32 = nonce ∧ mgets m' (pa + 48) 4 = leBytes 4 die ∧ mgets m' (pa + 52) 48 = digestBytes (s.die die).m0 ∧
      mgets m' (pa + 100) 48 = digestBytes (s.die die).m1 ∧ mgets m' (pa + 148) 48 = digestBytes (m2 s die) ∧
      ∀ a, a < pa ∨ pa + 8192 ≤ a → mget m' a = mget m a := by
  obtain ⟨serial, signs, h1, h2, hr⟩ := report_layout s die n nonce
  have hread (pre bs post : List Byte) (h : report s die n nonce = pre ++ bs ++ post) :
      mgets (msets m pa (report s die n nonce)) (pa + pre.length) bs.length = bs := h ▸ mgets_msets hm pa pre bs post
  refine ⟨?_, ?_, ?_, ?_, ?_, fun a ha => ?_⟩
  · simpa [hn] using hread [] nonce _ (by rw [hr]; rfl)
  · simpa [hn, h1] using hread (nonce ++ serial) (leBytes 4 die) _ (by rw [hr]; simp only [List.append_assoc]; rfl)
  · simpa [hn, h1] using hread (nonce ++ serial ++ leBytes 4 die) (digestBytes (s.die die).m0) _
      (by rw [hr]; simp only [List.append_assoc]; rfl)
  · simpa [hn, h1] using hread (nonce ++ serial ++ leBytes 4 die ++ digestBytes (s.die die).m0) (digestBytes (s.die die).m1) _
      (by rw [hr]; simp only [List.append_assoc]; rfl)
  · simpa [hn, h1] using hread (nonce ++ serial ++ leBytes 4 die ++ digestBytes (s.die die).m0 ++ digestBytes (s.die die).m1)
      (digestBytes (m2 s die)) _ (by rw [hr]; simp only [List.append_assoc]; rfl)
  · rw [mget_msets hm, if_neg]
    simp only [hr, List.length_append, hn, h1, h2, leBytes_length, digestBytes_length]
    omega

/-! ### The requests, one by one -/

theorem execPcreate_new {s : State} {die part seq : Nat} {test : Bool} (h : MboxFree s die)
    (ha : s.fw.activating = false)
    (hst : (s.part part).st = .free) (hc : (s.part part).pclu.all (· == 0) = false) :
    execPcreate die part seq test s = .next (mboxRespond (createPart (asked s die 4 seq part) part test) die 4 seq part 0) := by
  refine congrArg Host.Outcome.next (mboxRequest_answers h ?_)
  have hst' : ((asked s die 4 seq part).part part).st = .free := hst
  have hc' : ((asked s die 4 seq part).part part).pclu.all (· == 0) = false := hc
  have ha' : (asked s die 4 seq part).fw.activating = false := ha
  simp only [hst', hc', ha', ne_eq, not_true_eq_false, Bool.false_eq_true, or_self, if_false]

theorem execPcreate_refused {s : State} {die part seq : Nat} {test : Bool} (h : MboxFree s die)
    (hst : (s.part part).st ≠ .free) :
    execPcreate die part seq test s = .next (mboxRespond (asked s die 4 seq part) die 4 seq part 6) :=
  congrArg Host.Outcome.next (mboxRequest_answers h (if_pos (Or.inl hst)))

theorem execPdestroy_active {s : State} {die part seq : Nat} (h : MboxFree s die) (ha : s.fw.activating = false)
    (hst : (s.part part).st = .active) :
    execPdestroy die part seq s = .next (mboxRespond (destroyPart (asked s die 5 seq part) part) die 5 seq part 0) := by
  refine congrArg Host.Outcome.next (mboxRequest_answers h ?_)
  have hst' : ((asked s die 5 seq part).part part).st = .active := hst
  have ha' : (asked s die 5 seq part).fw.activating = false := ha
  simp [hst', ha']

/-- An image is staged: what FWSTAGE does with one that lies where memory is, whether it is signed, whole and new enough. -/
def imageStaged (s : State) (die seq pa bytes : Nat) (signed fresh : Bool) : State :=
  if signed && fresh then mboxRespond { asked s die 0x10 seq 0 with
    fw := { s.fw with held := true, image := sha384 (mgets s.hbm pa bytes) } } die 0x10 seq 0 0
  else mboxRespond (asked s die 0x10 seq 0) die 0x10 seq 0 (if signed then 4 else 3)

theorem execFwstage_read {s : State} {die seq pa bytes : Nat} (h : MboxFree s die) (hb : 0 < bytes)
    (h1 : paPresent s pa = true)
    (h2 : paPresent s (pa + bytes - 1) = true) {sigOk signed fresh : Bool} (hs : (sigOk && bodyMatches (mgets s.hbm pa bytes)) = signed)
    (hf : decide ((s.die die).fuse.minVersion ≤ leNat ((mgets s.hbm pa bytes).take 4)) = fresh) (hor : signed = true ∨ fresh = true) :
    execFwstage die seq pa bytes sigOk s = .next (imageStaged s die seq pa bytes signed fresh) := by
  have hp1 : paPresent (asked s die 0x10 seq 0) pa = true := (paPresent_asked ..).trans h1
  have hp2 : paPresent (asked s die 0x10 seq 0) (pa + bytes - 1) = true := (paPresent_asked ..).trans h2
  have hm : (asked s die 0x10 seq 0).hbm = s.hbm := rfl
  have hfw : (asked s die 0x10 seq 0).fw = s.fw := rfl
  have hf' : decide (((asked s die 0x10 seq 0).die die).fuse.minVersion ≤ leNat ((mgets s.hbm pa bytes).take 4)) = fresh := by
    rw [asked_die]
    exact hf
  refine congrArg Host.Outcome.next ?_
  unfold imageStaged
  have hb' : bytes ≠ 0 := hb.ne'
  split_ifs with hsf hsg
  · refine mboxRequest_answers h ?_
    simp only [hp1, hp2, hm, hs, hf', hb', hsf, hfw, Bool.not_true, Bool.false_eq_true, or_self, if_false, if_true]
  · have hfr : fresh = false := by simpa [hsg] using hsf
    refine mboxRequest_answers h ?_
    simp only [hp1, hp2, hm, hs, hf', hb', hsg, hfr, Bool.not_true, Bool.and_false, Bool.false_eq_true, or_self, if_false, if_true]
  · have hsg : signed = false := by simpa using hsg
    have hfr : fresh = true := hor.resolve_left (by simp [hsg])
    refine mboxRequest_answers h ?_
    simp only [hp1, hp2, hm, hs, hf', hb', hsg, hfr, Bool.not_true, Bool.false_and, Bool.false_eq_true, or_self, if_false, if_true]

/-- What the activation of an image begins with. -/
def activationBegun (s : State) : State :=
  { s with fw := { s.fw with activating := true, held := false, images := s.fw.images + 1 }
           dies := tmap (fun _ d => { d with m1 := extend d.m1 s.fw.image }) s.dies }

theorem execFwactivate_begins {s : State} {seq : Nat} (h : MboxFree s 0) (ha : s.fw.activating = false)
    (hh : s.fw.held = true) :
    execFwactivate seq s = .next (moveParts (activationBegun (asked s 0 0x11 seq 0)) .active .paused 1) := by
  unfold execFwactivate
  rw [ha, if_neg (by simp)]
  refine congrArg Host.Outcome.next (mboxRequest_defers h ?_)
  have hh' : (asked s 0 0x11 seq 0).fw.held = true := hh
  simp only [hh', Bool.not_true, Bool.false_eq_true, if_false]
  rfl

theorem activationBegun_die (s : State) (d : Nat) (h : (tfind s.dies d).isSome = true) :
    (activationBegun s).die d = { s.die d with m1 := extend (s.die d).m1 s.fw.image } := by
  obtain ⟨x, hx⟩ := Option.isSome_iff_exists.1 h
  unfold State.die activationBegun
  dsimp only
  rw [tfind_tmap, hx]
  rfl

/-- An activation ends: the partitions go on, and the request is answered where it is outstanding. -/
theorem execFwactivate_ends {s : State} {seq : Nat} (ha : s.fw.activating = true) (hq : queuesQuiet s = true)
    (hw : s.fw.waiting = []) :
    let s1 := moveParts { s with fw := { s.fw with activating := false, waiting := [] } } .paused .active 2
    ∃ s', execFwactivate seq s = .next s' ∧ s'.fw = s1.fw ∧ s'.parts = s1.parts := by
  intro s1
  have hnext : execFwactivate seq s = .next (match (s1.die 0).mboxOut with
      | some (op, sq, p) => if op = 0x11 then mboxRespond s1 0 op sq p 0 else s1
      | none => s1) := by
    unfold execFwactivate
    rw [if_pos ha, if_neg (by simp [hq]), hw]
    rfl
  refine ⟨_, hnext, ?_⟩
  split
  · split_ifs
    · exact ⟨mboxRespond_fw .., mboxRespond_parts ..⟩
    · exact ⟨rfl, rfl⟩
  · exact ⟨rfl, rfl⟩

theorem execAttest_reports {s : State} {die seq pa : Nat} {nonce : List Byte} (h : MboxFree s die) (hpa : pa % 4096 = 0)
    (hn : nonce.length = 32) (h1 : paPresent s pa = true) (h2 : paPresent s (pa + 8191) = true) :
    execAttest die seq pa nonce s = .next (mboxRespond { asked s die 0x20 seq 0 with
      hbm := msets s.hbm pa (report (asked s die 0x20 seq 0) die s.free nonce), free := s.free + 1 } die 0x20 seq 0 0) := by
  have hp1 : paPresent (asked s die 0x20 seq 0) pa = true := (paPresent_asked ..).trans h1
  have hp2 : paPresent (asked s die 0x20 seq 0) (pa + 8191) = true := (paPresent_asked ..).trans h2
  exact congrArg Host.Outcome.next (mboxRequest_answers h (if_neg (by simp [hpa, hn, hp1, hp2])))

theorem execPartitionFreed_free {s : State} {part : Nat} (hst : (s.part part).st = .destroying)
    (hl : ∀ l ∈ s.launches, l.2.part ≠ part)
    (hi : ∀ g ∈ s.insts, g.2.part ≠ part) (hq : ∀ q ∈ s.queues, q.2.part = part → q.2.st = .off) :
    execPartitionFreed part s = .next (((ownedCores (s.part part)).foldl (fun s c => s.modCore c (fun x =>
      { x with scratch := [], unfilled := 0, inj := [] })) (zeroAreas s part)).modPart part (fun p =>
      { p with st := .free, test := false, potgpa := 0, tel := [], heldRecs := [], loaded := [], gated := false })) := by
  refine if_neg ?_
  simpa [hst] using ⟨fun k l h => hl _ h, fun k g h => hi _ h, fun k q h => hq _ h⟩

end Sys2Proof.Machine

open Sys2Proof Sys2Proof.Machine

/-- Settles O59, request by request; that no thread of a destroyed partition's launches goes on is `workStopped_ended`. -/
theorem partitionsAndFirmware : Obligations.PartitionsAndFirmware := by
  unfold Obligations.PartitionsAndFirmware
  intro s die part seq
  refine ⟨fun hfree ha => ⟨?create, ?refused, ?destroy⟩, ?freed, ?stage, ?activate, ?resume, ?busy, ?attest⟩
  case create =>
    intro test hst hc
    obtain ⟨c1, c2, c3, c4, c5⟩ := createPart_spec (asked s die 4 seq part) part test
    refine ⟨_, execPcreate_new hfree ha hst hc, (answered_mboxRespond _ _ _ _ _ _).of_msix c5, ?_⟩
    rw [part_of_parts (mboxRespond_parts _ _ _ _ _ _), mboxRespond_threads]
    exact ⟨c1, c2, c3, c4⟩
  case refused =>
    intro test hst
    exact ⟨_, execPcreate_refused hfree hst, (answered_mboxRespond _ _ _ _ _ _).of_msix rfl, mboxRespond_parts _ _ _ _ _ _,
      mboxRespond_hbm _ _ _ _ _ _⟩
  case destroy =>
    intro hst hrt hrq hrl hinst
    obtain ⟨hout, hrsp, -⟩ := answered_mboxRespond (destroyPart (asked s die 5 seq part) part) die 5 seq part 0
    have hoff := workStopped_step (queuesOff ((asked s die 5 seq part).modPart part (fun p => { p with st := .destroying })) part) part
    refine ⟨_, execPdestroy_active hfree ha hst, hout, ?_, ?_, fun p hp hpart => ?_, fun p hp hlt l hl hlp => ?_⟩
    · have htwo := congrArg (List.take 2) hrsp
      rw [List.take_take] at htwo
      exact htwo
    · rw [part_of_parts (mboxRespond_parts _ _ _ _ _ _), destroyPart_eq (s := asked s die 5 seq part) hinst]
      exact (hoff.parts part).trans (by rw [queuesOff_part, part_modPart_self])
    · rw [State.queue, mboxRespond_queues, destroyPart_eq (s := asked s die 5 seq part) hinst]
      dsimp only
      rw [hoff.queues]
      exact queuesOff_st (s := (asked s die 5 seq part).modPart part (fun p => { p with st := .destroying })) hrq hp hpart
    · rw [State.thread, mboxRespond_threads, destroyPart_eq (s := asked s die 5 seq part) hinst]
      rw [← thread_of_mem hrt hp] at hl
      exact workStopped_ended (s := queuesOff ((asked s die 5 seq part).modPart part _) part) hrt hrl hlt hl hlp
  case freed =>
    intro hst hl hi hq
    refine ⟨_, execPartitionFreed_free hst hl hi hq, ?_⟩
    rw [part_modPart_self]
    refine ⟨rfl, rfl, rfl, ?_⟩
    exact (foldl_keeps State.threads (fun s c => State.modCore_threads s c _) _ _).trans (keepsOwners_zeroAreas s part).threads
  case stage =>
    intro hfree pa bytes hb h1 h2 img
    refine ⟨fun hm hv => ?_, fun sigOk hbad hv => ?_, fun hm hv => ?_⟩
    · refine ⟨_, execFwstage_read hfree hb h1 h2 hm (decide_eq_true hv) (.inl rfl), (answered_mboxRespond _ _ _ _ _ _).of_msix rfl, ?_⟩
      unfold imageStaged
      simp only [Bool.and_self, if_true, mboxRespond_fw, mboxRespond_hbm]
      exact ⟨trivial, rfl, rfl⟩
    · have hs : (sigOk && bodyMatches (mgets s.hbm pa bytes)) = false := by
        rcases hbad with h | h
        · rw [h, Bool.false_and]
        · rw [h, Bool.and_false]
      exact ⟨_, execFwstage_read hfree hb h1 h2 hs (decide_eq_true hv) (.inr rfl), (answered_mboxRespond _ _ _ _ _ _).of_msix rfl,
        mboxRespond_fw _ _ _ _ _ _⟩
    · exact ⟨_, execFwstage_read hfree hb h1 h2 hm (decide_eq_false (Nat.not_le.2 hv)) (.inl rfl),
        (answered_mboxRespond _ _ _ _ _ _).of_msix rfl, mboxRespond_fw _ _ _ _ _ _⟩
  case activate =>
    intro hfree ha hh hrp hrd
    have hdie (d : Nat) : (moveParts (activationBegun (asked s 0 0x11 seq 0)) .active .paused 1).die d =
        (activationBegun (asked s 0 0x11 seq 0)).die d := by rw [State.die, moveParts_dies, State.die]
    refine ⟨_, execFwactivate_begins hfree ha hh, ?_, ?_, ?_, fun p hp => ?_, fun p hp => ?_⟩
    · rw [moveParts_fw]; rfl
    · rw [moveParts_fw]; rfl
    · rw [hdie, activationBegun_die _ _ (by simp [asked, State.modDie, State.setDie])]
      simp [asked]
    · have hpd : s.die p.1 = p.2 := by rw [State.die, tfind_of_mem hrd hp]; rfl
      rw [hdie, activationBegun_die _ _ ?_, asked_die, hpd]
      · rfl
      · unfold asked State.modDie State.setDie
        dsimp only
        rw [tfind_tset, tfind_of_mem hrd hp]
        split_ifs <;> rfl
    · exact moveParts_part (s := activationBegun (asked s 0 0x11 seq 0)) hrp .active .paused 1 hp
  case resume =>
    intro ha hq hw hrp
    obtain ⟨s', hs', hfw, hparts⟩ := execFwactivate_ends (seq := seq) ha hq hw
    refine ⟨s', hs', by rw [hfw, moveParts_fw], fun p hp => ?_⟩
    rw [part_of_parts hparts]
    exact moveParts_part (s := { s with fw := { s.fw with activating := false, waiting := [] } }) hrp .paused .active 2 hp
  case busy =>
    intro ha hq
    show execFwactivate seq s = _
    unfold execFwactivate
    rw [if_pos ha, if_pos (by simp [hq])]
  case attest =>
    intro hfree pa nonce hpa hn h1 h2 hwf
    refine ⟨_, execAttest_reports hfree hpa hn h1 h2, (answered_mboxRespond _ _ _ _ _ _).of_msix rfl, ?_⟩
    rw [mboxRespond_hbm]
    have hread := report_read hwf (asked s die 0x20 seq 0) die s.free pa hn
    rw [m2_asked, asked_die] at hread
    exact hread

end

section
/-! PROOFS. The memories of the part stay canonical: what the invariant is, and the operations on the units of the state. -/

namespace Sys2Proof.Machine

set_option Elab.async false  -- theorem after theorem: every thread of a compile takes a stack of its own

/-! ### The invariant -/

/-- Scratch saved with the contexts of a launch is canonical. -/
def CtxOk (t : Tbl CoreCtx) : Prop := ∀ q ∈ t, q.2.scratch.wf = true

/-- What of a state holds memory. -/
structure Mems where
  hbm : Mem
  bank : Mem
  host : Mem
  remote : Mem
  cores : Tbl Core
  launches : Tbl Launch

def State.mems (s : State) : Mems := ⟨s.hbm, s.bank, s.host, s.remote, s.cores, s.launches⟩

structure Mems.Ok (m : Mems) : Prop where
  hbm : m.hbm.wf = true
  bank : m.bank.wf = true
  host : m.host.wf = true
  remote : m.remote.wf = true
  cores : ∀ p ∈ m.cores, p.2.scratch.wf = true
  launches : ∀ p ∈ m.launches, CtxOk p.2.ctx

/-- Every memory of the state is in canonical form. -/
def MemOk (s : State) : Prop := s.mems.Ok

theorem memoriesOk_iff (s : State) : s.memoriesOk = true ↔ MemOk s := by
  simp only [State.memoriesOk, Bool.and_eq_true, List.all_eq_true]
  constructor
  · rintro ⟨⟨⟨⟨⟨h1, h2⟩, h3⟩, h4⟩, h5⟩, h6⟩
    exact ⟨h1, h2, h3, h4, h5, h6⟩
  · rintro ⟨h1, h2, h3, h4, h5, h6⟩
    exact ⟨⟨⟨⟨⟨h1, h2⟩, h3⟩, h4⟩, h5⟩, h6⟩

/-- An outcome whose next state, if it has one, is canonical. -/
def OutOk : Out → Prop
  | .next s => MemOk s
  | _ => True

/-! ### Tables -/

theorem forall_tset {α : Type} {P : α → Prop} {t : Tbl α} (h : ∀ p ∈ t, P p.2) {y : α} (hy : P y) (x : Nat) :
    ∀ p ∈ tset x y t, P p.2 := by
  intro p hp
  rcases tset_keys x y t hp with rfl | hp
  · exact hy
  · exact h p hp

theorem forall_tdel {α : Type} {P : α → Prop} {t : Tbl α} (h : ∀ p ∈ t, P p.2) (x : Nat) : ∀ p ∈ tdel x t, P p.2 :=
  fun p hp => h p ((tdel_sublist x t).subset hp)

theorem forall_tmap {α : Type} {P : α → Prop} {t : Tbl α} (h : ∀ p ∈ t, P p.2) {f : Nat → α → α}
    (hf : ∀ k x, P x → P (f k x)) :
    ∀ p ∈ tmap f t, P p.2 := by
  intro p hp
  obtain ⟨q, hq, rfl⟩ := List.mem_map.1 hp
  exact hf _ _ (h q hq)

theorem forall_tmod {α : Type} {P : α → Prop} {t : Tbl α} (h : ∀ p ∈ t, P p.2) {f : α → α} (hf : ∀ x, P x → P (f x))
    (x : Nat) :
    ∀ p ∈ tmod x f t, P p.2 := by
  unfold tmod
  split
  · next v hv => exact forall_tset h (hf v (h _ (mem_of_tfind hv))) x
  · exact h

theorem tfind_forall {α : Type} {P : α → Prop} {t : Tbl α} (h : ∀ p ∈ t, P p.2) {x : Nat} {v : α}
    (hv : tfind t x = some v) : P v :=
  h _ (mem_of_tfind hv)

theorem Mem.wf_flushBytes {m : Mem} (h : m.wf = true) (l : Nat) (ln : L1Line) : (flushBytes m l ln).wf = true := by
  unfold flushBytes
  generalize List.range 128 = is
  induction is generalizing m with
  | nil => exact h
  | cons i is ih =>
    rw [List.foldl_cons]
    split_ifs
    · exact ih (Mem.wf_mset h _ _)
    · exact ih h

/-! ### Updates of the state -/

namespace MemOk

variable {s s' : State}

theorem hbm (h : MemOk s) : s.hbm.wf = true := Mems.Ok.hbm h
theorem bank (h : MemOk s) : s.bank.wf = true := Mems.Ok.bank h
theorem host (h : MemOk s) : s.host.wf = true := Mems.Ok.host h
theorem remote (h : MemOk s) : s.remote.wf = true := Mems.Ok.remote h
theorem cores (h : MemOk s) : ∀ p ∈ s.cores, p.2.scratch.wf = true := Mems.Ok.cores h
theorem launches (h : MemOk s) : ∀ p ∈ s.launches, CtxOk p.2.ctx := Mems.Ok.launches h

/-- A change of nothing that holds memory. -/
theorem frame (h : MemOk s) (ehbm : s'.hbm = s.hbm := by with_reducible rfl)
    (ebank : s'.bank = s.bank := by with_reducible rfl)
    (ehost : s'.host = s.host := by with_reducible rfl) (eremote : s'.remote = s.remote := by with_reducible rfl)
    (ecores : s'.cores = s.cores := by with_reducible rfl) (elaunches : s'.launches = s.launches := by with_reducible rfl) : MemOk s' := by
  have e : s'.mems = s.mems := by
    unfold State.mems
    rw [ehbm, ebank, ehost, eremote, ecores, elaunches]
  unfold MemOk
  rw [e]
  exact h

theorem ite {c : Prop} [Decidable c] {a b : State} (ha : MemOk a) (hb : MemOk b) : MemOk (if c then a else b) := by
  split_ifs
  · exact ha
  · exact hb

theorem ite_snd {α : Type} {c : Prop} [Decidable c] {p q : α × State} (hp : MemOk p.2) (hq : MemOk q.2) :
    MemOk (if c then p else q).2 := by
  split_ifs
  · exact hp
  · exact hq

theorem ite_fst {α : Type} {c : Prop} [Decidable c] {p q : State × α} (hp : MemOk p.1) (hq : MemOk q.1) :
    MemOk (if c then p else q).1 := by
  split_ifs
  · exact hp
  · exact hq

theorem foldl {β : Type} {f : State → β → State} {l : List β} (h : MemOk s) (hf : ∀ s x, MemOk s → MemOk (f s x)) :
    MemOk (l.foldl f s) := by
  induction l generalizing s with
  | nil => exact h
  | cons x l ih => exact ih (hf s x h)

theorem fst {α : Type} {p : State × α} {x : α} {s : State} (h : MemOk p.1) (e : p = (s, x)) : MemOk s := by
  rw [e] at h
  exact h

theorem core (h : MemOk s) (c : Nat) : (s.core c).scratch.wf = true := by
  unfold State.core
  cases hc : tfind s.cores c with
  | none => rfl
  | some x => exact tfind_forall (P := fun x : Core => x.scratch.wf = true) h.cores hc

theorem launch (h : MemOk s) {k : Nat} {l : Launch} (hl : tfind s.launches k = some l) : CtxOk l.ctx :=
  tfind_forall (P := fun l : Launch => CtxOk l.ctx) h.launches hl

theorem setHbm (h : MemOk s) {m : Mem} (hm : m.wf = true) : MemOk { s with hbm := m } :=
  ⟨hm, h.bank, h.host, h.remote, h.cores, h.launches⟩
theorem setBank (h : MemOk s) {m : Mem} (hm : m.wf = true) : MemOk { s with bank := m } :=
  ⟨h.hbm, hm, h.host, h.remote, h.cores, h.launches⟩
theorem setHost (h : MemOk s) {m : Mem} (hm : m.wf = true) : MemOk { s with host := m } :=
  ⟨h.hbm, h.bank, hm, h.remote, h.cores, h.launches⟩
theorem setRemote (h : MemOk s) {m : Mem} (hm : m.wf = true) : MemOk { s with remote := m } :=
  ⟨h.hbm, h.bank, h.host, hm, h.cores, h.launches⟩
theorem setCores (h : MemOk s) {t : Tbl Core} (ht : ∀ p ∈ t, p.2.scratch.wf = true) : MemOk { s with cores := t } :=
  ⟨h.hbm, h.bank, h.host, h.remote, ht, h.launches⟩
theorem setLaunches (h : MemOk s) {t : Tbl Launch} (ht : ∀ p ∈ t, CtxOk p.2.ctx) : MemOk { s with launches := t } :=
  ⟨h.hbm, h.bank, h.host, h.remote, h.cores, ht⟩

theorem setCore (h : MemOk s) {c : Nat} {x : Core} (hx : x.scratch.wf = true) : MemOk (s.setCore c x) :=
  h.setCores (forall_tset (P := fun x : Core => x.scratch.wf = true) h.cores hx c)

/-- A core is changed, its scratch staying canonical: by default, staying as it is. -/
theorem modCore (h : MemOk s) {c : Nat} {f : Core → Core}
    (hf : ∀ x, x.scratch.wf = true → (f x).scratch.wf = true := by exact fun _ h => h) :
    MemOk (s.modCore c f) := h.setCore (hf _ (h.core c))

/-- A launch is changed, its saved scratch staying canonical: by default, staying as it is. -/
theorem modLaunch (h : MemOk s) {k : Nat} {f : Launch → Launch}
    (hf : ∀ l, CtxOk l.ctx → CtxOk (f l).ctx := by exact fun _ h => h) :
    MemOk (s.modLaunch k f) := h.setLaunches (forall_tmod (P := fun l : Launch => CtxOk l.ctx) h.launches hf k)

theorem modThread (h : MemOk s) {t : Nat} {f : Thread → Thread} : MemOk (s.modThread t f) :=
  h.frame rfl rfl rfl rfl rfl rfl
theorem modGroup (h : MemOk s) {g : Nat} {f : Group → Group} : MemOk (s.modGroup g f) := h.frame rfl rfl rfl rfl rfl rfl
theorem modCluster (h : MemOk s) {k : Nat} {f : Cluster → Cluster} : MemOk (s.modCluster k f) :=
  h.frame rfl rfl rfl rfl rfl rfl
theorem setCluster (h : MemOk s) {k : Nat} {x : Cluster} : MemOk (s.setCluster k x) := h.frame rfl rfl rfl rfl rfl rfl
theorem modQueue (h : MemOk s) {q : Nat} {f : Queue → Queue} : MemOk (s.modQueue q f) := h.frame rfl rfl rfl rfl rfl rfl
theorem setQueue (h : MemOk s) {q : Nat} {x : Queue} : MemOk (s.setQueue q x) := h.frame rfl rfl rfl rfl rfl rfl
theorem modPart (h : MemOk s) {p : Nat} {f : Part → Part} : MemOk (s.modPart p f) := h.frame rfl rfl rfl rfl rfl rfl
theorem setPart (h : MemOk s) {p : Nat} {x : Part} : MemOk (s.setPart p x) := h.frame rfl rfl rfl rfl rfl rfl
theorem modDie (h : MemOk s) {d : Nat} {f : Die → Die} : MemOk (s.modDie d f) := h.frame rfl rfl rfl rfl rfl rfl
theorem modStack (h : MemOk s) {k : Nat} {f : Stack → Stack} : MemOk (s.modStack k f) := h.frame rfl rfl rfl rfl rfl rfl
theorem after_gcEvent (h : MemOk s) {ev t n : Nat} : MemOk (gcEvent s ev t n) := h.frame rfl rfl rfl rfl rfl rfl
theorem after_freeValue (h : MemOk s) : MemOk (freeValue s).2 := h.frame rfl rfl rfl rfl rfl rfl
theorem after_freshId (h : MemOk s) : MemOk (freshId s).2 := h.frame rfl rfl rfl rfl rfl rfl
theorem after_coreCount (h : MemOk s) {c sel n : Nat} : MemOk (coreCount s c sel n) := h.modCore
theorem after_telCount (h : MemOk s) {p d sel n : Nat} : MemOk (telCount s p d sel n) := h.modPart
theorem after_rasCount (h : MemOk s) {d i n : Nat} : MemOk (rasCount s d i n) := h.modDie

theorem setFw (h : MemOk s) {x : Firmware} : MemOk { s with fw := x } := h.frame
theorem setThreads (h : MemOk s) {x : Tbl Thread} : MemOk { s with threads := x } := h.frame
theorem setGroups (h : MemOk s) {x : Tbl Group} : MemOk { s with groups := x } := h.frame
theorem setInsts (h : MemOk s) {x : Tbl GInst} : MemOk { s with insts := x } := h.frame
theorem setQueues (h : MemOk s) {x : Tbl Queue} : MemOk { s with queues := x } := h.frame
theorem setParts (h : MemOk s) {x : Tbl Part} : MemOk { s with parts := x } := h.frame
theorem setDies (h : MemOk s) {x : Tbl Die} : MemOk { s with dies := x } := h.frame
theorem setCopies (h : MemOk s) {x : Tbl Copy} : MemOk { s with copies := x } := h.frame
theorem setWelts (h : MemOk s) {x : Tbl Welt} : MemOk { s with welts := x } := h.frame
theorem setRounds (h : MemOk s) {x : Tbl Round} : MemOk { s with rounds := x } := h.frame
theorem setSyncFly (h : MemOk s) {x : Tbl SyncReq} : MemOk { s with syncFly := x } := h.frame
theorem setSyncReg (h : MemOk s) {x : Tbl SyncReq} : MemOk { s with syncReg := x } := h.frame
theorem setRels (h : MemOk s) {x : Tbl RelReq} : MemOk { s with rels := x } := h.frame
theorem setPubs (h : MemOk s) {x : Tbl PubReq} : MemOk { s with pubs := x } := h.frame
theorem setEmits (h : MemOk s) {x : Tbl EmitReq} : MemOk { s with emits := x } := h.frame
theorem setMsix (h : MemOk s) {x : List (Nat × Nat)} : MemOk { s with msix := x } := h.frame
theorem setAnswer (h : MemOk s) {x : Option HostAns} : MemOk { s with answer := x } := h.frame
theorem setReply (h : MemOk s) {x : Option UalAns} : MemOk { s with reply := x } := h.frame

/-! ### Caches and places -/

theorem after_barCopy (h : MemOk s) {c l : Nat} : MemOk (barCopy s c l) := h.modDie
theorem after_barCopies (h : MemOk s) {c : Nat} : MemOk (barCopies s c) := h.foldl fun _ _ h => h.after_barCopy
theorem after_dropCopy (h : MemOk s) {c l : Nat} : MemOk (dropCopy s c l) := h.modDie
theorem after_l2Use (h : MemOk s) {die sector slice part l : Nat} {rc al : Bool} :
    MemOk (l2Use s die sector slice part l rc al) :=
  h.modDie
theorem after_homeUse (h : MemOk s) {part pa : Nat} {al : Bool} : MemOk (homeUse s part pa al) := h.after_l2Use
theorem after_useRun (h : MemOk s) {part pa len : Nat} {al : Bool} : MemOk (useRun s part pa len al) :=
  h.foldl fun _ _ h => h.after_homeUse

theorem after_l1Flush (h : MemOk s) {c part l : Nat} : MemOk (l1Flush s c part l) := by
  unfold l1Flush
  split
  · exact ite h (h.setHbm (Mem.wf_flushBytes h.hbm l _)).after_homeUse.after_barCopy.modCore
  · exact h

theorem after_l1Drop (h : MemOk s) {c part l : Nat} : MemOk (l1Drop s c part l) := ite h h.after_l1Flush.modCore

theorem after_l1FlushAll (h : MemOk s) {c part : Nat} : MemOk (l1FlushAll s c part) :=
  h.foldl fun _ _ h => h.after_l1Flush

theorem after_l1InvalidateClean (h : MemOk s) {c : Nat} : MemOk (l1InvalidateClean s c) := h.after_barCopies.modCore

theorem after_l1Room (h : MemOk s) {c part l : Nat} : MemOk (l1Room s c part l) := by
  unfold l1Room
  refine ite h ?_
  split
  · exact h
  · exact h.after_l1Drop

theorem after_fetchLine (h : MemOk s) {c part l : Nat} {held : Bool} {ch : BitVec 4} :
    MemOk (fetchLine s c part l held ch).2 := by
  unfold fetchLine
  dsimp only
  split
  · split
    · split
      · exact h.after_homeUse
      · exact h.after_l2Use
    · split
      · exact h.after_homeUse.modDie.after_l2Use
      · exact h.after_homeUse
  · exact h.after_homeUse.after_barCopy

theorem after_l1Load (h : MemOk s) {c part pa n : Nat} {held : Bool} {ch : BitVec 4} :
    MemOk (l1Load s c part pa n held ch).2.2 := by
  unfold l1Load
  dsimp only
  split_ifs
  · exact h
  · exact h.after_fetchLine
  · exact h.after_fetchLine.after_l1Room.modCore

end MemOk

end Sys2Proof.Machine
end

section
/-! PROOFS. The memories of the part stay canonical: stores, the retirement of instructions, traps, and the lanes of an instruction. -/

namespace Sys2Proof.Machine

set_option Elab.async false  -- theorem after theorem: every thread of a compile takes a stack of its own

theorem CtxOk.tmap {t : Tbl CoreCtx} (h : CtxOk t) {f : Nat → CoreCtx → CoreCtx}
    (hf : ∀ k x, x.scratch.wf = true → (f k x).scratch.wf = true := by exact fun _ _ h => h) : CtxOk (tmap f t) :=
  forall_tmap (P := fun x : CoreCtx => x.scratch.wf = true) h hf

theorem CtxOk.tmod {t : Tbl CoreCtx} (h : CtxOk t) {x : Nat} {f : CoreCtx → CoreCtx}
    (hf : ∀ x, x.scratch.wf = true → (f x).scratch.wf = true := by exact fun _ h => h) : CtxOk (tmod x f t) :=
  forall_tmod (P := fun x : CoreCtx => x.scratch.wf = true) h hf x

theorem CtxOk.tset {t : Tbl CoreCtx} (h : CtxOk t) {x : Nat} {y : CoreCtx} (hy : y.scratch.wf = true) :
    CtxOk (tset x y t) :=
  forall_tset (P := fun x : CoreCtx => x.scratch.wf = true) h hy x

theorem CtxOk.tdel {t : Tbl CoreCtx} (h : CtxOk t) {x : Nat} : CtxOk (tdel x t) :=
  forall_tdel (P := fun x : CoreCtx => x.scratch.wf = true) h x

namespace MemOk

variable {s s' : State}

/-- A change made under a condition. -/
theorem branch {c : Prop} [Decidable c] (h : MemOk s) (hf : MemOk s → MemOk s') : MemOk (if c then s' else s) :=
  ite (hf h) h

theorem of_some (e : some s = some s') (h : MemOk s) : MemOk s' := Option.some.inj e ▸ h
theorem of_some_fst {α : Type} {p x : State × α} (e : some p = some x) (h : MemOk p.1) : MemOk x.1 :=
  Option.some.inj e ▸ h
theorem of_some_snd {α : Type} {p x : α × State} (e : some p = some x) (h : MemOk p.2) : MemOk x.2 :=
  Option.some.inj e ▸ h

/-! ### Stores -/

theorem storeHbm (h : MemOk s) {a : Nat} {bs : List Byte} : MemOk { s with hbm := msets s.hbm a bs } :=
  h.setHbm (Mem.wf_msets h.hbm a bs)
theorem storeHost (h : MemOk s) {a : Nat} {bs : List Byte} : MemOk { s with host := msets s.host a bs } :=
  h.setHost (Mem.wf_msets h.host a bs)

theorem after_l1Store (h : MemOk s) {c part pa : Nat} {bs : List Byte} {ch : BitVec 4} :
    MemOk (l1Store s c part pa bs ch) := by
  unfold l1Store
  exact ite h.storeHbm.after_homeUse.after_barCopy (h.after_l1Room.modCore.branch (·.after_l1Flush))

theorem after_instrFill (h : MemOk s) {c part l level : Nat} : MemOk (instrFill s c part l level) :=
  (h.modDie.after_homeUse.branch (·.modCluster)).branch (·.modCore)

theorem after_bankSet (h : MemOk s) {die b : Nat} {x : Byte} : MemOk (bankSet s die b x) :=
  h.setBank (Mem.wf_mset h.bank _ _)

theorem after_bankUndefine (h : MemOk s) {die g : Nat} {zero : Bool} : MemOk (bankUndefine s die g zero) := by
  have hb := h.setBank (Mem.wf_mclear h.bank (bankKey die (g * granule)) granule)
  exact ite hb.modDie hb.after_freshId.modDie

theorem after_bankUndefineAll (h : MemOk s) {die g : Nat} {zero : Bool} {n : Nat} :
    MemOk (bankUndefineAll s die g zero n) := by
  induction n generalizing s g with
  | zero => exact h
  | succ n ih => exact ih h.after_bankUndefine

theorem after_locSet (h : MemOk s) {l : Loc} {b : Byte} : MemOk (locSet s l b) := by
  cases l with
  | hbm pa => exact h.setHbm (Mem.wf_mset h.hbm _ _)
  | bank d x => exact h.after_bankSet
  | scratch c o => exact h.modCore fun _ hy => Mem.wf_mset hy _ _
  | remote d p e o => exact h.setRemote (Mem.wf_mset h.remote _ _)
  | host p w o => exact h.setHost (Mem.wf_mset h.host _ _)
  | zero => exact h

theorem after_locWrite (h : MemOk s) {l : Loc} {bs : List Byte} : MemOk (locWrite s l bs) := by
  induction bs generalizing s l with
  | nil => exact h
  | cons b bs ih => exact ih h.after_locSet

theorem after_segsWrite (h : MemOk s) {gs : List Seg} {bs : List Byte} : MemOk (segsWrite s gs bs) := by
  induction gs generalizing s bs with
  | nil => exact h
  | cons g gs ih => exact ih h.after_locWrite

theorem after_locUse (h : MemOk s) {part : Nat} {loc : Loc} {alloc : Bool} : MemOk (locUse s part loc alloc) := by
  cases loc with
  | hbm pa => exact h.after_homeUse
  | _ => exact h

theorem after_segUse (h : MemOk s) {part : Nat} {g : Seg} {alloc : Bool} : MemOk (segUse s part g alloc) := by
  unfold segUse
  split
  · exact h.after_useRun
  · exact h

theorem after_atHost (h : MemOk s) {die : Nat} (hf : MemOk s') : MemOk (atHost s die s') := ite h.frame hf
theorem after_countUeAt (h : MemOk s) {loc : Loc} {detail : Nat} : MemOk (countUeAt s loc detail) := h.after_rasCount
theorem after_ocacheFill (h : MemOk s) {c part idx : Nat} : MemOk (ocacheFill s c part idx) := h.after_homeUse.modCore

theorem after_capture (h : MemOk s) {c part idx : Nat} {x : Nat × State} (e : capture s c part idx = some x) :
    MemOk x.2 := by
  unfold capture at e
  split at e
  · exact of_some_snd e h
  · split at e
    · cases e
    · split at e
      · exact of_some_snd e h
      · split at e
        · cases e
        · exact of_some_snd e h.after_ocacheFill

theorem after_tlbFill (h : MemOk s) {c : Nat} {t : Tlb} : MemOk (tlbFill s c t) := h.modCore

theorem after_countWalkUe (h : MemOk s) {part va : Nat} : MemOk (countWalkUe s part va) := by
  unfold countWalkUe
  split
  · exact h.after_countUeAt
  · exact h

theorem after_walkNow (h : MemOk s) {c part va : Nat} : MemOk (walkNow s c part va) := by
  unfold walkNow
  have hw : MemOk ((walkPending s c part va).foldl (fun s a => homeUse s part a) s) := h.foldl fun _ _ h => h.after_homeUse
  refine ite h (ite hw ?_)
  split
  · exact hw.after_tlbFill
  · exact hw

theorem after_ptrWalk (h : MemOk s) {c part : Nat} {p : DWord} : MemOk (ptrWalk s c part p) :=
  h.branch (·.after_walkNow)

/-! ### Generations, records and traps -/

theorem after_slotNext (h : MemOk s) {t : Nat} : MemOk (slotNext s t) := h.modCore
theorem after_genNext (h : MemOk s) {t : Nat} : MemOk (genNext s t) := h.modThread.after_slotNext
theorem after_savedNext (h : MemOk s) {lk t : Nat} :
    MemOk (savedNext s lk t) := ((h.branch (·.modThread)).modLaunch fun _ hl => hl.tmod).after_slotNext

theorem after_recPlaced (h : MemOk s) {f : FRec} {r : Nat} : MemOk (recPlaced s f r) := by
  refine ⟨h.hbm, h.bank, h.host, h.remote, h.cores, ?_⟩
  unfold recPlaced State.mems
  dsimp only
  refine forall_tmap (P := fun l : Launch => CtxOk l.ctx) h.launches fun _ l hl => ?_
  dsimp only
  exact hl.tmap

theorem after_ringWrite (h : MemOk s) {part : Nat} {f : FRec} (e : ringWrite s part f = some s') : MemOk s' := by
  unfold ringWrite at e
  dsimp only at e
  split at e
  · cases e
  · split at e
    · cases e
    · split at e
      · cases e
      · exact of_some e h.after_locUse.after_locWrite.modPart.after_recPlaced.frame

theorem after_emitRecord (h : MemOk s) {part : Nat} {f : FRec} : MemOk (emitRecord s part f) := by
  have hold : MemOk (telCount (s.modPart part (fun p => { p with heldRecs := p.heldRecs ++ [f] })) part 0 0xA 1) := h.modPart.after_telCount
  unfold emitRecord
  split
  · cases hr : ringWrite s part f with
    | none => exact hold
    | some r => exact h.after_ringWrite hr
  · exact hold

theorem after_retryRecords (h : MemOk s) {part : Nat} {n : Nat} : MemOk (retryRecords s part n) := by
  induction n generalizing s with
  | zero => exact h
  | succ n ih =>
    unfold retryRecords
    split
    · exact h
    · split
      · exact h
      · next hr => exact ih (h.after_ringWrite hr).modPart

theorem after_emitSecure (h : MemOk s) {part die : Nat} {f : FRec} : MemOk (emitSecure s part die f) :=
  h.modDie.after_recPlaced
theorem after_noteFault (h : MemOk s) {l code detail : Nat} : MemOk (noteFault s l code detail) :=
  h.modLaunch fun l hl => by
  split
  · exact hl
  · exact hl
theorem after_sendRec (h : MemOk s) {part launch : Nat} {f : FRec} :
    MemOk (sendRec s part launch f) := ite h.after_emitSecure h.after_noteFault.after_emitRecord
theorem after_disarm (h : MemOk s) {g : Nat} : MemOk (disarm s g) := h.modGroup
theorem after_takeTrap (h : MemOk s) {t code detail : Nat} {addr : DWord} {gpa : Nat} {s1walk : Bool} :
    MemOk (takeTrap s t code detail addr gpa s1walk) :=
  (h.after_freshId.modThread.after_gcEvent.branch (·.after_telCount.after_rasCount)).after_disarm.after_sendRec

/-! ### Retirement and results -/

theorem after_retireTo (h : MemOk s) {t : Nat} {pc : DWord} : MemOk (retireTo s t pc) :=
  (h.modThread.modCore).after_gcEvent
theorem after_retire (h : MemOk s) {t : Nat} : MemOk (retire s t) := h.after_retireTo
theorem after_retireWaiter (h : MemOk s) {t : Nat} {own : Bool} : MemOk (retireWaiter s t own) :=
  h.after_retire.modThread
theorem after_writeReg (h : MemOk s) {t : Nat} {lead : Bool} {d : Reg} {ws : List Word} :
    MemOk (writeReg s t lead d ws) := by
  cases d with
  | v n => exact h.modThread
  | k n => exact h.branch (·.modGroup)
theorem after_writeOpt (h : MemOk s) {t : Nat} {d : Option Reg} {ws : List Word} : MemOk (writeOpt s t d ws) := by
  cases d with
  | some r => exact h.after_writeReg
  | none => exact h
theorem after_writePred (h : MemOk s) {t : Nat} {q : Option PDst} {b : Bool} : MemOk (writePred s t q b) := by
  cases q with
  | some i => exact h.modThread
  | none => exact h
theorem after_waitAgain (h : MemOk s) {t : Nat} : MemOk (waitAgain s t) := h.modThread
theorem after_waitRoom (h : MemOk s) {t : Nat} : MemOk (waitRoom s t) := h.modThread
theorem after_wakeRoom (h : MemOk s) {g : Nat} : MemOk (wakeRoom s g) := h.frame rfl rfl rfl rfl rfl rfl
theorem after_waitFinish (h : MemOk s) {t : Nat} : MemOk (waitFinish s t) := h.modThread
theorem after_setInj (h : MemOk s) {c cls : Nat} {i : Option Injector} : MemOk (setInj s c cls i) := h.modCore
theorem after_injPipe (h : MemOk s) {t : Nat} {us : List Nat} : MemOk (injPipe s t us).2 := by
  unfold injPipe
  split
  · split
    · exact h.after_setInj
    · exact h
  · exact h
theorem after_pipeTrap (h : MemOk s) (h' : MemOk s') {t : Nat} {u : Option Nat} : MemOk (pipeTrap s t u s') := by
  cases u with
  | some u => exact h.after_takeTrap
  | none => exact h'
theorem after_trapCount (h : MemOk s) {t code detail : Nat} {addr : DWord} :
    MemOk (trapCount s t code detail addr) := by
  unfold trapCount
  exact ite h.after_rasCount (ite h.after_countWalkUe (ite h.after_countUeAt (ite h.after_countUeAt (h.branch (·.after_countUeAt)))))
theorem after_keepIssue (h : MemOk s) {s0 : State} {c : Ctl} {t : Nat} : MemOk (keepIssue s0 c t s) :=
  h.branch (·.modThread)
theorem after_applyRes (h : MemOk s) {t : Nat} {lead : Bool} {r : Res} :
    MemOk (applyRes s t lead r) := MemOk.modThread (h.foldl fun _ _ h => h.after_writeReg)
theorem after_lateRes (h : MemOk s) {t left : Nat} {long lead : Bool} {r : Res} :
    MemOk (lateRes s t left long lead r) :=
  h.after_freshId.modCore

end MemOk

/-! ### Lanes -/

/-- What a lane answers leaves the memories canonical. -/
inductive LaneOk : Lane → Prop where
  | retire {s : State} (h : MemOk s) : LaneOk (.retire s)
  | goto {s : State} {pc : DWord} (h : MemOk s) : LaneOk (.goto s pc)
  | hold {s : State} (h : MemOk s) : LaneOk (.hold s)
  | done {s : State} (h : MemOk s) : LaneOk (.done s)
  | trap {code detail : Nat} {addr : DWord} {gpa : Nat} {w : Bool} : LaneOk (.trap code detail addr gpa w)

/-- A lane function that keeps the memories canonical. -/
def LanesOk (f : State → Nat → State → Lane) : Prop := ∀ s0 t s, MemOk s → LaneOk (f s0 t s)

theorem LaneOk.ite {c : Prop} [Decidable c] {a b : Lane} (ha : LaneOk a) (hb : LaneOk b) :
    LaneOk (if c then a else b) := by
  split_ifs
  · exact ha
  · exact hb

theorem OutOk.ite {c : Prop} [Decidable c] {a b : Out} (ha : OutOk a) (hb : OutOk b) : OutOk (if c then a else b) := by
  split_ifs
  · exact ha
  · exact hb

namespace MemOk

variable {s s' : State}

theorem after_retireLate (h : MemOk s) {t : Nat} {c : Ctl} {lead : Bool} {r : Res} : LaneOk (retireLate s t c lead r) :=
  .retire h.after_lateRes
theorem after_retireAlu (h : MemOk s) {s0 : State} {t : Nat} {c : Ctl} {r : Res} : LaneOk (retireAlu s0 s t c r) :=
  .retire (ite h.after_lateRes h.after_applyRes)

theorem after_laneStep (h : MemOk s) {c : Ctl} {us : List Nat} {f : State → Nat → State → Lane} (hf : LanesOk f)
    {s0 : State} {t : Nat} :
    MemOk (laneStep c us f s0 s t) := by
  have hd := h.after_injPipe (t := t) (us := us)
  have hl := hf s0 t _ hd
  unfold laneStep
  refine ite h.after_retire ?_
  dsimp only
  generalize f s0 t (injPipe s t us).2 = r at hl
  cases hl with
  | trap => exact h.after_trapCount.after_takeTrap
  | retire hl => exact ite h.after_trapCount.after_takeTrap (hd.after_pipeTrap hl.after_retire)
  | goto hl => exact ite h.after_trapCount.after_takeTrap (hd.after_pipeTrap hl.after_retireTo)
  | done hl => exact ite h.after_trapCount.after_takeTrap (hd.after_pipeTrap hl.after_keepIssue)
  | hold hl => exact ite h.after_trapCount.after_takeTrap hl.modCore.modThread

theorem after_captureAll (h : MemOk s) {c part : Nat} {idxs : List Nat} : MemOk (captureAll s c part idxs) :=
  h.foldl fun s i h => by
  split
  · exact h
  · next e s he =>
    have hs := h.after_capture he
    refine hs.branch fun hs => hs.foldl fun s i hs => ?_
    split
    · next he => exact hs.after_capture he
    · exact hs

theorem after_captureHeld (h : MemOk s) {s0 : State} : MemOk (captureHeld s0 s) := by
  unfold captureHeld
  refine ite h (h.foldl fun s t h => ?_)
  split
  · exact h
  · exact h.after_captureAll.modThread

theorem after_runLanes (h : MemOk s) {c : Ctl} {us : List Nat} {f : State → Nat → State → Lane} (hf : LanesOk f) :
    MemOk (runLanes c us f s) :=
  after_captureHeld (h.foldl fun _ _ h => h.after_laneStep hf)

theorem after_forLanes (h : MemOk s) {c : Ctl} {us : List Nat} {f : State → Nat → State → Lane} (hf : LanesOk f) :
    OutOk (forLanes c us f s) := h.after_runLanes hf


end MemOk

theorem LanesOk.gated {f : State → Nat → State → Lane} (hf : LanesOk f) {c : Ctl} {ready : State → Nat → Bool}
    {wait : State → Nat → State}
    (hw : ∀ s t, MemOk s → MemOk (wait s t)) : LanesOk (gated c ready wait f) := by
  intro s0 t s h
  have hl := hf s0 t s h
  unfold Machine.gated
  generalize f s0 t s = r at hl
  cases hl with
  | trap => exact .trap
  | retire hl => exact LaneOk.ite (.retire hl) (.hold (hw s t h))
  | goto hl => exact LaneOk.ite (.goto hl) (.hold (hw s t h))
  | hold hl => exact LaneOk.ite (.hold hl) (.hold (hw s t h))
  | done hl => exact LaneOk.ite (.done hl) (.hold (hw s t h))

theorem LanesOk.outward {f : State → Nat → State → Lane} (hf : LanesOk f) : LanesOk (outward f) :=
  fun s0 t s h => LaneOk.ite (hf s0 t s h) (.hold h.after_waitAgain)

namespace MemOk

variable {s s' : State}

theorem after_forOut (h : MemOk s) {c : Ctl} {us : List Nat} {f : State → Nat → State → Lane} (hf : LanesOk f) :
    OutOk (forOut c us f s) := h.after_forLanes hf.outward

theorem after_execAlu (h : MemOk s) {c : Ctl} {us : List Nat} {f : Thread → Group → Res} :
    OutOk (execAlu c us f s) := h.after_forLanes fun _ _ _ h => h.after_retireAlu
theorem after_execLong (h : MemOk s) {c : Ctl} {unit : Nat} {d : Reg} {f : Thread → Group → List Word × Fl} :
    OutOk (execLong c unit d f s) := h.after_forLanes fun _ _ _ h => LaneOk.ite .trap (.retire h.after_freshId.modCore)

/-! ### Scratch of a launch that is away -/

theorem scratch_foldl (h : MemOk s) {cs : Tbl CoreCtx} (hc : CtxOk cs) :
    MemOk (cs.foldl (fun s p => s.modCore p.1 (fun x => { x with scratch := p.2.scratch })) s) := by
  induction cs generalizing s with
  | nil => exact h
  | cons p cs ih => exact ih (h.modCore fun _ _ => hc p List.mem_cons_self) (fun q hq => hc q (List.mem_cons_of_mem _ hq))

theorem after_turnScratch (h : MemOk s) {lk : Nat} : MemOk (turnScratch s lk) := by
  unfold turnScratch
  split
  · exact h
  · next l hl =>
    refine ite h ((h.scratch_foldl (h.launch hl)).modLaunch fun l hx => ?_)
    dsimp only
    exact hx.tmap fun _ _ _ => h.core _

theorem after_withScratch (h : MemOk s) {lk : Nat} {f : State → State} (hf : ∀ s, MemOk s → MemOk (f s)) :
    MemOk (withScratch s lk f) := by
  unfold withScratch
  refine ite (hf s h) ?_
  have h1 : MemOk { s with threads := tkeep (fun t _ => !(awayCores s lk).contains (coreOfThread t)) s.threads } := h.frame
  exact (hf _ h1.after_turnScratch).after_turnScratch.frame

/-! ### Joins, barriers and idempotent regions -/

theorem after_settleInst (h : MemOk s) {g n inst : Nat} : MemOk (settleInst s g n inst) := by
  unfold settleInst
  exact h.branch (·.foldl fun _ _ h => h.modThread.after_retireWaiter)

theorem after_leaveInst (h : MemOk s) {t n : Nat} : MemOk (leaveInst s t n) := by
  unfold leaveInst
  split
  · exact h
  · exact h.modThread.after_settleInst

theorem after_leaveAll (h : MemOk s) {t : Nat} : MemOk (leaveAll s t) := h.foldl fun _ _ h => h.after_leaveInst

theorem after_barSettle (h : MemOk s) {g id : Nat} : MemOk (barSettle s g id) := by
  unfold barSettle
  exact ite h (foldl h.modGroup fun _ _ h => h.after_retireWaiter)

theorem after_idemSettle (h : MemOk s) {g : Nat} : MemOk (idemSettle s g) := by
  unfold idemSettle
  split
  · exact h
  · split
    · refine ite h (ite (modGroup (h.foldl fun _ _ h => h.after_retireWaiter)) (h.foldl fun _ _ h => h.after_takeTrap))
    · exact h

theorem after_boRelease (h : MemOk s) {obj : Loc} {x : Nat} {grp : Option Nat} : MemOk (boRelease s obj x grp) :=
  h.foldl fun s p h => by
  split
  · exact h.branch (·.after_writeOpt.after_l1InvalidateClean.after_retireWaiter)
  · exact h

theorem after_boUpdate (h : MemOk s) {obj : Loc} {ab ac ec : Nat} {grp : Option Nat} :
    MemOk (boUpdate s obj ab ac ec grp) := by
  unfold boUpdate
  exact h.after_locWrite.branch (·.after_boRelease)

theorem after_boContribute (h : MemOk s) {c part : Nat} {p : DWord} {ab ac ec : Nat} :
    MemOk (boContribute s c part p ab ac ec) := by
  unfold boContribute
  split
  · exact h.after_boUpdate
  · exact h

end MemOk

end Sys2Proof.Machine
end


section
/-! PROOFS. The memories of the part stay canonical: object checks, loads and stores, atomics, and the events that perform accesses. -/

namespace Sys2Proof.Machine

set_option Elab.async false  -- theorem after theorem: every thread of a compile takes a stack of its own

namespace MemOk

variable {s s' : State}

/-! ### Objects and pending accesses -/

theorem after_clearBad (h : MemOk s) {c part idx : Nat} : MemOk (clearBad s c part idx) := h.modCore
theorem after_countOob (h : MemOk s) {t : Nat} : MemOk (countOob s t) := h.after_telCount

theorem after_objCheck (h : MemOk s) {t : Nat} {th : Thread} {g : Group} {types : List Nat} {need : Rights}
    {m : MemOp} {size align : Nat} {bankOnly : Bool} {x : Nat × Chk × State} (e : objCheck s t th g types need m size align bankOnly = some x) :
    MemOk x.2.2 := by
  unfold objCheck at e
  dsimp only at e
  split at e
  · cases e
  · next hc => exact Option.some.inj e ▸ h.after_capture hc

theorem after_pushLoad (h : MemOk s) {s0 : State} {t batch : Nat} {c : Ctl} {acc : Access} {lead : Bool} {d : Reg}
    {nd : Nat} {aop : DWord} {idx : Nat} :
    MemOk (pushLoad s0 s t batch c acc lead d nd aop idx) := h.after_freshId.modCore

theorem after_pushStore (h : MemOk s) {s0 : State} {t batch : Nat} {acc : Access} {win : Option Nat}
    (e : pushStore s0 s t batch acc win = some s') :
    MemOk s' := by
  unfold pushStore at e
  split at e
  · cases e
  · exact of_some e h.after_freshId.modCore

theorem after_storeOr (h : MemOk s) {t : Nat} {r : Option State} (hr : ∀ s', r = some s' → MemOk s') :
    LaneOk (storeOr s t r) := by
  cases r with
  | some s' => exact .retire (hr s' rfl)
  | none => exact .hold h.after_waitAgain

/-- A store that takes a slot, or waits for one. -/
theorem after_storeOr_pushStore (h : MemOk s) {s0 : State} {t batch : Nat} {acc : Access} {win : Option Nat} :
    LaneOk (storeOr s t (pushStore s0 s t batch acc win)) := h.after_storeOr fun _ e => h.after_pushStore e

theorem after_withObj (h : MemOk s) {s0 : State} {t : Nat} {types : List Nat} {need : Rights} {m : MemOp}
    {size align : Nat} {oob : State → Lane}
    {f : DWord → State → Lane} {bankOnly : Bool} (ho : ∀ s, MemOk s → LaneOk (oob s)) (hf : ∀ a s, MemOk s → LaneOk (f a s)) :
    LaneOk (withObj s0 s t types need m size align oob f bankOnly) := by
  unfold withObj
  dsimp only
  split
  · exact .trap
  · exact .trap
  · next e => exact ho _ (after_countOob (h.after_objCheck e))
  · next e => exact LaneOk.ite (.hold (after_waitAgain (h.after_objCheck e))) (hf _ _ (h.after_objCheck e))

/-! ### Loads and stores -/

theorem after_execLd (h : MemOk s) {c : Ctl} {sz : LdSz} {d : VReg} {mem : MemOp} :
    OutOk (execLd c sz d mem s) :=
  h.after_freshId.after_forOut fun _ _ _ h => h.after_withObj (fun _ h => h.after_retireLate) fun _ _ h => .retire h.after_pushLoad
theorem after_execSt (h : MemOk s) {c : Ctl} {sz : StSz} {mem : MemOp} {b : Src} :
    OutOk (execSt c sz mem b s) :=
  h.after_freshId.after_forOut fun _ _ _ h => h.after_withObj (fun _ h => .retire h) fun _ _ h => h.after_storeOr_pushStore

theorem after_injScratch (h : MemOk s) {c o : Nat} : MemOk (injScratch s c o) := by
  unfold injScratch
  split
  · exact h.branch fun h => h.after_setInj.branch (·.after_rasCount)
  · exact h

theorem after_injScratchAll (h : MemOk s) {c o : Nat} {n : Nat} : MemOk (injScratchAll s c o n) := by
  induction n generalizing s o with
  | zero => exact h
  | succ n ih => exact ih h.after_injScratch

theorem after_l1Count (h : MemOk s) {c t : Nat} {hit : Bool} : MemOk (l1Count s c t hit) :=
  h.after_coreCount.after_gcEvent

theorem after_readNow (h : MemOk s) {c t part : Nat} {held : Bool} {ch : BitVec 4} {loc : Loc} {n : Nat} :
    MemOk (readNow s c t part held ch loc n).2 := by
  cases loc with
  | hbm pa => exact h.after_l1Load.after_l1Count
  | scratch d o => exact h.after_injScratchAll
  | _ => exact h

theorem after_readTrap (h : MemOk s) {t c : Nat} {loc : Loc} {addr : DWord} {f : Nat × Nat × Bool} {count : Bool} :
    LaneOk (readTrap s t c loc addr f count) := .done (after_takeTrap (h.branch (·.after_countUeAt)))
theorem after_waitAccesses (h : MemOk s) {t : Nat} : MemOk (waitAccesses s t) := ite h.after_waitAgain h.after_waitRoom

theorem after_execLdk (h : MemOk s) {c : Ctl} {sz : LdkSz} {d : KReg} {mem : MemOp} : OutOk (execLdk c sz d mem s) :=
  h.after_forOut fun _ _ _ h => by
  dsimp only
  split
  · exact .trap
  · exact .trap
  · next e =>
    have hs := h.after_objCheck e
    exact after_retireLate (hs.branch (·.after_countOob))
  · next addr s e =>
    have hs : MemOk s := h.after_objCheck e
    have hp {c part : Nat} : MemOk (ptrWalk s c part addr) := hs.after_ptrWalk
    refine LaneOk.ite (.hold hs.after_waitAccesses) (LaneOk.ite (.hold hs.after_waitAgain) ?_)
    split
    · exact .trap
    · refine LaneOk.ite (.hold hp.after_waitAgain) ?_
      split
      · exact hp.after_readTrap
      · exact LaneOk.ite hp.after_readNow.after_retireLate hp.after_retireLate

theorem laneOk_of_scratchAddr {c a n : Nat} {imm : Word} {l : Lane} (e : scratchAddr s c a imm n = .error l) :
    LaneOk l := by
  unfold scratchAddr at e
  dsimp only at e
  split_ifs at e <;> cases e <;> exact .trap

theorem laneOk_of_rawCheck {t n : Nat} {a p : DWord} {l : Lane} (e : rawCheck s t a p n = some l) : LaneOk l := by
  unfold rawCheck at e
  dsimp only at e
  split_ifs at e <;> cases e <;> exact .trap

theorem after_execLds (h : MemOk s) {c : Ctl} {sz : LdSz} {d : VReg} {a : Src} {imm : Word} :
    OutOk (execLds c sz d a imm s) := h.after_freshId.after_forOut fun _ _ _ h => by
  dsimp only
  split
  · next e => exact laneOk_of_scratchAddr e
  · exact LaneOk.ite (.hold h.after_waitAgain) (.retire h.after_pushLoad)

theorem after_execSts (h : MemOk s) {c : Ctl} {sz : StSz} {a : Src} {imm : Word} {b : Src} :
    OutOk (execSts c sz a imm b s) := h.after_freshId.after_forOut fun _ _ _ h => by
  dsimp only
  split
  · next e => exact laneOk_of_scratchAddr e
  · exact LaneOk.ite (.hold h.after_waitAgain) h.after_storeOr_pushStore

theorem after_execLdg (h : MemOk s) {c : Ctl} {sz : LdSz} {d : VReg} {a : Reg} {imm : Word} :
    OutOk (execLdg c sz d a imm s) := h.after_freshId.after_forOut fun _ _ _ h => by
  dsimp only
  split
  · next e => exact laneOk_of_rawCheck e
  · exact LaneOk.ite (.hold h.after_waitAgain) (.retire h.after_pushLoad)

theorem after_execStg (h : MemOk s) {c : Ctl} {sz : StSz} {a : Reg} {imm : Word} {b : Src} :
    OutOk (execStg c sz a imm b s) := h.after_freshId.after_forOut fun _ _ _ h => by
  dsimp only
  split
  · next e => exact laneOk_of_rawCheck e
  · exact LaneOk.ite (.hold h.after_waitAgain) h.after_storeOr_pushStore

theorem after_prfLine (h : MemOk s) {s0 : State} {t : Nat} {l2 : Bool} {mem : MemOp} :
    MemOk (prfLine s0 s t l2 mem).1 := by
  unfold prfLine
  dsimp only
  split
  · next e =>
    have hs := h.after_objCheck e
    split
    · split
      · split
        · exact hs
        · split
          · exact hs.after_walkNow.after_homeUse
          · exact hs.after_walkNow.after_l1Load
      · exact hs
    · exact hs
  · next e => exact after_countOob (h.after_objCheck e)
  · next e => exact h.after_objCheck e
  · exact h

theorem after_execPrf (h : MemOk s) {c : Ctl} {l2 : Bool} {mem : MemOp} :
    OutOk (execPrf c l2 mem s) := h.after_forOut fun _ _ _ h => .retire h.after_prfLine.after_coreCount.after_gcEvent
theorem after_dropAllCopies (h : MemOk s) {l : Nat} : MemOk (dropAllCopies s l) := h.frame rfl rfl rfl rfl rfl rfl

theorem after_clineAct (h : MemOk s) {c part : Nat} {op : ClineOp} {pa : Nat} : MemOk (clineAct s c part op pa) := by
  cases op with
  | wb => exact h.after_l1Flush
  | inv | wbinv => exact h.after_l1Drop.after_dropCopy
  | zero => exact (h.setHbm (Mem.wf_mclear h.hbm _ _)).after_homeUse.modCore.after_dropAllCopies

theorem after_execCline (h : MemOk s) {c : Ctl} {op : ClineOp} {mem : MemOp} :
    OutOk (execCline c op mem s) :=
  h.after_freshId.after_forOut fun _ _ _ h => h.after_withObj (fun _ h => .retire h) fun _ _ h => by
  refine LaneOk.ite .trap (LaneOk.ite (LaneOk.ite (.hold h.after_waitAgain) ?_) (LaneOk.ite h.after_storeOr_pushStore (.retire h)))
  dsimp only
  split
  · exact h.after_ptrWalk.after_storeOr_pushStore
  · exact .retire h.after_ptrWalk
  · exact .trap

theorem after_execObjrd (h : MemOk s) {c : Ctl} {hi : Bool} {d : VReg} {obj : ObjSel} :
    OutOk (execObjrd c hi d obj s) := h.after_forOut fun _ _ _ h => by
  dsimp only
  split
  · exact .trap
  · next e => exact after_retireLate (h.after_capture e)

theorem after_otsync (h : MemOk s) {c part : Nat} : MemOk (otsync s c part) := h.modCore
theorem after_execOtsync (h : MemOk s) {c : Ctl} : OutOk (execOtsync c s) :=
  h.after_forOut fun _ _ _ h => .retire h.after_otsync

/-! ### Atomics -/

theorem after_releaseAt (h : MemOk s) {c part : Nat} {sc : Scope} {o : Order} : MemOk (releaseAt s c part sc o) :=
  h.branch (·.after_l1FlushAll)
theorem after_acquireAt (h : MemOk s) {c : Nat} {sc : Scope} {o : Order} : MemOk (acquireAt s c sc o) :=
  h.branch (·.after_l1InvalidateClean)

theorem after_performAcc (h : MemOk s) {c t part : Nat} {acc : Access} {loc : Loc} :
    MemOk (performAcc s c t part acc loc).2 := by
  have hr := h.after_releaseAt (c := c) (part := part) (sc := acc.scope) (o := acc.order)
  unfold performAcc
  refine after_acquireAt ?_
  dsimp only
  split
  · exact hr.after_readNow
  · exact hr
  · split
    · exact hr.after_l1Count.after_l1Store
    · exact hr.after_locWrite
  · exact hr.after_clineAct
  · refine after_locWrite (after_locUse ?_)
    split
    · exact hr.after_l1Drop.after_barCopy
    · exact hr.after_injScratchAll
    · exact hr

theorem laneOk_of_atomSpaceTrap {addr : DWord} {float : Bool} {l : Lane} (e : atomSpaceTrap addr float = some l) :
    LaneOk l := by
  unfold atomSpaceTrap at e
  split_ifs at e
  cases e
  exact .trap

theorem after_execAtomic (h : MemOk s) {c : Ctl} {kind : AccKind} {float : Bool} {sc : Scope} {ord : Order} {d : Reg}
    {nd : Nat} {mem : MemOp0} {data : Thread → Group → List Word} :
    OutOk (execAtomic c kind float sc ord d nd mem data s) := by
  refine h.after_freshId.after_forOut (LanesOk.gated (fun _ _ _ h => h.after_withObj (fun _ h => h.after_retireLate) fun _ _ h => ?_)
    fun _ _ h => h.after_waitAgain)
  split
  · next e => exact laneOk_of_atomSpaceTrap e
  · exact .retire h.after_pushLoad

theorem after_execReduce (h : MemOk s) {c : Ctl} {kind : AccKind} {float bank : Bool} {sc : Scope} {ord : Order}
    {mem : MemOp0} {data : Thread → Group → List Word} :
    OutOk (execReduce c kind float bank sc ord mem data s) := by
  refine h.after_freshId.after_forOut (LanesOk.gated (fun _ _ _ h => h.after_withObj (fun _ h => .retire h) fun _ _ h => ?_)
    fun _ _ h => h.after_waitAgain)
  split
  · next e => exact laneOk_of_atomSpaceTrap e
  · exact h.after_storeOr_pushStore

theorem after_execAtomf (h : MemOk s) {c : Ctl} {op : AtomFOp} {noret : Bool} {sc : Scope} {ord : Order} {d : Reg}
    {mem : MemOp0} {b : Src} :
    OutOk (execAtomf c op noret sc ord d mem b s) := OutOk.ite h.after_execReduce h.after_execAtomic

theorem after_execBankred (h : MemOk s) {c : Ctl} {op : BankOp} {ty : BankTy} {sc : Scope} {ord : Order} {d : Reg}
    {mem : MemOp0} {n : Src} :
    OutOk (execBankred c op ty sc ord d mem n s) := h.after_freshId.after_forOut fun _ _ _ h =>
  LaneOk.ite .trap (h.after_withObj (fun _ h => h.after_retireLate) fun _ _ h => LaneOk.ite .trap (.retire h.after_pushLoad))

/-! ### Events of the accesses -/

theorem after_writeResult (h : MemOk s) {t : Nat} {d : Option Reg} {ws : List Word} : MemOk (writeResult s t d ws) := by
  unfold writeResult
  dsimp only
  split
  · exact h.after_writeOpt.modCore
  · exact h.after_writeOpt

theorem after_loadAt (h : MemOk s) {c : Nat} {e : LoadEntry} {loc : Loc} : MemOk (loadAt s c e loc) :=
  h.after_performAcc.modCore.after_writeResult

theorem after_batchAsk (h : MemOk s) {c : Nat} {e : LoadEntry} : MemOk (batchAsk s c e) := by
  unfold batchAsk
  refine ite h (modCore (h.foldl fun s y h => ?_))
  split
  · exact ite h h.after_homeUse
  · exact h

theorem after_lateAt (h : MemOk s) {c : Nat} {e : LateEntry} :
    MemOk (lateAt s c e) := ite h (foldl h.modCore.modThread.modCore fun _ _ h => h.after_writeResult)

theorem after_execLoadComplete (h : MemOk s) {core id : Nat} : OutOk (execLoadComplete core id s) := by
  unfold execLoadComplete
  split
  · split
    · exact h.after_lateAt
    · exact h
  · refine OutOk.ite (h.after_batchAsk.foldl fun s y h => ?_) h
    split
    · exact h.after_loadAt
    · exact h

theorem after_dropStore (h : MemOk s) {c : Nat} {e : StoreEntry} :
    MemOk (dropStore s c e) := ite h.modCore (foldl h.modCore fun _ _ h => h.after_barSettle)
theorem after_storeAt (h : MemOk s) {c : Nat} {e : StoreEntry} {loc : Loc} :
    MemOk (storeAt s c e loc) := (h.after_withScratch fun _ h => h.after_performAcc).after_dropStore

theorem after_countUe (h : MemOk s) {c part : Nat} {a : Access} {f : AFail} : MemOk (countUe s c part a f) := by
  unfold countUe
  refine ite ?_ (h.branch (·.after_countWalkUe))
  split
  · exact ite h.after_rasCount (ite h h.after_countUeAt)
  · exact h

theorem after_faultStore (h : MemOk s) {c : Nat} {e : StoreEntry} {f : AFail} :
    MemOk (faultStore s c e f) := h.after_freshId.modCore.after_countUe.after_sendRec

theorem after_execStorePerform (h : MemOk s) {core id : Nat} {why : Option AccFail} :
    OutOk (execStorePerform core id why s) := by
  unfold execStorePerform
  split
  · exact h
  · split
    · refine OutOk.ite (h.foldl fun s y h => ?_) h
      split
      · exact h.after_storeAt
      · exact h
    · refine OutOk.ite h ?_
      split
      · exact h.after_faultStore
      · exact h

theorem after_setLastRec (h : MemOk s) {t : Nat} {f : FRec} : MemOk (setLastRec s t f) := h.modThread
theorem after_logAccess (h : MemOk s) {c : Nat} {e : LoadEntry} {f : AFail} :
    MemOk (logAccess s c e f) := h.after_freshId.modCore.after_disarm.after_setLastRec.after_countUe.after_sendRec
theorem after_dropLoad (h : MemOk s) {c : Nat} {e : LoadEntry} : MemOk (dropLoad s c e) := h.modCore

theorem after_execAccessLogged (h : MemOk s) {core id : Nat} {why : AccFail} :
    OutOk (execAccessLogged core id why s) := by
  unfold execAccessLogged
  split
  · exact h
  · refine OutOk.ite h ?_
    split
    · exact ite h.after_dropLoad h.after_logAccess
    · exact h

theorem after_execObjectCacheFill (h : MemOk s) {core part idx : Nat} {err : Bool} :
    OutOk (execObjectCacheFill core part idx err s) :=
  OutOk.ite h (OutOk.ite h.modCore h.after_ocacheFill.after_clearBad)

theorem after_execPageWalk (h : MemOk s) {core part va : Nat} : OutOk (execPageWalk core part va s) := by
  unfold execPageWalk
  refine OutOk.ite h ?_
  split
  · exact h.after_walkNow
  · exact h

theorem after_execInstructionLineFill (h : MemOk s) {core line : Nat} {parityErr : Bool} :
    OutOk (execInstructionLineFill core line parityErr s) :=
  OutOk.ite h (h.branch (·.modCore.modCluster.modDie.after_rasCount)).after_coreCount.after_instrFill

theorem after_fillWay (h : MemOk s) {core : Nat} : MemOk (fillWay s core) := by
  unfold fillWay
  dsimp only
  split
  · exact h
  · exact h.setCore (h.core core)

theorem after_execScratchZeroFill (h : MemOk s) {core : Nat} : OutOk (execScratchZeroFill core s) := h.after_fillWay
theorem after_withdrawArrivals (h : MemOk s) {c : Nat} {e : SfuEntry} : MemOk (withdrawArrivals s c e) := h.modCore

theorem after_execSfuDivResult (h : MemOk s) {core id : Nat} {bad : Bool} : OutOk (execSfuDivResult core id bad s) := by
  unfold execSfuDivResult
  split
  · exact h
  · exact OutOk.ite h (OutOk.ite h.after_injPipe.modCore.after_withdrawArrivals.modThread.after_takeTrap
      h.after_injPipe.modCore.modThread.after_writeResult)

theorem after_execSleepEnd (h : MemOk s) {thread : Nat} : OutOk (execSleepEnd thread s) := by
  unfold execSleepEnd
  split
  · exact h.branch (·.modThread)
  · exact h

theorem after_execYieldEnd (h : MemOk s) {thread : Nat} : OutOk (execYieldEnd thread s) := by
  unfold execYieldEnd
  split
  · exact h.branch (·.modThread)
  · exact h

theorem after_execRecordRetry (h : MemOk s) {part : Nat} : OutOk (execRecordRetry part s) := h.after_retryRecords

end MemOk

end Sys2Proof.Machine
end


section
/-! PROOFS. The memories of the part stay canonical: cross-lane operations, branches, ends of threads and system operations. -/

namespace Sys2Proof.Machine

set_option Elab.async false  -- theorem after theorem: every thread of a compile takes a stack of its own

/-- What a form of a group's lead thread answers leaves the memories canonical. -/
inductive EffOk : Except Lane (State → State) → Prop where
  | error {l : Lane} (h : LaneOk l) : EffOk (.error l)
  | ok {f : State → State} (h : ∀ s, MemOk s → MemOk (f s)) : EffOk (.ok f)

theorem EffOk.ite {c : Prop} [Decidable c] {a b : Except Lane (State → State)} (ha : EffOk a) (hb : EffOk b) :
    EffOk (if c then a else b) := by
  split_ifs
  · exact ha
  · exact hb

namespace MemOk

variable {s s' : State}

/-! ### Cross-lane operations -/

theorem after_settleCross (h : MemOk s) {c : Nat} {x : Cross} :
    MemOk (settleCross s c x) :=
  ite h (foldl h.modCore fun _ _ h => ite h.after_lateRes.after_retireWaiter h.after_takeTrap)

theorem after_settleKey (h : MemOk s) {c g turn : Nat} {pc : DWord} {half : Nat} :
    MemOk (settleKey s c g turn pc half) := by
  unfold settleKey
  split
  · exact h.after_settleCross
  · exact h

theorem after_settleTurn (h : MemOk s) {c g turn : Nat} : MemOk (settleTurn s c g turn) :=
  h.foldl fun _ _ h => h.after_settleKey
theorem after_arrive (h : MemOk s) {c g turn : Nat} {pc : DWord} {half lane : Nat} {arr : Option XArr} {op : Instr} :
    MemOk (arrive s c g turn pc half lane arr op) := h.modCore

theorem after_crossLane (h : MemOk s) {c : Ctl} {us : List Nat} {block : Bool} {op : Instr}
    {f : Thread → Group → XArr} {s0 : State} {t : Nat} :
    MemOk (crossLane c us block op f s0 s t) := by
  unfold crossLane
  refine ite h (ite h.after_retire.after_arrive (ite h.after_takeTrap ?_))
  exact ite h.after_trapCount.after_takeTrap (h.after_injPipe.after_pipeTrap h.after_injPipe.after_arrive.modThread)

theorem after_execCross (h : MemOk s) {c : Ctl} {us : List Nat} {block : Bool} {op : Instr}
    {f : Thread → Group → XArr} :
    OutOk (execCross c us block op f s) :=
  (h.foldl fun _ _ h => h.after_crossLane).foldl fun _ _ h => h.after_settleKey

/-! ### Branches, joins and the end of a thread -/

theorem after_execBranch (h : MemOk s) {c : Ctl} {d : Option VReg} {f : Thread → Group → DWord} :
    OutOk (execBranch c d f s) := h.after_forLanes fun _ _ _ h => by
  refine LaneOk.ite .trap (.goto ?_)
  split
  · exact h.after_writeReg
  · exact h

theorem after_execJoinset (h : MemOk s) {c : Ctl} {j : Fin 16} {imm : DWord} :
    OutOk (execJoinset c j imm s) :=
  h.after_freshId.after_forOut fun _ _ _ h => LaneOk.ite .trap (.retire h.after_leaveInst.modThread)

theorem after_execJoinwait (h : MemOk s) {c : Ctl} {j : Fin 16} : OutOk (execJoinwait c j s) :=
  h.after_forOut fun _ _ _ h => by
  split
  · exact .retire h
  · exact .done h.modThread.after_settleInst

theorem after_execJoindrop (h : MemOk s) {c : Ctl} {j : Fin 16} :
    OutOk (execJoindrop c j s) := h.after_forOut fun _ _ _ h => .retire h.after_leaveInst
theorem after_afterExit (h : MemOk s) {t : Nat} : MemOk (afterExit s t) :=
  (h.after_settleTurn.foldl fun _ _ h => h.after_barSettle).after_idemSettle
theorem after_endThread (h : MemOk s) {t : Nat} : MemOk (endThread s t) :=
  h.after_leaveAll.modThread.modCore.after_genNext.after_disarm
theorem after_execExit (h : MemOk s) {c : Ctl} :
    OutOk (execExit c s) :=
  h.after_forLanes fun _ _ _ h => LaneOk.ite (.done h.after_retire.after_endThread.after_afterExit) (.hold h.after_waitFinish)
theorem after_execYield (h : MemOk s) {c : Ctl} : OutOk (execYield c s) :=
  h.after_forOut fun _ _ _ h => .done h.after_retire.modThread
theorem after_execNop (h : MemOk s) {c : Ctl} : OutOk (execNop c s) := h.after_forLanes fun _ _ _ h => .retire h
theorem after_execSleep (h : MemOk s) {c : Ctl} {n : Word} : OutOk (execSleep c n s) :=
  h.after_forOut fun _ _ _ h => .done h.after_retire.modThread

theorem after_ipfLine (h : MemOk s) {c part level : Nat} {priv : Bool} {va : Nat} :
    MemOk (ipfLine s c part level priv va).1 := by
  unfold ipfLine
  split
  · exact h
  · split
    · exact h
    · dsimp only
      split
      · split
        · exact h.after_walkNow
        · exact h.after_walkNow.after_instrFill
      · exact h.after_walkNow

theorem after_ipfLines (h : MemOk s) {c part level : Nat} {priv : Bool} {va n k : Nat} :
    MemOk (ipfLines s c part level priv va n k).1 := by
  induction n generalizing s va k with
  | zero => exact h
  | succ n ih => exact ih h.after_ipfLine

theorem after_execIpf (h : MemOk s) {c : Ctl} {n : BitVec 8} {level : Fin 3} {imm : DWord} :
    OutOk (execIpf c n level imm s) := h.after_forOut fun _ _ _ h => by
  refine LaneOk.ite ?_ (.retire h)
  dsimp only
  exact .retire (h.after_ipfLines.after_coreCount.after_coreCount.foldl fun _ _ h => h.after_gcEvent.after_gcEvent)

theorem after_qWrite (h : MemOk s) {part die : Nat} {p : DWord} {bs : List Byte}
    (e : qWrite s part die p bs = some s') : MemOk s' := by
  unfold qWrite at e
  split at e
  · exact of_some e h.after_locUse.after_locWrite
  · cases e

/-! ### System operations -/

theorem after_execLead (h : MemOk s) {c : Ctl} {f : State → Nat → Except Lane (State → State)}
    (hf : ∀ s0 l, EffOk (f s0 l)) :
    OutOk (execLead c f s) := by
  unfold execLead
  split
  · exact h.after_execNop
  · next l _ =>
    dsimp only
    split
    · exact h.after_forLanes fun _ _ _ h => .hold h.after_waitAgain
    · have he := hf (issueView s) l
      generalize f (issueView s) l = r at he
      have hr := h.after_runLanes (c := c) (us := []) (f := fun _ _ s => .retire s) fun _ _ _ h => .retire h
      cases he with
      | error hl => exact h.after_forLanes fun _ _ _ _ => hl
      | ok hk => exact ite hr (hk _ hr)

theorem after_execSysrd (h : MemOk s) {c : Ctl} {w64 : Bool} {sel : BitVec 12} {d : Reg} :
    OutOk (execSysrd c w64 sel d s) := h.after_forLanes fun _ _ _ h => h.after_retireAlu
theorem after_requestWays (h : MemOk s) {core n : Nat} : MemOk (requestWays core n s) := h.modCore

theorem after_execSyswr (h : MemOk s) {c : Ctl} {w64 : Bool} {sel : BitVec 12} {a : Src} :
    OutOk (execSyswr c w64 sel a s) := by
  unfold execSyswr
  dsimp only
  split
  · refine h.after_execLead fun s0 l => ?_
    split
    · exact .error .trap
    · exact .ok fun _ h => h.after_requestWays
  · exact h.after_forOut fun _ _ _ h => LaneOk.ite (.hold h.after_waitAgain) (.retire h.modThread)
  · exact h.after_execLead fun _ _ => .ok fun _ h => h.modCore
  · exact h.after_forOut fun _ _ _ h => .retire h

theorem after_execTrap (h : MemOk s) {c : Ctl} {code : BitVec 16} : OutOk (execTrap c code s) :=
  h.after_forOut fun _ _ _ _ => .trap
theorem after_execBkpt (h : MemOk s) {c : Ctl} {code : BitVec 16} : OutOk (execBkpt c code s) :=
  h.after_forOut fun _ _ _ _ => .trap
theorem after_cntRead (h : MemOk s) {t sel : Nat} : MemOk (cntRead s t sel) := h.branch (·.modCluster)
theorem after_execCntrd (h : MemOk s) {c : Ctl} {w64 : Bool} {ctr : BitVec 10} {d : Reg} :
    OutOk (execCntrd c w64 ctr d s) := h.after_forLanes fun _ _ _ h => h.after_cntRead.after_retireAlu
theorem after_execCntcfg (h : MemOk s) {c : Ctl} {gc : Fin 4} {a : Src} :
    OutOk (execCntcfg c gc a s) := h.after_execLead fun _ _ => EffOk.ite (.error .trap) (.ok fun _ h => h.modGroup)
theorem after_execWayset (h : MemOk s) {c : Ctl} {n : Fin 16} :
    OutOk (execWayset c n s) :=
  h.after_execLead fun _ _ => EffOk.ite (.error .trap) (.ok fun _ h => h.after_requestWays)

theorem after_execMregion (h : MemOk s) {c : Ctl} {mode : RegionMode} {a : Option Reg} :
    OutOk (execMregion c mode a s) := h.after_execLead fun _ _ => by
  dsimp only
  split
  · exact .ok fun _ h => h.modGroup
  · exact EffOk.ite (.error .trap) (.ok fun _ h => h.modGroup)

theorem after_injIgnored (h : MemOk s) {t cls : Nat} {pc : DWord} :
    MemOk (injIgnored s t cls pc) := h.after_freshId.after_emitRecord.after_telCount.setFw

theorem after_execErrinj (h : MemOk s) {c : Ctl} {a : Reg} : OutOk (execErrinj c a s) := h.after_execLead fun _ _ => by
  refine EffOk.ite (.ok fun _ h => h.after_injIgnored) ?_
  split
  · exact .error .trap
  · exact .ok fun _ h => h.modCore
  · exact .ok fun _ h => h.after_setInj

theorem after_execDlread (h : MemOk s) {c : Ctl} {sel : DlSel} {qe : Option PDst} {d : Reg} :
    OutOk (execDlread c sel qe d s) := h.after_forLanes fun _ _ _ h => h.after_retireAlu
theorem after_execPadmask (h : MemOk s) {c : Ctl} {n : Fin 8} {qd qe : PDst} {a : Src} :
    OutOk (execPadmask c n qd qe a s) := h.after_forLanes fun _ _ _ h => .retire h.after_writePred.after_writePred

end MemOk

end Sys2Proof.Machine
end


section
/-! PROOFS. The memories of the part stay canonical: fences, barriers, barrier objects and copies. -/

namespace Sys2Proof.Machine

set_option Elab.async false  -- theorem after theorem: every thread of a compile takes a stack of its own

/-- What a check of a lane answers, the part of it that `st` takes being canonical. -/
inductive AnswerOk {α : Type} (st : α → State) : Except Lane α → Prop where
  | error {l : Lane} (h : LaneOk l) : AnswerOk st (.error l)
  | ok {x : α} (h : MemOk (st x)) : AnswerOk st (.ok x)

theorem AnswerOk.ite {α : Type} {st : α → State} {c : Prop} [Decidable c] {a b : Except Lane α} (ha : AnswerOk st a)
    (hb : AnswerOk st b) :
    AnswerOk st (if c then a else b) := by
  split_ifs
  · exact ha
  · exact hb

theorem AnswerOk.of_error {α : Type} {st : α → State} {r : Except Lane α} {l : Lane} (h : AnswerOk st r)
    (e : r = .error l) : LaneOk l := by
  rw [e] at h
  cases h with
  | error hl => exact hl

theorem AnswerOk.of_ok {α : Type} {st : α → State} {r : Except Lane α} {x : α} (h : AnswerOk st r) (e : r = .ok x) :
    MemOk (st x) := by
  rw [e] at h
  cases h with
  | ok hx => exact hx

namespace MemOk

variable {s s' : State}

/-! ### Fences and barriers -/

theorem after_execFence (h : MemOk s) {c : Ctl} {ord : FenceOrd} {sc : Scope} :
    OutOk (execFence c ord sc s) :=
  h.after_forOut fun _ _ _ h => LaneOk.ite (.hold h.after_waitFinish) (.retire h.after_releaseAt.after_acquireAt)
theorem after_barArrive (h : MemOk s) {t id n : Nat} : MemOk (barArrive s t id n) := h.modGroup

theorem after_execBar (h : MemOk s) {c : Ctl} {arv : Bool} {id : Fin 16} {n : Src} : OutOk (execBar c arv id n s) := by
  have hl : LanesOk (outward (gated c barReady waitAgain (fun s0 t s =>
      let th := s0.thread t
      let g := s0.group th.group
      let k := srcNat th g 1 n
      let b := gbar s th.group id.val
      if g.size < k then .trapC 0x13
      else if b.count ≠ 0 ∧ b.n ≠ k then .trapC 0x14
      else
        let s := barArrive s t id.val k
        if arv then .retire s else .done (s.modThread t (fun x => { x with run := .waiting (.bar id.val b.phase) }))))) :=
    (LanesOk.gated (fun _ _ _ h => LaneOk.ite .trap (LaneOk.ite .trap (LaneOk.ite (.retire h.after_barArrive) (.done h.after_barArrive.modThread))))
      fun _ _ h => h.after_waitAgain).outward
  have hr := h.after_runLanes (c := c) (us := []) hl
  unfold execBar
  dsimp only
  split
  · exact hr
  · exact hr.after_barSettle

/-! ### Barrier objects -/

theorem after_boOperand {s0 : State} {t : Nat} {a : Reg} {imm : Word} {reads : Bool} {f : Loc → Lane}
    (hf : ∀ l, LaneOk (f l)) :
    LaneOk (boOperand s0 s t a imm reads f) := by
  unfold boOperand
  dsimp only
  split
  · refine LaneOk.ite .trap ?_
    split
    · exact .trap
    · exact .trap
    · exact hf _
  · exact .trap

theorem after_forObjects (h : MemOk s) {c : Ctl} {us : List Nat} {a : Reg} {imm : Word}
    {f : State → Nat → State → Lane} (hf : LanesOk f) :
    OutOk (forObjects c us a imm f s) := h.after_forOut (hf.gated fun _ _ h => h.after_waitAccesses)

theorem after_execBoinit (h : MemOk s) {c : Ctl} {a : Reg} {imm : Word} {b : Src} :
    OutOk (execBoinit c a imm b s) :=
  h.after_forObjects fun _ _ _ h => after_boOperand fun _ => LaneOk.ite .trap (.retire h.after_locWrite)
theorem after_execBoexpect (h : MemOk s) {c : Ctl} {add : Bool} {a : Reg} {imm : Word} {b : Src} :
    OutOk (execBoexpect c add a imm b s) :=
  h.after_forObjects fun _ _ _ h => after_boOperand fun _ => .retire h.after_locWrite.after_boUpdate

theorem after_execBoarrive (h : MemOk s) {c : Ctl} {tx : Bool} {sc : Scope} {ret : Option Reg} {a : Reg} {imm : Word}
    {b : Src} :
    OutOk (execBoarrive c tx sc ret a imm b s) := by
  refine h.after_forOut (LanesOk.gated (fun _ _ _ h => after_boOperand fun _ => ?_) fun _ _ h => h.after_waitFinish)
  dsimp only
  split
  · exact h.after_releaseAt.after_boUpdate.after_retireLate
  · exact .retire h.after_releaseAt.after_boUpdate

theorem after_execBowait (h : MemOk s) {c : Ctl} {sc : Scope} {d a : Reg} {imm : Word} {b : Src} :
    OutOk (execBowait c sc d a imm b s) :=
  h.after_forObjects fun _ _ _ h => after_boOperand fun _ => LaneOk.ite h.after_acquireAt.after_retireLate (.done h.modThread)
theorem after_execBotest (h : MemOk s) {c : Ctl} {sc : Scope} {d a : Reg} {imm : Word} {b : Src} :
    OutOk (execBotest c sc d a imm b s) :=
  h.after_forObjects fun _ _ _ h => after_boOperand fun _ => (h.branch (·.after_acquireAt)).after_retireLate

/-! ### Copies and tags -/

theorem after_piecesWalk (h : MemOk s) {c part : Nat} {ps : List Piece} : MemOk (piecesWalk s c part ps) :=
  h.foldl fun _ _ h => h.after_walkNow
theorem after_flushSegs (h : MemOk s) {c part : Nat} {gs : List Seg} : MemOk (flushSegs s c part gs) :=
  h.foldl fun _ _ h => h.after_l1Flush
theorem after_dropSegs (h : MemOk s) {c part : Nat} {gs : List Seg} :
    MemOk (dropSegs s c part gs) := (h.foldl fun _ _ h => h.after_l1Drop).foldl fun _ _ h => h.after_barCopy
theorem after_useSegs (h : MemOk s) {part : Nat} {gs : List Seg} {alloc : Bool} :
    MemOk (useSegs s part gs alloc) := h.foldl fun _ _ h => h.after_segUse

theorem after_tagTake (h : MemOk s) {c n : Nat} (e : tagTake s c n = some s') : MemOk s' := by
  unfold tagTake at e
  dsimp only at e
  split at e
  · cases e
  · exact of_some e h.modCore

theorem after_tagsRelease (h : MemOk s) {c : Nat} : MemOk (tagsRelease s c) := h.foldl fun s p h => by
  split
  · split
    · split
      · exact h.after_writeOpt.after_writePred.after_retireWaiter
      · exact h
    · exact h
  · exact h

theorem after_tagEnd (h : MemOk s) {c n code : Nat} : MemOk (tagEnd s c n code) := h.modCore.after_tagsRelease

theorem after_acceptCopy (h : MemOk s) {t : Nat} {cp : Copy} : LaneOk (acceptCopy s t cp) := by
  unfold acceptCopy
  refine LaneOk.ite (.hold h.after_waitAgain) (LaneOk.ite (.hold h.after_waitAccesses) ?_)
  cases cp.tag with
  | none => exact .retire h.after_flushSegs.after_freshId.setCopies
  | some n =>
    dsimp only
    split
    · exact .hold h.after_waitAgain
    · next e => exact .retire (h.after_tagTake e).after_flushSegs.after_freshId.setCopies

theorem after_copyChecks (h : MemOk s) {s0 : State} {t : Nat} {bo : DWord} {mem : MemOp0} {dstNeed : Bool} {size : Nat}
    {src : State → Except Lane (List Piece × Bool × State)} {mc here : Bool} {f : State → List Seg → List Seg → Lane}
    (hs : ∀ s, MemOk s → AnswerOk (fun x => x.2.2) (src s)) (hf : ∀ s ds ss, MemOk s → LaneOk (f s ds ss)) :
    LaneOk (copyChecks s0 s t bo mem dstNeed size src mc here f) := by
  unfold copyChecks
  refine LaneOk.ite .trap ?_
  dsimp only
  split
  · exact .trap
  · next e s hc =>
    have hsrc := hs s (h.after_capture hc)
    refine LaneOk.ite .trap (LaneOk.ite .trap (LaneOk.ite .trap (LaneOk.ite .trap ?_)))
    generalize src s = r at hsrc
    cases hsrc with
    | error hl => exact hl
    | @ok x hx =>
      refine LaneOk.ite .trap (LaneOk.ite .trap (LaneOk.ite (.hold hx.after_waitAgain) ?_))
      split
      · exact .trap
      · split
        · exact .trap
        · next ds _ _ ss _ =>
          have hr := hf _ ds ss (hx.after_piecesWalk (c := coreOfThread t) (part := s0.partOf t)
            (ps := objPieces e ((srcNat (s0.thread t) (s0.group (s0.thread t).group) 1 mem.a : Int) + mem.off.toInt) size ++ x.1))
          split
          · next hr' =>
            rw [hr'] at hr
            cases hr with
            | retire hr => exact .retire (hr.branch (·.after_countOob))
          · exact hr

theorem after_srcObject (h : MemOk s) {t part idx : Nat} {o : Int} {size : Nat} :
    AnswerOk (fun x => x.2.2) (srcObject t part idx o size s) := by
  unfold srcObject
  dsimp only
  split
  · exact .error .trap
  · next hc => exact .ite (.error .trap) (.ite (.error .trap) (.ite (.error .trap) (.ite (.error .trap) (.ok (h.after_capture hc)))))

theorem after_execCpy (h : MemOk s) {c : Ctl} {dst : CopyDst} {mem : MemOp0} {b : Reg} :
    OutOk (execCpy c dst mem b s) := h.after_forOut fun _ _ _ h =>
  LaneOk.ite .trap (h.after_copyChecks (fun _ h => h.after_srcObject) fun _ _ _ h => h.after_acceptCopy)

theorem after_execCpymc (h : MemOk s) {c : Ctl} {dst : CopyDst} {mem : MemOp0} {b : Reg} :
    OutOk (execCpymc c dst mem b s) := h.after_forOut fun _ _ _ h =>
  LaneOk.ite .trap (h.after_copyChecks (fun _ h => h.after_srcObject) fun _ _ _ h => h.after_acceptCopy)

theorem after_shapePair (h : MemOk s) {t part idx : Nat} {st : Bool} :
    AnswerOk Shape.state (shapePair t part idx st s) := by
  unfold shapePair
  dsimp only
  split
  · exact .error .trap
  · next hc =>
    have hs := h.after_capture hc
    refine .ite (.error .trap) (.ite (.error .trap) (.ite (.error .trap) ?_))
    split
    · exact .error .trap
    · next hc => exact .ite (.error .trap) (.ite (.error .trap) (.ite (.error .trap) (.ite (.error .trap) (.ok (hs.after_capture hc)))))

theorem laneOk_of_boxPieces {x : Nat} {p : Shape} {l : Lane} (e : boxPieces x p = .error l) : LaneOk l := by
  unfold boxPieces at e
  dsimp only at e
  split at e
  · cases e
    exact .trap
  · cases e

/-- The pieces of a box, once its shape is known. -/
theorem answerOk_boxSource {x : Nat} {r : Except Lane Shape} : AnswerOk Shape.state r →
    AnswerOk (fun y : List Piece × Bool × State => y.2.2) (match r with
      | .error l => .error l
      | .ok p => match boxPieces x p with
        | .error l => .error l
        | .ok (ps, out) => .ok (ps, out, p.state)) := by
  intro hr
  cases hr with
  | error hl => exact .error hl
  | ok hp =>
    dsimp only
    split
    · next e => exact .error (laneOk_of_boxPieces e)
    · exact .ok hp

theorem after_execCpyt (h : MemOk s) {c : Ctl} {dst : CopyDst} {st : Bool} {mem : MemOp0} {b : Reg} :
    OutOk (execCpyt c dst st mem b s) := h.after_forOut fun _ _ _ h =>
  LaneOk.ite .trap (h.after_copyChecks (fun _ h => answerOk_boxSource h.after_shapePair) fun _ _ _ h => h.after_acceptCopy)

theorem after_execTagWait (h : MemOk s) {c : Ctl} {all : Bool} {qe : Option PDst} {d : Reg} {m : Src} :
    OutOk (execTagWait c all qe d m s) := h.after_forOut fun _ _ _ h => by
  dsimp only
  split
  · exact h.after_retireAlu
  · exact .done h.modThread

theorem after_execFfr (h : MemOk s) {c : Ctl} {d : Reg} {m : Src} : OutOk (execFfr c d m s) :=
  h.after_forLanes fun _ _ _ h => h.after_retireAlu
theorem after_execTagclr (h : MemOk s) {c : Ctl} {m : Src} : OutOk (execTagclr c m s) :=
  h.after_forOut fun _ _ _ h => .retire h.modCore
theorem after_execTagrd (h : MemOk s) {c : Ctl} {d : Reg} {t : Src} : OutOk (execTagrd c d t s) :=
  h.after_forLanes fun _ _ _ h => h.after_retireAlu

/-! ### Copies under way -/

theorem after_asyncError (h : MemOk s) {launch code : Nat} : MemOk (asyncError s launch code) := ite h h.after_noteFault
theorem after_countSeg (h : MemOk s) {l : Loc} {d : Nat} : MemOk (countSeg s l d) := ite h h.after_countUeAt

theorem after_drawSegs (h : MemOk s) {away : List Nat} {gs : List Seg} : MemOk (drawSegs s away gs) :=
  h.foldl fun _ _ h => by
  split
  · exact ite h h.after_injScratchAll
  · exact h

theorem after_copyByte (h : MemOk s) {cp : Copy} {i : Nat} : MemOk (copyByte s cp i) := h.after_locSet

theorem after_copyByteAct (h : MemOk s) {id i : Nat} : MemOk (copyByteAct s id i) := by
  unfold copyByteAct
  split
  · exact h
  · exact ite h (after_drawSegs (h.after_withScratch fun _ h => h.after_copyByte).setCopies)

theorem after_copyRest (h : MemOk s) {cp : Copy} : MemOk (copyRest s cp) :=
  ite h.after_segsWrite (h.foldl fun _ _ h => h.after_locSet)
theorem after_drawRest (h : MemOk s) {cp : Copy} : MemOk (drawRest s cp) := ite h.after_drawSegs h.after_drawSegs

theorem after_copyDone (h : MemOk s) {id : Nat} {cp : Copy} {code bytes : Nat} :
    MemOk (copyDone s id cp code bytes) := by
  have ha := h.setCopies (x := tdel id s.copies).after_asyncError (launch := cp.launch) (code := code)
  unfold copyDone
  dsimp only
  split
  · exact ha.after_tagEnd
  · exact ite ha ha.after_boContribute

theorem after_mcFail (h : MemOk s) {cp : Copy} {code : Nat} :
    MemOk (mcFail s cp code) :=
  ite (h.after_withScratch fun _ h => h.foldl fun _ _ h => h.branch (·.after_boContribute)) h.after_boContribute

theorem after_sendFails (h : MemOk s) {id : Nat} {cp : Copy} {tag : Nat} {why : Option AccFail} :
    OutOk (sendFails id cp tag why s) := by
  have hf (s : State) (h : MemOk s) (code : Nat) : MemOk (match cp.tag with
      | some n => tagEnd { s with copies := tdel id s.copies } cp.core n code
      | none => { s with copies := tdel id s.copies }) := by
    split
    · exact h.setCopies.after_tagEnd
    · exact h.setCopies
  unfold sendFails
  dsimp only
  split
  · exact ite (hf s h 7) h
  · split
    · exact hf _ h.after_countSeg 1
    · exact h
  · exact h

theorem after_execCopyEnd (h : MemOk s) {id : Nat} {why : Option AccFail} : OutOk (execCopyEnd id why s) := by
  unfold execCopyEnd
  split
  · exact h
  · dsimp only
    split
    · exact h.after_sendFails
    · split
      · split
        · exact OutOk.ite h.after_copyDone h
        · split
          · exact h.after_countSeg.after_mcFail.after_copyDone
          · exact h
        · exact OutOk.ite h.after_mcFail.after_copyDone h
        · exact h
      · split
        · exact OutOk.ite h (h.after_dropSegs.after_useSegs.after_useSegs.after_drawRest.after_withScratch
            fun _ h => h.after_copyRest.after_copyDone)
        · split
          · exact h.after_dropSegs.after_countSeg.after_withScratch fun _ h => h.after_copyDone
          · exact h
        · exact OutOk.ite (h.after_dropSegs.after_withScratch fun _ h => h.after_copyDone) h
        · exact h

theorem after_execCpymcBranchArrival (h : MemOk s) {id branch : Nat} : OutOk (execCpymcBranchArrival id branch s) := by
  unfold execCpymcBranchArrival
  split
  · exact h
  · split
    · exact h
    · refine OutOk.ite h ((h.branch fun h => h.after_useSegs.after_drawSegs).after_withScratch fun _ h => ?_)
      exact ite h.setCopies.after_segsWrite.after_boContribute (ite h.setCopies.after_boContribute h.setCopies)

/-! ### Ways of scratch -/

theorem after_waysRelease (h : MemOk s) {c lo hi : Nat} : MemOk (waysRelease s c lo hi) := h.foldl fun _ _ h => by
  split
  · exact h.branch (·.after_writeOpt.after_retireWaiter)
  · exact h

/-- A scratch address that is checked again traps, or leaves the state. -/
theorem scratchAddr_trap (h : MemOk s) {t : Nat} {r : Except Lane Nat} : MemOk (match r with
    | .error (.trap code d addr gpa w) => takeTrap s t code d addr gpa w
    | _ => s) := by
  split
  · exact h.after_takeTrap
  · exact h

theorem after_waysCheck (h : MemOk s) {c : Nat} : MemOk (waysCheck s c) := h.foldl fun _ _ h => by
  refine ite h ?_
  split
  · exact h
  · dsimp only
    split
    · exact h.scratchAddr_trap
    · exact h.scratchAddr_trap
    · exact h

theorem after_execWaysetTakesEffect (h : MemOk s) {core : Nat} : OutOk (execWaysetTakesEffect core s) := by
  unfold execWaysetTakesEffect
  dsimp only
  split
  · exact h
  · exact OutOk.ite h ((h.branch (·.after_l1FlushAll)).modCore
      fun _ hx => Mem.wf_mclear (Mem.wf_mclear hx _ _) _ _).after_waysRelease.after_waysCheck

end MemOk

end Sys2Proof.Machine
end


section
/-! PROOFS. The memories of the part stay canonical: the matrix engine and the rails. -/

namespace Sys2Proof.Machine

set_option Elab.async false  -- theorem after theorem: every thread of a compile takes a stack of its own

namespace MemOk

variable {s s' : State}

/-! ### Requests to the engine -/

theorem after_post (h : MemOk s) {s0 : State} {t : Nat} {kind : ReqKind} {bo : DWord} :
    LaneOk (post s0 s t kind bo) := .done h.after_freshId.modCluster.after_gcEvent.modThread

theorem after_runsCheck (h : MemOk s) {c part e align : Nat} {write : Bool} {runs : List (Int × Nat)} :
    AnswerOk (fun _ => s) (runsCheck s c part e write align runs) := by
  refine .ite (.error .trap) (.ite (.error .trap) (.ite (.error .trap) (.ite (.error .trap) ?_)))
  split
  · exact .error .trap
  · split
    · exact .error .trap
    · exact .ok h

theorem after_mmaObject (h : MemOk s) {t part idx : Nat} {runs : List (Int × Nat)} :
    AnswerOk (fun x => x.2.2.2) (mmaObject s t part idx runs) := by
  unfold mmaObject
  dsimp only
  split
  · exact .error .trap
  · next hc =>
    split
    · next he => exact .error ((after_runsCheck (h.after_capture hc)).of_error he)
    · exact .ok (h.after_capture hc)

/-- The scales of an MMA: none, or an object checked as its rows are. -/
theorem after_scales (h : MemOk s) {ascale : Bool} {e t part idx : Nat} {runs : List (Int × Nat)} :
    AnswerOk (fun x => x.2.2.2) (if ascale then mmaObject s t part idx runs else .ok (e, [], false, s)) :=
  .ite h.after_mmaObject (.ok h)

theorem after_execMma (h : MemOk s) {c : Ctl} {p : VReg} : OutOk (execMma c p s) := h.after_forOut fun _ _ _ h => by
  refine LaneOk.ite .trap (LaneOk.ite .trap (LaneOk.ite .trap (LaneOk.ite .trap (LaneOk.ite .trap ?_))))
  dsimp only
  split
  · next e => exact h.after_mmaObject.of_error e
  · next e =>
    have hs := h.after_mmaObject.of_ok e
    split
    · next e => exact (after_scales hs).of_error e
    · next e =>
      have hx := (after_scales hs).of_ok e
      exact LaneOk.ite .trap (LaneOk.ite .trap (after_post (branch hx (·.after_countOob))))

theorem after_postRuns (h : MemOk s) {s0 : State} {t : Nat} {mem : MemOp0} {write : Bool} {align : Nat} {bo : DWord}
    {runs : Nat → Int → List (Int × Nat)} {kind : List Seg → Nat → ReqKind} :
    LaneOk (postRuns s0 s t mem write align bo runs kind) := by
  unfold postRuns
  refine LaneOk.ite .trap ?_
  dsimp only
  split
  · exact .trap
  · next hc =>
    have hs := h.after_capture hc
    split
    · next he => exact (after_runsCheck (h.after_capture hc)).of_error he
    · refine LaneOk.ite .trap (LaneOk.ite (.hold hs.after_waitAgain) ?_)
      split
      · exact .trap
      · exact (hs.after_piecesWalk.branch (·.after_countOob)).after_post

theorem after_execWload (h : MemOk s) {c : Ctl} {bfmt : BitVec 4} {cmp : WCmp} {bscl : Bool} {buf : Fin 2}
    {mem : MemOp0} {b : Reg} :
    OutOk (execWload c bfmt cmp bscl buf mem b s) := h.after_forOut fun _ _ _ h => by
  refine LaneOk.ite .trap (LaneOk.ite .trap ?_)
  split
  · exact .trap
  · exact LaneOk.ite .trap h.after_postRuns

theorem after_execWdrop (h : MemOk s) {c : Ctl} {buf : Fin 2} :
    OutOk (execWdrop c buf s) := h.after_forOut fun _ _ _ h => LaneOk.ite .trap h.after_post

theorem laneOk_of_regionTrap {t x : Nat} {l : Lane} (e : regionTrap s t x = some l) : LaneOk l := by
  unfold regionTrap at e
  split_ifs at e <;> cases e <;> exact .trap

theorem after_execAccld (h : MemOk s) {c : Ctl} {fmt : BitVec 4} {mem : MemOp0} {b : Reg} :
    OutOk (execAccld c fmt mem b s) := h.after_forOut fun _ _ _ h => by
  dsimp only
  split
  · next e => exact laneOk_of_regionTrap e
  · exact h.after_postRuns

theorem after_execAccst (h : MemOk s) {c : Ctl} {fmt : BitVec 4} {rm : Rnd} {sat : Bool} {mem : MemOp0} {b : Reg} :
    OutOk (execAccst c fmt rm sat mem b s) := h.after_forOut fun _ _ _ h => by
  dsimp only
  split
  · next e => exact laneOk_of_regionTrap e
  · exact h.after_postRuns

theorem after_execAccz (h : MemOk s) {c : Ctl} {a : Reg} : OutOk (execAccz c a s) := h.after_forOut fun _ _ _ h => by
  dsimp only
  split
  · next e => exact laneOk_of_regionTrap e
  · exact h.after_post

theorem after_execMstat (h : MemOk s) {c : Ctl} {d : VReg} {a : Option Src} :
    OutOk (execMstat c d a s) := h.after_forOut fun _ _ _ h => h.after_retireLate

/-! ### The engine -/

theorem after_execRequestAccept (h : MemOk s) {cluster : Nat} : OutOk (execRequestAccept cluster s) := by
  unfold execRequestAccept
  dsimp only
  split
  · exact h
  · exact h.after_flushSegs.modCluster.after_retireWaiter

theorem after_execRequestGrant (h : MemOk s) {cluster : Nat} : OutOk (execRequestGrant cluster s) := h.modCluster
theorem after_clusterCount (h : MemOk s) {c sel n : Nat} : MemOk (clusterCount s c sel n) := h.modCluster
theorem after_passCounts (h : MemOk s) {cluster : Nat} {e : EReq} {r : MmaReq} {p : PassInfo} {corr approx : Bool} :
    MemOk (passCounts s cluster e r p corr approx) :=
  (MemOk.after_telCount (MemOk.after_telCount (MemOk.after_telCount (h.foldl fun _ _ h => h.after_clusterCount)))).modLaunch
theorem after_endEntry (h : MemOk s) {cluster : Nat} {e : EReq} {code bytes : Nat} :
    MemOk (endEntry s cluster e code bytes) := by
  have hs := fun k => (h.modCluster (k := cluster) (f := k)).branch (c := asyncCode code) (·.after_asyncError (launch := e.launch) (code := code))
  exact ite (hs _) (hs _).modCluster.after_boContribute
theorem after_endPass (h : MemOk s) {cluster : Nat} {e : EReq} {r : MmaReq} {p : PassInfo} {code : Nat}
    {corr : Option (Nat × Nat)} {approx : Bool} :
    MemOk (endPass s cluster e r p code corr approx) := h.after_passCounts.modCluster.modCore.after_endEntry
theorem after_endHalf (h : MemOk s) {cluster : Nat} {e : EReq} {buf : Nat} {d : WDesc} {tile : List Byte} :
    MemOk (endHalf s cluster e buf d tile) := h.modCluster
theorem after_streamCount (h : MemOk s) {cluster : Nat} {r : MmaReq} {p : PassInfo} {d : Nat} :
    MemOk (streamCount s cluster r p d) := h.after_clusterCount.after_clusterCount.modCluster
theorem after_streamCut (h : MemOk s) {cluster : Nat} {e : EReq} : MemOk (streamCut s cluster e) := by
  unfold streamCut
  split
  · exact h.after_streamCount
  · exact h

theorem after_failEntry (h : MemOk s) {cluster : Nat} {e : EReq} {code : Nat} : MemOk (failEntry s cluster e code) := by
  unfold failEntry
  dsimp only
  split
  · exact h.after_streamCut.after_endPass
  · exact h.after_streamCut.after_endHalf.after_endEntry
  · exact h.after_streamCut.after_endHalf.after_endEntry
  · exact h.after_streamCut.after_endEntry

theorem after_injSegs (h : MemOk s) {gs : List Seg} : MemOk (injSegs s gs) := h.foldl fun _ _ h => by
  split
  · exact h.after_injScratchAll
  · exact h

theorem after_freeWords (h : MemOk s) {n : Nat} : MemOk (freeWords s n).2 := by
  induction n generalizing s with
  | zero => exact h
  | succ n ih => exact ih h.after_freeValue

theorem after_attemptStep (h : MemOk s) {cluster : Nat} {e : EReq} {r : MmaReq} {p : PassInfo} {late : List LateBit}
    {ecc : Bool} :
    MemOk (attemptStep s cluster e r p late ecc) := by
  have hs := fun k => (h.after_streamCount (cluster := cluster) (r := r) (p := p) (d := streamClocks r)).modCluster (k := cluster) (f := k)
  unfold attemptStep
  refine ite (hs _).modCluster.after_rasCount ?_
  dsimp only
  exact ite ((hs _).after_injSegs.branch (·.after_setInj)).modCluster (hs _).after_injSegs.after_freeWords.modCluster

theorem after_execAttemptCheck (h : MemOk s) {cluster id : Nat} {late : List LateBit} {ecc : Bool} :
    OutOk (execAttemptCheck cluster id late ecc s) := by
  unfold execAttemptCheck
  split
  · exact h
  · split
    · exact OutOk.ite h h.after_attemptStep
    · exact h

theorem after_execPassComplete (h : MemOk s) {cluster id : Nat} {ecc : Bool} :
    OutOk (execPassComplete cluster id ecc s) := by
  unfold execPassComplete
  split
  · exact h
  · refine OutOk.ite h ?_
    split
    · exact OutOk.ite h.after_endPass.after_rasCount h.modCluster.after_endPass
    · exact h.after_endPass
    · exact h

theorem after_ueCount (h : MemOk s) {f : Option (Loc × Nat)} : MemOk (ueCount s f) := by
  unfold ueCount
  split
  · exact h.after_countSeg
  · exact h

theorem after_execWloadComplete (h : MemOk s) {cluster id : Nat} {why : Option AccFail} :
    OutOk (execWloadComplete cluster id why s) := by
  unfold execWloadComplete
  split
  · exact h
  · split
    · split
      · exact OutOk.ite h.after_injSegs.after_useSegs.after_endHalf.after_endEntry h
      · split
        · exact h.after_ueCount.after_failEntry
        · exact h
    · exact h

theorem after_execWdropComplete (h : MemOk s) {cluster id : Nat} : OutOk (execWdropComplete cluster id s) := by
  unfold execWdropComplete
  split
  · exact h
  · split
    · exact h.after_endHalf.after_endEntry
    · exact h

theorem after_storeSome (h : MemOk s) {dst : List Seg} {i : Nat} {bs : List Byte} : MemOk (storeSome s dst i bs) := by
  induction bs generalizing s i with
  | nil => exact h
  | cons b bs ih => exact ih (h.after_freeValue.branch (·.after_locSet))

theorem after_execTransferComplete (h : MemOk s) {cluster id : Nat} {why : Option AccFail} :
    OutOk (execTransferComplete cluster id why s) := by
  unfold execTransferComplete
  split
  · exact h
  · split
    · split
      · split
        · exact h.after_ueCount.after_failEntry
        · exact h.after_storeSome.after_ueCount.after_failEntry
        · exact h
      · refine OutOk.ite h ?_
        dsimp only
        split
        · exact h.after_injSegs.after_useSegs.modCluster.after_endEntry
        · exact h.after_segsWrite.after_useSegs.after_endEntry
        · exact h.modCluster.after_endEntry
        · exact h
    · exact h

theorem after_execMcancel (h : MemOk s) {c : Ctl} {a : Option Src} :
    OutOk (execMcancel c a s) :=
  h.after_forOut fun _ _ _ h => LaneOk.ite .trap (.retire (h.after_gcEvent.foldl fun _ _ h => h.after_failEntry))
theorem after_engineReset (h : MemOk s) {cluster : Nat} : MemOk (engineReset s cluster) :=
  foldl h.modCluster fun _ _ h => h.branch (·.modCore)

/-! ### Rails -/

theorem after_ownerCount (h : MemOk s) {k sel : Nat} : MemOk (ownerCount s k sel) := by
  unfold ownerCount
  split
  · exact h.after_telCount
  · exact h

theorem after_denyFloor (h : MemOk s) {k : Nat} : MemOk (denyFloor s k) :=
  h.modCluster.after_clusterCount.after_ownerCount
theorem after_writeVset (h : MemOk s) {cluster : Nat} {v : DWord} :
    MemOk (writeVset s cluster v) := ite h.setCluster (ite h.setCluster.after_denyFloor h.setCluster)
theorem after_writeFset (h : MemOk s) {cluster : Nat} {v : DWord} : MemOk (writeFset s cluster v) :=
  ite h.setCluster h.setCluster
theorem after_atRail (h : MemOk s) {cluster : Nat} (hf : MemOk s') : MemOk (atRail s cluster s') :=
  ite hf (ite (h.after_atHost h) h)
theorem after_execRcvsetWrite (h : MemOk s) {cluster : Nat} {v : DWord} : OutOk (execRcvsetWrite cluster v s) :=
  h.after_atRail h.after_writeVset
theorem after_execRcfsetWrite (h : MemOk s) {cluster : Nat} {v : DWord} : OutOk (execRcfsetWrite cluster v s) :=
  h.after_atRail h.after_writeFset
theorem after_execRailStep (h : MemOk s) {cluster : Nat} : OutOk (execRailStep cluster s) := h.modCluster
theorem after_execRailSettled (h : MemOk s) {cluster : Nat} : OutOk (execRailSettled cluster s) := h.modCluster
theorem after_execDividerChange (h : MemOk s) {cluster : Nat} : OutOk (execDividerChange cluster s) := h.modCluster

theorem after_takeSample (h : MemOk s) {cluster : Nat} : MemOk (takeSample s cluster) := by
  have hs := h.modCluster (k := cluster) (f := latchWindow s.clock) |>.after_ownerCount (k := cluster) (sel := 0xF)
  unfold takeSample
  dsimp only
  split
  · exact hs.modCluster.after_clusterCount
  · exact hs.modCluster.after_clusterCount
  · exact hs.after_denyFloor
  · exact hs.after_clusterCount
  · exact hs

theorem after_execControllerSample (h : MemOk s) {cluster : Nat} : OutOk (execControllerSample cluster s) :=
  h.branch (·.after_takeSample)
theorem after_samplesDue (h : MemOk s) {die : Nat} : MemOk (samplesDue s die) :=
  ite h (modDie (h.foldl fun _ _ h => h.branch (·.after_takeSample)))
theorem after_sampleClocks (h : MemOk s) : MemOk (sampleClocks s) := h.foldl fun _ _ h => h.after_samplesDue
theorem after_execSnapshotRefresh (h : MemOk s) {slice : Nat} : OutOk (execSnapshotRefresh slice s) := h.modDie
theorem after_snapClocks (h : MemOk s) : MemOk (snapClocks s) := h.setDies

end MemOk

end Sys2Proof.Machine
end


section
/-! PROOFS. The memories of the part stay canonical: synchronisation objects, publications and welts. -/

namespace Sys2Proof.Machine

set_option Elab.async false  -- theorem after theorem: every thread of a compile takes a stack of its own

namespace MemOk

variable {s s' : State}

/-! ### The check of a synchronisation object -/

theorem after_syncExtent (h : MemOk s) {c part idx : Nat} {x : Option (Nat × Nat) × State}
    (e : syncExtent s c part idx = some x) :
    MemOk x.2 := by
  unfold syncExtent at e
  split at e
  · cases e
  · next hc =>
    dsimp only at e
    split at e
    · exact of_some_snd e (h.after_capture hc)
    · exact of_some_snd e (h.after_capture hc)

theorem after_syncExtents (h : MemOk s) {c part : Nat} {is : List Nat} {x : Option (List (Nat × Nat)) × State}
    (e : syncExtents s c part is = some x) : MemOk x.2 := by
  induction is generalizing s x with
  | nil => exact of_some_snd e h
  | cons i is ih =>
    unfold syncExtents at e
    split at e
    · cases e
    · next hi => exact of_some_snd e (h.after_syncExtent hi)
    · next hi =>
      have hx := h.after_syncExtent hi
      dsimp only at hx
      split at e
      · cases e
      · next hs =>
        have hr := ih hx hs
        exact of_some_snd e hr
      · next hs =>
        have hr := ih hx hs
        exact of_some_snd e hr

theorem after_syncCheck (h : MemOk s) {s0 : State} {t : Nat} {needW : Bool} {obj : ObjSel} :
    AnswerOk (fun x => x.2) (syncCheck s0 s t needW obj) := by
  unfold syncCheck
  dsimp only
  split
  · exact .error .trap
  · next hc =>
    have hs := h.after_capture hc
    refine .ite (.error .trap) (.ite (.error .trap) (.ite (.error .trap) ?_))
    split
    · exact .error .trap
    · exact .error .trap
    · next he =>
      refine .ite (.error .trap) ?_
      split
      · exact .error .trap
      · exact .ok (hs.after_syncExtents he)

/-! ### Grants and releases -/

theorem after_grantLines (h : MemOk s) {c part : Nat} {xs : List (Nat × Nat)} :
    MemOk (grantLines s c part xs) := (h.foldl fun _ _ h => h.after_l1Drop).foldl fun _ _ h => h.after_dropCopy
theorem after_releaseLines (h : MemOk s) {c part : Nat} {xs : List (Nat × Nat)} :
    MemOk (releaseLines s c part xs) := h.foldl fun _ _ h => h.after_l1Flush
theorem after_addHold (h : MemOk s) {g key : Nat} {xs : List (Nat × Nat)} : MemOk (addHold s g key xs) := h.modGroup
theorem after_dropHold (h : MemOk s) {g key : Nat} : MemOk (dropHold s g key) := h.modGroup
theorem after_setWaiting (h : MemOk s) {die word : Nat} : MemOk (setWaiting s die word) := h.after_locWrite
theorem after_grantTo (h : MemOk s) {r : SyncReq} : MemOk (grantTo s r) :=
  h.after_locWrite.after_grantLines.after_addHold

theorem after_acqRetire (h : MemOk s) {t : Nat} {grp : Option Nat} : MemOk (acqRetire s t grp) := by
  unfold acqRetire
  split
  · exact h.after_writePred.after_retireWaiter
  · exact h

theorem after_grantLoop (h : MemOk s) {grp : Option Nat} {die word : Nat} {n : Nat} :
    MemOk (grantLoop s grp die word n) := by
  induction n generalizing s with
  | zero => exact h
  | succ n ih =>
    unfold grantLoop
    split
    · exact h
    · split
      · exact ih h.setSyncReg.after_grantTo.after_acqRetire
      · exact h

theorem after_tryDecided (h : MemOk s) {r : SyncReq} {ok : Bool} : MemOk (tryDecided s r ok) := h.modCore
theorem after_syncWithdraw (h : MemOk s) {ts : List Nat} {keepTry : Bool} : MemOk (syncWithdraw s ts keepTry) := by
  unfold syncWithdraw
  exact foldl h.frame fun _ _ h => h.after_setWaiting.after_grantLoop

theorem after_execAcq (h : MemOk s) {c : Ctl} {sh : Bool} {qd : Option PDst} {obj : ObjSel} :
    OutOk (execAcq c sh qd obj s) := h.after_forOut fun _ _ _ h => by
  split
  · next e => exact h.after_syncCheck.of_error e
  · next e =>
    have hs := h.after_syncCheck.of_ok e
    exact .done (setSyncFly (after_freshId hs)).modThread

theorem after_execTryacq (h : MemOk s) {c : Ctl} {sh : Bool} {qd : PDst} {obj : ObjSel} :
    OutOk (execTryacq c sh qd obj s) := h.after_forOut fun _ _ _ h => by
  split
  · next e => exact h.after_syncCheck.of_error e
  · next e =>
    have hs := h.after_syncCheck.of_ok e
    exact .retire (after_lateRes hs).modCore.after_freshId.setSyncFly

theorem after_lateFault (h : MemOk s) {core group launch part tid : Nat} {pc addr : DWord} {code detail : Nat} :
    MemOk (lateFault s core group launch part tid pc addr code detail) := h.after_freshId.after_sendRec

theorem after_execSyncRequestArrival (h : MemOk s) {id : Nat} : OutOk (execSyncRequestArrival id s) := by
  unfold execSyncRequestArrival
  split
  · exact h
  · refine OutOk.ite h (OutOk.ite ?_ (OutOk.ite ?_ ?_))
    · exact ite h.setSyncFly.after_tryDecided.after_lateFault h.setSyncFly.after_takeTrap
    · exact (h.setSyncFly.branch (·.after_grantTo)).after_tryDecided
    · exact h.setSyncFly.after_freshId.setSyncReg.after_setWaiting.after_grantLoop

theorem after_execRel (h : MemOk s) {c : Ctl} {obj : ObjSel} : OutOk (execRel c obj s) :=
  h.after_forOut fun _ _ _ h => by
  split
  · next e => exact h.after_syncCheck.of_error e
  · next e =>
    have hs := h.after_syncCheck.of_ok e
    exact LaneOk.ite (.hold (after_waitFinish hs)) (.retire (after_freshId hs).setRels)

theorem after_syncStateFault (h : MemOk s) {r : RelReq} : MemOk (syncStateFault s r) := h.after_lateFault

theorem after_execSyncReleasePerform (h : MemOk s) {id : Nat} : OutOk (execSyncReleasePerform id s) := by
  unfold execSyncReleasePerform
  split
  · exact h
  · refine OutOk.ite h (OutOk.ite h.setRels.after_lateFault (OutOk.ite h.setRels.after_releaseLines.after_syncStateFault ?_))
    exact h.setRels.after_releaseLines.after_locWrite.after_dropHold.after_grantLoop

theorem after_execPublish (h : MemOk s) {c : Ctl} {obj : ObjSel} : OutOk (execPublish c obj s) :=
  h.after_forOut fun _ _ _ h => by
  dsimp only
  split
  · exact .trap
  · next hc =>
    have hs := h.after_capture hc
    exact LaneOk.ite .trap (LaneOk.ite .trap (LaneOk.ite .trap (LaneOk.ite .trap
      (LaneOk.ite (.hold hs.after_waitFinish) (.retire hs.after_freshId.setPubs)))))

theorem after_execVersionIncrement (h : MemOk s) {id : Nat} : OutOk (execVersionIncrement id s) := by
  unfold execVersionIncrement
  split
  · exact h
  · refine OutOk.ite h ?_
    dsimp only
    split
    · exact h.setPubs.after_lateFault
    · exact h.modPart.storeHost.frame

/-! ### Welts -/

theorem after_closeRound (h : MemOk s) {key : Nat} {w : Welt} {code : Nat} : MemOk (closeRound s key w code) := by
  unfold closeRound
  dsimp only
  exact h.after_freshId.frame

theorem after_orphan (h : MemOk s) {key : Nat} {w : Welt} : MemOk (orphan s key w) := h.after_closeRound

theorem after_endRound (h : MemOk s) {r : Round} : MemOk (endRound s r) := by
  unfold endRound
  split
  · exact h
  · exact h.setWelts.modLaunch

theorem after_weltTake (h : MemOk s) {part tag rank size : Nat} {payload : List Byte} :
    MemOk (weltTake s part tag rank size payload).2 := by
  unfold weltTake
  dsimp only
  split
  · exact h
  · exact ite_snd h (ite_snd h (ite_snd h (ite_snd h.setWelts.after_closeRound h.setWelts)))

theorem after_execWeltArrival (h : MemOk s) {id : Nat} : OutOk (execWeltArrival id s) := by
  unfold execWeltArrival
  split
  · exact h
  · split
    · exact h
    · refine OutOk.ite h ?_
      dsimp only
      split
      · exact h.after_drawSegs.after_weltTake.setCopies.after_tagEnd
      · exact h.after_drawSegs.after_weltTake.setCopies

theorem after_deliverCore (h : MemOk s) {r : Round} {c : Nat} : MemOk (deliverCore s r c) :=
  ite h.after_locWrite.after_boContribute h.after_telCount
theorem after_failBarriers (h : MemOk s) {r : Round} {cores : List Nat} {code : Nat} :
    MemOk (failBarriers s r cores code) :=
  ite h.after_boContribute (h.foldl fun _ _ h => h.branch (·.after_boContribute))
theorem after_roundLeft (h : MemOk s) {id : Nat} {r : Round} {cores : List Nat} : MemOk (roundLeft s id r cores) :=
  h.setRounds
theorem after_countKept (h : MemOk s) {r : Round} {n : Nat} : MemOk (countKept s r n) :=
  ite h.after_rasCount h.after_rasCount

theorem after_execRoundDelivery (h : MemOk s) {id : Nat} {why : Option AccFail} :
    OutOk (execRoundDelivery id why s) := by
  unfold execRoundDelivery
  split
  · exact h
  · dsimp only
    split
    · split
      · split
        · exact h
        · exact after_endRound (h.setRounds.after_locWrite.branch (·.after_boContribute))
        · exact h.setRounds.after_endRound
      · split
        · exact h.after_roundLeft.after_deliverCore.branch (·.after_endRound)
        · exact ite h.setRounds.after_endRound h
    · exact OutOk.ite h.setRounds.after_countKept.after_failBarriers.after_asyncError.after_endRound h
    · refine OutOk.ite h.setRounds.after_failBarriers.after_asyncError.after_endRound (OutOk.ite ?_ h)
      exact h.after_roundLeft.after_failBarriers.after_asyncError.branch (·.after_endRound)
    · exact h

theorem after_forkTurn (h : MemOk s) {id : Nat} : MemOk (forkTurn s id) := h.setRounds

theorem after_execOrphanExpiry (h : MemOk s) {part tag : Nat} : OutOk (execOrphanExpiry part tag s) := by
  unfold execOrphanExpiry
  dsimp only
  split
  · exact h
  · exact OutOk.ite h.setWelts h

theorem after_weltExpire (h : MemOk s) {n : Nat} : MemOk (weltExpire s n) :=
  h.foldl fun _ _ h => h.branch (·.after_orphan)

theorem after_execWtalloc (h : MemOk s) {c : Ctl} {tryy : Bool} {d : Reg} {obj : ObjSel} {b : Reg} :
    OutOk (execWtalloc c tryy d obj b s) := h.after_forOut fun _ _ _ h => by
  dsimp only
  split
  · exact .trap
  · next hc =>
    have hs := h.after_capture hc
    refine LaneOk.ite .trap (LaneOk.ite .trap (LaneOk.ite .trap ?_))
    split
    · exact .trap
    · refine LaneOk.ite (.retire hs) ?_
      split
      · exact hs.setWelts.after_retireLate
      · exact LaneOk.ite hs.after_retireLate (.hold hs.after_waitRoom)

theorem after_execWsend (h : MemOk s) {c : Ctl} {a : Reg} {b : Src} {rank : Fin 8} {size : Fin 16} {ctag : Fin 64} :
    OutOk (execWsend c a b rank size ctag s) :=
  h.after_forOut fun _ _ _ h => LaneOk.ite .trap (LaneOk.ite .trap h.after_acceptCopy)

theorem after_execWtfree (h : MemOk s) {c : Ctl} {a : Reg} : OutOk (execWtfree c a s) :=
  h.after_forOut fun _ _ _ h => by
  split
  · exact .retire (ite h.setWelts h.after_orphan).after_wakeRoom
  · exact .retire h

theorem after_execWtquery (h : MemOk s) {c : Ctl} {d a : Reg} : OutOk (execWtquery c d a s) :=
  h.after_forOut fun _ _ _ h => h.after_retireLate

theorem after_execWtrenew (h : MemOk s) {c : Ctl} {a : Reg} {b : Src} : OutOk (execWtrenew c a b s) :=
  h.after_forOut fun _ _ _ h => by
  refine LaneOk.ite .trap ?_
  split
  · exact .retire h.setWelts
  · exact .retire h

end MemOk

end Sys2Proof.Machine
end


section
/-! PROOFS. The memories of the part stay canonical: graphs, work lists, spawned groups, diversion and the end of launches. -/

namespace Sys2Proof.Machine

set_option Elab.async false  -- theorem after theorem: every thread of a compile takes a stack of its own

theorem ctxOk_nil : CtxOk [] := fun _ hq => absurd hq List.not_mem_nil

namespace MemOk

variable {s s' : State}

/-! ### Queues and graphs -/

theorem after_queueStop (h : MemOk s) {k code : Nat} {addr : DWord} : MemOk (queueStop s k code addr) :=
  h.after_freshId.setQueue.after_emitRecord

theorem after_completionWrite (h : MemOk s) {k part : Nat} {p : DWord} {c : CompRec} :
    MemOk (completionWrite s k part p c) := by
  unfold completionWrite
  split
  · next e => exact h.after_qWrite e
  · exact h.after_queueStop

theorem after_newLaunch (h : MemOk s) {die part queue : Nat} {r : LRec} {inst : Option Nat} :
    MemOk (newLaunch s die part queue r inst).2 :=
  h.after_freshId.setLaunches (forall_tset (P := fun l : Launch => CtxOk l.ctx) h.after_freshId.launches ctxOk_nil _)

theorem after_modInst (h : MemOk s) {gi : Nat} {f : GInst → GInst} : MemOk (modInst s gi f) := h.setInsts
theorem after_modNode (h : MemOk s) {gi n : Nat} {f : GNode → GNode} : MemOk (modNode s gi n f) := h.after_modInst
theorem after_closeEdge (h : MemOk s) {gi i j : Nat} : MemOk (closeEdge s gi i j) := h.after_modNode

theorem after_closeEdges (h : MemOk s) {gi i : Nat} : MemOk (closeEdges s gi i) := by
  unfold closeEdges
  split
  · exact h
  · exact h.foldl fun _ _ h => h.after_closeEdge

theorem after_nodeScan (h : MemOk s) {gi n : Nat} : MemOk (nodeScan s gi n) := by
  unfold nodeScan
  split
  · exact h
  · split
    · exact h
    · exact ite h (ite h.after_newLaunch.after_modNode (ite h.after_completionWrite.after_modNode.after_closeEdges h))

theorem after_instEnd (h : MemOk s) {gi : Nat} : MemOk (instEnd s gi) := by
  unfold instEnd
  split
  · exact h
  · exact ite h.after_completionWrite.setInsts h

theorem after_graphSettle (h : MemOk s) {gi : Nat} : MemOk (graphSettle s gi) := by
  unfold graphSettle
  split
  · exact h
  · exact after_instEnd (h.foldl fun _ _ h => h.after_nodeScan)

theorem after_nodeEnd (h : MemOk s) {gi : Nat} {l : Launch} :
    MemOk (nodeEnd s gi l) := h.after_modNode.after_modInst.after_closeEdges.after_graphSettle

theorem after_addGroup (h : MemOk s) {lk : Nat} {l : Launch} {core turn grp size regs : Nat} {pc : DWord}
    {vs : List Word} :
    MemOk (addGroup s lk l core turn grp size regs pc vs) := by
  unfold addGroup
  dsimp only
  exact h.after_freshId.frame

theorem after_stageGroup (h : MemOk s) {lk : Nat} {l : Launch} {core grp : Nat} :
    MemOk (stageGroup s lk l core grp) := h.after_freshId.setGroups.modLaunch fun _ hl => hl.tset rfl

/-! ### Work lists -/

theorem after_awlTake (h : MemOk s) {t : Nat} {l : Launch} {uniform ok : Bool} : MemOk (awlTake s t l uniform ok) := by
  unfold awlTake
  dsimp only
  have hd : MemOk (if !ok then s else
      match l.r.awlRec, l.inst with
      | true, some gi => modNode (s.modLaunch (s.group (s.thread t).group).launch (fun l => { l with dispensed := l.dispensed + 1 })) gi l.r.node
          (fun n => { n with dispensed := n.dispensed + 1, recs := if l.r.det then n.recs else n.recs.drop 1 })
      | _, _ => s.modLaunch (s.group (s.thread t).group).launch (fun l => { l with dispensed := l.dispensed + 1 })) := by
    refine ite h ?_
    split
    · exact h.modLaunch.after_modNode
    · exact h.modLaunch
  exact ite (ite hd.modGroup hd.modGroup.modThread) hd

theorem after_execAwlnext (h : MemOk s) {c : Ctl} {d : Reg} {qe : PDst} : OutOk (execAwlnext c d qe s) :=
  h.after_forOut fun _ _ _ h => by
  dsimp only
  split
  · exact .retire h
  · refine LaneOk.ite .trap ?_
    split
    · exact .trap
    · exact .hold h.modThread
    · exact ((h.branch (·.after_awlTake)).branch (·.after_acquireAt)).after_retireLate

theorem after_execAwlpeek (h : MemOk s) {c : Ctl} {d : Reg} : OutOk (execAwlpeek c d s) :=
  h.after_forOut fun _ _ _ h => by
  split
  · exact LaneOk.ite .trap h.after_retireLate
  · exact h.after_retireLate

theorem after_emitEdge (h : MemOk s) {s0 : State} {t : Nat} {l : Launch} {obj : ObjSel} :
    AnswerOk (fun x => x.2.2.2) (emitEdge s0 s t l obj) := by
  unfold emitEdge
  dsimp only
  split
  · exact .error .trap
  · next hc =>
    have hs := h.after_capture hc
    refine .ite (.error .trap) (.ite (.error .trap) (.ite (.error .trap) ?_))
    split
    · exact .error .trap
    · split
      · exact .error .trap
      · exact .ite (.ok hs) (.error .trap)

/-- What EMIT answers once it is known whether the record was sent. -/
theorem after_sent (h : MemOk s) {t : Nat} {c : Ctl} {qd : Option PDst} {ok : Bool} : LaneOk (match qd with
    | some q => retireLate s t c true { preds := [(q.val, ok)] }
    | none => .retire s) := by
  cases qd with
  | some q => exact h.after_retireLate
  | none => exact .retire h

theorem after_execEmit (h : MemOk s) {c : Ctl} {qd : Option PDst} {obj : ObjSel} {b : Reg} :
    OutOk (execEmit c qd obj b s) := by
  refine h.after_forOut (LanesOk.gated (fun _ _ _ h => ?_) fun _ _ h => h.after_waitFinish)
  split
  · exact .trap
  · split
    · next e => exact h.after_emitEdge.of_error e
    · next e =>
      have hs := h.after_emitEdge.of_ok e
      refine LaneOk.ite .trap (LaneOk.ite (LaneOk.ite (after_sent hs) (.hold (after_waitRoom hs))) ?_)
      exact (after_releaseAt hs).after_freshId.setEmits.after_sent

theorem after_execEmitclose (h : MemOk s) {c : Ctl} {obj : ObjSel} : OutOk (execEmitclose c obj s) :=
  h.after_forOut fun _ _ _ h => by
  dsimp only
  split
  · exact .trap
  · split
    · next e => exact h.after_emitEdge.of_error e
    · next e =>
      have hs := h.after_emitEdge.of_ok e
      refine LaneOk.ite (.hold (after_waitFinish hs)) (.retire (after_graphSettle (after_closeEdge (modLaunch hs fun l hl => ?_))))
      split
      · exact hl
      · exact hl

theorem after_areaWrite (h : MemOk s) {gi n : Nat} {ws : List Word} : MemOk (areaWrite s gi n ws) := by
  unfold areaWrite
  split
  · exact h
  · split
    · exact h
    · dsimp only
      generalize hq : qWrite _ _ _ _ _ = q
      cases q with
      | none => exact h
      | some s' => exact h.after_qWrite hq

theorem after_execRecordEnqueue (h : MemOk s) {id : Nat} : OutOk (execRecordEnqueue id s) := by
  unfold execRecordEnqueue
  split
  · exact h
  · exact OutOk.ite h h.setEmits.after_areaWrite.after_modNode.after_graphSettle

theorem after_execSpawn (h : MemOk s) {c : Ctl} {wait : Bool} {gs : Fin 8} {d : VReg} {a : Reg} {imm : DWord} :
    OutOk (execSpawn c wait gs d a imm s) := h.after_forOut fun _ _ _ h => by
  dsimp only
  split
  · exact h.after_retireLate
  · refine LaneOk.ite .trap (LaneOk.ite .trap (LaneOk.ite h.after_retireLate ?_))
    split
    · exact LaneOk.ite (.hold h.after_waitRoom) h.after_retireLate
    · exact h.after_addGroup.modLaunch.after_retireLate

end MemOk

/-! ### LASTSEL -/

/-- What stops a scan: a lane that waits or traps, or an access that fails. -/
inductive StopOk : ScanStop → Prop where
  | hold {s : State} : StopOk (.lane (.hold s))
  | trap {code detail : Nat} {addr : DWord} {gpa : Nat} {w : Bool} : StopOk (.lane (.trap code detail addr gpa w))
  | read {loc : Loc} {p : DWord} {f : Nat × Nat × Bool} : StopOk (.read loc p f)

/-- What a scan that starts at `s` answers. -/
inductive ScanOk {α : Type} (s : State) : Except ScanStop (α × State) → Prop where
  | stop {x : ScanStop} (h : StopOk x) : ScanOk s (.error x)
  | ok {x : α} {s' : State} (h : MemOk s → MemOk s') : ScanOk s (.ok (x, s'))

namespace ScanOk

variable {α : Type} {s s' : State} {r : Except ScanStop (α × State)}

theorem ite {c : Prop} [Decidable c] {a b : Except ScanStop (α × State)} (ha : ScanOk s a) (hb : ScanOk s b) :
    ScanOk s (if c then a else b) := by
  split_ifs
  · exact ha
  · exact hb

theorem after {s₁ : State} (h : ScanOk s₁ r) (hs : MemOk s → MemOk s₁) : ScanOk s r := by
  cases h with
  | stop hx => exact .stop hx
  | ok hx => exact .ok fun h => hx (hs h)

theorem of_error {x : ScanStop} (h : ScanOk s r) (e : r = .error x) : StopOk x := by
  rw [e] at h
  cases h with
  | stop hx => exact hx

theorem of_ok {x : α × State} (h : ScanOk s r) (e : r = .ok x) (hs : MemOk s) : MemOk x.2 := by
  rw [e] at h
  cases h with
  | ok hx => exact hx hs

end ScanOk

theorem scanOk_loadRange {s : State} {t k n : Nat} {p : DWord} : ScanOk s (loadRange s t k p n) := by
  induction k generalizing s p n with
  | zero => exact .ok id
  | succ k ih =>
    unfold loadRange
    refine .ite (.ok id) ?_
    extract_lets co part step
    refine .ite (.stop .hold) ?_
    extract_lets
    split
    · exact .stop .trap
    · refine .ite (.stop .hold) ?_
      split
      · exact .stop .read
      · dsimp only
        split
        · next he => exact .stop (ih.of_error he)
        · next he => exact .ok fun h => ih.of_ok he h.after_ptrWalk.after_readNow

theorem scanOk_lastScan {s : State} {t left n : Nat} {base : DWord} {shape : List Word} :
    ScanOk s (lastScan s t base shape left n) := by
  induction left generalizing s n with
  | zero => exact .ok id
  | succ left ih =>
    unfold lastScan
    split
    · next he => exact .stop (scanOk_loadRange.of_error he)
    · next he =>
      exact .ite (.stop .trap) (.ite (.ok (scanOk_loadRange.of_ok he)) (ih.after (scanOk_loadRange.of_ok he)))

namespace MemOk

variable {s s' : State}

theorem after_execLastsel (h : MemOk s) {c : Ctl} {d : Reg} {qb : PDst} {obj : Option ObjSel} :
    OutOk (execLastsel c d qb obj s) := h.after_forOut fun _ t _ h => by
  dsimp only
  split
  · exact .retire h
  · split
    · exact .trap
    · next hc =>
      have h1 := h.after_capture hc
      split
      · exact .trap
      · exact .retire h1
      · refine LaneOk.ite .trap (LaneOk.ite (.hold h.after_waitAccesses) ?_)
        split
        · exact .hold h.after_waitAgain
        · next hx he =>
          cases scanOk_lastScan.of_error he with
          | hold => exact absurd rfl (hx _)
          | trap => exact .trap
        · exact h.after_readTrap
        · next he =>
          refine after_retireLate ?_
          split
          · next ht =>
            rw [if_pos ht] at he
            exact modGroup (scanOk_lastScan.of_ok he h1)
          · exact h

/-! ### Commits, idempotent regions and the end of a thread -/

theorem after_execCommit (h : MemOk s) {c : Ctl} {part : Bool} {a : Src} :
    OutOk (execCommit c part a s) :=
  h.after_forOut (LanesOk.gated (fun _ _ _ h => .retire h.after_releaseAt.modLaunch) fun _ _ h => h.after_waitFinish)

theorem after_execIdembeg (h : MemOk s) {c : Ctl} {f : BitVec 10} {n : Fin 64} : OutOk (execIdembeg c f n s) := by
  have hl : LanesOk (outward (fun s0 t s =>
      if (s0.group (s0.thread t).group).regs < f.toNat + n.val + 1 then .trapC 3
      else if !idemOk s0 t then .retire s
      else .done (s.modThread t (fun x => { x with run := .waiting (.idem f.toNat (n.val + 1)) })))) :=
    LanesOk.outward fun _ _ _ h => LaneOk.ite .trap (LaneOk.ite (.retire h) (.done h.modThread))
  have hr := h.after_runLanes (c := c) (us := []) hl
  unfold execIdembeg
  dsimp only
  split
  · exact hr
  · exact hr.after_idemSettle

theorem after_execIdemend (h : MemOk s) {c : Ctl} : OutOk (execIdemend c s) :=
  h.after_forOut fun _ _ _ h => .retire (h.branch (·.after_disarm))
theorem after_execRegionArmed (h : MemOk s) {group : Nat} : OutOk (execRegionArmed group s) := h.modGroup

theorem after_withdraw (h : MemOk s) {t : Nat} {keepTry : Bool} : MemOk (withdraw s t keepTry) := by
  unfold withdraw
  dsimp only
  split
  · exact h.after_syncWithdraw.modCluster
  · exact h.after_syncWithdraw

theorem after_exitThread (h : MemOk s) {t : Nat} : MemOk (exitThread s t) :=
  h.after_withdraw.modThread.modCore.after_genNext.after_disarm
theorem after_stopThread (h : MemOk s) {t : Nat} : MemOk (stopThread s t) := h.after_exitThread.modCore

theorem after_execWrapdone (h : MemOk s) {c : Ctl} : OutOk (execWrapdone c s) := by
  have hr := h.after_runLanes (c := c) (us := []) (f := fun _ t s =>
      if resultsWritten s t then .done (afterExit (endThread (retire s t) t) t) else .hold (waitFinish s t))
    fun _ _ _ h => LaneOk.ite (.done h.after_retire.after_endThread.after_afterExit) (.hold h.after_waitFinish)
  unfold execWrapdone
  dsimp only
  split
  · exact hr
  · exact hr.modLaunch.after_syncWithdraw.foldl fun _ _ h => h.after_exitThread

/-! ### Diversion and termination -/

theorem after_failRequests (h : MemOk s) {lk : Nat} {die : Option Nat} {code : Nat} {f : EReq → Bool} :
    MemOk (failRequests s lk die code f) := h.foldl fun _ _ h => h.branch (·.foldl fun _ _ h => h.after_failEntry)

theorem after_savedBo (h : MemOk s) {lk core part : Nat} {bo : DWord} {code : Nat} :
    MemOk (savedBo s lk core part bo code) := by
  refine ite (h.modLaunch fun l hl => ?_) h.after_boContribute
  dsimp only
  exact hl.tmod fun _ hx => Mem.wf_msets hx _ _

theorem after_savedFail (h : MemOk s) {lk cluster code : Nat} {e : EReq} : MemOk (savedFail s lk cluster code e) := by
  refine after_savedBo (h.modLaunch fun l hl => ?_)
  split
  · exact hl
  · exact hl

theorem after_failSaved (h : MemOk s) {lk : Nat} {l : Launch} {die code : Nat} :
    MemOk (failSaved s lk l die code) := h.foldl fun _ _ h => (h.foldl fun _ _ h => h.after_savedFail).modLaunch

theorem after_cutWait (h : MemOk s) {t : Nat} : MemOk (cutWait s t) := by
  unfold cutWait
  split
  · exact h.after_writeOpt
  · exact h.after_writePred
  · exact h.after_writePred
  · exact h.after_writePred
  · exact h

theorem after_divertThread (h : MemOk s) {l : Launch} {t : Nat} : MemOk (divertThread s l t) :=
  h.after_withdraw.modThread.branch (·.after_genNext)
theorem after_startSwap (h : MemOk s) {lk : Nat} {suspend : Bool} : MemOk (startSwap s lk suspend) :=
  h.modLaunch.setGroups

theorem wf_ite_scratch {c : Prop} [Decidable c] {x y : CoreCtx} (hx : x.scratch.wf = true) (hy : y.scratch.wf = true) :
    (if c then x else y).scratch.wf = true := by
  split_ifs
  · exact hx
  · exact hy

theorem after_divertDie (h : MemOk s) {lk : Nat} {l : Launch} {die : Nat} : MemOk (divertDie s lk l die) := by
  unfold divertDie
  extract_lets mine s1 s2 s3 s4 s5
  have h1 : MemOk s1 := by
    refine MemOk.frame (h.setCores (forall_tmap (P := fun x : Core => x.scratch.wf = true) h.cores fun _ x hx => ?_))
    split
    · exact hx
    · exact hx
  have h4 : MemOk s4 := h1.after_failRequests.after_failSaved.foldl fun _ _ h => h.branch (·.after_savedNext)
  have h5 : MemOk s5 := by
    refine h4.modLaunch fun _ hl => ?_
    dsimp only
    exact hl.tmap fun _ _ hx => wf_ite_scratch hx hx
  split
  · exact h5.branch (·.after_startSwap)
  · exact h5

theorem after_execDiversion (h : MemOk s) {die launch : Nat} : OutOk (execDiversion die launch s) := by
  unfold execDiversion
  split
  · exact h
  · refine OutOk.ite h ?_
    extract_lets s1 s2 ts
    have h1 : MemOk s1 := ite h h.after_divertDie
    have h2 : MemOk s2 := ite h1.setThreads h1
    exact foldl (after_syncWithdraw (h2.foldl fun _ _ h => h.after_cutWait)) fun _ _ h => h.after_divertThread

theorem after_failPosted (h : MemOk s) {lk die code : Nat} :
    MemOk (failPosted s lk die code) := h.foldl fun _ _ h => h.branch (·.foldl fun _ _ h => by
  dsimp only
  split
  · exact h.modCluster.after_failEntry
  · exact h.modCluster.after_endEntry)

theorem after_stopOnDie (h : MemOk s) {lk : Nat} {l : Launch} {die : Nat} : MemOk (stopOnDie s lk l die) := by
  refine modLaunch (foldl (after_failSaved (after_failRequests (foldl (after_syncWithdraw h.after_failPosted) fun _ _ h => h.after_stopThread)))
    fun _ _ h => h.after_savedNext) fun _ hl => ?_
  dsimp only
  exact hl.tmap fun _ _ hx => wf_ite_scratch hx hx

theorem after_stopLaunch (h : MemOk s) {lk : Nat} : MemOk (stopLaunch s lk) := by
  unfold stopLaunch
  split
  · exact h
  · exact h.foldl fun _ _ h => h.after_stopOnDie

theorem after_cancelLaunch (h : MemOk s) {lk : Nat} : MemOk (cancelLaunch s lk) := h.after_stopLaunch.modLaunch

theorem after_execDeadlineTermination (h : MemOk s) {die launch : Nat} :
    OutOk (execDeadlineTermination die launch s) := by
  unfold execDeadlineTermination
  split
  · exact h
  · exact OutOk.ite h h.after_stopOnDie.modLaunch

end MemOk

end Sys2Proof.Machine
end


section
/-! PROOFS. The memories of the part stay canonical: replays, handlers of parked threads, and swaps. -/

namespace Sys2Proof.Machine

set_option Elab.async false  -- theorem after theorem: every thread of a compile takes a stack of its own

namespace MemOk

variable {s s' : State}

theorem foldl_fst {α β : Type} {f : State × α → β → State × α} {l : List β} {p : State × α} (h : MemOk p.1)
    (hf : ∀ p x, MemOk p.1 → MemOk (f p x).1) : MemOk (l.foldl f p).1 := by
  induction l generalizing p with
  | nil => exact h
  | cons x l ih => exact ih (hf p x h)

/-! ### Replays -/

theorem after_genSettle (h : MemOk s) {t : Nat} : MemOk (genSettle s t) := ite h h.after_genNext
theorem after_unpark (h : MemOk s) {t : Nat} : MemOk (unpark s t) := h.modThread.after_genSettle

theorem after_replayEntry (h : MemOk s) {c : Nat} {l : LogEntry} : MemOk (replayEntry s c l).1 := by
  have h1 := fun q => h.after_ptrWalk (c := c) (part := q) (p := l.e.acc.ptr)
  unfold replayEntry
  extract_lets e part s1 again
  have ha (f : AFail) : MemOk (again f).1 := (h1 _).after_freshId.modCore.after_countUe.after_setLastRec.after_sendRec
  split
  · exact ha _
  · split
    · exact ha _
    · exact (h1 _).after_performAcc.modCore.after_writeResult

theorem after_replayThread (h : MemOk s) {t : Nat} : MemOk (replayThread s t).1 := by
  unfold replayThread
  dsimp only
  have hf := h.foldl_fst (p := (s, 0)) (l := (loggedOf s t).filter (·.inLog))
    (f := fun p e => ((replayEntry p.1 (coreOfThread t) e).1, p.2 + (replayEntry p.1 (coreOfThread t) e).2.toNat))
    fun _ _ h => h.after_replayEntry
  exact ite (after_unpark hf) (after_genSettle hf)

theorem after_replayStore (h : MemOk s) {c : Nat} {e : StoreEntry} : MemOk (replayStore s c e).1 := by
  unfold replayStore
  extract_lets part s1 again
  have h1 : MemOk s1 := by
    unfold s1
    split
    · exact h
    · exact h.after_ptrWalk
  have ha (f : AFail) : MemOk (again f).1 := h1.after_freshId.after_countUe.after_sendRec
  split
  · exact ha _
  · split
    · exact ha _
    · exact h1.modCore.branch (·.after_storeAt)

theorem after_replaySaved (h : MemOk s) {lk t : Nat} : MemOk (replaySaved s lk t).1 := by
  refine h.modLaunch fun l hl => ?_
  dsimp only
  exact hl.tmod

theorem after_replay (h : MemOk s) {part : Nat} {hd : Word} : MemOk (replay s part hd).1 := by
  unfold replay
  split
  · exact h
  · exact ite_fst h.modCore h.after_replayThread
  · exact h.after_replaySaved
  · exact h.after_replayStore

theorem lanesOk_privileged {f : State → Nat → State → Lane} (hf : LanesOk f) : LanesOk (privileged f) :=
  fun s0 t s h => LaneOk.ite (hf s0 t s h) .trap

theorem after_execReplay (h : MemOk s) {c : Ctl} {d a : Reg} : OutOk (execReplay c d a s) :=
  h.after_forOut (lanesOk_privileged fun _ _ _ h => by
  refine LaneOk.ite (.hold h.after_waitAgain) ?_
  dsimp only
  exact h.after_replay.after_retireLate)

/-! ### Handlers -/

theorem after_killBy (h : MemOk s) {lk : Nat} {th : Thread} : MemOk (killBy s lk th) := by
  unfold killBy
  dsimp only
  split
  · exact ite h.after_cancelLaunch h.after_cancelLaunch.modLaunch
  · exact h.after_cancelLaunch

theorem after_resumeThread (h : MemOk s) {t : Nat} {act : TrapAct} {disc : Bool} {b : DWord} {mask : Nat} :
    MemOk (resumeThread s t act disc b mask) :=
  MemOk.after_unpark (MemOk.modThread ((h.branch (·.modCore)).foldl fun _ _ h => h.after_leaveInst))

theorem after_resumeSaved (h : MemOk s) {lk t : Nat} {act : TrapAct} {disc : Bool} {b : DWord} {mask : Nat} :
    MemOk (resumeSaved s lk t act disc b mask) := by
  unfold resumeSaved
  extract_lets s1 logged
  have h1 : MemOk s1 := by
    refine h.modLaunch fun l hl => ?_
    dsimp only
    exact hl.tmod
  exact ite h1 h1.after_savedNext

theorem after_trapAct (h : MemOk s) {part : Nat} {hd : Word} {act : TrapAct} {disc : Bool} {b : DWord} {mask : Nat}
    {x : State × Bool}
    (e : trapAct s part hd act disc b mask = some x) : MemOk x.1 := by
  unfold trapAct at e
  split at e
  · dsimp only at e
    split at e
    · exact of_some_fst e h
    · split at e
      · exact of_some_fst e h.after_killBy
      · split at e
        · cases e
        · exact of_some_fst e h.after_resumeThread
  · dsimp only at e
    split at e
    · exact of_some_fst e h
    · split at e
      · exact of_some_fst e h.after_killBy
      · split at e
        · cases e
        · exact of_some_fst e h.after_resumeSaved
  · exact of_some_fst e h

theorem after_execTrapret (h : MemOk s) {c : Ctl} {act : TrapAct} {disc : Bool} {a b : Reg} {m : Src} :
    OutOk (execTrapret c act disc a b m s) := h.after_forOut (lanesOk_privileged fun _ _ _ h => by
  refine LaneOk.ite (.done h) ?_
  dsimp only
  split
  · exact .trap
  · next e =>
    have hs := h.after_trapAct e
    exact LaneOk.ite (.done hs) (.retire hs))

theorem after_recWords (h : MemOk s) {f : FRec} : MemOk (recWords s f).2 := by
  unfold recWords
  split
  · exact h
  · exact h.after_freeValue

theorem after_parkQuad (h : MemOk s) {part : Nat} {hd : Word} {sel : ParkSel} {n : Nat} {x : List Word × State}
    (e : parkQuad s part hd sel n = some x) : MemOk x.2 := by
  unfold parkQuad at e
  extract_lets fixed at e
  split at e
  · cases e
  · split at e
    · exact of_some_snd e h
    · split at e
      · split at e
        · exact of_some_snd e h.after_recWords
        · exact of_some_snd e h
      · split at e
        · exact of_some_snd e h
        · cases e
      · exact of_some_snd e h
      · split at e
        · exact of_some_snd e h
        · exact of_some_snd e h

theorem after_execParkrd (h : MemOk s) {c : Ctl} {sel : ParkSel} {d : VReg} {a : Reg} {n : Src} :
    OutOk (execParkrd c sel d a n s) := h.after_forOut (lanesOk_privileged fun _ _ _ h => by
  dsimp only
  split
  · exact .trap
  · next e => exact after_retireLate (h.after_parkQuad e))

theorem after_execOplog (h : MemOk s) {c : Ctl} {d : VReg} {a : Reg} {n : Src} :
    OutOk (execOplog c d a n s) :=
  h.after_forOut (lanesOk_privileged fun _ _ _ h => LaneOk.ite .trap h.after_retireLate)

theorem after_resumeDone (h : MemOk s) {part : Nat} {handle : Word} {secure : Bool} {w : Word} :
    MemOk (resumeDone s part handle secure w) := ite h.setDies h.modPart

theorem after_execResumeReplay (h : MemOk s) {part : Nat} {handle : Word} {secure : Bool} :
    OutOk (execResumeReplay part handle secure s) := by
  unfold execResumeReplay
  refine OutOk.ite h ?_
  dsimp only
  exact h.after_replay.after_resumeDone

theorem after_resumeBy (h : MemOk s) {act : TrapAct} {part : Nat} {handle : Word} {secure : Bool} :
    MemOk (resumeBy act part handle secure s) := by
  unfold resumeBy
  split
  · next e => exact after_resumeDone (h.after_trapAct e)
  · exact h

theorem after_execResumeRetry (h : MemOk s) {part : Nat} {handle : Word} {secure : Bool} :
    OutOk (execResumeRetry part handle secure s) := h.after_resumeBy
theorem after_execResumeSkip (h : MemOk s) {part : Nat} {handle : Word} {secure : Bool} :
    OutOk (execResumeSkip part handle secure s) := h.after_resumeBy
theorem after_execResumeKill (h : MemOk s) {part : Nat} {handle : Word} {secure : Bool} :
    OutOk (execResumeKill part handle secure s) := h.after_resumeBy

/-! ### Swaps -/

theorem after_swapDone (h : MemOk s) {lk : Nat} : MemOk (swapDone s lk) := by
  unfold swapDone
  split
  · exact h
  · exact h.branch (·.modLaunch)

theorem after_requestSwap (h : MemOk s) {lk : Nat} {suspend : Bool} : MemOk (requestSwap s lk suspend) := by
  unfold requestSwap
  split
  · exact h
  · exact ite h (ite h.modLaunch (ite h h.after_startSwap.after_swapDone))

theorem after_exchangeOut (h : MemOk s) {c : Nat} {out : List (Nat × Group)} :
    MemOk (exchangeOut s c out) :=
  modCore (foldl (h.foldl fun _ _ h => h.foldl fun _ _ h => h.after_withdraw) fun _ _ h => h.modGroup)

theorem after_engineTo (h : MemOk s) {k : Nat} : MemOk (engineTo s k) := by
  unfold engineTo
  refine ite h ?_
  split
  · exact h
  · split
    · exact h.modCluster
    · exact (h.modCluster.foldl fun _ _ h => ite h h.modCore).modLaunch

theorem after_saveEngine (h : MemOk s) {k lk : Nat} : MemOk (saveEngine s k lk) :=
  h.branch (·.modLaunch.after_engineReset.after_engineTo)

theorem wf_savedCtx (h : MemOk s) {c : Nat} {out : List (Nat × Group)} : (savedCtx s c out).scratch.wf = true := by
  unfold savedCtx
  dsimp only
  split
  · rfl
  · exact h.core c

theorem after_leaveCore (h : MemOk s) {c : Nat} {out : List (Nat × Group)} : MemOk (leaveCore s c out) := by
  unfold leaveCore
  split
  · exact h
  · extract_lets s1 ctx mine s2 s3 s4
    have h1 : MemOk s1 := h.after_syncWithdraw
    have h4 : MemOk s4 := (h1.after_exchangeOut.setThreads).modCore fun _ _ => rfl
    refine after_saveEngine (h4.modLaunch fun l hl => ?_)
    dsimp only
    exact hl.tset h1.wf_savedCtx

theorem after_spill (h : MemOk s) {out : List (Nat × Group)} : MemOk (spill s out) := by
  unfold spill
  split
  · exact h
  · exact after_swapDone (h.foldl fun _ _ h => h.modGroup)

theorem after_replayRestored (h : MemOk s) {c : Nat} :
    MemOk (replayRestored s c) :=
  (h.foldl fun _ _ h => h.after_replayEntry).foldl fun _ _ h => ite h.after_unpark h.after_genSettle

theorem after_takeWays (h : MemOk s) {c n : Nat} {m : Mem} (hm : m.wf = true) : MemOk (takeWays s c n m) :=
  h.after_l1FlushAll.modCore fun _ _ => hm

theorem after_loadCtx (h : MemOk s) {c part : Nat} {x : CoreCtx} (hx : x.scratch.wf = true) :
    MemOk (loadCtx s c part x) := by
  refine (h.after_takeWays hx).setThreads.modCore fun y hy => ?_
  dsimp only
  split
  · exact hy
  · exact hy

theorem after_restoreFails (h : MemOk s) {lk : Nat} {l : Launch} {c : Nat} :
    MemOk (restoreFails s lk l c) := ((h.branch (·.after_countUeAt)).foldl fun _ _ h => h.after_stopOnDie).modLaunch

theorem after_exchangeIn (h : MemOk s) {c : Nat} {inc : List (Nat × Group)} : MemOk (exchangeIn s c inc) := by
  unfold exchangeIn
  split
  · exact h
  · dsimp only
    split
    · exact h
    · next hl =>
      split
      · exact h
      · next hx =>
        have hc := tfind_forall (P := fun x : CoreCtx => x.scratch.wf = true) (h.launch hl) hx
        refine ite h.after_restoreFails (after_replayRestored (after_engineTo (foldl (foldl ((h.after_loadCtx hc).modLaunch fun l hl => ?_)
          fun _ _ h => h.modGroup) fun _ _ h => h.foldl fun _ _ h => h.after_barSettle)))
        dsimp only
        exact hl.tdel

theorem after_execBankExchange (h : MemOk s) {core : Nat} : OutOk (execBankExchange core s) :=
  OutOk.ite h h.after_leaveCore.after_exchangeIn
theorem after_execSpillFill (h : MemOk s) {core : Nat} : OutOk (execSpillFill core s) :=
  ite h.after_fillWay h.after_spill
theorem after_passToken (h : MemOk s) {lk : Nat} {l : Launch} : MemOk (passToken s lk l) := h.modLaunch.setThreads

theorem after_execQuantumEnd (h : MemOk s) {launch : Nat} : OutOk (execQuantumEnd launch s) := by
  unfold execQuantumEnd
  split
  · exact h
  · refine OutOk.ite h ?_
    dsimp only
    split
    · exact h.after_passToken
    · exact h.after_passToken.after_startSwap.after_swapDone

end MemOk

end Sys2Proof.Machine
end


section
/-! PROOFS. The memories of the part stay canonical: queues, packets, and the scheduler. -/

namespace Sys2Proof.Machine

set_option Elab.async false  -- theorem after theorem: every thread of a compile takes a stack of its own

namespace MemOk

variable {s s' : State}

/-! ### Queues and packets -/

theorem after_advance (h : MemOk s) {k : Nat} : MemOk (advance s k) := h.modQueue
theorem after_takePacket (h : MemOk s) {k : Nat} {bs : List Byte} {ring : Bool} :
    MemOk (takePacket s k bs ring) := ite h.modQueue.after_queueStop (h.modQueue.branch (·.modQueue))

theorem after_readCount (h : MemOk s) {k : Nat} {p : DWord} {why : Option AccFail} : MemOk (readCount s k p why) := by
  unfold readCount
  split
  · exact h.after_countUeAt
  · exact h

theorem after_turnTaken (h : MemOk s) {k : Nat} : MemOk (turnTaken s k) := h.modDie

theorem after_execPacketFetch (h : MemOk s) {queue : Nat} {why : Option AccFail} {capFault : Bool} :
    OutOk (execPacketFetch queue why capFault s) := by
  have ht := h.after_turnTaken (k := queue)
  unfold execPacketFetch
  refine OutOk.ite h.after_queueStop (OutOk.ite h ?_)
  dsimp only
  split
  · exact OutOk.ite ht.after_queueStop ht.modQueue.after_takePacket
  · refine OutOk.ite ht.after_queueStop (OutOk.ite ht.after_readCount.after_queueStop ?_)
    split
    · exact ht.after_queueStop
    · exact OutOk.ite h (OutOk.ite ht.after_queueStop ht.after_takePacket)

theorem after_execSlotPollTimeout (h : MemOk s) {queue : Nat} : OutOk (execSlotPollTimeout queue s) := by
  unfold execSlotPollTimeout
  refine OutOk.ite h ?_
  split
  · exact OutOk.ite h h.modQueue
  · exact h

theorem after_execTornRepoll (h : MemOk s) {queue : Nat} : OutOk (execTornRepoll queue s) := by
  unfold execTornRepoll
  refine OutOk.ite h ?_
  split
  · exact OutOk.ite h (OutOk.ite h.modQueue h.modQueue.after_queueStop)
  · exact h

theorem after_refuse (h : MemOk s) {k : Nat} {p : DWord} {seq detail : Nat} : MemOk (refuse s k p seq detail) := by
  unfold refuse
  dsimp only
  split
  · next e => exact (h.after_qWrite e).after_advance
  · exact h.after_queueStop

theorem after_execLaunch (h : MemOk s) {queue : Nat} {why : Option AccFail} : OutOk (execLaunch queue why s) := by
  unfold execLaunch
  refine OutOk.ite h ?_
  extract_lets die bytes s1
  have h1 : MemOk s1 := ite h.after_readCount h
  clear_value s1 bytes
  split
  · exact OutOk.ite h1.after_queueStop h1.after_refuse
  · exact OutOk.ite h1.after_refuse h1.after_newLaunch.after_advance

theorem after_execWait (h : MemOk s) {queue : Nat} : OutOk (execWait queue s) :=
  OutOk.ite h (OutOk.ite h.after_queueStop h.modQueue)

theorem after_execWaitPoll (h : MemOk s) {queue : Nat} {why : Option AccFail} : OutOk (execWaitPoll queue why s) := by
  unfold execWaitPoll
  refine OutOk.ite h (OutOk.ite h.after_readCount.after_queueStop ?_)
  split
  · exact h.after_queueStop
  · exact h.branch (·.after_advance)

theorem after_execHeldRelease (h : MemOk s) {queue : Nat} :
    OutOk (execHeldRelease queue s) := OutOk.ite h (OutOk.ite (h.branch (·.after_advance)) (h.branch (·.modQueue)))

theorem after_execSignal (h : MemOk s) {queue : Nat} {why : Option AccFail} : OutOk (execSignal queue why s) := by
  unfold execSignal
  refine OutOk.ite h ?_
  extract_lets die v stop new
  have hs : OutOk stop := h.after_readCount.after_queueStop
  refine OutOk.ite hs ?_
  clear_value new
  split
  · exact hs
  · split
    · next e => exact (h.after_qWrite e).after_advance
    · exact hs

theorem after_execXfer (h : MemOk s) {queue : Nat} : OutOk (execXfer queue s) := OutOk.ite h h.modQueue

theorem after_xferCopy (h : MemOk s) {part die : Nat} {alloc : Bool} {k n : Nat} {src dst : DWord} :
    MemOk (xferCopy s part die alloc k src dst n).1 := by
  induction k generalizing s src dst n with
  | zero => exact h
  | succ k ih =>
    unfold xferCopy
    refine ite_fst h ?_
    dsimp only
    split
    · exact ih h.after_segUse.after_segUse.after_locWrite
    · exact h
    · exact h
    · exact h
    · exact h

theorem after_execXferComplete (h : MemOk s) {queue : Nat} {why : Option AccFail} :
    OutOk (execXferComplete queue why s) := by
  unfold execXferComplete
  refine OutOk.ite h ?_
  dsimp only
  refine OutOk.ite h.after_freeValue.after_readCount.after_xferCopy.after_queueStop ?_
  exact ite h.after_xferCopy.after_advance h.after_xferCopy.after_queueStop

theorem after_dropInstr (h : MemOk s) {gs : List Seg} : MemOk (dropInstr s gs) := by
  unfold dropInstr
  refine frame (h.setCores (forall_tmap (P := fun x : Core => x.scratch.wf = true) h.cores fun _ _ hx => ?_))
  exact hx

theorem after_execModload (h : MemOk s) {queue : Nat} {why : Option AccFail} : OutOk (execModload queue why s) := by
  unfold execModload
  refine OutOk.ite h ?_
  dsimp only
  refine OutOk.ite h.after_queueStop (OutOk.ite h (OutOk.ite h.after_readCount.after_queueStop ?_))
  exact OutOk.ite h.after_xferCopy.after_queueStop h.after_xferCopy.after_dropInstr.modPart.after_advance

theorem after_execModdrop (h : MemOk s) {queue : Nat} : OutOk (execModdrop queue s) := OutOk.ite h h.modPart.modQueue

theorem after_execModdropComplete (h : MemOk s) {queue : Nat} : OutOk (execModdropComplete queue s) := by
  unfold execModdropComplete
  dsimp only
  split
  · exact h
  · exact OutOk.ite h h.after_dropInstr.after_advance

theorem after_execGraph (h : MemOk s) {queue : Nat} {why : Option AccFail} : OutOk (execGraph queue why s) := by
  unfold execGraph
  refine OutOk.ite h ?_
  dsimp only
  refine OutOk.ite h.after_readCount.after_refuse ?_
  split
  · exact h.after_refuse
  · split
    · exact h.after_refuse
    · exact h.after_freshId.setInsts.after_advance.after_graphSettle

theorem after_preempt (h : MemOk s) {k action : Nat} {f : State → Nat → Launch → State}
    (hf : ∀ lk l, MemOk (f s lk l)) :
    OutOk (preempt s k action f) := by
  unfold preempt
  refine OutOk.ite h (after_advance ?_)
  split
  · exact hf _ _
  · exact h

theorem after_execPreemptRequeue (h : MemOk s) {queue : Nat} :
    OutOk (execPreemptRequeue queue s) := h.after_preempt fun _ _ => ite h h.after_requestSwap

theorem after_execPreemptSuspend (h : MemOk s) {queue : Nat} : OutOk (execPreemptSuspend queue s) :=
  h.after_preempt fun _ _ => by
  split
  · exact h.modLaunch
  · exact h.modLaunch
  · exact ite h.modLaunch (ite h h.after_requestSwap)

theorem after_execPreemptResume (h : MemOk s) {queue : Nat} : OutOk (execPreemptResume queue s) :=
  h.after_preempt fun _ _ => by
  split
  · exact h.modLaunch
  · exact h.modLaunch
  · exact h

theorem after_execPreemptCancel (h : MemOk s) {queue : Nat} : OutOk (execPreemptCancel queue s) :=
  h.after_preempt fun _ _ => h.after_cancelLaunch

/-! ### Registers of the queues -/

theorem after_storePacket (h : MemOk s) {k : Nat} {bs : List Byte} : MemOk (storePacket s k bs) :=
  ite h.modQueue h.modQueue.after_telCount
theorem after_execLaunchRegisterStore (h : MemOk s) {queue : Nat} {bytes : List Byte} :
    OutOk (execLaunchRegisterStore queue bytes s) :=
  OutOk.ite (h.after_atHost h) (OutOk.ite h.after_telCount (OutOk.ite h.modQueue h.after_storePacket))
theorem after_qcfgSet (h : MemOk s) {k : Nat} {v : DWord} : MemOk (qcfgSet s k v) :=
  ite h (ite h.setQueue h.setQueue.after_queueStop)
theorem after_qcfgClear (h : MemOk s) {k : Nat} {v : DWord} : MemOk (qcfgClear s k v) := ite h h.setQueue
theorem after_queueGo (h : MemOk s) {k : Nat} {skip : Bool} : MemOk (queueGo s k skip) := h.modQueue
theorem after_queueWrite (h : MemOk s) {pf : Bool} {k off : Nat} {v : DWord} : MemOk (queueWrite s pf k off v) :=
  ite (ite h (ite h.setQueue (ite h.after_qcfgClear h.after_qcfgSet)))
    (ite h.setQueue (ite (ite h.after_queueGo (h.branch (·.after_queueGo))) h))
theorem setAgenda (h : MemOk s) {x : List Act} : MemOk { s with agenda := x } := h.frame
theorem after_blockWrite (h : MemOk s) {pf : Bool} {k off : Nat} {v : DWord} :
    MemOk (blockWrite s pf k off v) :=
  ite (h.after_atHost h) (ite h.after_telCount (ite h.setAgenda h.after_queueWrite))
theorem after_execQcfgEnSet (h : MemOk s) {queue : Nat} {v : DWord} : OutOk (execQcfgEnSet queue v s) :=
  ite h h.after_blockWrite
theorem after_execQcfgEnClear (h : MemOk s) {queue : Nat} {v : DWord} : OutOk (execQcfgEnClear queue v s) :=
  ite h h.after_blockWrite
theorem after_execQctlResume (h : MemOk s) {queue : Nat} : OutOk (execQctlResume queue s) := h.after_blockWrite
theorem after_execQctlSkip (h : MemOk s) {queue : Nat} : OutOk (execQctlSkip queue s) := h.after_blockWrite

/-! ### The scheduler -/

theorem after_divertPast (h : MemOk s) {lk die : Nat} : MemOk (divertPast s lk die) := by
  unfold divertPast
  split
  · exact h
  · exact h.branch (·.after_divertDie)

theorem after_firmwareBlock (h : MemOk s) {unit : Nat} : MemOk (firmwareBlock s unit).2 := h.after_freeValue
theorem after_saveArea (h : MemOk s) {lk c : Nat} : MemOk (saveArea lk s c) := by
  unfold saveArea
  dsimp only
  exact h.after_firmwareBlock.modLaunch


theorem after_place (h : MemOk s) {lk : Nat} {l : Launch} {cores : List Nat} : MemOk (place s lk l cores) := by
  have hs := foldl (l := cores) (h.foldl (l := cores.zipIdx) fun _ p h => h.after_stageGroup (lk := lk) (l := l) (core := p.1) (grp := p.2))
    fun _ c h => h.after_saveArea (lk := lk) (c := c)
  unfold place
  refine foldl (foldl (modLaunch (ite h.setGroups (modLaunch ?_))) fun _ _ h => h.after_engineTo) fun _ _ h => h.after_divertPast
  split
  · exact hs.after_modInst
  · exact hs

theorem after_decideOne (h : MemOk s) {part : Nat} {taken : List Nat} {lk : Nat} {l : Launch} {x : State × List Nat}
    (e : decideOne s part taken lk l = some x) :
    MemOk x.1 := by
  unfold decideOne at e
  split at e
  · exact of_some_fst e h.after_stopLaunch.modLaunch
  · split at e
    · exact of_some_fst e h.after_place
    · dsimp only at e
      split at e
      · cases e
      · split at e
        · exact of_some_fst e h.after_place
        · exact of_some_fst e (h.foldl fun _ _ h => h.after_requestSwap)

theorem after_decideAll (h : MemOk s) {part : Nat} {taken lks : List Nat} : MemOk (decideAll part s taken lks) := by
  induction lks generalizing s taken with
  | nil => exact h
  | cons lk lks ih =>
    unfold decideAll
    split
    · exact ih h
    · split
      · exact h
      · next e => exact ih (h.after_decideOne e)

theorem after_execSchedulerDecision (h : MemOk s) {die part : Nat} : OutOk (execSchedulerDecision die part s) :=
  h.branch (·.after_decideAll)

/-! ### The end of a launch -/

theorem after_dropHeld (h : MemOk s) {lk : Nat} : MemOk (dropHeld s lk) :=
  h.foldl fun _ _ h => h.foldl fun _ _ h => h.after_dropStore
theorem after_freeTags (h : MemOk s) {lk : Nat} : MemOk (freeTags s lk) := h.setWelts.modLaunch
theorem after_releaseUnits (h : MemOk s) {lk : Nat} {l : Launch} : MemOk (releaseUnits s lk l) := by
  unfold releaseUnits
  extract_lets s1 gs s2
  have h1 : MemOk s1 := h.foldl fun _ _ h => h.after_engineReset
  have h2 : MemOk s2 := h1.branch (·.foldl fun _ _ h => h.modCore)
  exact h2.frame

theorem after_releaseCores (h : MemOk s) {part : Nat} {cores : List Nat} :
    MemOk (releaseCores s part cores) := h.foldl fun _ _ h => h.after_l1FlushAll

theorem after_complete (h : MemOk s) {lk : Nat} {l : Launch} : MemOk (complete s lk l) := by
  unfold complete
  extract_lets s1 held s2 l1 s3 s4
  have h3 : MemOk s3 := h.after_releaseCores.modLaunch.after_dropHeld.after_freeTags.after_releaseUnits
  have h4 : MemOk s4 := h3.setLaunches (forall_tdel (P := fun l : Launch => CtxOk l.ctx) h3.launches _)
  split
  · exact h4.after_completionWrite
  · split
    · exact h4
    · exact h4.after_completionWrite.after_nodeEnd

theorem after_execLaunchCompletion (h : MemOk s) {launch : Nat} : OutOk (execLaunchCompletion launch s) := by
  unfold execLaunchCompletion
  split
  · exact h
  · exact OutOk.ite h (OutOk.ite h.after_complete (h.branch (·.modLaunch)))

end MemOk

end Sys2Proof.Machine
end


section
/-! PROOFS. The memories of the part stay canonical: the driver's registers, the mailbox, partitions, links and host accesses. -/

namespace Sys2Proof.Machine

set_option Elab.async false  -- theorem after theorem: every thread of a compile takes a stack of its own

/-- A write of the configuration of a partition that takes effect leaves the memories canonical. -/
inductive CfgOk : CfgWrite → Prop where
  | set {s : State} (h : MemOk s) : CfgOk (.set s)
  | notFree : CfgOk .notFree
  | refused : CfgOk .refused

theorem CfgOk.ite {c : Prop} [Decidable c] {a b : CfgWrite} (ha : CfgOk a) (hb : CfgOk b) :
    CfgOk (if c then a else b) := by
  split_ifs
  · exact ha
  · exact hb

theorem CfgOk.checked {c d : Prop} [Decidable c] [Decidable d] {s : State} (h : MemOk s) :
    CfgOk (if c then .notFree else if d then .refused else .set s) := .ite .notFree (.ite .refused (.set h))

namespace MemOk

variable {s s' : State}

/-! ### Registers of a partition -/

theorem after_ignoredWrite (h : MemOk s) {part die : Nat} : MemOk (ignoredWrite s part die) := h.after_telCount
theorem after_setBankRange (h : MemOk s) {part die first count : Nat} :
    MemOk (setBankRange s part die first count) := ite h h.after_bankUndefineAll.after_bankUndefineAll.modPart

theorem after_cfgWrite (h : MemOk s) {part off : Nat} {v : DWord} : CfgOk (cfgWrite s part off v) := by
  unfold cfgWrite
  exact .ite (.checked h.setPart) (.ite (.checked h.after_setBankRange) (.ite (.checked h.setPart) (.ite (.checked h.setPart)
    (.ite (.checked h.setPart) (.ite (.checked h.setPart) (.ite (.set h.setPart) (.set h)))))))

theorem after_configWrite (h : MemOk s) {part off : Nat} {v : DWord} : MemOk (configWrite s part off v) := by
  have hc := h.after_cfgWrite (part := part) (off := off) (v := v)
  unfold configWrite
  dsimp only
  generalize cfgWrite s part off v = r at hc
  cases hc with
  | set hs => exact hs
  | notFree => exact h.modPart.after_ignoredWrite
  | refused => exact h.modPart.after_ignoredWrite

theorem after_retryAll (h : MemOk s) {part : Nat} : MemOk (retryAll s part) := h.after_retryRecords
theorem after_writeTail (h : MemOk s) {part : Nat} {v : Word} : MemOk (writeTail s part v) :=
  ite h.setPart.after_retryAll h.after_ignoredWrite
theorem after_execFrtailWrite (h : MemOk s) {part : Nat} {v : Word} : OutOk (execFrtailWrite part v s) :=
  h.after_writeTail
theorem after_execS1inval (h : MemOk s) {part : Nat} {v : DWord} : OutOk (execS1inval part v s) := h.modPart

theorem after_dropTlb (h : MemOk s) {part lo hi : Nat} : MemOk (dropTlb s part lo hi) := by
  refine h.setCores (forall_tmap (P := fun x : Core => x.scratch.wf = true) h.cores fun _ _ hx => ?_)
  exact hx

theorem after_resumeWrite (h : MemOk s) {part : Nat} {v : DWord} : MemOk (resumeWrite s part v) := by
  unfold resumeWrite
  dsimp only
  split
  · exact h.after_replay.after_resumeDone
  · exact h.after_resumeBy
  · exact h.after_resumeBy
  · exact h.after_resumeBy

theorem after_winWrite (h : MemOk s) {part off : Nat} {v : DWord} : MemOk (winWrite s part off v) := h.modPart

theorem after_partWrite (h : MemOk s) {part off : Nat} {v : DWord} : MemOk (partWrite s part off v) := by
  unfold partWrite
  exact ite (ite h.after_ignoredWrite h.modPart.after_retryAll) (ite (ite h.after_ignoredWrite h.modPart.after_retryAll)
    (ite h.after_writeTail (ite h.after_resumeWrite (ite (ite h.after_ignoredWrite h.modPart) (ite h.modPart (h.branch (·.after_winWrite)))))))

theorem after_setHsteps (h : MemOk s) {die n : Nat} : MemOk (setHsteps s die n) :=
  h.modDie.after_bankUndefineAll.setParts
theorem after_bankcfg (h : MemOk s) {die : Nat} {v : DWord} : MemOk (bankcfg s die v) :=
  ite h.modDie (ite h.modDie h.after_setHsteps.modDie)
theorem after_execBankcfgWrite (h : MemOk s) {die : Nat} {v : DWord} : OutOk (execBankcfgWrite die v s) :=
  h.after_atHost h.after_bankcfg
theorem after_ualcfg (h : MemOk s) {die : Nat} {v : DWord} : MemOk (ualcfg s die v) := h.modDie
theorem after_execUalcfgRetrain (h : MemOk s) {die : Nat} {v : DWord} : OutOk (execUalcfgRetrain die v s) :=
  h.after_atHost h.after_ualcfg
theorem after_execUalcfgTakesEffect (h : MemOk s) {die : Nat} : OutOk (execUalcfgTakesEffect die s) := h.modDie
theorem after_htrainWrite (h : MemOk s) {k : Nat} {v : DWord} : MemOk (htrainWrite s k v) := ite h h.modStack
theorem after_execHtrain (h : MemOk s) {stack : Nat} {v : DWord} : OutOk (execHtrain stack v s) :=
  h.after_atHost h.after_htrainWrite
theorem after_execApertureGate (h : MemOk s) {part : Nat} : OutOk (execApertureGate part s) := h.branch (·.modPart)

theorem after_execApertureUngate (h : MemOk s) {part : Nat} : OutOk (execApertureUngate part s) :=
  OutOk.ite h (foldl h.modPart fun _ _ h => by
  split
  · exact h.branch (·.modQueue.after_storePacket)
  · exact h)

/-! ### Stage 2 tables -/

theorem after_firmwarePage (h : MemOk s) : MemOk (firmwarePage s).2 := by
  unfold firmwarePage
  dsimp only
  exact h.after_firmwareBlock.setFw

theorem after_putEntry (h : MemOk s) {a e : Nat} : MemOk (putEntry s a e) := h.storeHbm

theorem after_splitLeaf (h : MemOk s) {a e lvl : Nat} : MemOk (splitLeaf s a e lvl).2 := by
  unfold splitLeaf
  dsimp only
  exact after_putEntry (h.after_firmwarePage.foldl fun _ _ h => h.after_putEntry)

theorem after_s2Table (h : MemOk s) {gpa l t : Nat} {make : Bool} : MemOk (s2Table gpa make l s t).1 := by
  induction l generalizing s t with
  | zero => exact h
  | succ l ih =>
    unfold s2Table
    dsimp only
    exact ite_fst (ite_fst (ih h.after_splitLeaf) (ih h))
      (ite_fst (ih (after_putEntry (h.after_firmwarePage.setHbm (Mem.wf_mclear h.after_firmwarePage.hbm _ _)))) h)

theorem after_s2Pages (h : MemOk s) {part n gpa pa : Nat} {bits : Option Nat} :
    MemOk (s2Pages part bits n s gpa pa) := by
  induction n generalizing s gpa pa with
  | zero => exact h
  | succ n ih =>
    unfold s2Pages
    refine ih ?_
    split
    · next e => exact after_putEntry (fst h.after_s2Table e)
    · next e => exact fst h.after_s2Table e

/-! ### The mailbox -/

theorem after_mboxRespond (h : MemOk s) {die op seq part status : Nat} :
    MemOk (mboxRespond s die op seq part status) := by
  unfold mboxRespond
  dsimp only
  exact h.after_freeWords.modDie.setMsix

theorem after_mboxRequest (h : MemOk s) {die op seq part : Nat} {f : State → State × Option Nat}
    (hf : ∀ s, MemOk s → MemOk (f s).1) :
    MemOk (mboxRequest s die op seq part f) := by
  unfold mboxRequest
  refine ite (h.after_atHost h) (ite h.after_ignoredWrite ?_)
  have hs := hf _ (h.modDie (d := die) (f := fun d => { d with mboxOut := some (op, seq, part) }))
  dsimp only
  split
  · exact hs.after_mboxRespond
  · exact hs

theorem after_s2Paused (h : MemOk s) {die op seq part : Nat} {i : OutReq} {f : Out} (hf : OutOk f) :
    OutOk (s2Paused s die op seq part i f) :=
  OutOk.ite h.modDie.setFw hf

theorem after_execS2map (h : MemOk s) {die part seq gpa pa bytes : Nat} {r w x : Bool} :
    OutOk (execS2map die part seq gpa pa bytes r w x s) :=
  h.after_s2Paused (h.after_mboxRequest fun _ h => ite_fst h (ite_fst h h.setFw.after_s2Pages))
theorem after_execS2unmap (h : MemOk s) {die part seq gpa bytes : Nat} :
    OutOk (execS2unmap die part seq gpa bytes s) :=
  h.after_s2Paused (h.after_mboxRequest fun _ h => ite_fst h (modPart (ite h h.after_s2Pages)))
theorem after_execS2root (h : MemOk s) {die part seq pa : Nat} :
    OutOk (execS2root die part seq pa s) :=
  h.after_s2Paused (h.after_mboxRequest fun _ h => ite_fst h (ite_fst h h.modPart))

theorem after_answerUnmaps (h : MemOk s) {part : Nat} : MemOk (answerUnmaps s part) := h.foldl fun _ _ h => by
  split
  · exact h.branch (·.after_mboxRespond)
  · exact h

theorem after_execInvalidationComplete (h : MemOk s) {part : Nat} {stage2 : Bool} :
    OutOk (execInvalidationComplete part stage2 s) :=
  OutOk.ite (OutOk.ite h h.setPart.after_dropTlb.after_answerUnmaps) (OutOk.ite h h.setPart.after_dropTlb)

/-! ### Partitions -/

theorem after_zeroAreas (h : MemOk s) {part : Nat} :
    MemOk (zeroAreas s part) :=
  foldl (h.setHbm (Mem.wf_mclear (Mem.wf_mclear h.hbm _ _) _ _)) fun _ _ h => h.after_bankUndefineAll

theorem after_createPart (h : MemOk s) {part : Nat} {test : Bool} : MemOk (createPart s part test) := by
  unfold createPart
  dsimp only
  exact h.after_firmwareBlock.after_freeValue.modPart.after_zeroAreas

theorem after_execPcreate (h : MemOk s) {die part seq : Nat} {test : Bool} :
    OutOk (execPcreate die part seq test s) := h.after_mboxRequest fun _ h => ite_fst h (ite_fst h h.after_createPart)

theorem after_cancelInst (h : MemOk s) {gi : Nat} : MemOk (cancelInst s gi) := by
  unfold cancelInst
  split
  · exact h
  · exact after_instEnd (h.foldl fun _ _ h => h.after_modNode.after_completionWrite)

theorem after_cancelCopy (h : MemOk s) {id : Nat} {cp : Copy} : MemOk (cancelCopy s id cp) :=
  (h.branch (·.after_mcFail)).after_copyDone

theorem after_destroyPart (h : MemOk s) {part : Nat} : MemOk (destroyPart s part) := by
  unfold destroyPart
  refine frame (foldl (foldl (foldl (h.modPart.setQueues) fun _ _ h => h.after_cancelInst) fun _ _ h => h.after_cancelLaunch.after_dropHeld)
    fun _ _ h => h.after_cancelCopy)

theorem after_execPdestroy (h : MemOk s) {die part seq : Nat} :
    OutOk (execPdestroy die part seq s) := h.after_mboxRequest fun _ h => ite_fst h h.after_destroyPart

theorem after_execPartitionFreed (h : MemOk s) {part : Nat} :
    OutOk (execPartitionFreed part s) :=
  OutOk.ite h (modPart (h.after_zeroAreas.foldl fun _ _ h => h.modCore fun _ _ => rfl))

theorem after_execS2fault (h : MemOk s) {die : Nat} : OutOk (execS2fault die s) := by
  unfold execS2fault
  refine OutOk.ite h ?_
  dsimp only
  split
  · exact h
  · exact h.after_freeValue.modDie.setMsix

theorem after_execS2reply (h : MemOk s) {die part seq : Nat} {handle : Word} {mapped : Bool} :
    OutOk (execS2reply die part seq handle mapped s) := h.after_s2Paused (h.after_mboxRequest fun _ h => by
  split
  · exact h
  · refine ite_fst h (ite_fst h.modDie ?_)
    exact ite_fst h.modDie.after_dropTlb.after_resumeBy h.modDie.after_dropTlb.after_replay)

/-- A request taken up again, or its state when it has no outcome. -/
theorem of_out {o : Out} (h : MemOk s) : OutOk o → MemOk (match o with
    | .next s' => s'
    | _ => s) := by
  intro ho
  cases o with
  | next s' => exact ho
  | fault r => exact h
  | refused r => exact h

theorem after_s2Resume (h : MemOk s) {i : OutReq} : MemOk (s2Resume s i) := by
  refine of_out h ?_
  cases i with
  | s2map => exact h.modDie.after_execS2map
  | s2unmap => exact h.modDie.after_execS2unmap
  | s2root => exact h.modDie.after_execS2root
  | s2reply => exact h.modDie.after_execS2reply
  | ual => exact h.setFw
  | bar4 => exact h.setFw

/-! ### Links -/

theorem after_takeDown (h : MemOk s) {l : Link} : MemOk (takeDown s l) := by
  cases l with
  | lace d => exact h.modDie
  | ual d p => exact h.modDie
  | bridge a b => exact ite h h.setFw

theorem after_countReplay (h : MemOk s) {link : Link} : MemOk (countReplay s link) :=
  h.after_freeValue.foldl fun _ _ h => h.branch (·.after_telCount)
theorem after_setReplays (h : MemOk s) {link : Link} {n : Nat} : MemOk (setReplays s link n) := h.setFw

theorem after_execFlitReplay (h : MemOk s) {link : Link} {ok : Bool} : OutOk (execFlitReplay link ok s) := by
  have hc := fun l => (h.foldl (l := linkDies link) (f := fun s d => rasCount s d 5 1) fun _ _ h => h.after_rasCount).after_countReplay (link := l)
  exact ite (hc _).after_setReplays (ite (hc _).after_setReplays (after_takeDown ((hc _).after_setReplays.foldl fun _ _ h => h.after_rasCount)))

theorem after_execBridgeRetrain (h : MemOk s) {d1 d2 : Nat} : OutOk (execBridgeRetrain d1 d2 s) := h.setFw
theorem after_execLaceRetrain (h : MemOk s) {die : Nat} : OutOk (execLaceRetrain die s) := h.modDie

/-! ### Accesses from the host and from other parts -/

theorem after_ualPerform (h : MemOk s) {part pa n : Nat} {req : UalReq} : MemOk (ualPerform s part pa n req) := by
  unfold ualPerform
  dsimp only
  split
  · exact h.after_homeUse.storeHbm
  · exact h.after_homeUse.storeHbm
  · exact ite h.after_homeUse.storeHbm h.after_homeUse
  · exact h.after_homeUse

theorem after_ualServe (h : MemOk s) {die part : Nat} {req : UalReq} : MemOk (ualServe s die part req) := by
  unfold ualServe
  extract_lets fail fw hold
  have hf (s : State) (h : MemOk s) : MemOk (fail s) := h.after_telCount.setReply
  have hh : MemOk hold := h.setFw
  split
  · exact hf s h
  · refine ite hh ?_
    split
    · exact hf _ (ite h.after_countWalkUe h)
    · refine ite (hf s h) (ite hh ?_)
      split
      · exact hf _ h.after_countUeAt
      · exact h.after_ualPerform.setReply

theorem after_execUalinkRequest (h : MemOk s) {die part : Nat} {req : UalReq} :
    OutOk (execUalinkRequest die part req s) :=
  h.after_ualServe

theorem after_bar4Access (h : MemOk s) {pa : Nat} {write : Option (List Byte)} {bytes : Nat} {ue : Bool} :
    MemOk (bar4Access s pa write bytes ue) := by
  unfold bar4Access
  refine ite h.setAnswer (ite h.setAnswer (ite h.setFw ?_))
  split
  · exact ite h h.storeHbm
  · refine ite h.setAnswer ?_
    split
    · exact h.after_countUeAt.setAnswer
    · exact h.setAnswer

theorem after_execBar4Access (h : MemOk s) {pa : Nat} {write : Option (List Byte)} {bytes : Nat} {ue : Bool} :
    OutOk (execBar4Access pa write bytes ue s) := h.after_bar4Access

theorem after_heldResume (h : MemOk s) {i : OutReq} : MemOk (heldResume s i) := by
  unfold heldResume
  split
  · exact h.after_ualServe
  · exact h.after_bar4Access
  · exact h.setFw

theorem after_execHbmTrainingDone (h : MemOk s) {stack : Nat} {ok : Bool} :
    OutOk (execHbmTrainingDone stack ok s) := OutOk.ite h (h.modStack.setFw.foldl fun _ _ h => h.after_heldResume)

/-! ### Clock synchronisation -/

theorem after_lockChange (h : MemOk s) {die sel : Nat} : MemOk (lockChange s die sel) :=
  h.foldl fun _ _ h => h.branch (·.after_telCount)
theorem after_setLock (h : MemOk s) {die : Nat} {on : Bool} : MemOk (setLock s die on) :=
  ite h h.modDie.after_lockChange
theorem after_syncDie (h : MemOk s) {die : Nat} {within : Bool} :
    MemOk (syncDie s die within) := ite (h.modDie.branch (·.after_setLock)) h.modDie.after_setLock
theorem after_unlockAll (h : MemOk s) : MemOk (unlockAll s) := h.foldl fun _ _ h => h.modDie.after_setLock

theorem after_execPtpSync (h : MemOk s) {within : List Bool} : OutOk (execPtpSync within s) :=
  OutOk.ite h.after_unlockAll (OutOk.ite (h.foldl fun _ _ h => h.branch (·.after_syncDie))
    (OutOk.ite h (h.setFw.foldl fun _ _ h => h.branch (·.after_syncDie))))

theorem after_execPtpAnnounceTimeout (h : MemOk s) : OutOk (execPtpAnnounceTimeout s) := h.after_unlockAll

end MemOk

end Sys2Proof.Machine
end


section
/-! PROOFS. The memories of the part stay canonical: firmware, the registers of the host, power and reset. -/

namespace Sys2Proof.Machine

set_option Elab.async false  -- theorem after theorem: every thread of a compile takes a stack of its own

namespace MemOk

variable {s s' : State}

/-! ### Firmware -/

theorem after_mgmtWrite (h : MemOk s) {v : DWord} : MemOk (mgmtWrite s v) :=
  ite h.setFw (ite h.setFw (ite h.setFw (MemOk.modCluster h.setFw)))
theorem after_execCalvsafe (h : MemOk s) {v : DWord} : OutOk (execCalvsafe v s) := h.after_mgmtWrite
theorem after_execCalvsafeRun (h : MemOk s) {vmin : List (Option Nat)} : OutOk (execCalvsafeRun vmin s) :=
  OutOk.ite h h.modCluster.setFw

theorem after_execEcsRead (h : MemOk s) {stack : Nat} {readings : List EcsReading} :
    OutOk (execEcsRead stack readings s) := OutOk.ite h (h.foldl fun _ _ h => by
  refine ite h ?_
  dsimp only
  split
  · exact h.modStack.after_telCount
  · exact h.modStack.after_rasCount)

theorem after_execFwstage (h : MemOk s) {die seq pa bytes : Nat} {sigOk : Bool} :
    OutOk (execFwstage die seq pa bytes sigOk s) :=
  h.after_mboxRequest fun _ h => ite_fst h (ite_fst h.setFw (ite_fst h (ite_fst h h.after_freeValue)))
theorem after_partEvent (h : MemOk s) {part kind : Nat} : MemOk (partEvent s part kind) := h.modPart.setMsix
theorem after_moveParts (h : MemOk s) {from' to' : PState} {kind : Nat} :
    MemOk (moveParts s from' to' kind) := h.foldl fun _ _ h => h.modPart.after_partEvent

theorem after_execFwactivate (h : MemOk s) {seq : Nat} : OutOk (execFwactivate seq s) := by
  have hr : MemOk (moveParts (s.fw.waiting.foldl s2Resume { s with fw := { s.fw with activating := false, waiting := [] } }) .paused .active 2) :=
    after_moveParts (h.setFw.foldl fun _ _ h => h.after_s2Resume)
  unfold execFwactivate
  refine OutOk.ite (OutOk.ite h ?_) (h.after_mboxRequest fun _ h => ite_fst h (after_moveParts h.frame))
  dsimp only
  split
  · exact hr.branch (·.after_mboxRespond)
  · exact hr

theorem after_execAttest (h : MemOk s) {die seq pa : Nat} {nonce : List Byte} :
    OutOk (execAttest die seq pa nonce s) := h.after_mboxRequest fun _ h => ite_fst h (h.storeHbm.frame)

theorem after_nextOr (h : MemOk s) {o : Out} (ho : OutOk o) : MemOk (nextOr s o) := by
  cases o with
  | next s' => exact ho
  | fault r => exact h
  | refused r => exact h

theorem after_mboxPresent (h : MemOk s) {die x : Nat} : MemOk (mboxPresent s die x) := by
  unfold mboxPresent
  extract_lets op seq part a answer f
  have ha (st : Nat) : MemOk (answer st) := h.after_mboxRequest fun _ h => h
  refine ite (ha 7) (ite (ha 2) ?_)
  clear_value answer op
  split
  · exact h.after_nextOr h.after_execS2map
  · exact h.after_nextOr h.after_execS2unmap
  · exact h.after_nextOr h.after_execS2root
  · exact h.after_nextOr h.after_execPcreate
  · exact h.after_nextOr h.after_execPdestroy
  · exact h.after_nextOr h.after_execS2reply
  · exact h.after_nextOr h.after_execFwstage
  · exact ite (ite (ha 5) (h.after_nextOr h.after_execFwactivate)) (ha 2)
  · exact h.after_nextOr h.after_execAttest
  · exact ha 1

theorem after_mboxWrite (h : MemOk s) {die off : Nat} {v : DWord} : MemOk (mboxWrite s die off v) :=
  h.modDie.branch (·.after_mboxPresent)

/-! ### Registers of the host -/

theorem after_railWrite (h : MemOk s) {k off : Nat} {v : DWord} :
    MemOk (railWrite s k off v) :=
  ite h.modCluster (ite h.after_writeVset (ite h.after_writeFset (h.branch (·.modCluster))))
theorem after_stackWrite (h : MemOk s) {k off : Nat} {v : DWord} : MemOk (stackWrite s k off v) :=
  ite h.modStack (h.branch (·.after_htrainWrite))

theorem after_pfWrite (h : MemOk s) {off : Nat} {v : DWord} : MemOk (pfWrite s off v) := by
  unfold pfWrite
  refine ite ?_ (ite h.setFw (ite (ite (h.after_atHost h.modCore) h) (ite h.after_partWrite (ite h.after_configWrite ?_))))
  · dsimp only
    split
    · exact h.after_atHost h.after_bankcfg
    · exact h.after_atHost h.after_ualcfg
    · exact h
  · refine ite (h.after_atHost h.modPart) (ite (ite (h.after_atRail h.after_railWrite) h) (ite (h.after_atHost h.after_stackWrite) ?_))
    exact ite (ite (h.after_atHost h.after_mboxWrite) h) (h.branch (·.after_mgmtWrite))

theorem after_sliceMapRead (h : MemOk s) {die sector : Nat} : MemOk (sliceMapRead s die sector) := h.setAnswer
theorem after_hostRead (h : MemOk s) {fn off : Nat} : MemOk (hostRead s fn off) := by
  unfold hostRead
  exact ite h (ite h.setAnswer (ite (ite h.setAnswer (ite h.setAgenda h.setAnswer)) (ite h.setAnswer h.setAnswer)))

theorem after_execRegisterWrite (h : MemOk s) {fn off : Nat} {v : DWord} : OutOk (execRegisterWrite fn off v s) :=
  OutOk.ite h (OutOk.ite h.setAnswer (OutOk.ite h.after_blockWrite (OutOk.ite h.after_pfWrite h.after_partWrite)))

/-! ### Power and reset -/

theorem after_coldState (h : MemOk s) {powered : Bool} :
    MemOk (coldState s powered) :=
  ⟨rfl, rfl, h.host, h.remote, fun _ hp => absurd hp List.not_mem_nil, fun _ hp => absurd hp List.not_mem_nil⟩
theorem after_execPowerOff (h : MemOk s) : OutOk (execPowerOff s) := h.after_coldState
theorem after_execColdReset (h : MemOk s) : OutOk (execColdReset s) := h.branch (·.after_coldState)
theorem after_bootRom (h : MemOk s) {die : Nat} {romOk : Bool} {trained : List Bool} :
    MemOk (bootRom s die romOk trained) :=
  h.modDie
theorem after_bridgesUp (h : MemOk s) {die : Nat} : MemOk (bridgesUp s die) := h.setFw

theorem after_bootNext (h : MemOk s) {die : Nat} : MemOk (bootNext s die) := by
  unfold bootNext
  dsimp only
  split
  · exact h.modDie
  · exact h.modDie
  · exact modDie (h.foldl fun _ _ h => h.modStack)
  · exact h.modDie.after_bridgesUp
  · exact ite h h.modDie
  · exact h

theorem after_execPowerOn (h : MemOk s) {romOk trainOk : List Bool} : OutOk (execPowerOn romOk trainOk s) := by
  have hs : MemOk (if s.powered then s else coldState s true) := ite h h.after_coldState
  exact OutOk.ite hs (hs.setFw.foldl fun _ _ h => h.after_bootRom)

theorem after_execUnassignedOpcode (h : MemOk s) {w : IWord} : OutOk (execUnassignedOpcode w s) :=
  h.foldl fun _ _ h => h.after_takeTrap

end MemOk

end Sys2Proof.Machine
end


section
/-! PROOFS. The memories of the part stay canonical: every form. -/

namespace Sys2Proof.Machine

set_option Elab.async false  -- theorem after theorem: every thread of a compile takes a stack of its own

namespace MemOk

variable {s s' : State}

theorem after_execInt2 (h : MemOk s) {c : Ctl} {m : IMod} {unit : Nat} {d : Reg} {a b : Src} {f : Int → Int → Int} :
    OutOk (execInt2 c m unit d a b f s) := h.after_execAlu
theorem after_execF2 (h : MemOk s) {c : Ctl} {us : List Nat} {dbl : Bool} {d : Reg} {a b : Src}
    {f : FP → Nat → Nat → Nat × Fl} :
    OutOk (execF2 c us dbl d a b f s) := h.after_execAlu
theorem after_execH2 (h : MemOk s) {c : Ctl} {us : List Nat} {d : Reg} {a b : Src} {f : Nat → Nat → Nat × Fl} :
    OutOk (execH2 c us d a b f s) := h.after_execAlu
theorem after_execLogic2 (h : MemOk s) {c : Ctl} {w64 : Bool} {d : Reg} {a b : Src} {f : DWord → DWord → DWord} :
    OutOk (execLogic2 c w64 d a b f s) := h.after_execAlu
theorem after_execShift (h : MemOk s) {c : Ctl} {w64 : Bool} {d : Reg} {a n : Src} {f : Nat → Nat → Nat} :
    OutOk (execShift c w64 d a n f s) := h.after_execAlu
theorem after_execSfu1 (h : MemOk s) {c : Ctl} {d : Reg} {a : Src} {f : Nat → Nat × Fl} : OutOk (execSfu1 c d a f s) :=
  h.after_execLong

theorem after_execPmov (h : MemOk s) {c : Ctl} {form : PmovForm} : OutOk (execPmov c form s) := by
  unfold execPmov
  split
  · exact h.after_execAlu
  · exact h.after_execAlu

/-- Every form leaves the memories canonical: the arithmetic forms write registers only, and each other form by its own lemma. -/
theorem after_exec (h : MemOk s) {i : Instr} : OutOk (exec i s) := by
  cases i with
  | iadd | isub | imul | imulhi | imin | imax =>
    unfold exec
    exact h.after_execInt2
  | iadd3 | imad | imadw | iabs | ineg | isad | icmp | isel | iaddi | imuli | icmpi | lea | idot4 | idot2 | mov | movi | movw | ltab
  | ltabi | ptab | fshf | bfx | bfi | popc | clz | ctz | brev | bperm | clmul | clmulh | ffma | faddi | fmuli | ffmai | fcmp | fclass
  | hfma2 | hcmp2 | fdot2 | cvt | cvtpk | f2i | i2f | frnd | scalex | dqblk =>
    unfold exec
    exact h.after_execAlu
  | idiv | irem | sqrt | fdiv =>
    unfold exec
    exact h.after_execLong
  | and | or | xor | andn | not =>
    unfold exec
    exact h.after_execLogic2
  | shl | shr | sar | rotl =>
    unfold exec
    exact h.after_execShift
  | fadd | fsub | fmul | fmin | fmax =>
    unfold exec
    exact h.after_execF2
  | hadd2 | hmul2 | hmin2 | hmax2 =>
    unfold exec
    exact h.after_execH2
  | qblk | lxch | lpoll | lpeer | lred | lscan | llead | lbcast =>
    unfold exec
    exact h.after_execCross
  | rcp | rsq | ex2 | lg2 | sin | cos | tanh | sigm =>
    unfold exec
    exact h.after_execSfu1
  | bra | call | brx | callx | ret =>
    unfold exec
    exact h.after_execBranch
  | atom | atomcas =>
    unfold exec
    exact h.after_execAtomic
  | red | bankop =>
    unfold exec
    exact h.after_execReduce
  | waitany | waitall =>
    unfold exec
    exact h.after_execTagWait
  | pmov => exact h.after_execPmov
  | joinset => exact h.after_execJoinset
  | joinwait => exact h.after_execJoinwait
  | joindrop => exact h.after_execJoindrop
  | exit => exact h.after_execExit
  | yield => exact h.after_execYield
  | nop => exact h.after_execNop
  | sleep => exact h.after_execSleep
  | ipf => exact h.after_execIpf
  | ld => exact h.after_execLd
  | st => exact h.after_execSt
  | ldk => exact h.after_execLdk
  | lds => exact h.after_execLds
  | sts => exact h.after_execSts
  | ldg => exact h.after_execLdg
  | stg => exact h.after_execStg
  | prf => exact h.after_execPrf
  | cline => exact h.after_execCline
  | objrd => exact h.after_execObjrd
  | otsync => exact h.after_execOtsync
  | atomf => exact h.after_execAtomf
  | bankred => exact h.after_execBankred
  | cpy => exact h.after_execCpy
  | cpyt => exact h.after_execCpyt
  | cpymc => exact h.after_execCpymc
  | ffr => exact h.after_execFfr
  | tagclr => exact h.after_execTagclr
  | tagrd => exact h.after_execTagrd
  | bar => exact h.after_execBar
  | fence => exact h.after_execFence
  | boinit => exact h.after_execBoinit
  | boexpect => exact h.after_execBoexpect
  | boarrive => exact h.after_execBoarrive
  | bowait => exact h.after_execBowait
  | botest => exact h.after_execBotest
  | acq => exact h.after_execAcq
  | tryacq => exact h.after_execTryacq
  | rel => exact h.after_execRel
  | publish => exact h.after_execPublish
  | mma => exact h.after_execMma
  | wload => exact h.after_execWload
  | wdrop => exact h.after_execWdrop
  | accld => exact h.after_execAccld
  | accst => exact h.after_execAccst
  | accz => exact h.after_execAccz
  | mregion => exact h.after_execMregion
  | mstat => exact h.after_execMstat
  | mcancel => exact h.after_execMcancel
  | wtalloc => exact h.after_execWtalloc
  | wsend => exact h.after_execWsend
  | wtfree => exact h.after_execWtfree
  | wtquery => exact h.after_execWtquery
  | wtrenew => exact h.after_execWtrenew
  | awlnext => exact h.after_execAwlnext
  | awlpeek => exact h.after_execAwlpeek
  | emit => exact h.after_execEmit
  | emitclose => exact h.after_execEmitclose
  | spawn => exact h.after_execSpawn
  | lastsel => exact h.after_execLastsel
  | padmask => exact h.after_execPadmask
  | dlread => exact h.after_execDlread
  | commit => exact h.after_execCommit
  | idembeg => exact h.after_execIdembeg
  | idemend => exact h.after_execIdemend
  | wrapdone => exact h.after_execWrapdone
  | sysrd => exact h.after_execSysrd
  | syswr => exact h.after_execSyswr
  | trap => exact h.after_execTrap
  | bkpt => exact h.after_execBkpt
  | cntrd => exact h.after_execCntrd
  | cntcfg => exact h.after_execCntcfg
  | wayset => exact h.after_execWayset
  | trapret => exact h.after_execTrapret
  | parkrd => exact h.after_execParkrd
  | oplog => exact h.after_execOplog
  | replay => exact h.after_execReplay
  | errinj => exact h.after_execErrinj
  | objectCacheFill => exact h.after_execObjectCacheFill
  | loadComplete => exact h.after_execLoadComplete
  | accessLogged => exact h.after_execAccessLogged
  | storePerform => exact h.after_execStorePerform
  | pageWalk => exact h.after_execPageWalk
  | recordRetry => exact h.after_execRecordRetry
  | s2fault => exact h.after_execS2fault
  | sleepEnd => exact h.after_execSleepEnd
  | yieldEnd => exact h.after_execYieldEnd
  | requestAccept => exact h.after_execRequestAccept
  | requestGrant => exact h.after_execRequestGrant
  | attemptCheck => exact h.after_execAttemptCheck
  | passComplete => exact h.after_execPassComplete
  | wloadComplete => exact h.after_execWloadComplete
  | wdropComplete => exact h.after_execWdropComplete
  | transferComplete => exact h.after_execTransferComplete
  | copyEnd => exact h.after_execCopyEnd
  | cpymcBranchArrival => exact h.after_execCpymcBranchArrival
  | weltArrival => exact h.after_execWeltArrival
  | roundDelivery => exact h.after_execRoundDelivery
  | orphanExpiry => exact h.after_execOrphanExpiry
  | syncRequestArrival => exact h.after_execSyncRequestArrival
  | syncReleasePerform => exact h.after_execSyncReleasePerform
  | versionIncrement => exact h.after_execVersionIncrement
  | waysetTakesEffect => exact h.after_execWaysetTakesEffect
  | recordEnqueue => exact h.after_execRecordEnqueue
  | regionArmed => exact h.after_execRegionArmed
  | diversion => exact h.after_execDiversion
  | deadlineTermination => exact h.after_execDeadlineTermination
  | quantumEnd => exact h.after_execQuantumEnd
  | schedulerDecision => exact h.after_execSchedulerDecision
  | bankExchange => exact h.after_execBankExchange
  | spillFill => exact h.after_execSpillFill
  | launchCompletion => exact h.after_execLaunchCompletion
  | packetFetch => exact h.after_execPacketFetch
  | slotPollTimeout => exact h.after_execSlotPollTimeout
  | tornRepoll => exact h.after_execTornRepoll
  | launch => exact h.after_execLaunch
  | wait => exact h.after_execWait
  | waitPoll => exact h.after_execWaitPoll
  | heldRelease => exact h.after_execHeldRelease
  | signal => exact h.after_execSignal
  | xfer => exact h.after_execXfer
  | modload => exact h.after_execModload
  | moddrop => exact h.after_execModdrop
  | moddropComplete => exact h.after_execModdropComplete
  | graph => exact h.after_execGraph
  | preemptRequeue => exact h.after_execPreemptRequeue
  | preemptSuspend => exact h.after_execPreemptSuspend
  | preemptResume => exact h.after_execPreemptResume
  | preemptCancel => exact h.after_execPreemptCancel
  | apertureGate => exact h.after_execApertureGate
  | apertureUngate => exact h.after_execApertureUngate
  | invalidationComplete => exact h.after_execInvalidationComplete
  | ualcfgTakesEffect => exact h.after_execUalcfgTakesEffect
  | railStep => exact h.after_execRailStep
  | railSettled => exact h.after_execRailSettled
  | dividerChange => exact h.after_execDividerChange
  | controllerSample => exact h.after_execControllerSample
  | snapshotRefresh => exact h.after_execSnapshotRefresh
  | partitionFreed => exact h.after_execPartitionFreed
  | unassignedOpcode w => exact h.after_execUnassignedOpcode (w := w)
  | instructionLineFill => exact h.after_execInstructionLineFill
  | sfuDivResult => exact h.after_execSfuDivResult
  | scratchZeroFill => exact h.after_execScratchZeroFill
  | xferComplete => exact h.after_execXferComplete
  | launchRegisterStore => exact h.after_execLaunchRegisterStore
  | qcfgEnSet => exact h.after_execQcfgEnSet
  | qcfgEnClear => exact h.after_execQcfgEnClear
  | qctlResume => exact h.after_execQctlResume
  | qctlSkip => exact h.after_execQctlSkip
  | resumeReplay => exact h.after_execResumeReplay
  | resumeRetry => exact h.after_execResumeRetry
  | resumeSkip => exact h.after_execResumeSkip
  | resumeKill => exact h.after_execResumeKill
  | frtailWrite => exact h.after_execFrtailWrite
  | s1inval => exact h.after_execS1inval
  | registerWrite => exact h.after_execRegisterWrite
  | bankcfgWrite => exact h.after_execBankcfgWrite
  | ualcfgRetrain => exact h.after_execUalcfgRetrain
  | rcvsetWrite => exact h.after_execRcvsetWrite
  | rcfsetWrite => exact h.after_execRcfsetWrite
  | calvsafe => exact h.after_execCalvsafe
  | calvsafeRun => exact h.after_execCalvsafeRun
  | htrain => exact h.after_execHtrain
  | hbmTrainingDone => exact h.after_execHbmTrainingDone
  | ecsRead => exact h.after_execEcsRead
  | s2map => exact h.after_execS2map
  | s2unmap => exact h.after_execS2unmap
  | s2root => exact h.after_execS2root
  | pcreate => exact h.after_execPcreate
  | pdestroy => exact h.after_execPdestroy
  | s2reply => exact h.after_execS2reply
  | fwstage => exact h.after_execFwstage
  | fwactivate => exact h.after_execFwactivate
  | attest => exact h.after_execAttest
  | ptpSync => exact h.after_execPtpSync
  | flitReplay => exact h.after_execFlitReplay
  | bridgeRetrain => exact h.after_execBridgeRetrain
  | ualinkRequest => exact h.after_execUalinkRequest
  | bar4Access => exact h.after_execBar4Access
  | powerOn => exact h.after_execPowerOn
  | laceRetrain => exact h.after_execLaceRetrain
  | ptpAnnounceTimeout => exact h.after_execPtpAnnounceTimeout
  | coldReset => exact h.after_execColdReset
  | powerOff => exact h.after_execPowerOff

end MemOk

end Sys2Proof.Machine
end


section
/-! PROOFS. The memories of the part stay canonical: issue, the clocks, the acts of the agenda, and the step (O6). -/

namespace Sys2Proof.Machine

set_option Elab.async false  -- theorem after theorem: every thread of a compile takes a stack of its own

namespace MemOk

variable {s s' : State}

/-! ### Issue -/

theorem setIss (h : MemOk s) {x : Issue} : MemOk { s with iss := x } := h.frame
theorem after_trapAll (h : MemOk s) {ms : List Nat} {code detail : Nat} : MemOk (trapAll s ms code detail) :=
  h.foldl fun _ _ h => h.after_takeTrap

theorem after_issueCount (h : MemOk s) {core : Nat} {ch : Choice} {i : Option Instr} :
    MemOk (issueCount s core ch i) := by
  unfold issueCount
  refine foldl (h.modCore.modLaunch fun l hl => ?_) fun _ _ h => (h.branch (·.after_gcEvent)).after_gcEvent
  split
  · exact hl
  · exact hl

theorem after_runWord (h : MemOk s) {core : Nat} {ms : List Nat} {bad : List Bad} {pc : DWord} {w : IWord}
    {held : Option Held} :
    OutOk (runWord s core ms bad pc w held) := by
  have hi : MemOk { s with iss := ⟨core, ms, bad, pc, w, held⟩ } := h.setIss
  unfold runWord
  dsimp only
  split
  · exact hi.after_trapAll
  · exact OutOk.ite hi.after_exec hi.after_trapAll

theorem after_issue (h : MemOk s) {core : Nat} {ch : Choice} {bad : List Bad} : OutOk (issue s core ch bad) := by
  unfold issue
  dsimp only
  split
  · exact h
  · refine MemOk.foldl ?_ fun _ _ h => h.after_takeTrap
    split
    · exact h.after_issueCount.after_countUeAt
    · exact h.after_issueCount
  · exact (h.after_issueCount.branch (·.after_countWalkUe)).foldl fun _ _ h => h.after_takeTrap
  · exact h.after_issueCount.after_runWord

theorem after_retry (h : MemOk s) {core t : Nat} {bad : List Bad} : OutOk (retry s core t bad) := by
  unfold retry
  dsimp only
  split
  · exact h
  · next x _ =>
    generalize hr : runWord s core _ bad _ x.word (some x) = r
    have ho : OutOk r := hr ▸ h.after_runWord
    cases r with
    | next s' => exact OutOk.ite h ho
    | fault f => exact ho
    | refused f => exact ho

/-! ### The clocks -/

theorem after_settleThread (h : MemOk s) {t : Nat} : MemOk (settleThread s t) := by
  unfold settleThread
  refine ite h ?_
  split
  · exact h
  · exact ite h.modThread (h.branch (·.modThread.modCore.after_gcEvent))

theorem after_settle (h : MemOk s) : MemOk (settle s) := h.foldl fun _ _ h => h.after_settleThread
theorem after_chargeSlots (h : MemOk s) {core to' n : Nat} : MemOk (chargeSlots s core to' n) :=
  ite h h.after_coreCount.modCluster
theorem after_slotClocks (h : MemOk s) {core n : Nat} : MemOk (slotClocks s core n) :=
  h.after_chargeSlots.after_chargeSlots.modCluster.modCore

theorem after_stallEvents (h : MemOk s) {n : Nat} : MemOk (stallEvents s n) := h.branch fun h => h.foldl fun _ _ h => by
  split
  · exact h
  · exact h.after_gcEvent
  · exact h.after_gcEvent

theorem after_noteCounters (h : MemOk s) : MemOk (noteCounters s) := by
  unfold noteCounters
  refine frame (h.setCores (forall_tmap (P := fun x : Core => x.scratch.wf = true) h.cores fun _ _ hx => ?_))
  exact hx

theorem after_passClocks (h : MemOk s) {n : Nat} : MemOk (passClocks s n) := by
  unfold passClocks
  refine after_noteCounters (after_sampleClocks (after_snapClocks (frame (foldl (after_stallEvents h.after_weltExpire) fun _ _ h => ?_))))
  exact h.after_slotClocks

theorem after_tick (h : MemOk s) {n : Nat} : MemOk (tick s n) := ite h h.after_passClocks

/-! ### Acts -/

theorem after_issueAct (h : MemOk s) {core slot : Nat} {bad : List Bad} : OutOk (issueAct core slot bad s) := by
  unfold issueAct
  refine OutOk.ite (OutOk.ite h.after_retry h) ?_
  split
  · exact OutOk.ite h.after_issue h
  · exact h

theorem after_eventAct (h : MemOk s) {i : Instr} : OutOk (eventAct i s) := by
  unfold eventAct
  refine OutOk.ite h (OutOk.ite h.after_exec ?_)
  split
  · exact h.after_exec
  · exact h

theorem after_evictI (h : MemOk s) {level unit line : Nat} : MemOk (evictI s level unit line) := by
  unfold evictI
  split
  · exact h.branch (·.modCore)
  · exact h.branch (·.modCluster)
  · exact h

theorem after_ueLineAct (h : MemOk s) {line : Nat} {bad : Bool} : MemOk (ueLineAct s line bad) := h.setFw

theorem after_injDraw (h : MemOk s) {core cls : Nat} : MemOk (injDraw s core cls) := by
  unfold injDraw
  split
  · exact h
  · have hi := fun x => h.after_setInj (c := core) (cls := cls) (i := x)
    refine ite h (ite (hi _) (ite (hi _).after_rasCount ?_))
    exact (hi _).after_execFlitReplay

theorem after_act (h : MemOk s) {a : Act} : OutOk (act a s) := by
  cases a with
  | issue => exact h.after_issueAct
  | event => exact h.after_eventAct
  | tick => exact h.branch (·.after_tick)
  | dltime => exact h.branch (·.modDie)
  | dlall => exact h.branch (·.setDies)
  | matrixTick => exact h.branch (·.modCluster)
  | fifoLag => exact h.branch (·.modCluster)
  | bootStage => exact h.branch (·.after_bootNext)
  | sliceMap => exact h.after_sliceMapRead
  | evict => exact h.after_l1Drop
  | evictI => exact h.after_evictI
  | ueLine => exact h.after_ueLineAct
  | ueChip => exact h.setFw
  | injDraw => exact h.after_injDraw
  | capFault => exact h.setFw
  | forkTurn => exact h.after_forkTurn
  | copyByte => exact h.after_copyByteAct
  | ras => exact h.branch (·.after_rasCount)
  | block => exact h.after_queueWrite
  | launchStore => exact OutOk.ite h (OutOk.ite h.after_execLaunchRegisterStore h.setAnswer)
  | hostRead => exact h.after_hostRead
  | hostWrite => exact h.storeHost

/-! ### What the machine does by itself -/

theorem of_changed {o : Out} (e : changed s o = some s') (ho : OutOk o) : MemOk s' := by
  unfold changed at e
  split at e
  · split at e
    · cases e
    · exact of_some e ho
  · cases e

theorem after_firstEvent (h : MemOk s) {is : List Instr} (e : firstEvent s is = some s') : MemOk s' := by
  induction is with
  | nil => cases e
  | cons i is ih =>
    unfold firstEvent at e
    split at e
    · next hc => exact of_some e (of_changed hc h.after_exec)
    · exact ih e

theorem after_firstRetry (h : MemOk s) {ts : List Nat} (e : firstRetry s ts = some s') : MemOk s' := by
  induction ts with
  | nil => cases e
  | cons t ts ih =>
    unfold firstRetry at e
    split at e
    · next hc =>
      split at hc
      · exact of_some e (of_changed hc h.after_retry)
      · cases hc
    · exact ih e

theorem after_endQuanta (h : MemOk s) : MemOk (endQuanta s) := h.foldl fun _ _ h => h.of_out h.after_execQuantumEnd

theorem after_auto (h : MemOk s) : OutOk (auto s) := by
  unfold auto
  split
  · exact h.after_bootNext
  · split
    · next e => exact h.after_firstEvent e
    · split
      · next e => exact h.after_firstRetry e
      · split
        · next e =>
          split at e
          · exact of_changed e h.after_execFwactivate
          · cases e
        · split
          · exact h.after_issue
          · exact h.after_endQuanta.after_tick

theorem after_settled {o : Out} (ho : OutOk o) : OutOk (settled o) := by
  cases o with
  | next s => exact MemOk.after_settle ho
  | fault f => trivial
  | refused r => trivial

theorem after_step (h : MemOk s) : OutOk (step s) := by
  unfold step
  split
  · exact after_settled h.setAgenda.after_act
  · exact OutOk.ite (after_settled h.after_auto) trivial

end MemOk

end Sys2Proof.Machine

open Sys2Proof Sys2Proof.Machine

/-- Settles O6: every state operation, and so every form and every act, keeps the memories canonical; a store puts its byte into a
rising list, and a byte that reads as an unlisted one is not listed. -/
theorem stepsKeepMemoriesCanonical : Obligations.StepsKeepMemoriesCanonical := by
  unfold Obligations.StepsKeepMemoriesCanonical
  intro s s' h e
  have hs := ((memoriesOk_iff s).1 h).after_step
  rw [e] at hs
  exact (memoriesOk_iff s').2 hs

end

section
/-! PROOFS. Predicates after they are written; where branches go. -/

namespace Sys2Proof.Machine

set_option Elab.async false  -- theorem after theorem: every thread of a compile takes a stack of its own

/-! ### Predicates (R14) -/

@[simp] theorem qread_seven (th : Thread) : qread th 7 = true := rfl

@[simp] theorem qwrite_seven (b : Bool) (th : Thread) : qwrite 7 b th = th := rfl

/-- The mask that a write of predicate `n` moves has that bit alone. -/
theorem getLsbD_predMask {n m : Nat} (hn : n < 8) : (BitVec.ofNat 8 (2 ^ n)).getLsbD m = decide (n = m) := by
  rw [BitVec.getLsbD_ofNat, Nat.testBit_two_pow]
  by_cases h : n = m
  · subst h; simp [hn]
  · simp [h]

/-- A predicate reads what was last written to it; q7 keeps its 1. -/
theorem qread_qwrite (th : Thread) {n m : Nat} (b : Bool) (hn : n < 8) (hm : m < 8) :
    qread (qwrite n b th) m = if m = n ∧ n ≠ 7 then b else qread th m := by
  by_cases h7 : n = 7
  · subst h7; simp
  · have hmask := getLsbD_predMask (n := n) (m := m) hn
    unfold qwrite qread
    rw [if_neg h7]
    by_cases hmn : m = n
    · subst hmn
      cases b <;> simp only [Bool.false_eq_true, if_false, if_true, BitVec.getLsbD_or, BitVec.getLsbD_and, BitVec.getLsbD_not, hmask] <;>
        simp [h7]
    · have hnm : n ≠ m := Ne.symm hmn
      cases b <;> simp only [Bool.false_eq_true, if_false, if_true, BitVec.getLsbD_or, BitVec.getLsbD_and, BitVec.getLsbD_not, hmask] <;>
        simp [hmn, hnm, hm]

/-- Writing a predicate changes nothing but the predicates. -/
theorem qwrite_eq (i : Nat) (b : Bool) (th : Thread) : qwrite i b th = { th with q := (qwrite i b th).q } := by
  unfold qwrite
  split_ifs <;> rfl

/-! ### Transfers of control (R16, R126) -/

theorem pcOk_iff (p : DWord) : pcOk p = true ↔ p.toNat % 16 = 0 ∧ p.toNat < 2 ^ 57 := by
  simp [pcOk]

/-- The state in which a transfer has written its link pair, if it has one. -/
def linked (s : State) (t : Nat) : Option VReg → State
  | some d => s.modThread t (vwrites d.val (dwords ((s.thread t).pc + 16)))
  | none => s

/-- A transfer of a thread alone: to a legal target, with its link pair written; or the trap BRANCH_TARGET. -/
theorem execBranch_solo {s : State} {t : Nat} {c : Ctl} (h : Solo s t c) (d : Option VReg) (f : Thread → Group → DWord) :
    let pc := f (s.thread t) (s.group (s.thread t).group)
    execBranch c d f s = .next (if pc.toNat % 16 = 0 ∧ pc.toNat < 2 ^ 57 then finished t (linked s t d) pc
      else takeTrap s t 4 0 0 0 false) := by
  intro pc
  unfold execBranch
  rw [forLanes_solo h]
  by_cases hpc : pcOk pc = true
  · rw [if_pos ((pcOk_iff pc).1 hpc)]
    simp only [pc] at hpc
    cases d <;> simp only [hpc, Bool.not_true, Bool.false_eq_true, if_false] <;> rfl
  · rw [if_neg (mt (pcOk_iff pc).2 hpc)]
    simp only [pc, Bool.not_eq_true] at hpc
    simp only [hpc, Bool.not_false, if_true, Lane.trapC]
    rw [trapCount_other s t 4 0 0 (by decide) (by decide)]

end Sys2Proof.Machine

open Sys2Proof Sys2Proof.Machine

/-- Settles O8, bit by bit of the predicate byte. -/
theorem predicatesHoldWhatWasWritten : Obligations.PredicatesHoldWhatWasWritten := by
  unfold Obligations.PredicatesHoldWhatWasWritten
  intro th s t n b hn
  refine ⟨rfl, rfl, rfl, fun neg => ?_, fun m => qread_qwrite th b hn m.isLt, ?_, ?_⟩
  · cases neg <;> rfl
  · rw [qwrite_eq]
  · rw [qwrite_eq]

/-- Settles O19: every transfer is the shared branch, with its own target and link pair. -/
theorem transfersOfControl : Obligations.TransfersOfControl := by
  unfold Obligations.TransfersOfControl
  intro s t c h
  refine ⟨fun imm => ?_, fun d imm => ?_, fun rel a => ?_, fun rel d a => ?_, fun a => ?_⟩
  · exact execBranch_solo h none (fun t _ => t.pc + imm)
  · exact execBranch_solo h (some d) (fun t _ => t.pc + imm)
  · exact execBranch_solo h none (fun t g => if rel then t.pc + regD t g a else regD t g a)
  · exact execBranch_solo h (some d) (fun t g => if rel then t.pc + regD t g a else regD t g a)
  · exact execBranch_solo h none (fun t g => regD t g a)

end

section
/-! PROOFS. What a precise trap writes, and the instructions that take one. -/

namespace Sys2Proof.Machine

set_option Elab.async false  -- theorem after theorem: every thread of a compile takes a stack of its own

/-! ### The record a thread keeps (R349, R354) -/

/-- The latest record of a thread learns its place, and is else as it was. -/
theorem recPlaced_lastRec {s : State} {f : FRec} {t : Nat} (h : (s.thread t).lastRec = some f) (r : Nat) :
    ((recPlaced s f r).thread t).lastRec = some { f with rseq := some r } := by
  unfold recPlaced State.thread at *
  simp only [tfind_tmap]
  cases hx : tfind s.threads t with
  | none => rw [hx] at h; cases h
  | some x =>
    rw [hx] at h
    simp only [Option.getD_some] at h
    simp [h]

/-- Sent, a record is still the latest of its thread, if need be with its place in the ring. -/
theorem sendRec_lastRec {s : State} {f : FRec} {t : Nat} (h : (s.thread t).lastRec = some f) (part l : Nat) :
    ∃ r, ((sendRec s part l f).thread t).lastRec = some { f with rseq := r } := by
  have kept : ((s.thread t).lastRec = some { f with rseq := f.rseq }) := h
  unfold sendRec
  split_ifs
  · exact ⟨_, recPlaced_lastRec (s := s.modDie f.die _) h _⟩
  · unfold emitRecord
    split_ifs
    · cases hr : ringWrite (noteFault s l f.code f.detail) part f with
      | none => exact ⟨_, kept⟩
      | some s' =>
        have hp := recPlaced_lastRec (s := noteFault s l f.code f.detail) h ((noteFault s l f.code f.detail).part part).frhead.toNat
        refine ⟨_, Eq.trans ?_ hp⟩
        rw [Option.getD_some, State.thread, ringWrite_threads hr]
        rfl
    · exact ⟨_, kept⟩

/-! ### No group changes as a record is sent -/

@[simp] theorem locWrite_groups (s : State) (l : Loc) (bs : List Byte) : (locWrite s l bs).groups = s.groups := by
  induction bs generalizing s l with
  | nil => rfl
  | cons b bs ih => exact (ih (locSet s l b) (l.add 1)).trans (by cases l <;> rfl)

@[simp] theorem locUse_groups (s : State) (part : Nat) (l : Loc) (alloc : Bool) : (locUse s part l alloc).groups = s.groups := by
  cases l <;> rfl

@[simp] theorem recPlaced_groups (s : State) (f : FRec) (r : Nat) : (recPlaced s f r).groups = s.groups := rfl
@[simp] theorem telCount_groups (s : State) (p die sel n : Nat) : (telCount s p die sel n).groups = s.groups := rfl
@[simp] theorem rasCount_groups (s : State) (die i n : Nat) : (rasCount s die i n).groups = s.groups := rfl
@[simp] theorem noteFault_groups (s : State) (l code detail : Nat) : (noteFault s l code detail).groups = s.groups := rfl

theorem ringWrite_groups {s s' : State} {part : Nat} {f : FRec} (h : ringWrite s part f = some s') : s'.groups = s.groups := by
  unfold ringWrite at h
  dsimp only at h
  split_ifs at h
  split at h
  · cases h
  · split_ifs at h
    rw [← Option.some.inj h, recPlaced_groups, State.modPart_groups, locWrite_groups, locUse_groups]

@[simp] theorem sendRec_groups (s : State) (part l : Nat) (f : FRec) : (sendRec s part l f).groups = s.groups := by
  unfold sendRec
  split_ifs
  · rw [emitSecure, recPlaced_groups, State.modDie_groups]
  · unfold emitRecord
    split_ifs
    · cases hr : ringWrite (noteFault s l f.code f.detail) part f with
      | none => rw [Option.getD_none, telCount_groups, State.modPart_groups, noteFault_groups]
      | some s' => rw [Option.getD_some, ringWrite_groups hr, noteFault_groups]
    · rw [telCount_groups, State.modPart_groups, noteFault_groups]

/-! ### Taking a trap (R36, R346, R349) -/

/-- The record of a trap: of the thread's place, its PC and handle, and what the instruction gave. -/
theorem takeTrap_record (s : State) (t code detail : Nat) (addr : DWord) (gpa : Nat) (w : Bool)
    (h : (tfind s.threads t).isSome = true) :
    ∃ r, ((takeTrap s t code detail addr gpa w).thread t).lastRec =
      some { mkRec s t code detail (1 + 16 * w.toNat) (s.thread t).pc addr gpa (handleOf s t) 255 s.nextId with rseq := r } := by
  unfold takeTrap
  simp only [freshId]
  apply sendRec_lastRec
  split_ifs
  all_goals
    refine (congrArg Thread.lastRec (thread_modThread { s with nextId := s.nextId + 1 } t t _ h)).trans ?_
    rw [if_pos rfl]

/-- Of the groups a trap changes counters alone, and the region of the thread's own. -/
theorem takeTrap_group (s : State) (t code detail : Nat) (addr : DWord) (gpa : Nat) (w : Bool) (g : Nat) :
    ∃ gc, (takeTrap s t code detail addr gpa w).group g =
      { s.group g with gc, idem := if g = (s.thread t).group then none else (s.group g).idem } := by
  unfold takeTrap
  simp only [freshId]
  generalize hY : (({ s with nextId := s.nextId + 1 } : State).modThread t _) = Y
  generalize hS : (if code = 8 then _ else gcEvent Y 14 t 1 : State) = S
  have hSY : S.groups = (gcEvent Y 14 t 1).groups := by rw [← hS]; split_ifs <;> rfl
  have hYs : Y.groups = s.groups := by rw [← hY]; rfl
  have hSg : S.group g = { s.group g with gc := (S.group g).gc } := by
    have hg : S.group g = (gcEvent Y 14 t 1).group g := by unfold State.group; rw [hSY]
    have hYg : Y.group g = s.group g := by unfold State.group; rw [hYs]
    rw [hg, ← hYg]
    exact gcEvent_group Y 14 t 1 g
  refine ⟨(S.group g).gc, ?_⟩
  unfold State.group
  rw [sendRec_groups]
  refine (group_modGroup_listed S (s.thread t).group g _).trans ?_
  by_cases hg : g = (s.thread t).group
  · rw [if_pos hg, ← hg]
    by_cases hl : (tfind S.groups g).isSome = true
    · rw [if_pos ⟨rfl, hl⟩, hSg]
      rfl
    · rw [if_neg (fun x => hl x.2)]
      have hn : S.group g = noGroup := by
        unfold State.group
        rw [Option.not_isSome_iff_eq_none.1 hl]
        rfl
      have hi : (S.group g).idem = none := by rw [hn]; rfl
      calc S.group g = { S.group g with idem := none } := by rw [← hi]
        _ = _ := by rw [hSg]; rfl
  · rw [if_neg (fun x => hg x.1), if_neg hg, hSg]
    rfl

/-! ### A checker that mismatches (R344, R410) -/

/-- A thread alone whose unit `u` mismatches traps PIPE_ERROR at an instruction that would retire. -/
theorem forLanes_mismatch {c : Ctl} {us : List Nat} {f : State → Nat → State → Lane} {s s' : State} {t u : Nat}
    (hm : s.iss.members = [t]) (hh : s.iss.held = none) (hb : s.iss.bad = [.checker t u]) (hu : us = [u])
    (hi : tfind (s.core (coreOfThread t)).inj 4 = none) (hg : guardOf (s.thread t) c = true) (hf : f s t s = .retire s') :
    forLanes c us f s = .next (takeTrap s t 8 u 0 0 false) := by
  have hbank : bankStruck s t = false := by unfold bankStruck; rw [hb]; simp
  have hstruck : checkerStruck s t us = some u := by unfold checkerStruck; rw [hb, hu]; simp
  have hlane : laneStep c us f s s t = takeTrap s t 8 u 0 0 false := by
    unfold laneStep
    simp only [hg, Bool.not_true, Bool.false_eq_true, if_false, injPipe_none hi, hf, hbank, hstruck, Option.none_or, pipeTrap]
  unfold forLanes runLanes
  rw [issueView_fresh hh, hm]
  simp only [List.foldl_cons, List.foldl_nil]
  rw [hlane, captureHeld_one hm (takeTrap_held ..)]

end Sys2Proof.Machine

open Sys2Proof Sys2Proof.Machine

/-- Settles O24: the traps of TRAP and BKPT are their lane functions' answers; what a trap writes is read off its record and its group;
and a mismatch comes before the retirement of an addition. -/
theorem trapsParkTheirThread : Obligations.TrapsParkTheirThread := by
  unfold Obligations.TrapsParkTheirThread
  refine ⟨fun s t c code h => ⟨?_, ?_⟩, fun s t code detail addr gpa w h => ?_, fun s t c m d a b hp hm hh hb hi hg hs => ?_⟩
  · refine (forOut_alone (us := []) (f := fun _ _ _ => .trapD 6 code.toNat) h).trans ?_
    simp only [Lane.trapD]
    rw [trapCount_other s t 6 _ 0 (by decide) (.inl (by decide))]
  · refine (forOut_alone (us := []) (f := fun _ _ _ => .trapD 7 code.toNat) h).trans ?_
    simp only [Lane.trapD]
    rw [trapCount_other s t 7 _ 0 (by decide) (.inl (by decide))]
  · intro s'
    obtain ⟨r, hr⟩ := takeTrap_record s t code detail addr gpa w h
    have hth := takeTrap_thread s t code detail addr gpa w h
    refine ⟨⟨_, hr, rfl, rfl, rfl, rfl, rfl, rfl, rfl, rfl, rfl, rfl⟩, ?_, fun u hu => ?_, ?_, fun g => ?_⟩
    · exact (hth t).trans (if_pos rfl)
    · exact (hth u).trans (if_neg hu)
    · obtain ⟨gc, hgc⟩ := takeTrap_group s t code detail addr gpa w (s.thread t).group
      rw [hgc, if_pos rfl]
    · obtain ⟨gc, hgc⟩ := takeTrap_group s t code detail addr gpa w g
      rw [hgc]
  · have hc : coreOfThread t = s.iss.core := hp.core t (by rw [hm]; exact List.mem_singleton_self t)
    rw [← hc] at hi
    refine forLanes_mismatch hm hh hb ?_ hi hg (retireAlu_alone hs)
    cases d <;> rfl

end

section
/-! PROOFS. SFU- and DIV-class instructions: their results queued, and then written. -/

namespace Sys2Proof.Machine

set_option Elab.async false  -- theorem after theorem: every thread of a compile takes a stack of its own

/-! ### Units that a change of another leaves alone -/

@[simp] theorem core_modThread (s : State) (t c : Nat) (f : Thread → Thread) : (s.modThread t f).core c = s.core c := rfl
@[simp] theorem core_modGroup (s : State) (g c : Nat) (f : Group → Group) : (s.modGroup g f).core c = s.core c := rfl
@[simp] theorem thread_modCore (s : State) (c t : Nat) (f : Core → Core) : (s.modCore c f).thread t = s.thread t := rfl
@[simp] theorem thread_modGroup (s : State) (g t : Nat) (f : Group → Group) : (s.modGroup g f).thread t = s.thread t := rfl
@[simp] theorem group_modCore (s : State) (c g : Nat) (f : Core → Core) : (s.modCore c f).group g = s.group g := rfl
@[simp] theorem group_modThread (s : State) (t g : Nat) (f : Thread → Thread) : (s.modThread t f).group g = s.group g := rfl

/-! ### Issue (R33, R344) -/

/-- The lead keeps its destination, be it a k register. -/
@[simp] theorem keepDest_lead (d : Reg) : keepDest true d = some d := by cases d <;> rfl

/-- An SFU- or DIV-class instruction of a thread alone: its result waits in the core's queue, and it retires. -/
theorem execLong_solo {s : State} {t : Nat} {c : Ctl} (h : Solo s t c) (unit : Nat) (d : Reg)
    (f : Thread → Group → List Word × Fl) :
    let r := f (s.thread t) (s.group (s.thread t).group)
    execLong c unit d f s = .next (finishedNext t (sfuQueued s c t d unit r.1 r.2)) := by
  intro r
  unfold execLong
  rw [forLanes_solo h]
  simp only [freshId, bankStruck_false h.clean, Bool.false_eq_true, if_false, leadOf_solo h, beq_self_eq_true, keepDest_lead]
  rfl

/-- An approximate function of FP32. -/
theorem execSfu1_solo {s : State} {t : Nat} {c : Ctl} (h : Solo s t c) (d : Reg) (a : Src) (f : Nat → Nat × Fl) :
    let r := f (srcF32 (s.thread t) (s.group (s.thread t).group) a)
    execSfu1 c d a f s = .next (finishedNext t (sfuQueued s c t d 6 (natWords 1 r.1) r.2)) := execLong_solo h 6 d _

/-! ### Words of an integer result (R79, R80) -/

theorem toNat_emod_pow (v : Int) (n : Nat) : (v % (2 ^ n : Int)).toNat = (BitVec.ofInt n v).toNat := by
  rw [BitVec.toNat_ofInt]
  norm_cast

theorem dstWords_putInt (m : IMod) (v : Int) : dstWords m.wd m.un (putInt m v) = intWords m v := by
  obtain ⟨wd, un, sat⟩ := m
  unfold putInt intWords
  dsimp only
  generalize (if sat = true then min (max v (intMin (wdBits wd) un)) (intMax (wdBits wd) un) else v) = x
  rw [toNat_emod_pow]
  cases wd with
  | w32 => simp only [dstWords, natWords, wdBits, BitVec.ofNat_toNat, BitVec.setWidth_eq]
  | w64 =>
    simp only [dstWords, natWords, wdBits, dwords, List.cons.injEq, and_true]
    generalize BitVec.ofInt 64 x = y
    constructor
    · apply BitVec.eq_of_toNat_eq; simp [lo32]
    · apply BitVec.eq_of_toNat_eq; simp [hi32, Nat.shiftRight_eq_div_pow]
  | w16 =>
    simp only [dstWords, wdBits]
    generalize BitVec.ofInt 16 x = y
    have := y.isLt
    cases un
    · simp only [Bool.false_eq_true, if_false, BitVec.ofNat_toNat, BitVec.setWidth_eq]
    · simp only [if_true, List.cons.injEq, and_true]
      apply BitVec.eq_of_toNat_eq
      simp only [BitVec.toNat_ofNat, BitVec.toNat_setWidth]
      omega
  | w8 =>
    simp only [dstWords, wdBits]
    generalize BitVec.ofInt 8 x = y
    have := y.isLt
    cases un
    · simp only [Bool.false_eq_true, if_false, BitVec.ofNat_toNat, BitVec.setWidth_eq]
    · simp only [if_true, List.cons.injEq, and_true]
      apply BitVec.eq_of_toNat_eq
      simp only [BitVec.toNat_ofNat, BitVec.toNat_setWidth]
      omega

theorem execIdiv_solo {s : State} {t : Nat} {c : Ctl} (h : Solo s t c) (m : IMod) (d : Reg) (a b : Src) :
    let th := s.thread t
    let g := s.group th.group
    execIdiv c m d a b s = .next (finishedNext t (sfuQueued s c t d 7
      (intWords m (idivVal m (srcInt th g m.wd m.un a) (srcInt th g m.wd m.un b))) 0)) := by
  intro th g
  rw [← dstWords_putInt]
  exact execLong_solo h 7 d _

theorem execIrem_solo {s : State} {t : Nat} {c : Ctl} (h : Solo s t c) (m : IMod) (d : Reg) (a b : Src) :
    let th := s.thread t
    let g := s.group th.group
    execIrem c m d a b s = .next (finishedNext t (sfuQueued s c t d 7
      (intWords m (iremVal m (srcInt th g m.wd m.un a) (srcInt th g m.wd m.un b))) 0)) := by
  intro th g
  rw [← dstWords_putInt]
  exact execLong_solo h 7 d _

theorem execSqrt_solo {s : State} {t : Nat} {c : Ctl} (h : Solo s t c) (f : Bool) (rm : Rnd) (d : Reg) (a : Src) :
    let r := fSqrt (ftOf f) rm (srcF (s.thread t) (s.group (s.thread t).group) f a)
    execSqrt c f rm d a s = .next (finishedNext t (sfuQueued s c t d (if f then 7 else 6) (natWords (nregs64 f) r.1) r.2)) :=
  execLong_solo h _ d _

theorem execFdiv_solo {s : State} {t : Nat} {c : Ctl} (h : Solo s t c) (f : Bool) (rm : Rnd) (d : Reg) (a b : Src) :
    let g := s.group (s.thread t).group
    let r := fDiv (ftOf f) rm (srcF (s.thread t) g f a) (srcF (s.thread t) g f b)
    execFdiv c f rm d a b s = .next (finishedNext t (sfuQueued s c t d 7 (natWords (nregs64 f) r.1) r.2)) :=
  execLong_solo h 7 d _

/-! ### Completion (R33, R344) -/

/-- The entry leaves the queue, and its flags reach the thread and the snapshots of the thread's entries in flight. -/
def sfuPassed (s : State) (core : Nat) (e : SfuEntry) : State :=
  (s.modCore core (fun x => { x with
    sfu := (x.sfu.filter (fun y => y.id != e.id)).map (fun y =>
      if y.thread == e.thread then { y with before := { y.before with fpflags := y.before.fpflags ||| e.flags } } else y) })).modThread
    e.thread (fun x => { x with fpflags := x.fpflags ||| e.flags })

/-- SFU_DIV_RESULT of the oldest entry of its thread, whose checker finds nothing. -/
theorem execSfuDivResult_passes {s : State} {core : Nat} {e : SfuEntry}
    (he : (s.core core).sfu.find? (fun y => y.id == e.id) = some e)
    (hold : ∀ y ∈ (s.core core).sfu, y.thread = e.thread → e.id ≤ y.id)
    (hi : tfind (s.core (coreOfThread e.thread)).inj 4 = none) :
    execSfuDivResult core e.id false s = .next (writeResult (sfuPassed s core e) e.thread e.d e.res) := by
  have hany : (s.core core).sfu.any (fun y => y.thread == e.thread && decide (y.id < e.id)) = false := by
    rw [List.any_eq_false]
    intro y hy h
    simp only [Bool.and_eq_true, beq_iff_eq, decide_eq_true_eq] at h
    have := hold y hy h.1
    omega
  unfold execSfuDivResult
  simp only [he, hany, injPipe_none hi, Bool.false_eq_true, if_false, Option.isSome_none, Bool.or_false]
  rfl

/-- Its entry is no longer in the queue. -/
theorem sfuPassed_sfu (s : State) (core : Nat) (e : SfuEntry) : ∀ y ∈ ((sfuPassed s core e).core core).sfu, y.id ≠ e.id := by
  intro y hy
  unfold sfuPassed at hy
  rw [core_modThread, core_modCore, if_pos rfl] at hy
  obtain ⟨z, hz, rfl⟩ := List.mem_map.1 hy
  have hne : z.id ≠ e.id := by simpa using (List.mem_filter.1 hz).2
  split_ifs <;> exact hne

/-- A result written to a v register of a thread changes of its core's queue the snapshots alone. -/
theorem writeResult_sfu_id (s : State) (t core : Nat) (d : Option Reg) (ws : List Word) {id : Nat}
    (h : ∀ y ∈ (s.core core).sfu, y.id ≠ id) : ∀ y ∈ ((writeResult s t d ws).core core).sfu, y.id ≠ id := by
  cases d with
  | none => exact h
  | some r =>
    cases r with
    | k n => exact h
    | v n =>
      intro y hy
      unfold writeResult at hy
      dsimp only at hy
      rw [core_modCore] at hy
      split_ifs at hy with hc
      · obtain ⟨z, hz, rfl⟩ := List.mem_map.1 hy
        rw [← hc] at hz
        split_ifs
        · exact h z hz
        · exact h z hz
      · exact h y hy

theorem sfuPassed_thread {s : State} {core : Nat} {e : SfuEntry} (h : (tfind s.threads e.thread).isSome = true) (u : Nat) :
    (sfuPassed s core e).thread u =
      if u = e.thread then { s.thread e.thread with fpflags := (s.thread e.thread).fpflags ||| e.flags } else s.thread u :=
  thread_modThread (s.modCore core _) e.thread u _ h

/-- Where a result goes: a v register to its thread, a k register to the thread's group, one of another thread's lead nowhere. -/
theorem writeResult_units (s : State) (t : Nat) (d : Option Reg) (ws : List Word) (h : (tfind s.threads t).isSome = true)
    (hg : (tfind s.groups (s.thread t).group).isSome = true) :
    outerState (writeResult s t d ws) = outerState s ∧
    (∀ u, u ≠ t → (writeResult s t d ws).thread u = s.thread u) ∧
    ((writeResult s t d ws).thread t = match d with
      | some (.v n) => vwrites n.val ws (s.thread t)
      | _ => s.thread t) ∧
    ∀ g, (writeResult s t d ws).group g = match d with
      | some (.k n) => if g = (s.thread t).group then kwrites n.val ws (s.group g) else s.group g
      | _ => s.group g := by
  cases d with
  | none => exact ⟨rfl, fun _ _ => rfl, rfl, fun _ => rfl⟩
  | some r =>
    cases r with
    | v n =>
      exact ⟨rfl, fun u hu => (thread_modThread s t u _ h).trans (if_neg hu), (thread_modThread s t t _ h).trans (if_pos rfl), fun _ => rfl⟩
    | k n =>
      refine ⟨rfl, fun _ _ => rfl, rfl, fun g => (group_modGroup s _ g _ hg).trans ?_⟩
      dsimp only
      split_ifs with hgt
      · rw [hgt]
      · rfl

end Sys2Proof.Machine

open Sys2Proof Sys2Proof.Machine

/-- Settles O18: each form is the shared issue with its own result; completion writes it where it belongs. -/
theorem sfuAndDividerInstructionsCompleteInTwoSteps : Obligations.SfuAndDividerInstructionsCompleteInTwoSteps := by
  unfold Obligations.SfuAndDividerInstructionsCompleteInTwoSteps
  refine ⟨fun s t c h => ?_, fun s core e he hold hc hi hl hg => ?_⟩
  · exact ⟨execIdiv_solo h, execIrem_solo h, fun d a => execSfu1_solo h d a rcpVal, fun d a => execSfu1_solo h d a rsqVal,
      fun d a => execSfu1_solo h d a ex2Val, fun d a => execSfu1_solo h d a lg2Val, fun d a => execSfu1_solo h d a (trigVal false),
      fun d a => execSfu1_solo h d a (trigVal true), fun d a => execSfu1_solo h d a tanhVal, fun d a => execSfu1_solo h d a sigmVal,
      execSqrt_solo h, execFdiv_solo h⟩
  · have hp := sfuPassed_thread (core := core) hl
    have hpg : (sfuPassed s core e).thread e.thread = { s.thread e.thread with fpflags := (s.thread e.thread).fpflags ||| e.flags } := by
      rw [hp, if_pos rfl]
    obtain ⟨ho, hne, hth, hgr⟩ := writeResult_units (sfuPassed s core e) e.thread e.d e.res
      (by rw [← hl]; exact listed_modThread (s.modCore core _) _ _ _) (by rw [hpg]; exact hg)
    refine ⟨_, execSfuDivResult_passes he hold (by rw [hc]; exact hi), ho, fun u hu => (hne u hu).trans ((hp u).trans (if_neg hu)),
      writeResult_sfu_id _ _ _ _ _ (sfuPassed_sfu s core e), ?_⟩
    rw [hpg] at hth hgr
    cases hd : e.d with
    | none =>
      rw [hd] at hth hgr
      exact ⟨hth, hgr⟩
    | some r =>
      rw [hd] at hth hgr
      cases r <;> exact ⟨hth, hgr⟩

end

section
/-! PROOFS. SPAWN and LASTSEL: a group that starts on its core, and the selection of a last. -/

namespace Sys2Proof.Machine

set_option Elab.async false  -- theorem after theorem: every thread of a compile takes a stack of its own

/-! ### Registers of a thread that starts (R17, R289) -/

@[simp] theorem natWords_length (n x : Nat) : (natWords n x).length = n := by
  induction n generalizing x with
  | zero => rfl
  | succ n ih => simp [natWords, ih]

/-- A list of words, listed by number from `k` on. -/
theorem tfind_zipIdx (vs : List Word) (k n : Nat) :
    tfind ((vs.zipIdx k).map (fun p => (p.2, p.1))) n = if k ≤ n then vs[n - k]? else none := by
  induction vs generalizing k with
  | nil => simp [tfind]
  | cons v vs ih =>
    simp only [List.zipIdx_cons, List.map_cons, tfind, ih]
    by_cases h : n = k
    · subst h; simp
    · rw [if_neg h]
      by_cases hlt : n < k
      · rw [if_pos hlt, if_neg (by omega)]
      · rw [if_neg hlt, if_pos (by omega), if_pos (by omega), show n - k = n - (k + 1) + 1 by omega, List.getElem?_cons_succ]

/-- A thread that starts with values in v0 on. -/
def startedThread (gk i : Nat) (pc : DWord) (vs : List Word) : Thread :=
  { group := gk, tid := i, v := vs.zipIdx.map (fun p => (p.2, p.1)), pc }

theorem vread_startedThread (gk i : Nat) (pc : DWord) (vs : List Word) (n : Nat) :
    vread (startedThread gk i pc vs) n = vs.getD n 0 := by
  unfold vread startedThread tget
  rw [tfind_zipIdx, if_pos (Nat.zero_le n), Nat.sub_zero, List.getD_eq_getElem?_getD]

/-- The threads of a group stand in its turns, one slot after another. -/
theorem tfind_startThreads (gk core turn : Nat) (pc : DWord) (vs : List Word) (ts : Tbl Thread) {i size : Nat} (hi : i < size) :
    tfind (startThreads gk core turn size pc vs ts) (slotsPerCore * core + 64 * turn + i) = some (startedThread gk i pc vs) := by
  unfold startThreads
  induction size with
  | zero => omega
  | succ size ih =>
    rw [List.range_succ, List.foldl_append, List.foldl_cons, List.foldl_nil, tfind_tset]
    by_cases h : i = size
    · subst h; rw [if_pos rfl]; rfl
    · rw [if_neg (by omega)]
      exact ih (by omega)

/-! ### SPAWN (R288, R289) -/

/-- What SPAWN answers for a thread of a launch, and the group it starts. -/
theorem execSpawn_alone {s : State} {t : Nat} {c : Ctl} {l : Launch} (h : Alone s t c) (hl : s.launchOf t = some l)
    (wait : Bool) (gs : Fin 8) (d : VReg) (a : Reg) (imm : DWord) :
    let th := s.thread t
    let g := s.group th.group
    let pc := th.pc + imm
    let size := 64 * (gs.val + 1)
    let none' := finishedNext t (resultWaits s c t (.reg (.v d) [BitVec.allOnes 32]))
    exec (.spawn c wait gs d a imm) s = .next (
      if pcOk pc = false then takeTrap s t 4 0 0 0 false
      else if l.r.det then takeTrap s t 0x17 0 0 0 false
      else if l.diverted then none'
      else match (if l.spawned < 65536 - l.r.ncores then findTurns s g.core size g.regs else none) with
        | none => if wait then keptIssue c t s (waitRoom s t) else none'
        | some turn => finishedNext t (resultWaits
            ((addGroup s g.launch l g.core turn (l.r.ncores + l.spawned) size g.regs pc (regWords th g 8 a)).modLaunch g.launch
              (fun l => { l with spawned := l.spawned + 1 })) c t (.reg (.v d) [BitVec.ofNat 32 (l.r.ncores + l.spawned)]))) := by
  intro th g pc size none'
  show execSpawn c wait gs d a imm s = _
  unfold execSpawn
  rw [forOut_alone h]
  simp only [hl]
  by_cases hpc : pcOk pc = false
  · rw [if_pos hpc]
    simp only [pc, th] at hpc
    simp only [hpc, Bool.not_false, if_true, Lane.trapC]
    rw [trapCount_other s t 4 0 0 (by decide) (by decide)]
  rw [if_neg hpc]
  simp only [pc, th, Bool.not_eq_false] at hpc
  simp only [hpc, Bool.not_true, Bool.false_eq_true, if_false]
  cases l.r.det with
  | true =>
    simp only [if_true, Lane.trapC]
    rw [trapCount_other s t 0x17 0 0 (by decide) (by decide)]
  | false =>
    simp only [Bool.false_eq_true, if_false]
    cases l.diverted with
    | true => rfl
    | false =>
      simp only [Bool.false_eq_true, if_false]
      generalize (if l.spawned < 65536 - l.r.ncores then _ else none : Option Nat) = room
      cases room with
      | none => cases wait <;> rfl
      | some turn => rfl

/-- A thread of the group that SPAWN starts. -/
theorem addGroup_thread (s : State) (lk : Nat) (l : Launch) (core turn grp size regs : Nat) (pc : DWord) (vs : List Word) {i : Nat}
    (hi : i < size) : tfind (addGroup s lk l core turn grp size regs pc vs).threads (512 * core + 64 * turn + i) =
      some (startedThread s.nextId i pc vs) := tfind_startThreads _ core turn pc vs _ hi

theorem addGroup_group (s : State) (lk : Nat) (l : Launch) (core turn grp size regs : Nat) (pc : DWord) (vs : List Word) :
    (addGroup s lk l core turn grp size regs pc vs).group s.nextId = startGroup lk l core turn grp size regs .resident := by
  show (tfind (tset s.nextId _ s.groups) s.nextId).getD noGroup = _
  rw [tfind_tset_self]
  rfl

/-! ### LASTSEL (R290, R291) -/

/-- The value of a selection: the address of the last's code, or 0. -/
def lastCode (l : Launch) : Option (Nat × Nat) → DWord
  | some (_, x) => l.base + BitVec.ofNat 64 (fld x 0x60 8)
  | none => 0

/-- The group takes its pad values and the number of the last from the selection. -/
def lastTaken (l : Launch) (hit : Option (Nat × Nat)) (g : Group) : Group :=
  { g with
    pads := (List.range 8).map (fun i => match hit with
      | some (_, x) => if flag (fld x 0x68 1) i then BitVec.ofNat 32 (fld x (0x40 + 4 * i) 4) else l.r.shape.getD i 0
      | none => l.r.shape.getD i 0)
    selected := match hit with | some (n, _) => n | none => g.selected }

/-- LASTSEL of a thread alone whose table may be read and is read to its end or to a match. -/
theorem execLastsel_selects {s : State} {t : Nat} {c : Ctl} {l : Launch} {e : Nat} {s1 s2 : State} {base : DWord}
    {hit : Option (Nat × Nat)} {obj : Option ObjSel} (h : Alone s t c) (hl : s.launchOf t = some l)
    (hcap : capture s (coreOfThread t) (s.partOf t)
      (match obj with | some o => objIdx (s.group (s.thread t).group) o | none => l.r.lastobj) = some (e, s1))
    (hchk : checkEntry s1 (coreOfThread t) (s.partOf t) e [1, 2] { r := true } .plain 0 false (oExtent e) 1 = .inb base)
    (hext : oExtent e % 128 = 0 ∧ 128 ≤ oExtent e ∧ oExtent e ≤ 32768)
    (hord : rangeOrdered s (coreOfThread t) (s.partOf t) t (s.privOf t) base (oExtent e) = true)
    (hscan : lastScan s1 t base l.r.shape (oExtent e / 128) 0 = .ok (hit, s2)) (d : Reg) (q : PDst) :
    exec (.lastsel c d q obj) s = .next (finishedNext t (resultWaits (s2.modGroup (s.thread t).group (lastTaken l hit)) c t
      { regs := [(d, dwords (lastCode l hit))], preds := [(q.val, hit.isSome)] })) := by
  obtain ⟨hmod, hmin, hmax⟩ := hext
  have hbad : ¬ (oExtent e % 128 ≠ 0 ∨ oExtent e = 0 ∨ 32768 < oExtent e) := by omega
  have hall : (s.iss.members.filter (fun u => guardOf (s.thread u) c)).all (fun u =>
      rangeOrdered s (coreOfThread t) (s.partOf t) u (s.privOf u) base (oExtent e)) = true := by
    rw [h.only]; simp [h.guard, hord]
  show execLastsel c d q obj s = _
  unfold execLastsel
  rw [forOut_alone h]
  cases obj
  all_goals
    dsimp only at hcap
    simp only [leadOf_solo h.toSolo, Option.getD_some, hl, hcap, hchk, hbad, if_false, hall, Bool.not_true, Bool.false_eq_true,
      if_true, hscan, beq_self_eq_true]
    cases hit <;> rfl

end Sys2Proof.Machine

open Sys2Proof Sys2Proof.Machine

/-- Settles O46: each case is one branch of what SPAWN answers; the started threads are read off the table; LASTSEL is its scan's answer. -/
theorem spawnAndLastsel : Obligations.SpawnAndLastsel := by
  unfold Obligations.SpawnAndLastsel
  refine ⟨fun s t c wait gs d a imm l h hl => ?_, fun s t c d q obj l e s1 s2 base hit h hl => ?_⟩
  · intro th g pc size grp none'
    have spawn := fun wait => execSpawn_alone h hl wait gs d a imm
    refine ⟨fun hpc => ?_, fun h16 h57 => ⟨fun hdet => ?_, fun hdet hdiv => ?_, fun hdet hdiv =>
      ⟨fun hn hroom => ?_, fun hn => ?_, fun turn hn hroom => ?_⟩⟩⟩
    · have : pcOk pc = false := by rw [Bool.eq_false_iff, Ne, pcOk_iff]; omega
      rw [spawn, if_pos this]
    all_goals have hok : ¬ pcOk pc = false := by rw [Bool.not_eq_false, pcOk_iff]; exact ⟨h16, h57⟩
    · rw [spawn, if_neg hok, if_pos hdet]
    all_goals have hdet' : ¬ l.r.det = true := by rw [hdet]; exact Bool.false_ne_true
    · rw [spawn, if_neg hok, if_neg hdet', if_pos hdiv]
    all_goals have hdiv' : ¬ l.diverted = true := by rw [hdiv]; exact Bool.false_ne_true
    · rw [spawn, if_neg hok, if_neg hdet', if_neg hdiv', if_pos hn, hroom]
      rfl
    · rw [spawn, if_neg hok, if_neg hdet', if_neg hdiv', if_neg (by omega)]
      rfl
    · intro s1
      refine ⟨?_, fun i hi => ⟨_, addGroup_thread s _ l _ turn grp size _ pc _ hi, rfl, rfl, rfl, rfl, rfl, ?_, ?_, fun n _ => ?_⟩⟩
      · rw [spawn, if_neg hok, if_neg hdet', if_neg hdiv', if_pos hn, hroom]
      · exact congrArg Group.grp (addGroup_group s _ l _ turn grp size _ pc _)
      · exact (congrArg Group.launch (addGroup_group s g.launch l g.core turn grp size g.regs pc _)).trans rfl
      · rw [vread_startedThread]
        split_ifs with hlt
        · rfl
        · exact List.getD_eq_default _ _ (by rw [regWords, natWords_length]; omega)
  · intro g hcap hchk hmod hmin hmax hord hscan field pads v s3
    refine (execLastsel_selects h hl hcap hchk ⟨hmod, hmin, hmax⟩ hord hscan d q).trans ?_
    cases hit <;> rfl

end

section
/-! PROOFS. Reads and writes of system registers, counters, scratch ways, regions and injectors. -/

namespace Sys2Proof.Machine

set_option Elab.async false  -- theorem after theorem: every thread of a compile takes a stack of its own

/-! ### Results written at once (R35) -/

/-- A result without flags leaves a thread's flags. -/
theorem fpflags_or_none (th : Thread) : { th with fpflags := th.fpflags ||| (0 : Fl) } = th := by
  have h : th.fpflags ||| (0 : Fl) = th.fpflags := BitVec.or_zero
  rw [h]

@[simp] theorem qwrite_fpflags (i : Nat) (b : Bool) (th : Thread) : (qwrite i b th).fpflags = th.fpflags := by rw [qwrite_eq]

/-- Nothing but a register is written where a result has neither predicates nor flags. -/
theorem applyRes_nat (s : State) (t : Nat) (d : Reg) (n x : Nat) :
    applyRes s t true (.nat d n x) = writeReg s t true d (natWords n x) :=
  modThread_same (s := writeReg s t true d (natWords n x)) (fpflags_or_none _)

/-- The same with one predicate. -/
theorem applyRes_natPred (s : State) (t : Nat) (d : Reg) (n x : Nat) (q : PDst) (b : Bool) :
    applyRes s t true { Res.nat d n x with preds := [(q.val, b)] } = writePred (writeReg s t true d (natWords n x)) t (some q) b := by
  refine congrArg (State.modThread (writeReg s t true d (natWords n x)) t) (funext fun th => ?_)
  have h := fpflags_or_none (qwrite q.val b th)
  rw [qwrite_fpflags] at h
  exact h

/-- An instruction that gives a result at once, for a thread alone; `g` is what its reading changes. -/
theorem forLanes_result {s : State} {t : Nat} {c : Ctl} (h : Alone s t c) (us : List Nat) (g : State → Nat → State)
    (r : State → Nat → Res) : forLanes c us (fun s0 t s => retireAlu s0 (g s t) t c (r s0 t)) s =
      .next (finishedNext t (applyRes (g s t) t true (r s t))) := by
  rw [forLanes_solo h.toSolo]
  simp only [retireAlu_alone h.sfu, leadOf_solo h.toSolo, beq_self_eq_true]

/-! ### Reads (R149, R292, R297) -/

theorem execSysrd_alone {s : State} {t : Nat} {c : Ctl} (h : Alone s t c) (w : Bool) (sel : BitVec 12) (d : Reg) :
    exec (.sysrd c w sel d) s = .next (finishedNext t (writeReg s t true d (natWords (nregs64 w) (sysVal s t sel.toNat)))) := by
  rw [← applyRes_nat]
  exact forLanes_result h _ (fun s _ => s) fun s0 t => .nat d (nregs64 w) (sysVal s0 t sel.toNat)

theorem execCntrd_alone {s : State} {t : Nat} {c : Ctl} (h : Alone s t c) (w : Bool) (ctr : BitVec 10) (d : Reg) :
    exec (.cntrd c w ctr d) s =
      .next (finishedNext t (writeReg (cntRead s t ctr.toNat) t true d (natWords (nregs64 w) (cntVal s t ctr.toNat).toNat))) := by
  rw [← applyRes_nat]
  exact forLanes_result h _ (fun s t => cntRead s t ctr.toNat) fun s0 t => .nat d (nregs64 w) (cntVal s0 t ctr.toNat).toNat

theorem execDlread_alone {s : State} {t : Nat} {c : Ctl} (h : Alone s t c) (sel : DlSel) (q : Option PDst) (d : Reg) :
    exec (.dlread c sel q d) s = .next (finishedNext t (writePred (writeReg s t true d (natWords 2 (dlValue s t sel))) t q
      (s.die (dieOfCore (coreOfThread t))).locked)) := by
  cases q with
  | none =>
    show _ = Host.Outcome.next (finishedNext t (writeReg s t true d (natWords 2 (dlValue s t sel))))
    rw [← applyRes_nat]
    exact forLanes_result h _ (fun s _ => s) fun s0 t => { Res.nat d 2 (dlValue s0 t sel) with preds := [] }
  | some q =>
    rw [← applyRes_natPred]
    exact forLanes_result h _ (fun s _ => s) fun s0 t =>
      { Res.nat d 2 (dlValue s0 t sel) with preds := [(q.val, (s0.die (dieOfCore (coreOfThread t))).locked)] }

theorem execPadmask_alone {s : State} {t : Nat} {c : Ctl} {l : Launch} (h : Alone s t c) (hl : s.launchOf t = some l) (n : Fin 8)
    (qd qe : PDst) (a : Src) :
    let x := srcW (s.thread t) (s.group (s.thread t).group) a
    let sh := l.r.shape.getD n.val 0
    let p := (s.group (s.thread t).group).pads.getD n.val 0
    exec (.padmask c n qd qe a) s =
      .next (finishedNext t (writePred (writePred s t (some qd) (decide (x < sh ∧ x < p))) t (some qe) (decide (sh ≤ x ∧ x < p)))) := by
  intro x sh p
  have hmin : decide (x < if sh < p then sh else p) = decide (x < sh ∧ x < p) := by
    rw [decide_eq_decide]
    split_ifs with hlt <;> simp only [BitVec.lt_def] at hlt ⊢ <;> omega
  show execPadmask c n qd qe a s = _
  unfold execPadmask
  rw [forLanes_solo h.toSolo, ← hmin, Bool.decide_and]
  simp only [hl, x, sh, p]

/-! ### One value for the PC group (R147) -/

/-- An illegal value traps its thread, and nothing is written. -/
theorem execLead_traps {c : Ctl} {f : State → Nat → Except Lane (State → State)} {s : State} {t : Nat} (h : Alone s t c)
    {code detail : Nat} (hf : f s t = .error (.trapD code detail)) (hc : code ≠ 8 ∧ code ≠ 0x52 ∧ code ≠ 0x50 ∧ code ≠ 0x51) :
    execLead c f s = .next (takeTrap s t code detail 0 0 false) := by
  have hb : s.iss.members.any (fun t => guardOf (s.thread t) c && !(sfuOf s t).isEmpty) = false := by
    rw [h.only]; simp [h.sfu]
  unfold execLead
  rw [leadOf_solo h.toSolo]
  simp only [hb, Bool.false_eq_true, if_false, issueView_fresh h.fresh, hf]
  rw [forLanes_solo h.toSolo]
  simp only [Lane.trapD]
  rw [trapCount_other s t code detail 0 ⟨hc.1, hc.2.1⟩ (.inl hc.2.2)]

/-! ### Scratch ways (R21, R253, R254) -/

theorem waysOfMask_of_legal {n : Nat} (h : n ≤ 12) : waysOfMask (2 ^ n - 1) = some n := by
  interval_cases n <;> decide

theorem waysOfMask_none {m : Nat} (h : ∀ n, n ≤ 12 → m ≠ 2 ^ n - 1) : waysOfMask m = none := by
  unfold waysOfMask
  rw [List.find?_eq_none]
  intro n hn hm
  rw [List.mem_range] at hn
  exact h n (by omega) (beq_iff_eq.1 hm).symm

/-- The 16 bits that a write of the ways takes from its source. -/
def waysField (s : State) (t : Nat) (w : Bool) (a : Src) : Nat :=
  (BitVec.ofNat 32 (srcNat (s.thread t) (s.group (s.thread t).group) (nregs64 w) a)).toNat % 2 ^ 16

theorem waysField_eq (s : State) (t : Nat) (w : Bool) (a : Src) :
    waysField s t w a = srcNat (s.thread t) (s.group (s.thread t).group) (nregs64 w) a % 2 ^ 16 := by
  unfold waysField
  rw [BitVec.toNat_ofNat]
  exact Nat.mod_mod_of_dvd _ (by decide)

/-- What SYSWR of the scratch ways takes as its value. -/
def waysEffect (w : Bool) (a : Src) (s : State) (t : Nat) : Except Lane (State → State) :=
  match waysOfMask (waysField s t w a) with
  | none => .error (.trapC 0x11)
  | some n => .ok (requestWays (coreOfThread t) n)

theorem execSyswr_ways (c : Ctl) (w : Bool) (a : Src) (s : State) :
    exec (.syswr c w 0x038 a) s = execLead c (waysEffect w a) s := rfl

theorem execSyswr_waysLegal {s : State} {t n : Nat} {c : Ctl} (h : Alone s t c) (w : Bool) (a : Src) (hn : n ≤ 12)
    (hm : srcNat (s.thread t) (s.group (s.thread t).group) (nregs64 w) a % 2 ^ 16 = 2 ^ n - 1) :
    exec (.syswr c w 0x038 a) s =
      .next ((finishedNext t s).modCore (coreOfThread t) (fun x => { x with ways := x.ways ++ [(n, s.nextId)] })) := by
  rw [execSyswr_ways]
  refine execLead_alone h (eff := requestWays (coreOfThread t) n) ?_
  unfold waysEffect
  rw [waysField_eq, hm, waysOfMask_of_legal hn]

theorem execSyswr_waysIllegal {s : State} {t : Nat} {c : Ctl} (h : Alone s t c) (w : Bool) (a : Src)
    (hm : ∀ n, n ≤ 12 → srcNat (s.thread t) (s.group (s.thread t).group) (nregs64 w) a % 2 ^ 16 ≠ 2 ^ n - 1) :
    exec (.syswr c w 0x038 a) s = .next (takeTrap s t 0x11 0 0 0 false) := by
  rw [execSyswr_ways]
  refine execLead_traps h ?_ (by decide)
  unfold waysEffect
  rw [waysField_eq, waysOfMask_none hm]
  rfl

theorem execWayset_alone {s : State} {t : Nat} {c : Ctl} (h : Alone s t c) (n : Fin 16) :
    exec (.wayset c n) s = .next (if n.val ≤ 12 then
      (finishedNext t s).modCore (coreOfThread t) (fun x => { x with ways := x.ways ++ [(n.val, s.nextId)] })
      else takeTrap s t 0x11 0 0 0 false) := by
  show execWayset c n s = _
  unfold execWayset
  by_cases hn : n.val ≤ 12
  · rw [if_pos hn]
    exact execLead_alone h (eff := requestWays (coreOfThread t) n.val) (if_neg (by omega))
  · rw [if_neg hn]
    exact execLead_traps h (if_pos (by omega)) (by decide)

/-! ### Flags, violations, counters, regions (R20, R150, R202) -/

theorem execSyswr_fpflags {s : State} {t : Nat} {c : Ctl} (h : Alone s t c) (hl : lateOf s t = []) (w : Bool) (a : Src) :
    exec (.syswr c w 0x039 a) s = .next (finishedNext t (s.modThread t (fun x => { x with
      fpflags := (BitVec.ofNat 32 (srcNat (s.thread t) (s.group (s.thread t).group) (nregs64 w) a)).setWidth 5 }))) := by
  show forOut c [] (fun s0 t s =>
      if !(lateOf s0 t).isEmpty then .hold (waitAgain s t)
      else .retire (s.modThread t (fun x => { x with
        fpflags := (BitVec.ofNat 32 (srcNat (s0.thread t) (s0.group (s0.thread t).group) (nregs64 w) a)).setWidth 5 }))) s = _
  rw [forOut_alone h]
  simp only [hl, List.isEmpty_nil, Bool.not_true, Bool.false_eq_true, if_false]

theorem execSyswr_laviol {s : State} {t : Nat} {c : Ctl} (h : Alone s t c) (w : Bool) (a : Src) :
    exec (.syswr c w 0x03A a) s = .next ((finishedNext t s).modCore (coreOfThread t) (fun x => { x with
      laviol := BitVec.ofNat 32 (srcNat (s.thread t) (s.group (s.thread t).group) (nregs64 w) a) })) :=
  execLead_alone h (f := fun s0 l => .ok (fun s => s.modCore (coreOfThread l) (fun x => { x with
    laviol := BitVec.ofNat 32 (srcNat (s0.thread l) (s0.group (s0.thread l).group) (nregs64 w) a) }))) rfl

theorem execCntcfg_alone {s : State} {t : Nat} {c : Ctl} (h : Alone s t c) (gc : Fin 4) (a : Src) :
    let x := srcW (s.thread t) (s.group (s.thread t).group) a
    exec (.cntcfg c gc a) s = .next (if cntCfgOk x then (finishedNext t s).modGroup (s.thread t).group (fun y =>
      { y with gc := y.gc.set gc.val { y.gc.getD gc.val {} with next := some (x, t) } }) else takeTrap s t 0x12 0 0 0 false) := by
  intro x
  show execCntcfg c gc a s = _
  unfold execCntcfg
  by_cases hx : cntCfgOk x = true
  · rw [if_pos hx]
    exact execLead_alone h (eff := fun s' => s'.modGroup (s.thread t).group (fun y =>
      { y with gc := y.gc.set gc.val { y.gc.getD gc.val {} with next := some (x, t) } })) (if_neg (by rw [hx]; decide))
  · rw [if_neg hx]
    exact execLead_traps h (if_pos (by rw [Bool.not_eq_true] at hx; rw [hx]; rfl)) (by decide)

theorem execMregion_default {s : State} {t : Nat} {c : Ctl} (h : Alone s t c) (mode : RegionMode) :
    exec (.mregion c mode none) s = .next ((finishedNext t s).modGroup (s.thread t).group (fun y =>
      { y with region := regionCode mode, mtol := mtolDefault, mretry := 3 })) :=
  execLead_alone h (f := fun s0 l => .ok (fun s => s.modGroup (s0.thread l).group (fun y =>
    { y with region := regionCode mode, mtol := mtolDefault, mretry := 3 }))) rfl

theorem execMregion_given {s : State} {t : Nat} {c : Ctl} (h : Alone s t c) (mode : RegionMode) (r : Reg) :
    let x := regD (s.thread t) (s.group (s.thread t).group) r
    exec (.mregion c mode (some r)) s = .next (if hi32 x < 16 then (finishedNext t s).modGroup (s.thread t).group (fun y =>
      { y with region := regionCode mode, mtol := lo32 x, mretry := (hi32 x).toNat }) else takeTrap s t 0x40 2 0 0 false) := by
  intro x
  show execMregion c mode (some r) s = _
  unfold execMregion
  by_cases hx : hi32 x < 16
  · rw [if_pos hx]
    exact execLead_alone h (eff := fun s' => s'.modGroup (s.thread t).group (fun y =>
      { y with region := regionCode mode, mtol := lo32 x, mretry := (hi32 x).toNat })) (if_neg (BitVec.not_le.2 hx))
  · rw [if_neg hx]
    exact execLead_traps h (if_pos (BitVec.not_lt.1 hx)) (by decide)

/-! ### Injectors (R358, R360) -/

/-- What ERRINJ takes as its value. -/
def injEffect (a : Reg) (s : State) (t : Nat) : Except Lane (State → State) :=
  let th := s.thread t
  let x := regNat th (s.group th.group) 8 a
  if !(s.part (s.partOf t)).test then .ok (fun s => injIgnored s t (x % 16) th.pc)
  else
    match injParse x t (s.group th.group).launch (s.partOf t) s.nextId with
    | none => .error (.trapC 0x34)
    | some (0, _) => .ok (fun s => s.modCore (coreOfThread t) (fun y => { y with inj := [] }))
    | some (cls, i) => .ok (fun s => setInj s (coreOfThread t) cls (some i))

theorem execErrinj_eq (c : Ctl) (a : Reg) (s : State) : exec (.errinj c a) s = execLead c (injEffect a) s := rfl

end Sys2Proof.Machine

open Sys2Proof Sys2Proof.Machine

/-- Settles O23: the reads are results written at once; the writes take one value of the thread, which is legal or traps. -/
theorem systemRegistersCountersAndInjectors : Obligations.SystemRegistersCountersAndInjectors := by
  unfold Obligations.SystemRegistersCountersAndInjectors
  refine ⟨fun s t c h => ?_, fun s t c h => ?_, fun s t c a h => ?_⟩
  · exact ⟨execSysrd_alone h, execCntrd_alone h, execDlread_alone h, fun n qd qe a l hl => execPadmask_alone h hl n qd qe a⟩
  · intro th g co next
    refine ⟨execSyswr_fpflags h, execSyswr_laviol h, fun w a n => execSyswr_waysLegal h w a, fun w a => execSyswr_waysIllegal h w a,
      execWayset_alone h, fun gc a hx => ?_, fun gc a hx => ?_, execMregion_default h, fun mode r hx => ?_, fun mode r hx => ?_⟩
    · exact (execCntcfg_alone h gc a).trans (by rw [if_pos hx])
    · exact (execCntcfg_alone h gc a).trans (by rw [if_neg (by rw [hx]; exact Bool.false_ne_true)])
    · exact (execMregion_given h mode r).trans (by rw [if_pos hx])
    · exact (execMregion_given h mode r).trans (by rw [if_neg (BitVec.not_lt.2 hx)])
  · intro th x lk next
    have test : ∀ {e}, (s.part (s.partOf t)).test = true → injParse x t lk (s.partOf t) s.nextId = e → injEffect a s t = (match e with
        | none => .error (.trapC 0x34)
        | some (0, _) => .ok (fun s => s.modCore (coreOfThread t) (fun y => { y with inj := [] }))
        | some (cls, i) => .ok (fun s => setInj s (coreOfThread t) cls (some i))) := by
      intro e ht he
      unfold injEffect
      simp only [x, lk, th] at he
      simp only [ht, Bool.not_true, Bool.false_eq_true, if_false, he]
    refine ⟨fun ht => ?_, fun ht he => ?_, fun i ht he => ?_, fun cls i ht he => ?_⟩
    · rw [execErrinj_eq]
      refine execLead_alone h (eff := fun s => injIgnored s t (x % 16) th.pc) ?_
      unfold injEffect
      simp only [ht, Bool.not_false, if_true]
      rfl
    · exact execLead_traps h (test ht he) (by decide)
    · exact execLead_alone h (test ht he)
    · exact execLead_alone h (eff := fun s => setInj s (coreOfThread t) (cls + 1) (some i)) (test ht he)

end

section
/-! PROOFS. A false guard: what an instruction still does for a thread alone; the traps that come before the guard. -/

namespace Sys2Proof.Machine

set_option Elab.async false  -- theorem after theorem: every thread of a compile takes a stack of its own

/-- A listed value that is replaced by one which a test takes alike leaves the count of the test. -/
theorem length_filter_tset {α : Type} {x : Nat} {v y : α} {p : Nat × α → Bool} :
    ∀ {t : Tbl α}, tfind t x = some v → p (x, y) = p (x, v) → ((tset x y t).filter p).length = (t.filter p).length
  | [], hf, _ => by cases hf
  | (k, w) :: t, hf, hp => by
    unfold tfind at hf
    unfold tset
    split_ifs at hf ⊢ with h1
    · obtain rfl := Option.some.inj hf
      rw [List.filter_cons, List.filter_cons, hp, h1]
      split_ifs <;> rfl
    · rw [List.filter_cons, List.filter_cons]
      split_ifs
      · exact congrArg (· + 1) (length_filter_tset hf hp)
      · exact length_filter_tset hf hp

/-! ### A thread alone whose guard is false (R31) -/

/-- Thread `t` alone issues for the first time, and its guard is false. -/
structure GuardedOff (s : State) (t : Nat) (c : Ctl) : Prop where
  only : s.iss.members = [t]
  fresh : s.iss.held = none
  guard : guardOf (s.thread t) c = false

/-- The thread only retires, but for the model's numbering. -/
def OnlyRetires (s : State) (t : Nat) (o : Out) : Prop := ∃ n, o = .next { finishedNext t s with nextId := n }

section
variable {s : State} {t : Nat} {c : Ctl}

theorem GuardedOff.runLanes (h : GuardedOff s t c) (us : List Nat) (f : State → Nat → State → Lane) :
    runLanes c us f s = finishedNext t s := by
  have hlane : laneStep c us f s s t = finishedNext t s := by
    unfold laneStep
    rw [h.guard]
    rfl
  unfold Machine.runLanes
  rw [issueView_fresh h.fresh, h.only]
  simp only [List.foldl_cons, List.foldl_nil]
  rw [hlane]
  exact captureHeld_one h.only (retireTo_held ..)

theorem GuardedOff.lanes (h : GuardedOff s t c) {us : List Nat} {f : State → Nat → State → Lane} :
    OnlyRetires s t (forLanes c us f s) :=
  ⟨s.nextId, congrArg Host.Outcome.next (h.runLanes us f)⟩

/-- An instruction that numbers its PC group's access first. -/
theorem GuardedOff.numbered (h : GuardedOff s t c) {us : List Nat} {f : State → Nat → State → Lane} :
    OnlyRetires s t (forLanes c us f { s with nextId := s.nextId + 1 }) :=
  ⟨s.nextId + 1, congrArg Host.Outcome.next
    (GuardedOff.runLanes (s := { s with nextId := s.nextId + 1 }) ⟨h.only, h.fresh, h.guard⟩ us f)⟩

theorem GuardedOff.noLead (h : GuardedOff s t c) : leadOf s c = none := by
  rw [leadOf_fresh h.fresh, h.only]
  simp [h.guard]

theorem GuardedOff.lead (h : GuardedOff s t c) {f : State → Nat → Except Lane (State → State)} :
    OnlyRetires s t (execLead c f s) := by
  unfold execLead
  rw [h.noLead]
  exact h.lanes

/-- Retired, the thread runs; the others are as they were. -/
theorem mem_finishedNext_threads {p : Nat × Thread} (hp : p ∈ (finishedNext t s).threads) : p.2.run = .running ∨ p ∈ s.threads := by
  change p ∈ tmod t _ s.threads at hp
  unfold tmod at hp
  split at hp
  · rcases tset_keys _ _ _ hp with rfl | hp
    · exact .inl rfl
    · exact .inr hp
  · exact .inr hp

/-- Its group opens no region where no thread waits at an IDEMBEG. -/
theorem idemSettle_finishedNext (hw : ∀ p ∈ s.threads, ∀ f n, p.2.run ≠ .waiting (.idem f n)) (g : Nat) :
    idemSettle (finishedNext t s) g = finishedNext t s := by
  unfold idemSettle
  split
  · rfl
  · next t0 th0 rest hl =>
    have hm : (t0, th0) ∈ (finishedNext t s).threads := by
      have : (t0, th0) ∈ (finishedNext t s).liveOf g := by rw [hl]; exact List.mem_cons_self ..
      exact (List.mem_filter.1 (List.mem_filter.1 this).1).1
    split
    · next f n hr =>
      rcases mem_finishedNext_threads hm with hrun | hold
      · rw [hrun] at hr; cases hr
      · exact absurd hr (hw _ hold f n)
    · rfl

/-- As many threads of a group are alive after a running one has retired. -/
theorem liveOf_finishedNext (hr : (s.thread t).run = .running) (g : Nat) :
    ((finishedNext t s).liveOf g).length = (s.liveOf g).length := by
  unfold State.liveOf State.threadsOf
  rw [List.filter_filter, List.filter_filter]
  show ((tmod t _ s.threads).filter _).length = _
  unfold tmod
  cases hf : tfind s.threads t with
  | none => rfl
  | some x =>
    have hx : s.thread t = x := by unfold State.thread; rw [hf]; rfl
    rw [hx] at hr
    exact length_filter_tset hf (by simp [hr])

theorem finishedNext_bars (g : Nat) : ((finishedNext t s).group g).bars = (s.group g).bars := by
  unfold finishedNext finished retireTo
  rw [gcEvent_group]
  rfl

/-- No phase of a barrier of the group completes, when none is about to. -/
theorem barSettle_finishedNext {g : Nat} (hr : (s.thread t).run = .running) (ho : PhasesOpen s g) (id : Nat) :
    barSettle (finishedNext t s) g id = finishedNext t s := by
  have hopen : ((gbar (finishedNext t s) g id).count = 0 ∨
      (gbar (finishedNext t s) g id).count < barExpected (finishedNext t s) g (gbar (finishedNext t s) g id)) ∧
      (gbar (finishedNext t s) g id).closing = [] := by
    have he : ∀ b, barExpected (finishedNext t s) g b = barExpected s g b := by
      intro b; unfold barExpected; rw [liveOf_finishedNext hr]
    rw [he]
    unfold gbar tget
    rw [finishedNext_bars]
    cases hf : tfind (s.group g).bars id with
    | none => exact ⟨.inl rfl, rfl⟩
    | some b =>
      obtain ⟨hcount, hclosing⟩ := ho _ (mem_of_tfind hf)
      exact ⟨.inr hcount, hclosing⟩
  generalize finishedNext t s = s1 at hopen ⊢
  obtain ⟨hcount, hclosing⟩ := hopen
  have hclose : barClose s1 g (gbar s1 g id) = gbar s1 g id := by
    unfold barClose
    rw [if_neg (by omega)]
  unfold barSettle
  simp only [hclose, hclosing, List.filter_nil, List.isEmpty_nil, Bool.true_and]
  rw [if_pos]
  rw [beq_iff_eq, ← hclosing]

/-- A false guard, instruction by instruction. -/
theorem GuardedOff.exec {i : Instr} (h : GuardedOff s t c) (hc : ctlOf i = some c) (hx : isCross i = false)
    (hw : ∀ p ∈ s.threads, ∀ f n, p.2.run ≠ .waiting (.idem f n)) (ho : PhasesOpen s (s.thread t).group)
    (hr : (s.thread t).run = .running) : OnlyRetires s t (exec i s) := by
  cases i with
  | iadd | isub | iadd3 | imul | imulhi | imad | imadw | idiv | irem | imin | imax | iabs | ineg | isad | icmp | isel | iaddi | imuli
  | icmpi | lea | idot4 | idot2 | mov | movi | movw | and | or | xor | andn | not | ltab | ltabi | ptab | shl | shr | sar | rotl | fshf
  | bfx | bfi | popc | clz | ctz | brev | bperm | clmul | clmulh | fadd | fsub | fmul | ffma | faddi | fmuli | ffmai | fmin | fmax
  | fcmp | fclass | hadd2 | hmul2 | hfma2 | hmin2 | hmax2 | hcmp2 | fdot2 | cvt | cvtpk | f2i | i2f | frnd | scalex | dqblk | rcp | rsq
  | sqrt | ex2 | lg2 | sin | cos | tanh | sigm | fdiv | bra | call | brx | callx | ret | joinwait | joindrop | exit | yield | nop
  | sleep | ipf | ldk | prf | objrd | otsync | cpy | cpyt | cpymc | waitany | waitall | ffr | tagclr | tagrd | fence | boinit
  | boexpect | boarrive | bowait | botest | acq | tryacq | rel | publish | mma | wload | wdrop | accld | accst | accz | mstat
  | mcancel | wtalloc | wsend | wtfree | wtquery | wtrenew | awlnext | awlpeek | emit | emitclose | spawn | lastsel | padmask | dlread
  | commit | idemend | sysrd | trap | bkpt | cntrd | trapret | parkrd | oplog | replay =>
    obtain rfl := Option.some.inj hc
    exact h.lanes
  | joinset | ld | st | lds | sts | ldg | stg | cline | atom | atomcas | red | bankop | bankred =>
    obtain rfl := Option.some.inj hc
    exact h.numbered
  | mregion c mode a =>
    obtain rfl := Option.some.inj hc
    show OnlyRetires s t (execMregion c mode a s)
    exact h.lead
  | cntcfg c gc a =>
    obtain rfl := Option.some.inj hc
    show OnlyRetires s t (execCntcfg c gc a s)
    exact h.lead
  | wayset c n =>
    obtain rfl := Option.some.inj hc
    show OnlyRetires s t (execWayset c n s)
    exact h.lead
  | errinj c a =>
    obtain rfl := Option.some.inj hc
    exact h.lead (f := injEffect a)
  | pmov c form =>
    obtain rfl := Option.some.inj hc
    cases form <;> exact h.lanes
  | atomf c op noret sc ord d mem b =>
    obtain rfl := Option.some.inj hc
    cases noret <;> exact h.numbered
  | syswr c w sel a =>
    obtain rfl := Option.some.inj hc
    show OnlyRetires s t (execSyswr c w sel a s)
    unfold execSyswr
    split
    · exact h.lead
    · exact h.lanes
    · exact h.lead
    · exact h.lanes
  | bar c arv id n =>
    obtain rfl := Option.some.inj hc
    refine ⟨s.nextId, ?_⟩
    show execBar c arv id n s = _
    unfold execBar
    rw [h.runLanes, h.only]
    exact congrArg Host.Outcome.next (barSettle_finishedNext hr ho id.val)
  | idembeg c f n =>
    obtain rfl := Option.some.inj hc
    refine ⟨s.nextId, ?_⟩
    show execIdembeg c f n s = _
    unfold execIdembeg
    rw [h.runLanes, h.only]
    exact congrArg Host.Outcome.next (idemSettle_finishedNext hw _)
  | wrapdone c =>
    obtain rfl := Option.some.inj hc
    refine ⟨s.nextId, ?_⟩
    show execWrapdone c s = _
    unfold execWrapdone
    rw [h.runLanes, h.only]
    simp only [List.find?_cons, List.find?_nil, h.guard, Bool.false_and]
    rfl
  | lxch | lpoll | lpeer | lred | lscan | llead | lbcast | qblk => cases hx
  | _ => cases hc

/-! ### A cross-lane instruction (R140) -/

/-- A cross-lane meeting whose arrivals are all inactive completes with no effect but on the open ones. -/
theorem settleKey_inactive {co g n half : Nat} {pc : DWord} (h : ∀ x ∈ (s.core co).cross, x.active = []) :
    ∃ f, settleKey s co g n pc half = s.modCore co f ∨ settleKey s co g n pc half = s := by
  unfold settleKey
  split
  · next x hx =>
    have hact : x.active = [] := h x (List.mem_of_find?_eq_some hx)
    unfold settleCross
    split_ifs
    · exact ⟨id, .inr rfl⟩
    · simp only [hact, List.foldl_nil]
      exact ⟨_, .inl rfl⟩
  · exact ⟨id, .inr rfl⟩

theorem tset_tset {α : Type} (x : Nat) (y z : α) (t : Tbl α) : tset x z (tset x y t) = tset x z t := by
  induction t with
  | nil => simp [tset]
  | cons p t ih =>
    obtain ⟨k, v⟩ := p
    by_cases h1 : x = k
    · simp [tset, h1]
    · by_cases h2 : x < k
      · simp [tset, h1, h2]
      · simp [tset, h1, h2, ih]

theorem modCore_modCore (s : State) (co : Nat) (f g : Core → Core) : (s.modCore co f).modCore co g = s.modCore co (fun x => g (f x)) := by
  unfold State.modCore State.setCore
  simp only [State.core, tfind_tset_self, tset_tset, Option.getD_some]

/-- A cross-lane instruction is an arrival of its PC group, with operands of its own. -/
theorem exec_cross {i : Instr} (hc : ctlOf i = some c) (hx : isCross i = true) :
    ∃ us block f, ∀ s, exec i s = execCross c us block i f s := by
  cases i with
  | lxch | lpoll | lpeer | lred | lscan | llead | lbcast =>
    obtain rfl := Option.some.inj hc
    exact ⟨_, false, _, fun s => rfl⟩
  | qblk =>
    obtain rfl := Option.some.inj hc
    exact ⟨_, true, _, fun s => rfl⟩
  | _ => cases hx

/-- The thread retires, and its lane counts as arrived. -/
theorem GuardedOff.cross (h : GuardedOff s t c) (hcross : (s.core (coreOfThread t)).cross = []) (us : List Nat) (block : Bool)
    (op : Instr) (f : Thread → Group → XArr) :
    ∃ k, execCross c us block op f s = .next ((finishedNext t s).modCore (coreOfThread t) k) := by
  generalize hhalf : (if block then laneOf t / 32 else 2) = half
  have hlane : crossLane c us block op f s s t =
      arrive (finishedNext t s) (coreOfThread t) (s.thread t).group (turnOf t) (s.thread t).pc half (laneOf t) none op := by
    unfold crossLane findCross
    simp only [hcross, List.find?_nil, Bool.false_eq_true, if_false, h.guard, Bool.not_false, if_true, hhalf]
    rfl
  unfold execCross
  rw [h.only]
  simp only [List.foldl_cons, List.foldl_nil, hhalf]
  rw [hlane]
  have hinactive : ∀ x ∈ ((arrive (finishedNext t s) (coreOfThread t) (s.thread t).group (turnOf t) (s.thread t).pc half (laneOf t)
      none op).core (coreOfThread t)).cross, x.active = [] := by
    have hempty : ((finishedNext t s).core (coreOfThread t)).cross = [] := by
      unfold finishedNext finished retireTo
      rw [gcEvent_core, core_modCore, if_pos rfl]
      exact hcross
    unfold arrive
    rw [core_modCore, if_pos rfl]
    simp only [hempty, List.find?_nil, List.filter_nil, List.nil_append, Option.getD_none, List.mem_singleton]
    rintro x rfl
    rfl
  obtain ⟨k, hk | hk⟩ := settleKey_inactive (g := (s.thread t).group) (n := turnOf t) (pc := (s.thread t).pc) (half := half) hinactive
  · rw [hk]
    unfold arrive
    rw [modCore_modCore]
    exact ⟨_, rfl⟩
  · rw [hk]
    exact ⟨_, rfl⟩

end

end Sys2Proof.Machine

open Sys2Proof Sys2Proof.Machine

/-- Settles O10: with a false guard the shared driver retires the thread, and so do the instructions around it; the traps of R68 come before
the instruction runs. -/
theorem falseGuardOnlyRetires : Obligations.FalseGuardOnlyRetires := by
  unfold Obligations.FalseGuardOnlyRetires
  refine ⟨fun s t i c hp hm hh hc hg => ⟨?_, fun hw ho hr hx => ?_, fun hx hcross => ?_⟩, fun s core ms bad pc w held => ⟨fun e he => ?_,
    fun i t rest hi hms hr => ?_⟩, fun s core ch bad f hf hcause => ?_, fun s core ch bad code detail hf => ?_, fun s w => rfl⟩
  · unfold executesFor
    rw [hc]
    exact hg
  · exact GuardedOff.exec ⟨hm, hh, hg⟩ hc hx hw ho hr
  · have hoff : GuardedOff s t c := ⟨hm, hh, hg⟩
    have hl : (tfind s.threads t).isSome = true := hp.listed t (by rw [hm]; exact List.mem_singleton_self t)
    obtain ⟨us, block, f, he⟩ := exec_cross hc hx
    obtain ⟨k, hk⟩ := hoff.cross hcross us block i f
    have hT := retireTo_turned s t ((s.thread t).pc + 16) hl
    refine ⟨_, (he s).trans hk, ?_, hT.outer, fun u hu => ?_, fun g => hT.groups g⟩
    · exact (hT.threads t).trans (if_pos rfl)
    · exact (hT.threads u).trans (if_neg hu)
  · unfold runWord
    rw [he]
  · unfold runWord
    simp only [hi, hms, List.head?_cons, Option.map_some, Option.getD_some]
    exact if_neg (by rw [Bool.not_eq_true]; exact hr)
  · unfold issue
    rw [hf]
    exact congrArg Host.Outcome.next (by rw [if_neg hcause])
  · unfold issue
    rw [hf]

end

section
/-! PROOFS. What a step of the issue of a PC group runs, and the word placed after reset. -/

namespace Sys2Proof.Machine

set_option Elab.async false  -- theorem after theorem: every thread of a compile takes a stack of its own

/-! ### A PC group issues (R68) -/

/-- A word that decodes to an instruction with its registers in range: exactly that instruction runs. -/
theorem runWord_ok {s : State} {core : Nat} {ms : List Nat} {bad : List Bad} {pc : DWord} {w : IWord} {held : Option Held} {i : Instr}
    (hd : decodeWord w = .ok i)
    (hr : (usesOf i).inRange ((ms.head?.map (fun u => (s.group (s.thread u).group).regs)).getD 0) = true) :
    runWord s core ms bad pc w held = exec i { s with iss := ⟨core, ms, bad, pc, w, held⟩ } := by
  unfold runWord
  rw [hd]
  exact if_pos hr

theorem issue_word {s : State} {core : Nat} {ch : Choice} {bad : List Bad} {w : IWord} {i : Instr}
    (hf : fetchOf s ch.t = .word w) (hd : decodeWord w = .ok i) :
    issue s core ch bad = runWord (issueCount s core ch (some i)) core ch.ms bad (s.thread ch.t).pc w none := by
  unfold issue
  rw [hf, ← show (decodeWord w).toOption = some i by rw [hd]; rfl]

theorem step_act {s : State} {a : Act} {rest : List Act} (h : s.agenda = a :: rest) :
    step s = settled (act a { s with agenda := rest }) := by
  unfold step
  rw [h]

theorem issueAct_chosen {s : State} {core slot : Nat} {bad : List Bad} {ch : Choice}
    (hk : againKind (s.thread (slotsPerCore * core + slot)) = 0) (hn : nextIssue s core = some ch)
    (ht : ch.t = slotsPerCore * core + slot) :
    issueAct core slot bad s = issue s core ch (bad.map (Bad.onCore core)) := by
  unfold issueAct
  simp only [hk, ne_eq, not_true_eq_false, if_false, hn, ht, if_true]

/-- The act that names the thread a slot chooses issues its PC group. -/
theorem step_issues {s : State} {core slot : Nat} {bad : List Bad} {rest : List Act} {ch : Choice} {w : IWord} {i : Instr}
    (ha : s.agenda = .issue core slot bad :: rest) :
    let s0 : State := { s with agenda := rest }
    let s1 := issueCount s0 core ch (some i)
    againKind (s0.thread (slotsPerCore * core + slot)) = 0 → nextIssue s0 core = some ch → ch.t = slotsPerCore * core + slot →
    fetchOf s0 (slotsPerCore * core + slot) = .word w → decodeWord w = .ok i →
    (usesOf i).inRange ((ch.ms.head?.map (fun u => (s1.group (s1.thread u).group).regs)).getD 0) = true →
    step s = settled (exec i { s1 with
      iss := ⟨core, ch.ms, bad.map (Bad.onCore core), (s0.thread (slotsPerCore * core + slot)).pc, w, none⟩ }) := by
  intro s0 s1 hk hn ht hf hd hr
  rw [step_act ha]
  show settled (issueAct core slot bad s0) = _
  rw [issueAct_chosen hk hn ht, issue_word (ht ▸ hf) hd, runWord_ok hd hr, ht]

/-! ### Threads that wait issue their instruction again (log entry 61) -/

/-- What a thread waits in runs again, for the threads that wait in it too, and has no effect unless one of them gets on. -/
theorem retry_held {s : State} {core t : Nat} {bad : List Bad} {h : Held} {i : Instr} {s' : State} (hh : (s.thread t).held = some h)
    (hd : decodeWord h.word = .ok i) :
    let ms := pcGroup s t ((threadsOn s core).filter (fun u => (s.thread u).held == some h && mayRetry s u))
    (usesOf i).inRange ((ms.head?.map (fun u => (s.group (s.thread u).group).regs)).getD 0) = true →
    exec i { s with iss := ⟨core, ms, bad, (s.thread t).pc, h.word, some h⟩ } = .next s' →
    retry s core t bad = .next (if ms.all (fun u => (s'.thread u).run == (s.thread u).run) then s else s') := by
  intro ms hr he
  unfold retry
  simp only [hh]
  rw [runWord_ok hd hr, he]
  exact (apply_ite _ _ _ _).symm

theorem issueAct_waiting {s : State} {core slot : Nat} {bad : List Bad} (hm : mayRetry s (slotsPerCore * core + slot) = true) :
    issueAct core slot bad s = retry s core (slotsPerCore * core + slot) (bad.map (Bad.onCore core)) := by
  have hk : againKind (s.thread (slotsPerCore * core + slot)) ≠ 0 := by
    intro h
    simp [mayRetry, h] at hm
  unfold issueAct
  simp only [hk, ne_eq, not_false_eq_true, if_true, hm]

/-! ### What the count of an issue leaves -/

/-- What the count of a core, of a launch and of a group's events leave, the count of an issue leaves. -/
theorem issueCount_keeps {α : Type} (get : State → α) (hc : ∀ s c f, get (s.modCore c f) = get s)
    (hl : ∀ s l f, get (s.modLaunch l f) = get s) (hg : ∀ s ev t n, get (gcEvent s ev t n) = get s)
    (s : State) (core : Nat) (ch : Choice) (i : Option Instr) : get (issueCount s core ch i) = get s := by
  unfold issueCount
  dsimp only
  rw [foldl_keeps get (fun s u => ?_), hl, hc]
  rw [hg, apply_ite get, hg, ite_self]

theorem issueCount_threads (s : State) (core : Nat) (ch : Choice) (i : Option Instr) : (issueCount s core ch i).threads = s.threads :=
  issueCount_keeps State.threads (fun _ _ _ => rfl) (fun _ _ _ => rfl) (fun _ _ _ _ => rfl) s core ch i

theorem issueCount_hbm (s : State) (core : Nat) (ch : Choice) (i : Option Instr) : (issueCount s core ch i).hbm = s.hbm :=
  issueCount_keeps State.hbm (fun _ _ _ => rfl) (fun _ _ _ => rfl) (fun _ _ _ _ => rfl) s core ch i

theorem issueCount_regs (s : State) (core : Nat) (ch : Choice) (i : Option Instr) (g : Nat) :
    ((issueCount s core ch i).group g).regs = (s.group g).regs :=
  issueCount_keeps (fun s => (s.group g).regs) (fun _ _ _ => rfl) (fun _ _ _ => rfl)
    (fun s ev t n => by rw [gcEvent_group]) s core ch i

/-! ### A word placed after reset (log entry 31) -/

/-- After reset with the 16 bytes placed, its act taken from the agenda. -/
def freshWord (bs : List Byte) : State := { placeWord State.reset bs with agenda := [] }

@[simp] theorem lineWord_lineOfBytes (bs : List Byte) : lineWord (lineOfBytes bs) 0 = BitVec.ofNat 128 (leNat bs) := by
  rw [lineWord, lineOfBytes, Nat.mul_zero, ← BitVec.setWidth_eq_extractLsb' (by omega), BitVec.setWidth_ofNat_of_le (by omega)]

theorem decodeWord_of_bytes {bs rest : List Byte} {i : Instr} (hl : bs.length = 16) (h : decodeBytes bs = .ok (i, rest)) :
    decodeWord (BitVec.ofNat 128 (leNat bs)) = .ok i := by
  rw [decodeBytes, if_pos hl.ge, List.take_of_length_le hl.le] at h
  cases hd : decodeWord (BitVec.ofNat 128 (leNat bs)) with
  | error e => rw [hd] at h; cases h
  | ok j => rw [hd] at h; cases h; rfl

theorem decodeWord_of_table {nbits w : Nat} {i : Instr} (h : decodeTableWord nbits w = some i) :
    decodeWord (BitVec.ofNat 128 (leNat (tableBytes nbits w))) = .ok i := by
  have hl : (tableBytes nbits w).length = 16 := by rw [tableBytes, leBytes_length]
  delta decodeTableWord at h
  generalize tableBytes nbits w = bs at h hl ⊢
  cases hb : decodeBytes bs with
  | error e => simp [hb] at h
  | ok r =>
    obtain ⟨j, rest⟩ := r
    simp only [hb, Option.some.injEq] at h
    exact decodeWord_of_bytes hl (h ▸ hb)

/-- The page of the placed word translates to physical address 0 and grants the fetch. -/
theorem translate_freshWord (bs : List Byte) : translate (freshWord bs) 0 0 false 0 needX = .ok 0 := by
  have hg : (⟨0, 4096, 0, 31⟩ : Leaf).grants needX = true := by decide
  have hp : paPresent (freshWord bs) 0 = true := by
    rw [paPresent, show dieOfPa 0 = 0 by decide, show channelOf 0 = 0 by decide, show (freshWord bs).die 0 = dieReset from rfl]
    decide
  show Tlb.answer (freshWord bs) { part := 0, va := 0, size := 4096, gpa := 0, pa := 0, l1 := none, l2 := ⟨0, 4096, 0, 31⟩, priv := false }
    false 0 needX = _
  simp [Tlb.answer, hg, hp]

theorem fetchOf_freshWord (bs : List Byte) : fetchOf (freshWord bs) 0 = .word (BitVec.ofNat 128 (leNat bs)) := by
  have hw : walkLink (freshWord bs) 0 0 0 = none := rfl
  have hn : (tlbFind (freshWord bs) 0 0 0).isNone = false := rfl
  have hl : tfind ((freshWord bs).core 0).l1i 0 = some (lineOfBytes bs) := rfl
  unfold fetchOf
  simp only [show coreOfThread 0 = 0 from rfl, show (freshWord bs).partOf 0 = 0 from rfl, show (freshWord bs).privOf 0 = false from rfl,
    show ((freshWord bs).thread 0).pc.toNat = 0 from rfl, hw, translate_freshWord, hn, show lineNo 0 = 0 from rfl, hl]
  exact congrArg Fetched.word (lineWord_lineOfBytes bs)

/-- No stack trains, so no capture waits. -/
theorem fillHeld_freshWord (bs : List Byte) (w : IWord) : fillHeld (freshWord bs) 0 w = false := by
  unfold fillHeld
  rw [List.any_eq_false]
  intro i _
  have hst : ∀ l, hbmHeld (freshWord bs) (.hbm l) = false := fun _ => rfl
  simp [captureHeldUp, otLoc, hst]

/-- Nothing is in flight, so nothing holds the word back. -/
theorem wordFree_freshWord (bs : List Byte) (w : IWord) : wordFree (freshWord bs) 0 w = true := by
  have hh : ∀ i, hazard (freshWord bs) 0 i = false := fun _ => rfl
  have hn : longInFlight (freshWord bs) 0 = 0 := rfl
  have hf : loadsFull ((freshWord bs).core (coreOfThread 0)) = false := rfl
  unfold wordFree
  split
  · rfl
  · simp [hh, hn, hf]

theorem eligOf_freshWord (bs : List Byte) : eligOf (freshWord bs) 0 = .yes := by
  have hfree : (((freshWord bs).thread 0).run != .running || ((freshWord bs).thread 0).detHeld ||
      ((freshWord bs).core (coreOfThread 0)).rests.contains 0 || !groupIssues (freshWord bs) ((freshWord bs).thread 0).group ||
      diverting (freshWord bs) 0 || quantumSpent (freshWord bs) 0 || crossBusy (freshWord bs) 0 || !windowOpen (freshWord bs) 0) = false := rfl
  unfold eligOf
  simp only [hfree, fetchOf_freshWord, wordFree_freshWord, fillHeld_freshWord, Bool.false_eq_true, if_false, Bool.not_false, Bool.and_self,
    if_true]

/-- Slot 0 chooses the only thread. -/
theorem nextIssue_freshWord (bs : List Byte) : ∃ b, nextIssue (freshWord bs) 0 = some ⟨0, 0, [0], b⟩ := by
  have he : eligibleOn (freshWord bs) 0 = [0] := by
    rw [eligibleOn, show threadsOn (freshWord bs) 0 = [0] from rfl]
    simp [eligOf_freshWord]
  have hs : slot0 (freshWord bs) 0 = some 0 := by
    have hd : (threadsOn (freshWord bs) 0).filter (fun t => (freshWord bs).detOf t && detLive (freshWord bs) t) = [] := rfl
    unfold slot0
    rw [hd, he]
    rfl
  have hb : ∀ need, fmaBlocked ((freshWord bs).core 0) [0] need = false := fun need => by
    rw [fmaBlocked, show [0].any (fun t => ((freshWord bs).core 0).fmaHeld.contains (laneOf t)) = false from rfl, Bool.and_false]
  unfold nextIssue
  simp only [show ((freshWord bs).core 0).begun = none from rfl, hs, he, show pcGroup (freshWord bs) 0 [0] = [0] from rfl, hb,
    Bool.false_eq_true, if_false]
  exact ⟨_, rfl⟩

/-- The word placed after reset runs as the first instruction, for thread 0 alone. -/
theorem step_withFetchWord {nbits w : Nat} {i : Instr} (hd : decodeTableWord nbits w = some i) (hr : (usesOf i).inRange 1024 = true) :
    ∃ s0, step (State.reset.withFetchWord nbits w) = settled (exec i s0) ∧ s0.iss.members = [0] ∧ s0.iss.core = 0 ∧ s0.iss.bad = [] ∧
      s0.iss.held = none ∧ s0.threads = (State.reset.withFetchWord nbits w).threads ∧ s0.hbm = [] := by
  obtain ⟨b, hn⟩ := nextIssue_freshWord (tableBytes nbits w)
  have hregs : ((issueCount (freshWord (tableBytes nbits w)) 0 ⟨0, 0, [0], b⟩ (some i)).group
      ((issueCount (freshWord (tableBytes nbits w)) 0 ⟨0, 0, [0], b⟩ (some i)).thread 0).group).regs = 1024 := by
    rw [issueCount_regs, State.thread, issueCount_threads]
    rfl
  have hstep := step_issues (s := State.reset.withFetchWord nbits w) (core := 0) (slot := 0) (bad := []) (rest := []) rfl rfl hn rfl
    (fetchOf_freshWord _) (decodeWord_of_table hd) (by simp only [List.head?_cons, Option.map_some, Option.getD_some]; exact hregs ▸ hr)
  exact ⟨_, hstep, rfl, rfl, rfl, rfl, issueCount_threads .., issueCount_hbm ..⟩

end Sys2Proof.Machine

open Sys2Proof Sys2Proof.Machine

/-- Settles O4: an act of the agenda is taken by `issueAct`, whose cases are the two clauses; the state that places a word has nothing
in flight, so that slot 0 chooses its only thread. -/
theorem stepRunsTheDecodedInstruction : Obligations.StepRunsTheDecodedInstruction := by
  unfold Obligations.StepRunsTheDecodedInstruction
  refine ⟨fun s core slot bad rest ch w i ha => step_issues ha, ?_, fun nbits w i _ hd hr => step_withFetchWord hd hr⟩
  intro s core slot bad rest h i s' ha s0 t ms hm hh hd hr he
  rw [step_act ha]
  show settled (issueAct core slot bad s0) = _
  rw [issueAct_waiting hm, retry_held hh hd hr he]

end

section
/-! PROOFS. LOAD_COMPLETE: a load performs at its place, or a result that waits is written. -/

namespace Sys2Proof.Machine

set_option Elab.async false  -- theorem after theorem: every thread of a compile takes a stack of its own

/-! ### Bytes of a line -/

/-- Byte `i` of a little-endian number (R7). -/
theorem leNat_byte (bs : List Byte) (i : Nat) : leNat bs / 2 ^ (8 * i) % 2 ^ 8 = (bs.getD i 0).toNat := by
  induction bs generalizing i with
  | nil => simp [leNat]
  | cons b bs ih =>
    have hb := b.isLt
    cases i with
    | zero => simp only [leNat, List.getD_cons_zero, Nat.mul_zero, pow_zero, Nat.div_one]; omega
    | succ i =>
      have hd : (b.toNat + 256 * leNat bs) / 256 = leNat bs := by omega
      rw [leNat, List.getD_cons_succ, ← ih i, Nat.mul_succ, Nat.add_comm (8 * i), pow_add, ← Nat.div_div_eq_div_mul]
      exact congrArg (· / 2 ^ (8 * i) % 2 ^ 8) hd

/-- A line laid out of bytes gives back each of them. -/
theorem lineByte_lineOfBytes (bs : List Byte) {i : Nat} (hi : i < 128) : lineByte (lineOfBytes bs) i = bs.getD i 0 := by
  apply BitVec.eq_of_getLsbD_eq
  intro j hj
  rw [lineByte, lineOfBytes, BitVec.getLsbD_extractLsb', BitVec.getLsbD_ofNat, ← BitVec.testBit_toNat, ← leNat_byte bs i,
    Nat.testBit_mod_two_pow, Nat.testBit_div_two_pow, Nat.add_comm j]
  simp [hj, show 8 * i + j < 1024 by omega]

theorem mgets_getD (m : Mem) (a n i : Nat) (hi : i < n) : (mgets m a n).getD i 0 = mget m (a + i) := by
  induction n generalizing a i with
  | zero => omega
  | succ n ih =>
    cases i with
    | zero => rfl
    | succ i =>
      rw [mgets, List.getD_cons_succ, ih (a + 1) i (by omega)]
      congr 1
      omega

/-- The bytes of a home line are those of device memory. -/
theorem lineBytes_homeLine (s : State) (l i n : Nat) (h : i + n ≤ 128) :
    lineBytes (homeLine s l) i n = locRead s (.hbm (128 * l + i)) n := by
  induction n generalizing i with
  | zero => rfl
  | succ n ih =>
    rw [lineBytes, ih (i + 1) (by omega), homeLine, lineByte_lineOfBytes _ (by omega), mgets_getD _ _ _ _ (by omega)]
    rfl

/-- A mask of bytes of a line is not empty. -/
theorem byteMask_ne_zero {i n : Nat} (hi : i < 128) (hn : 0 < n) : byteMask i n ≠ 0 := by
  intro h
  have hb : (byteMask i n).getLsbD i = true := by
    rw [byteMask, BitVec.getLsbD_ofNat, Nat.testBit_mul_two_pow]
    simp [hi, hn]
  rw [h] at hb
  simp at hb

/-! ### What performing a load leaves -/

/-- The memories, what places bytes in them, threads, k registers and the scratch of every core are as they were. -/
structure SameBytes (s s' : State) : Prop where
  threads : s'.threads = s.threads
  hbm : s'.hbm = s.hbm
  bank : s'.bank = s.bank
  host : s'.host = s.host
  remote : s'.remote = s.remote
  parts : s'.parts = s.parts
  epoch : ∀ d, (s'.die d).bankEpoch = (s.die d).bankEpoch
  scratch : ∀ x, (s'.core x).scratch = (s.core x).scratch
  k : ∀ g, (s'.group g).k = (s.group g).k

namespace SameBytes

theorem refl (s : State) : SameBytes s s :=
  ⟨rfl, rfl, rfl, rfl, rfl, rfl, fun _ => rfl, fun _ => rfl, fun _ => rfl⟩

theorem trans {s s1 s2 : State} (h : SameBytes s s1) (h1 : SameBytes s1 s2) : SameBytes s s2 :=
  ⟨h1.threads.trans h.threads, h1.hbm.trans h.hbm, h1.bank.trans h.bank, h1.host.trans h.host, h1.remote.trans h.remote,
    h1.parts.trans h.parts, fun d => (h1.epoch d).trans (h.epoch d), fun x => (h1.scratch x).trans (h.scratch x),
    fun g => (h1.k g).trans (h.k g)⟩

theorem foldl {α : Type} {f : State → α → State} (hf : ∀ s a, SameBytes s (f s a)) (l : List α) (s : State) :
    SameBytes s (l.foldl f s) := by
  induction l generalizing s with
  | nil => exact refl s
  | cons a l ih => exact (hf s a).trans (ih _)

theorem modDie (s : State) (d : Nat) {f : Die → Die} (hf : (f (s.die d)).bankEpoch = (s.die d).bankEpoch) : SameBytes s (s.modDie d f) where
  __ := refl s
  epoch u := by
    show ((tfind (tset d (f (s.die d)) s.dies) u).getD dieReset).bankEpoch = _
    rw [tfind_tset]
    split_ifs with h
    · rw [h]; exact hf
    · rfl

theorem modCore (s : State) (c : Nat) {f : Core → Core} (hf : ∀ x, (f x).scratch = x.scratch) : SameBytes s (s.modCore c f) where
  __ := refl s
  scratch u := by
    rw [core_modCore]
    split_ifs with h
    · rw [h]; exact hf _
    · rfl

theorem gcEvent (s : State) (ev t n : Nat) : SameBytes s (gcEvent s ev t n) where
  __ := refl s
  k g := by rw [gcEvent_group]

theorem l2Use (s : State) (die sector slice part l : Nat) (rcopy alloc : Bool) :
    SameBytes s (l2Use s die sector slice part l rcopy alloc) := by
  refine modDie s die ?_
  dsimp only
  split_ifs
  · rfl
  · rfl
  · split
    · rfl
    · split_ifs <;> rfl

theorem homeUse (s : State) (part pa : Nat) (alloc : Bool) : SameBytes s (homeUse s part pa alloc) := l2Use ..

theorem barCopy (s : State) (c l : Nat) : SameBytes s (barCopy s c l) :=
  modDie s _ (by split_ifs <;> rfl)

theorem injScratch (s : State) (c o : Nat) : SameBytes s (injScratch s c o) := by
  have hinj (i : Option Injector) : SameBytes s (setInj s c 2 i) := modCore s c fun _ => rfl
  unfold Machine.injScratch
  split
  · split_ifs
    · dsimp only
      split_ifs
      · exact (hinj _).trans (modDie _ _ rfl)
      · exact hinj _
    · exact refl s
  · exact refl s

theorem injScratchAll (s : State) (c o n : Nat) : SameBytes s (injScratchAll s c o n) := by
  induction n generalizing s o with
  | zero => exact refl s
  | succ n ih => exact (injScratch s c o).trans (ih _ _)

theorem l1Count (s : State) (c t : Nat) (hit : Bool) : SameBytes s (l1Count s c t hit) :=
  (modCore s c (f := fun x => { x with cnt := bump 1 (if hit then 0x19 else 0x1A) x.cnt }) fun _ => rfl).trans (gcEvent ..)

/-- What the bytes at a place depend on is the same. -/
theorem locByte {s s' : State} (h : SameBytes s s') (loc : Loc) : locByte s' loc = locByte s loc := by
  cases loc with
  | hbm pa => exact congrArg (mget · pa) h.hbm
  | bank d b => simp only [Machine.locByte, bankGet, bankBase, h.bank, h.epoch]
  | scratch c o => exact congrArg (mget · o) (h.scratch c)
  | remote d p e o => simp only [Machine.locByte, epEntry, State.part, h.remote, h.parts]
  | host p w o => simp only [Machine.locByte, window, State.part, h.host, h.parts]
  | zero => rfl

theorem locRead {s s' : State} (h : SameBytes s s') (loc : Loc) (n : Nat) : locRead s' loc n = locRead s loc n := by
  induction n generalizing loc with
  | zero => rfl
  | succ n ih => rw [Machine.locRead, Machine.locRead, h.locByte, ih]

end SameBytes

/-! ### A load through the L1 (R248) -/

theorem fetchLine_unheld (s : State) (c part l : Nat) (ch : BitVec 4) :
    fetchLine s c part l false ch = (homeLine s l, barCopy (homeUse s part (128 * l) (chL2 ch)) c l) := by
  unfold fetchLine
  simp only [Bool.false_and, Bool.false_eq_true, if_false]

/-- A fetched line under no dirty bytes stays as it is. -/
theorem mergeLine_clean (x : Line) : mergeLine x ⟨0, 0, 0⟩ = ⟨x, BitVec.allOnes 128, 0⟩ := by
  have h : (List.range 128).foldl (fun a i => if (0 : BitVec 128).getLsbD i then setLineByte a i (lineByte (0 : Line) i) else a) x = x := by
    refine foldl_keeps id (fun a i => ?_) _ x
    simp
  exact congrArg (L1Line.mk · (BitVec.allOnes 128) 0) h

theorem l1Has_of_none {s : State} {c pa n : Nat} (h : tfind (s.core c).l1d (lineNo pa) = none) (hn : 0 < n) : l1Has s c pa n = false := by
  have hb := byteMask_ne_zero (Nat.mod_lt pa (by omega : 0 < 128)) hn
  unfold l1Has
  rw [h]
  simpa using hb.symm

/-- The L1 does not hold the line: the bytes come from its home, and the line enters the L1 where it may. -/
theorem l1Load_miss {s : State} {c part pa n : Nat} {ch : BitVec 4} (h : tfind (s.core c).l1d (lineNo pa) = none) (hn : 0 < n)
    (hl : pa % 128 + n ≤ 128) (hr : (s.core c).l1d.length < l1Capacity (s.core c)) :
    (l1Load s c part pa n false ch).1 = locRead s (.hbm pa) n ∧ SameBytes s (l1Load s c part pa n false ch).2.2 := by
  have hsame : SameBytes s (barCopy (homeUse s part (128 * lineNo pa) (chL2 ch)) c (lineNo pa)) :=
    (SameBytes.homeUse ..).trans (SameBytes.barCopy ..)
  have hroom : l1Room (barCopy (homeUse s part (128 * lineNo pa) (chL2 ch)) c (lineNo pa)) c part (lineNo pa) =
      barCopy (homeUse s part (128 * lineNo pa) (chL2 ch)) c (lineNo pa) := by
    refine if_pos ?_
    rw [Bool.or_eq_true, decide_eq_true_eq]
    exact Or.inr hr
  have hbytes : lineBytes (homeLine s (lineNo pa)) (pa % 128) n = locRead s (.hbm pa) n := by
    rw [lineBytes_homeLine _ _ _ _ hl, show 128 * lineNo pa + pa % 128 = pa from Nat.div_add_mod pa 128]
  unfold l1Load
  simp only [l1Has_of_none h hn, h, Option.getD_none, fetchLine_unheld, mergeLine_clean, Bool.false_eq_true, if_false, hroom, hbytes]
  split_ifs
  · exact ⟨rfl, hsame⟩
  · refine ⟨rfl, ?_⟩
    dsimp only
    exact hsame.trans (SameBytes.modCore _ _ fun _ => rfl)

/-- What a load needs of a place in device memory: the L1 lacks its line and has room for it, and the bytes lie in one line. -/
def MissesL1 (s : State) (c : Nat) (held : Bool) (n : Nat) (loc : Loc) : Prop :=
  (s.core c).l1d.length < l1Capacity (s.core c) ∧
    ∀ pa, loc = .hbm pa → tfind (s.core c).l1d (lineNo pa) = none ∧ held = false ∧ pa % 128 + n ≤ 128

/-- The bytes at a place, and nothing that another read would show. -/
theorem readNow_reads {s : State} {c t part n : Nat} {held : Bool} {ch : BitVec 4} {loc : Loc} (h : MissesL1 s c held n loc) (hn : 0 < n) :
    (readNow s c t part held ch loc n).1 = locRead s loc n ∧ SameBytes s (readNow s c t part held ch loc n).2 := by
  obtain ⟨hroom, hhbm⟩ := h
  cases loc with
  | hbm pa =>
    obtain ⟨hmiss, rfl, hline⟩ := hhbm pa rfl
    obtain ⟨hbytes, hsame⟩ := l1Load_miss (part := part) (ch := ch) hmiss hn hline hroom
    exact ⟨hbytes, hsame.trans (SameBytes.l1Count ..)⟩
  | scratch d o => exact ⟨rfl, SameBytes.injScratchAll ..⟩
  | bank d b => exact ⟨rfl, SameBytes.refl s⟩
  | remote d p e o => exact ⟨rfl, SameBytes.refl s⟩
  | host p w o => exact ⟨rfl, SameBytes.refl s⟩
  | zero => exact ⟨rfl, SameBytes.refl s⟩

/-! ### LOAD_COMPLETE of a load -/

theorem performAcc_load {s : State} {c t part : Nat} {acc : Access} {loc : Loc} {sz : LdSz} (hk : acc.kind = .load sz)
    (ho : acc.order = .rlx) :
    performAcc s c t part acc loc =
      (ldWords sz (readNow s c t part acc.held acc.ch loc (ldBytes sz)).1, (readNow s c t part acc.held acc.ch loc (ldBytes sz)).2) := by
  have hr (s : State) : releaseAt s c part acc.scope .rlx = s := by simp [releaseAt, show (Order.rlx == .rel || Order.rlx == .ar) = false from rfl]
  have ha (s : State) : acquireAt s c acc.scope .rlx = s := by simp [acquireAt, show (Order.rlx == .acq || Order.rlx == .ar) = false from rfl]
  unfold performAcc
  simp only [hk, ho, hr, ha, AccKind.size]

/-- One load asks the home slice of its line. -/
def askHome (c part : Nat) (s : State) (y : LoadEntry) : State :=
  match accResolve s c part y.acc with
  | .ok (.hbm pa) => if l1Has s c pa y.acc.kind.size || hbmHeld s (.hbm pa) then s else homeUse s part pa (chL2 y.acc.ch)
  | _ => s

theorem askHome_leaves (c part : Nat) (s : State) (y : LoadEntry) :
    SameBytes s (askHome c part s y) ∧ (askHome c part s y).cores = s.cores := by
  unfold askHome
  split
  · split_ifs
    · exact ⟨SameBytes.refl s, rfl⟩
    · exact ⟨SameBytes.homeUse .., rfl⟩
  · exact ⟨SameBytes.refl s, rfl⟩

/-- The loads of its PC group that are to ask their home slices with it. -/
def askers (s : State) (c : Nat) (e : LoadEntry) : List LoadEntry :=
  (s.core c).loads.filter (fun y => y.batch == e.batch && y.id != e.id && !y.asked && y.acc.kind.isLoad && !y.acc.held)

theorem batchAsk_eq (s : State) (c : Nat) (e : LoadEntry) :
    batchAsk s c e = if (askers s c e).isEmpty then s else
      ((askers s c e).foldl (askHome c (partOfLaunch s e.launch)) s).modCore c (fun x =>
        { x with loads := x.loads.map (fun y => if y.batch == e.batch then { y with asked := true } else y) }) := rfl

/-- Nothing that a load reads changes when the others of its PC group ask, and the L1 keeps its lines and ways. -/
theorem batchAsk_leaves (s : State) (c : Nat) (e : LoadEntry) :
    SameBytes s (batchAsk s c e) ∧ ((batchAsk s c e).core c).l1d = (s.core c).l1d ∧
      ((batchAsk s c e).core c).scrways = (s.core c).scrways := by
  rw [batchAsk_eq]
  split_ifs
  · exact ⟨SameBytes.refl s, rfl, rfl⟩
  · have hcores : ((askers s c e).foldl (askHome c (partOfLaunch s e.launch)) s).cores = s.cores :=
      foldl_keeps State.cores (fun s y => (askHome_leaves _ _ s y).2) _ s
    refine ⟨(SameBytes.foldl (fun s y => (askHome_leaves _ _ s y).1) _ s).trans (SameBytes.modCore _ _ ?_), ?_, ?_⟩
    · exact fun _ => rfl
    · rw [core_modCore, if_pos rfl, State.core, hcores]; rfl
    · rw [core_modCore, if_pos rfl, State.core, hcores]; rfl

theorem batchAsk_missesL1 {s : State} {c n : Nat} {held : Bool} {loc : Loc} (e : LoadEntry) (h : MissesL1 s c held n loc) :
    MissesL1 (batchAsk s c e) c held n loc := by
  obtain ⟨-, hl1d, hways⟩ := batchAsk_leaves s c e
  unfold MissesL1 l1Capacity at h ⊢
  rw [hl1d, hways]
  exact h

theorem execLoadComplete_load {s : State} {core : Nat} {e : LoadEntry} {loc : Loc}
    (he : (s.core core).loads.find? (fun y => y.id == e.id) = some e) (hk : e.acc.kind.atomic = false)
    (hr : loadReady s core e = some loc) : execLoadComplete core e.id s = .next (loadAt (batchAsk s core e) core e loc) := by
  unfold execLoadComplete
  simp [he, loadBatch, hk, hr]

theorem writeResult_v (s : State) (t : Nat) (d : VReg) (ws : List Word) :
    writeResult s t (some (.v d)) ws = (s.modThread t (vwrites d.val ws)).modCore (coreOfThread t) (fun x => { x with
      sfu := x.sfu.map (fun e => if e.thread == t then { e with before := vwrites d.val ws e.before } else e) }) := rfl

/-- The entry leaves the load queue. -/
def dropped (e : LoadEntry) (x : Core) : Core := { x with loads := x.loads.filter (fun y => y.id != e.id) }

/-- A load that performs in a state that has the bytes of `s`. -/
theorem loadAt_performs {s s1 : State} {core : Nat} {e : LoadEntry} {sz : LdSz} {d : VReg} {loc : Loc} (h : SameBytes s s1)
    (hk : e.acc.kind = .load sz) (hd : e.d = some (.v d)) (ho : e.acc.order = .rlx) (ht : (tfind s.threads e.thread).isSome = true)
    (hc : coreOfThread e.thread = core) (hm : MissesL1 s1 core e.acc.held (ldBytes sz) loc) :
    let s' := loadAt s1 core e loc
    s'.thread e.thread = vwrites d.val (ldWords sz (locRead s loc (ldBytes sz))) (s.thread e.thread) ∧
      (∀ u, u ≠ e.thread → s'.thread u = s.thread u) ∧ (∀ y ∈ (s'.core core).loads, y.id ≠ e.id) ∧
      s'.hbm = s.hbm ∧ s'.bank = s.bank ∧ s'.host = s.host ∧ s'.remote = s.remote ∧
      (∀ x, (s'.core x).scratch = (s.core x).scratch) ∧ ∀ g, (s'.group g).k = (s.group g).k := by
  obtain ⟨hbytes, hread⟩ := readNow_reads (t := e.thread) (part := partOfLaunch s1 e.launch) (ch := e.acc.ch) hm (by cases sz <;> decide)
  rw [h.locRead] at hbytes
  have hsame := h.trans hread
  dsimp only
  rw [loadAt, performAcc_load hk ho, hd]
  dsimp only
  rw [hbytes, writeResult_v, hc]
  generalize (readNow s1 core e.thread (partOfLaunch s1 e.launch) e.acc.held e.acc.ch loc (ldBytes sz)).2 = s2 at hsame
  have hdrop := hsame.trans (SameBytes.modCore s2 core (f := dropped e) fun _ => rfl)
  have hth (u : Nat) : ((s2.modCore core (dropped e)).modThread e.thread (vwrites d.val (ldWords sz (locRead s loc (ldBytes sz))))).thread u =
      if u = e.thread then vwrites d.val (ldWords sz (locRead s loc (ldBytes sz))) (s.thread e.thread) else s.thread u := by
    rw [thread_modThread _ _ _ _ (by rw [hdrop.threads]; exact ht)]
    simp only [State.thread, hdrop.threads]
  refine ⟨(hth _).trans (if_pos rfl), fun u hu => (hth u).trans (if_neg hu), ?_, hsame.hbm, hsame.bank, hsame.host, hsame.remote, ?_, hsame.k⟩
  · intro y hy
    rw [core_modCore, if_pos rfl, core_modThread, core_modCore, if_pos rfl] at hy
    simpa using (List.mem_filter.1 hy).2
  · intro x
    rw [core_modCore]
    split_ifs with hx
    · rw [hx]
      exact hdrop.scratch core
    · exact hdrop.scratch x

/-! ### LOAD_COMPLETE of a result that waits (R33, R344) -/

/-- The predicates and flags of a result reach a thread. -/
def putFlags (e : LateEntry) (x : Thread) : Thread :=
  { e.preds.foldl (fun x p => qwrite p.1 p.2 x) x with fpflags := x.fpflags ||| e.flags }

theorem vwrites_qwrite (n i : Nat) (b : Bool) (ws : List Word) (th : Thread) :
    vwrites n ws (qwrite i b th) = qwrite i b (vwrites n ws th) := by
  induction ws generalizing n th with
  | nil => rfl
  | cons w ws ih =>
    rw [vwrites, vwrites, ← ih]
    congr 1
    unfold qwrite vwrite
    split_ifs <;> rfl

theorem vwrites_setFlags (n : Nat) (f : Fl) (ws : List Word) (th : Thread) :
    vwrites n ws { th with fpflags := f } = { vwrites n ws th with fpflags := f } := by
  induction ws generalizing n th with
  | nil => rfl
  | cons w ws ih => rw [vwrites, vwrites, ← ih]; rfl

@[simp] theorem vwrites_fpflags (n : Nat) (ws : List Word) (th : Thread) : (vwrites n ws th).fpflags = th.fpflags := by
  induction ws generalizing n th with
  | nil => rfl
  | cons w ws ih => exact ih (n + 1) (vwrite n w th)

/-- Words written to registers, and predicates and flags, meet in no field of a thread. -/
theorem putV_putFlags (e : LateEntry) (x : Thread) (p : Reg × List Word) : putV (putFlags e x) p = putFlags e (putV x p) := by
  obtain ⟨r, ws⟩ := p
  cases r with
  | k n => rfl
  | v n =>
    have hq : vwrites n.val ws (e.preds.foldl (fun x p => qwrite p.1 p.2 x) x) =
        e.preds.foldl (fun x p => qwrite p.1 p.2 x) (vwrites n.val ws x) :=
      (List.foldl_hom (vwrites n.val ws) (fun x p => (vwrites_qwrite n.val p.1 p.2 ws x).symm)).symm
    show vwrites n.val ws (putFlags e x) = putFlags e (vwrites n.val ws x)
    rw [putFlags, vwrites_setFlags, hq, putFlags, vwrites_fpflags]

/-- Its parts in either order make the result of R33. -/
theorem putV_putFlags_onThread (e : LateEntry) (x : Thread) :
    e.regs.foldl putV (putFlags e x) = Res.onThread { regs := e.regs, preds := e.preds, fl := e.flags } x := by
  have hf : (e.regs.foldl putV x).fpflags = x.fpflags := by
    refine foldl_keeps Thread.fpflags (fun x p => ?_) e.regs x
    obtain ⟨r, ws⟩ := p
    cases r with
    | k n => rfl
    | v n => exact vwrites_fpflags n.val ws x
  rw [List.foldl_hom (putFlags e) (fun x p => putV_putFlags e x p), putFlags, hf]
  rfl

/-- A result written to registers leaves every other core, and of its own all but the snapshots of the queue of SFU and divider. -/
theorem writeResult_cores (s : State) (t : Nat) (d : Option Reg) (ws : List Word) :
    ((writeResult s t d ws).core (coreOfThread t)).late = (s.core (coreOfThread t)).late ∧
      ((writeResult s t d ws).core (coreOfThread t)).scratch = (s.core (coreOfThread t)).scratch ∧
      ∀ x, x ≠ coreOfThread t → (writeResult s t d ws).core x = s.core x := by
  cases d with
  | none => exact ⟨rfl, rfl, fun _ _ => rfl⟩
  | some r =>
    cases r with
    | k n => exact ⟨rfl, rfl, fun _ _ => rfl⟩
    | v n =>
      rw [writeResult_v]
      refine ⟨?_, ?_, fun x hx => ?_⟩
      · rw [core_modCore, if_pos rfl]; rfl
      · rw [core_modCore, if_pos rfl]; rfl
      · rw [core_modCore, if_neg hx]; rfl

/-- The registers of a result, one after the other. -/
def writeResults (s : State) (t : Nat) (regs : List (Reg × List Word)) : State :=
  regs.foldl (fun s p => writeResult s t (some p.1) p.2) s

theorem writeResults_cores (s : State) (t : Nat) (regs : List (Reg × List Word)) :
    ((writeResults s t regs).core (coreOfThread t)).late = (s.core (coreOfThread t)).late ∧
      ((writeResults s t regs).core (coreOfThread t)).scratch = (s.core (coreOfThread t)).scratch ∧
      ∀ x, x ≠ coreOfThread t → (writeResults s t regs).core x = s.core x :=
  ⟨foldl_keeps (fun s => (s.core (coreOfThread t)).late) (fun s p => (writeResult_cores s t (some p.1) p.2).1) regs s,
    foldl_keeps (fun s => (s.core (coreOfThread t)).scratch) (fun s p => (writeResult_cores s t (some p.1) p.2).2.1) regs s,
    fun x hx => foldl_keeps (fun s => s.core x) (fun s p => (writeResult_cores s t (some p.1) p.2).2.2 x hx) regs s⟩

/-- A result keeps a thread and a group listed. -/
theorem writeResult_listed (s : State) (t : Nat) (r : Reg) (ws : List Word) (u g : Nat) :
    (tfind (writeResult s t (some r) ws).threads u).isSome = (tfind s.threads u).isSome ∧
      (tfind (writeResult s t (some r) ws).groups g).isSome = (tfind s.groups g).isSome := by
  cases r with
  | v n => exact ⟨listed_modThread s t u _, rfl⟩
  | k n => exact ⟨rfl, placed_modGroup s _ g _⟩

/-- Each register of a result goes where it belongs: v registers to the thread, k registers to its group. -/
theorem writeResults_units {t : Nat} (regs : List (Reg × List Word)) {s : State} (h : (tfind s.threads t).isSome = true)
    (hg : (tfind s.groups (s.thread t).group).isSome = true) :
    outerState (writeResults s t regs) = outerState s ∧
    (∀ u, u ≠ t → (writeResults s t regs).thread u = s.thread u) ∧
    (writeResults s t regs).thread t = regs.foldl putV (s.thread t) ∧
    ∀ g, (writeResults s t regs).group g = if g = (s.thread t).group then regs.foldl putK (s.group g) else s.group g := by
  induction regs generalizing s with
  | nil => exact ⟨rfl, fun _ _ => rfl, rfl, fun _ => (ite_self _).symm⟩
  | cons p regs ih =>
    obtain ⟨r, ws⟩ := p
    obtain ⟨ho, hne, hth, hgr⟩ := writeResult_units s t (some r) ws h hg
    have hput : (writeResult s t (some r) ws).thread t = putV (s.thread t) (r, ws) := by rw [hth]; cases r <;> rfl
    have hgroup : ((writeResult s t (some r) ws).thread t).group = (s.thread t).group := by
      rw [hput]; cases r <;> simp [putV]
    have hputK (g : Nat) : (writeResult s t (some r) ws).group g =
        if g = (s.thread t).group then putK (s.group g) (r, ws) else s.group g := by
      rw [hgr]
      cases r with
      | v n => exact (ite_self _).symm
      | k n => rfl
    obtain ⟨hl, hgl⟩ := writeResult_listed s t r ws t (s.thread t).group
    obtain ⟨io, ine, ith, igr⟩ := ih (s := writeResult s t (some r) ws) (by rw [hl]; exact h) (by rw [hgroup, hgl]; exact hg)
    refine ⟨io.trans ho, fun u hu => (ine u hu).trans (hne u hu), ith.trans (congrArg (regs.foldl putV) hput), fun g => ?_⟩
    rw [writeResults, List.foldl_cons]
    refine (igr g).trans ?_
    rw [hgroup, hputK]
    split_ifs <;> rfl

/-- The entry has left the queue, and its predicates and flags have reached its thread and the snapshots of the thread's entries in
flight. -/
def lateFlagged (s : State) (core : Nat) (e : LateEntry) : State :=
  ((s.modCore core (fun x => { x with late := x.late.filter (fun y => y.id != e.id) })).modThread e.thread (putFlags e)).modCore core
    (fun x => { x with sfu := x.sfu.map (fun y => if y.thread == e.thread then { y with before := putFlags e y.before } else y) })

theorem execLoadComplete_late {s : State} {core : Nat} {e : LateEntry} (hn : ∀ y ∈ (s.core core).loads, y.id ≠ e.id)
    (he : (s.core core).late.find? (fun y => y.id == e.id) = some e) (hr : e.ready = true)
    (hs : ∀ y ∈ (s.core core).sfu, y.thread = e.thread → e.id ≤ y.id) :
    execLoadComplete core e.id s = .next (writeResults (lateFlagged s core e) e.thread e.regs) := by
  have hnone : (s.core core).loads.find? (fun y => y.id == e.id) = none := by
    rw [List.find?_eq_none]
    intro y hy
    simpa using hn y hy
  have hold : (s.core core).sfu.any (fun y => y.thread == e.thread && decide (y.id < e.id)) = false := by
    rw [List.any_eq_false]
    intro y hy h
    simp only [Bool.and_eq_true, beq_iff_eq, decide_eq_true_eq] at h
    have := hs y hy h.1
    omega
  unfold execLoadComplete lateAt
  simp only [hnone, he, hr, hold, Bool.not_true, Bool.or_self, Bool.false_eq_true, if_false]
  rfl

theorem lateFlagged_thread {s : State} {core : Nat} {e : LateEntry} (h : (tfind s.threads e.thread).isSome = true) (u : Nat) :
    (lateFlagged s core e).thread u = if u = e.thread then putFlags e (s.thread e.thread) else s.thread u :=
  thread_modThread (s.modCore core _) e.thread u _ h

theorem putFlags_group (e : LateEntry) (x : Thread) : (putFlags e x).group = x.group :=
  foldl_keeps Thread.group (fun x p => by rw [qwrite_eq]) e.preds x

/-- Of the core, the entry leaves the queue, and of the queue of SFU and divider the snapshots change. -/
theorem lateFlagged_core (s : State) (core : Nat) (e : LateEntry) (x : Nat) :
    ((lateFlagged s core e).core core).late = (s.core core).late.filter (fun y => y.id != e.id) ∧
      ((lateFlagged s core e).core core).scratch = (s.core core).scratch ∧ (x ≠ core → (lateFlagged s core e).core x = s.core x) := by
  unfold lateFlagged
  refine ⟨?_, ?_, fun hx => ?_⟩
  · rw [core_modCore, if_pos rfl, core_modThread, core_modCore, if_pos rfl]
  · rw [core_modCore, if_pos rfl, core_modThread, core_modCore, if_pos rfl]
  · rw [core_modCore, if_neg hx, core_modThread, core_modCore, if_neg hx]

end Sys2Proof.Machine

open Sys2Proof Sys2Proof.Machine

/-- Settles O29: up to the load, and in it where the L1 misses, nothing changes that a load reads; a result that waits reaches its thread
and its group register by register. -/
theorem loadsPerform : Obligations.LoadsPerform := by
  unfold Obligations.LoadsPerform
  refine ⟨fun s core e sz d loc he hk hd hr hc ht ho hroom hhbm => ?_, fun s core e hn he hr hc hs ht hg => ?_⟩
  · exact ⟨_, execLoadComplete_load he (by rw [hk]; rfl) hr,
      loadAt_performs (batchAsk_leaves s core e).1 hk hd ho ht hc (batchAsk_missesL1 e ⟨hroom, hhbm⟩)⟩
  · have hth := lateFlagged_thread (core := core) ht
    have hown : (lateFlagged s core e).thread e.thread = putFlags e (s.thread e.thread) := by rw [hth, if_pos rfl]
    obtain ⟨ho, hne, hv, hgr⟩ := writeResults_units (t := e.thread) e.regs (s := lateFlagged s core e)
      ((listed_modThread (s.modCore core _) _ _ _).trans ht) (by rw [hown, putFlags_group]; exact hg)
    obtain ⟨hlate, hscr, hcores⟩ := writeResults_cores (lateFlagged s core e) e.thread e.regs
    rw [hc] at hlate hscr hcores
    obtain ⟨hlate1, hscr1, -⟩ := lateFlagged_core s core e core
    rw [hown, putFlags_group] at hgr
    refine ⟨_, execLoadComplete_late hn he hr hs, ho, ?_, fun u hu => (hne u hu).trans ((hth u).trans (if_neg hu)), hgr, ?_,
      hscr.trans hscr1, fun x hx => (hcores x hx).trans ((lateFlagged_core s core e x).2.2 hx)⟩
    · rw [hv, hown, putV_putFlags_onThread]
    · intro y hy
      rw [hlate, hlate1] at hy
      simpa using (List.mem_filter.1 hy).2

end

section
/-! PROOFS. Launches placed on their cores, and groups exchanged out and in. -/

namespace Sys2Proof.Machine

set_option Elab.async false  -- theorem after theorem: every thread of a compile takes a stack of its own

/-! ### What engines, requests and save areas leave alone -/

/-- Memories, threads, groups, dies, the clock and registered requests are as they were; cores but for their status rings, launches but for the
engine state they saved and their save areas. -/
structure EnginesOnly (s s' : State) : Prop where
  hbm : s'.hbm = s.hbm
  bank : s'.bank = s.bank
  threads : s'.threads = s.threads
  groups : s'.groups = s.groups
  dies : s'.dies = s.dies
  clock : s'.clock = s.clock
  syncReg : s'.syncReg = s.syncReg
  core : ∀ c, ∃ r, s'.core c = { s.core c with ring := r }
  launch : ∀ k l, tfind s.launches k = some l → ∃ e a, tfind s'.launches k = some { l with eng := e, saves := a }

namespace EnginesOnly

theorem refl (s : State) : EnginesOnly s s :=
  ⟨rfl, rfl, rfl, rfl, rfl, rfl, rfl, fun c => ⟨(s.core c).ring, rfl⟩, fun _ l h => ⟨l.eng, l.saves, h⟩⟩

theorem trans {s s1 s2 : State} (h : EnginesOnly s s1) (h1 : EnginesOnly s1 s2) : EnginesOnly s s2 where
  hbm := h1.hbm.trans h.hbm
  bank := h1.bank.trans h.bank
  threads := h1.threads.trans h.threads
  groups := h1.groups.trans h.groups
  dies := h1.dies.trans h.dies
  clock := h1.clock.trans h.clock
  syncReg := h1.syncReg.trans h.syncReg
  core c := by
    obtain ⟨r, hr⟩ := h.core c
    obtain ⟨r1, hr1⟩ := h1.core c
    exact ⟨r1, by rw [hr1, hr]⟩
  launch k l hl := by
    obtain ⟨e, a, hs1⟩ := h.launch k l hl
    obtain ⟨e, a, hs2⟩ := h1.launch k _ hs1
    exact ⟨e, a, hs2⟩

theorem foldl {α : Type} {f : State → α → State} (hf : ∀ s a, EnginesOnly s (f s a)) (l : List α) (s : State) :
    EnginesOnly s (l.foldl f s) := by
  induction l generalizing s with
  | nil => exact refl s
  | cons a l ih => exact (hf s a).trans (ih _)

theorem modCluster (s : State) (k : Nat) (f : Cluster → Cluster) : EnginesOnly s (s.modCluster k f) :=
  { refl s with }

theorem setRing (s : State) (c : Nat) (r : List PStat) : EnginesOnly s (s.modCore c (fun x => { x with ring := r })) where
  __ := refl s
  core u := by
    rw [core_modCore]
    split_ifs with hu
    · exact ⟨r, by rw [hu]⟩
    · exact ⟨_, rfl⟩

/-- A change of a launch in the engine state it saved and its save areas. -/
theorem modLaunch (s : State) (k : Nat) (e : Launch → Tbl EngCtx) (a : Launch → Tbl Nat) :
    EnginesOnly s (s.modLaunch k (fun l => { l with eng := e l, saves := a l })) where
  __ := refl s
  launch u l hl := by
    rw [State.modLaunch_launches, tfind_tmod]
    split_ifs with hu
    · subst hu
      exact ⟨e l, a l, by rw [hl]; rfl⟩
    · exact ⟨l.eng, l.saves, hl⟩

theorem engineTo (s : State) (k : Nat) : EnginesOnly s (engineTo s k) := by
  unfold Machine.engineTo
  split_ifs
  · exact refl s
  · split
    · exact refl s
    · split
      · exact modCluster ..
      · refine (modCluster ..).trans ((foldl (fun s p => ?_) _ _).trans (modLaunch _ _ (fun l => tdel k l.eng) Launch.saves))
        split_ifs
        · exact refl s
        · exact setRing ..

theorem engineReset (s : State) (k : Nat) : EnginesOnly s (engineReset s k) := by
  refine (modCluster ..).trans (foldl (fun s c => ?_) _ _)
  split_ifs
  · exact setRing ..
  · exact refl s

theorem saveEngine (s : State) (k lk : Nat) : EnginesOnly s (saveEngine s k lk) := by
  unfold Machine.saveEngine
  dsimp only
  split_ifs
  · exact ((modLaunch s lk (fun l => tset k _ l.eng) Launch.saves).trans (engineReset ..)).trans (engineTo ..)
  · exact refl s

theorem saveArea (lk : Nat) (s : State) (c : Nat) : EnginesOnly s (saveArea lk s c) :=
  trans (s1 := { s with free := s.free + 1 }) { refl s with } (modLaunch _ lk Launch.eng (fun l => tset c _ l.saves))

/-- No request stands registered, so one that is withdrawn takes no grant with it. -/
theorem syncWithdraw {s : State} (h : s.syncReg = []) (ts : List Nat) (keepTry : Bool) : EnginesOnly s (syncWithdraw s ts keepTry) := by
  unfold Machine.syncWithdraw
  rw [h]
  exact { refl s with syncReg := h.symm }

theorem withdraw {s : State} (h : s.syncReg = []) (t : Nat) : EnginesOnly s (withdraw s t) := by
  unfold Machine.withdraw
  dsimp only
  split
  · exact (syncWithdraw h [t] false).trans (modCluster ..)
  · exact syncWithdraw h [t] false

theorem withdraws {s : State} (h : s.syncReg = []) (l : List (Nat × Thread)) :
    EnginesOnly s (l.foldl (fun s q => Machine.withdraw s q.1) s) := by
  induction l generalizing s with
  | nil => exact refl s
  | cons q l ih => exact (withdraw h q.1).trans (ih ((withdraw h q.1).syncReg.trans h))

end EnginesOnly

/-! ### The groups of a core that move -/

/-- In a rising table a check that holds at one key alone leaves its entry. -/
theorem filter_eq_singleton {α : Type} {t : Tbl α} (h : Rising t) {p : Nat × α} (hp : p ∈ t) {f : Nat × α → Bool} (hf : f p = true)
    (ho : ∀ q ∈ t, f q = true → q.1 = p.1) : t.filter f = [p] := by
  induction t with
  | nil => cases hp
  | cons q t ih =>
    have hlt : ∀ r ∈ t, q.1 < r.1 := fun r hr => List.rel_of_pairwise_cons h hr
    rcases List.mem_cons.1 hp with rfl | hp
    · have hnil : t.filter f = [] := List.filter_eq_nil_iff.2 fun r hr hfr =>
        (hlt r hr).ne (ho r (List.mem_cons_of_mem _ hr) hfr).symm
      rw [List.filter_cons_of_pos hf, hnil]
    · have hq : ¬ f q = true := fun hfq => (hlt p hp).ne (ho q List.mem_cons_self hfq)
      rw [List.filter_cons_of_neg hq, ih h.of_cons hp fun r hr => ho r (List.mem_cons_of_mem _ hr)]

theorem group_of_tfind {s : State} {gk : Nat} {g : Group} (h : tfind s.groups gk = some g) : s.group gk = g := by
  rw [State.group, h]
  rfl

/-- The only group of a core in a state of its swap. -/
theorem coreGroups_only {s : State} {core gk : Nat} {g : Group} (h : Rising s.groups) (hg : tfind s.groups gk = some g) (hc : g.core = core)
    {sw : SwapState} (hs : g.swap = sw) (ho : ∀ p ∈ coreGroups s core, p.2.swap = sw → p.1 = gk) :
    (coreGroups s core).filter (fun p => p.2.swap == sw) = [(gk, g)] := by
  rw [coreGroups, List.filter_filter]
  refine filter_eq_singleton h (mem_of_tfind hg) (by simp [hs, hc]) fun q hq hf => ?_
  obtain ⟨hsw, hco⟩ := Bool.and_eq_true_iff.1 hf
  exact ho q (List.mem_filter.2 ⟨hq, hco⟩) (beq_iff_eq.1 hsw)

/-! ### A spill ends (R366) -/

theorem swapDone_eq {s : State} {lk : Nat} {l : Launch} (hl : tfind s.launches lk = some l) :
    swapDone s lk = if l.st = .swappingOut ∧ s.groups.all (fun p => p.2.launch != lk || p.2.swap == .out) then
      s.modLaunch lk (fun l => { l with st := if l.suspendNext then .suspended else .ready (s.die l.die).dlclk
                                        swaps := l.swaps + 1, suspendNext := false })
    else s := by
  unfold swapDone
  rw [hl]

theorem execSpillFill_only {s : State} {core gk : Nat} {g : Group} (h : Rising s.groups) (hg : tfind s.groups gk = some g)
    (hc : g.core = core) (hs : g.swap = .spilling) (ho : ∀ p ∈ coreGroups s core, p.2.swap = .spilling → p.1 = gk) :
    execSpillFill core s = .next (swapDone (s.modGroup gk (fun x => { x with swap := .out })) g.launch) := by
  unfold execSpillFill
  rw [coreGroups_only h hg hc hs ho]
  rfl

/-- With one group spilt every group of a launch is out, where the others were. -/
theorem groups_out {s : State} {gk : Nat} {g : Group} (h : Rising s.groups) (hg : tfind s.groups gk = some g)
    (ho : ∀ p ∈ s.groups, p.2.launch = g.launch → p.1 = gk ∨ p.2.swap = .out) :
    (s.modGroup gk (fun x => { x with swap := .out })).groups.all (fun p => p.2.launch != g.launch || p.2.swap == .out) = true := by
  rw [List.all_eq_true]
  intro p hp
  have hfind := tfind_of_mem (h.tmod gk _) hp
  rw [tfind_tmod] at hfind
  by_cases hk : p.1 = gk
  · rw [if_pos hk, hg, Option.map_some, Option.some.injEq] at hfind
    simp [← hfind]
  · rw [if_neg hk] at hfind
    by_cases hlk : p.2.launch = g.launch
    · simp [(ho p (mem_of_tfind hfind) hlk).resolve_left hk]
    · simp [hlk]

theorem execSpillFill_ends {s : State} {core gk : Nat} {g : Group} {l : Launch} (hg : tfind s.groups gk = some g) (hc : g.core = core)
    (hs : g.swap = .spilling) (ho : ∀ p ∈ coreGroups s core, p.2.swap = .spilling → p.1 = gk) (hl : tfind s.launches g.launch = some l)
    (h : Rising s.groups) :
    ∃ s' l', exec (.spillFill core) s = .next s' ∧ (s'.group gk).swap = .out ∧ s'.threads = s.threads ∧ s'.cores = s.cores ∧
      s'.hbm = s.hbm ∧ s'.bank = s.bank ∧ tfind s'.launches g.launch = some l' ∧
      (l.st = .swappingOut → (∀ p ∈ s.groups, p.2.launch = g.launch → p.1 = gk ∨ p.2.swap = .out) →
        l'.st = (if l.suspendNext then .suspended else .ready (s.die l.die).dlclk) ∧ l'.swaps = l.swaps + 1 ∧ l'.ctx = l.ctx) := by
  have hout : ((s.modGroup gk (fun x => { x with swap := .out })).group gk).swap = .out := by
    rw [group_modGroup _ _ _ _ (by rw [hg]; rfl), if_pos rfl]
  have hstep : exec (.spillFill core) s = .next _ := execSpillFill_only h hg hc hs ho
  rw [swapDone_eq (show tfind (s.modGroup gk _).launches g.launch = some l from hl)] at hstep
  split_ifs at hstep with hdone
  · refine ⟨_, { l with st := if l.suspendNext then .suspended else .ready (s.die l.die).dlclk, swaps := l.swaps + 1, suspendNext := false },
      hstep, hout, rfl, rfl, rfl, rfl, ?_, fun _ _ => ⟨rfl, rfl, rfl⟩⟩
    rw [State.modLaunch_launches, tfind_tmod, if_pos rfl, State.modGroup_launches, hl]
    rfl
  · exact ⟨_, l, hstep, hout, rfl, rfl, rfl, rfl, hl, fun hst hall => absurd ⟨hst, groups_out h hg hall⟩ hdone⟩

/-! ### Groups leave their core (R366, R367) -/

/-- A saved thread keeps what R366 lists of it. -/
def SavedOf (now : Nat) (x y : Thread) : Prop :=
  y.pc = x.pc ∧ y.v = x.v ∧ y.q = x.q ∧ y.j = x.j ∧ y.fpflags = x.fpflags ∧ y.retired = x.retired ∧ y.run = savedRun now x

theorem savedThreads_rising {s : State} (h : Rising s.threads) (gk : Nat) (g : Group) : Rising (savedThreads s gk g) :=
  List.pairwise_map.2 (h.sublist List.filter_sublist)

/-- The saved threads of a group with no region, found by their places. -/
theorem tfind_savedThreads {s : State} (h : Rising s.threads) {gk : Nat} {g : Group} (hi : g.idem = none) {p : Nat × Thread}
    (hp : p ∈ s.threads) (hg : p.2.group = gk) :
    ∃ y, tfind ((savedThreads s gk g).foldl (fun t p => tset p.1 p.2 t) []) p.1 = some y ∧ SavedOf s.clock p.2 y := by
  have hmem : (p.1, { p.2 with run := savedRun s.clock p.2, detHeld := false, gen := none }) ∈ savedThreads s gk g := by
    refine List.mem_map.2 ⟨p, List.mem_filter.2 ⟨hp, by simpa using hg⟩, ?_⟩
    simp only [armedRegion, hi, Option.bind_none]
  refine ⟨{ p.2 with run := savedRun s.clock p.2, detHeld := false, gen := none }, ?_, rfl, rfl, rfl, rfl, rfl, rfl, rfl⟩
  rw [tfind_foldl_tset (savedThreads_rising h gk g), tfind_of_mem (savedThreads_rising h gk g) hmem]
  rfl

/-- The core as its groups have left it. -/
def emptied (mine : Nat → Bool) (x : Core) : Core :=
  { x with scratch := [], tags := [], cross := [], unfilled := 0, olog := (logDrop x (fun e => mine e.e.thread)).olog }

/-- What the one group that leaves a core saves there, once its requests are withdrawn. -/
def leftCtx (s : State) (core gk : Nat) (g : Group) : CoreCtx :=
  savedCtx (syncWithdraw s ((s.threadsOf gk).map (·.1))) core [(gk, g)]

theorem execBankExchange_out {s : State} {core gk : Nat} {g : Group} (h : Rising s.groups) (hg : tfind s.groups gk = some g)
    (hc : g.core = core) (hs : g.swap = .requested) (ho : ∀ p ∈ coreGroups s core, p.1 = gk ∨ p.2.swap = .out)
    (hr : swapReady s core [(gk, g)] = true) : execBankExchange core s = .next (leaveCore s core [(gk, g)]) := by
  have hout : (coreGroups s core).filter (fun p => p.2.swap == .requested) = [(gk, g)] :=
    coreGroups_only h hg hc hs fun p hp hsw => (ho p hp).resolve_right (by rw [hsw]; decide)
  have hsw (p : Nat × Group) (hp : p ∈ coreGroups s core) : p.2.swap = .requested ∨ p.2.swap = .out := by
    rcases ho p hp with hk | hk
    · have hfind := tfind_of_mem h (List.mem_of_mem_filter hp)
      rw [hk, hg, Option.some.injEq] at hfind
      exact Or.inl (by rw [← hfind, hs])
    · exact Or.inr hk
  have hin : (coreGroups s core).filter (fun p => p.2.swap == .staged) = [] :=
    List.filter_eq_nil_iff.2 fun p hp => by rcases hsw p hp with h | h <;> simp [h]
  have hspill : (coreGroups s core).any (fun p => p.2.swap == .spilling) = false :=
    List.any_eq_false.2 fun p hp => by rcases hsw p hp with h | h <;> simp [h]
  have hstay : (coreGroups s core).any (fun _ => false) = false := List.any_eq_false.2 fun _ _ => Bool.false_ne_true
  unfold execBankExchange
  simp only [hout, hin, hspill, hr, hstay, List.any_nil, Bool.and_false, List.isEmpty_cons, Bool.false_and, Bool.or_false, Bool.not_true,
    Bool.false_eq_true, if_false]
  rfl

/-- The core once its group's requests are withdrawn and its injectors disarmed. -/
def disarmed (s : State) (core gk : Nat) : State :=
  let s1 := syncWithdraw s ((s.threadsOf gk).map (·.1))
  (((s1.threadsOf gk).foldl (fun s q => withdraw s q.1) s1).modGroup gk (fun g => { restartedGroup g with swap := .spilling })).modCore core
    (fun x => { x with inj := [] })

theorem leaveCore_single (s : State) (core gk : Nat) (g : Group) :
    let ctx := leftCtx s core gk g
    let mine (t : Nat) : Bool := (tfind ctx.threads t).isSome
    leaveCore s core [(gk, g)] = saveEngine ((({ disarmed s core gk with
      threads := tkeep (fun t _ => !mine t) (disarmed s core gk).threads }).modCore core (emptied mine)).modLaunch g.launch
        (fun l => { l with ctx := tset core ctx l.ctx })) (clusterOf core) g.launch := by
  unfold leaveCore leftCtx disarmed
  simp only [List.flatMap_cons, List.flatMap_nil, List.append_nil]
  rfl

/-- Up to the group's swap and the core's injectors nothing of the state has changed that the exchange moves. -/
theorem disarmed_leaves {s : State} (hq : s.syncReg = []) (core gk : Nat) {g : Group} (hg : tfind s.groups gk = some g) :
    (disarmed s core gk).hbm = s.hbm ∧ (disarmed s core gk).bank = s.bank ∧ (disarmed s core gk).threads = s.threads ∧
      ((disarmed s core gk).group gk).swap = .spilling ∧
      ∀ k l, tfind s.launches k = some l → ∃ e a, tfind (disarmed s core gk).launches k = some { l with eng := e, saves := a } := by
  have h1 := EnginesOnly.syncWithdraw hq ((s.threadsOf gk).map (·.1)) false
  have h2 := h1.trans (EnginesOnly.withdraws (h1.syncReg.trans hq)
    ((syncWithdraw s ((s.threadsOf gk).map (·.1))).threadsOf gk))
  refine ⟨h2.hbm, h2.bank, h2.threads, ?_, h2.launch⟩
  show ((State.modGroup _ gk _).group gk).swap = _
  rw [group_modGroup _ _ _ _ (by rw [h2.groups, hg]; rfl), if_pos rfl]

theorem leftCtx_scratch {s : State} (hq : s.syncReg = []) (core : Nat) {gk : Nat} {g : Group} (hi : g.idem = none) (hl : s.liveOf gk ≠ []) :
    (leftCtx s core gk g).scratch = (s.core core).scratch := by
  have h1 := EnginesOnly.syncWithdraw hq ((s.threadsOf gk).map (·.1)) false
  obtain ⟨r, hr⟩ := h1.core core
  have hlive : (syncWithdraw s ((s.threadsOf gk).map (·.1))).liveOf gk = s.liveOf gk := by
    rw [State.liveOf, State.threadsOf, h1.threads]; rfl
  have hsome : ((armedRegion g).isSome || (s.liveOf gk).isEmpty) = false := by
    rw [armedRegion, hi]
    simpa using hl
  unfold leftCtx savedCtx
  simp only [List.all_cons, List.all_nil, Bool.and_true, hlive, hsome, Bool.false_eq_true, if_false, hr]

theorem leftCtx_threads {s : State} (hq : s.syncReg = []) (h : Rising s.threads) (core : Nat) {gk : Nat} {g : Group} (hi : g.idem = none)
    {p : Nat × Thread} (hp : p ∈ s.threads) (hg : p.2.group = gk) :
    ∃ y, tfind (leftCtx s core gk g).threads p.1 = some y ∧ SavedOf s.clock p.2 y := by
  have h1 := EnginesOnly.syncWithdraw hq ((s.threadsOf gk).map (·.1)) false
  have hy := tfind_savedThreads (s := syncWithdraw s ((s.threadsOf gk).map (·.1))) (by rw [h1.threads]; exact h) (g := g) hi
    (by rw [h1.threads]; exact hp) hg
  unfold leftCtx savedCtx
  simp only [List.flatMap_cons, List.flatMap_nil, List.append_nil]
  rw [h1.clock] at hy
  exact hy

/-- The one group of a core leaves it with its context. -/
theorem leaveCore_single_leaves {s : State} {core gk : Nat} {g : Group} {l : Launch} (hg : tfind s.groups gk = some g)
    (hl : tfind s.launches g.launch = some l) (hi : g.idem = none) (hq : s.syncReg = []) (hth : Rising s.threads) :
    let s' := leaveCore s core [(gk, g)]
    (s'.group gk).swap = .spilling ∧
      (∃ l', tfind s'.launches g.launch = some l' ∧ tfind l'.ctx core = some (leftCtx s core gk g)) ∧
      (∀ p ∈ s.threads, p.2.group = gk → tfind s'.threads p.1 = none) ∧
      (s'.core core).scratch = [] ∧ s'.hbm = s.hbm ∧ s'.bank = s.bank := by
  obtain ⟨hhbm, hbank, hthreads, hswap, hlaunch⟩ := disarmed_leaves hq core gk hg
  obtain ⟨e2, a2, hl2⟩ := hlaunch g.launch l hl
  rw [leaveCore_single]
  generalize disarmed s core gk = s2 at *
  dsimp only
  generalize hs5 : ((({ s2 with threads := tkeep (fun t _ => !(tfind (leftCtx s core gk g).threads t).isSome) s2.threads }).modCore core
    (emptied (fun t => (tfind (leftCtx s core gk g).threads t).isSome))).modLaunch g.launch
      (fun l => { l with ctx := tset core (leftCtx s core gk g) l.ctx })) = s5
  have h6 := EnginesOnly.saveEngine s5 (clusterOf core) g.launch
  have hl5 : tfind s5.launches g.launch = some { l with eng := e2, saves := a2, ctx := tset core (leftCtx s core gk g) l.ctx } := by
    rw [← hs5, State.modLaunch_launches, tfind_tmod, if_pos rfl, State.modCore_launches, hl2]
    rfl
  obtain ⟨e6, a6, hl6⟩ := h6.launch g.launch _ hl5
  obtain ⟨r, hr⟩ := h6.core core
  subst hs5
  refine ⟨?_, ⟨_, hl6, tfind_tset_self ..⟩, fun p hp hpg => ?_, ?_, h6.hbm.trans hhbm, h6.bank.trans hbank⟩
  · rw [State.group, h6.groups]
    exact hswap
  · obtain ⟨y, hy, -⟩ := leftCtx_threads hq hth core hi hp hpg
    rw [h6.threads]
    rw [State.modLaunch_threads, State.modCore_threads]
    dsimp only
    rw [hthreads, tfind_tkeep hth, hy]
    rfl
  · rw [hr]
    show ((State.modCore _ core _).core core).scratch = []
    rw [core_modCore, if_pos rfl]
    rfl

theorem execBankExchange_leaves {s : State} {core gk : Nat} {g : Group} {l : Launch} (hg : tfind s.groups gk = some g) (hc : g.core = core)
    (hs : g.swap = .requested) (ho : ∀ p ∈ coreGroups s core, p.1 = gk ∨ p.2.swap = .out) (hr : swapReady s core [(gk, g)] = true)
    (hl : tfind s.launches g.launch = some l) (hi : g.idem = none) (hlive : s.liveOf gk ≠ []) (hq : s.syncReg = []) (hgr : Rising s.groups)
    (hth : Rising s.threads) :
    ∃ s' l' x, exec (.bankExchange core) s = .next s' ∧ (s'.group gk).swap = .spilling ∧ tfind s'.launches g.launch = some l' ∧
      tfind l'.ctx core = some x ∧ (∀ p ∈ s.threads, p.2.group = gk → tfind s'.threads p.1 = none ∧
        ∃ y, tfind x.threads p.1 = some y ∧ SavedOf s.clock p.2 y) ∧
      x.scratch = (s.core core).scratch ∧ (s'.core core).scratch = [] ∧ s'.hbm = s.hbm ∧ s'.bank = s.bank := by
  obtain ⟨hswap, ⟨l', hl', hx⟩, hgone, hscr, hhbm, hbank⟩ := leaveCore_single_leaves (core := core) hg hl hi hq hth
  exact ⟨_, l', _, execBankExchange_out hgr hg hc hs ho hr, hswap, hl', hx,
    fun p hp hpg => ⟨hgone p hp hpg, leftCtx_threads hq hth core hi hp hpg⟩, leftCtx_scratch hq core hi hlive, hscr, hhbm, hbank⟩

/-! ### Groups come to their core (R366, R369) -/

/-- Lines written back change the L1 of their core, device memory, and what their homes and copies hold. -/
structure LinesOnly (s s' : State) : Prop where
  groups : s'.groups = s.groups
  launches : s'.launches = s.launches
  olog : ∀ c, (s'.core c).olog = (s.core c).olog

theorem LinesOnly.l1Flush (s : State) (c part l : Nat) : LinesOnly s (l1Flush s c part l) := by
  unfold Machine.l1Flush
  split
  · split_ifs
    · exact ⟨rfl, rfl, fun _ => rfl⟩
    · refine ⟨rfl, rfl, fun u => ?_⟩
      dsimp only
      rw [core_modCore]
      split_ifs with hu
      · rw [hu]; rfl
      · rfl
  · exact ⟨rfl, rfl, fun _ => rfl⟩

theorem LinesOnly.l1FlushAll (s : State) (c part : Nat) : LinesOnly s (l1FlushAll s c part) :=
  ⟨foldl_keeps State.groups (fun s l => (LinesOnly.l1Flush s c part l).groups) _ s,
    foldl_keeps State.launches (fun s l => (LinesOnly.l1Flush s c part l).launches) _ s,
    fun u => foldl_keeps (fun s => (s.core u).olog) (fun s l => (LinesOnly.l1Flush s c part l).olog u) _ s⟩

/-- The ways of a context are those its mask counts. -/
theorem ways_of_mask {n : Nat} (hn : n ≤ 12) : (List.range 13).find? (fun m => 2 ^ m - 1 == (BitVec.ofNat 16 (2 ^ n - 1)).toNat) = some n := by
  interval_cases n <;> decide

theorem takeWays_linesOnly (s : State) (c n : Nat) (scratch : Mem) :
    (takeWays s c n scratch).groups = s.groups ∧ (takeWays s c n scratch).launches = s.launches ∧
      ((takeWays s c n scratch).core c).olog = (s.core c).olog := by
  have h := LinesOnly.l1FlushAll s c (partOfCluster s (clusterOf c))
  refine ⟨h.groups, h.launches, ?_⟩
  unfold takeWays
  rw [core_modCore, if_pos rfl]
  exact h.olog c

theorem takeWays_core (s : State) (c n : Nat) (scratch : Mem) :
    ((takeWays s c n scratch).core c).scratch = scratch ∧ ((takeWays s c n scratch).core c).scrways = BitVec.ofNat 16 (2 ^ n - 1) := by
  unfold takeWays
  rw [core_modCore, if_pos rfl]
  exact ⟨rfl, rfl⟩

theorem loadCtx_units (s : State) (c part : Nat) (x : CoreCtx) :
    (loadCtx s c part x).groups = s.groups ∧ (loadCtx s c part x).launches = s.launches := by
  obtain ⟨hg, hl, -⟩ := takeWays_linesOnly s c ((List.range 13).find? (fun n => 2 ^ n - 1 == x.scrways.toNat) |>.getD 0) x.scratch
  exact ⟨hg, hl⟩

/-- The threads of a context are listed again, with what is left of their sleep. -/
theorem loadCtx_threads (s : State) (c part : Nat) {x : CoreCtx} (h : Rising x.threads) {q : Nat × Thread} (hq : q ∈ x.threads) :
    tfind (loadCtx s c part x).threads q.1 =
      some { q.2 with run := restoredRun s.clock q.2.run, gen := tfind x.gens (slotOfThread q.1) } := by
  unfold loadCtx
  dsimp only
  rw [State.modCore_threads, tfind_foldl_tset (h.tmap _), tfind_tmap, tfind_of_mem h hq]
  rfl

theorem loadCtx_core (s : State) (c part : Nat) (x : CoreCtx) :
    ((loadCtx s c part x).core c).scratch = x.scratch ∧ ((loadCtx s c part x).core c).tags = x.tags ∧
      (∀ n, n ≤ 12 → x.scrways = BitVec.ofNat 16 (2 ^ n - 1) → ((loadCtx s c part x).core c).scrways = x.scrways) ∧
      ((s.core c).olog = [] → x.olog = [] → ((loadCtx s c part x).core c).olog = []) := by
  obtain ⟨-, -, holog⟩ := takeWays_linesOnly s c ((List.range 13).find? (fun n => 2 ^ n - 1 == x.scrways.toNat) |>.getD 0) x.scratch
  obtain ⟨hscr, hways⟩ := takeWays_core s c ((List.range 13).find? (fun n => 2 ^ n - 1 == x.scrways.toNat) |>.getD 0) x.scratch
  have hmask (n : Nat) (hn : n ≤ 12) (hx : x.scrways = BitVec.ofNat 16 (2 ^ n - 1)) :
      BitVec.ofNat 16 (2 ^ ((List.range 13).find? (fun n => 2 ^ n - 1 == x.scrways.toNat) |>.getD 0) - 1) = x.scrways := by
    rw [hx, ways_of_mask hn]
    rfl
  unfold loadCtx
  dsimp only
  rw [core_modCore, if_pos rfl]
  split_ifs
  · exact ⟨hscr, rfl, fun n hn hx => hways.trans (hmask n hn hx), fun ho _ => holog.trans ho⟩
  · refine ⟨hscr, rfl, fun n hn hx => hways.trans (hmask n hn hx), fun ho hxo => ?_⟩
    show logEnter (((takeWays s c _ x.scratch).core c).olog ++ x.olog) = []
    rw [holog, ho, hxo]
    rfl

/-- A group becomes resident. -/
def makeResident (s : State) (p : Nat × Group) : State := s.modGroup p.1 (fun g => { g with swap := .resident })

/-- Groups become resident. -/
def madeResident (s : State) (inc : List (Nat × Group)) : State := inc.foldl makeResident s

theorem makeResident_group (s : State) (p : Nat × Group) (u : Nat) : (makeResident s p).group u =
    if u = p.1 ∧ (tfind s.groups p.1).isSome = true then { s.group p.1 with swap := .resident } else s.group u :=
  group_modGroup_listed s p.1 u _

theorem madeResident_swap (inc : List (Nat × Group)) {s : State} {u : Nat} (hl : (tfind s.groups u).isSome = true)
    (hu : u ∈ inc.map (·.1) ∨ (s.group u).swap = .resident) : ((madeResident s inc).group u).swap = .resident := by
  induction inc generalizing s with
  | nil => exact hu.resolve_left (by simp)
  | cons p inc ih =>
    refine ih ((placed_modGroup s p.1 u _).trans hl) ?_
    rw [makeResident_group]
    split_ifs with hp
    · exact Or.inr rfl
    · rcases hu with hu | hu
      · rcases List.mem_cons.1 hu with (hup : u = p.1) | hu
        · exact absurd ⟨hup, hup ▸ hl⟩ hp
        · exact Or.inl hu
      · exact Or.inr hu

theorem madeResident_bars (s : State) (inc : List (Nat × Group)) (u : Nat) : ((madeResident s inc).group u).bars = (s.group u).bars := by
  refine foldl_keeps (fun s => (s.group u).bars) (fun s p => ?_) inc s
  rw [makeResident_group]
  split_ifs with hp
  · rw [hp.1]
  · rfl

theorem madeResident_units (s : State) (inc : List (Nat × Group)) :
    (madeResident s inc).threads = s.threads ∧ ∀ c, (madeResident s inc).core c = s.core c := by
  have hth (s : State) (p : Nat × Group) : (makeResident s p).threads = s.threads := rfl
  have hc (c : Nat) (s : State) (p : Nat × Group) : (makeResident s p).core c = s.core c := rfl
  exact ⟨foldl_keeps State.threads hth inc s, fun c => foldl_keeps (fun s => s.core c) (hc c) inc s⟩

/-- Groups without barriers have no phase to end. -/
theorem barSettles_none {s : State} {inc : List (Nat × Group)} (h : ∀ p ∈ inc, (s.group p.1).bars = []) :
    inc.foldl (fun s p => (s.group p.1).bars.foldl (fun s b => barSettle s p.1 b.1) s) s = s := by
  induction inc with
  | nil => rfl
  | cons p inc ih =>
    rw [List.foldl_cons, h p List.mem_cons_self, List.foldl_nil]
    exact ih fun q hq => h q (List.mem_cons_of_mem _ hq)

theorem replayRestored_none {s : State} {c : Nat} (h : (s.core c).olog = []) : replayRestored s c = s := by
  unfold replayRestored
  simp only [h, List.filter_nil, List.foldl_nil, List.map_nil, List.eraseDups_nil]

/-- The state in which a context has come to its core, and its groups are resident. -/
def restoredOn (s : State) (core lk : Nat) (l : Launch) (x : CoreCtx) (inc : List (Nat × Group)) : State :=
  madeResident ((loadCtx s core l.part x).modLaunch lk (fun l => { l with ctx := tdel core l.ctx })) inc

theorem restoredOn_core (s : State) (core lk : Nat) (l : Launch) (x : CoreCtx) (inc : List (Nat × Group)) :
    (restoredOn s core lk l x inc).core core = (loadCtx s core l.part x).core core :=
  (madeResident_units _ inc).2 core

theorem restoredOn_threads (s : State) (core lk : Nat) (l : Launch) (x : CoreCtx) (inc : List (Nat × Group)) :
    (restoredOn s core lk l x inc).threads = (loadCtx s core l.part x).threads :=
  (madeResident_units _ inc).1

theorem exchangeIn_restores {s : State} {core lk : Nat} {l : Launch} {x : CoreCtx} {inc : List (Nat × Group)} (hne : inc ≠ [])
    (hlk : ∀ p ∈ inc, p.2.launch = lk) (hl : tfind s.launches lk = some l) (hx : tfind l.ctx core = some x)
    (hsave : x.fresh = true ∨ saveBad s l core = false) (hbars : ∀ p ∈ inc, (s.group p.1).bars = [])
    (ho : (s.core core).olog = []) (hxo : x.olog = []) :
    exchangeIn s core inc = engineTo (restoredOn s core lk l x inc) (clusterOf core) := by
  have hgood : (!x.fresh && saveBad s l core) = false := by rcases hsave with h | h <;> simp [h]
  have hb : ∀ p ∈ inc, ((restoredOn s core lk l x inc).group p.1).bars = [] := fun p hp => by
    rw [restoredOn, madeResident_bars, ← hbars p hp, State.group, State.group, State.modLaunch_groups, (loadCtx_units ..).1]
  have hlog : ((engineTo (restoredOn s core lk l x inc) (clusterOf core)).core core).olog = [] := by
    obtain ⟨r, hr⟩ := (EnginesOnly.engineTo (restoredOn s core lk l x inc) (clusterOf core)).core core
    rw [hr, restoredOn_core]
    exact (loadCtx_core s core l.part x).2.2.2 ho hxo
  cases inc with
  | nil => exact absurd rfl hne
  | cons p inc =>
    have hp : p.2.launch = lk := hlk p List.mem_cons_self
    have hstep : exchangeIn s core (p :: inc) = replayRestored (engineTo ((p :: inc).foldl (fun s p =>
        (s.group p.1).bars.foldl (fun s b => barSettle s p.1 b.1) s) (restoredOn s core lk l x (p :: inc))) (clusterOf core)) core := by
      unfold exchangeIn
      simp only [hp, hl, hx, hgood, Bool.false_eq_true, if_false]
      rfl
    rw [hstep, barSettles_none hb, replayRestored_none hlog]

/-- The staged groups of a core, none of which leaves, come to it. -/
theorem execBankExchange_in {s : State} {core lk : Nat} (hst : ∃ p ∈ coreGroups s core, p.2.swap = .staged)
    (hno : ∀ p ∈ coreGroups s core, p.2.swap ≠ .spilling ∧ p.2.swap ≠ .requested)
    (hlk : ∀ p ∈ coreGroups s core, p.2.swap = .staged ∨ p.2.swap = .resident → p.2.launch = lk) (hr : swapReady s core [] = true) :
    execBankExchange core s = .next (exchangeIn s core ((coreGroups s core).filter (fun p => p.2.swap == .staged))) := by
  have hout : (coreGroups s core).filter (fun p => p.2.swap == .requested) = [] :=
    List.filter_eq_nil_iff.2 fun p hp => by simpa using (hno p hp).2
  have hspill : (coreGroups s core).any (fun p => p.2.swap == .spilling) = false :=
    List.any_eq_false.2 fun p hp => by simpa using (hno p hp).1
  have hin : ((coreGroups s core).filter (fun p => p.2.swap == .staged)).isEmpty = false := by
    obtain ⟨p, hp, hsw⟩ := hst
    exact List.isEmpty_eq_false_iff_exists_mem.2 ⟨p, List.mem_filter.2 ⟨hp, by simpa using hsw⟩⟩
  have hstay : (coreGroups s core).any (fun p => p.2.swap == .resident &&
      ((coreGroups s core).filter (fun p => p.2.swap == .staged)).any (fun q => q.2.launch != p.2.launch)) = false := by
    rw [List.any_eq_false]
    intro p hp h
    obtain ⟨hres, hany⟩ := Bool.and_eq_true_iff.1 h
    obtain ⟨q, hq, hne⟩ := List.any_eq_true.1 hany
    obtain ⟨hqm, hqs⟩ := List.mem_filter.1 hq
    rw [hlk p hp (Or.inr (by simpa using hres)), hlk q hqm (Or.inl (by simpa using hqs))] at hne
    simp at hne
  unfold execBankExchange
  simp only [hout, hspill, hin, hstay, hr, List.isEmpty_nil, Bool.true_and, Bool.or_self, Bool.not_true, Bool.false_eq_true, if_false]
  rfl

theorem execBankExchange_restores {s : State} {core lk : Nat} {l : Launch} {x : CoreCtx}
    (hst : ∃ p ∈ coreGroups s core, p.2.swap = .staged) (hno : ∀ p ∈ coreGroups s core, p.2.swap ≠ .spilling ∧ p.2.swap ≠ .requested)
    (hlk : ∀ p ∈ coreGroups s core, p.2.swap = .staged ∨ p.2.swap = .resident → p.2.launch = lk) (hr : swapReady s core [] = true)
    (hl : tfind s.launches lk = some l) (hx : tfind l.ctx core = some x) (hsave : x.fresh = true ∨ saveBad s l core = false)
    (hbars : ∀ p ∈ coreGroups s core, p.2.swap = .staged → p.2.bars = []) (ho : (s.core core).olog = []) (hxo : x.olog = [])
    (hgr : Rising s.groups) (hth : Rising x.threads) :
    ∃ s', exec (.bankExchange core) s = .next s' ∧ (∀ p ∈ coreGroups s core, p.2.swap = .staged → (s'.group p.1).swap = .resident) ∧
      (s'.core core).scratch = x.scratch ∧ (s'.core core).tags = x.tags ∧
      (∀ n, n ≤ 12 → x.scrways = BitVec.ofNat 16 (2 ^ n - 1) → (s'.core core).scrways = x.scrways) ∧
      ∀ q ∈ x.threads, ∃ y, tfind s'.threads q.1 = some y ∧ y.pc = q.2.pc ∧ y.v = q.2.v ∧ y.q = q.2.q ∧ y.j = q.2.j ∧
        y.run = restoredRun s.clock q.2.run := by
  have hmem (p : Nat × Group) : p ∈ (coreGroups s core).filter (fun p => p.2.swap == .staged) ↔
      p ∈ coreGroups s core ∧ p.2.swap = .staged := by
    rw [List.mem_filter, beq_iff_eq]
  have hfind (p : Nat × Group) (hp : p ∈ coreGroups s core) : tfind s.groups p.1 = some p.2 := tfind_of_mem hgr (List.mem_of_mem_filter hp)
  have hstep : exec (.bankExchange core) s = .next _ := execBankExchange_in hst hno hlk hr
  obtain ⟨p0, hp0, hs0⟩ := hst
  rw [exchangeIn_restores (List.ne_nil_of_mem ((hmem p0).2 ⟨hp0, hs0⟩))
    (fun p hp => hlk p ((hmem p).1 hp).1 (Or.inl ((hmem p).1 hp).2)) hl hx hsave
    (fun p hp => by rw [group_of_tfind (hfind p ((hmem p).1 hp).1)]; exact hbars p ((hmem p).1 hp).1 ((hmem p).1 hp).2) ho hxo] at hstep
  generalize (coreGroups s core).filter (fun p => p.2.swap == .staged) = inc at hstep hmem
  have heng := EnginesOnly.engineTo (restoredOn s core lk l x inc) (clusterOf core)
  obtain ⟨r, hcore⟩ := heng.core core
  rw [restoredOn_core] at hcore
  obtain ⟨hscr, htags, hways, -⟩ := loadCtx_core s core l.part x
  refine ⟨_, hstep, fun p hp hsw => ?_, ?_, ?_, ?_, fun q hq => ?_⟩
  · rw [State.group, heng.groups]
    refine madeResident_swap inc ?_ (Or.inl (List.mem_map_of_mem ((hmem p).2 ⟨hp, hsw⟩)))
    rw [State.modLaunch_groups, (loadCtx_units ..).1, hfind p hp]
    rfl
  · rw [hcore]; exact hscr
  · rw [hcore]; exact htags
  · rw [hcore]; exact hways
  · refine ⟨{ q.2 with run := restoredRun s.clock q.2.run, gen := tfind x.gens (slotOfThread q.1) }, ?_, rfl, rfl, rfl, rfl, rfl⟩
    rw [heng.threads, restoredOn_threads]
    exact loadCtx_threads s core l.part hth hq

/-! ### Placement (R328, R329, R17) -/

/-- The context of a core where a launch's first group is to start (R17). -/
def freshCtx (l : Launch) (gk core : Nat) : CoreCtx :=
  { fresh := true, scrways := BitVec.ofNat 16 (2 ^ l.r.scrways - 1)
    threads := startThreads gk core 0 l.r.groupsz (l.base + BitVec.ofNat 64 l.r.entry) [] [] }

theorem stageGroup_eq (s : State) (lk : Nat) (l : Launch) (core grp : Nat) :
    stageGroup s lk l core grp = ({ s with
      nextId := s.nextId + 1
      groups := tset s.nextId (startGroup lk l core 0 grp l.r.groupsz l.r.regs .staged) s.groups }).modLaunch lk (fun x =>
        { x with ctx := tset core (freshCtx l s.nextId core) x.ctx }) := rfl

theorem tfind_modLaunch {s : State} {lk : Nat} {l : Launch} (h : tfind s.launches lk = some l) (f : Launch → Launch) :
    tfind (s.modLaunch lk f).launches lk = some (f l) := by
  rw [State.modLaunch_launches, tfind_tmod, if_pos rfl, h]
  rfl

/-- One group is staged for each core, in order. -/
def stagedAll (lk : Nat) (l : Launch) (cs : List (Nat × Nat)) (s : State) : State :=
  cs.foldl (fun s p => stageGroup s lk l p.1 p.2) s

/-- Each core of a launch has its group and its fresh context, those numbered from the next free number on. -/
theorem stagedAll_places {lk : Nat} {l : Launch} {cs : List Nat} (hd : cs.Nodup) {s : State} {l0 : Launch}
    (hl : tfind s.launches lk = some l0) (k : Nat) :
    ∃ ctx, tfind (stagedAll lk l (cs.zipIdx k) s).launches lk = some { l0 with ctx := ctx } ∧
      (∀ core, core ∉ cs → tfind ctx core = tfind l0.ctx core) ∧
      (∀ g, g < s.nextId → tfind (stagedAll lk l (cs.zipIdx k) s).groups g = tfind s.groups g) ∧
      ∀ (i core : Nat), cs[i]? = some core →
        tfind (stagedAll lk l (cs.zipIdx k) s).groups (s.nextId + i) =
          some (startGroup lk l core 0 (k + i) l.r.groupsz l.r.regs .staged) ∧
        tfind ctx core = some (freshCtx l (s.nextId + i) core) := by
  induction cs generalizing s l0 k with
  | nil => exact ⟨l0.ctx, hl, fun _ _ => rfl, fun _ _ => rfl, fun i core h => by simp at h⟩
  | cons c cs ih =>
    obtain ⟨hc, hd⟩ := List.nodup_cons.1 hd
    have hl1 : tfind (stageGroup s lk l c k).launches lk = some { l0 with ctx := tset c (freshCtx l s.nextId c) l0.ctx } := by
      rw [stageGroup_eq]
      exact tfind_modLaunch hl _
    have hg1 (g : Nat) : tfind (stageGroup s lk l c k).groups g =
        if g = s.nextId then some (startGroup lk l c 0 k l.r.groupsz l.r.regs .staged) else tfind s.groups g := by
      rw [stageGroup_eq, State.modLaunch_groups, tfind_tset]
    obtain ⟨ctx, hctx, hother, hbelow, hat⟩ := ih hd hl1 (k + 1)
    refine ⟨ctx, hctx, fun core hcore => ?_, fun g hg => ?_, fun i core hi => ?_⟩
    · rw [List.mem_cons, not_or] at hcore
      rw [hother core hcore.2, tfind_tset_ne hcore.1]
    · exact (hbelow g (Nat.lt_succ_of_lt hg)).trans ((hg1 g).trans (if_neg hg.ne))
    · cases i with
      | zero =>
        rw [List.getElem?_cons_zero, Option.some.injEq] at hi
        subst hi
        exact ⟨(hbelow _ (Nat.lt_succ_self _)).trans ((hg1 _).trans (if_pos rfl)), (hother c hc).trans (tfind_tset_self ..)⟩
      | succ i =>
        obtain ⟨hgi, hci⟩ := hat i core (by simpa using hi)
        rw [show (stageGroup s lk l c k).nextId + i = s.nextId + (i + 1) from Nat.succ_add_eq_add_succ _ _] at hgi hci
        rw [show k + 1 + i = k + (i + 1) from Nat.succ_add_eq_add_succ _ _] at hgi
        exact ⟨hgi, hci⟩

/-- The graph that a launch belongs to, if it does, has started. -/
def graphStarted (l : Launch) (now : Nat) (s : State) : State :=
  match l.inst with
  | some gi => modInst s gi (fun g => if g.start = 0 then { g with start := now } else g)
  | none => s

theorem EnginesOnly.graphStarted (l : Launch) (now : Nat) (s : State) : EnginesOnly s (graphStarted l now s) := by
  unfold Machine.graphStarted
  split
  · exact { EnginesOnly.refl s with }
  · exact EnginesOnly.refl s

/-- A launch's groups wait at its cores: staged for the first time, or again. -/
def readied (s : State) (lk : Nat) (l : Launch) (cs : List Nat) : State :=
  if l.everPlaced then
    { s with groups := tmap (fun _ g => if g.launch == lk && g.swap == .out then { g with swap := .staged } else g) s.groups }
  else
    (graphStarted l (s.die l.die).dlclk (cs.foldl (saveArea lk) (stagedAll lk l cs.zipIdx s))).modLaunch lk (fun l =>
      { l with token := s.nextId })

/-- The launch runs on its cores, placed at a core clock and, on its die's deadline clock, at `now`. -/
def started (now clock : Nat) (cs : List Nat) (x : Launch) : Launch :=
  { x with st := .running, cores := cs, everPlaced := true, placedAt := clock, startTime := if x.startTime = 0 then now else x.startTime }

theorem place_eq (s : State) (lk : Nat) (l : Launch) (cs : List Nat) :
    place s lk l cs = (List.range nDies).foldl (fun s d => divertPast s lk d)
      ((cs.map clusterOf).eraseDups.foldl engineTo
        ((readied s lk l cs).modLaunch lk (started (s.die l.die).dlclk (readied s lk l cs).clock cs))) := by
  unfold place readied graphStarted
  cases l.everPlaced with
  | true => rfl
  | false => cases l.inst <;> rfl

/-- What is staged for a launch that was never placed. -/
def StagedFirst (s s' : State) (lk : Nat) (l l' : Launch) (cs : List Nat) : Prop :=
  ∀ (i core : Nat), cs[i]? = some core →
    tfind s'.groups (s.nextId + i) = some (startGroup lk l core 0 i l.r.groupsz l.r.regs .staged) ∧
      tfind l'.ctx core = some (freshCtx l (s.nextId + i) core)

theorem readied_leaves {s : State} {lk : Nat} {l : Launch} {cs : List Nat} (hl : tfind s.launches lk = some l) (hd : cs.Nodup) :
    (readied s lk l cs).hbm = s.hbm ∧ (readied s lk l cs).bank = s.bank ∧ (readied s lk l cs).dies = s.dies ∧
      ∃ l1, tfind (readied s lk l cs).launches lk = some l1 ∧ divertible l1 = divertible l ∧ divTime l1 = divTime l ∧
        (l.everPlaced = false → StagedFirst s (readied s lk l cs) lk l l1 cs) := by
  unfold readied
  cases hp : l.everPlaced with
  | true => exact ⟨rfl, rfl, rfl, l, hl, rfl, rfl, fun h => by cases h⟩
  | false =>
    obtain ⟨ctx, hctx, -, -, hat⟩ := stagedAll_places (l := l) hd hl 0
    have hstaged : (stagedAll lk l cs.zipIdx s).hbm = s.hbm ∧ (stagedAll lk l cs.zipIdx s).bank = s.bank ∧
        (stagedAll lk l cs.zipIdx s).dies = s.dies :=
      ⟨foldl_keeps State.hbm (fun _ _ => by rw [stageGroup_eq]; rfl) cs.zipIdx s,
        foldl_keeps State.bank (fun _ _ => by rw [stageGroup_eq]; rfl) cs.zipIdx s,
        foldl_keeps State.dies (fun _ _ => by rw [stageGroup_eq]; rfl) cs.zipIdx s⟩
    have hkept := (EnginesOnly.foldl (EnginesOnly.saveArea lk) cs (stagedAll lk l cs.zipIdx s)).trans
      (EnginesOnly.graphStarted l (s.die l.die).dlclk _)
    obtain ⟨e, a, hl2⟩ := hkept.launch lk _ hctx
    simp only [Bool.false_eq_true, if_false]
    refine ⟨hkept.hbm.trans hstaged.1, hkept.bank.trans hstaged.2.1, hkept.dies.trans hstaged.2.2, _, tfind_modLaunch hl2 _, rfl, rfl,
      fun _ i core hi => ?_⟩
    obtain ⟨hgroup, hcore⟩ := hat i core hi
    rw [Nat.zero_add] at hgroup
    exact ⟨by rw [State.modLaunch_groups, hkept.groups]; exact hgroup, hcore⟩

theorem divertPast_early {s : State} {lk d : Nat} {l : Launch} (hl : tfind s.launches lk = some l)
    (h : divertible l = true → (s.die d).dlclk < divTime l) : divertPast s lk d = s := by
  unfold divertPast
  simp only [hl]
  refine if_neg fun hdue => ?_
  simp only [Bool.and_eq_true, decide_eq_true_eq] at hdue
  obtain ⟨⟨⟨hdiv, -⟩, -⟩, htime⟩ := hdue
  exact absurd (h hdiv) (not_lt.2 htime)

theorem place_places {s : State} {lk : Nat} {l : Launch} {cs : List Nat} (hl : tfind s.launches lk = some l) (hd : cs.Nodup)
    (hdiv : divertible l = true → ∀ d, (s.die d).dlclk < divTime l) :
    ∃ l', tfind (place s lk l cs).launches lk = some l' ∧ l'.st = .running ∧ l'.cores = cs ∧ l'.everPlaced = true ∧
      (place s lk l cs).hbm = s.hbm ∧ (place s lk l cs).bank = s.bank ∧
      (l.everPlaced = false → StagedFirst s (place s lk l cs) lk l l' cs) := by
  obtain ⟨hhbm, hbank, hdies, l1, hl1, hdiv1, htime1, hfirst⟩ := readied_leaves hl hd
  have hl2 := tfind_modLaunch hl1 (started (s.die l.die).dlclk (readied s lk l cs).clock cs)
  have heng := EnginesOnly.foldl (f := engineTo) EnginesOnly.engineTo (cs.map clusterOf).eraseDups
    ((readied s lk l cs).modLaunch lk (started (s.die l.die).dlclk (readied s lk l cs).clock cs))
  obtain ⟨e, a, hl3⟩ := heng.launch lk _ hl2
  rw [place_eq]
  generalize (cs.map clusterOf).eraseDups.foldl engineTo
    ((readied s lk l cs).modLaunch lk (started (s.die l.die).dlclk (readied s lk l cs).clock cs)) = s3 at heng hl3
  have hearly (d : Nat) : divertPast s3 lk d = s3 := by
    refine divertPast_early hl3 fun h => ?_
    have h1 : divertible l1 = true := h
    have h2 : (s.die d).dlclk < divTime l1 := htime1 ▸ hdiv (hdiv1 ▸ h1) d
    rw [State.die, heng.dies]
    show ((tfind (readied s lk l cs).dies d).getD dieReset).dlclk < _
    rw [hdies]
    exact h2
  rw [List.foldl_fixed' hearly]
  refine ⟨_, hl3, rfl, rfl, rfl, heng.hbm.trans hhbm, heng.bank.trans hbank, fun hnew i core hi => ?_⟩
  obtain ⟨hg, hx⟩ := hfirst hnew i core hi
  exact ⟨by rw [heng.groups]; exact hg, hx⟩

/-- The only ready launch of a partition, whose time has not passed, is placed where it finds cores. -/
theorem execSchedulerDecision_places {s : State} {die part lk : Nat} {l : Launch} {cs : List Nat}
    (hp : (s.die die).fuse.present = true) (hr : readyList s part = [lk]) (hl : tfind s.launches lk = some l)
    (hd : deadlinePast s l = false) (hw : wouldTake s lk l [] [] = some cs) :
    execSchedulerDecision die part s = .next (place s lk l cs) := by
  have hone : decideOne s part [] lk l = some (place s lk l cs, []) := by
    unfold decideOne
    simp only [hd, hw, Bool.false_eq_true, if_false]
  unfold execSchedulerDecision
  rw [if_pos hp, hr, decideAll, hl]
  simp only [hone, decideAll]

end Sys2Proof.Machine

open Sys2Proof Sys2Proof.Machine

/-- Settles O52: placement stages the groups one after the other; an exchange and the end of a spill are each the case of the groups that
the core then has, and what engines and requests do beside it leaves threads, groups and contexts alone. -/
theorem launchesArePlacedAndSwapped : Obligations.LaunchesArePlacedAndSwapped := by
  unfold Obligations.LaunchesArePlacedAndSwapped
  refine ⟨fun s die part lk l cs hp hr hl _ hdead hw hnd hdiv => ?_, ?_, ?_, ?_⟩
  · obtain ⟨l', hl', hst, hcores, hever, hhbm, hbank, hfirst⟩ := place_places hl hnd hdiv
    refine ⟨_, l', execSchedulerDecision_places hp hr hl hdead hw, hl', hst, hcores, hever, hhbm, hbank, fun hnew _ _ i core hi => ?_⟩
    obtain ⟨hg, hx⟩ := hfirst hnew i core hi
    refine ⟨_, _, _, hg, rfl, rfl, rfl, rfl, rfl, rfl, rfl, hx, rfl, fun j hj => ?_⟩
    exact ⟨startedThread (s.nextId + i) j (l.base + BitVec.ofNat 64 l.r.entry) [], tfind_startThreads _ core 0 _ [] [] hj,
      rfl, rfl, rfl, rfl, rfl, rfl, rfl, rfl, rfl⟩
  · intro s core lk l x gs hst hno hlk hr hl hx hsave hbars ho hxo hgr hth
    exact execBankExchange_restores hst hno hlk hr hl hx hsave hbars ho hxo hgr hth
  · intro s core gk g l hg hc hs ho hr hl hi hlive hq hgr hth _
    exact execBankExchange_leaves hg hc hs ho hr hl hi hlive hq hgr hth
  · intro s core gk g l hg hc hs ho hl hgr _
    exact execSpillFill_ends hg hc hs ho hl hgr

end

section
/-! PROOFS. Floating-point instructions that only compute (R102 to R106). -/

namespace Sys2Proof.Machine

set_option Elab.async false  -- theorem after theorem: every thread of a compile takes a stack of its own

/-- The predicate of a floating-point comparison is combined as that of an integer comparison (R85). -/
theorem fbop_eq_bopApply (bop : Bop) (x p : Bool) : fbop bop x p = bopApply bop x p := by cases bop <;> rfl

/-- An instruction whose meaning is the shared one of class ALU computes the result that it is given. -/
theorem computes_of_execAlu {i : Instr} {c : Ctl} {us : List Nat} {r : Thread → Group → Res}
    (h : ∀ s, exec i s = execAlu c us r s) : Computes i c r :=
  fun s hi hk => h s ▸ execAlu_spec hi hk

/-- A floating-point instruction of two sources computes its value of them. -/
theorem computes_of_execF2 {i : Instr} {c : Ctl} {us : List Nat} {dbl : Bool} {d : Reg} {a b : Src}
    {f : FP → Nat → Nat → Nat × Fl} (h : ∀ s, exec i s = execF2 c us dbl d a b f s) :
    Computes i c (fun t g => .fp d (nregs64 dbl) (f (ftOf dbl) (srcF t g dbl a) (srcF t g dbl b))) :=
  computes_of_execAlu h

theorem fcmp_computes (c : Ctl) (f : Bool) (cond : FCond) (bop : Bop) (q : PDst) (a b : Src) (p : PSrc) :
    Computes (.fcmp c f cond bop q a b p) c (fun t g =>
      let r := fCmp (ftOf f) cond (srcF t g f a) (srcF t g f b)
      { preds := [(q.val, bopApply bop r.1 (predOf t p))], fl := r.2 }) := by
  simp only [← fbop_eq_bopApply]
  exact computes_of_execAlu (us := []) fun _ => rfl

end Sys2Proof.Machine

open Sys2Proof Sys2Proof.Machine

/-- Settles O15: each form is the shared meaning of class ALU with its own value, and a comparison's predicate is combined as an integer
one's. -/
theorem floatArithmeticResults : Obligations.FloatArithmeticResults := by
  unfold Obligations.FloatArithmeticResults
  refine ⟨fun c f rm d a b => ?_, fun c f rm d a b => ?_, fun c f rm d a b => ?_, fun c f rm d a b e => ?_, fun c f rm d a imm => ?_,
    fun c f rm d a imm => ?_, fun c f rm d a b imm => ?_, fun c f d a b => ?_, fun c f d a b => ?_, fcmp_computes,
    fun c f mask q a => ?_⟩
  · exact computes_of_execF2 (us := [3]) (f := fun f x y => fAdd f rm x y) fun _ => rfl
  · exact computes_of_execF2 (us := [3]) (f := fun f x y => fAdd f rm x (fNeg f y)) fun _ => rfl
  · exact computes_of_execF2 (us := [4]) (f := fun f x y => fMul f rm x y) fun _ => rfl
  · exact computes_of_execAlu (us := unitsFor d [3, 4]) fun _ => rfl
  · exact computes_of_execAlu (us := unitsFor d [3]) fun _ => rfl
  · exact computes_of_execAlu (us := unitsFor d [4]) fun _ => rfl
  · exact computes_of_execAlu (us := unitsFor d [3, 4]) fun _ => rfl
  · exact computes_of_execF2 (us := []) (f := fun f x y => (fMin f x y, 0)) fun _ => rfl
  · exact computes_of_execF2 (us := []) (f := fun f x y => (fMax f x y, 0)) fun _ => rfl
  · exact computes_of_execAlu (us := []) fun _ => rfl

end

section
/-! PROOFS. The engine's clear of accumulators, where the accumulator space is not listed in its canonical form. -/

namespace Sys2Proof.Machine

set_option Elab.async false  -- theorem after theorem: every thread of a compile takes a stack of its own

/-- An ACCZ of position (0, 0), granted. -/
def clearEntry : EReq := { id := 1, core := 0, thread := 0, group := 1, launch := 1, kind := .accz ⟨0, 0, 1, 1⟩, bo := 0, stage := .transfer }

/-- The part after reset, but that cluster 0 has that request, and lists position (0, 0) of its accumulator space twice. -/
def listedTwice : State :=
  { State.reset with clusters := [(0, { clusterReset with table := [clearEntry], acc := [(accKey 0 0, 1), (accKey 0 0, 1)] })] }

/-- Nothing holds the request back. -/
theorem listedTwice_clears : entryOf listedTwice 0 1 = some clearEntry ∧ transferReady listedTwice clearEntry = true ∧
    outputFree listedTwice 0 = true ∧ dataEntries clearEntry ≤ (listedTwice.cluster 0).sent := by decide

/-- The clear removes one of the two entries of the position, which then reads the other. -/
theorem listedTwice_keeps : ∃ s', exec (.transferComplete 0 1 none) listedTwice = .next s' ∧ accGet (s'.cluster 0) 0 0 = 1 :=
  ⟨_, rfl, by decide⟩

end Sys2Proof.Machine

open Sys2Proof Sys2Proof.Machine

/-- Refutes O44: the clauses that read accumulators back (PASS_COMPLETE, and TRANSFER_COMPLETE of ACCZ and ACCLD) are stated of every
table of accumulators, one that lists a position twice among them. The model keeps that table in rising order and takes a position
of +0 out of it; of one listed twice it takes one entry out, and the position does not read +0 after an ACCZ. -/
theorem not_engineEventsAdvanceRequests : ¬ Obligations.EngineEventsAdvanceRequests := by
  unfold Obligations.EngineEventsAdvanceRequests
  rintro ⟨-, -, -, -, -, -, htransfer⟩
  obtain ⟨hentry, hready, hfree, hsent⟩ := listedTwice_clears
  obtain ⟨s', hs', -, hacc⟩ := (htransfer listedTwice 0 1 clearEntry hentry rfl hready hfree hsent).1 ⟨0, 0, 1, 1⟩ rfl (by decide)
  have hzero : accGet (s'.cluster 0) 0 0 = 0 := (hacc 0 0 (by decide)).1 (by unfold Rect.has; decide)
  obtain ⟨s'', hs'', hone⟩ := listedTwice_keeps
  obtain rfl : s' = s'' := Host.Outcome.next.inj (hs'.symm.trans hs'')
  exact absurd (hzero.symm.trans hone) (by decide)

end

section
/-! PROOFS. The instruction word: bits of a sum of fields, and the codes of operands and modifiers (R61, R66). -/

namespace Sys2Proof

set_option Elab.async false  -- theorem after theorem: every thread of a compile takes a stack of its own

/-! ### Bit fields of a sum

A number packed as `x + y * 2 ^ k` with `x` below `2 ^ k`: a field below bit `k` reads `x`, the field at bit `k` reads `y`. -/

@[simp] theorem bitsAt_add_mul_low {x y N lo n : Nat} (h : N % 2 ^ (lo + n) = 0) : bitsAt (x + y * N) lo n = bitsAt x lo n := by
  obtain ⟨k, rfl⟩ := Nat.dvd_of_mod_eq_zero h
  unfold bitsAt
  rw [show x + y * (2 ^ (lo + n) * k) = x + 2 ^ lo * (2 ^ n * (y * k)) by ring, Nat.add_mul_div_left _ _ (Nat.two_pow_pos lo),
    Nat.add_mul_mod_self_left]

@[simp] theorem bitsAt_add_mul_field {x y N lo n : Nat} (hN : 2 ^ lo = N) (hx : x < N) (hy : y < 2 ^ n) :
    bitsAt (x + y * N) lo n = y := by
  subst hN
  rw [bitsAt, Nat.add_mul_div_right _ _ (Nat.two_pow_pos lo), Nat.div_eq_of_lt hx, Nat.zero_add, Nat.mod_eq_of_lt hy]

@[simp] theorem bitsAt_mul_field {y N lo n : Nat} (hN : 2 ^ lo = N) (hy : y < 2 ^ n) : bitsAt (y * N) lo n = y := by
  rw [← Nat.zero_add (y * N), bitsAt_add_mul_field hN (hN ▸ Nat.two_pow_pos lo) hy]

@[simp] theorem bitsAt_of_lt {x n : Nat} (h : x < 2 ^ n) : bitsAt x 0 n = x := by
  rw [bitsAt, pow_zero, Nat.div_one, Nat.mod_eq_of_lt h]

@[simp] theorem bitsAt_above {x lo n : Nat} (h : x < 2 ^ lo) : bitsAt x lo n = 0 := by
  rw [bitsAt, Nat.div_eq_of_lt h, Nat.zero_mod]

@[simp] theorem flag_add_mul_low {x y N lo : Nat} (h : N % 2 ^ (lo + 1) = 0) : flag (x + y * N) lo = flag x lo := by
  rw [flag, bitsAt_add_mul_low h, flag]

@[simp] theorem flag_add_mul_field {x N lo : Nat} {b : Bool} (hN : 2 ^ lo = N) (hx : x < N) : flag (x + b.toNat * N) lo = b := by
  rw [flag, bitsAt_add_mul_field hN hx b.toNat_lt]
  cases b <;> rfl

@[simp] theorem flag_mul_field {N lo : Nat} {b : Bool} (hN : 2 ^ lo = N) : flag (b.toNat * N) lo = b := by
  rw [← Nat.zero_add (b.toNat * N), flag_add_mul_field hN (hN ▸ Nat.two_pow_pos lo)]

@[simp] theorem flag_toNat (b : Bool) : flag b.toNat 0 = b := by cases b <;> rfl

@[simp] theorem flag_above {x lo : Nat} (h : x < 2 ^ lo) : flag x lo = false := by
  rw [flag, bitsAt_above h]
  rfl

/-! ### Codes of operands and modifiers -/

@[simp] theorem GuardMode.read_code (x : GuardMode) : GuardMode.read x.code = some x := by cases x <;> rfl
theorem GuardMode.code_lt (x : GuardMode) : x.code < 3 := by cases x <;> decide
@[simp] theorem SchedHint.read_code (x : SchedHint) : SchedHint.read x.code = some x := by cases x <;> rfl
theorem SchedHint.code_lt (x : SchedHint) : x.code < 3 := by cases x <;> decide
@[simp] theorem Wd.read_code (x : Wd) : Wd.read x.code = some x := by cases x <;> rfl
theorem Wd.code_lt (x : Wd) : x.code < 4 := by cases x <;> decide
@[simp] theorem ICond.read_code (x : ICond) : ICond.read x.code = some x := by cases x <;> rfl
theorem ICond.code_lt (x : ICond) : x.code < 6 := by cases x <;> decide
@[simp] theorem Bop.read_code (x : Bop) : Bop.read x.code = some x := by cases x <;> rfl
theorem Bop.code_lt (x : Bop) : x.code < 4 := by cases x <;> decide
@[simp] theorem Rnd.read_code (x : Rnd) : Rnd.read x.code = some x := by cases x <;> rfl
theorem Rnd.code_lt (x : Rnd) : x.code < 5 := by cases x <;> decide
@[simp] theorem FCond.read_code (x : FCond) : FCond.read x.code = some x := by cases x <;> rfl
theorem FCond.code_lt (x : FCond) : x.code < 8 := by cases x <;> decide
@[simp] theorem XMode.read_code (x : XMode) : XMode.read x.code = some x := by cases x <;> rfl
theorem XMode.code_lt (x : XMode) : x.code < 4 := by cases x <;> decide
@[simp] theorem RedOp.read_code (x : RedOp) : RedOp.read x.code = some x := by cases x <;> rfl
theorem RedOp.code_lt (x : RedOp) : x.code < 6 := by cases x <;> decide
@[simp] theorem RedTy.read_code (x : RedTy) : RedTy.read x.code = some x := by cases x <;> rfl
theorem RedTy.code_lt (x : RedTy) : x.code < 3 := by cases x <;> decide
@[simp] theorem AM.read_code (x : AM) : AM.read x.code = some x := by cases x <;> rfl
theorem AM.code_lt (x : AM) : x.code < 4 := by cases x <;> decide
@[simp] theorem LdSz.read_code (x : LdSz) : LdSz.read x.code = some x := by cases x <;> rfl
theorem LdSz.code_lt (x : LdSz) : x.code < 13 := by cases x <;> decide
@[simp] theorem StSz.read_code (x : StSz) : StSz.read x.code = some x := by cases x <;> rfl
theorem StSz.code_lt (x : StSz) : x.code < 5 := by cases x <;> decide
@[simp] theorem LdkSz.read_code (x : LdkSz) : LdkSz.read x.code = some x := by cases x <;> rfl
theorem LdkSz.code_lt (x : LdkSz) : x.code < 3 := by cases x <;> decide
@[simp] theorem ClineOp.read_code (x : ClineOp) : ClineOp.read x.code = some x := by cases x <;> rfl
theorem ClineOp.code_lt (x : ClineOp) : x.code < 4 := by cases x <;> decide
@[simp] theorem Scope.read_code (x : Scope) : Scope.read x.code = some x := by cases x <;> rfl
theorem Scope.code_lt (x : Scope) : x.code < 8 := by cases x <;> decide
@[simp] theorem Order.read_code (x : Order) : Order.read x.code = some x := by cases x <;> rfl
theorem Order.code_lt (x : Order) : x.code < 4 := by cases x <;> decide
@[simp] theorem AtomOp.read_code (x : AtomOp) : AtomOp.read x.code = some x := by cases x <;> rfl
theorem AtomOp.code_lt (x : AtomOp) : x.code < 11 := by cases x <;> decide
@[simp] theorem AtomFOp.read_code (x : AtomFOp) : AtomFOp.read x.code = some x := by cases x <;> rfl
theorem AtomFOp.code_lt (x : AtomFOp) : x.code < 8 := by cases x <;> decide
@[simp] theorem BankOp.read_code (x : BankOp) : BankOp.read x.code = some x := by cases x <;> rfl
theorem BankOp.code_lt (x : BankOp) : x.code < 8 := by cases x <;> decide
@[simp] theorem BankTy.read_code (x : BankTy) : BankTy.read x.code = some x := by cases x <;> rfl
theorem BankTy.code_lt (x : BankTy) : x.code < 4 := by cases x <;> decide
@[simp] theorem FenceOrd.read_code (x : FenceOrd) : FenceOrd.read x.code = some x := by cases x <;> rfl
theorem FenceOrd.code_lt (x : FenceOrd) : x.code < 4 := by cases x <;> decide
@[simp] theorem WCmp.read_code (x : WCmp) : WCmp.read x.code = some x := by cases x <;> rfl
theorem WCmp.code_lt (x : WCmp) : x.code < 3 := by cases x <;> decide
@[simp] theorem RegionMode.read_code (x : RegionMode) : RegionMode.read x.code = some x := by cases x <;> rfl
theorem RegionMode.code_lt (x : RegionMode) : x.code < 4 := by cases x <;> decide
@[simp] theorem TrapAct.read_code (x : TrapAct) : TrapAct.read x.code = some x := by cases x <;> rfl
theorem TrapAct.code_lt (x : TrapAct) : x.code < 4 := by cases x <;> decide
@[simp] theorem ParkSel.read_code (x : ParkSel) : ParkSel.read x.code = some x := by cases x <;> rfl
theorem ParkSel.code_lt (x : ParkSel) : x.code < 4 := by cases x <;> decide
@[simp] theorem DlSel.read_code (x : DlSel) : DlSel.read x.code = some x := by cases x <;> rfl
theorem DlSel.code_lt (x : DlSel) : x.code < 4 := by cases x <;> decide

@[simp] theorem finRead_val {n : Nat} (x : Fin n) : finRead n x.val = some x := dif_pos x.isLt

@[simp] theorem PSrc.read_code (p : PSrc) : PSrc.read p.code = some p := by
  obtain ⟨i, b⟩ := p
  revert i b
  decide
theorem PSrc.code_lt (p : PSrc) : p.code < 16 := by
  have hb := Bool.toNat_lt p.neg
  have hi := p.idx.isLt
  unfold PSrc.code
  omega

theorem IMod.code_lt (m : IMod) : m.code < 16 := by
  have hw := m.wd.code_lt
  have hu := Bool.toNat_lt m.un
  have hs := Bool.toNat_lt m.sat
  unfold IMod.code
  omega
@[simp] theorem IMod.read_code (m : IMod) : IMod.read m.code = some m := by
  obtain ⟨w, u, s⟩ := m
  cases w <;> cases u <;> cases s <;> rfl
@[simp] theorem IMod.read_add_mul {x y N : Nat} (h : N % 16 = 0) : IMod.read (x + y * N) = IMod.read x := by
  have (lo n : Nat) (hk : lo + n ≤ 4) : bitsAt (x + y * N) lo n = bitsAt x lo n :=
    bitsAt_add_mul_low (Nat.mod_eq_zero_of_dvd ((Nat.pow_dvd_pow 2 hk).trans (Nat.dvd_of_mod_eq_zero h)))
  unfold IMod.read flag
  rw [this 0 2 (by omega), this 2 1 (by omega), this 3 1 (by omega)]

@[simp] theorem Reg.read_num (r : Reg) : Reg.read r.num r.kind = some r := by
  cases r <;> simp [Reg.read, Reg.num, Reg.kind]
@[simp] theorem Reg.num_lt (r : Reg) : r.num < 1024 := by
  cases r with
  | v n => exact n.isLt
  | k n => exact n.isLt.trans (by decide)
@[simp] theorem Reg.kind_lt (r : Reg) : r.kind < 4 := by cases r <;> simp [Reg.kind]

@[simp] theorem Src.read_num (a : Src) : Src.read a.num a.kind = some a := by
  cases a <;> simp [Src.read, Src.num, Src.kind]
@[simp] theorem Src.num_lt (a : Src) : a.num < 1024 := by
  cases a with
  | v n => exact n.isLt
  | k n => exact n.isLt.trans (by decide)
  | c x => exact x.isLt
@[simp] theorem Src.kind_lt (a : Src) : a.kind < 4 := by cases a <;> simp [Src.kind]

@[simp] theorem vRead_val (r : VReg) : vRead r.val 0 = some r := by simp [vRead]
@[simp] theorem kRead_val (r : KReg) : kRead r.val 1 = some r := by simp [kRead]

@[simp] theorem optPRead_num (q : Option PDst) : optPRead q.isSome (optPNum q) = some q := by
  cases q <;> simp [optPRead, optPNum]
theorem optPNum_lt (q : Option PDst) : optPNum q < 8 := by
  cases q with
  | none => decide
  | some q => exact q.isLt

@[simp] theorem optSRead_num (a : Option Src) : optSRead a.isSome (optSNum a) (optSKind a) = some a := by
  cases a <;> simp [optSRead, optSNum, optSKind]
@[simp] theorem optSNum_lt (a : Option Src) : optSNum a < 1024 := by
  cases a with
  | none => decide
  | some a => exact a.num_lt
@[simp] theorem optSKind_lt (a : Option Src) : optSKind a < 4 := by
  cases a with
  | none => decide
  | some a => exact a.kind_lt

@[simp] theorem ObjSel.read_num (o : ObjSel) : ObjSel.read o.objr o.num = some o := by
  cases o <;> simp [ObjSel.read, ObjSel.objr, ObjSel.num]
@[simp] theorem ObjSel.objr_le (o : ObjSel) : o.objr ≤ 1 := by cases o <;> simp [ObjSel.objr]
@[simp] theorem ObjSel.num_lt (o : ObjSel) : o.num < 65536 := by
  cases o with
  | idx i => exact i.isLt
  | k n => exact n.isLt.trans (by decide)

@[simp] theorem CopyDst.read_num (d : CopyDst) : CopyDst.read (flag d.bo1 0) d.num = some d := by
  cases d <;> simp [CopyDst.read, CopyDst.bo1, CopyDst.num, flag, bitsAt]
theorem CopyDst.bo1_lt (d : CopyDst) : d.bo1 < 2 := by cases d <;> simp [CopyDst.bo1]
@[simp] theorem CopyDst.num_lt (d : CopyDst) : d.num < 1024 := by
  cases d with
  | tag n => exact n.isLt.trans (by decide)
  | bo => decide

end Sys2Proof
end

section
/-! PROOFS. The instruction word: what is read from a packed format (R61, R63). -/

namespace Sys2Proof

set_option Elab.async false  -- theorem after theorem: every thread of a compile takes a stack of its own

/-! ### Formats: what is read from a packed word -/

/-- Every field of a format is below its width (R63). -/
def RF.Fits (f : RF) : Prop :=
  f.d < 1024 ∧ f.a < 1024 ∧ f.b < 1024 ∧ f.c < 1024 ∧ f.e < 1024 ∧ f.ka < 4 ∧ f.kb < 4 ∧ f.kc < 4 ∧ f.ke < 4 ∧ f.kd < 4 ∧
    f.opm < 2 ^ 36
def IF.Fits (f : IF) : Prop :=
  f.d < 1024 ∧ f.a < 1024 ∧ f.b < 1024 ∧ f.imm < 2 ^ 32 ∧ f.ka < 4 ∧ f.kb < 4 ∧ f.kd < 4 ∧ f.opm < 2 ^ 26
def WF.Fits (f : WF) : Prop := f.d < 1024 ∧ f.a < 1024 ∧ f.ka < 4 ∧ f.kd < 4 ∧ f.opm < 256 ∧ f.imm < 2 ^ 64
def MF.Fits (f : MF) : Prop :=
  f.d < 1024 ∧ f.a < 1024 ∧ f.b < 1024 ∧ f.objr < 2 ∧ f.obj < 65536 ∧ f.ka < 4 ∧ f.kb < 4 ∧ f.kd < 4 ∧ f.opm < 1024 ∧
    f.off < 2 ^ 32

/-- The bits above the common fields, in each format. -/
def RF.body (f : RF) : Nat :=
  f.d + f.a * 2 ^ 10 + f.b * 2 ^ 20 + f.c * 2 ^ 30 + f.e * 2 ^ 40 + f.ka * 2 ^ 50 + f.kb * 2 ^ 52 + f.kc * 2 ^ 54 +
    f.ke * 2 ^ 56 + f.kd * 2 ^ 58 + f.opm * 2 ^ 60
def IF.body (f : IF) : Nat :=
  f.d + f.a * 2 ^ 10 + f.b * 2 ^ 20 + f.imm * 2 ^ 32 + f.ka * 2 ^ 64 + f.kb * 2 ^ 66 + f.kd * 2 ^ 68 + f.opm * 2 ^ 70
def WF.body (f : WF) : Nat := f.d + f.a * 2 ^ 10 + f.ka * 2 ^ 20 + f.kd * 2 ^ 22 + f.opm * 2 ^ 24 + f.imm * 2 ^ 32
def MF.body (f : MF) : Nat :=
  f.d + f.a * 2 ^ 10 + f.b * 2 ^ 20 + f.objr * 2 ^ 30 + f.obj * 2 ^ 31 + f.ka * 2 ^ 48 + f.kb * 2 ^ 50 + f.kd * 2 ^ 52 +
    f.opm * 2 ^ 54 + f.off * 2 ^ 64

section
variable {h : Nat}

theorem RF.toNat_pack {f : RF} (hh : h < 2 ^ 32) (hf : f.Fits) : (f.pack h).toNat = h + f.body * 2 ^ 32 := by
  obtain ⟨hd, ha, hb, hc, he, hka, hkb, hkc, hke, hkd, ho⟩ := hf
  rw [RF.pack, RF.body, BitVec.toNat_ofNat, Nat.mod_eq_of_lt (by omega)]
  omega
theorem IF.toNat_pack {f : IF} (hh : h < 2 ^ 32) (hf : f.Fits) : (f.pack h).toNat = h + f.body * 2 ^ 32 := by
  obtain ⟨hd, ha, hb, hi, hka, hkb, hkd, ho⟩ := hf
  rw [IF.pack, IF.body, BitVec.toNat_ofNat, Nat.mod_eq_of_lt (by omega)]
  omega
theorem WF.toNat_pack {f : WF} (hh : h < 2 ^ 32) (hf : f.Fits) : (f.pack h).toNat = h + f.body * 2 ^ 32 := by
  obtain ⟨hd, ha, hka, hkd, ho, hi⟩ := hf
  rw [WF.pack, WF.body, BitVec.toNat_ofNat, Nat.mod_eq_of_lt (by omega)]
  omega
theorem MF.toNat_pack {f : MF} (hh : h < 2 ^ 32) (hf : f.Fits) : (f.pack h).toNat = h + f.body * 2 ^ 32 := by
  obtain ⟨hd, ha, hb, hr, hj, hka, hkb, hkd, ho, hi⟩ := hf
  rw [MF.pack, MF.body, BitVec.toNat_ofNat, Nat.mod_eq_of_lt (by omega)]
  omega

theorem RF.read_body {f : RF} (hh : h < 2 ^ 32) (hf : f.Fits) : RF.read (h + f.body * 2 ^ 32) = f := by
  obtain ⟨hd, ha, hb, hc, he, hka, hkb, hkc, hke, hkd, ho⟩ := hf
  obtain ⟨d, a, b, c, e, ka, kb, kc, ke, kd, opm⟩ := f
  simp only [RF.read, RF.body, bitsAt, RF.mk.injEq] at *
  refine ⟨?_, ?_, ?_, ?_, ?_, ?_, ?_, ?_, ?_, ?_, ?_⟩ <;> omega
theorem IF.read_body {f : IF} (hh : h < 2 ^ 32) (hf : f.Fits) : IF.read (h + f.body * 2 ^ 32) = f := by
  obtain ⟨hd, ha, hb, hi, hka, hkb, hkd, ho⟩ := hf
  obtain ⟨d, a, b, imm, ka, kb, kd, opm⟩ := f
  simp only [IF.read, IF.body, bitsAt, IF.mk.injEq] at *
  refine ⟨?_, ?_, ?_, ?_, ?_, ?_, ?_, ?_⟩ <;> omega
theorem WF.read_body {f : WF} (hh : h < 2 ^ 32) (hf : f.Fits) : WF.read (h + f.body * 2 ^ 32) = f := by
  obtain ⟨hd, ha, hka, hkd, ho, hi⟩ := hf
  obtain ⟨d, a, ka, kd, opm, imm⟩ := f
  simp only [WF.read, WF.body, bitsAt, WF.mk.injEq] at *
  refine ⟨?_, ?_, ?_, ?_, ?_, ?_⟩ <;> omega
theorem MF.read_body {f : MF} (hh : h < 2 ^ 32) (hf : f.Fits) : MF.read (h + f.body * 2 ^ 32) = f := by
  obtain ⟨hd, ha, hb, hr, hj, hka, hkb, hkd, ho, hi⟩ := hf
  obtain ⟨d, a, b, objr, obj, ka, kb, kd, opm, off⟩ := f
  simp only [MF.read, MF.body, bitsAt, MF.mk.injEq] at *
  refine ⟨?_, ?_, ?_, ?_, ?_, ?_, ?_, ?_, ?_, ?_⟩ <;> omega

end

/-! ### The common fields -/

theorem Ctl.pack_lt {o : Nat} (ho : o < 4096) (c : Ctl) : c.pack o < 2 ^ 32 := by
  have hga := c.ga.code_lt
  have hgb := c.gb.code_lt
  have hgm := c.gm.code_lt
  have hsh := c.sh.code_lt
  have hch := c.ch.isLt
  unfold Ctl.pack
  omega

theorem Ctl.read_pack {o r : Nat} (ho : o < 4096) (c : Ctl) : Ctl.read (c.pack o + r * 2 ^ 32) = some c := by
  have hga := c.ga.code_lt
  have hgb := c.gb.code_lt
  have hgm := c.gm.code_lt
  have hsh := c.sh.code_lt
  have hch := c.ch.isLt
  have field {lo n x : Nat} (h : (c.pack o + r * 2 ^ 32) / 2 ^ lo % 2 ^ n = x) : bitsAt (c.pack o + r * 2 ^ 32) lo n = x := h
  unfold Ctl.read
  rw [field (lo := 12) (x := c.la.val) (by unfold Ctl.pack; omega), field (lo := 16) (x := c.ga.code) (by unfold Ctl.pack; omega),
    field (lo := 20) (x := c.gb.code) (by unfold Ctl.pack; omega), field (lo := 24) (x := c.gm.code) (by unfold Ctl.pack; omega),
    field (lo := 30) (x := c.sh.code) (by unfold Ctl.pack; omega), field (lo := 26) (x := c.ch.toNat) (by unfold Ctl.pack; omega)]
  simp

theorem Ctl.opcode_pack (o r : Nat) (c : Ctl) : (c.pack o + r * 2 ^ 32) % 4096 = o % 4096 := by
  unfold Ctl.pack
  omega

/-! ### Formats built from operands -/

@[simp] theorem RF.rd_eq (f : RF) (d : Reg) : f.rd d = { f with d := d.num, kd := d.kind } := rfl
@[simp] theorem RF.vd_eq (f : RF) (d : VReg) : f.vd d = { f with d := d.val } := rfl
@[simp] theorem RF.qd_eq (f : RF) (q : PDst) : f.qd q = { f with d := q.val } := rfl
@[simp] theorem RF.sa_eq (f : RF) (a : Src) : f.sa a = { f with a := a.num, ka := a.kind } := rfl
@[simp] theorem RF.sb_eq (f : RF) (b : Src) : f.sb b = { f with b := b.num, kb := b.kind } := rfl
@[simp] theorem RF.sc_eq (f : RF) (c : Src) : f.sc c = { f with c := c.num, kc := c.kind } := rfl
@[simp] theorem RF.se_eq (f : RF) (e : Src) : f.se e = { f with e := e.num, ke := e.kind } := rfl
@[simp] theorem RF.ra_eq (f : RF) (a : Reg) : f.ra a = { f with a := a.num, ka := a.kind } := rfl
@[simp] theorem RF.rb_eq (f : RF) (b : Reg) : f.rb b = { f with b := b.num, kb := b.kind } := rfl
@[simp] theorem RF.pc_eq (f : RF) (p : PSrc) : f.pc p = { f with c := p.code } := rfl
@[simp] theorem IF.rd_eq (f : IF) (d : Reg) : f.rd d = { f with d := d.num, kd := d.kind } := rfl
@[simp] theorem IF.sa_eq (f : IF) (a : Src) : f.sa a = { f with a := a.num, ka := a.kind } := rfl
@[simp] theorem IF.sb_eq (f : IF) (b : Src) : f.sb b = { f with b := b.num, kb := b.kind } := rfl
@[simp] theorem IF.ra_eq (f : IF) (a : Reg) : f.ra a = { f with a := a.num, ka := a.kind } := rfl
@[simp] theorem MF.rd_eq (f : MF) (d : Reg) : f.rd d = { f with d := d.num, kd := d.kind } := rfl
@[simp] theorem MF.sb_eq (f : MF) (b : Src) : f.sb b = { f with b := b.num, kb := b.kind } := rfl
@[simp] theorem MF.rb_eq (f : MF) (b : Reg) : f.rb b = { f with b := b.num, kb := b.kind } := rfl
@[simp] theorem MF.ob_eq (f : MF) (o : ObjSel) : f.ob o = { f with objr := o.objr, obj := o.num } := rfl
@[simp] theorem MF.mem_eq (f : MF) (m : MemOp) :
    f.mem m = { f with objr := m.obj.objr, obj := m.obj.num, a := m.a.num, ka := m.a.kind, off := m.off.toNat,
                       opm := f.opm + m.am.code * 2 ^ 4 } := rfl
@[simp] theorem MF.mem0_eq (f : MF) (m : MemOp0) :
    f.mem0 m = { f with objr := m.obj.objr, obj := m.obj.num, a := m.a.num, ka := m.a.kind, off := m.off.toNat } := rfl
@[simp] theorem MF.obj0_eq (f : MF) (o : ObjSel) : f.obj0 o = { f with objr := o.objr, obj := o.num, ka := 2 } := rfl
@[simp] theorem da_eq (o : Nat) (d : Reg) (a : Src) :
    da o d a = { opm := o, d := d.num, kd := d.kind, a := a.num, ka := a.kind } := rfl
@[simp] theorem dab_eq (o : Nat) (d : Reg) (a b : Src) :
    dab o d a b = { opm := o, d := d.num, kd := d.kind, a := a.num, ka := a.kind, b := b.num, kb := b.kind } := rfl
@[simp] theorem dabc_eq (o : Nat) (d : Reg) (a b e : Src) :
    dabc o d a b e = { opm := o, d := d.num, kd := d.kind, a := a.num, ka := a.kind, b := b.num, kb := b.kind, c := e.num,
                       kc := e.kind } := rfl

/-! ### Decoding what was packed -/

/-- The decoder of a class. -/
def decClass (k idx : Nat) (c : Ctl) (w : Nat) : Option Instr :=
  match k with
  | 0x0 => decC0 idx c w
  | 0x1 => decC1 idx c w
  | 0x2 => decC2 idx c w
  | 0x3 => decC3 idx c w
  | 0x4 => decC4 idx c w
  | 0x5 => decC5 idx c w
  | 0x6 => decC6 idx c w
  | 0x7 => decC7 idx c w
  | 0x8 => decC8 idx c w
  | 0x9 => decC9 idx c w
  | 0xA => decCA idx c w
  | 0xB => decCB idx c w
  | 0xC => decCC idx c w
  | 0xD => decCD idx c w
  | 0xE => decCE idx c w
  | _ => none

theorem decFields_eq {w : Nat} {c : Ctl} (h : Ctl.read w = some c) :
    decFields w = decClass (w % 4096 / 256) (w % 4096 % 256) c w := by
  have hk : bitsAt w 8 4 = w % 4096 / 256 := by unfold bitsAt; omega
  have hi : bitsAt w 0 8 = w % 4096 % 256 := by unfold bitsAt; omega
  rw [← hk, ← hi, decFields, h]
  rfl

theorem opcAssigned_lt {o : Nat} (h : opcAssigned o = true) : o < 4096 := by
  simp only [opcAssigned, Bool.or_eq_true, Bool.and_eq_true, decide_eq_true_eq, beq_iff_eq] at h
  omega

/-- The opcode of the word of an instruction is assigned, and its fields say that instruction. -/
def ReadsBack (i : Instr) : Prop := opcAssigned ((encode i).toNat % 4096) = true ∧ decFields (encode i).toNat = some i

namespace ReadsBack

variable {o : Nat} {c : Ctl} {i : Instr}

theorem of_pack {r : Nat} (ho : opcAssigned o = true) (hw : (encode i).toNat = c.pack o + r * 2 ^ 32)
    (hd : decClass (o / 256) (o % 256) c (encode i).toNat = some i) : ReadsBack i := by
  have hlt := opcAssigned_lt ho
  have hop : (encode i).toNat % 4096 = o := by rw [hw, Ctl.opcode_pack, Nat.mod_eq_of_lt hlt]
  have hc : Ctl.read (encode i).toNat = some c := by rw [hw, Ctl.read_pack hlt]
  exact ⟨hop ▸ ho, by rw [decFields_eq hc, hop, hd]⟩

theorem of_encR {f : RF} (he : encode i = encR o c f) (ho : opcAssigned o = true) (hf : f.Fits)
    (hd : ∀ w, RF.read w = f → decClass (o / 256) (o % 256) c w = some i) : ReadsBack i :=
  have hh := c.pack_lt (opcAssigned_lt ho)
  have hw : (encode i).toNat = _ := he ▸ RF.toNat_pack hh hf
  of_pack ho hw (hd _ (hw ▸ RF.read_body hh hf))
theorem of_encI {f : IF} (he : encode i = encI o c f) (ho : opcAssigned o = true) (hf : f.Fits)
    (hd : ∀ w, IF.read w = f → decClass (o / 256) (o % 256) c w = some i) : ReadsBack i :=
  have hh := c.pack_lt (opcAssigned_lt ho)
  have hw : (encode i).toNat = _ := he ▸ IF.toNat_pack hh hf
  of_pack ho hw (hd _ (hw ▸ IF.read_body hh hf))
theorem of_encW {f : WF} (he : encode i = encW o c f) (ho : opcAssigned o = true) (hf : f.Fits)
    (hd : ∀ w, WF.read w = f → decClass (o / 256) (o % 256) c w = some i) : ReadsBack i :=
  have hh := c.pack_lt (opcAssigned_lt ho)
  have hw : (encode i).toNat = _ := he ▸ WF.toNat_pack hh hf
  of_pack ho hw (hd _ (hw ▸ WF.read_body hh hf))
theorem of_encM {f : MF} (he : encode i = encM o c f) (ho : opcAssigned o = true) (hf : f.Fits)
    (hd : ∀ w, MF.read w = f → decClass (o / 256) (o % 256) c w = some i) : ReadsBack i :=
  have hh := c.pack_lt (opcAssigned_lt ho)
  have hw : (encode i).toNat = _ := he ▸ MF.toNat_pack hh hf
  of_pack ho hw (hd _ (hw ▸ MF.read_body hh hf))

end ReadsBack

end Sys2Proof
end

section
/-! PROOFS. The instruction word: decoding reads back every encoding (R61 to R72). -/

namespace Sys2Proof

set_option Elab.async false  -- theorem after theorem: every thread of a compile takes a stack of its own

theorem RF.fits_da {o : Nat} (h : o < 2 ^ 36) (d : Reg) (a : Src) : (da o d a).Fits := by
  simp only [RF.Fits, da_eq]
  exact ⟨d.num_lt, a.num_lt, by decide, by decide, by decide, a.kind_lt, by decide, by decide, by decide, d.kind_lt, h⟩
theorem RF.fits_dab {o : Nat} (h : o < 2 ^ 36) (d : Reg) (a b : Src) : (dab o d a b).Fits := by
  simp only [RF.Fits, dab_eq]
  exact ⟨d.num_lt, a.num_lt, b.num_lt, by decide, by decide, a.kind_lt, b.kind_lt, by decide, by decide, d.kind_lt, h⟩
theorem RF.fits_dabc {o : Nat} (h : o < 2 ^ 36) (d : Reg) (a b e : Src) : (dabc o d a b e).Fits := by
  simp only [RF.Fits, dabc_eq]
  exact ⟨d.num_lt, a.num_lt, b.num_lt, e.num_lt, by decide, a.kind_lt, b.kind_lt, e.kind_lt, by decide, d.kind_lt, h⟩
theorem ftrm_lt (f : Bool) (rm : Rnd) : ftrm f rm < 2 ^ 5 := by
  have hf := f.toNat_lt
  have hr := rm.code_lt
  unfold ftrm
  omega
@[simp] theorem ftrm_ft (f : Bool) (rm : Rnd) : flag (ftrm f rm) 0 = f := by cases f <;> cases rm <;> rfl
@[simp] theorem ftrm_rm (f : Bool) (rm : Rnd) : Rnd.read (bitsAt (ftrm f rm) 2 3) = some rm := by
  cases f <;> cases rm <;> rfl

namespace ReadsBack

/-! ### Forms with several modifiers, or with more than one layout

The codes of the modifiers are below the widths of their fields in OPM, so the fields of the form fit, and each modifier is read from the
bits it was put in. -/

section
variable (c : Ctl) (m : IMod) (d r : Reg) (v : VReg) (k : KReg) (a b e x : Src) (oa : Option Src) (q qe : PDst) (oq : Option PDst)
  (p pa pb : PSrc) (imm : Word) (imm64 : DWord) (mem : MemOp) (mem0 : MemOp0) (obj : ObjSel)
  (w64 ft sat ua ub wrap right un f4x nosp same excl l2 noret store sh scl wait disc : Bool) (rm : Rnd) (cond : ICond) (fcond : FCond)
  (bop : Bop) (iw : Wd) (lut : BitVec 8) (cmask : BitVec 9) (df sf fmt : BitVec 4) (mode : XMode) (seg : Fin 6) (redop : RedOp)
  (redty : RedTy) (ldsz : LdSz) (stsz : StSz) (ldksz : LdkSz) (clop : ClineOp) (aop : AtomOp) (fop : AtomFOp) (bkop : BankOp)
  (bkty : BankTy) (sc : Scope) (ord : Order) (dst : CopyDst) (ford : FenceOrd) (cmp : WCmp) (buf : Fin 2) (rank : Fin 8)
  (size : Fin 16) (ctag : Fin 64) (gs : Fin 8) (dlsel : DlSel) (first : BitVec 10) (count : Fin 64) (act : TrapAct)

/-! ### Class 0x0 (R81) -/

theorem icmp : ReadsBack (.icmp c m cond bop q a b p) := by
  have hm := m.code_lt
  have hc := cond.code_lt
  have hb := bop.code_lt
  have hp := p.code_lt
  exact of_encR rfl rfl (by simp [RF.Fits]; omega) fun w hw => by simp (disch := omega) [decClass, decC0, hw]
theorem isel : ReadsBack (.isel c m d a b p) := by
  have hm := m.code_lt
  have hp := p.code_lt
  exact of_encR rfl rfl (by simp [RF.Fits]; omega) fun w hw => by simp [decClass, decC0, hw]
theorem icmpi : ReadsBack (.icmpi c m cond bop q a imm p) := by
  have hm := m.code_lt
  have hc := cond.code_lt
  have hb := bop.code_lt
  have hp := p.code_lt
  exact of_encI rfl rfl (by simp [IF.Fits]; omega) fun w hw => by simp (disch := omega) [decClass, decC0, hw]
theorem idot4 : ReadsBack (.idot4 c sat ua ub d a b e) := by
  have hs := sat.toNat_lt
  have ha := ua.toNat_lt
  have hb := ub.toNat_lt
  exact of_encR rfl rfl (RF.fits_dabc (by omega) ..) fun w hw => by simp (disch := omega) [decClass, decC0, hw]
theorem idot2 : ReadsBack (.idot2 c sat ua ub d a b e) := by
  have hs := sat.toNat_lt
  have ha := ua.toNat_lt
  have hb := ub.toNat_lt
  exact of_encR rfl rfl (RF.fits_dabc (by omega) ..) fun w hw => by simp (disch := omega) [decClass, decC0, hw]

/-! ### Class 0x1 (R90) -/

theorem ltab : ReadsBack (.ltab c w64 lut d a b e) := by
  have hn := w64.toNat_lt
  exact of_encR rfl rfl (RF.fits_dabc (by omega) ..) fun w hw => by simp (disch := omega) [decClass, decC1, hw]
theorem fshf : ReadsBack (.fshf c w64 wrap right d a b e) := by
  have hn := w64.toNat_lt
  have hx := wrap.toNat_lt
  have hr := right.toNat_lt
  exact of_encR rfl rfl (RF.fits_dabc (by omega) ..) fun w hw => by simp (disch := omega) [decClass, decC1, hw]
theorem bfx : ReadsBack (.bfx c w64 un d a b e) := by
  have hn := w64.toNat_lt
  have hu := un.toNat_lt
  exact of_encR rfl rfl (RF.fits_dabc (by omega) ..) fun w hw => by simp (disch := omega) [decClass, decC1, hw]
theorem bfi : ReadsBack (.bfi c w64 d a b e x) := by
  have hn := w64.toNat_lt
  exact of_encR rfl rfl (by simp [RF.Fits]; omega) fun w hw => by simp (disch := omega) [decClass, decC1, hw]
theorem ltabi : ReadsBack (.ltabi c lut d a b imm) :=
  of_encI rfl rfl (by simp [IF.Fits]; omega) fun w hw => by simp (disch := omega) [decClass, decC1, hw]
theorem ptab : ReadsBack (.ptab c lut q pa pb p) := by
  have ha := pa.code_lt
  have hb := pb.code_lt
  have hp := p.code_lt
  exact of_encR rfl rfl (by simp [RF.Fits]; omega) fun w hw => by simp (disch := omega) [decClass, decC1, hw]
theorem pmov (form : PmovForm) : ReadsBack (.pmov c form) := by
  cases form with
  | toReg d => exact of_encR rfl rfl (by simp [RF.Fits]) fun w hw => by simp [decClass, decC1, hw]
  | toPred mask a =>
    have hform : flag 16 4 = true := rfl
    exact of_encR rfl rfl (by simp [RF.Fits]; omega) fun w hw => by simp (disch := omega) [decClass, decC1, hw, hform]

/-! ### Class 0x2 (R102) -/

theorem fcmp : ReadsBack (.fcmp c ft fcond bop q a b p) := by
  have hf := ft.toNat_lt
  have hc := fcond.code_lt
  have hb := bop.code_lt
  have hp := p.code_lt
  exact of_encR rfl rfl (by simp [RF.Fits]; omega) fun w hw => by simp (disch := omega) [decClass, decC2, hw]
theorem fclass : ReadsBack (.fclass c ft cmask q a) := by
  have hf := ft.toNat_lt
  exact of_encR rfl rfl (by simp [RF.Fits]; omega) fun w hw => by simp (disch := omega) [decClass, decC2, hw]

/-! ### Class 0x3 (R108 to R120) -/

theorem hcmp2 : ReadsBack (.hcmp2 c ft fcond bop q qe a b p) := by
  have hf := ft.toNat_lt
  have hc := fcond.code_lt
  have hb := bop.code_lt
  have hp := p.code_lt
  exact of_encR rfl rfl (by simp [RF.Fits]; omega) fun w hw => by simp (disch := omega) [decClass, decC3, hw]
theorem cvt : ReadsBack (.cvt c df sf rm sat d a) := by
  have hr := rm.code_lt
  have hs := sat.toNat_lt
  exact of_encR rfl rfl (RF.fits_da (by omega) ..) fun w hw => by simp (disch := omega) [decClass, decC3, hw]
theorem cvtpk : ReadsBack (.cvtpk c df sf rm sat d a b e x) := by
  have hr := rm.code_lt
  have hs := sat.toNat_lt
  exact of_encR rfl rfl (by simp [RF.Fits]; omega) fun w hw => by simp (disch := omega) [decClass, decC3, hw]
theorem f2i : ReadsBack (.f2i c sf iw un rm sat d a) := by
  have hr := rm.code_lt
  have hs := sat.toNat_lt
  have hi := iw.code_lt
  have hu := un.toNat_lt
  exact of_encR rfl rfl (RF.fits_da (by omega) ..) fun w hw => by simp (disch := omega) [decClass, decC3, hw]
theorem i2f : ReadsBack (.i2f c df iw un rm sat d a) := by
  have hr := rm.code_lt
  have hs := sat.toNat_lt
  have hi := iw.code_lt
  have hu := un.toNat_lt
  exact of_encR rfl rfl (RF.fits_da (by omega) ..) fun w hw => by simp (disch := omega) [decClass, decC3, hw]
theorem qblk : ReadsBack (.qblk c f4x nosp rm d a) := by
  have hr := rm.code_lt
  have hn := nosp.toNat_lt
  have hx : (if f4x then 8 else 5) < 16 := by cases f4x <;> decide
  refine of_encR rfl rfl (RF.fits_da (by omega) ..) fun w hw => ?_
  generalize hy : (if f4x = true then 8 else 5) = y at hw hx
  have hf : BitVec.ofNat 4 y = 8#4 ↔ f4x = true := by cases f4x <;> subst hy <;> decide
  cases f4x <;> simp (disch := omega) [decClass, decC3, hw, hf]
theorem dqblk : ReadsBack (.dqblk c f4x rm d a) := by
  have hr := rm.code_lt
  have hx : (if f4x then 8 else 5) < 16 := by cases f4x <;> decide
  refine of_encR rfl rfl (RF.fits_da (by omega) ..) fun w hw => ?_
  generalize hy : (if f4x = true then 8 else 5) = y at hw hx
  have hf : BitVec.ofNat 4 y = 8#4 ↔ f4x = true := by cases f4x <;> subst hy <;> decide
  cases f4x <;> simp (disch := omega) [decClass, decC3, hw, hf]

/-! ### Class 0x5 (R139) -/

theorem lxch : ReadsBack (.lxch c w64 mode seg oq d a b e) := by
  have hn := w64.toNat_lt
  have hm := mode.code_lt
  have hv := oq.isSome.toNat_lt
  have hq := optPNum_lt oq
  exact of_encR rfl rfl (by simp [RF.Fits]; omega) fun w hw => by simp (disch := omega) [decClass, decC5, hw]
theorem lpoll (form : PollForm) : ReadsBack (.lpoll c form p a) := by
  have hp := p.code_lt
  cases form with
  | any q => exact of_encR rfl rfl (by simp [RF.Fits]; omega) fun w hw => by simp [decClass, decC5, hw]
  | all q => exact of_encR rfl rfl (by simp [RF.Fits]; omega) fun w hw => by simp [decClass, decC5, hw, bitsAt]
  | uni q => exact of_encR rfl rfl (by simp [RF.Fits]; omega) fun w hw => by simp [decClass, decC5, hw, bitsAt]
  | mask d => exact of_encR rfl rfl (by simp [RF.Fits]; omega) fun w hw => by simp [decClass, decC5, hw, bitsAt]
  | count d => exact of_encR rfl rfl (by simp [RF.Fits]; omega) fun w hw => by simp [decClass, decC5, hw, bitsAt]
theorem lpeer : ReadsBack (.lpeer c w64 same d a b) := by
  have hn := w64.toNat_lt
  have hs := same.toNat_lt
  exact of_encR rfl rfl (by simp [RF.Fits]; omega) fun w hw => by simp (disch := omega) [decClass, decC5, hw]
theorem lred : ReadsBack (.lred c redop redty d a b) := by
  have ho := redop.code_lt
  have ht := redty.code_lt
  exact of_encR rfl rfl (by simp [RF.Fits]; omega) fun w hw => by simp (disch := omega) [decClass, decC5, hw]
theorem lscan : ReadsBack (.lscan c redop redty excl d a b) := by
  have ho := redop.code_lt
  have ht := redty.code_lt
  have he := excl.toNat_lt
  exact of_encR rfl rfl (by simp [RF.Fits]; omega) fun w hw => by simp (disch := omega) [decClass, decC5, hw]

/-! ### Class 0x7 (R161) -/

theorem ld : ReadsBack (.ld c ldsz v mem) := by
  have hs := ldsz.code_lt
  have hm := mem.am.code_lt
  exact of_encM rfl rfl (by simp [MF.Fits]; omega) fun w hw => by simp (disch := omega) [decClass, decC7, MF.rmem, hw]
theorem st : ReadsBack (.st c stsz mem b) := by
  have hs := stsz.code_lt
  have hm := mem.am.code_lt
  exact of_encM rfl rfl (by simp [MF.Fits]; omega) fun w hw => by simp (disch := omega) [decClass, decC7, MF.rmem, hw]
theorem ldk : ReadsBack (.ldk c ldksz k mem) := by
  have hs := ldksz.code_lt
  have hm := mem.am.code_lt
  exact of_encM rfl rfl (by simp [MF.Fits]; omega) fun w hw => by simp (disch := omega) [decClass, decC7, MF.rmem, hw]
theorem prf : ReadsBack (.prf c l2 mem) := by
  have hl := l2.toNat_lt
  have hm := mem.am.code_lt
  exact of_encM rfl rfl (by simp [MF.Fits]; omega) fun w hw => by simp (disch := omega) [decClass, decC7, MF.rmem, hw]
theorem cline : ReadsBack (.cline c clop mem) := by
  have ho := clop.code_lt
  have hm := mem.am.code_lt
  exact of_encM rfl rfl (by simp [MF.Fits]; omega) fun w hw => by simp (disch := omega) [decClass, decC7, MF.rmem, hw]

/-! ### Class 0x8 (R171, R176, R177) -/

theorem atom : ReadsBack (.atom c aop w64 sc ord d mem0 b) := by
  have ho := aop.code_lt
  have hn := w64.toNat_lt
  have hs := sc.code_lt
  have hd := ord.code_lt
  exact of_encM rfl rfl (by simp [MF.Fits]; omega) fun w hw => by simp (disch := omega) [decClass, decC8, MF.rmem0, hw]
theorem red : ReadsBack (.red c aop w64 sc ord mem0 b) := by
  have ho := aop.code_lt
  have hn := w64.toNat_lt
  have hs := sc.code_lt
  have hd := ord.code_lt
  exact of_encM rfl rfl (by simp [MF.Fits]; omega) fun w hw => by simp (disch := omega) [decClass, decC8, MF.rmem0, hw]
theorem atomcas : ReadsBack (.atomcas c w64 sc ord d mem0 r) := by
  have hn := w64.toNat_lt
  have hs := sc.code_lt
  have hd := ord.code_lt
  exact of_encM rfl rfl (by simp [MF.Fits]; omega) fun w hw => by simp (disch := omega) [decClass, decC8, MF.rmem0, hw]
theorem atomf : ReadsBack (.atomf c fop noret sc ord d mem0 b) := by
  have ho := fop.code_lt
  have hn := noret.toNat_lt
  have hs := sc.code_lt
  have hd := ord.code_lt
  exact of_encM rfl rfl (by simp [MF.Fits]; omega) fun w hw => by simp (disch := omega) [decClass, decC8, MF.rmem0, hw]
theorem bankop : ReadsBack (.bankop c bkop bkty sc ord mem0 r) := by
  have ho := bkop.code_lt
  have ht := bkty.code_lt
  have hs := sc.code_lt
  have hd := ord.code_lt
  exact of_encM rfl rfl (by simp [MF.Fits]; omega) fun w hw => by simp (disch := omega) [decClass, decC8, MF.rmem0, hw]
theorem bankred : ReadsBack (.bankred c bkop bkty sc ord d mem0 b) := by
  have ho := bkop.code_lt
  have ht := bkty.code_lt
  have hs := sc.code_lt
  have hd := ord.code_lt
  exact of_encM rfl rfl (by simp [MF.Fits]; omega) fun w hw => by simp (disch := omega) [decClass, decC8, MF.rmem0, hw]

/-! ### Class 0x9 (R223, R232) -/

theorem cpyt : ReadsBack (.cpyt c dst store mem0 r) := by
  have hd := dst.bo1_lt
  have hs := store.toNat_lt
  exact of_encM rfl rfl (by simp [MF.Fits]; omega) fun w hw => by simp (disch := omega) [decClass, decC9, MF.rmem0, hw]

/-! ### Class 0xA (R215, R262, R268) -/

theorem boarrive (tx : Bool) (ret : Option Reg) : ReadsBack (.boarrive c tx sc ret r imm b) := by
  have ht := tx.toNat_lt
  have hs := sc.code_lt
  cases ret with
  | none => exact of_encI rfl rfl (by simp [IF.Fits]; omega) fun w hw => by simp (disch := omega) [decClass, decCA, hw]
  | some d =>
    have htx : flag (tx.toNat + 2) 0 = tx := by cases tx <;> rfl
    have hret : flag (tx.toNat + 2) 1 = true := by cases tx <;> rfl
    exact of_encI rfl rfl (by simp [IF.Fits]; omega) fun w hw => by simp (disch := omega) [decClass, decCA, hw, htx, hret]
theorem acq : ReadsBack (.acq c sh oq obj) := by
  have hs := sh.toNat_lt
  have hv := oq.isSome.toNat_lt
  have hq := optPNum_lt oq
  exact of_encM rfl rfl (by simp [MF.Fits]; omega) fun w hw => by simp (disch := omega) [decClass, decCA, hw]
theorem fence : ReadsBack (.fence c ford sc) := by
  have ho := ford.code_lt
  have hs := sc.code_lt
  exact of_encR rfl rfl (by simp [RF.Fits]; omega) fun w hw => by simp (disch := omega) [decClass, decCA, hw]

/-! ### Class 0xB (R189 to R208) -/

theorem wload : ReadsBack (.wload c fmt cmp scl buf mem0 r) := by
  have hc := cmp.code_lt
  have hs := scl.toNat_lt
  exact of_encM rfl rfl (by simp [MF.Fits]; omega) fun w hw => by simp (disch := omega) [decClass, decCB, MF.rmem0, hw]
theorem accst : ReadsBack (.accst c fmt rm sat mem0 r) := by
  have hr := rm.code_lt
  have hs := sat.toNat_lt
  exact of_encM rfl rfl (by simp [MF.Fits]; omega) fun w hw => by simp (disch := omega) [decClass, decCB, MF.rmem0, hw]
theorem mregion (mode : RegionMode) (a : Option Reg) : ReadsBack (.mregion c mode a) := by
  have hm := mode.code_lt
  cases a with
  | none => exact of_encR rfl rfl (by simp [RF.Fits]; omega) fun w hw => by simp (disch := omega) [decClass, decCB, hw]
  | some a =>
    have hmode : bitsAt (mode.code + 4) 0 2 = mode.code := by cases mode <;> rfl
    have ha : flag (mode.code + 4) 2 = true := by cases mode <;> rfl
    exact of_encR rfl rfl (by simp [RF.Fits]; omega) fun w hw => by simp [decClass, decCB, hw, hmode, ha]
theorem mstat : ReadsBack (.mstat c v oa) := by
  have ha := oa.isNone.toNat_lt
  exact of_encR rfl rfl (by simp [RF.Fits]; omega) fun w hw => by simp (disch := omega) [decClass, decCB, hw]
theorem mcancel : ReadsBack (.mcancel c oa) := by
  have ha := oa.isNone.toNat_lt
  exact of_encR rfl rfl (by simp [RF.Fits]; omega) fun w hw => by simp (disch := omega) [decClass, decCB, hw]

/-! ### Classes 0xC to 0xE -/

theorem wsend : ReadsBack (.wsend c r b rank size ctag) :=
  of_encI rfl rfl (by simp [IF.Fits]; omega) fun w hw => by simp (disch := omega) [decClass, decCC, hw]
theorem emit : ReadsBack (.emit c oq obj r) := by
  have hv := oq.isSome.toNat_lt
  have hq := optPNum_lt oq
  exact of_encM rfl rfl (by simp [MF.Fits]; omega) fun w hw => by simp (disch := omega) [decClass, decCD, hw]
theorem spawn : ReadsBack (.spawn c wait gs v r imm64) := by
  have hx := wait.toNat_lt
  exact of_encW rfl rfl (by simp [WF.Fits]; omega) fun w hw => by simp (disch := omega) [decClass, decCD, hw]
theorem lastsel (obj : Option ObjSel) : ReadsBack (.lastsel c d q obj) := by
  cases obj with
  | none =>
    have hlit : flag 1 0 = true := rfl
    exact of_encM rfl rfl (by simp [MF.Fits]; omega) fun w hw => by simp [decClass, decCD, hw, hlit]
  | some o => exact of_encM rfl rfl (by simp [MF.Fits]; omega) fun w hw => by simp [decClass, decCD, hw]
theorem dlread : ReadsBack (.dlread c dlsel oq d) := by
  have hs := dlsel.code_lt
  have hv := oq.isSome.toNat_lt
  have hq := optPNum_lt oq
  exact of_encR rfl rfl (by simp [RF.Fits]; omega) fun w hw => by simp (disch := omega) [decClass, decCD, hw]
theorem idembeg : ReadsBack (.idembeg c first count) :=
  of_encI rfl rfl (by simp [IF.Fits]; omega) fun w hw => by simp (disch := omega) [decClass, decCD, hw]
theorem trapret : ReadsBack (.trapret c act disc r d a) := by
  have ha := act.code_lt
  have hd := disc.toNat_lt
  exact of_encR rfl rfl (by simp [RF.Fits]; omega) fun w hw => by simp (disch := omega) [decClass, decCE, hw]

end

/-- Every instruction that is a word is read back, whatever its operands: the forms above by their own lemmas, the others here. -/
theorem of_isSome_ctlOf {i : Instr} (h : (Machine.ctlOf i).isSome = true) : ReadsBack i := by
  cases i with
  | iadd c m | isub c m | imul c m | imulhi c m | idiv c m | irem c m | imin c m | imax c m =>
    have hm := m.code_lt
    exact .of_encR rfl rfl (RF.fits_dab (by omega) ..) fun w hw => by simp [decClass, decC0, hw]
  | iadd3 c m | imad c m | imadw c m | isad c m =>
    have hm := m.code_lt
    exact .of_encR rfl rfl (RF.fits_dabc (by omega) ..) fun w hw => by simp [decClass, decC0, hw]
  | iabs c m | ineg c m | mov c m =>
    have hm := m.code_lt
    exact .of_encR rfl rfl (RF.fits_da (by omega) ..) fun w hw => by simp [decClass, decC0, hw]
  | iaddi c m | imuli c m | movi c m =>
    have hm := m.code_lt
    exact .of_encI rfl rfl (by simp [IF.Fits]; omega) fun w hw => by simp [decClass, decC0, hw]
  | lea c m =>
    have hm := m.code_lt
    exact .of_encR rfl rfl (RF.fits_dab (by omega) ..) fun w hw => by simp (disch := omega) [decClass, decC0, hw]
  | movw =>
    exact .of_encW rfl rfl (by simp [WF.Fits]; omega) fun w hw => by simp [decClass, decC0, hw]
  | and c n | or c n | xor c n | andn c n | rotl c n | clmul c n | clmulh c n =>
    have hn := n.toNat_lt
    exact .of_encR rfl rfl (RF.fits_dab (by omega) ..) fun w hw => by simp (disch := omega) [decClass, decC1, hw]
  | shl c n wrap | shr c n wrap | sar c n wrap =>
    have hn := n.toNat_lt
    have hx := wrap.toNat_lt
    exact .of_encR rfl rfl (RF.fits_dab (by omega) ..) fun w hw => by simp (disch := omega) [decClass, decC1, hw]
  | not c n | popc c n | clz c n | ctz c n | brev c n =>
    have hn := n.toNat_lt
    exact .of_encR rfl rfl (RF.fits_da (by omega) ..) fun w hw => by simp (disch := omega) [decClass, decC1, hw]
  | bperm =>
    exact .of_encR rfl rfl (RF.fits_dabc (by omega) ..) fun w hw => by simp [decClass, decC1, hw]
  | fadd | fsub | fmul =>
    exact .of_encR rfl rfl (RF.fits_dab ((ftrm_lt ..).trans (by decide)) ..) fun w hw => by simp [decClass, decC2, hw]
  | ffma =>
    exact .of_encR rfl rfl (RF.fits_dabc ((ftrm_lt ..).trans (by decide)) ..) fun w hw => by simp [decClass, decC2, hw]
  | faddi c ft rm | fmuli c ft rm | ffmai c ft rm =>
    have hf := ftrm_lt ft rm
    exact .of_encI rfl rfl (by simp [IF.Fits]; omega) fun w hw => by simp [decClass, decC2, hw]
  | fmin c ft | fmax c ft =>
    have hf := ft.toNat_lt
    exact .of_encR rfl rfl (RF.fits_dab (by omega) ..) fun w hw => by simp (disch := omega) [decClass, decC2, hw]
  | hadd2 | hmul2 | scalex =>
    exact .of_encR rfl rfl (RF.fits_dab ((ftrm_lt ..).trans (by decide)) ..) fun w hw => by simp [decClass, decC3, hw]
  | hfma2 | fdot2 =>
    exact .of_encR rfl rfl (RF.fits_dabc ((ftrm_lt ..).trans (by decide)) ..) fun w hw => by simp [decClass, decC3, hw]
  | frnd =>
    exact .of_encR rfl rfl (RF.fits_da ((ftrm_lt ..).trans (by decide)) ..) fun w hw => by simp [decClass, decC3, hw]
  | hmin2 c ft | hmax2 c ft =>
    have hf := ft.toNat_lt
    exact .of_encR rfl rfl (RF.fits_dab (by omega) ..) fun w hw => by simp (disch := omega) [decClass, decC3, hw]
  | rcp | rsq | ex2 | lg2 | sin | cos | tanh | sigm =>
    exact .of_encR rfl rfl (RF.fits_da (by omega) ..) fun w hw => by simp [decClass, decC4, hw]
  | sqrt =>
    exact .of_encR rfl rfl (RF.fits_da ((ftrm_lt ..).trans (by decide)) ..) fun w hw => by simp [decClass, decC4, hw]
  | fdiv =>
    exact .of_encR rfl rfl (RF.fits_dab ((ftrm_lt ..).trans (by decide)) ..) fun w hw => by simp [decClass, decC4, hw]
  | llead c hi =>
    have hh := hi.toNat_lt
    exact .of_encR rfl rfl (by simp [RF.Fits]; omega) fun w hw => by simp (disch := omega) [decClass, decC5, hw]
  | lbcast c n =>
    have hn := n.toNat_lt
    exact .of_encR rfl rfl (RF.fits_dabc (by omega) ..) fun w hw => by simp (disch := omega) [decClass, decC5, hw]
  | bra | call | joinset | ipf =>
    exact .of_encW rfl rfl (by simp [WF.Fits]; omega) fun w hw => by simp [decClass, decC6, hw]
  | brx c rel | callx c rel =>
    have hr := rel.toNat_lt
    exact .of_encR rfl rfl (by simp [RF.Fits]; omega) fun w hw => by simp (disch := omega) [decClass, decC6, hw]
  | ret | exit | yield | nop =>
    exact .of_encR rfl rfl (by simp [RF.Fits]) fun w hw => by simp [decClass, decC6, hw]
  | joinwait | joindrop =>
    exact .of_encR rfl rfl (by simp [RF.Fits]; omega) fun w hw => by simp [decClass, decC6, hw]
  | sleep =>
    exact .of_encI rfl rfl (by simp [IF.Fits]; omega) fun w hw => by simp [decClass, decC6, hw]
  | ldg c sz | stg c sz | lds c sz | sts c sz =>
    have hs := sz.code_lt
    exact .of_encI rfl rfl (by simp [IF.Fits]; omega) fun w hw => by simp (disch := omega) [decClass, decC7, hw]
  | otsync => exact .of_encR rfl rfl (by simp [RF.Fits]) fun w _ => by simp [decClass, decC7]
  | objrd c hi =>
    have hh := hi.toNat_lt
    exact .of_encM rfl rfl (by simp [MF.Fits]; omega) fun w hw => by simp (disch := omega) [decClass, decC7, hw]
  | cpy c dst | cpymc c dst =>
    have hd := dst.bo1_lt
    exact .of_encM rfl rfl (by simp [MF.Fits]; omega) fun w hw => by simp (disch := omega) [decClass, decC9, MF.rmem0, hw]
  | waitany c qe | waitall c qe =>
    have hv := qe.isSome.toNat_lt
    have hq := optPNum_lt qe
    exact .of_encR rfl rfl (by simp [RF.Fits]; omega) fun w hw => by simp (disch := omega) [decClass, decC9, hw]
  | ffr | tagrd =>
    exact .of_encR rfl rfl (RF.fits_da (by omega) ..) fun w hw => by simp [decClass, decC9, hw]
  | tagclr =>
    exact .of_encR rfl rfl (by simp [RF.Fits]) fun w hw => by simp [decClass, decC9, hw]
  | bar c arv =>
    have ha := arv.toNat_lt
    exact .of_encR rfl rfl (by simp [RF.Fits]; omega) fun w hw => by simp (disch := omega) [decClass, decCA, hw]
  | boexpect c add =>
    have ha := add.toNat_lt
    exact .of_encI rfl rfl (by simp [IF.Fits]; omega) fun w hw => by simp (disch := omega) [decClass, decCA, hw]
  | bowait c sc | botest c sc =>
    have hs := sc.code_lt
    exact .of_encI rfl rfl (by simp [IF.Fits]; omega) fun w hw => by simp (disch := omega) [decClass, decCA, hw]
  | boinit =>
    exact .of_encI rfl rfl (by simp [IF.Fits]; omega) fun w hw => by simp [decClass, decCA, hw]
  | tryacq c sh =>
    have hs := sh.toNat_lt
    exact .of_encM rfl rfl (by simp [MF.Fits]; omega) fun w hw => by simp (disch := omega) [decClass, decCA, hw]
  | rel | publish =>
    exact .of_encM rfl rfl (by simp [MF.Fits]) fun w hw => by simp [decClass, decCA, hw]
  | mma =>
    exact .of_encR rfl rfl (by simp [RF.Fits]) fun w hw => by simp [decClass, decCB, hw]
  | wdrop =>
    exact .of_encR rfl rfl (by simp [RF.Fits]; omega) fun w hw => by simp [decClass, decCB, hw]
  | accld =>
    exact .of_encM rfl rfl (by simp [MF.Fits]; omega) fun w hw => by simp (disch := omega) [decClass, decCB, MF.rmem0, hw]
  | accz =>
    exact .of_encR rfl rfl (by simp [RF.Fits]) fun w hw => by simp [decClass, decCB, hw]
  | wtalloc c try_ =>
    have ht := try_.toNat_lt
    exact .of_encM rfl rfl (by simp [MF.Fits]; omega) fun w hw => by simp (disch := omega) [decClass, decCC, hw]
  | wtfree | wtquery | wtrenew =>
    exact .of_encR rfl rfl (by simp [RF.Fits]) fun w hw => by simp [decClass, decCC, hw]
  | awlnext =>
    exact .of_encR rfl rfl (by simp [RF.Fits]; omega) fun w hw => by simp [decClass, decCD, hw]
  | awlpeek | idemend | wrapdone =>
    exact .of_encR rfl rfl (by simp [RF.Fits]) fun w hw => by simp [decClass, decCD, hw]
  | emitclose =>
    exact .of_encM rfl rfl (by simp [MF.Fits]) fun w hw => by simp [decClass, decCD, hw]
  | padmask =>
    exact .of_encR rfl rfl (by simp [RF.Fits]; omega) fun w hw => by simp (disch := omega) [decClass, decCD, hw]
  | commit c part =>
    have hp := part.toNat_lt
    exact .of_encR rfl rfl (by simp [RF.Fits]; omega) fun w hw => by simp (disch := omega) [decClass, decCD, hw]
  | sysrd c n | syswr c n | cntrd c n =>
    have hn := n.toNat_lt
    exact .of_encI rfl rfl (by simp [IF.Fits]; omega) fun w hw => by simp (disch := omega) [decClass, decCE, hw]
  | trap | bkpt | cntcfg | wayset =>
    exact .of_encI rfl rfl (by simp [IF.Fits]; omega) fun w hw => by simp (disch := omega) [decClass, decCE, hw]
  | parkrd c sel =>
    have hs := sel.code_lt
    exact .of_encR rfl rfl (by simp [RF.Fits]; omega) fun w hw => by simp (disch := omega) [decClass, decCE, hw]
  | oplog | replay | errinj =>
    exact .of_encR rfl rfl (by simp [RF.Fits]) fun w hw => by simp [decClass, decCE, hw]
  | icmp => exact .icmp ..
  | isel => exact .isel ..
  | icmpi => exact .icmpi ..
  | idot4 => exact .idot4 ..
  | idot2 => exact .idot2 ..
  | ltab => exact .ltab ..
  | fshf => exact .fshf ..
  | bfx => exact .bfx ..
  | bfi => exact .bfi ..
  | ltabi => exact .ltabi ..
  | ptab => exact .ptab ..
  | pmov => exact .pmov ..
  | fcmp => exact .fcmp ..
  | fclass => exact .fclass ..
  | hcmp2 => exact .hcmp2 ..
  | cvt => exact .cvt ..
  | cvtpk => exact .cvtpk ..
  | f2i => exact .f2i ..
  | i2f => exact .i2f ..
  | qblk => exact .qblk ..
  | dqblk => exact .dqblk ..
  | lxch => exact .lxch ..
  | lpoll => exact .lpoll ..
  | lpeer => exact .lpeer ..
  | lred => exact .lred ..
  | lscan => exact .lscan ..
  | ld => exact .ld ..
  | st => exact .st ..
  | ldk => exact .ldk ..
  | prf => exact .prf ..
  | cline => exact .cline ..
  | atom => exact .atom ..
  | red => exact .red ..
  | atomcas => exact .atomcas ..
  | atomf => exact .atomf ..
  | bankop => exact .bankop ..
  | bankred => exact .bankred ..
  | cpyt => exact .cpyt ..
  | boarrive => exact .boarrive ..
  | acq => exact .acq ..
  | fence => exact .fence ..
  | wload => exact .wload ..
  | accst => exact .accst ..
  | mregion => exact .mregion ..
  | mstat => exact .mstat ..
  | mcancel => exact .mcancel ..
  | wsend => exact .wsend ..
  | emit => exact .emit ..
  | spawn => exact .spawn ..
  | lastsel => exact .lastsel ..
  | dlread => exact .dlread ..
  | idembeg => exact .idembeg ..
  | trapret => exact .trapret ..
  | _ => cases h

end ReadsBack

/-! ### What a decoded word is (R68) -/

/-- A word that decodes is of an assigned opcode and passed both checks, or it is the instruction UNASSIGNED_OPCODE. -/
theorem decodeWord_cases {w : IWord} {i : Instr} (h : decodeWord w = .ok i) :
    (i.wf = true ∧ encode i = w) ∨ (opcAssigned (w.toNat % 4096) = false ∧ i = .unassignedOpcode w) := by
  unfold decodeWord at h
  split at h
  case isTrue =>
    split at h
    · split at h
      · next hchecks =>
        obtain rfl := Except.ok.inj h
        obtain ⟨hwf, henc⟩ := Bool.and_eq_true_iff.mp hchecks
        exact .inl ⟨hwf, eq_of_beq henc⟩
      · cases h
    · cases h
  case isFalse hopcode => exact .inr ⟨Bool.eq_false_iff.mpr hopcode, (Except.ok.inj h).symm⟩

theorem wf_unassignedOpcode {w : IWord} (h : opcAssigned (w.toNat % 4096) = false) : (Instr.unassignedOpcode w).wf = true := by
  simp only [Instr.wf, BitVec.extractLsb'_toNat, Nat.shiftRight_zero]
  rw [h]
  rfl

end Sys2Proof

open Sys2Proof Sys2Proof.Machine

/-- Settles O2: every field of a packed word reads what was put in it, so the decoder finds the opcode, the operands and the modifiers
of the instruction, and its last comparison is of the encoding with itself. -/
theorem decodeReadsBackEveryEncoding : Obligations.DecodeReadsBackEveryEncoding := by
  unfold Obligations.DecodeReadsBackEveryEncoding
  intro i hwf hctl
  obtain ⟨hopcode, hfields⟩ := ReadsBack.of_isSome_ctlOf hctl
  simp [decodeWord, hopcode, hfields, hwf]

/-- Settles O1: the decoder, evaluated on each word. -/
theorem decodedSpecWords : Obligations.DecodedSpecWords := by
  unfold Obligations.DecodedSpecWords
  exact ⟨rfl, rfl, rfl, rfl, rfl, rfl, rfl, rfl, rfl, rfl, rfl, rfl, rfl, rfl⟩

/-- Settles O3: a word of an assigned opcode passed the two checks of R68 step 3, and any other decodes to itself. -/
theorem decodedWordsEncodeBack : Obligations.DecodedWordsEncodeBack := by
  unfold Obligations.DecodedWordsEncodeBack
  intro w i h
  obtain ⟨hwf, hw⟩ | ⟨hopcode, rfl⟩ := decodeWord_cases h
  · exact ⟨hwf, fun _ => hw⟩
  · exact ⟨wf_unassignedOpcode hopcode, nofun⟩

end

section
/-! PROOFS. Every instruction and event gives a next state. -/

namespace Sys2Proof.Machine

set_option Elab.async false  -- theorem after theorem: every thread of a compile takes a stack of its own

/-- The outcome is a next state. -/
def GivesNext (o : Out) : Prop := ∃ s', o = .next s'

namespace GivesNext

theorem next {s : State} : GivesNext (.next s) := ⟨s, rfl⟩

theorem ite {p : Prop} [Decidable p] {a b : Out} (ha : GivesNext a) (hb : GivesNext b) : GivesNext (if p then a else b) := by
  split
  · exact ha
  · exact hb

section
variable {s : State} {c : Ctl} {core id cluster die part launch queue tag branch va : Nat} {why : Option AccFail}

/-! ### Instructions -/

theorem of_execLead {f : State → Nat → Except Lane (State → State)} : GivesNext (execLead c f s) := by
  unfold execLead
  split
  · exact next
  · refine ite next ?_
    split
    · exact next
    · exact next

theorem of_execPmov {form : PmovForm} : GivesNext (execPmov c form s) := by cases form <;> exact next

theorem of_execSyswr {w64 : Bool} {sel : BitVec 12} {a : Src} : GivesNext (execSyswr c w64 sel a s) := by
  unfold execSyswr
  split
  · exact of_execLead
  · exact next
  · exact of_execLead
  · exact next

/-! ### Events of cores and of the walker -/

theorem of_execLoadComplete : GivesNext (execLoadComplete core id s) := by
  unfold execLoadComplete
  split
  · exact next
  · exact ite next next

theorem of_execAccessLogged {why : AccFail} : GivesNext (execAccessLogged core id why s) := by
  unfold execAccessLogged
  split
  · exact next
  · refine ite next ?_
    split
    · exact next
    · exact next

theorem of_execStorePerform : GivesNext (execStorePerform core id why s) := by
  unfold execStorePerform
  split
  · exact next
  · split
    · exact ite next next
    · refine ite next ?_
      split
      · exact next
      · exact next

theorem of_execPageWalk : GivesNext (execPageWalk core part va s) := by
  refine ite next ?_
  split
  · exact next
  · exact next

theorem of_execS2fault : GivesNext (execS2fault die s) := by
  refine ite next ?_
  split
  · exact next
  · exact next

theorem of_execSleepEnd {thread : Nat} : GivesNext (execSleepEnd thread s) := by
  unfold execSleepEnd
  split
  · exact next
  · exact next

theorem of_execYieldEnd {thread : Nat} : GivesNext (execYieldEnd thread s) := by
  unfold execYieldEnd
  split
  · exact next
  · exact next

theorem of_execSfuDivResult {bad : Bool} : GivesNext (execSfuDivResult core id bad s) := by
  unfold execSfuDivResult
  split
  · exact next
  · exact ite next (ite next next)

/-! ### Events of the matrix engine -/

theorem of_execRequestAccept : GivesNext (execRequestAccept cluster s) := by
  unfold execRequestAccept
  dsimp only
  split
  · exact next
  · exact next

theorem of_execAttemptCheck {late : List LateBit} {ecc : Bool} : GivesNext (execAttemptCheck cluster id late ecc s) := by
  unfold execAttemptCheck
  split
  · exact next
  · split
    · exact ite next next
    · exact next

theorem of_execPassComplete {ecc : Bool} : GivesNext (execPassComplete cluster id ecc s) := by
  unfold execPassComplete
  split
  · exact next
  · refine ite next ?_
    split
    · exact ite next next
    · exact next
    · exact next

theorem of_execWloadComplete : GivesNext (execWloadComplete cluster id why s) := by
  unfold execWloadComplete
  split
  · exact next
  · split
    · split
      · exact ite next next
      · split
        · exact next
        · exact next
    · exact next

theorem of_execWdropComplete : GivesNext (execWdropComplete cluster id s) := by
  unfold execWdropComplete
  split
  · exact next
  · split
    · exact next
    · exact next

theorem of_execTransferComplete : GivesNext (execTransferComplete cluster id why s) := by
  unfold execTransferComplete
  split
  · exact next
  · split
    · split
      · split
        · exact next
        · exact next
        · exact next
      · refine ite next ?_
        dsimp only
        split
        · exact next
        · exact next
        · exact next
        · exact next
    · exact next

/-! ### Events of copies, welts, sync objects and publication -/

theorem of_sendFails {cp : Copy} : GivesNext (sendFails id cp tag why s) := by
  unfold sendFails
  dsimp only
  split
  · exact next
  · split
    · exact next
    · exact next
  · exact next

theorem of_execCopyEnd : GivesNext (execCopyEnd id why s) := by
  unfold execCopyEnd
  split
  · exact next
  · dsimp only
    split
    · exact of_sendFails
    · refine ite ?_ ?_
      · split
        · exact ite next next
        · split
          · exact next
          · exact next
        · exact ite next next
        · exact next
      · split
        · exact ite next next
        · split
          · exact next
          · exact next
        · exact ite next next
        · exact next

theorem of_execCpymcBranchArrival : GivesNext (execCpymcBranchArrival id branch s) := by
  unfold execCpymcBranchArrival
  split
  · exact next
  · split
    · exact next
    · exact ite next next

theorem of_execWeltArrival : GivesNext (execWeltArrival id s) := by
  unfold execWeltArrival
  split
  · exact next
  · split
    · exact next
    · exact ite next next

theorem of_execRoundDelivery : GivesNext (execRoundDelivery id why s) := by
  unfold execRoundDelivery
  split
  · exact next
  · dsimp only
    split
    · refine ite ?_ ?_
      · split
        · exact next
        · exact next
        · exact next
      · split
        · exact next
        · exact next
    · exact ite next next
    · exact ite next (ite next next)
    · exact next

theorem of_execOrphanExpiry : GivesNext (execOrphanExpiry part tag s) := by
  unfold execOrphanExpiry
  dsimp only
  split
  · exact next
  · exact ite next next

theorem of_execSyncRequestArrival : GivesNext (execSyncRequestArrival id s) := by
  unfold execSyncRequestArrival
  split
  · exact next
  · exact ite next (ite next (ite next next))

theorem of_execSyncReleasePerform : GivesNext (execSyncReleasePerform id s) := by
  unfold execSyncReleasePerform
  split
  · exact next
  · exact ite next (ite next (ite next next))

theorem of_execVersionIncrement : GivesNext (execVersionIncrement id s) := by
  unfold execVersionIncrement
  split
  · exact next
  · refine ite next ?_
    split
    · exact next
    · exact next

theorem of_execWaysetTakesEffect : GivesNext (execWaysetTakesEffect core s) := by
  unfold execWaysetTakesEffect
  dsimp only
  split
  · exact next
  · exact ite next next

theorem of_execRecordEnqueue : GivesNext (execRecordEnqueue id s) := by
  unfold execRecordEnqueue
  split
  · exact next
  · exact ite next next

/-! ### Events of launches -/

theorem of_execDiversion : GivesNext (execDiversion die launch s) := by
  unfold execDiversion
  split
  · exact next
  · exact ite next next

theorem of_execDeadlineTermination : GivesNext (execDeadlineTermination die launch s) := by
  unfold execDeadlineTermination
  split
  · exact next
  · exact ite next next

theorem of_execQuantumEnd : GivesNext (execQuantumEnd launch s) := by
  unfold execQuantumEnd
  split
  · exact next
  · refine ite next ?_
    dsimp only
    split
    · exact next
    · exact next

theorem of_execLaunchCompletion : GivesNext (execLaunchCompletion launch s) := by
  unfold execLaunchCompletion
  split
  · exact next
  · exact ite next (ite next next)

/-! ### Events of queues -/

theorem of_execPacketFetch {capFault : Bool} : GivesNext (execPacketFetch queue why capFault s) := by
  refine ite next (ite next ?_)
  split
  · exact ite next next
  · refine ite next (ite next ?_)
    split
    · exact next
    · exact ite next (ite next next)

theorem of_execSlotPollTimeout : GivesNext (execSlotPollTimeout queue s) := by
  refine ite next ?_
  split
  · exact ite next next
  · exact next

theorem of_execTornRepoll : GivesNext (execTornRepoll queue s) := by
  refine ite next ?_
  split
  · exact ite next (ite next next)
  · exact next

theorem of_execLaunch : GivesNext (execLaunch queue why s) := by
  refine ite next ?_
  dsimp only
  split
  · exact ite next next
  · exact ite next next

theorem of_execWaitPoll : GivesNext (execWaitPoll queue why s) := by
  refine ite next (ite next ?_)
  split
  · exact next
  · exact next

theorem of_execSignal : GivesNext (execSignal queue why s) := by
  refine ite next (ite next ?_)
  dsimp only
  split
  · exact next
  · split
    · exact next
    · exact next

theorem of_execModdropComplete : GivesNext (execModdropComplete queue s) := by
  unfold execModdropComplete
  dsimp only
  split
  · exact next
  · exact ite next next

theorem of_execGraph : GivesNext (execGraph queue why s) := by
  refine ite next (ite next ?_)
  split
  · exact next
  · dsimp only
    split
    · exact next
    · exact next

/-! ### Every form -/

/-- Every form gives a next state: in each case of its definition, and most by a definition with one case. -/
theorem of_exec (i : Instr) (s : State) : GivesNext (exec i s) := by
  cases i with
  | pmov => exact of_execPmov
  | syswr => exact of_execSyswr
  | cntcfg | wayset | mregion | errinj =>
    unfold exec
    exact of_execLead
  | loadComplete => exact of_execLoadComplete
  | accessLogged => exact of_execAccessLogged
  | storePerform => exact of_execStorePerform
  | pageWalk => exact of_execPageWalk
  | s2fault => exact of_execS2fault
  | sleepEnd => exact of_execSleepEnd
  | yieldEnd => exact of_execYieldEnd
  | requestAccept => exact of_execRequestAccept
  | attemptCheck => exact of_execAttemptCheck
  | passComplete => exact of_execPassComplete
  | wloadComplete => exact of_execWloadComplete
  | wdropComplete => exact of_execWdropComplete
  | transferComplete => exact of_execTransferComplete
  | copyEnd => exact of_execCopyEnd
  | cpymcBranchArrival => exact of_execCpymcBranchArrival
  | weltArrival => exact of_execWeltArrival
  | roundDelivery => exact of_execRoundDelivery
  | orphanExpiry => exact of_execOrphanExpiry
  | syncRequestArrival => exact of_execSyncRequestArrival
  | syncReleasePerform => exact of_execSyncReleasePerform
  | versionIncrement => exact of_execVersionIncrement
  | waysetTakesEffect => exact of_execWaysetTakesEffect
  | recordEnqueue => exact of_execRecordEnqueue
  | diversion => exact of_execDiversion
  | deadlineTermination => exact of_execDeadlineTermination
  | quantumEnd => exact of_execQuantumEnd
  | launchCompletion => exact of_execLaunchCompletion
  | packetFetch => exact of_execPacketFetch
  | slotPollTimeout => exact of_execSlotPollTimeout
  | tornRepoll => exact of_execTornRepoll
  | launch => exact of_execLaunch
  | waitPoll => exact of_execWaitPoll
  | signal => exact of_execSignal
  | moddropComplete => exact of_execModdropComplete
  | graph => exact of_execGraph
  | sfuDivResult => exact of_execSfuDivResult
  | fwactivate => exact ite (ite next next) next
  | invalidationComplete => exact ite (ite next next) (ite next next)
  | ptpSync | launchRegisterStore => exact ite next (ite next (ite next next))
  | registerWrite => exact ite next (ite next (ite next (ite next next)))
  | modload => exact ite next (ite next (ite next (ite next (ite next next))))
  | atomf | bankExchange | xfer | moddrop | preemptRequeue | preemptSuspend | preemptResume | preemptCancel | apertureUngate |
  partitionFreed | instructionLineFill | resumeReplay | calvsafeRun | hbmTrainingDone | ecsRead | s2map | s2unmap | s2root |
  s2reply | powerOn =>
    exact ite next next
  | objectCacheFill | wait | heldRelease | xferComplete => exact ite next (ite next next)
  | _ => exact next

end

end GivesNext

end Sys2Proof.Machine

open Sys2Proof Sys2Proof.Machine

/-- Settles O5: no form is refused and none faults. -/
theorem everyInstructionHasAMeaning : Obligations.EveryInstructionHasAMeaning := by
  unfold Obligations.EveryInstructionHasAMeaning
  exact GivesNext.of_exec

end

section
/-! PROOFS. Integer arithmetic (R79, R80, R82, R84, R86 to R88). -/

namespace Sys2Proof.Machine

set_option Elab.async false  -- theorem after theorem: every thread of a compile takes a stack of its own

/-- The same, where the result is only equal to the one given. -/
theorem computes_of_execAlu_eq {i : Instr} {c : Ctl} {us : List Nat} {f r : Thread → Group → Res} (h : ∀ s, exec i s = execAlu c us f s)
    (hr : ∀ t g, f t g = r t g) : Computes i c r := by
  obtain rfl : f = r := funext₂ hr
  exact computes_of_execAlu h

theorem intRes_eq (m : IMod) (d : Reg) (v : Int) : intRes m d v = .reg d (intWords m v) :=
  congrArg (Res.reg d) (dstWords_putInt m v)

/-- An instruction of class ALU with an exact integer value writes the words of that value. -/
theorem computes_of_intRes {i : Instr} {c : Ctl} {us : List Nat} {m : IMod} {d : Reg} {v : Thread → Group → Int}
    (h : ∀ s, exec i s = execAlu c us (fun t g => intRes m d (v t g)) s) : Computes i c (fun t g => .reg d (intWords m (v t g))) :=
  computes_of_execAlu_eq h fun _ _ => intRes_eq ..

theorem computes_of_execInt2 {i : Instr} {c : Ctl} {m : IMod} {unit : Nat} {d : Reg} {a b : Src} {f : Int → Int → Int}
    (h : ∀ s, exec i s = execInt2 c m unit d a b f s) :
    Computes i c (fun t g => .reg d (intWords m (f (srcInt t g m.wd m.un a) (srcInt t g m.wd m.un b)))) :=
  computes_of_intRes h

theorem ofNat_toNat_emod (n w : Nat) (v : Int) : BitVec.ofNat n (v % (2 ^ w : Int)).toNat = BitVec.ofInt n (v % 2 ^ w) := by
  rw [← BitVec.ofInt_natCast, Int.toNat_of_nonneg (Int.emod_nonneg v (by positivity))]

/-- The upper bits of a product are its quotient rounded down (R82). -/
theorem imulhi_computes (c : Ctl) (m : IMod) (d : Reg) (a b : Src) : Computes (.imulhi c m d a b) c (fun t g =>
    .reg d (intWords m (srcInt t g m.wd m.un a * srcInt t g m.wd m.un b / 2 ^ wdBits m.wd))) := by
  simp only [← Int.fdiv_eq_ediv_of_nonneg _ (show (0 : Int) ≤ 2 ^ wdBits m.wd by positivity)]
  exact computes_of_execInt2 (unit := 2) (f := fun x y => (x * y).fdiv (2 ^ wdBits m.wd)) fun _ => rfl

theorem ineg_computes (c : Ctl) (m : IMod) (d : Reg) (a : Src) : Computes (.ineg c m d a) c (fun t g =>
    .reg d (intWords m (0 - srcInt t g m.wd m.un a))) := by
  simp only [zero_sub]
  exact computes_of_intRes (us := unitsFor d [1]) fun _ => rfl

theorem isad_computes (c : Ctl) (m : IMod) (d : Reg) (a b e : Src) : Computes (.isad c m d a b e) c (fun t g =>
    .reg d [BitVec.ofInt 32 ((|srcInt t g m.wd m.un a - srcInt t g m.wd m.un b| + srcInt t g m.wd m.un e) % 2 ^ wdBits m.wd)]) := by
  simp only [← ofNat_toNat_emod]
  exact computes_of_execAlu (us := unitsFor d [1]) fun _ => rfl

end Sys2Proof.Machine

open Sys2Proof Sys2Proof.Machine

/-- Settles O11: each form is the shared meaning of class ALU with its own exact value, whose words `dstWords_putInt` gives. -/
theorem integerArithmeticResults : Obligations.IntegerArithmeticResults := by
  unfold Obligations.IntegerArithmeticResults
  refine ⟨fun c m d a b => ?_, fun c m d a b => ?_, fun c m d a b e => ?_, fun c m d a b => ?_, imulhi_computes, fun c m d a b e => ?_,
    fun c m d a b e => ?_, fun c m d a b => ?_, fun c m d a b => ?_, fun c m d a => ?_, ineg_computes, isad_computes,
    fun c m d a imm => ?_, fun c m d a imm => ?_, fun c m sh d a b => ?_, fun c sat ua ub d a b e => ?_, fun c sat ua ub d a b e => ?_⟩
  · exact computes_of_execInt2 (unit := 1) (f := (· + ·)) fun _ => rfl
  · exact computes_of_execInt2 (unit := 1) (f := (· - ·)) fun _ => rfl
  · exact computes_of_intRes (us := unitsFor d [1]) fun _ => rfl
  · exact computes_of_execInt2 (unit := 2) (f := (· * ·)) fun _ => rfl
  · exact computes_of_intRes (us := unitsFor d [2]) fun _ => rfl
  · exact computes_of_intRes (us := unitsFor d [2]) fun _ => rfl
  · exact computes_of_execInt2 (unit := 1) (f := min) fun _ => rfl
  · exact computes_of_execInt2 (unit := 1) (f := max) fun _ => rfl
  · exact computes_of_intRes (us := unitsFor d [1]) fun _ => rfl
  · exact computes_of_intRes (us := unitsFor d [1]) fun _ => rfl
  · exact computes_of_intRes (us := unitsFor d [2]) fun _ => rfl
  · exact computes_of_intRes (us := unitsFor d [1]) fun _ => rfl
  · exact computes_of_intRes (us := unitsFor d [1, 2]) fun _ => rfl
  · exact computes_of_intRes (us := unitsFor d [1, 2]) fun _ => rfl

end

section
/-! PROOFS. Sources and results of 32 and of 64 bits (R67, R79, R90). -/

namespace Sys2Proof.Machine

set_option Elab.async false  -- theorem after theorem: every thread of a compile takes a stack of its own

/-! ### Words of a result -/

theorem natWords_two (x : Nat) : natWords 2 x = dwords (BitVec.ofNat 64 x) := by
  simp only [natWords, dwords, List.cons.injEq, and_true]
  constructor <;> apply BitVec.eq_of_toNat_eq
  · simp [lo32]
  · simp only [hi32, BitVec.extractLsb'_toNat, BitVec.toNat_ofNat, Nat.shiftRight_eq_div_pow]
    omega

theorem lo32_ofNat (x : Nat) : lo32 (BitVec.ofNat 64 x) = BitVec.ofNat 32 x := by
  apply BitVec.eq_of_toNat_eq
  simp [lo32]

theorem natWords_wide (w64 : Bool) (x : Nat) : natWords (nregs64 w64) x = wideWords w64 (BitVec.ofNat 64 x) := by
  cases w64
  · exact congrArg (fun w => [w]) (lo32_ofNat x).symm
  · exact natWords_two x

theorem natWords_toNat (w64 : Bool) (x : DWord) : natWords (nregs64 w64) x.toNat = wideWords w64 x := by
  rw [natWords_wide, BitVec.ofNat_toNat, BitVec.setWidth_eq]

theorem natWords_setWidth (w64 : Bool) (x : DWord) : natWords (nregs64 w64) (x.setWidth (w64Bits w64)).toNat = wideWords w64 x := by
  cases w64
  · show [BitVec.ofNat 32 (x.setWidth 32).toNat] = [lo32 x]
    rw [BitVec.ofNat_toNat, BitVec.setWidth_eq]
    rfl
  · show natWords 2 (x.setWidth 64).toNat = _
    rw [BitVec.setWidth_eq]
    exact natWords_toNat true x

/-- A result computed at width 32 or 64 is written as words of that width. -/
theorem natWords_byWidth (w64 : Bool) (f : (w : Nat) → BitVec w → BitVec w) (x : Nat) :
    natWords (nregs64 w64) (f (w64Bits w64) (BitVec.ofNat (w64Bits w64) x)).toNat = byWidth w64 f (BitVec.ofNat 64 x) := by
  cases w64
  · show [BitVec.ofNat 32 (f 32 (BitVec.ofNat 32 x)).toNat] = [f 32 (lo32 (BitVec.ofNat 64 x))]
    rw [lo32_ofNat, BitVec.ofNat_toNat, BitVec.setWidth_eq]
  · exact natWords_toNat true (f 64 (BitVec.ofNat 64 x))

theorem toNat_append_add {m n : Nat} (x : BitVec m) (y : BitVec n) : (x ++ y).toNat = x.toNat * 2 ^ n + y.toNat := by
  rw [BitVec.toNat_append, ← Nat.shiftLeft_add_eq_or_of_lt y.isLt, Nat.shiftLeft_eq]

/-! ### A source fits its registers -/

theorem vNat_lt (t : Thread) (i n : Nat) : vNat t i n < 2 ^ (32 * n) := by
  induction n generalizing i with
  | zero => simp [vNat]
  | succ n ih =>
    have := ih (i + 1)
    have := (vread t i).isLt
    rw [vNat, show 32 * (n + 1) = 32 * n + 32 by ring, pow_add]
    omega

theorem kNat_lt (g : Group) (i n : Nat) : kNat g i n < 2 ^ (32 * n) := by
  induction n generalizing i with
  | zero => simp [kNat]
  | succ n ih =>
    have := ih (i + 1)
    have := (kread g i).isLt
    rw [kNat, show 32 * (n + 1) = 32 * n + 32 by ring, pow_add]
    omega

theorem srcNat_lt (t : Thread) (g : Group) (n : Nat) (a : Src) : srcNat t g n a < 2 ^ (32 * n) := by
  cases a with
  | v i => exact vNat_lt t i.val n
  | k i => exact kNat_lt g i.val n
  | c x => exact (x.signExtend (32 * n)).isLt

theorem w64Bits_eq (w64 : Bool) : w64Bits w64 = 32 * nregs64 w64 := by cases w64 <;> rfl

/-- A source of 32 or 64 bits at its own width. -/
def srcBits (t : Thread) (g : Group) (w64 : Bool) (a : Src) : BitVec (w64Bits w64) := BitVec.ofNat _ (srcNat t g (nregs64 w64) a)

@[simp] theorem toNat_srcBits (t : Thread) (g : Group) (w64 : Bool) (a : Src) :
    (srcBits t g w64 a).toNat = srcNat t g (nregs64 w64) a := by
  rw [srcBits, BitVec.toNat_ofNat, Nat.mod_eq_of_lt]
  exact w64Bits_eq w64 ▸ srcNat_lt t g (nregs64 w64) a

theorem w64Bits_pos (w64 : Bool) : 0 < w64Bits w64 := by cases w64 <;> decide

theorem w64Bits_le (w64 : Bool) : w64Bits w64 ≤ 64 := by cases w64 <;> decide

theorem srcNat_wide_lt (t : Thread) (g : Group) (w64 : Bool) (a : Src) : srcNat t g (nregs64 w64) a < 2 ^ w64Bits w64 :=
  toNat_srcBits t g w64 a ▸ (srcBits t g w64 a).isLt

@[simp] theorem toNat_wideSrc (t : Thread) (g : Group) (w64 : Bool) (a : Src) :
    (wideSrc t g w64 a).toNat = srcNat t g (nregs64 w64) a := by
  rw [wideSrc, BitVec.toNat_ofNat, Nat.mod_eq_of_lt]
  exact (srcNat_wide_lt t g w64 a).trans_le (Nat.pow_le_pow_right (by decide) (w64Bits_le w64))

@[simp] theorem setWidth_wideSrc (t : Thread) (g : Group) (w64 : Bool) (a : Src) :
    (wideSrc t g w64 a).setWidth (w64Bits w64) = srcBits t g w64 a := by
  rw [← BitVec.ofNat_toNat, toNat_wideSrc]
  rfl

theorem toNat_srcW (t : Thread) (g : Group) (a : Src) : (srcW t g a).toNat = srcNat t g 1 a :=
  Nat.mod_eq_of_lt (srcNat_lt t g 1 a)

/-! ### Numbers given by their bits -/

theorem bitsFrom_lt (f : Nat → Bool) (n : Nat) : bitsFrom f n < 2 ^ n := by
  induction n with
  | zero => simp [bitsFrom]
  | succ n ih =>
    rw [bitsFrom, pow_succ]
    cases f n <;> simp <;> omega

theorem testBit_bitsFrom (f : Nat → Bool) (n i : Nat) : (bitsFrom f n).testBit i = (decide (i < n) && f i) := by
  induction n with
  | zero => simp [bitsFrom]
  | succ n ih =>
    rw [bitsFrom, Nat.add_comm, Nat.mul_comm, Nat.testBit_two_pow_mul_add _ (bitsFrom_lt f n), ih]
    obtain hlt | rfl | hgt := Nat.lt_trichotomy i n
    · simp [hlt, Nat.lt_succ_of_lt hlt]
    · cases f i <;> simp
    · have hbit : Nat.testBit 1 (i - n) = false := Nat.testBit_lt_two_pow (Nat.one_lt_two_pow (by omega))
      cases f n <;> simp [Nat.not_lt.2 hgt.le, show ¬ i < n + 1 by omega, hbit]

/-- A number is that of a word when its bits are. -/
theorem bitsFrom_eq_toNat {w : Nat} {x : BitVec w} {f : Nat → Bool} (h : ∀ i < w, f i = x.getLsbD i) : bitsFrom f w = x.toNat := by
  refine Nat.eq_of_testBit_eq fun i => ?_
  rw [testBit_bitsFrom, BitVec.testBit_toNat]
  by_cases hi : i < w
  · simp [hi, h i hi]
  · simp [hi, BitVec.getLsbD_of_ge x i (Nat.not_lt.1 hi)]

/-! ### Instructions of one result -/

/-- An instruction of one 32- or 64-bit result whose value is that of one function on words of its width. -/
theorem computes_of_byWidth {i : Instr} {c : Ctl} {us : List Nat} {w64 : Bool} {d : Reg} {a : Src} {v : Thread → Group → Nat}
    (f : Thread → Group → (w : Nat) → BitVec w → BitVec w)
    (h : ∀ s, exec i s = execAlu c us (fun t g => .nat d (nregs64 w64) (v t g)) s)
    (hv : ∀ t g, v t g = (f t g (w64Bits w64) (srcBits t g w64 a)).toNat) :
    Computes i c (fun t g => .reg d (byWidth w64 (f t g) (wideSrc t g w64 a))) :=
  computes_of_execAlu_eq h fun t g => congrArg (Res.reg d) (hv t g ▸ natWords_byWidth w64 (f t g) _)

end Sys2Proof.Machine

end

section
/-! PROOFS. Logic, truth tables, comparisons and moves (R81, R85, R89 to R92, R99). -/

namespace Sys2Proof.Machine

set_option Elab.async false  -- theorem after theorem: every thread of a compile takes a stack of its own

/-! ### Truth tables (R92) -/

theorem getLsbD_foldl_or {w : Nat} (p : Nat → Bool) (m : Nat → BitVec w) (js : List Nat) (x : BitVec w) (i : Nat) :
    (js.foldl (fun acc j => if p j then acc ||| m j else acc) x).getLsbD i =
      (x.getLsbD i || js.any (fun j => p j && (m j).getLsbD i)) := by
  induction js generalizing x with
  | nil => simp
  | cons j js ih => cases h : p j <;> simp [ih, h, Bool.or_assoc]

theorem getLsbD_pick {w : Nat} (b : Bool) (x : BitVec w) {i : Nat} (hi : i < w) : (pick b x).getLsbD i = (b == x.getLsbD i) := by
  cases b <;> simp [pick, hi]

/-- At each bit one minterm holds: that whose number the three bits form. -/
theorem getLsbD_tableOf (lut : BitVec 8) (x y z : DWord) {i : Nat} (hi : i < 64) :
    (tableOf lut x y z).getLsbD i = lutBit lut (x.getLsbD i) (y.getLsbD i) (z.getLsbD i) := by
  unfold tableOf
  rw [getLsbD_foldl_or]
  simp only [BitVec.getLsbD_and, getLsbD_pick _ _ hi]
  generalize x.getLsbD i = a, y.getLsbD i = b, z.getLsbD i = c
  cases a <;> cases b <;> cases c <;> simp [List.range_succ, lutBit, Nat.testBit]

theorem lutVal_toNat (lut : BitVec 8) {w : Nat} (hw : w ≤ 64) (x y z : DWord) :
    lutVal lut w x.toNat y.toNat z.toNat = ((tableOf lut x y z).setWidth w).toNat := by
  refine bitsFrom_eq_toNat fun i hi => ?_
  simp only [BitVec.testBit_toNat, BitVec.getLsbD_setWidth, hi, decide_true, Bool.true_and,
    getLsbD_tableOf lut x y z (hi.trans_le hw)]

/-! ### Instructions of class 0x1 that only compute -/

theorem computes_of_execLogic2 {i : Instr} {c : Ctl} {w64 : Bool} {d : Reg} {a b : Src} {f : DWord → DWord → DWord}
    (h : ∀ s, exec i s = execLogic2 c w64 d a b f s) :
    Computes i c (fun t g => .reg d (wideWords w64 (f (wideSrc t g w64 a) (wideSrc t g w64 b)))) :=
  computes_of_execAlu_eq h fun _ _ => congrArg (Res.reg d) (natWords_toNat ..)

theorem ltab_computes (c : Ctl) (w64 : Bool) (lut : BitVec 8) (d : Reg) (a b e : Src) : Computes (.ltab c w64 lut d a b e) c (fun t g =>
    .reg d (wideWords w64 (tableOf lut (wideSrc t g w64 a) (wideSrc t g w64 b) (wideSrc t g w64 e)))) := by
  simp only [← natWords_setWidth, ← lutVal_toNat _ (w64Bits_le w64), toNat_wideSrc]
  exact computes_of_execAlu (us := unitsFor d []) fun _ => rfl

theorem ltabi_computes (c : Ctl) (lut : BitVec 8) (d : Reg) (a b : Src) (imm : Word) : Computes (.ltabi c lut d a b imm) c (fun t g =>
    .reg d [lo32 (tableOf lut (wideSrc t g false a) (wideSrc t g false b) (imm.setWidth 64))]) := by
  refine computes_of_execAlu_eq (us := unitsFor d [])
    (f := fun t g => .nat d 1 (lutVal lut 32 (srcNat t g 1 a) (srcNat t g 1 b) imm.toNat)) (fun _ => rfl) fun t g => ?_
  have himm : imm.toNat = (imm.setWidth 64).toNat := (BitVec.toNat_setWidth_of_le (by decide)).symm
  have hval := lutVal_toNat lut (w64Bits_le false) (wideSrc t g false a) (wideSrc t g false b) (imm.setWidth 64)
  rw [toNat_wideSrc, toNat_wideSrc, ← himm] at hval
  exact congrArg (Res.reg d) ((congrArg (natWords 1) hval).trans (natWords_setWidth false _))

/-- q7 reads 1, whatever the predicate byte holds (R14). -/
theorem qread_eq (t : Thread) (i : Nat) : qread t i = (t.q ||| 128).getLsbD i := by
  have hseven : (128 : BitVec 8).getLsbD i = (i == 7) :=
    (getLsbD_predMask (n := 7) (by decide)).trans (decide_eq_decide.2 eq_comm)
  rw [BitVec.getLsbD_or, hseven, qread, Bool.or_comm]

theorem pmov_toReg_computes (c : Ctl) (d : Reg) :
    Computes (.pmov c (.toReg d)) c (fun t _ => .reg d [(t.q ||| 128).setWidth 32]) := by
  refine computes_of_execAlu_eq (us := unitsFor d [])
    (f := fun t _ => .nat d 1 (bitsFrom (fun i => qread t i) 8)) (fun _ => rfl) fun t _ => ?_
  rw [bitsFrom_eq_toNat fun i _ => qread_eq t i, ← BitVec.ofNat_toNat]
  rfl

theorem pmov_toPred_computes (c : Ctl) (mask : BitVec 8) (a : Src) : Computes (.pmov c (.toPred mask a)) c (fun t g =>
    { preds := ((List.range 7).filter (fun i => mask.getLsbD i)).map (fun i => (i, (srcW t g a).getLsbD i)) }) := by
  have hbit (t : Thread) (g : Group) (i : Nat) : (srcW t g a).getLsbD i = (srcNat t g 1 a).testBit i := by
    rw [← BitVec.testBit_toNat, toNat_srcW]
  simp only [hbit]
  exact computes_of_execAlu (us := []) fun _ => rfl

/-! ### Moves (R89) -/

theorem movi_computes (c : Ctl) (m : IMod) (d : Reg) (imm : Word) : Computes (.movi c m d imm) c (fun _ _ =>
    .reg d (if m.wd = .w64 then dwords (if m.un then imm.setWidth 64 else imm.signExtend 64) else [imm])) := by
  obtain ⟨wd, un, sat⟩ := m
  cases wd with
  | w64 =>
    refine computes_of_execAlu_eq (us := unitsFor d []) (f := fun _ _ => .nat d 2 (if un then imm.toNat else (imm.signExtend 64).toNat))
      (fun _ => rfl) fun _ _ => congrArg (Res.reg d) ?_
    have hx : (if un then imm.toNat else (imm.signExtend 64).toNat) = (if un then imm.setWidth 64 else imm.signExtend 64).toNat := by
      cases un
      · rfl
      · exact (BitVec.toNat_setWidth_of_le (by decide)).symm
    exact (congrArg (natWords 2) hx).trans (natWords_toNat true _)
  | w32 | w16 | w8 =>
    have hone : natWords 1 imm.toNat = [imm] := by simp [natWords]
    exact computes_of_execAlu_eq (us := unitsFor d []) (f := fun _ _ => .nat d 1 imm.toNat) (fun _ => rfl) fun _ _ =>
      congrArg (Res.reg d) hone

theorem movw_computes (c : Ctl) (d : Reg) (imm : DWord) : Computes (.movw c d imm) c (fun _ _ => .reg d (dwords imm)) :=
  computes_of_execAlu_eq (us := unitsFor d []) (f := fun _ _ => .nat d 2 imm.toNat) (fun _ => rfl) fun _ _ =>
    congrArg (Res.reg d) (natWords_toNat true imm)

end Sys2Proof.Machine

open Sys2Proof Sys2Proof.Machine

/-- Settles O12: bitwise forms act on whole words, a truth table bit by bit, and comparisons, selects and moves are the shared meaning of
class ALU as they stand. -/
theorem logicCompareAndMoveResults : Obligations.LogicCompareAndMoveResults := by
  unfold Obligations.LogicCompareAndMoveResults
  refine ⟨⟨fun c w d a b => ?_, fun c w d a b => ?_, fun c w d a b => ?_, fun c w d a b => ?_, fun c w d a => ?_, ltab_computes,
    ltabi_computes, fun c lut q pa pb pc => ?_, pmov_toReg_computes, pmov_toPred_computes⟩,
    fun c m cond bop q a b p => ?_, fun c m cond bop q a imm p => ?_, fun c m d a b p => ?_, fun c m d a => ?_,
    movi_computes, movw_computes⟩
  · exact computes_of_execLogic2 (f := fun x y => x &&& y) fun _ => rfl
  · exact computes_of_execLogic2 (f := fun x y => x ||| y) fun _ => rfl
  · exact computes_of_execLogic2 (f := fun x y => x ^^^ y) fun _ => rfl
  · exact computes_of_execLogic2 (f := fun x y => x &&& ~~~y) fun _ => rfl
  · exact computes_of_execLogic2 (f := fun x _ => ~~~x) (b := a) fun _ => rfl
  · exact computes_of_execAlu (us := []) fun _ => rfl
  · exact computes_of_execAlu (us := [1]) fun _ => rfl
  · exact computes_of_execAlu (us := [1]) fun _ => rfl
  · exact computes_of_execAlu (us := unitsFor d []) fun _ => rfl
  · exact computes_of_execAlu (us := unitsFor d []) fun _ => rfl

end

section
/-! PROOFS. Shifts and bit fields (R93 to R95). -/

namespace Sys2Proof.Machine

set_option Elab.async false  -- theorem after theorem: every thread of a compile takes a stack of its own

/-! ### Shifts (R93, R94) -/

theorem computes_of_execShift {i : Instr} {c : Ctl} {w64 : Bool} {d : Reg} {a n : Src} {v : Nat → Nat → Nat}
    (f : Nat → (w : Nat) → BitVec w → BitVec w) (h : ∀ s, exec i s = execShift c w64 d a n v s)
    (hv : ∀ (x : BitVec (w64Bits w64)) k, v x.toNat k = (f k (w64Bits w64) x).toNat) :
    Computes i c (fun t g => .reg d (byWidth w64 (f (srcNat t g 1 n)) (wideSrc t g w64 a))) :=
  computes_of_byWidth (fun t g => f (srcNat t g 1 n)) h fun t g => toNat_srcBits t g w64 a ▸ hv (srcBits t g w64 a) _

theorem shlVal_toNat (w64 wrap : Bool) (x : BitVec (w64Bits w64)) (n : Nat) :
    shlVal w64 wrap x.toNat n = (x <<< shiftCount w64 wrap n).toNat := by
  unfold shlVal
  dsimp only
  split_ifs with h
  · rw [BitVec.toNat_shiftLeft, Nat.shiftLeft_eq]
  · rw [BitVec.shiftLeft_eq_zero (Nat.not_lt.1 h)]; rfl

theorem shrVal_toNat (w64 wrap : Bool) (x : BitVec (w64Bits w64)) (n : Nat) :
    shrVal w64 wrap x.toNat n = (x >>> shiftCount w64 wrap n).toNat := by
  unfold shrVal
  dsimp only
  split_ifs with h
  · rw [BitVec.toNat_ushiftRight, Nat.shiftRight_eq_div_pow]
  · rw [BitVec.ushiftRight_eq_zero (Nat.not_lt.1 h)]; rfl

theorem intOf_toNat {w : Nat} (x : BitVec w) : intOf x.toNat w false = x.toInt := by
  have hx := x.isLt
  unfold intOf
  rw [Nat.mod_eq_of_lt hx, BitVec.toInt_eq_toNat_cond]
  cases w with
  | zero => simp [BitVec.eq_nil x]
  | succ w =>
    have hcond : 2 * x.toNat < 2 ^ (w + 1) ↔ ¬ 2 ^ w ≤ x.toNat := by rw [pow_succ]; omega
    by_cases h : 2 ^ w ≤ x.toNat <;> simp [hcond, h]

/-- A shift by the width or more leaves the sign in every bit. -/
theorem sshiftRight_min {w : Nat} (x : BitVec w) (k : Nat) : x.sshiftRight (min k w) = x.sshiftRight k := by
  by_cases h : k ≤ w
  · rw [min_eq_left h]
  · refine BitVec.eq_of_getLsbD_eq fun i hi => ?_
    rw [min_eq_right (by omega), BitVec.getLsbD_sshiftRight, BitVec.getLsbD_sshiftRight, if_neg (by omega), if_neg (by omega)]

theorem sarVal_toNat (w64 wrap : Bool) (x : BitVec (w64Bits w64)) (n : Nat) :
    sarVal w64 wrap x.toNat n = (x.sshiftRight (shiftCount w64 wrap n)).toNat := by
  rw [← sshiftRight_min]
  unfold sarVal
  dsimp only
  rw [intOf_toNat, toNat_emod_pow, Int.fdiv_eq_ediv_of_nonneg _ (by positivity), BitVec.sshiftRight, Int.shiftRight_eq_div_pow]
  push_cast
  rfl

/-- The low bits of the sum come from the quotient, the others from the product: no bit from both. -/
theorem rotlVal_toNat (w64 : Bool) (x : BitVec (w64Bits w64)) (n : Nat) : rotlVal w64 x.toNat n = (x.rotateLeft n).toNat := by
  unfold rotlVal
  dsimp only
  have hk : n % w64Bits w64 ≤ w64Bits w64 := (Nat.mod_lt n (w64Bits_pos w64)).le
  generalize w64Bits w64 = w at x hk ⊢
  have hhigh : x.toNat / 2 ^ (w - n % w) < 2 ^ (n % w) := by
    rw [Nat.div_lt_iff_lt_mul (by positivity), ← pow_add, Nat.add_sub_cancel' hk]
    exact x.isLt
  have hlow : x.toNat * 2 ^ (n % w) % 2 ^ w = (x.toNat % 2 ^ (w - n % w)) <<< (n % w) := by
    rw [Nat.shiftLeft_eq, ← Nat.mul_mod_mul_right, ← pow_add, Nat.sub_add_cancel hk]
  rw [BitVec.toNat_rotateLeft, Nat.shiftLeft_eq, Nat.shiftRight_eq_div_pow, hlow, Nat.shiftLeft_add_eq_or_of_lt hhigh]

theorem fshfVal_toNat (w64 wrap right : Bool) (hi lo : BitVec (w64Bits w64)) (n : Nat) :
    fshfVal w64 wrap right hi.toNat lo.toNat n =
      (let w := w64Bits w64
       let k := if wrap then n % w else min n w
       let y : BitVec (w + w) := hi ++ lo
       if right then (y >>> k).setWidth w else (y <<< k).extractLsb' w w).toNat := by
  unfold fshfVal
  dsimp only
  rw [← toNat_append_add]
  cases right
  · simp [BitVec.extractLsb'_toNat, Nat.shiftLeft_eq, Nat.shiftRight_eq_div_pow, pow_add, Nat.mod_mul_right_div_self]
  · simp [Nat.shiftRight_eq_div_pow]

/-! ### Bit fields (R95) -/

theorem getLsbD_lowBits {w : Nat} (x : BitVec w) {len i : Nat} (h : len ≤ w) :
    (lowBits x len).getLsbD i = (decide (i < len) && x.getLsbD i) := by
  have hlt : w - len + i < w ↔ i < len := by omega
  rw [lowBits, BitVec.getLsbD_ushiftRight, BitVec.getLsbD_shiftLeft, Nat.add_sub_cancel_left]
  simp only [hlt]
  simp

theorem lowBits_eq {w len : Nat} (x : BitVec w) (h : len ≤ w) : lowBits x len = (x.setWidth len).setWidth w := by
  refine BitVec.eq_of_getLsbD_eq fun i hi => ?_
  rw [getLsbD_lowBits x h, BitVec.getLsbD_setWidth, BitVec.getLsbD_setWidth]
  simp only [hi, decide_true, Bool.true_and]

/-- The bits above a field repeat its highest bit. -/
theorem lowSigned_eq {w len : Nat} (x : BitVec w) (h : len ≤ w) : lowSigned x len = (x.setWidth len).signExtend w := by
  refine BitVec.eq_of_getLsbD_eq fun i hi => ?_
  have hlt : w - len + i < w ↔ i < len := by omega
  rw [lowSigned, BitVec.getLsbD_sshiftRight, BitVec.getLsbD_signExtend]
  simp only [hlt, BitVec.msb_eq_getLsbD_last, BitVec.getLsbD_shiftLeft, BitVec.getLsbD_setWidth, Nat.add_sub_cancel_left]
  by_cases hin : i < len
  · simp [hin, hi]
  · obtain rfl | hpos := Nat.eq_zero_or_pos len
    · simp [hi]
    · simp [hin, hi, show w - 1 - (w - len) = len - 1 by omega, show ¬ w - 1 < w - len by omega, hpos, Nat.not_le.2 hi,
        show 0 < w by omega]

/-- The bits of a field: those of the source shifted right. -/
theorem bitsFrom_field {w l : Nat} (un : Bool) (x : BitVec w) (p : Nat) (hl : l ≤ w) :
    bitsFrom (fun i => if p + i < w then x.toNat.testBit (p + i) else !un && x.toNat.testBit (w - 1)) l =
      ((if un then x >>> p else x.sshiftRight p).setWidth l).toNat := by
  refine bitsFrom_eq_toNat fun i hi => ?_
  simp only [BitVec.testBit_toNat, BitVec.getLsbD_setWidth, hi, decide_true, Bool.true_and]
  cases un with
  | false =>
    have hw : ¬ w ≤ i := by omega
    simp only [Bool.not_false, Bool.true_and, Bool.false_eq_true, if_false, BitVec.getLsbD_sshiftRight, hw, decide_false,
      BitVec.msb_eq_getLsbD_last]
  | true =>
    simp only [if_true, BitVec.getLsbD_ushiftRight]
    split_ifs with hin
    · rfl
    · exact (BitVec.getLsbD_of_ge x _ (Nat.not_lt.1 hin)).symm

theorem bfxVal_toNat (w64 un : Bool) (x : BitVec (w64Bits w64)) (pos len : Nat) :
    bfxVal w64 un x.toNat pos len =
      (let p := pos % 256
       let l := min (len % 256) (w64Bits w64)
       if un then lowBits (x >>> p) l else lowSigned (x.sshiftRight p) l).toNat := by
  unfold bfxVal
  dsimp only
  have hl : min (len % 256) (w64Bits w64) ≤ w64Bits w64 := min_le_right ..
  rw [bitsFrom_field un x _ hl]
  generalize w64Bits w64 = w at x hl ⊢
  generalize pos % 256 = p
  generalize min (len % 256) w = l at hl ⊢
  cases un
  · simp only [Bool.false_or, Bool.false_eq_true, if_false, beq_iff_eq]
    rw [intOf_toNat, toNat_emod_pow, lowSigned_eq _ hl]
    split_ifs with hzero
    · subst hzero
      generalize (x.sshiftRight p).setWidth 0 = y
      simp [BitVec.eq_nil y, BitVec.signExtend]
    · rfl
  · simp only [Bool.true_or, if_true]
    rw [lowBits_eq _ hl, BitVec.toNat_setWidth_of_le hl]

theorem bfiVal_toNat (w64 : Bool) (ins base : BitVec (w64Bits w64)) (pos len : Nat) :
    bfiVal w64 ins.toNat base.toNat pos len =
      (let p := pos % 256
       let mask := lowBits (BitVec.allOnes (w64Bits w64)) (min (len % 256) (w64Bits w64)) <<< p
       ((ins <<< p) &&& mask) ||| (base &&& ~~~mask)).toNat := by
  unfold bfiVal
  dsimp only
  refine bitsFrom_eq_toNat fun i hi => ?_
  simp only [BitVec.testBit_toNat, BitVec.getLsbD_or, BitVec.getLsbD_and, BitVec.getLsbD_not, BitVec.getLsbD_shiftLeft,
    getLsbD_lowBits _ (min_le_right _ _), BitVec.getLsbD_allOnes, hi]
  generalize min (len % 256) (w64Bits w64) = l
  generalize pos % 256 = p
  by_cases h : p ≤ i ∧ i < p + l
  · have hlt : ¬ i < p := by omega
    have hin : i - p < l := by omega
    have hw : i - p < w64Bits w64 := by omega
    simp [h, hlt, hin, hw]
  · rw [if_neg h]
    obtain hlt | hge : i < p ∨ ¬ i - p < l := by omega
    · simp [hlt]
    · simp [hge]

theorem fshf_computes (c : Ctl) (w64 wr right : Bool) (d : Reg) (hi lo n : Src) : Computes (.fshf c w64 wr right d hi lo n) c (fun t g =>
    let k := fun v => if wr then srcNat t g 1 n % v else min (srcNat t g 1 n) v
    .reg d (byWidth w64 (fun v x =>
      let y : BitVec (v + v) := x ++ (wideSrc t g w64 lo).setWidth v
      if right then (y >>> k v).setWidth v else (y <<< k v).extractLsb' v v) (wideSrc t g w64 hi))) := by
  refine computes_of_byWidth (us := unitsFor d [5]) _
    (v := fun t g => fshfVal w64 wr right (srcNat t g (nregs64 w64) hi) (srcNat t g (nregs64 w64) lo) (srcNat t g 1 n))
    (fun _ => rfl) fun t g => ?_
  rw [← toNat_srcBits t g w64 hi, ← toNat_srcBits t g w64 lo, fshfVal_toNat, setWidth_wideSrc]

theorem bfx_computes (c : Ctl) (w64 un : Bool) (d : Reg) (a pos len : Src) : Computes (.bfx c w64 un d a pos len) c (fun t g =>
    .reg d (byWidth w64 (fun v x =>
      let p := srcNat t g 1 pos % 256
      let l := min (srcNat t g 1 len % 256) v
      if un then lowBits (x >>> p) l else lowSigned (x.sshiftRight p) l) (wideSrc t g w64 a))) := by
  refine computes_of_byWidth (us := unitsFor d [5]) _
    (v := fun t g => bfxVal w64 un (srcNat t g (nregs64 w64) a) (srcNat t g 1 pos) (srcNat t g 1 len)) (fun _ => rfl) fun t g => ?_
  rw [← toNat_srcBits t g w64 a, bfxVal_toNat]

theorem bfi_computes (c : Ctl) (w64 : Bool) (d : Reg) (ins base pos len : Src) : Computes (.bfi c w64 d ins base pos len) c (fun t g =>
    .reg d (byWidth w64 (fun v x =>
      let p := srcNat t g 1 pos % 256
      let mask := lowBits (BitVec.allOnes v) (min (srcNat t g 1 len % 256) v) <<< p
      ((x <<< p) &&& mask) ||| ((wideSrc t g w64 base).setWidth v &&& ~~~mask)) (wideSrc t g w64 ins))) := by
  refine computes_of_byWidth (us := unitsFor d [5]) _
    (v := fun t g => bfiVal w64 (srcNat t g (nregs64 w64) ins) (srcNat t g (nregs64 w64) base) (srcNat t g 1 pos) (srcNat t g 1 len))
    (fun _ => rfl) fun t g => ?_
  rw [← toNat_srcBits t g w64 ins, ← toNat_srcBits t g w64 base, bfiVal_toNat, setWidth_wideSrc]

end Sys2Proof.Machine

open Sys2Proof Sys2Proof.Machine

/-- Settles O13: the value of each form is that of one operation on words of its width. -/
theorem shiftAndFieldResults : Obligations.ShiftAndFieldResults := by
  unfold Obligations.ShiftAndFieldResults
  refine ⟨fun c w wr d a n => ?_, fun c w wr d a n => ?_, fun c w wr d a n => ?_, fun c w d a n => ?_, fshf_computes, bfx_computes,
    bfi_computes⟩
  · exact computes_of_execShift (fun n v x => x <<< (if wr then n % v else n)) (fun _ => rfl) (shlVal_toNat w wr)
  · exact computes_of_execShift (fun n v x => x >>> (if wr then n % v else n)) (fun _ => rfl) (shrVal_toNat w wr)
  · exact computes_of_execShift (fun n v x => x.sshiftRight (if wr then n % v else n)) (fun _ => rfl) (sarVal_toNat w wr)
  · exact computes_of_execShift (fun n _ x => x.rotateLeft n) (fun _ => rfl) (rotlVal_toNat w)

end

section
/-! PROOFS. Counts, reversal, byte selection and carry-less products (R96 to R98). -/

namespace Sys2Proof.Machine

set_option Elab.async false  -- theorem after theorem: every thread of a compile takes a stack of its own

/-! ### Counts (R96) -/

/-- Bits above a word are not set, so they count nothing. -/
theorem popVal_of_lt {w v x : Nat} (hx : x < 2 ^ w) (hv : w ≤ v) : popVal v x = popVal w x := by
  induction v, hv using Nat.le_induction with
  | base => rfl
  | succ v hv ih =>
    have hbit : x.testBit v = false := Nat.testBit_lt_two_pow (hx.trans_le (Nat.pow_le_pow_right (by decide) hv))
    rw [← ih]
    simp [popVal, List.range_succ, hbit]

theorem popc_computes (c : Ctl) (w64 : Bool) (d : Reg) (a : Src) : Computes (.popc c w64 d a) c (fun t g =>
    .reg d [BitVec.ofNat 32 ((List.range 64).filter (fun i => (wideSrc t g w64 a).getLsbD i)).length]) := by
  refine computes_of_execAlu_eq (us := unitsFor d [])
    (f := fun t g => .nat d 1 (popVal (w64Bits w64) (srcNat t g (nregs64 w64) a))) (fun _ => rfl) fun t g => ?_
  rw [← popVal_of_lt (srcNat_wide_lt t g w64 a) (w64Bits_le w64), ← toNat_wideSrc]
  rfl

theorem toNat_clz_zero (w : Nat) : (0#w).clz.toNat = w := by
  rw [BitVec.clz_eq_iff_eq_zero.2 rfl]
  exact Nat.mod_eq_of_lt Nat.lt_two_pow_self

theorem clz_toNat_lt {w : Nat} {x : BitVec w} (hx : x ≠ 0#w) : x.clz.toNat < w := by
  have hlt := BitVec.lt_def.1 (BitVec.clz_lt_iff_ne_zero.2 hx)
  exact hlt.trans_eq (Nat.mod_eq_of_lt Nat.lt_two_pow_self)

theorem clzVal_toNat {w : Nat} (x : BitVec w) : clzVal w x.toNat = x.clz.toNat := by
  unfold clzVal bitLen
  by_cases hx : x = 0#w
  · subst hx
    simp [toNat_clz_zero]
  · have hne : x.toNat ≠ 0 := fun h => hx (BitVec.eq_of_toNat_eq h)
    have hlt := clz_toNat_lt hx
    have hlog : x.toNat.log2 = w - 1 - x.clz.toNat := by
      refine (Nat.log2_eq_iff hne).2 ⟨BitVec.two_pow_sub_clz_le_toNat_of_ne_zero (by omega) hx, ?_⟩
      rw [show w - 1 - x.clz.toNat + 1 = w - x.clz.toNat by omega]
      exact BitVec.toNat_lt_two_pow_sub_clz
    rw [if_neg hne, hlog]
    omega

theorem ctzVal_toNat {w : Nat} (x : BitVec w) : ctzVal w x.toNat = x.ctz.toNat := by
  unfold ctzVal
  simp only [BitVec.testBit_toNat]
  by_cases hx : x = 0#w
  · subst hx
    rw [BitVec.ctz_eq_reverse_clz, BitVec.reverse_eq_zero_iff.2 rfl, toNat_clz_zero, List.find?_eq_none.2 (by simp)]
    rfl
  · have hlt : x.ctz.toNat < w := clz_toNat_lt (mt BitVec.reverse_eq_zero_iff.1 hx)
    rw [List.find?_range_eq_some.2 ⟨BitVec.getLsbD_true_ctz_of_ne_zero hx, List.mem_range.2 hlt,
      fun j hj => by rw [BitVec.getLsbD_false_of_lt_ctz hj]; rfl⟩]
    rfl

/-- A count of the bits of a word of either width is written as 32 bits. -/
theorem ofNat_countBits (cnt : (w : Nat) → BitVec w → BitVec w) (t : Thread) (g : Group) (w64 : Bool) (a : Src) :
    BitVec.ofNat 32 (cnt (w64Bits w64) (srcBits t g w64 a)).toNat =
      if w64 then (cnt 64 (wideSrc t g w64 a)).setWidth 32 else cnt 32 (lo32 (wideSrc t g w64 a)) := by
  cases w64
  · rw [wideSrc, lo32_ofNat, BitVec.ofNat_toNat]
    exact BitVec.setWidth_eq _
  · exact BitVec.ofNat_toNat 32 _

theorem clz_computes (c : Ctl) (w64 : Bool) (d : Reg) (a : Src) : Computes (.clz c w64 d a) c (fun t g =>
    .reg d [if w64 then (wideSrc t g w64 a).clz.setWidth 32 else (lo32 (wideSrc t g w64 a)).clz]) := by
  refine computes_of_execAlu_eq (us := unitsFor d [])
    (f := fun t g => .nat d 1 (clzVal (w64Bits w64) (srcNat t g (nregs64 w64) a))) (fun _ => rfl) fun t g => ?_
  rw [← ofNat_countBits (fun _ x => x.clz), ← clzVal_toNat, toNat_srcBits]
  rfl

theorem ctz_computes (c : Ctl) (w64 : Bool) (d : Reg) (a : Src) : Computes (.ctz c w64 d a) c (fun t g =>
    .reg d [if w64 then (wideSrc t g w64 a).ctz.setWidth 32 else (lo32 (wideSrc t g w64 a)).ctz]) := by
  refine computes_of_execAlu_eq (us := unitsFor d [])
    (f := fun t g => .nat d 1 (ctzVal (w64Bits w64) (srcNat t g (nregs64 w64) a))) (fun _ => rfl) fun t g => ?_
  rw [← ofNat_countBits (fun _ x => x.ctz), ← ctzVal_toNat, toNat_srcBits]
  rfl

theorem bitsFrom_reverse {w : Nat} (x : BitVec w) : bitsFrom (fun i => x.toNat.testBit (w - 1 - i)) w = x.reverse.toNat := by
  refine bitsFrom_eq_toNat fun i hi => ?_
  rw [BitVec.getLsbD_reverse, BitVec.getMsbD, BitVec.testBit_toNat]
  simp only [hi, decide_true, Bool.true_and]

theorem brev_computes (c : Ctl) (w64 : Bool) (d : Reg) (a : Src) : Computes (.brev c w64 d a) c (fun t g =>
    .reg d (byWidth w64 (fun _ x => x.reverse) (wideSrc t g w64 a))) := by
  refine computes_of_byWidth (us := unitsFor d []) (fun _ _ _ x => x.reverse)
    (v := fun t g => bitsFrom (fun i => (srcNat t g (nregs64 w64) a).testBit (w64Bits w64 - 1 - i)) (w64Bits w64))
    (fun _ => rfl) fun t g => ?_
  rw [← toNat_srcBits t g w64 a, bitsFrom_reverse]

/-! ### Bytes (R97) -/

theorem bpermByte_lt (x sel i : Nat) : bpermByte x sel i < 256 := by
  unfold bpermByte
  dsimp only
  split_ifs <;> omega

theorem bperm_computes (c : Ctl) (d : Reg) (a b sel : Src) : Computes (.bperm c d a b sel) c (fun t g =>
    let byte := fun i => bpermByte (pair (srcW t g a) (srcW t g b)).toNat (srcNat t g 1 sel) i
    .reg d [BitVec.ofNat 8 (byte 3) ++ BitVec.ofNat 8 (byte 2) ++ BitVec.ofNat 8 (byte 1) ++ BitVec.ofNat 8 (byte 0)]) := by
  refine computes_of_execAlu_eq (us := unitsFor d [])
    (f := fun t g => .nat d 1 (bpermVal (srcNat t g 1 a) (srcNat t g 1 b) (srcNat t g 1 sel))) (fun _ => rfl) fun t g => ?_
  refine congrArg (fun w => Res.reg d [w]) (BitVec.eq_of_toNat_eq ?_)
  have hpair : (pair (srcW t g a) (srcW t g b)).toNat = srcNat t g 1 b * 2 ^ 32 + srcNat t g 1 a := by
    rw [pair, toNat_append_add, toNat_srcW, toNat_srcW]
  have hlt := bpermByte_lt (srcNat t g 1 b * 2 ^ 32 + srcNat t g 1 a) (srcNat t g 1 sel)
  have h0 := hlt 0
  have h1 := hlt 1
  have h2 := hlt 2
  have h3 := hlt 3
  simp only [hpair, toNat_append_add, bpermVal, BitVec.toNat_ofNat]
  omega

/-! ### Carry-less products (R98) -/

/-- The sum of shifted words without carries, modulo their width. -/
theorem toNat_foldl_xor {w : Nat} (p : Nat → Bool) (x : BitVec w) (js : List Nat) {y : BitVec w} {n : Nat} (hy : y.toNat = n % 2 ^ w) :
    (js.foldl (fun r j => if p j then r ^^^ (x <<< j) else r) y).toNat =
      js.foldl (fun r j => if p j then r ^^^ (x.toNat * 2 ^ j) else r) n % 2 ^ w := by
  induction js generalizing y n with
  | nil => exact hy
  | cons j js ih =>
    refine ih ?_
    dsimp only
    split_ifs
    · rw [BitVec.toNat_xor, BitVec.toNat_shiftLeft, Nat.shiftLeft_eq, hy, Nat.xor_mod_two_pow]
    · exact hy

theorem toNat_clmul {w : Nat} (x : BitVec w) (n : Nat) (b : DWord) :
    ((List.range n).foldl (fun p j => if b.getLsbD j then p ^^^ (x <<< j) else p) 0).toNat = clmulVal n x.toNat b.toNat % 2 ^ w :=
  toNat_foldl_xor b.getLsbD x (List.range n) (n := 0) rfl

theorem clmulVal_of_lt {w v b : Nat} (a : Nat) (hb : b < 2 ^ w) (hv : w ≤ v) : clmulVal v a b = clmulVal w a b := by
  induction v, hv using Nat.le_induction with
  | base => rfl
  | succ v hv ih =>
    have hbit : b.testBit v = false := Nat.testBit_lt_two_pow (hb.trans_le (Nat.pow_le_pow_right (by decide) hv))
    rw [← ih]
    simp [clmulVal, List.range_succ, hbit]

theorem clmulVal_wide (t : Thread) (g : Group) (w64 : Bool) (a b : Src) :
    clmulVal (w64Bits w64) (srcNat t g (nregs64 w64) a) (srcNat t g (nregs64 w64) b) =
      clmulVal 64 (wideSrc t g w64 a).toNat (wideSrc t g w64 b).toNat := by
  rw [toNat_wideSrc, toNat_wideSrc, clmulVal_of_lt _ (srcNat_wide_lt t g w64 b) (w64Bits_le w64)]

theorem clmul_computes (c : Ctl) (w64 : Bool) (d : Reg) (a b : Src) : Computes (.clmul c w64 d a b) c (fun t g =>
    .reg d (wideWords w64 ((List.range 64).foldl (fun p j =>
      if (wideSrc t g w64 b).getLsbD j then p ^^^ (wideSrc t g w64 a <<< j) else p) 0))) := by
  refine computes_of_execAlu_eq (us := unitsFor d []) (f := fun t g => .nat d (nregs64 w64)
    (clmulVal (w64Bits w64) (srcNat t g (nregs64 w64) a) (srcNat t g (nregs64 w64) b) % 2 ^ w64Bits w64)) (fun _ => rfl) fun t g => ?_
  rw [clmulVal_wide, ← natWords_setWidth, BitVec.toNat_setWidth, toNat_clmul,
    Nat.mod_mod_of_dvd _ (Nat.pow_dvd_pow 2 (w64Bits_le w64))]
  rfl

theorem clmulh_computes (c : Ctl) (w64 : Bool) (d : Reg) (a b : Src) : Computes (.clmulh c w64 d a b) c (fun t g =>
    let v := if w64 then 64 else 32
    let prod := (List.range 64).foldl (fun (p : BitVec 128) j =>
      if (wideSrc t g w64 b).getLsbD j then p ^^^ ((wideSrc t g w64 a).setWidth 128 <<< j) else p) 0
    .reg d (wideWords w64 ((prod >>> v).setWidth 64))) := by
  refine computes_of_execAlu_eq (us := unitsFor d []) (f := fun t g => .nat d (nregs64 w64)
    (clmulVal (w64Bits w64) (srcNat t g (nregs64 w64) a) (srcNat t g (nregs64 w64) b) / 2 ^ w64Bits w64)) (fun _ => rfl) fun t g => ?_
  refine congrArg (Res.reg d) ((natWords_wide w64 _).trans (congrArg (wideWords w64) (BitVec.eq_of_toNat_eq ?_)))
  rw [clmulVal_wide, BitVec.toNat_setWidth, BitVec.toNat_ushiftRight, toNat_clmul, BitVec.toNat_setWidth_of_le (by decide),
    Nat.shiftRight_eq_div_pow, BitVec.toNat_ofNat]
  generalize clmulVal 64 (wideSrc t g w64 a).toNat (wideSrc t g w64 b).toNat = n
  cases w64
  · show n / 2 ^ 32 % 2 ^ 64 = n % 2 ^ 128 / 2 ^ 32 % 2 ^ 64
    omega
  · show n / 2 ^ 64 % 2 ^ 64 = n % 2 ^ 128 / 2 ^ 64 % 2 ^ 64
    omega

end Sys2Proof.Machine

open Sys2Proof Sys2Proof.Machine

/-- Settles O14, form by form: counts by their first set bit, a reversal bit by bit, and products modulo their width. -/
theorem countAndByteResults : Obligations.CountAndByteResults := by
  unfold Obligations.CountAndByteResults
  exact ⟨popc_computes, clz_computes, ctz_computes, brev_computes, bperm_computes, clmul_computes, clmulh_computes⟩

end

section
/-! PROOFS. Packed halves and conversions (R108 to R116, R120). -/

namespace Sys2Proof.Machine

set_option Elab.async false  -- theorem after theorem: every thread of a compile takes a stack of its own

/-! ### Packed halves (R108 to R110) -/

/-- An instruction of two packed sources computes both halves of its value by one scalar operation. -/
theorem computes_of_execH2 {i : Instr} {c : Ctl} {us : List Nat} {d : Reg} {a b : Src} {f : Nat → Nat → Nat × Fl}
    (h : ∀ s, exec i s = execH2 c us d a b f s) :
    Computes i c (fun t g => .fp d 1 (packed (fun x y _ => f x y) (srcH2 t g a) (srcH2 t g b) 0)) :=
  computes_of_execAlu h

/-- The predicates of both halves are combined as that of an integer comparison is (R85, R109). -/
theorem hcmp2_computes (c : Ctl) (bf : Bool) (cond : FCond) (bop : Bop) (q r : PDst) (a b : Src) (p : PSrc) :
    Computes (.hcmp2 c bf cond bop q r a b p) c (fun t g =>
      let lo := fCmp (hfOf bf) cond (srcH2 t g a % 2 ^ 16) (srcH2 t g b % 2 ^ 16)
      let hi := fCmp (hfOf bf) cond (srcH2 t g a / 2 ^ 16) (srcH2 t g b / 2 ^ 16)
      { preds := [(q.val, bopApply bop lo.1 (predOf t p)), (r.val, bopApply bop hi.1 (predOf t p))], fl := lo.2 ||| hi.2 }) := by
  simp only [← fbop_eq_bopApply]
  exact computes_of_execAlu (us := []) fun _ => rfl

/-! ### Conversions to integers (R113) -/

/-- A conversion to an integer delivers a pattern of the integer's width (R50). -/
theorem toInt_lt (v : FVal) (w : Nat) (un : Bool) (rm : Rnd) (sat : Bool) : (toInt v w un rm sat).1 < 2 ^ w := by
  have hpat : ∀ x : Int, (x % 2 ^ w).toNat < 2 ^ w := fun x => by
    have := Int.emod_lt_of_pos x (show (0 : Int) < 2 ^ w by positivity)
    rw [Int.toNat_lt (Int.emod_nonneg x (by positivity))]
    exact_mod_cast this
  unfold toInt
  cases v with
  | nan => exact Nat.two_pow_pos w
  | inf neg => dsimp only; split_ifs <;> exact hpat _
  | fin neg m e => dsimp only; split_ifs <;> exact hpat _

/-- The words of an integer result given by its pattern of the integer's width (R80, R113). -/
def patternWords (iw : Wd) (iu : Bool) (x : Nat) : List Word :=
  match iw with
  | .w64 => natWords 2 x
  | .w32 => natWords 1 x
  | .w16 => [if iu then BitVec.ofNat 32 x else (BitVec.ofNat 16 x).signExtend 32]
  | .w8 => [if iu then BitVec.ofNat 32 x else (BitVec.ofNat 8 x).signExtend 32]

theorem patternWords_eq (iw : Wd) (iu : Bool) {x : Nat} (hx : x < 2 ^ wdBits iw) :
    patternWords iw iu x = intWords ⟨iw, iu, false⟩ (x : Int) := by
  have hsmall : ∀ w, x < 2 ^ w → BitVec.ofNat 32 x = (BitVec.ofNat w x).setWidth 32 := fun w hw => by
    rw [← BitVec.ofNat_toNat, BitVec.toNat_ofNat, Nat.mod_eq_of_lt hw]
  cases iw with
  | w32 => simp [patternWords, natWords, intWords]
  | w64 => simp [patternWords, natWords_two, intWords]
  | w16 => simp [patternWords, intWords, hsmall 16 hx]
  | w8 => simp [patternWords, intWords, hsmall 8 hx]

theorem f2i_computes (c : Ctl) (sf : BitVec 4) (iw : Wd) (iu : Bool) (rm : Rnd) (sat : Bool) (d : Reg) (a : Src) :
    Computes (.f2i c sf iw iu rm sat d a) c (fun t g =>
      let r := toInt (decCode sf.toNat (srcFmt t g sf.toNat a)) (wdBits iw) iu (if iw = .w8 then .ra else rm) sat
      { regs := [(d, intWords ⟨iw, iu, false⟩ (r.1 : Int))], fl := r.2 }) := by
  simp only [← patternWords_eq iw iu (toInt_lt ..)]
  exact computes_of_execAlu (us := unitsFor d [5]) fun _ => rfl

end Sys2Proof.Machine

open Sys2Proof Sys2Proof.Machine

/-- Settles O16: each form is the shared meaning of class ALU with its own value of both halves, or of their sum. -/
theorem packedHalfResults : Obligations.PackedHalfResults := by
  unfold Obligations.PackedHalfResults
  refine ⟨fun c bf rm d a b => ?_, fun c bf rm d a b => ?_, fun c bf rm d a b e => ?_, fun c bf d a b => ?_, fun c bf d a b => ?_,
    hcmp2_computes, fun c bf rm d a b e => ?_⟩
  · exact computes_of_execH2 (us := [3]) (f := fAdd (hfOf bf) rm) fun _ => rfl
  · exact computes_of_execH2 (us := [4]) (f := fMul (hfOf bf) rm) fun _ => rfl
  · exact computes_of_execAlu (us := unitsFor d [3, 4]) fun _ => rfl
  · exact computes_of_execH2 (us := []) (f := fun x y => (fMin (hfOf bf) x y, 0)) fun _ => rfl
  · exact computes_of_execH2 (us := []) (f := fun x y => (fMax (hfOf bf) x y, 0)) fun _ => rfl
  · exact computes_of_execAlu (us := unitsFor d [3, 4]) fun _ => rfl

/-- Settles O17: each form is the shared meaning of class ALU with its own value, and an integer result is the words of its pattern. -/
theorem conversionResults : Obligations.ConversionResults := by
  unfold Obligations.ConversionResults
  refine ⟨fun c df sf rm sat d a => ?_, fun c df sf rm sat d a b x e => ?_, f2i_computes, fun c df iw iu rm sat d a => ?_,
    fun c f rm d a => ?_, fun c f rm d a n => ?_, fun c f4x rm d a => ?_⟩
  · exact computes_of_execAlu (us := unitsFor d [5]) fun _ => rfl
  · exact computes_of_execAlu (us := unitsFor d [5]) fun _ => rfl
  · exact computes_of_execAlu (us := unitsFor d [5]) fun _ => rfl
  · exact computes_of_execAlu (us := unitsFor d [5]) fun _ => rfl
  · exact computes_of_execAlu (us := unitsFor d [4]) fun _ => rfl
  · exact computes_of_execAlu (us := unitsFor d [6]) fun _ => rfl

end

section
/-! PROOFS. A PC group that is a whole cross-lane meeting: its threads arrive lane by lane (R140). -/

namespace Sys2Proof.Machine

set_option Elab.async false  -- theorem after theorem: every thread of a compile takes a stack of its own

/-! ### Tables and sets of lanes -/

theorem tfind_eq_some_iff {α : Type} {t : Tbl α} (h : Rising t) (z : Nat) (v : α) : tfind t z = some v ↔ (z, v) ∈ t :=
  ⟨mem_of_tfind, fun hm => tfind_of_mem h hm⟩

/-- Tables that read alike are the same table. -/
theorem Rising.ext {α : Type} {t u : Tbl α} (ht : Rising t) (hu : Rising u) (h : ∀ z, tfind t z = tfind u z) : t = u := by
  have hmem : ∀ p, p ∈ t ↔ p ∈ u := fun ⟨z, v⟩ => by rw [← tfind_eq_some_iff ht, ← tfind_eq_some_iff hu, h]
  have hperm : t.Perm u := (List.perm_ext_iff_of_nodup ht.keys_nodup.of_map hu.keys_nodup.of_map).2 hmem
  exact hperm.eq_of_pairwise (fun a b _ _ hab hba => absurd hab (Nat.lt_asymm hba)) ht hu

/-- The arrivals of lanes with operands `arr`, by lane. -/
def arrivals (arr : Nat → XArr) (ls : List Nat) : Tbl XArr := ls.foldl (fun a l => tset l (arr l) a) []

/-- Lanes counted as arrived. -/
def laneBits (ls : List Nat) : BitVec 64 := ls.foldl (fun b l => b ||| BitVec.ofNat 64 (2 ^ l)) 0

theorem arrivals_concat (arr : Nat → XArr) (ls : List Nat) (l : Nat) :
    arrivals arr (ls ++ [l]) = tset l (arr l) (arrivals arr ls) := List.foldl_concat ..

theorem laneBits_concat (ls : List Nat) (l : Nat) : laneBits (ls ++ [l]) = laneBits ls ||| BitVec.ofNat 64 (2 ^ l) :=
  List.foldl_concat ..

theorem arrivals_rising (arr : Nat → XArr) (ls : List Nat) : Rising (arrivals arr ls) := by
  induction ls using List.reverseRecOn with
  | nil => exact List.Pairwise.nil
  | append_singleton ls l ih => rw [arrivals_concat]; exact ih.tset l _

theorem tfind_arrivals (arr : Nat → XArr) (ls : List Nat) (z : Nat) :
    tfind (arrivals arr ls) z = if z ∈ ls then some (arr z) else none := by
  induction ls using List.reverseRecOn with
  | nil => rfl
  | append_singleton ls l ih =>
    rw [arrivals_concat, tfind_tset, ih]
    by_cases hz : z = l <;> simp [hz]

theorem getLsbD_laneBits (ls : List Nat) {i : Nat} (hi : i < 64) : (laneBits ls).getLsbD i = decide (i ∈ ls) := by
  induction ls using List.reverseRecOn with
  | nil => simp [laneBits]
  | append_singleton ls l ih =>
    rw [laneBits_concat, BitVec.getLsbD_or, ih, BitVec.getLsbD_ofNat, Nat.testBit_two_pow]
    simp [hi, eq_comm]

/-- What the lanes `ls` have brought, ascending where they are. -/
def gathered (arr : Nat → XArr) (ls : List Nat) : Tbl XArr := ls.map (fun l => (l, arr l))

theorem tfind_gathered (arr : Nat → XArr) {ls : List Nat} (h : ls.Pairwise (· < ·)) (z : Nat) :
    tfind (gathered arr ls) z = if z ∈ ls then some (arr z) else none := by
  have hr : Rising (gathered arr ls) := List.pairwise_map.2 h
  refine Option.ext fun v => ?_
  rw [tfind_eq_some_iff hr]
  split_ifs with hz
  · simp [gathered, hz]
  · simp [gathered, hz]

theorem lanesOf_gathered (arr : Nat → XArr) (ls : List Nat) : lanesOf (gathered arr ls) = ls := by
  simp [lanesOf, gathered, Function.comp_def]

theorem length_gathered (arr : Nat → XArr) (ls : List Nat) : (gathered arr ls).length = ls.length := List.length_map ..

theorem gathered_filter (arr : Nat → XArr) (ls : List Nat) (p : Nat × XArr → Bool) :
    (gathered arr ls).filter p = gathered arr (ls.filter (fun l => p (l, arr l))) := List.filter_map

/-- Lanes that arrive in any order stand in ascending order. -/
theorem arrivals_eq_gathered (arr : Nat → XArr) {ls ls' : List Nat} (h : ls'.Pairwise (· < ·))
    (hm : ∀ l, l ∈ ls ↔ l ∈ ls') : arrivals arr ls = gathered arr ls' :=
  (arrivals_rising arr ls).ext (List.pairwise_map.2 h) fun z => by simp only [tfind_arrivals, tfind_gathered arr h, hm]

theorem Lanes.list_sorted (x : Lanes) : x.list.Pairwise (· < ·) := List.pairwise_lt_range.filter _

theorem Lanes.mem_list {x : Lanes} {l : Nat} : l ∈ x.list ↔ l < 64 ∧ x.mask.getLsbD l = true := by simp [Lanes.list]

theorem laneOf_threadAt {co n l : Nat} (hl : l < 64) : laneOf (threadAt co n l) = l := by
  unfold laneOf threadAt slotsPerCore
  omega

theorem threadAt_inj {co n l l' : Nat} (h : threadAt co n l = threadAt co n l') : l = l' := by
  unfold threadAt at h
  omega

/-! ### Arrivals (R140) -/

/-- The open meeting in which the lanes `ls` have arrived with operands `arr`. -/
def meetingAt (g n : Nat) (pc : DWord) (half : Nat) (op : Instr) (degr : Bool) (arr : Nat → XArr) (ls : List Nat) : Cross :=
  ⟨g, n, pc, half, laneBits ls, arrivals arr ls, op, degr⟩

/-- It is open once a lane has arrived. -/
def openAt (g n : Nat) (pc : DWord) (half : Nat) (op : Instr) (degr : Bool) (arr : Nat → XArr) (ls : List Nat) : List Cross :=
  if ls = [] then [] else [meetingAt g n pc half op degr arr ls]

section
variable {g n half : Nat} {pc : DWord} {op : Instr} {degr : Bool} {arr : Nat → XArr} {ls : List Nat} {xs : List Cross}

@[simp] theorem meetingAt_isFor : (meetingAt g n pc half op degr arr ls).isFor g n pc half = true := by
  simp [meetingAt, Cross.isFor]

theorem find_openAt (h : xs.find? (fun x => x.isFor g n pc half) = none) :
    (xs ++ openAt g n pc half op degr arr ls).find? (fun x => x.isFor g n pc half) =
      if ls = [] then none else some (meetingAt g n pc half op degr arr ls) := by
  unfold openAt
  split_ifs <;> simp [h]

theorem filter_openAt (h : xs.find? (fun x => x.isFor g n pc half) = none) :
    (xs ++ openAt g n pc half op degr arr ls).filter (fun x => !x.isFor g n pc half) = xs := by
  have hxs : xs.filter (fun x => !x.isFor g n pc half) = xs := List.filter_eq_self.2 (by simpa using h)
  unfold openAt
  split_ifs <;> simp [hxs]

end

/-- Threads `ts` of the issuing PC group have come to the instruction and wait; `xs` is then open beside what was. -/
structure Arrived (s s' : State) (xs : List Cross) (ts : List Nat) : Prop where
  outer : outerState s' = outerState s
  groups : s'.groups = s.groups
  cores : ∀ c, s'.core c = if c = s.iss.core then { s.core c with cross := (s.core c).cross ++ xs } else s.core c
  threads : ∀ u, s'.thread u = if u ∈ ts then { s.thread u with run := .waiting .cross } else s.thread u
  listed : ∀ u, (tfind s'.threads u).isSome = (tfind s.threads u).isSome

/-- What a PC group that is a whole meeting brings to it: every thread's block is that of the meeting, and its mask that of the PC
group's lanes, or none at a QBLK, whose lanes are then a whole block. -/
structure Brings (s : State) (g half : Nat) (m : DWord) (block : Bool) (f : Thread → Group → XArr) : Prop where
  blocks : ∀ t ∈ s.iss.members, (if block then laneOf t / 32 else 2) = half
  masks : ∀ t ∈ s.iss.members, (f (s.thread t) (s.group g)).mask = if block then 0 else m
  lanes : block = true → half < 2 ∧ m.toNat = (2 ^ 32 - 1) * 2 ^ (32 * half)

/-- The operands of the thread in each lane. -/
def Lanes.operands (x : Lanes) (f : Thread → Group → XArr) (l : Nat) : XArr := f (x.thread l) x.group

/-- The meeting of a PC group when its lanes `ls` have arrived, with operands `f`. -/
abbrev Lanes.meeting (x : Lanes) (g n : Nat) (pc : DWord) (half : Nat) (op : Instr) (f : Thread → Group → XArr) (ls : List Nat) :
    Cross := meetingAt g n pc half op x.degr (x.operands f) ls

/-- What is open then: that meeting, once a lane has arrived. -/
abbrev Lanes.opens (x : Lanes) (g n : Nat) (pc : DWord) (half : Nat) (op : Instr) (f : Thread → Group → XArr) (ls : List Nat) :
    List Cross := openAt g n pc half op x.degr (x.operands f) ls

section
variable {s : State} {c : Ctl} {mask : Thread → Group → DWord} {g n half : Nat} {pc m : DWord}
  {us : List Nat} {block : Bool} {op : Instr} {f : Thread → Group → XArr}

theorem Gathered.lane (h : Gathered s c mask g n pc m half) {t : Nat} (ht : t ∈ s.iss.members) :
    laneOf t < 64 ∧ m.getLsbD (laneOf t) = true ∧ threadAt s.iss.core n (laneOf t) = t := by
  obtain ⟨l, hl, hb, rfl⟩ := (h.lanes t).1 ht
  rw [laneOf_threadAt hl]
  exact ⟨hl, hb, rfl⟩

theorem Gathered.mem_lanes (h : Gathered s c mask g n pc m half) (l : Nat) :
    l ∈ s.iss.members.map laneOf ↔ l ∈ (lanesOfTurn s g n m).list := by
  rw [Lanes.mem_list, List.mem_map]
  constructor
  · rintro ⟨t, ht, rfl⟩
    obtain ⟨hl, hb, -⟩ := h.lane ht
    exact ⟨hl, hb⟩
  · rintro ⟨hl, hb⟩
    exact ⟨_, (h.lanes _).2 ⟨l, hl, hb, rfl⟩, laneOf_threadAt hl⟩

/-- A thread whose lane is still to come arrives and waits. -/
theorem crossLane_arrives (h : Gathered s c mask g n pc m half) (hf : Brings s g half m block f) {s' : State} {t : Nat}
    (ht : t ∈ s.iss.members) (hinj : tfind (s'.core s.iss.core).inj 4 = none)
    (hseen : ∀ x, findCross s' s.iss.core g n pc half = some x → x.arrived.getLsbD (laneOf t) = false) :
    crossLane c us block op f s s' t =
      (arrive s' s.iss.core g n pc half (laneOf t) (some (f (s.thread t) (s.group g))) op).modThread t
        (fun y => { y with run := .waiting .cross }) := by
  obtain ⟨hgroup, hturn, hpc⟩ := h.group t ht
  obtain ⟨hguard, -⟩ := h.runs t ht
  obtain ⟨-, hbit, -⟩ := h.lane ht
  have hcore := h.core t ht
  have hopen : (match findCross s' s.iss.core g n pc half with
      | some x => x.arrived.getLsbD (laneOf t)
      | none => false) = false := by
    split
    · next x hx => exact hseen x hx
    · rfl
  have hmask : (!block && !(f (s.thread t) (s.group g)).mask.getLsbD (laneOf t)) = false := by
    cases block with
    | true => rfl
    | false => rw [hf.masks t ht, if_neg Bool.false_ne_true, hbit]; rfl
  unfold crossLane
  simp only [hcore, hgroup, hturn, hpc, hf.blocks t ht, hguard, hmask, injPipe_none (hcore ▸ hinj), checkerStruck_none h.clean,
    bankStruck_false h.clean, Bool.not_true, Bool.false_eq_true, if_false, Option.or_none, pipeTrap]
  exact if_neg (Bool.not_eq_true _ ▸ hopen)

/-- What an arrival leaves open. -/
theorem arrive_core (s : State) (co g n : Nat) (pc : DWord) (half l : Nat) (op : Instr) (arr : Nat → XArr) (ls : List Nat)
    {xs : List Cross} {degr : Bool} (hxs : xs.find? (fun x => x.isFor g n pc half) = none) (hd : (s.core co).degr = degr)
    (hc : (s.core co).cross = xs ++ openAt g n pc half op degr arr ls) (u : Nat) :
    (arrive s co g n pc half l (some (arr l)) op).core u = if u = co then
      { s.core co with cross := xs ++ openAt g n pc half op degr arr (ls ++ [l]) } else s.core u := by
  have hopen : ((xs ++ openAt g n pc half op degr arr ls).find? (fun x => x.isFor g n pc half)).getD
      ⟨g, n, pc, half, 0, [], op, degr⟩ = meetingAt g n pc half op degr arr ls := by
    rw [find_openAt hxs]
    split_ifs with h
    · rw [h]; rfl
    · rfl
  unfold arrive
  rw [core_modCore]
  simp only [hc, hd, hopen, filter_openAt hxs]
  simp only [openAt, List.append_eq_nil_iff, List.cons_ne_nil, and_false, if_false, meetingAt, laneBits_concat, arrivals_concat]

/-- A thread arrives. -/
theorem Arrived.crossLane (h : Gathered s c mask g n pc m half) (hf : Brings s g half m block f) {s' : State} {ts : List Nat}
    {t : Nat} (hts : ∀ u ∈ ts, u ∈ s.iss.members) (ht : t ∈ s.iss.members) (hnew : t ∉ ts)
    (ha : Arrived s s' ((lanesOfTurn s g n m).opens g n pc half op f (ts.map laneOf)) ts) :
    Arrived s (crossLane c us block op f s s' t) ((lanesOfTurn s g n m).opens g n pc half op f ((ts ++ [t]).map laneOf))
      (ts ++ [t]) := by
  obtain ⟨hlane, -, hat⟩ := h.lane ht
  have hnewLane : laneOf t ∉ ts.map laneOf := by
    rw [List.mem_map]
    rintro ⟨u, hu, hlu⟩
    obtain ⟨-, -, hatu⟩ := h.lane (hts u hu)
    rw [hlu, hat] at hatu
    exact hnew (hatu ▸ hu)
  have hco := ha.cores s.iss.core
  rw [if_pos rfl] at hco
  have hcross := congrArg Core.cross hco
  have hdegr : (s'.core s.iss.core).degr = (lanesOfTurn s g n m).degr := by rw [hco]; rfl
  have hseen : ∀ x, findCross s' s.iss.core g n pc half = some x → x.arrived.getLsbD (laneOf t) = false := by
    intro x hx
    unfold findCross at hx
    rw [hcross, find_openAt h.closed] at hx
    split_ifs at hx
    obtain rfl := Option.some.inj hx
    show (laneBits _).getLsbD _ = false
    rw [getLsbD_laneBits _ hlane]
    exact decide_eq_false hnewLane
  have hoperand : f (s.thread t) (s.group g) = (lanesOfTurn s g n m).operands f (laneOf t) := by
    show _ = f (s.thread (threadAt s.iss.core n (laneOf t))) (s.group g)
    rw [hat]
  rw [crossLane_arrives h hf ht (by rw [hco]; exact h.noInjector) hseen, hoperand, List.map_append]
  have hl : (tfind s'.threads t).isSome = true := (ha.listed t).trans (h.listed t ht)
  refine ⟨ha.outer, ha.groups, fun u => ?_, fun u => ?_, fun u => (listed_modThread ..).trans (ha.listed u)⟩
  · refine (arrive_core s' s.iss.core g n pc half (laneOf t) op _ (ts.map laneOf) h.closed hdegr hcross u).trans ?_
    split_ifs with hu
    · rw [hco, hu]; rfl
    · rw [ha.cores u, if_neg hu]
  · refine (thread_modThread _ t u _ hl).trans ?_
    show (if u = t then { s'.thread t with run := .waiting .cross } else s'.thread u) = _
    rw [ha.threads t, ha.threads u]
    by_cases hu : u = t
    · simp [hu, hnew]
    · simp [hu]

/-- All arrive, one after the other. -/
theorem Arrived.foldl (h : Gathered s c mask g n pc m half) (hf : Brings s g half m block f) (ms : List Nat) {ts : List Nat}
    {s' : State} (hm : s.iss.members = ts ++ ms)
    (ha : Arrived s s' ((lanesOfTurn s g n m).opens g n pc half op f (ts.map laneOf)) ts) :
    Arrived s (ms.foldl (Machine.crossLane c us block op f s) s')
      ((lanesOfTurn s g n m).opens g n pc half op f (s.iss.members.map laneOf)) s.iss.members := by
  induction ms generalizing ts s' with
  | nil => rwa [hm, List.append_nil]
  | cons t ms ih =>
    have hnew : t ∉ ts := fun hin => List.disjoint_of_nodup_append (hm ▸ h.nodup) hin (List.mem_cons_self ..)
    exact ih (by rw [hm, List.append_assoc]; rfl)
      (ha.crossLane h hf (fun u hu => by rw [hm]; exact List.mem_append_left _ hu) (by rw [hm]; simp) hnew)

end

end Sys2Proof.Machine

end

section
/-! PROOFS. A whole cross-lane meeting completes: its lanes retire, and their results wait to be written (R141). -/

namespace Sys2Proof.Machine

set_option Elab.async false  -- theorem after theorem: every thread of a compile takes a stack of its own

section
variable {s : State} {c : Ctl} {mask : Thread → Group → DWord} {g n half : Nat} {pc m : DWord}
  {us : List Nat} {block : Bool} {op : Instr} {f : Thread → Group → XArr}

/-! ### The meeting is full -/

theorem Gathered.active_eq (h : Gathered s c mask g n pc m half) (op : Instr) (f : Thread → Group → XArr) :
    ((lanesOfTurn s g n m).meeting g n pc half op f (s.iss.members.map laneOf)).active =
      gathered ((lanesOfTurn s g n m).operands f) (lanesOfTurn s g n m).list :=
  arrivals_eq_gathered _ (Lanes.list_sorted _) h.mem_lanes

theorem Gathered.arrived_eq (h : Gathered s c mask g n pc m half) (op : Instr) (f : Thread → Group → XArr) :
    ((lanesOfTurn s g n m).meeting g n pc half op f (s.iss.members.map laneOf)).arrived = m := by
  refine BitVec.eq_of_getLsbD_eq fun i hi => ?_
  show (laneBits _).getLsbD i = _
  rw [getLsbD_laneBits _ hi, Bool.eq_iff_iff, decide_eq_true_iff, h.mem_lanes, Lanes.mem_list]
  exact and_iff_right hi

theorem Gathered.operands_mask (h : Gathered s c mask g n pc m half) (hf : Brings s g half m block f) {l : Nat}
    (hl : l ∈ (lanesOfTurn s g n m).list) :
    ((lanesOfTurn s g n m).operands f l).mask = if block then 0 else m := by
  obtain ⟨hlt, hb⟩ := Lanes.mem_list.1 hl
  exact hf.masks _ ((h.lanes _).2 ⟨l, hlt, hb, rfl⟩)

theorem Gathered.list_ne_nil (h : Gathered s c mask g n pc m half) : (lanesOfTurn s g n m).list ≠ [] := by
  obtain ⟨t, ht⟩ := List.exists_mem_of_ne_nil _ h.some'
  exact List.ne_nil_of_mem ((h.mem_lanes (laneOf t)).1 (List.mem_map_of_mem ht))

theorem foldl_or_const {m : Nat} {ps : Tbl XArr} (hne : ps ≠ []) (hps : ∀ p ∈ ps, p.2.mask.toNat = m) :
    ps.foldl (fun k p => k ||| p.2.mask.toNat) 0 = m := by
  obtain ⟨p, ps, rfl⟩ := List.exists_cons_of_ne_nil hne
  rw [List.foldl_cons, hps p (List.mem_cons_self ..), Nat.zero_or]
  exact List.foldlRecOn ps _ (motive := (· = m)) rfl fun k hk q hq => by rw [hk, hps q (List.mem_cons_of_mem _ hq), Nat.or_self]

/-- It waits for the lanes of the PC group. -/
theorem Gathered.wants_eq (h : Gathered s c mask g n pc m half) (hf : Brings s g half m block f) (op : Instr) :
    crossWants ((lanesOfTurn s g n m).meeting g n pc half op f (s.iss.members.map laneOf)) = m.toNat := by
  unfold crossWants
  rw [h.active_eq]
  cases block with
  | true =>
    obtain ⟨hlt, hm⟩ := hf.lanes rfl
    exact (if_pos hlt).trans hm.symm
  | false =>
    have hhalf : half = 2 := by
      obtain ⟨t, ht⟩ := List.exists_mem_of_ne_nil _ h.some'
      exact (hf.blocks t ht).symm
    have hne : gathered ((lanesOfTurn s g n m).operands f) (lanesOfTurn s g n m).list ≠ [] := by
      simpa [gathered] using h.list_ne_nil
    refine (if_neg (by show ¬ half < 2; omega)).trans ((if_neg (by simpa using hne)).trans (foldl_or_const hne fun p hp => ?_))
    obtain ⟨l, hl, rfl⟩ := List.mem_map.1 hp
    rw [h.operands_mask hf hl]
    rfl

theorem Gathered.full (h : Gathered s c mask g n pc m half) (hf : Brings s g half m block f) (op : Instr) (s' : State) :
    crossFull s' ((lanesOfTurn s g n m).meeting g n pc half op f (s.iss.members.map laneOf)) = true := by
  unfold crossFull
  rw [h.wants_eq hf, h.arrived_eq, beq_iff_eq]
  refine Nat.eq_of_testBit_eq fun i => ?_
  rw [Nat.testBit_and, Nat.testBit_or]
  cases m.toNat.testBit i <;> rfl

/-! ### A lane is released -/

/-- A thread of a completed meeting retires, its result to be written later. -/
def released (s : State) (t left : Nat) (lead : Bool) (r : Res) : State := retireWaiter (lateRes s t left true lead r) t true

/-- The window of an instruction's result: how many more instructions of its thread may issue before it is written (R33). -/
def windowOf (op : Instr) : Nat := ((ctlOf op).map (·.la.val)).getD 0 + 1

/-- A meeting that is full, of one mask, closes, and its lanes are released in turn. -/
theorem settleCross_full {s : State} {co : Nat} {x : Cross} {arr : Nat → XArr} {ls : List Nat} {mk : DWord}
    (hfull : crossFull s x = true) (hact : x.active = gathered arr ls) (hmask : ∀ l ∈ ls, (arr l).mask = mk) :
    settleCross s co x =
      ls.foldl (fun s' l => released s' (threadAt co x.turn l) (windowOf x.op) (ls.head? == some l)
          (crossRes x.op (gathered arr ls) x.degr (32 * x.half) l (arr l)))
        (s.modCore co (fun y => { y with cross := y.cross.filter (fun z => !z.isFor x.group x.turn x.pc x.half) })) := by
  have hsame : (match gathered arr ls with
      | [] => true
      | (_, y) :: rest => rest.all (fun p => p.2.mask == y.mask)) = true := by
    cases ls with
    | nil => rfl
    | cons l ls =>
      refine List.all_eq_true.2 fun p hp => beq_iff_eq.2 ?_
      obtain ⟨i, hi, rfl⟩ := List.mem_map.1 hp
      exact (hmask i (List.mem_cons_of_mem l hi)).trans (hmask l (List.mem_cons_self ..)).symm
  unfold settleCross
  rw [hfull, hact, lanesOf_gathered]
  simp only [Bool.not_true, Bool.false_eq_true, if_false]
  rw [gathered, List.foldl_map, ← gathered]
  exact congrArg₂ (fun a b => List.foldl a b ls) (funext₂ fun s' l => if_pos hsame) rfl

theorem lateRes_core_ne (s : State) {t u : Nat} (left : Nat) (long lead : Bool) (r : Res) (hu : u ≠ coreOfThread t) :
    (lateRes s t left long lead r).core u = s.core u := by
  unfold lateRes freshId
  exact (core_modCore ..).trans (if_neg hu)

/-- Of the core's other parts a result that waits changes none. -/
theorem lateRes_coreRest (s : State) (t left : Nat) (long lead : Bool) (r : Res) :
    coreRest ((lateRes s t left long lead r).core (coreOfThread t)) = coreRest (s.core (coreOfThread t)) := by
  unfold lateRes freshId
  rw [core_modCore, if_pos rfl]
  rfl

theorem coreRest_windowStep (x : Core) (t : Nat) : coreRest (windowStep x t) = coreRest x :=
  congrArg (fun y : Core => { y with late := [] }) (coreBody_windowStep x t)

theorem released_core (s : State) (t left : Nat) (lead : Bool) (r : Res) (u : Nat) :
    (released s t left lead r).core u = if u = coreOfThread t then
      windowStep ((lateRes s t left true lead r).core (coreOfThread t)) t else s.core u := by
  show (((lateRes s t left true lead r).modThread t _).modCore (coreOfThread t) (fun x => windowStep x t)).core u = _
  rw [core_modCore]
  split_ifs with hu
  · rfl
  · exact lateRes_core_ne s left true lead r hu

theorem released_thread (s : State) {t : Nat} (left : Nat) (lead : Bool) (r : Res) (h : (tfind s.threads t).isSome = true) (u : Nat) :
    (released s t left lead r).thread u = if u = t then
      { (s.thread t).retired' ((s.thread t).pc + 16) with detHeld := false } else s.thread u := by
  have hT := retireTo_turned (lateRes s t left true lead r) t ((s.thread t).pc + 16) h
  have hret := hT.threads t
  rw [if_pos rfl] at hret
  show ((retireTo (lateRes s t left true lead r) t ((s.thread t).pc + 16)).modThread t _).thread u = _
  rw [thread_modThread _ t u _ ((hT.listed t).trans h), hT.threads u]
  split_ifs with hu
  · rw [hret, Bool.not_true, Bool.and_false]
    rfl
  · rfl

theorem released_listed (s : State) (t left : Nat) (lead : Bool) (r : Res) (u : Nat) :
    (tfind (released s t left lead r).threads u).isSome = (tfind s.threads u).isSome :=
  (listed_modThread ..).trans (listed_modThread ..)

theorem released_group (s : State) (t left : Nat) (lead : Bool) (r : Res) (g : Nat) :
    (released s t left lead r).group g = { s.group g with gc := ((released s t left lead r).group g).gc } :=
  gcEvent_group (((lateRes s t left true lead r).modThread t _).modCore (coreOfThread t) _) 2 t 1 g

/-- The thread's result joins the queue of its core, in which only windows change. -/
theorem released_late (s : State) (t left : Nat) (lead : Bool) (r : Res) :
    ∃ w : LateEntry → Nat, ((released s t left lead r).core (coreOfThread t)).late =
      ((lateRes s t left true lead r).core (coreOfThread t)).late.map (fun e => { e with left := w e }) := by
  refine ⟨fun e => if e.thread == t then e.left - 1 else e.left, ?_⟩
  rw [released_core, if_pos rfl]
  refine List.map_congr_left fun e _ => ?_
  dsimp only
  split_ifs <;> rfl

/-- A result that waits goes on waiting while its queue only grows and its windows close. -/
theorem ResultWaits.mono {s s' : State} {co t g : Nat} {lead : Bool} {r : Res} (h : ResultWaits s co t g lead r)
    (hs : ∀ e ∈ (s.core co).late, ∃ k, { e with left := k } ∈ (s'.core co).late) : ResultWaits s' co t g lead r := by
  obtain ⟨e, he, hrest⟩ := h
  obtain ⟨k, hk⟩ := hs e he
  exact ⟨_, hk, hrest⟩

/-- The thread's own result waits from then on. -/
theorem released_waits (s : State) (t left : Nat) (lead : Bool) (r : Res) :
    ResultWaits (released s t left lead r) (coreOfThread t) t (s.thread t).group lead r := by
  have hwaits : ResultWaits (lateRes s t left true lead r) (coreOfThread t) t (s.thread t).group lead r := by
    unfold ResultWaits
    rw [lateRes_late]
    exact ⟨_, List.mem_append_right _ (List.mem_singleton_self _), rfl, rfl, rfl, rfl, rfl, rfl⟩
  obtain ⟨w, hw⟩ := released_late s t left lead r
  exact hwaits.mono fun e he => ⟨w e, by rw [hw]; exact List.mem_map_of_mem he⟩

/-- Of a whole meeting the lanes `ls` have been released, each with its result `r`; its other threads still wait. -/
structure Released (s s' : State) (g n : Nat) (pc : DWord) (lead : Nat → Bool) (r : Nat → Res) (ls : List Nat) : Prop where
  outer : { outerState s' with nextId := 0 } = { outerState s with nextId := 0 }
  others : ∀ c, c ≠ s.iss.core → s'.core c = s.core c
  rest : coreRest (s'.core s.iss.core) = coreRest (s.core s.iss.core)
  late : (s'.core s.iss.core).late.length = (s.core s.iss.core).late.length + ls.length
  groups : ∀ g, s'.group g = { s.group g with gc := (s'.group g).gc }
  listed : ∀ u, (tfind s'.threads u).isSome = (tfind s.threads u).isSome
  retired : ∀ l ∈ ls, s'.thread (threadAt s.iss.core n l) = (s.thread (threadAt s.iss.core n l)).retired' (pc + 16)
  waiting : ∀ t ∈ s.iss.members, (∀ l ∈ ls, threadAt s.iss.core n l ≠ t) →
    s'.thread t = { s.thread t with run := .waiting .cross }
  threads : ∀ t, t ∉ s.iss.members → s'.thread t = s.thread t
  results : ∀ l ∈ ls, ResultWaits s' s.iss.core (threadAt s.iss.core n l) g (lead l) (r l)

/-- The next lane is released. -/
theorem Released.concat (h : Gathered s c mask g n pc m half) {s' : State} {lead : Nat → Bool} {r : Nat → Res} {ls : List Nat}
    {l : Nat} (hl : l ∈ (lanesOfTurn s g n m).list) (hnew : l ∉ ls) (left : Nat) (ha : Released s s' g n pc lead r ls) :
    Released s (released s' (threadAt s.iss.core n l) left (lead l) (r l)) g n pc lead r (ls ++ [l]) := by
  obtain ⟨hlt, hb⟩ := Lanes.mem_list.1 hl
  have hmem : threadAt s.iss.core n l ∈ s.iss.members := (h.lanes _).2 ⟨l, hlt, hb, rfl⟩
  have hcore := h.core _ hmem
  obtain ⟨hgroup, -, hpc⟩ := h.group _ hmem
  obtain ⟨-, hdet⟩ := h.runs _ hmem
  have hlisted := (ha.listed _).trans (h.listed _ hmem)
  have hne : ∀ i ∈ ls, threadAt s.iss.core n i ≠ threadAt s.iss.core n l := fun i hi he => hnew (threadAt_inj he ▸ hi)
  have hth := ha.waiting _ hmem hne
  have hlate := lateRes_late s' (threadAt s.iss.core n l) left true (lead l) (r l)
  obtain ⟨w, hw⟩ := released_late s' (threadAt s.iss.core n l) left (lead l) (r l)
  rw [hlate, hcore] at hw
  refine ⟨ha.outer, fun u hu => ?_, ?_, ?_, fun u => ?_, fun u => (released_listed ..).trans (ha.listed u), fun i hi => ?_,
    fun t ht hn => ?_, fun t ht => ?_, fun i hi => ?_⟩
  · rw [released_core, if_neg (by rwa [hcore]), ha.others u hu]
  · rw [released_core, if_pos hcore.symm, coreRest_windowStep, lateRes_coreRest, hcore, ha.rest]
  · rw [hw]
    simp [ha.late, Nat.add_assoc]
  · rw [released_group, ha.groups u]
  · rw [released_thread _ _ _ _ hlisted]
    rcases List.mem_append.1 hi with hi | hi
    · rw [if_neg (hne i hi), ha.retired i hi]
    · obtain rfl := List.mem_singleton.1 hi
      rw [if_pos rfl, hth, ← hpc]
      unfold Thread.retired'
      rw [← hdet]
  · rw [released_thread _ _ _ _ hlisted, if_neg (hn l (by simp)).symm]
    exact ha.waiting t ht fun i hi => hn i (List.mem_append_left _ hi)
  · rw [released_thread _ _ _ _ hlisted, if_neg (fun he : t = _ => ht (he ▸ hmem)), ha.threads t ht]
  · rcases List.mem_append.1 hi with hi | hi
    · refine (ha.results i hi).mono fun e he => ⟨w e, ?_⟩
      rw [hw]
      exact List.mem_map_of_mem (List.mem_append_left _ he)
    · obtain rfl := List.mem_singleton.1 hi
      have hwaits := released_waits s' (threadAt s.iss.core n i) left (lead i) (r i)
      rwa [hcore, hth, hgroup] at hwaits

/-! ### Every lane is released -/

/-- Each lane still to come is released in turn. -/
theorem Released.foldl (h : Gathered s c mask g n pc m half) {lead : Nat → Bool} {r : Nat → Res} (left : Nat) (ls : List Nat)
    {done : List Nat} {s' : State} (hl : (lanesOfTurn s g n m).list = done ++ ls) (ha : Released s s' g n pc lead r done) :
    Released s (ls.foldl (fun s' l => released s' (threadAt s.iss.core n l) left (lead l) (r l)) s') g n pc lead r
      (lanesOfTurn s g n m).list := by
  induction ls generalizing done s' with
  | nil => rwa [hl, List.append_nil]
  | cons l ls ih =>
    have hnew : l ∉ done := fun hin =>
      List.disjoint_of_nodup_append (hl ▸ (Lanes.list_sorted (lanesOfTurn s g n m)).nodup) hin (List.mem_cons_self ..)
    exact ih (by rw [hl, List.append_assoc]; rfl) (ha.concat h (by rw [hl]; simp) hnew left)

/-- What each lane of a whole meeting is given. -/
def Lanes.given (x : Lanes) (op : Instr) (half : Nat) (f : Thread → Group → XArr) (l : Nat) : Res :=
  crossRes op (gathered (x.operands f) x.list) x.degr (32 * half) l (x.operands f l)

/-- A whole meeting releases every lane of it. -/
theorem Arrived.settleCross (h : Gathered s c mask g n pc m half) (hf : Brings s g half m block f) {s' : State}
    (ha : Arrived s s' ((lanesOfTurn s g n m).opens g n pc half op f (s.iss.members.map laneOf)) s.iss.members) :
    Released s (settleCross s' s.iss.core ((lanesOfTurn s g n m).meeting g n pc half op f (s.iss.members.map laneOf))) g n pc
      (fun l => (lanesOfTurn s g n m).list.head? == some l) ((lanesOfTurn s g n m).given op half f) (lanesOfTurn s g n m).list := by
  rw [settleCross_full (h.full hf op s') (h.active_eq op f) fun l hl => h.operands_mask hf hl]
  refine Released.foldl h (windowOf op) _ (done := []) rfl ?_
  have hco : (s'.modCore s.iss.core (fun y => { y with cross := y.cross.filter (fun z => !z.isFor g n pc half) })).core s.iss.core =
      s.core s.iss.core := by
    rw [core_modCore, if_pos rfl, ha.cores, if_pos rfl]
    simp only [filter_openAt h.closed]
  refine ⟨congrArg (fun x : State => { x with nextId := 0 }) ha.outer, fun u hu => ?_, congrArg coreRest hco,
    congrArg (fun x : Core => x.late.length) hco, fun u => ?_, ha.listed, by simp, fun t ht _ => ?_, fun t ht => ?_, by simp⟩
  · exact (core_modCore ..).trans ((if_neg hu).trans ((ha.cores u).trans (if_neg hu)))
  · show (tfind s'.groups u).getD noGroup = { s.group u with gc := ((tfind s'.groups u).getD noGroup).gc }
    rw [ha.groups]
    rfl
  · exact (ha.threads t).trans (if_pos ht)
  · exact (ha.threads t).trans (if_neg ht)

/-- Once it has closed none is open there. -/
theorem Released.settleKey (h : Gathered s c mask g n pc m half) {s' : State} {lead : Nat → Bool} {r : Nat → Res} {ls : List Nat}
    (ha : Released s s' g n pc lead r ls) : settleKey s' s.iss.core g n pc half = s' := by
  have hcross : (s'.core s.iss.core).cross = (s.core s.iss.core).cross := (congrArg Core.cross ha.rest :)
  have hnone : findCross s' s.iss.core g n pc half = none := by
    unfold findCross
    rw [hcross]
    exact h.closed
  unfold Machine.settleKey
  rw [hnone]

/-- WHAT A CROSS-LANE INSTRUCTION DOES for a PC group that is a whole meeting. -/
theorem execCross_released (h : Gathered s c mask g n pc m half) (hf : Brings s g half m block f) :
    ∃ s', execCross c us block op f s = .next s' ∧ Released s s' g n pc (fun l => (lanesOfTurn s g n m).list.head? == some l)
      ((lanesOfTurn s g n m).given op half f) (lanesOfTurn s g n m).list := by
  have ha := Arrived.foldl (us := us) (op := op) h hf s.iss.members (ts := []) rfl
    ⟨rfl, rfl, fun u => by split_ifs with hu <;> simp [openAt], fun u => rfl, fun u => rfl⟩
  unfold execCross
  generalize s.iss.members.foldl (crossLane c us block op f s) s = s1 at ha ⊢
  have hkey : ∀ x, ∀ t ∈ s.iss.members, settleKey x (coreOfThread t) (s.thread t).group (turnOf t) (s.thread t).pc
      (if block then laneOf t / 32 else 2) = settleKey x s.iss.core g n pc half := fun x t ht => by
    obtain ⟨hgroup, hturn, hpc⟩ := h.group t ht
    rw [h.core t ht, hgroup, hturn, hpc, hf.blocks t ht]
  have hfirst : settleKey s1 s.iss.core g n pc half =
      settleCross s1 s.iss.core ((lanesOfTurn s g n m).meeting g n pc half op f (s.iss.members.map laneOf)) := by
    unfold settleKey findCross
    rw [ha.cores, if_pos rfl, find_openAt h.closed, if_neg (by simpa using h.some')]
  have hrel := ha.settleCross h hf
  rw [← hfirst] at hrel
  refine ⟨_, rfl, ?_⟩
  rw [List.foldl_ext _ _ _ hkey]
  obtain ⟨t, ts, hts⟩ := List.exists_cons_of_ne_nil h.some'
  rw [hts, List.foldl_cons, List.foldl_fixed' fun _ => hrel.settleKey h]
  exact hrel

theorem Released.onlyIssued {s' : State} {lead : Nat → Bool} {r : Nat → Res} {ls : List Nat}
    (ha : Released s s' g n pc lead r ls) : OnlyIssued s s' where
  outer := ha.outer
  cores u := by
    split_ifs with hu
    · rw [hu]; exact ha.rest
    · rw [ha.others u hu]
  groups := ha.groups
  threads := ha.threads

end

/-- A cross-lane instruction gives a whole meeting what its result is of the lanes and their operands. -/
theorem exchanges_of_execCross {i : Instr} {c : Ctl} {us : List Nat} {mask : Thread → Group → DWord} {f : Thread → Group → XArr}
    {r : Lanes → Nat → Res} (h : ∀ s, exec i s = execCross c us false i f s) (hmask : ∀ t g, (f t g).mask = mask t g)
    (hr : ∀ x l, x.given i 2 f l = r x l) : Exchanges i c 2 mask r := by
  intro s g n pc m hg
  have hf : Brings s g 2 m false f :=
    ⟨fun _ _ => rfl, fun t ht => (hmask ..).trans (hg.masks rfl t ht), fun hb => Bool.noConfusion hb⟩
  obtain ⟨s', he, ha⟩ := execCross_released (us := us) (op := i) hg hf
  refine ⟨s', (h s).trans he, ha.onlyIssued, ha.late, fun l hl hb => ?_⟩
  have hmem : l ∈ (lanesOfTurn s g n m).list := Lanes.mem_list.2 ⟨hl, hb⟩
  exact ⟨ha.retired l hmem, hr _ l ▸ ha.results l hmem⟩

end Sys2Proof.Machine

end

section
/-! PROOFS. What each lane of a completed meeting receives (R117, R118, R142 to R145). -/

namespace Sys2Proof.Machine

set_option Elab.async false  -- theorem after theorem: every thread of a compile takes a stack of its own

/-! ### Lanes read, and sets of lanes (R142, R144) -/

theorem Lanes.mask_iff (x : Lanes) (l : Nat) : x.mask.getLsbD l = true ↔ l ∈ x.list := by
  rw [Lanes.mem_list]
  exact ⟨fun h => ⟨BitVec.lt_of_getLsbD h, h⟩, And.right⟩

/-- What a lane receives is what the rule has it read. -/
theorem readLane_gathered (x : Lanes) {f : Thread → Group → XArr} {val : Thread → Group → DWord}
    (hval : ∀ t g, (f t g).a = val t g) (w l src : Nat) :
    readLane (gathered (x.operands f) x.list) x.degr w l (x.operands f l).a (some src) = x.reads val w l src := by
  have ha : ∀ i, (x.operands f i).a = val (x.thread i) x.group := fun i => hval ..
  unfold readLane Lanes.reads
  simp only [tfind_gathered _ x.list_sorted, gathered_filter, ← x.mask_iff]
  cases hs : x.mask.getLsbD src with
  | true => simp [ha]
  | false =>
    simp only [Bool.false_eq_true, if_false, gathered, List.getLast?_map]
    cases x.degr <;> cases (x.list.filter _).getLast? <;> simp [ha]

theorem ofNat_two_pow (l : Nat) : BitVec.ofNat 64 (2 ^ l) = 1#64 <<< l :=
  BitVec.eq_of_toNat_eq (by simp [Nat.shiftLeft_eq])

theorem laneBits_filter (p : Nat → Bool) (ls : List Nat) :
    laneBits (ls.filter p) = ls.foldl (fun y l => if p l then y ||| (1#64 <<< l) else y) 0 := by
  simp only [laneBits, List.foldl_filter, ofNat_two_pow]

/-- The sum of the powers of distinct lanes is their set. -/
theorem ofNat_sum_lanes {ls : List Nat} (hn : ls.Nodup) :
    BitVec.ofNat 64 (ls.foldl (fun x l => x + 2 ^ l) 0) = laneBits ls := by
  induction ls using List.reverseRecOn with
  | nil => rfl
  | append_singleton ls l ih =>
    obtain ⟨hls, -, hd⟩ := List.nodup_append.1 hn
    rw [List.foldl_concat, laneBits_concat, BitVec.ofNat_add, ih hls]
    refine BitVec.add_eq_or_of_and_eq_zero _ _ (BitVec.eq_of_getLsbD_eq fun i hi => ?_)
    rw [BitVec.getLsbD_and, getLsbD_laneBits _ hi, BitVec.getLsbD_ofNat, Nat.testBit_two_pow]
    by_cases hil : l = i
    · have : i ∉ ls := fun h => hd i h l (List.mem_singleton_self l) hil.symm
      simp [this]
    · simp [hil]

theorem ofNat_laneSet (arr : Nat → XArr) {ls : List Nat} (hn : ls.Nodup) (p : XArr → Bool) :
    BitVec.ofNat 64 (laneSet (gathered arr ls) p) = ls.foldl (fun y l => if p (arr l) then y ||| (1#64 <<< l) else y) 0 := by
  unfold laneSet
  rw [gathered_filter, gathered, List.foldl_map, ofNat_sum_lanes (hn.filter _), laneBits_filter]

theorem Lanes.laneBits_list (x : Lanes) : laneBits x.list = x.mask := by
  refine BitVec.eq_of_getLsbD_eq fun i hi => ?_
  rw [getLsbD_laneBits _ hi, Bool.eq_iff_iff, decide_eq_true_iff, x.mask_iff]

/-! ### Exchanges, polls, peers and leads (R142 to R144) -/

/-- What lane `l` receives by LXCH in its block of `w` lanes, and whether the lane it reads is active (R143). -/
def Lanes.exchanged (x : Lanes) (val : Thread → Group → DWord) (mode : XMode) (w l : Nat) (y : Word) : DWord × Bool :=
  let base := l - l % w
  match mode with
  | .idx => x.reads val w l (base + y.toNat % w)
  | .rot => x.reads val w l (base + (l % w + y.toNat) % w)
  | .bfly => x.reads val w l (l ^^^ (y.toNat % w))
  | .dist => if (base : Int) ≤ l + y.toInt ∧ (l : Int) + y.toInt < base + w then x.reads val w l ((l : Int) + y.toInt).toNat
    else (val (x.thread l) x.group, false)

theorem readLane_srcLane (x : Lanes) {f : Thread → Group → XArr} {val : Thread → Group → DWord}
    (hval : ∀ t g, (f t g).a = val t g) (mode : XMode) {k : Nat} (hk : k < 6) (l : Nat) (y : Word) :
    readLane (gathered (x.operands f) x.list) x.degr (segLanes k) l (x.operands f l).a (srcLane mode (segLanes k) l y) =
      x.exchanged val mode (segLanes k) l y := by
  have hread := readLane_gathered x hval (segLanes k) l
  unfold srcLane Lanes.exchanged
  cases mode with
  | idx => exact hread _
  | rot =>
    have hpos : l - (l - l % segLanes k) = l % segLanes k := Nat.sub_sub_self (Nat.mod_le ..)
    simp only [hpos, hread]
  | bfly =>
    have hw : segLanes k = 2 ^ (6 - k) := Nat.pow_div (show k ≤ 6 by omega) (by decide : 0 < 2)
    have hmod : y.toNat % 64 &&& (segLanes k - 1) = y.toNat % segLanes k := by
      rw [hw, Nat.and_two_pow_sub_one_eq_mod]
      exact Nat.mod_mod_of_dvd _ (Nat.pow_dvd_pow 2 (show 6 - k ≤ 6 by omega))
    simp only [hmod, hread]
  | dist =>
    dsimp only
    by_cases hin : ((l - l % segLanes k : Nat) : Int) ≤ l + y.toInt ∧ (l : Int) + y.toInt < (l - l % segLanes k : Nat) + segLanes k
    · rw [if_neg (by omega), if_pos hin]
      exact hread _
    · rw [if_pos (by omega), if_neg hin]
      exact congrArg (·, false) (hval ..)

theorem lxch_exchanges (c : Ctl) (w64 : Bool) (mode : XMode) (seg : Fin 6) (qe : Option PDst) (d : Reg) (a b m : Src) :
    Exchanges (.lxch c w64 mode seg qe d a b m) c 2 (fun t g => srcD t g m) (fun x l =>
      let r := x.exchanged (fun t g => wideSrc t g w64 a) mode (64 / 2 ^ seg.val) l (srcW (x.thread l) x.group b)
      { regs := [(d, wideWords w64 r.1)], preds := qe.toList.map (fun q => (q.val, r.2)) }) := by
  refine exchanges_of_execCross (us := unitsFor d [])
    (f := fun t g => ⟨srcD t g m, wideSrc t g w64 a, srcW t g b, false⟩) (fun _ => rfl) (fun _ _ => rfl) fun x l => ?_
  unfold Lanes.given
  simp only [crossRes]
  rw [readLane_srcLane x (val := fun t g => wideSrc t g w64 a) (fun _ _ => rfl) mode seg.isLt, natWords_toNat]
  cases qe <;> rfl

theorem lbcast_exchanges (c : Ctl) (w64 : Bool) (d : Reg) (a b m : Src) :
    Exchanges (.lbcast c w64 d a b m) c 2 (fun t g => srcD t g m) (fun x l =>
      .reg d (wideWords w64 (x.reads (fun t g => wideSrc t g w64 a) 64 l ((srcW (x.thread l) x.group b).toNat % 64)).1)) := by
  refine exchanges_of_execCross (us := unitsFor d [])
    (f := fun t g => ⟨srcD t g m, wideSrc t g w64 a, srcW t g b, false⟩) (fun _ => rfl) (fun _ _ => rfl) fun x l => ?_
  show Res.nat d (nregs64 w64) (BitVec.toNat (readLane ..).1) = _
  rw [readLane_gathered x (val := fun t g => wideSrc t g w64 a) fun _ _ => rfl, Res.nat, natWords_toNat]
  rfl

theorem llead_exchanges (c : Ctl) (hi : Bool) (q : PDst) (m : Src) :
    Exchanges (.llead c hi q m) c 2 (fun t g => srcD t g m) (fun x l =>
      { preds := [(q.val, (if hi then x.list.getLast? else x.list.head?) == some l)] }) := by
  refine exchanges_of_execCross (us := []) (f := fun t g => ⟨srcD t g m, 0, 0, false⟩) (fun _ => rfl) (fun _ _ => rfl) fun x l => ?_
  unfold Lanes.given
  simp only [crossRes, lanesOf_gathered]

/-- What a poll reads of each lane. -/
def pollArr (pa : PSrc) (m : Src) (t : Thread) (g : Group) : XArr := ⟨srcD t g m, 0, 0, predOf t pa⟩

/-- The polled predicate of lane `l`. -/
def Lanes.polled (x : Lanes) (pa : PSrc) (l : Nat) : Bool := predOf (x.thread l) pa

theorem any_eq_filter {α : Type} (p : α → Bool) (ls : List α) : (!(ls.filter p).isEmpty) = ls.any p := by
  rw [Bool.eq_iff_iff]
  simp

theorem all_eq_filter {α : Type} (p : α → Bool) (ls : List α) : ((ls.filter p).length == ls.length) = ls.all p := by
  rw [Bool.eq_iff_iff]
  simp [List.length_filter_eq_length_iff]

/-- An LPOLL answers about the lanes whose predicate holds, and how many there are (R144). -/
theorem lpoll_exchanges (c : Ctl) (form : PollForm) (pa : PSrc) (m : Src) :
    Exchanges (.lpoll c form pa m) c 2 (fun t g => srcD t g m) (fun x _ =>
      match form with
      | .any q => { preds := [(q.val, x.list.any (x.polled pa))] }
      | .all q => { preds := [(q.val, x.list.all (x.polled pa))] }
      | .uni q => { preds := [(q.val, x.list.all (x.polled pa) || !x.list.any (x.polled pa))] }
      | .count d => .reg d [BitVec.ofNat 32 (x.list.filter (x.polled pa)).length]
      | .mask d => .reg d (dwords (x.list.foldl (fun y l => if x.polled pa l then y ||| (1#64 <<< l) else y) 0))) := by
  refine exchanges_of_execCross (f := pollArr pa m) (fun _ => rfl) (fun _ _ => rfl) fun x l => ?_
  have hones : (gathered (x.operands (pollArr pa m)) x.list).filter (fun q => q.2.p) =
      gathered (x.operands (pollArr pa m)) (x.list.filter (x.polled pa)) := gathered_filter ..
  have hlen : ((gathered (x.operands (pollArr pa m)) x.list).filter (fun q => q.2.p)).length =
      (x.list.filter (x.polled pa)).length := by
    rw [hones, length_gathered]
  have hany : ((gathered (x.operands (pollArr pa m)) x.list).filter (fun q => q.2.p)).isEmpty = !x.list.any (x.polled pa) := by
    rw [← any_eq_filter, Bool.not_not, Bool.eq_iff_iff, List.isEmpty_iff_length_eq_zero, List.isEmpty_iff_length_eq_zero, hlen]
  have hall : (((gathered (x.operands (pollArr pa m)) x.list).filter (fun q => q.2.p)).length ==
      (gathered (x.operands (pollArr pa m)) x.list).length) = x.list.all (x.polled pa) := by
    rw [hlen, length_gathered, all_eq_filter]
  unfold Lanes.given
  cases form with
  | any q => simp only [crossRes]; rw [hany, Bool.not_not]
  | all q => simp only [crossRes]; rw [hall]
  | uni q => simp only [crossRes]; rw [hany, hall, Bool.or_comm]
  | count d => simp only [crossRes]; rw [hlen]; rfl
  | mask d =>
    simp only [crossRes, Res.nat, natWords_two, ofNat_laneSet _ x.list_sorted.nodup]
    rfl

theorem Lanes.ofNat_laneSet_all (x : Lanes) (arr : Nat → XArr) :
    BitVec.ofNat 64 (laneSet (gathered arr x.list) (fun _ => true)) = x.mask := by
  rw [← x.laneBits_list, ← ofNat_sum_lanes x.list_sorted.nodup, laneSet, gathered_filter, gathered, List.foldl_map,
    List.filter_true]

theorem lpeer_exchanges (c : Ctl) (w64 same : Bool) (d : Reg) (a m : Src) :
    Exchanges (.lpeer c w64 same d a m) c 2 (fun t g => srcD t g m) (fun x l =>
      let v := fun i => wideSrc (x.thread i) x.group w64 a
      .reg d (dwords (if same then (if x.list.all (fun i => v i == v l) then x.mask else 0)
        else x.list.foldl (fun y i => if v i == v l then y ||| (1#64 <<< i) else y) 0))) := by
  refine exchanges_of_execCross (us := unitsFor d []) (f := fun t g => ⟨srcD t g m, wideSrc t g w64 a, 0, false⟩) (fun _ => rfl)
    (fun _ _ => rfl) fun x l => ?_
  unfold Lanes.given
  cases same with
  | true =>
    simp only [crossRes, Res.nat, natWords_two, if_true, apply_ite (BitVec.ofNat 64), x.ofNat_laneSet_all]
    simp only [gathered, List.all_map]
    rfl
  | false =>
    simp only [crossRes, Res.nat, natWords_two, Bool.false_eq_true, if_false, ofNat_laneSet _ x.list_sorted.nodup]
    rfl

/-! ### Reductions (R145) -/

/-- The order in which words are least or greatest. -/
def wordLe (signed : Bool) (a b : Word) : Bool := if signed then a.sle b else a.ule b

theorem wordLe_eq (signed : Bool) (a b : Word) :
    wordLe signed a b = decide (intOf a.toNat 32 (!signed) ≤ intOf b.toNat 32 (!signed)) := by
  cases signed with
  | true => exact (BitVec.sle_eq_decide ..).trans (by rw [Bool.not_true, intOf_toNat, intOf_toNat])
  | false =>
    have hun : ∀ x : Word, intOf x.toNat 32 true = x.toNat := fun x => by
      unfold intOf
      rw [Nat.mod_eq_of_lt x.isLt]
      rfl
    rw [Bool.not_false, hun, hun, Bool.eq_iff_iff, decide_eq_true_iff, Int.ofNat_le]
    exact BitVec.ule_iff_le

/-- One step of an integer reduction of words. -/
def redStep (op : RedOp) (ty : RedTy) (a b : Word) : Word :=
  match op with
  | .add => a + b
  | .and => a &&& b
  | .or => a ||| b
  | .xor => a ^^^ b
  | .min => if wordLe (ty == .s32) a b then a else b
  | .max => if wordLe (ty == .s32) b a then a else b

/-- The word an integer reduction starts from. -/
def redStart (op : RedOp) (ty : RedTy) : Word :=
  match op with
  | .add | .or | .xor => 0
  | .and => BitVec.allOnes 32
  | .min => if ty = .s32 then 0x7FFFFFFF else BitVec.allOnes 32
  | .max => if ty = .s32 then 0x80000000 else 0

theorem reduced_eq_foldl (op : RedOp) (ty : RedTy) (xs : List Word) : reduced op ty xs = xs.foldl (redStep op ty) (redStart op ty) := by
  cases op <;> cases ty <;> rfl

/-- The start is neutral. -/
theorem redStep_start (op : RedOp) (ty : RedTy) (x : Word) : redStep op ty (redStart op ty) x = x := by
  cases op with
  | add => exact BitVec.zero_add x
  | and => exact BitVec.allOnes_and
  | or => exact BitVec.zero_or
  | xor => exact BitVec.zero_xor
  | min =>
    refine ite_eq_right_iff.2 fun h => ?_
    cases ty with
    | s32 => exact BitVec.eq_of_toInt_eq (le_antisymm (BitVec.sle_iff_toInt_le.1 h) x.toInt_le)
    | n32 | f32 =>
      have hle : 0xFFFFFFFF#32 ≤ x := BitVec.ule_iff_le.1 h
      show 0xFFFFFFFF#32 = x
      bv_omega
  | max =>
    refine ite_eq_right_iff.2 fun h => ?_
    cases ty with
    | s32 => exact BitVec.eq_of_toInt_eq (le_antisymm x.le_toInt (BitVec.sle_iff_toInt_le.1 h))
    | n32 | f32 =>
      have hle : x ≤ 0#32 := BitVec.ule_iff_le.1 h
      show 0#32 = x
      bv_omega

/-- It is the model's step on the words' numbers. -/
theorem toNat_redStep (op : RedOp) (ty : RedTy) (a b : Word) : (redStep op ty a b).toNat = redInt op ty a.toNat b.toNat := by
  cases op with
  | add => exact BitVec.toNat_add ..
  | and => exact BitVec.toNat_and ..
  | or => exact BitVec.toNat_or ..
  | xor => exact BitVec.toNat_xor ..
  | min | max => simp only [redStep, redInt, wordLe_eq, decide_eq_true_iff, apply_ite BitVec.toNat, ge_iff_le]

/-- Integers are reduced as words. -/
theorem redVals_int {ty : RedTy} (hty : ty ≠ .f32) (op : RedOp) (xs : List Word) :
    redVals op ty (xs.map (·.toNat)) = ((reduced op ty xs).toNat, 0) := by
  rw [reduced_eq_foldl]
  cases xs with
  | nil => cases op <;> cases ty <;> first | rfl | exact absurd rfl hty
  | cons x xs =>
    have hfold : ∀ a : Word, (xs.foldl (redStep op ty) a).toNat = (xs.map (·.toNat)).foldl (redInt op ty) a.toNat := by
      induction xs with
      | nil => exact fun _ => rfl
      | cons b xs ih => exact fun a => (ih _).trans (by rw [toNat_redStep]; rfl)
    rw [List.foldl_cons, redStep_start, hfold]
    cases ty with
    | f32 => exact absurd rfl hty
    | s32 | n32 => rfl

theorem srcF32_lt (t : Thread) (g : Group) (a : Src) : srcF32 t g a < 2 ^ 32 := by
  cases a with
  | v i => exact srcNat_lt t g 1 (.v i)
  | k i => exact srcNat_lt t g 1 (.k i)
  | c x =>
    have := x.isLt
    show x.toNat * 2 ^ 22 < 2 ^ 32
    omega

theorem ofNat_srcF32_toNat (t : Thread) (g : Group) (a : Src) : (BitVec.ofNat 64 (srcF32 t g a)).toNat = srcF32 t g a :=
  Nat.mod_eq_of_lt ((srcF32_lt t g a).trans (by decide))

/-- A value that is combined is a word. -/
theorem toNat_redArg (ty : RedTy) (t : Thread) (g : Group) (a : Src) : (redArg ty t g a).toNat = (lo32 (redArg ty t g a)).toNat := by
  have hlt : (if ty = .f32 then srcF32 t g a else srcNat t g 1 a) < 2 ^ 32 := by
    split_ifs
    · exact srcF32_lt t g a
    · exact srcNat_lt t g 1 a
  unfold redArg
  rw [lo32_ofNat, BitVec.toNat_ofNat, BitVec.toNat_ofNat, Nat.mod_eq_of_lt hlt, Nat.mod_eq_of_lt (hlt.trans (by decide))]

/-- The result of a reduction: a word, or for FP32 a value and its flags. -/
theorem redRes_eq (op : RedOp) (ty : RedTy) (d : Reg) (xs : List Word) :
    Res.fp d 1 (redVals op ty (xs.map (·.toNat))) =
      if ty = .f32 then Res.fp d 1 (redVals op ty (xs.map (·.toNat))) else .reg d [reduced op ty xs] := by
  split_ifs with hty
  · rfl
  · rw [redVals_int hty]
    show Res.mk [(d, [BitVec.ofNat 32 (reduced op ty xs).toNat])] [] 0 = _
    rw [BitVec.ofNat_toNat, BitVec.setWidth_eq]
    rfl

/-- What a reduction reads of each lane. -/
def redArr (ty : RedTy) (a m : Src) (t : Thread) (g : Group) : XArr := ⟨srcD t g m, redArg ty t g a, 0, false⟩

/-- The words that the lanes `ls` bring to a reduction. -/
def Lanes.redWords (x : Lanes) (ty : RedTy) (a : Src) (ls : List Nat) : List Word :=
  ls.map (fun i => lo32 (redArg ty (x.thread i) x.group a))

theorem redWords_gathered (x : Lanes) (ty : RedTy) (a m : Src) (ls : List Nat) :
    (gathered (x.operands (redArr ty a m)) ls).map (fun p => p.2.a.toNat) = (x.redWords ty a ls).map (·.toNat) := by
  rw [gathered, List.map_map, Lanes.redWords, List.map_map]
  exact List.map_congr_left fun i _ => toNat_redArg ..

theorem lred_exchanges (c : Ctl) (op : RedOp) (ty : RedTy) (d : Reg) (a m : Src) :
    Exchanges (.lred c op ty d a m) c 2 (fun t g => srcD t g m) (fun x _ =>
      let xs := x.redWords ty a x.list
      if ty = .f32 then .fp d 1 (redVals op ty (xs.map (·.toNat))) else .reg d [reduced op ty xs]) := by
  refine exchanges_of_execCross (us := unitsFor d (redUnits op ty)) (f := redArr ty a m) (fun _ => rfl) (fun _ _ => rfl) fun x l => ?_
  unfold Lanes.given
  simp only [crossRes, redWords_gathered]
  exact redRes_eq ..

theorem lscan_exchanges (c : Ctl) (op : RedOp) (ty : RedTy) (excl : Bool) (d : Reg) (a m : Src) :
    Exchanges (.lscan c op ty excl d a m) c 2 (fun t g => srcD t g m) (fun x l =>
      let xs := x.redWords ty a (x.list.filter (fun i => if excl then decide (i < l) else decide (i ≤ l)))
      if ty = .f32 then .fp d 1 (redVals op ty (xs.map (·.toNat))) else .reg d [reduced op ty xs]) := by
  refine exchanges_of_execCross (us := unitsFor d (redUnits op ty)) (f := redArr ty a m) (fun _ => rfl) (fun _ _ => rfl) fun x l => ?_
  unfold Lanes.given
  simp only [crossRes, gathered_filter, redWords_gathered]
  refine (redRes_eq ..).trans ?_
  cases excl <;> simp

/-! ### Block quantisation (R117, R118) -/

/-- What a QBLK reads of each lane. -/
def qblkArr (a : Src) (t : Thread) (g : Group) : XArr := ⟨0, BitVec.ofNat 64 (srcF32 t g a), 0, false⟩

/-- The value that lane `l` brings to its block. -/
def Lanes.element (x : Lanes) (a : Src) (l : Nat) : FVal := f32.dec (srcF32 (x.thread l) x.group a)

/-- The lanes of block `h`. -/
def blockMask (h : Nat) : DWord := (BitVec.allOnes 32).setWidth 64 <<< (32 * h)

theorem getLsbD_blockMask {h : Nat} (hh : h < 2) (l : Nat) : (blockMask h).getLsbD l = true ↔ l / 32 = h := by
  simp only [blockMask, BitVec.getLsbD_shiftLeft, BitVec.getLsbD_setWidth, BitVec.getLsbD_allOnes, Bool.and_eq_true,
    Bool.not_eq_true', decide_eq_true_iff, decide_eq_false_iff_not]
  omega

theorem toNat_blockMask {h : Nat} (hh : h < 2) : (blockMask h).toNat = (2 ^ 32 - 1) * 2 ^ (32 * h) := by
  interval_cases h <;> rfl

/-- The lowest lane of a block is its first. -/
theorem head_block {x : Lanes} {h : Nat} (hh : h < 2) (hm : x.mask = blockMask h) : x.list.head? = some (32 * h) := by
  unfold Lanes.list
  rw [hm]
  interval_cases h <;> decide

/-- What the lane of element `e` of the block `xs` receives: its code, and the block's scale and special value (R118, R119). -/
def blockRes (f4x nosp : Bool) (d : Reg) (xs : List FVal) (e : FVal) : Res :=
  let sc := qScale f4x xs
  let sp := qSpecial f4x nosp sc xs
  let code := qCode f4x sc sp e
  .fp d 1 (code.1 + sc * 2 ^ 8 + sp * 2 ^ 16, code.2)

/-- What lane `l` of block `h` receives. -/
def Lanes.quantized (x : Lanes) (f4x nosp : Bool) (d : Reg) (a : Src) (h l : Nat) : Res :=
  blockRes f4x nosp d ((List.range 32).map (fun i => x.element a (32 * h + i))) (x.element a l)

theorem given_qblk {x : Lanes} {h : Nat} (hh : h < 2) (hm : x.mask = blockMask h) (c : Ctl) (f4x nosp : Bool) (rm : Rnd) (d : Reg)
    (a : Src) (l : Nat) : x.given (.qblk c f4x nosp rm d a) h (qblkArr a) l = x.quantized f4x nosp d a h l := by
  have hel : ∀ i, f32.dec (x.operands (qblkArr a) i).a.toNat = x.element a i := fun i =>
    congrArg f32.dec (ofNat_srcF32_toNat ..)
  have hxs : (List.range 32).map (fun i => match tfind (gathered (x.operands (qblkArr a)) x.list) (32 * h + i) with
      | some y => f32.dec y.a.toNat
      | none => .fin false 0 0) = (List.range 32).map (fun i => x.element a (32 * h + i)) := by
    refine List.map_congr_left fun i hi => ?_
    have hin : 32 * h + i ∈ x.list := by
      rw [← x.mask_iff, hm, getLsbD_blockMask hh]
      have := List.mem_range.1 hi
      omega
    rw [tfind_gathered _ x.list_sorted, if_pos hin]
    exact hel _
  exact congrArg₂ (blockRes f4x nosp d) hxs (hel l)

/-- A QBLK of a whole block gives each of its lanes its code, scale and special value. -/
theorem qblk_quantizes (c : Ctl) (f4x nosp : Bool) (rm : Rnd) (d : Reg) (a : Src) {h : Nat} (hh : h < 2) {s : State} {g n : Nat}
    {pc : DWord} (hg : Gathered s c (fun _ _ => 0) g n pc (blockMask h) h) :
    ∃ s', exec (.qblk c f4x nosp rm d a) s = .next s' ∧ OnlyIssued s s' ∧ ∀ l, l < 64 → (blockMask h).getLsbD l = true →
      s'.thread (threadAt s.iss.core n l) = (s.thread (threadAt s.iss.core n l)).retired' (pc + 16) ∧
      ResultWaits s' s.iss.core (threadAt s.iss.core n l) g (l == 32 * h)
        ((lanesOfTurn s g n (blockMask h)).quantized f4x nosp d a h l) := by
  have hf : Brings s g h (blockMask h) true (qblkArr a) :=
    ⟨fun t ht => (getLsbD_blockMask hh _).1 (hg.lane ht).2.1, fun _ _ => rfl, fun _ => ⟨hh, toNat_blockMask hh⟩⟩
  obtain ⟨s', he, ha⟩ := execCross_released (us := unitsFor d [6]) (op := .qblk c f4x nosp rm d a) hg hf
  refine ⟨s', he, ha.onlyIssued, fun l hl hb => ?_⟩
  have hmem : l ∈ (lanesOfTurn s g n (blockMask h)).list := Lanes.mem_list.2 ⟨hl, hb⟩
  have hlead : ((lanesOfTurn s g n (blockMask h)).list.head? == some l) = (l == 32 * h) := by
    rw [head_block hh rfl, Bool.eq_iff_iff, beq_iff_eq, beq_iff_eq, Option.some.injEq, eq_comm]
  have hres := ha.results l hmem
  rw [given_qblk hh rfl] at hres
  exact ⟨ha.retired l hmem, hlead ▸ hres⟩

end Sys2Proof.Machine

open Sys2Proof Sys2Proof.Machine

/-- Settles O22: the PC group arrives lane by lane, its meeting is full with the last of them and releases them all; what each lane then
receives is read off the lanes of the meeting, instruction by instruction. -/
theorem crossLaneInstructionsExchange : Obligations.CrossLaneInstructionsExchange := by
  unfold Obligations.CrossLaneInstructionsExchange
  refine ⟨lxch_exchanges, lbcast_exchanges, fun c pa m => ?_, lpeer_exchanges, lred_exchanges, lscan_exchanges, llead_exchanges,
    fun c f4x nosp rm d a h m hh hm s g n pc hg => ?_⟩
  · exact ⟨fun q => lpoll_exchanges c (.any q) pa m, fun q => lpoll_exchanges c (.all q) pa m,
      fun q => lpoll_exchanges c (.uni q) pa m, fun d => lpoll_exchanges c (.count d) pa m, fun d => lpoll_exchanges c (.mask d) pa m⟩
  · subst hm
    exact qblk_quantizes c f4x nosp rm d a hh hg

end

section
/-! PROOFS. NOP, YIELD and SLEEP, and the ends of rests and sleeps (R135, R136). -/

namespace Sys2Proof.Machine

set_option Elab.async false  -- theorem after theorem: every thread of a compile takes a stack of its own

/-- A thread that the instruction leaves neither waiting nor with an issue to keep keeps none. -/
theorem keptDone_unheld {c : Ctl} {t : Nat} {s s' : State} (h : s.iss.members = [t]) (hr : keepsIssue (s'.thread t).run = false)
    (hh : (s'.thread t).held = none) : keptDone c t s s' = s' := by
  unfold keptDone keepIssue
  rw [if_neg (by rw [hr]; exact Bool.false_ne_true)]
  exact captureHeld_one h hh

/-- An instruction that acts and leaves its thread retired and ineligible. -/
theorem forOut_rests {c : Ctl} {s : State} {t : Nat} (h : Alone s t c) (r : State → RunState) (hr : keepsIssue (r s) = false) :
    forOut c [] (fun _ t s => .done ((retire s t).modThread t (fun x => { x with run := r s }))) s =
      .next ((retireTo s t ((s.thread t).pc + 16)).modThread t (fun x => { x with run := r s })) := by
  have hl : (tfind s.threads t).isSome = true := h.listed t (by rw [h.only]; exact List.mem_singleton_self t)
  have hT := retireTo_turned s t ((s.thread t).pc + 16) hl
  have hth := (thread_modThread _ t t (fun x => { x with run := r s }) ((hT.listed t).trans hl)).trans (if_pos rfl)
  rw [forOut_alone h]
  refine congrArg Host.Outcome.next (keptDone_unheld h.only ?_ ?_)
  · exact (congrArg (fun x : Thread => keepsIssue x.run) hth).trans hr
  · exact (congrArg Thread.held hth).trans (congrArg Thread.held ((hT.threads t).trans (if_pos rfl)))

/-- A thread that does not run is not eligible. -/
theorem eligOf_not_running {s : State} {t : Nat} (h : (s.thread t).run ≠ .running) : eligOf s t = .other := by
  unfold eligOf
  dsimp only
  rw [if_pos]
  simp [h]

end Sys2Proof.Machine

open Sys2Proof Sys2Proof.Machine

/-- Settles O20: YIELD and SLEEP retire and then rest, which is no wait that keeps an issue; the ends ask only for the clock. -/
theorem nopYieldAndSleep : Obligations.NopYieldAndSleep := by
  unfold Obligations.NopYieldAndSleep
  refine ⟨fun s t c h => ⟨forLanes_solo h.toSolo, ?_, fun n => ?_⟩, fun s t due => ⟨fun h => ?_, fun h => ?_, fun h => ?_⟩⟩
  · exact forOut_rests h (fun s => .resting (s.clock + 17)) rfl
  · exact forOut_rests h (fun s => if n = 0 then .resting (s.clock + 1) else .sleeping (s.clock + n.toNat + 1)) (by split_ifs <;> rfl)
  · exact eligOf_not_running (by rcases h with h | h <;> rw [h] <;> exact RunState.noConfusion)
  · show execSleepEnd t s = _
    unfold execSleepEnd
    rw [h]
  · show execYieldEnd t s = _
    unfold execYieldEnd
    rw [h]

end

section
/-! PROOFS. LDK, PRF, CLINE, OBJRD, OTSYNC and IPF of a thread alone (R138, R163, R167 to R170). -/

namespace Sys2Proof.Machine

set_option Elab.async false  -- theorem after theorem: every thread of a compile takes a stack of its own

/-! ### What checks and walks leave of a store buffer -/

/-- Capturing an entry fills the object cache alone (R156). -/
theorem capture_stores {s s1 : State} {c part idx e : Nat} (h : capture s c part idx = some (e, s1)) (x : Nat) :
    (s1.core x).stores = (s.core x).stores := by
  unfold capture at h
  split at h
  · cases h; rfl
  · split at h
    · cases h
    · split at h
      · cases h; rfl
      · split at h
        · cases h
        · obtain ⟨-, rfl⟩ := Prod.mk.inj (Option.some.inj h)
          rw [ocacheFill, core_modCore]
          split_ifs with hx
          · rw [hx]; rfl
          · rfl

/-- obj_check answers for the entry that it captures (R157). -/
theorem Checked.captured {s s1 : State} {t : Nat} {need : Rights} {m : MemOp} {size align e : Nat} {b : Bool} {a : Chk}
    (h : Checked s t need m size align b e a s1) :
    capture s (coreOfThread t) (s.partOf t) (objIdx (s.group (s.thread t).group) m.obj) = some (e, s1) := by
  unfold Checked objCheck at h
  dsimp only at h
  split at h
  · cases h
  · next e' s' hc =>
    cases h
    exact hc

theorem Checked.stores {s s1 : State} {t : Nat} {need : Rights} {m : MemOp} {size align e : Nat} {b : Bool} {a : Chk}
    (h : Checked s t need m size align b e a s1) (x : Nat) : (s1.core x).stores = (s.core x).stores := capture_stores h.captured x

/-- The table reads of a walk touch the recency of home slices alone. -/
theorem foldl_homeUse_cores (part : Nat) (as : List Nat) (s : State) : (as.foldl (fun s a => homeUse s part a) s).cores = s.cores :=
  foldl_keeps State.cores (f := fun s a => homeUse s part a) (fun _ _ => rfl) as s

/-- A walk fills the TLB alone (R363). -/
theorem walkNow_stores (s : State) (c part va x : Nat) : ((walkNow s c part va).core x).stores = (s.core x).stores := by
  have hreads := foldl_homeUse_cores part (walkPending s c part va) s
  unfold walkNow
  dsimp only
  split_ifs
  · rfl
  · rw [State.core, hreads]; rfl
  · split
    · rw [tlbFill, core_modCore]
      split_ifs with hx
      · rw [hx, State.core, hreads]; rfl
      · rw [State.core, hreads]; rfl
    · rw [State.core, hreads]; rfl

theorem ptrWalk_stores (s : State) (c part : Nat) (p : DWord) (x : Nat) : ((ptrWalk s c part p).core x).stores = (s.core x).stores := by
  unfold ptrWalk
  split_ifs
  · exact walkNow_stores ..
  · rfl

/-! ### What passes the checks -/

/-- An access whose checks pass, in scratch that is filled, goes on at its address (R157, R255). -/
theorem withObj_inb {s s1 : State} {t : Nat} {need : Rights} {m : MemOp} {size align e : Nat} {b : Bool} {addr : DWord}
    (h : Checked s t need m size align b e (.inb addr) s1) (hu : ptrUnfilled s1 (coreOfThread t) addr size = false)
    (oob : State → Lane) (f : DWord → State → Lane) : withObj s s t [1, 2] need m size align oob f b = f addr s1 := by
  unfold Checked at h
  unfold withObj
  simp only [h, hu, Bool.false_eq_true, if_false]

/-- A store with a free entry waits in the store buffer (R162); its PC group's access was numbered first. -/
theorem pushStore_numbered {s s1 : State} {t slot : Nat} (h : freeStoreSlot (s1.core (coreOfThread t)) = some slot) (acc : Access)
    (win : Option Nat) : storeOr s1 t (pushStore (numbered s) s1 t s.nextId acc win) = .retire (storeQueued s s1 t acc slot win) := by
  unfold pushStore
  rw [h]
  rfl

theorem freeStoreSlot_congr {x y : Core} (h : x.stores = y.stores) : freeStoreSlot x = freeStoreSlot y := by
  unfold freeStoreSlot
  rw [h]

/-! ### LDK (R163) -/

/-- LDK of a thread alone whose checks pass and whose address is walked, in `sw`: the bytes read at its place wait for its k registers. -/
theorem execLdk_alone {s s1 sw s2 : State} {t e : Nat} {c : Ctl} (h : Alone s t c) {sz : LdkSz} (d : KReg) {mem : MemOp} {addr : DWord}
    {loc : Loc} {bs : List Byte}
    (hc : Checked s t { r := true } mem (ldkBytes sz) (ldkBytes sz) false e (.inb addr) s1)
    (ho : accOrdered s (coreOfThread t) (s.partOf t) t s.nextId
      { kind := .load (ldkKind sz), ptr := addr, data := [], priv := s.privOf t } = true)
    (hu : ptrUnfilled s1 (coreOfThread t) addr (ldkBytes sz) = false) (hw : ptrWalkHeld s1 (coreOfThread t) (s.partOf t) addr = false)
    (hsw : ptrWalk s1 (coreOfThread t) (s.partOf t) addr = sw)
    (hr : resolve sw (coreOfThread t) (s.partOf t) (s.privOf t) addr needR = .ok loc)
    (hh : hbmHeld sw loc = false ∨ l1Serves sw (coreOfThread t) loc (ldkBytes sz) = true)
    (hf : readFault sw (coreOfThread t) t loc (ldkBytes sz) = none)
    (hn : readNow sw (coreOfThread t) t (s.partOf t) (heldAt (s.group (s.thread t).group) addr) c.ch loc (ldkBytes sz) = (bs, s2)) :
    exec (.ldk c sz d mem) s = .next (finishedNext t (resultWaits s2 c t (.reg (.k d) (natWords sz.nregs (leNat bs))))) := by
  have hlead : (leadOf s c).getD t = t := by rw [leadOf_solo h.toSolo]; rfl
  have hheld : (hbmHeld sw loc && !l1Serves sw (coreOfThread t) loc (ldkBytes sz)) = false := by
    rcases hh with hh | hh <;> simp [hh]
  unfold Checked at hc
  show execLdk c sz d mem s = _
  unfold execLdk
  rw [forOut_alone h]
  simp only [hlead, hc, h.only, List.filter_cons_of_pos, List.filter_nil, h.guard, List.all_cons, List.all_nil, ho, hu, hw, hsw, hr, hheld,
    hf, hn, Bool.and_true, Bool.not_true, Bool.or_false, Bool.false_eq_true, if_false, if_true]
  rfl

/-! ### PRF, OBJRD, OTSYNC (R167, R169, R170) -/

theorem execPrf_alone {s s1 : State} {t : Nat} {c : Ctl} (h : Alone s t c) {l2 got : Bool} {mem : MemOp}
    (hp : prfLine s s t l2 mem = (s1, got)) :
    exec (.prf c l2 mem) s = .next (finishedNext t
      (gcEvent (coreCount s1 (coreOfThread t) (if got then 0x17 else 0x18) 1) (if got then 0xB else 0xC) t 1)) := by
  show execPrf c l2 mem s = _
  unfold execPrf
  rw [forOut_alone h]
  simp only [hp]

theorem execObjrd_alone {s s1 : State} {t e : Nat} {c : Ctl} (h : Alone s t c) (hi : Bool) (d : VReg) {obj : ObjSel}
    (hc : capture s (coreOfThread t) (s.partOf t) (objIdx (s.group (s.thread t).group) obj) = some (e, s1)) :
    exec (.objrd c hi d obj) s = .next (finishedNext t (resultWaits s1 c t (.reg (.v d)
      (natWords 4 (if hi then e / 2 ^ 128 else e % 2 ^ 128))))) := by
  show execObjrd c hi d obj s = _
  unfold execObjrd
  rw [forOut_alone h]
  simp only [hc]
  rfl

/-! ### CLINE (R168) -/

/-- What a line operation does at its address, for a thread of the PC group that issued it as access `bt`. -/
def clineAt (c : Ctl) (op : ClineOp) (bt : Nat) (s0 : State) (t : Nat) (addr : DWord) (s : State) : Lane :=
  let co := coreOfThread t
  let part := s0.partOf t
  if ptrSpace addr = 4 then .trapA 0x27 addr
  else if ptrSpace addr = 0 then
    if ptrWalkHeld s co part addr then .hold (waitAgain s t)
    else
      match resolve (ptrWalk s co part addr) co part (s0.privOf t) addr (if op == .zero then needW else needR) with
      | .ok (.hbm pa) => storeOr (ptrWalk s co part addr) t (pushStore s0 (ptrWalk s co part addr) t bt
          { kind := .cline op pa, ptr := addr, data := [], priv := s0.privOf t } (some (c.la.val + 1)))
      | .ok _ => .retire (ptrWalk s co part addr)
      | .error f => .fail f addr
  else if op == .zero then storeOr s t (pushStore s0 s t bt
    { kind := .store 128, ptr := addr, data := List.replicate 32 0, priv := s0.privOf t } (some (c.la.val + 1)))
  else .retire s

theorem execCline_eq (c : Ctl) (op : ClineOp) (mem : MemOp) (s : State) :
    execCline c op mem s = forOut c (addrUnits mem.a) (fun s0 t s1 =>
      withObj s0 s1 t [1, 2] { r := op != .zero, w := op == .zero } mem (if op == .zero then 128 else 1) (if op == .zero then 128 else 1)
        (fun s2 => .retire s2) (clineAt c op s.nextId s0 t)) (numbered s) := rfl

/-- Bytes that a line operation checks: the line for .zero, else those of an access of one byte. -/
def clineSpan (op : ClineOp) : Nat := if op = .zero then 128 else 1

/-- The checks of a line operation of thread `t` pass at `addr`, where scratch is filled, and leave `s1`. -/
structure ClineChecked (s : State) (t : Nat) (op : ClineOp) (mem : MemOp) (e : Nat) (addr : DWord) (s1 : State) : Prop where
  checks : Checked (numbered s) t { r := op != .zero, w := op == .zero } mem (clineSpan op) (clineSpan op) false e (.inb addr) s1
  filled : ptrUnfilled s1 (coreOfThread t) addr (clineSpan op) = false

section
variable {s s1 : State} {t e : Nat} {c : Ctl} {op : ClineOp} {mem : MemOp} {addr : DWord}

theorem alone_numbered (h : Alone s t c) : Alone (numbered s) t c := h.numbered

/-- For a thread alone whose checks pass, that is all. -/
theorem execCline_checked (h : Alone s t c) (hc : ClineChecked s t op mem e addr s1) :
    exec (.cline c op mem) s = forOut c [] (fun _ _ _ => clineAt c op s.nextId (numbered s) t addr s1) (numbered s) := by
  have hspan : (if op == ClineOp.zero then 128 else 1) = clineSpan op := if_congr beq_iff_eq rfl rfl
  refine (execCline_eq c op mem s).trans ?_
  rw [forOut_alone (alone_numbered h), forOut_alone (alone_numbered h), hspan, withObj_inb hc.checks hc.filled]

theorem execCline_retires (h : Alone s t c) (hc : ClineChecked s t op mem e addr s1) {s' : State}
    (hl : clineAt c op s.nextId (numbered s) t addr s1 = .retire s') : exec (.cline c op mem) s = .next (finishedNext t s') := by
  rw [execCline_checked h hc, forOut_alone (alone_numbered h), hl]

/-- On a host window it traps BAD_SPACE. -/
theorem execCline_window (h : Alone s t c) (hc : ClineChecked s t op mem e addr s1) (h4 : ptrSpace addr = 4) :
    exec (.cline c op mem) s = .next (takeTrap (numbered s) t 0x27 0 addr 0 false) := by
  have hl : clineAt c op s.nextId (numbered s) t addr s1 = .trap 0x27 0 addr 0 false := if_pos h4
  have hcount : trapCount (numbered s) t 0x27 0 addr = numbered s := trapCount_other _ _ _ _ _ (by decide) (by decide)
  rw [execCline_checked h hc, forOut_alone (alone_numbered h), hl]
  simp only [hcount]

/-- In device memory it is translated and waits in the store buffer. -/
theorem clineAt_hbm {sw : State} {slot pa : Nat} (h0 : ptrSpace addr = 0) (hw : ptrWalkHeld s1 (coreOfThread t) (s.partOf t) addr = false)
    (hsw : ptrWalk s1 (coreOfThread t) (s.partOf t) addr = sw)
    (hr : resolve sw (coreOfThread t) (s.partOf t) (s.privOf t) addr (if op = .zero then needW else needR) = .ok (.hbm pa))
    (hs : freeStoreSlot (sw.core (coreOfThread t)) = some slot) :
    clineAt c op s.nextId (numbered s) t addr s1 = .retire (storeQueued s sw t
      { kind := .cline op pa, ptr := addr, data := [], priv := s.privOf t } slot (some (c.la.val + 1))) := by
  have hneed : (if op == ClineOp.zero then needW else needR) = if op = .zero then needW else needR := if_congr beq_iff_eq rfl rfl
  have hpart : (numbered s).partOf t = s.partOf t := rfl
  have hpriv : (numbered s).privOf t = s.privOf t := rfl
  unfold clineAt
  dsimp only
  rw [h0, hneed, hpart, hpriv, hw, hsw, hr, if_neg (by decide), if_pos rfl, if_neg Bool.false_ne_true]
  exact pushStore_numbered hs _ _

/-- Elsewhere .zero waits in the store buffer as a store of 128 zero bytes, and the others have no effect. -/
theorem clineAt_elsewhere {slot : Nat} (h0 : ptrSpace addr ≠ 0) (h4 : ptrSpace addr ≠ 4)
    (hs : freeStoreSlot (s1.core (coreOfThread t)) = some slot) :
    clineAt c op s.nextId (numbered s) t addr s1 = .retire (if op = .zero then storeQueued s s1 t
      { kind := .store 128, ptr := addr, data := List.replicate 32 0, priv := s.privOf t } slot (some (c.la.val + 1)) else s1) := by
  unfold clineAt
  rw [if_neg h4, if_neg h0]
  by_cases hz : op = .zero
  · rw [if_pos (beq_iff_eq.2 hz), if_pos hz]
    exact pushStore_numbered hs _ _
  · rw [if_neg (mt beq_iff_eq.1 hz), if_neg hz]

end

/-! ### IPF (R138) -/

theorem execIpf_alone {s : State} {t : Nat} {c : Ctl} (h : Alone s t c) (n : BitVec 8) (level : Fin 3) (imm : DWord) :
    let co := coreOfThread t
    let r := ipfLines s co (s.partOf t) level.val (s.privOf t) (((s.thread t).pc + imm).toNat / 128 * 128) (n.toNat + 1) 0
    exec (.ipf c n level imm) s = .next (finishedNext t
      (gcEvent (gcEvent (coreCount (coreCount r.1 co 0x15 r.2) co 0x16 (n.toNat + 1 - r.2)) 9 t r.2) 0xA t (n.toNat + 1 - r.2))) := by
  intro co r
  show execIpf c n level imm s = _
  unfold execIpf
  rw [forOut_alone h]
  simp only [leadOf_solo h.toSolo, beq_self_eq_true, if_true, h.only, List.filter_cons_of_pos, List.filter_nil, h.guard, List.foldl_cons,
    List.foldl_nil]
  rfl

end Sys2Proof.Machine

open Sys2Proof Sys2Proof.Machine

/-- Settles O28: each instruction for a thread alone, where its checks pass; a line operation is split by the space of its address. -/
theorem lineTableAndPrefetchInstructions : Obligations.LineTableAndPrefetchInstructions := by
  unfold Obligations.LineTableAndPrefetchInstructions
  refine ⟨fun s t c h => ⟨?_, fun l2 mem s1 got hp => execPrf_alone h hp, ?_, fun hi d obj e s1 hc => execObjrd_alone h hi d hc,
    forOut_alone h⟩, fun s t c n level imm h => execIpf_alone h n level imm⟩
  · intro sz d mem e addr s1 loc bs s2 hc ho hu hw sw hr hh hf hn
    exact execLdk_alone h d hc ho hu hw rfl hr hh hf hn
  · intro op mem e addr s1 slot hs hc hu
    have hok : ClineChecked s t op mem e addr s1 := ⟨hc, hu⟩
    have hslot : freeStoreSlot (s1.core (coreOfThread t)) = some slot := (freeStoreSlot_congr (hc.stores _)).trans hs
    refine ⟨fun pa h0 hw hr => execCline_retires h hok (clineAt_hbm h0 ?_ rfl hr ?_), execCline_window h hok,
      fun h0 h4 => execCline_retires h hok (clineAt_elsewhere h0 h4 hslot)⟩
    · rw [ptrWalkHeld, hw, Bool.and_false]
    · exact (freeStoreSlot_congr (ptrWalk_stores ..)).trans hslot

end

section
/-! PROOFS. Line operations on memory; the fills of caches and scratch ways, table walks, and records that were held back. -/

namespace Sys2Proof.Machine

set_option Elab.async false  -- theorem after theorem: every thread of a compile takes a stack of its own

/-! ### Line operations (R168) -/

/-- Memory with byte `i` of a line at its home, where that byte is dirty. -/
def putDirty (l : Nat) (ln : L1Line) (m : Mem) (i : Nat) : Mem :=
  if ln.dirty.getLsbD i then mset m (128 * l + i) (lineByte ln.data i) else m

theorem Mem.wf_putDirty {m : Mem} (h : m.wf = true) (l : Nat) (ln : L1Line) (i : Nat) : (putDirty l ln m i).wf = true := by
  unfold putDirty
  split_ifs
  · exact Mem.wf_mset h _ _
  · exact h

theorem mget_putDirty {m : Mem} (h : m.wf = true) (l : Nat) (ln : L1Line) (i a : Nat) : mget (putDirty l ln m i) a =
    if a = 128 * l + i ∧ ln.dirty.getLsbD i = true then lineByte ln.data (a - 128 * l) else mget m a := by
  unfold putDirty
  by_cases hd : ln.dirty.getLsbD i = true
  · rw [if_pos hd, mget_mset h]
    split_ifs with ha hc hc
    · rw [ha, Nat.add_sub_cancel_left]
    · exact absurd ⟨ha, hd⟩ hc
    · exact absurd hc.1 ha
    · rfl
  · rw [if_neg hd, if_neg fun hc => hd hc.2]

theorem mget_foldl_putDirty {m : Mem} (h : m.wf = true) (l : Nat) (ln : L1Line) (is : List Nat) (a : Nat) :
    mget (is.foldl (putDirty l ln) m) a =
      if ∃ i ∈ is, a = 128 * l + i ∧ ln.dirty.getLsbD i = true then lineByte ln.data (a - 128 * l) else mget m a := by
  induction is generalizing m with
  | nil => simp
  | cons i is ih =>
    rw [List.foldl_cons, ih (Mem.wf_putDirty h l ln i), mget_putDirty h, if_congr (List.exists_mem_cons_iff _ _ _) rfl rfl]
    by_cases hlater : ∃ j ∈ is, a = 128 * l + j ∧ ln.dirty.getLsbD j = true
    · rw [if_pos hlater, if_pos (Or.inr hlater)]
    · rw [if_neg hlater]
      exact if_congr (by simp [hlater]) rfl rfl

/-- The dirty bytes of a line reach the home, and no other byte changes there. -/
theorem mget_flushBytes {m : Mem} (h : m.wf = true) (l : Nat) (ln : L1Line) (a : Nat) :
    mget (flushBytes m l ln) a =
      if a / 128 = l ∧ ln.dirty.getLsbD (a % 128) = true then lineByte ln.data (a % 128) else mget m a := by
  refine (mget_foldl_putDirty h l ln (List.range 128) a).trans ?_
  have hiff : (∃ i ∈ List.range 128, a = 128 * l + i ∧ ln.dirty.getLsbD i = true) ↔ a / 128 = l ∧ ln.dirty.getLsbD (a % 128) = true := by
    constructor
    · rintro ⟨i, hi, rfl, hd⟩
      have hi := List.mem_range.1 hi
      rw [show (128 * l + i) % 128 = i by omega]
      exact ⟨by omega, hd⟩
    · rintro ⟨hl, hd⟩
      exact ⟨a % 128, List.mem_range.2 (Nat.mod_lt _ (by decide)), by omega, hd⟩
  rw [if_congr hiff rfl rfl]
  split_ifs with hc
  · rw [show a - 128 * l = a % 128 by omega]
  · rfl

/-- A line without dirty bytes leaves memory as it is. -/
theorem flushBytes_clean (m : Mem) (l : Nat) {ln : L1Line} (h : ln.dirty = 0) : flushBytes m l ln = m := by
  unfold flushBytes
  exact foldl_keeps id (fun m i => by simp [h]) _ m

theorem l1Flush_absent {s : State} {c l : Nat} (h : tfind (s.core c).l1d l = none) (part : Nat) : l1Flush s c part l = s := by
  unfold l1Flush
  rw [h]

/-- A line written back over bridges that are up has its dirty bytes in device memory. -/
theorem l1Flush_hbm {s : State} {c l : Nat} {ln : L1Line} (h : tfind (s.core c).l1d l = some ln) (hcut : homeCut s c l = false)
    (part : Nat) : (l1Flush s c part l).hbm = flushBytes s.hbm l ln := by
  unfold l1Flush
  simp only [h, hcut, Bool.or_false, decide_eq_true_eq]
  split_ifs with hd
  · exact (flushBytes_clean _ _ hd).symm
  · rfl

/-- It changes no other memory. -/
theorem l1Flush_memories (s : State) (c part l : Nat) : (l1Flush s c part l).bank = s.bank ∧ (l1Flush s c part l).host = s.host ∧
    (l1Flush s c part l).remote = s.remote := by
  unfold l1Flush
  split
  · split_ifs <;> exact ⟨rfl, rfl, rfl⟩
  · exact ⟨rfl, rfl, rfl⟩

/-- CLINE.wb: the dirty bytes of the line reach the home, and no other byte changes there. -/
theorem mget_clineWb {s : State} {c pa : Nat} (part : Nat) (h : s.hbm.wf = true) (hcut : homeCut s c (lineNo pa) = false) (a : Nat) :
    mget (clineAct s c part .wb pa).hbm a = match tfind (s.core c).l1d (a / 128) with
      | some ln => if a / 128 = pa / 128 ∧ ln.dirty.getLsbD (a % 128) = true then lineByte ln.data (a % 128) else mget s.hbm a
      | none => mget s.hbm a := by
  show mget (l1Flush s c part (lineNo pa)).hbm a = _
  cases hl : tfind (s.core c).l1d (lineNo pa) with
  | none =>
    rw [l1Flush_absent hl]
    by_cases ha : a / 128 = pa / 128
    · rw [ha, show tfind (s.core c).l1d (pa / 128) = none from hl]
    · split
      · rw [if_neg fun hc => ha hc.1]
      · rfl
  | some ln =>
    rw [l1Flush_hbm hl hcut, mget_flushBytes h]
    by_cases ha : a / 128 = pa / 128
    · rw [ha, show tfind (s.core c).l1d (pa / 128) = some ln from hl]
      rfl
    · rw [if_neg fun hc => ha hc.1]
      split
      · rw [if_neg fun hc => ha hc.1]
      · rfl

theorem wf_clineWb {s : State} {c pa : Nat} (part : Nat) (h : s.hbm.wf = true) (hcut : homeCut s c (lineNo pa) = false) :
    (clineAct s c part .wb pa).hbm.wf = true := by
  show (l1Flush s c part (lineNo pa)).hbm.wf = true
  cases hl : tfind (s.core c).l1d (lineNo pa) with
  | none => rw [l1Flush_absent hl]; exact h
  | some ln => rw [l1Flush_hbm hl hcut]; exact Mem.wf_flushBytes h _ _

/-- CLINE.zero: the line is zero at the home; scratch and the other memories are as they were. -/
theorem clineZero_leaves {s : State} (h : s.hbm.wf = true) (c part pa : Nat) :
    let s' := clineAct s c part .zero pa
    (∀ a, mget s'.hbm a = if a / 128 = pa / 128 then 0 else mget s.hbm a) ∧ s'.hbm.wf = true ∧
      s'.bank = s.bank ∧ s'.host = s.host ∧ s'.remote = s.remote ∧ ∀ x, (s'.core x).scratch = (s.core x).scratch := by
  intro s'
  have hscratch : ∀ x, (s'.core x).scratch = (s.core x).scratch := fun x =>
    (SameBytes.modCore (homeUse { s with hbm := mclear s.hbm (128 * lineNo pa) 128 } part pa) c
      (f := fun x => { x with l1d := tdel (lineNo pa) x.l1d }) fun _ => rfl).scratch x
  refine ⟨fun a => ?_, Mem.wf_mclear h _ _, rfl, rfl, rfl, hscratch⟩
  show mget (mclear s.hbm (128 * lineNo pa) 128) a = _
  rw [mget_mclear h]
  exact if_congr (by unfold lineNo; omega) rfl rfl

/-! ### The object cache (R156) -/

/-- A fill that a thread awaits, and that no stack holds. -/
structure FillsEntry (s : State) (core part idx : Nat) : Prop where
  lt : idx < 2 ^ 16
  awaited : fillAwaited s core part idx = true
  unheld : hbmHeld s (otLoc s part idx) = false

theorem execObjectCacheFill_awaited {s : State} {core part idx : Nat} (h : FillsEntry s core part idx) (err : Bool) :
    exec (.objectCacheFill core part idx err) s = .next (if err then s.modCore core (fun x => { x with obad := (part, idx) :: x.obad })
      else clearBad (ocacheFill s core part idx) core part idx) := by
  show execObjectCacheFill core part idx err s = _
  unfold execObjectCacheFill
  rw [Nat.mod_eq_of_lt h.lt]
  simp only [h.awaited, h.unheld, Bool.not_true, Bool.or_false, Bool.false_eq_true, if_false]
  cases err <;> rfl

/-- The table's entry comes in first, and is no longer reported as failed. -/
theorem filledEntry_core (s : State) (core part idx : Nat) : let x := (clearBad (ocacheFill s core part idx) core part idx).core core
    x.ocache.head? = some (part, idx, BitVec.ofNat 256 (tableEntry s part idx)) ∧ x.obad.contains (part, idx) = false := by
  intro x
  have hx : x = { (ocacheFill s core part idx).core core with
      obad := ((ocacheFill s core part idx).core core).obad.filter (· != (part, idx)) } :=
    (core_modCore _ core core _).trans (if_pos rfl)
  rw [hx, ocacheFill, core_modCore, if_pos rfl]
  refine ⟨rfl, ?_⟩
  rw [List.contains_eq_mem, decide_eq_false_iff_not, List.mem_filter]
  simp

/-! ### Walks (R363) -/

theorem walkNow_installs {s : State} {core part va pa : Nat} {e : Tlb} (hn : tlbFind s core part va = none)
    (hlink : walkLink s core part va = none) (hw : walk s part true va {} = .ok (pa, e)) :
    walkNow s core part va = tlbFill ((walkPending s core part va).foldl (fun s a => homeUse s part a) s) core e := by
  unfold walkNow
  simp only [hn, hlink, hw, Option.isSome_none, Bool.false_eq_true, if_false]

theorem execPageWalk_installs {s : State} {core part va pa : Nat} {e : Tlb} (hn : tlbFind s core part va = none)
    (hheld : walkHeld s core part va = false) (hlink : walkLink s core part va = none) (ha : walkAwaited s core part va = true)
    (hw : walk s part true va {} = .ok (pa, e)) :
    exec (.pageWalk core part va) s =
      .next (tlbFill ((walkPending s core part va).foldl (fun s a => homeUse s part a) s) core e) := by
  show execPageWalk core part va s = _
  unfold execPageWalk
  simp only [hn, hheld, ha, hw, Option.isSome_none, Bool.not_true, Bool.or_false, Bool.false_eq_true, if_false,
    walkNow_installs hn hlink hw]

theorem foldl_homeUse_sameBytes (part : Nat) (as : List Nat) (s : State) :
    SameBytes s (as.foldl (fun s a => homeUse s part a) s) := SameBytes.foldl (fun s a => SameBytes.homeUse s part a true) as s

/-! ### Instruction lines (R137) -/

/-- A line that no cache has comes from its home into all three. -/
theorem instrFill_l1i {s : State} {core line : Nat} (part : Nat) (h1 : tfind (s.core core).l1i line = none)
    (h2 : tfind (s.cluster (clusterOf core)).l2i line = none) (h3 : tfind (s.die (dieOfPa (128 * line))).l2i line = none) :
    tfind ((instrFill s core part line 0).core core).l1i line = some (homeLine s line) := by
  unfold instrFill
  simp only [h1, h2, h3, Nat.zero_le, if_true]
  rw [core_modCore, if_pos rfl]
  exact tfind_tset_self ..

theorem instrFill_leaves (s : State) (core part line : Nat) : (instrFill s core part line 0).hbm = s.hbm ∧
    (instrFill s core part line 0).threads = s.threads := by
  unfold instrFill
  simp only [Nat.zero_le, if_true]
  exact ⟨rfl, rfl⟩

theorem execInstructionLineFill_wanted {s : State} {core line t : Nat} {th : Thread} (hm : (t, th) ∈ s.threads)
    (hc : coreOfThread t = core) (hr : th.run ≠ .exited) (hf : fetchLineNo s t = some line)
    (h1 : tfind (s.core core).l1i line = none) (hheld : lineHeld s core line = false) (hfault : lineFault s core line = none) :
    exec (.instructionLineFill core line false) s =
      .next (instrFill (coreCount s core 0x1B 1) core (partOfCluster s (clusterOf core)) line 0) := by
  have hwanted : s.threads.any (fun p => coreOfThread p.1 == core && p.2.run != .exited && fetchLineNo s p.1 == some line) = true :=
    List.any_eq_true.2 ⟨(t, th), hm, by simp [hc, hr, hf]⟩
  show execInstructionLineFill core line false s = _
  unfold execInstructionLineFill
  simp only [hwanted, h1, hheld, hfault, Option.isSome_none, Bool.not_true, Bool.and_false, Bool.or_false, Bool.false_eq_true, if_false]

/-! ### Scratch ways (R254) -/

theorem core_setCore_self (s : State) (c : Nat) (x : Core) : (s.setCore c x).core c = x :=
  (core_modCore s c c fun _ => x).trans (if_pos rfl)

theorem fillWay_lowest {s : State} {core w : Nat} (hw : w < 12) (hu : (s.core core).unfilled.getLsbD w = true)
    (hl : ∀ v, v < w → (s.core core).unfilled.getLsbD v = false) : fillWay s core =
      s.setCore core { s.core core with unfilled := (s.core core).unfilled &&& ~~~(BitVec.ofNat 12 (2 ^ w)) } := by
  unfold fillWay
  have hfind : (List.range 12).find? (fun v => (s.core core).unfilled.getLsbD v) = some w :=
    List.find?_range_eq_some.2 ⟨hu, List.mem_range.2 hw, fun v hv => by rw [hl v hv]; rfl⟩
  simp only [hfind]

theorem getLsbD_clearWay (x : BitVec 12) {w v : Nat} (hw : w < 12) (hv : v < 12) :
    (x &&& ~~~(BitVec.ofNat 12 (2 ^ w))).getLsbD v = (x.getLsbD v && v != w) := by
  rw [BitVec.getLsbD_and, BitVec.getLsbD_not, BitVec.getLsbD_ofNat, Nat.testBit_two_pow]
  by_cases hvw : v = w
  · simp [hvw, hw]
  · simp [hvw, hv, Ne.symm hvw]

/-! ### Records (R351) -/

theorem execRecordRetry_one {s s1 : State} {part : Nat} {f : FRec} (h : (s.part part).heldRecs = [f]) (hw : ringWrite s part f = some s1) :
    exec (.recordRetry part) s = .next (s1.modPart part (fun p => { p with heldRecs := [] })) := by
  show execRecordRetry part s = _
  unfold execRecordRetry
  rw [h]
  show Host.Outcome.next (retryRecords s part 1) = _
  unfold retryRecords
  simp only [h, hw]
  rfl

end Sys2Proof.Machine

open Sys2Proof Sys2Proof.Machine

/-- Settles O31: the two line operations byte by byte of device memory; each fill, walk and retry is what its event does once nothing
stands against it. -/
theorem lineOperationsFillsAndWalks : Obligations.LineOperationsFillsAndWalks := by
  unfold Obligations.LineOperationsFillsAndWalks
  refine ⟨fun s c part pa h hcut => ⟨clineZero_leaves h c part pa, mget_clineWb part h hcut, wf_clineWb part h hcut, l1Flush_memories ..⟩,
    fun s core part idx hi ha hh => ?_, fun s core part idx hi ha hh => ?_, fun s core part va pa e hn hheld hlink ha hw => ?_,
    fun s core line t th hm hc hr hf h1 h2 h3 hheld hfault => ?_, fun s core w hw hu hl => ?_, fun s s1 part f => execRecordRetry_one⟩
  · obtain ⟨hcache, hbad⟩ := filledEntry_core s core part idx
    exact ⟨_, execObjectCacheFill_awaited ⟨hi, ha, hh⟩ false, hcache, hbad, rfl, rfl⟩
  · refine ⟨_, execObjectCacheFill_awaited ⟨hi, ha, hh⟩ true, ?_, rfl, rfl⟩
    rw [if_pos rfl, core_modCore, if_pos rfl]
    simp
  · have hreads := foldl_homeUse_sameBytes part (walkPending s core part va) s
    have hcore := fun x => congrArg (fun cs => (tfind cs x).getD {}) (foldl_homeUse_cores part (walkPending s core part va) s)
    refine ⟨_, execPageWalk_installs hn hheld hlink ha hw, ?_, fun x hx => ?_, hreads.hbm, hreads.threads⟩
    · rw [tlbFill, core_modCore, if_pos rfl]
      exact congrArg (fun x : Core => (e :: x.tlb).take 1024) (hcore core)
    · rw [tlbFill, core_modCore, if_neg hx]
      exact hcore x
  · obtain ⟨hhbm, hthreads⟩ := instrFill_leaves (coreCount s core 0x1B 1) core (partOfCluster s (clusterOf core)) line
    have h1' : tfind ((coreCount s core 0x1B 1).core core).l1i line = none := by
      rw [coreCount, core_modCore, if_pos rfl]
      exact h1
    exact ⟨_, execInstructionLineFill_wanted hm hc hr hf h1 hheld hfault, instrFill_l1i _ h1' h2 h3, hhbm, hthreads⟩
  · refine ⟨_, congrArg Host.Outcome.next (fillWay_lowest hw hu hl), ?_, fun v hv => ?_⟩
    · rw [core_setCore_self]
    · rw [core_setCore_self]
      exact getLsbD_clearWay _ hw hv

end

section
/-! PROOFS. JOINDROP, where a thread's armed barriers are not listed in their canonical form. -/

namespace Sys2Proof.Machine

set_option Elab.async false  -- theorem after theorem: every thread of a compile takes a stack of its own

/-- A thread that has armed j0 under number 2 and waits at its JOINWAIT. -/
def joinWaiter : Thread := { group := 1, tid := 1, run := .waiting (.join 0), j := [(0, ⟨0, 0x40, 2⟩)] }

/-- A running thread that has armed j0 with it, and lists it twice. -/
def joinDropper : Thread := { group := 1, tid := 0, j := [(0, ⟨0, 0x40, 2⟩), (0, ⟨0, 0x40, 2⟩)] }

/-- The part after reset, but that these two threads are placed, and the running one issues. -/
def joinListedTwice : State :=
  { State.reset with threads := [(0, joinDropper), (1, joinWaiter)], groups := [(1, noGroup)], iss := ⟨0, [0], [], 0, 0, none⟩ }

/-- No guard, no hint. -/
def unguarded : Ctl := ⟨0, ⟨7, false⟩, ⟨0, false⟩, .a, 0, .none⟩

theorem joinListedTwice_alone : Alone joinListedTwice 0 unguarded where
  nodup := by decide
  listed := by decide
  groups := by decide
  core := by decide
  fresh := rfl
  clean := rfl
  noInjector := by decide
  only := rfl
  guard := by decide
  unheld := rfl
  sfu := by decide

/-- The drop takes one of the two entries out: the thread is still a member, which runs, and the one that waits goes on waiting. -/
theorem joinListedTwice_waits :
    ∃ s', exec (.joindrop unguarded 0) joinListedTwice = .next s' ∧ (s'.thread 1).run = .waiting (.join 0) :=
  ⟨_, rfl, by decide⟩

end Sys2Proof.Machine

open Sys2Proof Sys2Proof.Machine

/-- Refutes O21: the clauses of an armed jN are stated of every table of a thread's armed barriers, one that lists jN twice among them.
The model keeps that table in rising order; of one that lists jN twice a JOINDROP takes one entry out, its thread still counts as a
member, and the members that wait at their JOINWAIT are not released. -/
theorem not_reconvergenceBarriersAndExit : ¬ Obligations.ReconvergenceBarriersAndExit := by
  unfold Obligations.ReconvergenceBarriersAndExit
  rintro ⟨hjoin, -⟩
  obtain ⟨-, -, harmed⟩ := hjoin joinListedTwice 0 unguarded 0 joinListedTwice_alone
  have hrising : Rising joinListedTwice.threads := by unfold Rising; decide
  obtain ⟨-, -, hrelease⟩ := harmed ⟨0, 0x40, 2⟩ rfl hrising
  obtain ⟨-, s', hs', -, -, hothers, -⟩ := hrelease (by decide)
  have hruns : (s'.thread 1).run = .running := congrArg Thread.run (hothers (1, joinWaiter) (by decide))
  obtain ⟨s'', hs'', hwaits⟩ := joinListedTwice_waits
  obtain rfl : s' = s'' := Host.Outcome.next.inj (hs'.symm.trans hs'')
  exact absurd (hruns.symm.trans hwaits) (by decide)

end

section
/-! PROOFS. The checks on a captured object entry (R152, R158, R164). -/

namespace Sys2Proof.Machine

set_option Elab.async false  -- theorem after theorem: every thread of a compile takes a stack of its own

/-- An entry grants what is needed where it has each right of it. -/
theorem Rights.granted_iff (n : Rights) (e : Nat) :
    n.granted e = true ↔ (n.r = true → oR e = true) ∧ (n.w = true → oW e = true) ∧ (n.a = true → oA e = true) := by
  simp only [Rights.granted, Bool.and_eq_true, Bool.or_eq_true, Bool.not_eq_true', ← Bool.not_eq_true, ← imp_iff_not_or, and_assoc]

section
variable {s : State} {c part e : Nat} {need : Rights} {am : AM} {o : Int} {out : Bool} {size align : Nat}

theorem checkEntry_invalid (h : entryValid s part (dieOfCore c) e = false) :
    checkEntry s c part e [1, 2] need am o out size align = .trap 0x20 0 := by
  unfold checkEntry
  rw [h]
  exact if_pos rfl

/-- A valid entry is checked for its type. -/
theorem checkEntry_valid (h : entryValid s part (dieOfCore c) e = true) :
    checkEntry s c part e [1, 2] need am o out size align =
      if ¬(oType e = 1 ∨ oType e = 2) then .trap 0x21 0
      else if need.granted e = false then .trap 0x22 0
      else if am = .el ∧ oEfmt e = 8 then .trap 0x23 0
      else if o < 0 ∨ o + size > oExtent e ∨ out = true then (if oBmode e = 0 then .trap 0x24 0 else .out)
      else if ptrSpace (oBase e + BitVec.ofInt 64 o) = 1 ∧ ptrOff (oBase e + BitVec.ofInt 64 o) + size > scratchSize (s.core c) then
        .trap 0x28 (oBase e + BitVec.ofInt 64 o)
      else if ptrOff (oBase e + BitVec.ofInt 64 o) % align ≠ 0 then .trap 0x25 (oBase e + BitVec.ofInt 64 o)
      else .inb (oBase e + BitVec.ofInt 64 o) := by
  unfold checkEntry
  simp only [h, List.contains_cons, List.contains_nil, Bool.or_false, Bool.not_eq_true', Bool.or_eq_false_iff, beq_eq_false_iff_ne, not_or,
    Bool.not_true, Bool.false_eq_true, if_false]

end

end Sys2Proof.Machine

open Sys2Proof Sys2Proof.Machine

/-- Settles O25: the checks of a valid entry, one branch after the other. -/
theorem objectChecksInOrder : Obligations.ObjectChecksInOrder := by
  unfold Obligations.ObjectChecksInOrder
  intro s c part e need am o out size align r addr
  refine ⟨checkEntry_invalid, fun hv => ?_⟩
  rw [show r = _ from checkEntry_valid hv]
  refine ⟨fun ht => if_pos (not_or.2 ht), fun ht => ?_⟩
  rw [if_neg (not_not.2 ht)]
  refine ⟨fun hn => if_pos ?_, fun hr hw ha => ?_⟩
  · rcases hn with ⟨hneed, hlacks⟩ | ⟨hneed, hlacks⟩ | ⟨hneed, hlacks⟩ <;> simp [Rights.granted, hneed, hlacks]
  have hgranted : need.granted e = true := (Rights.granted_iff need e).2 ⟨hr, hw, ha⟩
  rw [if_neg (by simp [hgranted])]
  refine ⟨fun hf => if_pos hf, fun hf => ?_⟩
  rw [if_neg hf]
  refine ⟨fun hout => if_pos hout, fun h0 hn hin => ?_⟩
  have hinside : ¬(o < 0 ∨ o + size > oExtent e ∨ out = true) := by simp only [hin, Bool.false_eq_true, or_false]; omega
  rw [if_neg hinside]
  refine ⟨fun hs => if_pos hs, fun hs => ?_⟩
  rw [if_neg hs]
  exact ⟨fun ha => if_pos ha, fun ha => if_neg (not_not.2 ha)⟩

end

section
/-! PROOFS. LD, LDS, LDG, ST, STS and STG of a thread alone (R159, R161, R162, R164, R166). -/

namespace Sys2Proof.Machine

set_option Elab.async false  -- theorem after theorem: every thread of a compile takes a stack of its own

/-! ### An instruction that retires or traps -/

section
variable {s s' : State} {t : Nat} {c : Ctl} {us : List Nat} {f : State → Nat → State → Lane}

theorem forOut_retires (h : Alone s t c) (hf : f s t s = .retire s') : forOut c us f s = .next (finishedNext t s') := by
  rw [forOut_alone h, hf]

/-- The traps of the checks on an address come from no uncorrectable error. -/
theorem forOut_traps (h : Alone s t c) {code : Nat} {addr : DWord} (hcode : 0x20 ≤ code ∧ code ≤ 0x29)
    (hf : f s t s = .trapA code addr) : forOut c us f s = .next (takeTrap s t code 0 addr 0 false) := by
  have hcount : trapCount s t code 0 addr = s := trapCount_other _ _ _ _ _ (by omega) (by omega)
  rw [forOut_alone h, hf]
  simp only [Lane.trapA, hcount]

end

/-! ### What the checks of an access come to -/

/-- The traps of obj_check are those of an object and its address (R158, R164). -/
theorem checkEntry_trap_code {s : State} {c part e : Nat} {types : List Nat} {need : Rights} {am : AM} {o : Int} {out : Bool}
    {size align code : Nat} {pre : Option Nat} {addr : DWord} (hpre : pre = none ∨ pre = some 0x27)
    (h : checkEntry s c part e types need am o out size align pre = .trap code addr) : 0x20 ≤ code ∧ code ≤ 0x29 := by
  have hother : ∀ n a, Chk.trap n a = .trap code addr → 0x20 ≤ n ∧ n ≤ 0x29 → 0x20 ≤ code ∧ code ≤ 0x29 := by
    rintro n a h hn
    obtain ⟨rfl, -⟩ := Chk.trap.inj h
    exact hn
  unfold checkEntry at h
  rcases hpre with rfl | rfl
  · dsimp only at h
    split_ifs at h <;> exact hother _ _ h (by decide)
  · dsimp only at h
    split_ifs at h <;> exact hother _ _ h (by decide)

section
variable {s s1 : State} {t : Nat} {need : Rights} {m : MemOp} {size align e : Nat} {b : Bool}

theorem Checked.trap_code {code : Nat} {addr : DWord} (h : Checked s t need m size align b e (.trap code addr) s1) :
    0x20 ≤ code ∧ code ≤ 0x29 := by
  unfold Checked objCheck at h
  dsimp only at h
  split at h
  · cases h
  · obtain ⟨-, h⟩ := Prod.mk.inj (Option.some.inj h)
    refine checkEntry_trap_code ?_ (Prod.mk.inj h).1
    split_ifs
    · exact .inr rfl
    · exact .inl rfl

/-- An access out of bounds under BMODE ZERO is counted (R159). -/
theorem withObj_out (h : Checked s t need m size align b e .out s1) (oob : State → Lane) (f : DWord → State → Lane) :
    withObj s s t [1, 2] need m size align oob f b = oob (countOob s1 t) := by
  unfold Checked at h
  unfold withObj
  simp only [h]

theorem withObj_trap {code : Nat} {addr : DWord} (h : Checked s t need m size align b e (.trap code addr) s1) (oob : State → Lane)
    (f : DWord → State → Lane) : withObj s s t [1, 2] need m size align oob f b = .trapA code addr := by
  unfold Checked at h
  unfold withObj
  simp only [h]

end

/-! ### Entries of the queues -/

/-- A load of the thread that writes the k registers of its PC group waits in the load queue; its PC group's access was numbered first. -/
theorem pushLoad_numbered (s s1 : State) (t : Nat) (c : Ctl) (acc : Access) (d : Reg) (nd : Nat) (aop : DWord) (idx : Nat) :
    pushLoad (numbered s) s1 t s.nextId c acc true d nd aop idx = loadQueued s s1 c t acc d nd aop idx := by
  cases d <;> rfl

/-- The bytes of an access out of bounds under BMODE ZERO are zero (R159). -/
theorem ldWords_zero (sz : LdSz) : ldWords sz (List.replicate (ldBytes sz) 0) = List.replicate sz.nregs 0 := by cases sz <;> decide

/-! ### LD and ST -/

section
variable {s s1 : State} {t e : Nat} {c : Ctl} {sz : LdSz} {d : VReg} {mem : MemOp}

theorem execLd_inb (h : Alone s t c) {addr : DWord}
    (hc : Checked (numbered s) t { r := true } mem (ldBytes sz) (ldBytes sz) false e (.inb addr) s1)
    (hu : ptrUnfilled s1 (coreOfThread t) addr (ldBytes sz) = false) :
    exec (.ld c sz d mem) s = .next (finishedNext t (loadQueued s s1 c t
      { kind := .load sz, ptr := addr, data := [], ch := c.ch, priv := s.privOf t, held := heldAt (s.group (s.thread t).group) addr } (.v d)
      sz.nregs (aopOf (s.thread t) (s.group (s.thread t).group) mem) (objIdx (s.group (s.thread t).group) mem.obj))) :=
  forOut_retires h.numbered (withObj_inb hc hu _ _)

theorem execLd_out (h : Alone s t c) (hc : Checked (numbered s) t { r := true } mem (ldBytes sz) (ldBytes sz) false e .out s1) :
    exec (.ld c sz d mem) s =
      .next (finishedNext t (resultWaits (countOob s1 t) c t (.reg (.v d) (List.replicate sz.nregs 0)))) := by
  rw [← ldWords_zero]
  exact forOut_retires h.numbered (withObj_out hc _ _)

theorem execLd_trap (h : Alone s t c) {code : Nat} {addr : DWord}
    (hc : Checked (numbered s) t { r := true } mem (ldBytes sz) (ldBytes sz) false e (.trap code addr) s1) :
    exec (.ld c sz d mem) s = .next (takeTrap (numbered s) t code 0 addr 0 false) :=
  forOut_traps h.numbered hc.trap_code (withObj_trap hc _ _)

end

section
variable {s s1 : State} {t e slot : Nat} {c : Ctl} {sz : StSz} {mem : MemOp} {b : Src}

theorem execSt_inb (h : Alone s t c) (hs : freeStoreSlot (s.core (coreOfThread t)) = some slot) {addr : DWord}
    (hc : Checked (numbered s) t { w := true } mem (stBytes sz) (stBytes sz) false e (.inb addr) s1)
    (hu : ptrUnfilled s1 (coreOfThread t) addr (stBytes sz) = false) :
    exec (.st c sz mem b) s = .next (finishedNext t (storeQueued s s1 t
      { kind := .store (stBytes sz), ptr := addr, data := srcWords (s.thread t) (s.group (s.thread t).group) sz.nregs b, ch := c.ch
        priv := s.privOf t } slot)) :=
  forOut_retires h.numbered ((withObj_inb hc hu _ _).trans (pushStore_numbered ((freeStoreSlot_congr (hc.stores _)).trans hs) _ _))

theorem execSt_out (h : Alone s t c) (hc : Checked (numbered s) t { w := true } mem (stBytes sz) (stBytes sz) false e .out s1) :
    exec (.st c sz mem b) s = .next (finishedNext t (countOob s1 t)) := forOut_retires h.numbered (withObj_out hc _ _)

theorem execSt_trap (h : Alone s t c) {code : Nat} {addr : DWord}
    (hc : Checked (numbered s) t { w := true } mem (stBytes sz) (stBytes sz) false e (.trap code addr) s1) :
    exec (.st c sz mem b) s = .next (takeTrap (numbered s) t code 0 addr 0 false) :=
  forOut_traps h.numbered hc.trap_code (withObj_trap hc _ _)

end

/-! ### LDS and STS: an offset in scratch (R164) -/

section
variable {s : State} {c a n x : Nat} {imm : Word}

theorem scratchAddr_inb (hx : (x : Int) = (a : Int) + imm.toInt) (hb : x + n ≤ scratchSize (s.core c)) (ha : x % n = 0) :
    scratchAddr s c a imm n = .ok x := by
  have hin : ¬((x : Int) < 0 ∨ (x : Int) + n > scratchSize (s.core c)) := by omega
  unfold scratchAddr
  dsimp only
  rw [← hx, if_neg hin, Int.toNat_natCast, if_neg (not_not.2 ha)]

theorem scratchAddr_out (h : (a : Int) + imm.toInt < 0 ∨ (scratchSize (s.core c) : Int) < a + imm.toInt + n) :
    scratchAddr s c a imm n = .error (.trapA 0x28 (BitVec.ofNat 64 (2 ^ 60 + (((a : Int) + imm.toInt) % 2 ^ 60).toNat))) := if_pos h

theorem scratchAddr_misaligned (hx : (x : Int) = (a : Int) + imm.toInt) (hb : x + n ≤ scratchSize (s.core c)) (ha : x % n ≠ 0) :
    scratchAddr s c a imm n = .error (.trapA 0x25 (BitVec.ofNat 64 (2 ^ 60 + x))) := by
  have hin : ¬((x : Int) < 0 ∨ (x : Int) + n > scratchSize (s.core c)) := by omega
  unfold scratchAddr
  dsimp only
  rw [← hx, if_neg hin, Int.toNat_natCast, if_pos ha]

end

/-- An access at an offset in scratch goes on there, or its check fails. -/
def atScratch (s : State) (t a : Nat) (imm : Word) (n : Nat) (f : Nat → Lane) : Lane :=
  match scratchAddr s (coreOfThread t) a imm n with
  | .error l => l
  | .ok x => if unfilledAt s (coreOfThread t) x n then .hold (waitAgain s t) else f x

theorem atScratch_inb {s : State} {t a n x : Nat} {imm : Word} (hx : (x : Int) = (a : Int) + imm.toInt)
    (hb : x + n ≤ scratchSize (s.core (coreOfThread t))) (ha : x % n = 0) (hu : unfilledAt s (coreOfThread t) x n = false)
    (f : Nat → Lane) : atScratch s t a imm n f = f x := by
  unfold atScratch
  rw [scratchAddr_inb hx hb ha]
  exact if_neg (ne_true_of_eq_false hu)

theorem atScratch_fails {s : State} {t a n : Nat} {imm : Word} {l : Lane} (h : scratchAddr s (coreOfThread t) a imm n = .error l)
    (f : Nat → Lane) : atScratch s t a imm n f = l := by
  unfold atScratch
  rw [h]

theorem execLds_eq (c : Ctl) (sz : LdSz) (d : VReg) (a : Src) (imm : Word) (s : State) :
    execLds c sz d a imm s = forOut c (addrUnits a) (fun s0 t s1 =>
      atScratch s1 t (srcNat (s0.thread t) (s0.group (s0.thread t).group) 1 a) imm (ldBytes sz) (fun x => .retire (pushLoad s0 s1 t s.nextId
        c { kind := .load sz, ptr := BitVec.ofNat 64 (2 ^ 60 + x), data := [] } true (.v d) sz.nregs
        (BitVec.ofNat 64 (srcNat (s0.thread t) (s0.group (s0.thread t).group) 1 a)) 0))) (numbered s) := rfl

theorem execSts_eq (c : Ctl) (sz : StSz) (a : Src) (imm : Word) (b : Src) (s : State) :
    execSts c sz a imm b s = forOut c (addrUnits a) (fun s0 t s1 =>
      atScratch s1 t (srcNat (s0.thread t) (s0.group (s0.thread t).group) 1 a) imm (stBytes sz) (fun x => storeOr s1 t (pushStore s0 s1 t
        s.nextId { kind := .store (stBytes sz), ptr := BitVec.ofNat 64 (2 ^ 60 + x)
                   data := srcWords (s0.thread t) (s0.group (s0.thread t).group) sz.nregs b } (some (c.la.val + 1))))) (numbered s) := rfl

/-! ### LDG and STG: a generic pointer (R166) -/

/-- An access at a generic pointer goes on there, or its check fails. -/
def atPointer (s : State) (t : Nat) (a p : DWord) (n : Nat) (l : Lane) : Lane :=
  match rawCheck s t a p n with
  | some l => l
  | none => if ptrUnfilled s (coreOfThread t) p n then .hold (waitAgain s t) else l

theorem atPointer_inb {s : State} {t n : Nat} {a p : DWord} (hp : rawCheck s t a p n = none)
    (hu : ptrUnfilled s (coreOfThread t) p n = false) (l : Lane) : atPointer s t a p n l = l := by
  unfold atPointer
  rw [hp]
  exact if_neg (ne_true_of_eq_false hu)

/-- A thread that is not privileged traps PRIVILEGE before any other check. -/
theorem atPointer_user {s : State} {t : Nat} (h : s.privOf t = false) (a p : DWord) (n : Nat) (l : Lane) :
    atPointer s t a p n l = .trapA 0x26 0 := by
  have hraw : rawCheck s t a p n = some (.trapC 0x26) := by
    unfold rawCheck
    rw [h]
    rfl
  unfold atPointer
  rw [hraw]
  rfl

theorem execLdg_eq (c : Ctl) (sz : LdSz) (d : VReg) (a : Reg) (imm : Word) (s : State) :
    execLdg c sz d a imm s = forOut c (unitsFor a [1]) (fun s0 t s1 =>
      let g := s0.group (s0.thread t).group
      let x := regD (s0.thread t) g a
      atPointer s1 t x (x + sxImm imm) (ldBytes sz) (.retire (pushLoad s0 s1 t s.nextId c
        { kind := .load sz, ptr := x + sxImm imm, data := [], ch := c.ch, priv := true, held := heldAt g (x + sxImm imm) }
        true (.v d) sz.nregs x 0))) (numbered s) := rfl

theorem execStg_eq (c : Ctl) (sz : StSz) (a : Reg) (imm : Word) (b : Src) (s : State) :
    execStg c sz a imm b s = forOut c (unitsFor a [1]) (fun s0 t s1 =>
      let g := s0.group (s0.thread t).group
      let x := regD (s0.thread t) g a
      atPointer s1 t x (x + sxImm imm) (stBytes sz) (storeOr s1 t (pushStore s0 s1 t s.nextId
        { kind := .store (stBytes sz), ptr := x + sxImm imm, data := srcWords (s0.thread t) g sz.nregs b, ch := c.ch, priv := true })))
      (numbered s) := rfl

end Sys2Proof.Machine

open Sys2Proof Sys2Proof.Machine

/-- Settles O26: each load by its lane function, where its checks pass and where they fail. -/
theorem loadsIssue : Obligations.LoadsIssue := by
  unfold Obligations.LoadsIssue
  intro s t c sz d h th g co n
  have hn := alone_numbered h
  refine ⟨fun mem e addr s1 hc hu => execLd_inb h hc hu, fun mem e s1 hc => execLd_out h hc,
    fun mem e code addr s1 hc => execLd_trap h hc, fun a imm x hx hb ha hu => ?_, fun a imm hout => ?_,
    fun a imm x hx hb ha => ?_, fun a imm hp hu => ?_, fun a imm hp => ?_⟩
  · exact (execLds_eq ..).trans (forOut_retires hn (atScratch_inb (s := numbered s) hx hb ha hu _))
  · exact (execLds_eq ..).trans (forOut_traps hn (by decide) (atScratch_fails (scratchAddr_out (s := numbered s) hout) _))
  · exact (execLds_eq ..).trans (forOut_traps hn (by decide) (atScratch_fails (scratchAddr_misaligned (s := numbered s) hx hb ha) _))
  · exact (execLdg_eq ..).trans (forOut_retires hn (atPointer_inb (s := numbered s) hp hu _))
  · exact (execLdg_eq ..).trans (forOut_traps hn (by decide) (atPointer_user (s := numbered s) hp _ _ _ _))

/-- Settles O27: each store by its lane function, where its checks pass and where they fail. -/
theorem storesIssue : Obligations.StoresIssue := by
  unfold Obligations.StoresIssue
  intro s t c sz b slot h hs th g co n
  have hn := alone_numbered h
  refine ⟨fun mem e addr s1 hc hu => execSt_inb h hs hc hu, fun mem e s1 hc => execSt_out h hc,
    fun mem e code addr s1 hc => execSt_trap h hc, fun a imm x hx hb ha hu => ?_, fun a imm hout => ?_,
    fun a imm x hx hb ha => ?_, fun a imm hp hu => ?_, fun a imm hp => ?_⟩
  · exact (execSts_eq ..).trans (forOut_retires hn
      ((atScratch_inb (s := numbered s) hx hb ha hu _).trans (pushStore_numbered (s1 := numbered s) hs _ _)))
  · exact (execSts_eq ..).trans (forOut_traps hn (by decide) (atScratch_fails (scratchAddr_out (s := numbered s) hout) _))
  · exact (execSts_eq ..).trans (forOut_traps hn (by decide) (atScratch_fails (scratchAddr_misaligned (s := numbered s) hx hb ha) _))
  · exact (execStg_eq ..).trans (forOut_retires hn
      ((atPointer_inb (s := numbered s) hp hu _).trans (pushStore_numbered (s1 := numbered s) hs _ _)))
  · exact (execStg_eq ..).trans (forOut_traps hn (by decide) (atPointer_user (s := numbered s) hp _ _ _ _))

end

section
/-! PROOFS. Atomics, BANKOP and BANKRED of a thread alone at issue (R171, R172, R174 to R179). -/

namespace Sys2Proof.Machine

set_option Elab.async false  -- theorem after theorem: every thread of a compile takes a stack of its own

/-! ### Instructions that a PC group performs together -/

section
variable {s s' : State} {t : Nat} {c : Ctl} {us : List Nat} {ready : State → Nat → Bool} {wait : State → Nat → State}
  {f : State → Nat → State → Lane}

theorem forOut_gated_retires (h : Alone s t c) (hr : ready s t = true) (hf : f s t s = .retire s') :
    forOut c us (gated c ready wait f) s = .next (finishedNext t s') :=
  forOut_retires h ((gated_solo h.toSolo hr).trans hf)

theorem forOut_gated_traps (h : Alone s t c) {code : Nat} {addr : DWord} (hcode : 0x20 ≤ code ∧ code ≤ 0x29)
    (hf : f s t s = .trapA code addr) : forOut c us (gated c ready wait f) s = .next (takeTrap s t code 0 addr 0 false) :=
  forOut_traps h hcode (gated_traps hf)

end

/-! ### When a thread alone is ready (R173) -/

/-- Capturing an entry leaves all as it is, or fills the object cache (R156). -/
theorem capture_state {s s1 : State} {c part idx e : Nat} (h : capture s c part idx = some (e, s1)) :
    s1 = s ∨ s1 = ocacheFill s c part idx := by
  unfold capture at h
  split at h
  · cases h; exact .inl rfl
  · split at h
    · cases h
    · split at h
      · cases h; exact .inl rfl
      · split at h
        · cases h
        · exact .inr (Prod.mk.inj (Option.some.inj h)).2.symm

theorem capture_unfilled {s s1 : State} {c part idx e : Nat} (h : capture s c part idx = some (e, s1)) (x : Nat) :
    (s1.core x).unfilled = (s.core x).unfilled := by
  rcases capture_state h with rfl | rfl
  · rfl
  · rw [ocacheFill, core_modCore]
    split_ifs with hx
    · rw [hx]; rfl
    · rfl

theorem Checked.ptrUnfilled_eq {s s1 : State} {t : Nat} {need : Rights} {m : MemOp} {size align e : Nat} {b : Bool} {a : Chk}
    (h : Checked s t need m size align b e a s1) (c : Nat) (p : DWord) (n : Nat) : ptrUnfilled s1 c p n = ptrUnfilled s c p n := by
  unfold ptrUnfilled unfilledAt
  rw [capture_unfilled h.captured]

section
variable {s s1 : State} {t e size : Nat} {c : Ctl} {need : Rights} {m : MemOp} {bank store : Bool} {a : Chk}

/-- An atomic that returns nothing needs a free entry of the store buffer. -/
theorem atomReady_of_checked (h : Alone s t c) (hroom : store = true → (s.core (coreOfThread t)).stores.length < 512)
    (hc : Checked s t need m size size bank e a s1)
    (ha : ∀ addr, a = .inb addr → ptrUnfilled s (coreOfThread t) addr size = false) :
    atomReady c need m size bank store s t = true := by
  have hroom' : (!store || decide ((s.core (coreOfThread t)).stores.length + 1 ≤ 512)) = true := by
    cases store with
    | false => rfl
    | true => exact decide_eq_true (hroom rfl)
  unfold Checked at hc
  unfold atomReady
  simp only [h.only, h.guard, List.filter_cons_of_pos, List.filter_nil, List.length_singleton, hroom', hc, Bool.true_and]
  cases a with
  | inb addr => simp only [ha addr rfl, Bool.not_false]
  | out => rfl
  | trap code addr => rfl

end

/-! ### Atomics by their lane functions -/

/-- An atomic names memory that has no point of atomicity for it (R172, R381). -/
def BadSpace (float : Bool) (addr : DWord) : Prop := ptrSpace addr = 4 ∨ (float = true ∧ ptrSpace addr = 3)

/-- An atomic of kind `k` of thread `t` at `addr`, as its access. -/
def atomAccess (c : Ctl) (k : AccKind) (sc : Scope) (ord : Order) (data : Thread → Group → List Word) (s : State) (t : Nat)
    (addr : DWord) : Access :=
  { kind := k, ptr := addr, data := data (s.thread t) (s.group (s.thread t).group), scope := sc, order := ord, ch := c.ch
    priv := s.privOf t }

/-- An atomic goes on at its address, or traps by its space. -/
def atAtomic (float : Bool) (addr : DWord) (l : Lane) : Lane :=
  match atomSpaceTrap addr float with
  | some trap => trap
  | none => l

theorem execAtomic_eq (c : Ctl) (k : AccKind) (float : Bool) (sc : Scope) (ord : Order) (d : Reg) (nd : Nat) (mem : MemOp0)
    (data : Thread → Group → List Word) (s : State) :
    execAtomic c k float sc ord d nd mem data s = forOut c (unitsFor d (addrUnits mem.a))
      (gated c (atomReady c { a := true } (memOf mem) k.size false false) waitAgain (fun s0 t s1 =>
        withObj s0 s1 t [1, 2] { a := true } (memOf mem) k.size k.size
          (fun s2 => retireLate s2 t c (leadOf s0 c == some t) (.nat d nd 0))
          (fun addr s2 => atAtomic float addr (.retire (pushLoad s0 s2 t s.nextId c (atomAccess c k sc ord data s0 t addr)
            (leadOf s0 c == some t) d nd (aopOf (s0.thread t) (s0.group (s0.thread t).group) (memOf mem))
            (objIdx (s0.group (s0.thread t).group) mem.obj)))))) (numbered s) := rfl

theorem execReduce_eq (c : Ctl) (k : AccKind) (float bank : Bool) (sc : Scope) (ord : Order) (mem : MemOp0)
    (data : Thread → Group → List Word) (s : State) :
    execReduce c k float bank sc ord mem data s = forOut c (addrUnits mem.a)
      (gated c (atomReady c { a := true } (memOf mem) k.size bank true) waitAgain (fun s0 t s1 =>
        withObj s0 s1 t [1, 2] { a := true } (memOf mem) k.size k.size (fun s2 => .retire s2)
          (fun addr s2 => atAtomic float addr
            (storeOr s2 t (pushStore s0 s2 t s.nextId (atomAccess c k sc ord data s0 t addr)))) bank)) (numbered s) := rfl

theorem natWords_zero (n : Nat) : natWords n 0 = List.replicate n 0 := by
  induction n with
  | zero => rfl
  | succ n ih => exact congrArg (List.cons 0) ih

section
variable {float : Bool} {addr : DWord}

theorem atAtomic_bad (h : BadSpace float addr) (l : Lane) : atAtomic float addr l = .trapA 0x27 addr := by
  unfold atAtomic
  rw [show atomSpaceTrap addr float = some (.trapA 0x27 addr) from if_pos h]

theorem atAtomic_good (h : ¬BadSpace float addr) (l : Lane) : atAtomic float addr l = l := by
  unfold atAtomic
  rw [show atomSpaceTrap addr float = none from if_neg h]

end

section
variable {s s1 : State} {t e : Nat} {c : Ctl} {k : AccKind} {float bank : Bool} {sc : Scope} {ord : Order} {d : Reg} {nd : Nat}
  {mem : MemOp0} {data : Thread → Group → List Word}

/-! A returning atomic. -/

theorem execAtomic_inb (h : Alone s t c) {addr : DWord}
    (hc : Checked (numbered s) t { a := true } (memOf mem) k.size k.size false e (.inb addr) s1)
    (hu : ptrUnfilled s (coreOfThread t) addr k.size = false) (hb : ¬BadSpace float addr) :
    execAtomic c k float sc ord d nd mem data s = .next (finishedNext t (loadQueued s s1 c t (atomAccess c k sc ord data s t addr) d nd
      (aopOf (s.thread t) (s.group (s.thread t).group) (memOf mem)) (objIdx (s.group (s.thread t).group) mem.obj))) := by
  have hn := alone_numbered h
  refine (execAtomic_eq ..).trans (forOut_gated_retires hn (atomReady_of_checked hn nofun hc fun _ ha => by cases ha; exact hu) ?_)
  rw [withObj_inb hc ((hc.ptrUnfilled_eq ..).trans hu), atAtomic_good hb, leadOf_solo hn.toSolo, beq_self_eq_true, pushLoad_numbered]
  rfl

/-- Out of bounds zeros wait for its destination; it traps by a failed check, and by the space of its address. -/
theorem execAtomic_refused (h : Alone s t c) {i : Instr} {spaces : List Nat} (hi : exec i s = execAtomic c k float sc ord d nd mem data s)
    (hb : ∀ addr, ptrSpace addr ∈ spaces → BadSpace float addr) :
    (∀ e s1, Checked (numbered s) t { a := true } (memOf mem) k.size k.size false e .out s1 →
      exec i s = .next (finishedNext t (resultWaits (countOob s1 t) c t (.reg d (List.replicate nd 0))))) ∧
    (∀ e code addr s1, Checked (numbered s) t { a := true } (memOf mem) k.size k.size false e (.trap code addr) s1 →
      exec i s = .next (takeTrap (numbered s) t code 0 addr 0 false)) ∧
    ∀ e addr s1, Checked (numbered s) t { a := true } (memOf mem) k.size k.size false e (.inb addr) s1 →
      ptrUnfilled s (coreOfThread t) addr k.size = false → ptrSpace addr ∈ spaces →
      exec i s = .next (takeTrap (numbered s) t 0x27 0 addr 0 false) := by
  have hn := alone_numbered h
  rw [hi, execAtomic_eq]
  refine ⟨fun e s1 hc => forOut_gated_retires hn (atomReady_of_checked hn nofun hc nofun) ?_,
    fun e code addr s1 hc => forOut_gated_traps hn hc.trap_code (withObj_trap hc _ _), fun e addr s1 hc hu hs => ?_⟩
  · rw [withObj_out hc, leadOf_solo hn.toSolo, beq_self_eq_true, Res.nat, natWords_zero]
    rfl
  · exact forOut_gated_traps hn (by decide) ((withObj_inb hc ((hc.ptrUnfilled_eq ..).trans hu) _ _).trans (atAtomic_bad (hb addr hs) _))

/-! An atomic that returns nothing. -/

theorem execReduce_inb (h : Alone s t c) {addr : DWord} {slot : Nat}
    (hc : Checked (numbered s) t { a := true } (memOf mem) k.size k.size bank e (.inb addr) s1)
    (hslot : freeStoreSlot (s.core (coreOfThread t)) = some slot) (hroom : (s.core (coreOfThread t)).stores.length < 512)
    (hu : ptrUnfilled s (coreOfThread t) addr k.size = false) (hb : ¬BadSpace float addr) :
    execReduce c k float bank sc ord mem data s =
      .next (finishedNext t (storeQueued s s1 t (atomAccess c k sc ord data s t addr) slot)) := by
  have hn := alone_numbered h
  refine (execReduce_eq ..).trans
    (forOut_gated_retires hn (atomReady_of_checked hn (fun _ => hroom) hc fun _ ha => by cases ha; exact hu) ?_)
  rw [withObj_inb hc ((hc.ptrUnfilled_eq ..).trans hu), atAtomic_good hb,
    pushStore_numbered ((freeStoreSlot_congr (hc.stores _)).trans hslot)]
  rfl

/-- Out of bounds it is dropped; it traps by a failed check, and by the space of its address. -/
theorem execReduce_refused (h : Alone s t c) {i : Instr} {spaces : List Nat} (hi : exec i s = execReduce c k float bank sc ord mem data s)
    (hb : ∀ addr, ptrSpace addr ∈ spaces → BadSpace float addr) :
    (∀ e s1, Checked (numbered s) t { a := true } (memOf mem) k.size k.size bank e .out s1 →
      (s.core (coreOfThread t)).stores.length < 512 → exec i s = .next (finishedNext t (countOob s1 t))) ∧
    (∀ e code addr s1, Checked (numbered s) t { a := true } (memOf mem) k.size k.size bank e (.trap code addr) s1 →
      exec i s = .next (takeTrap (numbered s) t code 0 addr 0 false)) ∧
    ∀ e addr s1, Checked (numbered s) t { a := true } (memOf mem) k.size k.size bank e (.inb addr) s1 →
      ptrUnfilled s (coreOfThread t) addr k.size = false → ptrSpace addr ∈ spaces →
      exec i s = .next (takeTrap (numbered s) t 0x27 0 addr 0 false) := by
  have hn := alone_numbered h
  rw [hi, execReduce_eq]
  refine ⟨fun e s1 hc hr => forOut_gated_retires hn (atomReady_of_checked hn (fun _ => hr) hc nofun) (withObj_out hc _ _),
    fun e code addr s1 hc => forOut_gated_traps hn hc.trap_code (withObj_trap hc _ _), fun e addr s1 hc hu hs => ?_⟩
  exact forOut_gated_traps hn (by decide) ((withObj_inb hc ((hc.ptrUnfilled_eq ..).trans hu) _ _).trans (atAtomic_bad (hb addr hs) _))

end

section
variable (c : Ctl) (w : Bool) (sc : Scope) (ord : Order) (d : Reg) (mem : MemOp0) (s : State)

theorem exec_atom (op : AtomOp) (b : Src) : exec (.atom c op w sc ord d mem b) s =
    execAtomic c (.atom op w) false sc ord d (nregs64 w) mem (fun t g => srcWords t g (nregs64 w) b) s := rfl

theorem exec_atomcas (b : Reg) : exec (.atomcas c w sc ord d mem b) s =
    execAtomic c (.cas w) false sc ord d (nregs64 w) mem (fun t g => regWords t g (2 * nregs64 w) b) s := rfl

theorem exec_red (op : AtomOp) (b : Src) : exec (.red c op w sc ord mem b) s =
    execReduce c (.atom op w) false false sc ord mem (fun t g => srcWords t g (nregs64 w) b) s := rfl

theorem exec_atomf (op : AtomFOp) (b : Src) : exec (.atomf c op false sc ord d mem b) s =
    execAtomic c (.atomf op) true sc ord d (atomfBytes op / 4) mem (fun t g => atomfArg op t g b) s := rfl

theorem exec_atomf_noret (op : AtomFOp) (b : Src) : exec (.atomf c op true sc ord d mem b) s =
    execReduce c (.atomf op) true false sc ord mem (fun t g => atomfArg op t g b) s := rfl

theorem exec_bankop (op : BankOp) (ty : BankTy) (b : Reg) : exec (.bankop c op ty sc ord mem b) s =
    execReduce c (.bankop op ty) false true sc ord mem (fun t g => regWords t g 4 b) s := rfl

end

/-! ### BANKRED (R179) -/

/-- What BANKRED of `k` elements does at its address, for a thread of the PC group that issued it as access `bt`. -/
def bankredAt (c : Ctl) (op : BankOp) (ty : BankTy) (sc : Scope) (ord : Order) (d : Reg) (mem : MemOp0) (k bt : Nat) (s0 : State)
    (t : Nat) (addr : DWord) (s : State) : Lane :=
  if addr.toNat / 128 ≠ (addr.toNat + 4 * k - 1) / 128 then .trapA 0x29 addr
  else .retire (pushLoad s0 s t bt c
    { kind := .bankred op ty k, ptr := addr, data := [BitVec.ofNat 32 k], scope := sc, order := ord, ch := c.ch, priv := s0.privOf t }
    (leadOf s0 c == some t) d 1 (aopOf (s0.thread t) (s0.group (s0.thread t).group) (memOf mem))
    (objIdx (s0.group (s0.thread t).group) mem.obj))

theorem execBankred_eq (c : Ctl) (op : BankOp) (ty : BankTy) (sc : Scope) (ord : Order) (d : Reg) (mem : MemOp0) (n : Src) (s : State) :
    execBankred c op ty sc ord d mem n s = forOut c (unitsFor d (addrUnits mem.a)) (fun s0 t s1 =>
      let k := srcNat (s0.thread t) (s0.group (s0.thread t).group) 1 n
      if k = 0 ∨ 32 < k then .trapC 0x29
      else withObj s0 s1 t [1, 2] { r := true } (memOf mem) (4 * k) 4
        (fun s2 => retireLate s2 t c (leadOf s0 c == some t) (.nat d 1 0)) (bankredAt c op ty sc ord d mem k s.nextId s0 t) true)
      (numbered s) := rfl

section
variable {s s1 : State} {t e k : Nat} {c : Ctl} {op : BankOp} {ty : BankTy} {sc : Scope} {ord : Order} {d : Reg} {mem : MemOp0} {n : Src}

/-- A number of elements out of range traps before any check of the object. -/
theorem execBankred_count (h : Alone s t c)
    (hk : srcNat (s.thread t) (s.group (s.thread t).group) 1 n = 0 ∨ 32 < srcNat (s.thread t) (s.group (s.thread t).group) 1 n) :
    exec (.bankred c op ty sc ord d mem n) s = .next (takeTrap (numbered s) t 0x29 0 0 0 false) :=
  (execBankred_eq ..).trans (forOut_traps (alone_numbered h) (by decide) (if_pos hk))

/-- For a thread alone with a number of elements in range, what its object's checks come to is all. -/
theorem execBankred_counted (h : Alone s t c) (hk : srcNat (s.thread t) (s.group (s.thread t).group) 1 n = k) (h1 : 1 ≤ k)
    (h32 : k ≤ 32) : exec (.bankred c op ty sc ord d mem n) s = forOut c [] (fun s0 t s1 =>
      withObj s0 s1 t [1, 2] { r := true } (memOf mem) (4 * k) 4
        (fun s2 => retireLate s2 t c true (.reg d [0])) (bankredAt c op ty sc ord d mem k s.nextId s0 t) true) (numbered s) := by
  have hn := alone_numbered h
  have hrange : ¬(k = 0 ∨ 32 < k) := by omega
  have hread : srcNat ((numbered s).thread t) ((numbered s).group ((numbered s).thread t).group) 1 n = k := hk
  refine (execBankred_eq ..).trans ?_
  rw [forOut_alone hn, forOut_alone hn]
  dsimp only
  rw [hread, if_neg hrange, leadOf_solo hn.toSolo, beq_self_eq_true]
  rfl

/-- Its elements lie in one line: it waits in the load queue. -/
theorem bankredAt_inLine {addr : DWord} (h : Alone s t c) (hl : addr.toNat / 128 = (addr.toNat + 4 * k - 1) / 128) :
    bankredAt c op ty sc ord d mem k s.nextId (numbered s) t addr s1 = .retire (loadQueued s s1 c t
      { kind := .bankred op ty k, ptr := addr, data := [BitVec.ofNat 32 k], scope := sc, order := ord, ch := c.ch, priv := s.privOf t }
      d 1 (aopOf (s.thread t) (s.group (s.thread t).group) (memOf mem)) (objIdx (s.group (s.thread t).group) mem.obj)) := by
  unfold bankredAt
  rw [if_neg (not_not.2 hl), leadOf_solo (alone_numbered h).toSolo, beq_self_eq_true, pushLoad_numbered]
  rfl

end

end Sys2Proof.Machine

open Sys2Proof Sys2Proof.Machine

/-- Settles O33: each instruction is one returning atomic or one that returns nothing, by its kind; BANKRED checks its count, its object
and its line. -/
theorem atomicsIssue : Obligations.AtomicsIssue := by
  unfold Obligations.AtomicsIssue
  intro s t c sc ord mem h th g co acc queued checked room
  have hn := alone_numbered h
  have integer (addr : DWord) : ¬BadSpace false addr ↔ ptrSpace addr ≠ 4 := by simp [BadSpace]
  have float (addr : DWord) : ¬BadSpace true addr ↔ ptrSpace addr ≠ 4 ∧ ptrSpace addr ≠ 3 := by simp [BadSpace]
  have window (addr : DWord) (h : ptrSpace addr ∈ [4]) : BadSpace false addr := .inl (List.mem_singleton.1 h)
  have far (addr : DWord) (h : ptrSpace addr ∈ [3, 4]) : BadSpace true addr := by simpa [BadSpace, or_comm] using h
  refine ⟨fun op w d b e addr s1 hc hu h4 => (exec_atom ..).trans (execAtomic_inb h hc hu ((integer _).2 h4)),
    fun w d b e addr s1 hc hu h4 => (exec_atomcas ..).trans (execAtomic_inb h hc hu ((integer _).2 h4)),
    fun op w b e addr s1 slot hc ⟨hslot, hroom⟩ hu h4 => (exec_red ..).trans (execReduce_inb h hc hslot hroom hu ((integer _).2 h4)),
    fun op d b e addr s1 hc hu h4 h3 => (exec_atomf ..).trans (execAtomic_inb h hc hu ((float _).2 ⟨h4, h3⟩)),
    fun op d b e addr s1 slot hc ⟨hslot, hroom⟩ hu h4 h3 => (exec_atomf_noret ..).trans
      (execReduce_inb h hc hslot hroom hu ((float _).2 ⟨h4, h3⟩)),
    fun op ty b e addr s1 slot hc ⟨hslot, hroom⟩ hu h4 => (exec_bankop ..).trans
      (execReduce_inb h hc hslot hroom hu ((integer _).2 h4)), ?_, ?_, ?_,
    fun op ty d n hk => execBankred_count h hk⟩
  · intro op ty d n k e addr s1 hk h1 h32 hc hu hl
    exact (execBankred_counted h hk h1 h32).trans (forOut_retires hn ((withObj_inb hc hu _ _).trans (bankredAt_inLine h hl)))
  · intro zeros nothing traps
    exact ⟨fun op w d b => execAtomic_refused h (exec_atom ..) window, fun w d b => execAtomic_refused h (exec_atomcas ..) window,
      fun op d b => execAtomic_refused h (exec_atomf ..) far, fun op w b => execReduce_refused h (exec_red ..) window,
      fun op d b => execReduce_refused h (exec_atomf_noret ..) far, fun op ty b => execReduce_refused h (exec_bankop ..) window⟩
  · intro op ty d n k e hk h1 h32
    have counted := execBankred_counted (op := op) (ty := ty) (sc := sc) (ord := ord) (d := d) (mem := mem) h hk h1 h32
    refine ⟨fun s1 hc => ?_, fun code addr s1 hc => ?_, fun addr s1 hc hu hl => ?_⟩
    · exact counted.trans (forOut_retires hn (withObj_out hc _ _))
    · exact counted.trans (forOut_traps hn hc.trap_code (withObj_trap hc _ _))
    · exact counted.trans (forOut_traps hn (by decide) ((withObj_inb hc hu _ _).trans (if_pos hl)))

end

section
/-! PROOFS. Bytes written at a place, and lines that move between the caches and their homes (R246, R248, R261). -/

namespace Sys2Proof.Machine

set_option Elab.async false  -- theorem after theorem: every thread of a compile takes a stack of its own

/-! ### Little-endian bytes (R7) -/

theorem leNat_leBytes (n x : Nat) : leNat (leBytes n x) = x % 2 ^ (8 * n) := by
  induction n generalizing x with
  | zero => simp [leBytes, leNat, Nat.mod_one]
  | succ n ih =>
    rw [leBytes, leNat, ih, BitVec.toNat_ofNat, Nat.mul_succ, Nat.add_comm (8 * n) 8, pow_add]
    exact (Nat.mod_mul (x := x) (a := 2 ^ 8) (b := 2 ^ (8 * n))).symm

/-! ### Bank memory (R252) -/

theorem bankKey_inj {d x die b : Nat} (hx : x < 2 ^ 27) (hb : b < 2 ^ 27) : bankKey d x = bankKey die b ↔ d = die ∧ x = b := by
  unfold bankKey
  omega

/-- The byte stored is the byte read there, and every other byte of every die is as it was. -/
theorem bankGet_bankSet {s : State} (h : s.bank.wf = true) {die b d x : Nat} (hb : b < 2 ^ 27) (hx : x < 2 ^ 27) (v : Byte) :
    bankGet (bankSet s die b v) d x = if d = die ∧ x = b then v else bankGet s d x := by
  have hget : bankGet (bankSet s die b v) d x =
      mget (mset s.bank (bankKey die b) (v ^^^ bankBase s die b)) (bankKey d x) ^^^ bankBase s d x :=
    rfl
  rw [hget, mget_mset h, if_congr (bankKey_inj hx hb) rfl rfl]
  split_ifs with hc
  · obtain ⟨rfl, rfl⟩ := hc
    rw [BitVec.xor_assoc, BitVec.xor_self, BitVec.xor_zero]
  · rfl

/-- Bytes written in bank memory are the bytes read there, and every other byte is as it was. -/
theorem bankGet_locWrite {s : State} (h : s.bank.wf = true) {die b d x : Nat} {bs : List Byte} (hb : b + bs.length ≤ 2 ^ 27)
    (hx : x < 2 ^ 27) : bankGet (locWrite s (.bank die b) bs) d x =
      if d = die ∧ b ≤ x ∧ x < b + bs.length then bs.getD (x - b) 0 else bankGet s d x := by
  induction bs generalizing s b with
  | nil => exact (if_neg (by rintro ⟨-, h, h'⟩; exact absurd h' (Nat.not_lt.2 h))).symm
  | cons v bs ih =>
    rw [List.length_cons] at hb ⊢
    have hset : (bankSet s die b v).bank.wf = true := Mem.wf_mset h _ _
    refine (ih hset (by omega)).trans ?_
    rw [bankGet_bankSet h (by omega) hx]
    by_cases hd : d = die ∧ x = b
    · rw [if_neg (by omega), if_pos hd, if_pos (by omega), hd.2, Nat.sub_self, List.getD_cons_zero]
    · rw [if_neg hd]
      by_cases hin : d = die ∧ b + 1 ≤ x ∧ x < b + 1 + bs.length
      · rw [if_pos hin, if_pos (by omega), show x - b = x - (b + 1) + 1 by omega, List.getD_cons_succ]
      · rw [if_neg hin, if_neg (by omega)]

/-- Nothing but bank memory changes. -/
theorem locWrite_bank (s : State) (die b : Nat) (bs : List Byte) :
    locWrite s (.bank die b) bs = { s with bank := (locWrite s (.bank die b) bs).bank } := by
  induction bs generalizing s b with
  | nil => rfl
  | cons v bs ih => exact (ih (bankSet s die b v) (b + 1)).trans rfl

/-- The bytes at a place in bank memory, by their numbers. -/
theorem locRead_bank_eq {s : State} {die b : Nat} {bs : List Byte} (h : ∀ i, i < bs.length → bankGet s die (b + i) = bs.getD i 0) :
    locRead s (.bank die b) bs.length = bs := by
  induction bs generalizing b with
  | nil => rfl
  | cons v bs ih =>
    refine congrArg₂ List.cons (h 0 (Nat.succ_pos _)) (ih fun i hi => ?_)
    rw [show b + 1 + i = b + (i + 1) by omega]
    exact h (i + 1) (Nat.succ_lt_succ hi)

/-- A number written in bank memory is read there. -/
theorem locNat_bank_written {s : State} (h : s.bank.wf = true) {die b n : Nat} (hb : b + n ≤ 2 ^ 27) (v : Nat) :
    locNat (locWrite s (.bank die b) (leBytes n v)) (.bank die b) n = v % 2 ^ (8 * n) := by
  have hlen := leBytes_length n v
  have hread : locRead (locWrite s (.bank die b) (leBytes n v)) (.bank die b) (leBytes n v).length = leBytes n v := by
    refine locRead_bank_eq fun i hi => ?_
    rw [bankGet_locWrite h (by omega) (by omega), if_pos (by omega), Nat.add_sub_cancel_left]
  rw [hlen] at hread
  rw [locNat, hread, leNat_leBytes]

/-! ### Lines that move -/

/-- Lines move between caches and homes: device memory, the caches and what the homes count change, and nothing of the threads or of the
other memories. -/
structure LinesMoved (s s' : State) : Prop where
  threads : s'.threads = s.threads
  groups : s'.groups = s.groups
  bank : s'.bank = s.bank
  host : s'.host = s.host
  remote : s'.remote = s.remote
  epoch : ∀ d, (s'.die d).bankEpoch = (s.die d).bankEpoch
  scratch : ∀ x, (s'.core x).scratch = (s.core x).scratch

namespace LinesMoved

theorem refl (s : State) : LinesMoved s s := ⟨rfl, rfl, rfl, rfl, rfl, fun _ => rfl, fun _ => rfl⟩

theorem trans {s s1 s2 : State} (h : LinesMoved s s1) (h1 : LinesMoved s1 s2) : LinesMoved s s2 :=
  ⟨h1.threads.trans h.threads, h1.groups.trans h.groups, h1.bank.trans h.bank, h1.host.trans h.host, h1.remote.trans h.remote,
    fun d => (h1.epoch d).trans (h.epoch d), fun x => (h1.scratch x).trans (h.scratch x)⟩

/-- What leaves every byte alone, once device memory has changed. -/
theorem of_sameBytes {s s' : State} {m : Mem} (h : SameBytes { s with hbm := m } s') (hg : s'.groups = s.groups) : LinesMoved s s' :=
  ⟨h.threads, hg, h.bank, h.host, h.remote, h.epoch, h.scratch⟩

theorem foldl {α : Type} {f : State → α → State} (hf : ∀ s a, LinesMoved s (f s a)) (l : List α) (s : State) :
    LinesMoved s (l.foldl f s) := by
  induction l generalizing s with
  | nil => exact refl s
  | cons a l ih => exact (hf s a).trans (ih _)

theorem modCore (s : State) (c : Nat) {f : Core → Core} (hf : ∀ x, (f x).scratch = x.scratch) : LinesMoved s (s.modCore c f) :=
  of_sameBytes (SameBytes.modCore s c hf) rfl

theorem l1Flush (s : State) (c part l : Nat) : LinesMoved s (l1Flush s c part l) := by
  unfold Machine.l1Flush
  split
  · split_ifs
    · exact refl s
    · dsimp only
      exact (of_sameBytes ((SameBytes.homeUse ..).trans (SameBytes.barCopy ..)) rfl).trans (modCore _ _ fun _ => rfl)
  · exact refl s

theorem l1Drop (s : State) (c part l : Nat) : LinesMoved s (l1Drop s c part l) := by
  unfold Machine.l1Drop
  split_ifs
  · exact refl s
  · exact (l1Flush ..).trans (modCore _ _ fun _ => rfl)

theorem l1Room (s : State) (c part l : Nat) : LinesMoved s (l1Room s c part l) := by
  unfold Machine.l1Room
  dsimp only
  split_ifs
  · exact refl s
  · split
    · exact refl s
    · exact l1Drop ..

theorem l1Store (s : State) (c part pa : Nat) (bs : List Byte) (ch : BitVec 4) : LinesMoved s (l1Store s c part pa bs ch) := by
  have hstored (f : Core → Core) (hf : ∀ x, (f x).scratch = x.scratch) :
      LinesMoved s ((Machine.l1Room s c part (lineNo pa)).modCore c f) :=
    (l1Room ..).trans (modCore _ _ hf)
  unfold Machine.l1Store
  dsimp only
  split_ifs
  · exact of_sameBytes ((SameBytes.homeUse ..).trans (SameBytes.barCopy ..)) rfl
  · refine (hstored _ ?_).trans (l1Flush ..)
    exact fun _ => rfl
  · exact hstored _ fun _ => rfl

theorem releaseAt (s : State) (c part : Nat) (sc : Scope) (o : Order) : LinesMoved s (releaseAt s c part sc o) := by
  unfold Machine.releaseAt
  split_ifs
  · exact foldl (fun s l => l1Flush s c part l) _ s
  · exact refl s

theorem acquireAt (s : State) (c : Nat) (sc : Scope) (o : Order) :
    LinesMoved s (acquireAt s c sc o) ∧ (Machine.acquireAt s c sc o).hbm = s.hbm := by
  unfold Machine.acquireAt
  split_ifs
  · have hbar (s : State) (l : Nat) : LinesMoved s (barCopy s c l) := of_sameBytes (SameBytes.barCopy ..) rfl
    exact ⟨(foldl hbar _ s).trans (modCore _ _ fun _ => rfl),
      foldl_keeps State.hbm (f := fun s l => barCopy s c l) (fun _ _ => rfl) _ s⟩
  · exact ⟨refl s, rfl⟩

/-- Bank memory reads as it did. -/
theorem bankGet {s s' : State} (h : LinesMoved s s') (d x : Nat) : bankGet s' d x = bankGet s d x := by
  simp only [Machine.bankGet, bankBase, h.bank, h.epoch]

theorem locRead_bank {s s' : State} (h : LinesMoved s s') (die b n : Nat) : locRead s' (.bank die b) n = locRead s (.bank die b) n := by
  induction n generalizing b with
  | zero => rfl
  | succ n ih => exact congrArg₂ List.cons (h.bankGet die b) (ih (b + 1))

theorem locNat_bank {s s' : State} (h : LinesMoved s s') (die b n : Nat) : locNat s' (.bank die b) n = locNat s (.bank die b) n :=
  congrArg leNat (h.locRead_bank die b n)

end LinesMoved

end Sys2Proof.Machine

end

section
/-! PROOFS. What an atomic leaves in bank memory, and the words it returns (R172, R174 to R178). -/

namespace Sys2Proof.Machine

set_option Elab.async false  -- theorem after theorem: every thread of a compile takes a stack of its own

/-- An atomic in bank memory: what its order releases comes before, what it acquires after. -/
theorem performAcc_atomic_bank {s : State} {c t part die b : Nat} {acc : Access} (hk : acc.kind.atomic = true) :
    performAcc s c t part acc (.bank die b) =
      (natWords (acc.kind.size / 4) (locNat (releaseAt s c part acc.scope acc.order) (.bank die b) acc.kind.size),
        acquireAt (locWrite (releaseAt s c part acc.scope acc.order) (.bank die b) (leBytes acc.kind.size (acc.kind.rmw acc.data
          (locNat (releaseAt s c part acc.scope acc.order) (.bank die b) acc.kind.size)))) c acc.scope acc.order) := by
  obtain ⟨kind, ptr, data, scope, order, ch, priv, held⟩ := acc
  cases kind with
  | load sz => cases hk
  | atom op w => rfl
  | cas w => rfl
  | atomf op => rfl
  | bankop op ty => rfl
  | bankred op ty n => cases hk
  | store n => cases hk
  | cline op pa => cases hk

/-- Without a release beyond the group no line is written back. -/
theorem releaseAt_local {s : State} {c part : Nat} {sc : Scope} {o : Order} (h : wideScope sc = false ∨ o = .rlx) :
    releaseAt s c part sc o = s := by
  unfold releaseAt
  rcases h with h | rfl
  · rw [h]; rfl
  · exact if_neg (by rw [show (Order.rlx == .rel || Order.rlx == .ar) = false from rfl, Bool.and_false]; exact Bool.false_ne_true)

/-- A number written at a place of bank memory once lines have moved, before others move. -/
theorem bankWritten_leaves {s s1 : State} (h : LinesMoved s s1) (hwf : s.bank.wf = true) {die b n : Nat} (hb : b + n ≤ 2 ^ 27) (v c : Nat)
    (sc : Scope) (o : Order) :
    let s' := acquireAt (locWrite s1 (.bank die b) (leBytes n v)) c sc o
    locNat s' (.bank die b) n = v % 2 ^ (8 * n) ∧
      (∀ d x, (d ≠ die ∨ x < b ∨ b + n ≤ x) → x < 2 ^ 27 → bankGet s' d x = bankGet s d x) ∧
      s'.hbm = s1.hbm ∧ s'.host = s.host ∧ s'.remote = s.remote ∧ (∀ y, (s'.core y).scratch = (s.core y).scratch) ∧
      s'.threads = s.threads ∧ s'.groups = s.groups := by
  intro s'
  have hwf1 : s1.bank.wf = true := by rw [h.bank]; exact hwf
  have hlen := leBytes_length n v
  obtain ⟨hacq, hhbm⟩ := LinesMoved.acquireAt (locWrite s1 (.bank die b) (leBytes n v)) c sc o
  have hw := locWrite_bank s1 die b (leBytes n v)
  refine ⟨(hacq.locNat_bank ..).trans (locNat_bank_written hwf1 hb v), fun d x hout hx => ?_, hhbm.trans (congrArg State.hbm hw :),
    (hacq.host.trans (congrArg State.host hw :)).trans h.host, (hacq.remote.trans (congrArg State.remote hw :)).trans h.remote,
    fun y => ((hacq.scratch y).trans (congrArg (fun s => (State.core s y).scratch) hw :)).trans (h.scratch y),
    (hacq.threads.trans (congrArg State.threads hw :)).trans h.threads, (hacq.groups.trans (congrArg State.groups hw :)).trans h.groups⟩
  rw [hacq.bankGet, bankGet_locWrite hwf1 (by omega) hx, if_neg (by omega), h.bankGet]

end Sys2Proof.Machine

open Sys2Proof Sys2Proof.Machine

/-- Settles O34: the old value is read after the release, which leaves bank memory alone, and the new bytes are written before the acquire,
which does so too. -/
theorem atomicsUpdateTheirPlace : Obligations.AtomicsUpdateTheirPlace := by
  unfold Obligations.AtomicsUpdateTheirPlace
  intro s c t part die b acc hwf hk hb old r
  have hrel := LinesMoved.releaseAt s c part acc.scope acc.order
  have hr := performAcc_atomic_bank (s := s) (c := c) (t := t) (part := part) (die := die) (b := b) hk
  rw [hrel.locNat_bank] at hr
  obtain ⟨hnew, hother, hhbm, hkeeps⟩ := bankWritten_leaves (c := c) hrel hwf hb (acc.kind.rmw acc.data old) acc.scope acc.order
  rw [show r = _ from hr]
  exact ⟨rfl, hnew, hother, fun ho => hhbm.trans (congrArg State.hbm (releaseAt_local ho)), hkeeps⟩

end

section
/-! PROOFS. STORE_PERFORM of a plain store (R162, R246, R248). -/

namespace Sys2Proof.Machine

set_option Elab.async false  -- theorem after theorem: every thread of a compile takes a stack of its own

/-! ### Bytes of a line that is stored to -/

theorem getLsbD_byteMask (i n k : Nat) (hk : k < 128) : (byteMask i n).getLsbD k = decide (i ≤ k ∧ k < i + n) := by
  rw [byteMask, BitVec.getLsbD_ofNat, Nat.testBit_mul_two_pow, Nat.testBit_two_pow_sub_one]
  simp only [hk, decide_true, Bool.true_and, ← Bool.decide_and]
  exact decide_eq_decide.2 (by omega)

/-- The byte set is the byte read, and every other byte of the line is as it was. -/
theorem lineByte_setLineByte (x : Line) {i j : Nat} (hi : i < 128) (hj : j < 128) (b : Byte) :
    lineByte (setLineByte x i b) j = if j = i then b else lineByte x j := by
  apply BitVec.eq_of_getLsbD_eq
  intro k hk
  have hmask : (BitVec.ofNat 1024 (255 * 2 ^ (8 * i))).getLsbD (8 * j + k) = decide (j = i) := by
    rw [BitVec.getLsbD_ofNat, Nat.testBit_mul_two_pow, show 255 = 2 ^ 8 - 1 from rfl, Nat.testBit_two_pow_sub_one]
    simp only [← Bool.decide_and]
    exact decide_eq_decide.2 (by omega)
  have hbyte : (BitVec.ofNat 1024 (b.toNat * 2 ^ (8 * i))).getLsbD (8 * j + k) = (decide (j = i) && b.getLsbD k) := by
    rw [BitVec.getLsbD_ofNat, Nat.testBit_mul_two_pow, BitVec.testBit_toNat]
    by_cases hji : j = i
    · subst hji
      simp [show 8 * j + k < 1024 by omega]
    · by_cases hlt : 8 * i ≤ 8 * j + k
      · simp [hji, BitVec.getLsbD_of_ge b (8 * j + k - 8 * i) (by omega)]
      · simp [hji, hlt]
  rw [lineByte, setLineByte, BitVec.getLsbD_extractLsb', BitVec.getLsbD_or, BitVec.getLsbD_and, BitVec.getLsbD_not, hmask, hbyte]
  split_ifs with hji
  · simp [hji, hk]
  · simp [hji, hk, lineByte, show 8 * j + k < 1024 by omega]

theorem lineByte_setLineBytes (x : Line) {i j : Nat} {bs : List Byte} (hi : i + bs.length ≤ 128) (hj : j < 128) :
    lineByte (setLineBytes x i bs) j = if i ≤ j ∧ j < i + bs.length then bs.getD (j - i) 0 else lineByte x j := by
  induction bs generalizing x i with
  | nil => exact (if_neg (by rintro ⟨h, h'⟩; exact absurd h' (Nat.not_lt.2 h))).symm
  | cons b bs ih =>
    rw [List.length_cons] at hi ⊢
    rw [setLineBytes, ih _ (by omega), lineByte_setLineByte _ (by omega) hj]
    by_cases hji : j = i
    · rw [if_neg (by omega), if_pos hji, if_pos (by omega), hji, Nat.sub_self, List.getD_cons_zero]
    · rw [if_neg hji]
      by_cases hin : i + 1 ≤ j ∧ j < i + 1 + bs.length
      · rw [if_pos hin, if_pos (by omega), show j - i = j - (i + 1) + 1 by omega, List.getD_cons_succ]
      · rw [if_neg hin, if_neg (by omega)]

/-! ### A store through the L1 (R248) -/

/-- The line after a store of bytes from byte `i` on: they are dirty. -/
def storedLine (ln : L1Line) (i : Nat) (bs : List Byte) : L1Line :=
  { data := setLineBytes ln.data i bs, valid := ln.valid, dirty := ln.dirty ||| byteMask i bs.length }

/-- Where the L1 has room and allocates, its line takes the bytes, and no memory changes. -/
theorem l1Store_allocates {s : State} {c : Nat} {ch : BitVec 4} (part pa : Nat) (bs : List Byte) (hch : ch.toNat % 4 ≠ 3)
    (hr : (s.core c).l1d.length < l1Capacity (s.core c)) :
    let s' := l1Store s c part pa bs ch
    s'.hbm = s.hbm ∧ s'.bank = s.bank ∧ tfind (s'.core c).l1d (lineNo pa) =
      some (storedLine ((tfind (s.core c).l1d (lineNo pa)).getD ⟨0, 0, 0⟩) (pa % 128) bs) := by
  have hno : chNoL1 ch = false := beq_eq_false_iff_ne.2 hch
  have hroom : l1Room s c part (lineNo pa) = s := if_pos (by simp [hr])
  unfold l1Store
  simp only [hno, hroom, Bool.false_and, Bool.false_eq_true, if_false]
  refine ⟨rfl, rfl, ?_⟩
  rw [core_modCore, if_pos rfl]
  exact tfind_tset_self ..

/-- Each byte stored is a dirty byte of the line. -/
theorem storedLine_byte (ln : L1Line) {i j : Nat} {bs : List Byte} (h : i + bs.length ≤ 128) (hj : j < bs.length) :
    lineByte (storedLine ln i bs).data (i + j) = bs.getD j 0 ∧ (storedLine ln i bs).dirty.getLsbD (i + j) = true := by
  refine ⟨?_, ?_⟩
  · rw [storedLine, lineByte_setLineBytes _ h (by omega), if_pos (by omega), Nat.add_sub_cancel_left]
  · rw [storedLine, BitVec.getLsbD_or, getLsbD_byteMask _ _ _ (by omega), decide_eq_true (by omega), Bool.or_true]

/-! ### Scratch -/

/-- Bytes written in scratch stand in the scratch of their core. -/
theorem locWrite_scratch (s : State) (c o : Nat) (bs : List Byte) (x : Nat) :
    ((locWrite s (.scratch c o) bs).core x).scratch = if x = c then msets (s.core c).scratch o bs else (s.core x).scratch := by
  induction bs generalizing s o with
  | nil => split_ifs with hx <;> simp [locWrite, msets, hx]
  | cons b bs ih =>
    refine (ih (locSet s (.scratch c o) b) (o + 1)).trans ?_
    rw [locSet, core_modCore, core_modCore, if_pos rfl]
    split_ifs <;> rfl

theorem locWrite_scratch_leaves (s : State) (c o : Nat) (bs : List Byte) :
    (locWrite s (.scratch c o) bs).hbm = s.hbm ∧ (locWrite s (.scratch c o) bs).bank = s.bank := by
  induction bs generalizing s o with
  | nil => exact ⟨rfl, rfl⟩
  | cons b bs ih => exact ih (locSet s (.scratch c o) b) (o + 1)

/-! ### The event -/

/-- Bytes stored for a thread at a place: in device memory through the L1, whose hit or miss is counted. -/
def storedAt (s : State) (c t part : Nat) (ch : BitVec 4) (loc : Loc) (bs : List Byte) : State :=
  match loc with
  | .hbm pa => l1Store (l1Count s c t (tfind (s.core c).l1d (lineNo pa)).isSome) c part pa bs ch
  | loc => locWrite s loc bs

theorem releaseAt_rlx (s : State) (c part : Nat) (sc : Scope) : releaseAt s c part sc .rlx = s := releaseAt_local (.inr rfl)

theorem acquireAt_rlx (s : State) (c : Nat) (sc : Scope) : acquireAt s c sc .rlx = s :=
  if_neg (by rw [show (Order.rlx == .acq || Order.rlx == .ar) = false from rfl, Bool.and_false]; exact Bool.false_ne_true)

theorem performAcc_store {s : State} {c t part n : Nat} {acc : Access} {loc : Loc} (hk : acc.kind = .store n) (ho : acc.order = .rlx) :
    (performAcc s c t part acc loc).2 = storedAt s c t part acc.ch loc ((bytesOfWords acc.data).take n) := by
  unfold performAcc
  simp only [hk, ho, releaseAt_rlx, acquireAt_rlx, AccKind.size]
  cases loc <;> rfl

/-- Of threads and groups a store changes group counters alone. -/
theorem storedAt_leaves (s : State) (c t part : Nat) (ch : BitVec 4) (loc : Loc) (bs : List Byte) :
    (storedAt s c t part ch loc bs).threads = s.threads ∧
      ∀ g, (storedAt s c t part ch loc bs).group g = { s.group g with gc := ((storedAt s c t part ch loc bs).group g).gc } := by
  have hwritten : (locWrite s loc bs).threads = s.threads ∧
      ∀ g, (locWrite s loc bs).group g = { s.group g with gc := ((locWrite s loc bs).group g).gc } := by
    refine ⟨locWrite_threads s loc bs, fun g => ?_⟩
    rw [State.group, locWrite_groups]
    rfl
  cases loc with
  | hbm pa =>
    have hmoved := LinesMoved.l1Store (l1Count s c t (tfind (s.core c).l1d (lineNo pa)).isSome) c part pa bs ch
    refine ⟨hmoved.threads, fun g => ?_⟩
    have hgroup : (storedAt s c t part ch (.hbm pa) bs).group g = (l1Count s c t (tfind (s.core c).l1d (lineNo pa)).isSome).group g :=
      congrArg (fun gs => (tfind gs g).getD noGroup) hmoved.groups
    rw [hgroup]
    exact gcEvent_group ..
  | bank d b => exact hwritten
  | scratch d o => exact hwritten
  | remote d p e o => exact hwritten
  | host p w o => exact hwritten
  | zero => exact hwritten

theorem l1Count_l1d (s : State) (c t : Nat) (hit : Bool) :
    ((l1Count s c t hit).core c).l1d = (s.core c).l1d ∧ ((l1Count s c t hit).core c).scrways = (s.core c).scrways := by
  have hcore : (l1Count s c t hit).core c = { s.core c with cnt := bump 1 (if hit then 0x19 else 0x1A) (s.core c).cnt } := by
    rw [l1Count, gcEvent_core, coreCount, core_modCore, if_pos rfl]
  rw [hcore]
  exact ⟨rfl, rfl⟩

/-- A store in device memory that the L1 has room for stays in its line. -/
theorem storedAt_hbm {s : State} {c pa : Nat} {ch : BitVec 4} (t part : Nat) (bs : List Byte) (hch : ch.toNat % 4 ≠ 3)
    (hr : (s.core c).l1d.length < l1Capacity (s.core c)) :
    let s' := storedAt s c t part ch (.hbm pa) bs
    s'.hbm = s.hbm ∧ s'.bank = s.bank ∧ ∃ ln, tfind (s'.core c).l1d (lineNo pa) = some (storedLine ln (pa % 128) bs) := by
  have hcount := SameBytes.l1Count s c t (tfind (s.core c).l1d (lineNo pa)).isSome
  obtain ⟨hl1d, hways⟩ := l1Count_l1d s c t (tfind (s.core c).l1d (lineNo pa)).isSome
  have hroom : ((l1Count s c t (tfind (s.core c).l1d (lineNo pa)).isSome).core c).l1d.length <
      l1Capacity ((l1Count s c t (tfind (s.core c).l1d (lineNo pa)).isSome).core c) := by
    unfold l1Capacity at hr ⊢
    rw [hl1d, hways]
    exact hr
  obtain ⟨hhbm, hbank, hline⟩ := l1Store_allocates part pa bs hch hroom
  exact ⟨hhbm.trans hcount.hbm, hbank.trans hcount.bank, _, hline⟩

/-- The entry leaves the store buffer, and the generation of its slot advances (R346). -/
def storeGone (e : StoreEntry) (x : Core) : Core :=
  { x with stores := x.stores.filter (fun y => y.id != e.id), egens := tset e.slot ((tget 0 x.egens e.slot + 1) % 2 ^ 13) x.egens }

/-- No barrier of its group waits for a store: that is all. -/
theorem dropStore_open {s : State} {c : Nat} {e : StoreEntry} (h : ∀ p ∈ (s.group e.group).bars, p.2.closing = []) :
    dropStore s c e = s.modCore c (storeGone e) := by
  have hnone : (s.group e.group).bars.filter (fun p => !p.2.closing.isEmpty) = [] := by
    rw [List.filter_eq_nil_iff]
    intro p hp
    simp [h p hp]
  refine if_ctx_congr Iff.rfl (fun _ => rfl) (fun _ => ?_) |>.trans (ite_self _)
  exact congrArg (List.foldl _ (s.modCore c (storeGone e))) hnone

theorem withScratch_resident {s : State} {lk : Nat} (h : ∀ l, tfind s.launches lk = some l → l.ctx = []) (f : State → State) :
    withScratch s lk f = f s := by
  have haway : awayCores s lk = [] := by
    unfold awayCores
    split
    · next l hl => rw [h l hl]; rfl
    · rfl
  unfold withScratch
  rw [haway]
  rfl

theorem execStorePerform_store {s : State} {core n : Nat} {e : StoreEntry} {loc : Loc}
    (he : (s.core core).stores.find? (fun y => y.id == e.id) = some e) (hk : e.acc.kind = .store n) (ho : e.acc.order = .rlx)
    (hr : storeReady s core e = some loc) (hbars : ∀ p ∈ (s.group e.group).bars, p.2.closing = [])
    (hctx : ∀ l, tfind s.launches e.launch = some l → l.ctx = []) :
    exec (.storePerform core e.id none) s = .next ((storedAt s core e.thread (partOfLaunch s e.launch) e.acc.ch loc
      ((bytesOfWords e.acc.data).take n)).modCore core (storeGone e)) := by
  have hatomic : e.acc.kind.atomic = false := by rw [hk]; rfl
  have hperform : exec (.storePerform core e.id none) s = .next (storeAt s core e loc) := by
    show execStorePerform core e.id none s = _
    unfold execStorePerform
    simp [he, storeBatch, hatomic, hr]
  obtain ⟨-, hgroups⟩ := storedAt_leaves s core e.thread (partOfLaunch s e.launch) e.acc.ch loc ((bytesOfWords e.acc.data).take n)
  rw [hperform, storeAt, withScratch_resident hctx, performAcc_store hk ho, dropStore_open]
  rw [hgroups]
  exact hbars

end Sys2Proof.Machine

open Sys2Proof Sys2Proof.Machine

/-- Settles O30: the bytes stored, by the space of their place; the entry then leaves the buffer, which touches no byte. -/
theorem storesPerform : Obligations.StoresPerform := by
  unfold Obligations.StoresPerform
  intro s core e n loc he hk hr ho hbank hscr hbars hctx bs
  obtain ⟨hthreads, hgroups⟩ := storedAt_leaves s core e.thread (partOfLaunch s e.launch) e.acc.ch loc bs
  have hgone := SameBytes.modCore (storedAt s core e.thread (partOfLaunch s e.launch) e.acc.ch loc bs) core (f := storeGone e) fun _ => rfl
  refine ⟨_, execStorePerform_store he hk ho hr hbars hctx, fun y hy => ?_, hthreads, hgroups, ?_, ?_, ?_⟩
  · rw [core_modCore, if_pos rfl] at hy
    simpa using (List.mem_filter.1 hy).2
  · rintro c o rfl
    obtain ⟨hhbm, hbk⟩ := locWrite_scratch_leaves s c o bs
    refine ⟨hhbm, hbk, fun c' x => ?_⟩
    rw [hgone.scratch, show storedAt s core e.thread _ e.acc.ch (.scratch c o) bs = locWrite s (.scratch c o) bs from rfl, locWrite_scratch]
    by_cases hc : c' = c
    · rw [if_pos hc, mget_msets (hscr c), hc]
      exact if_congr (by simp) rfl rfl
    · rw [if_neg hc, if_neg fun h => hc h.1]
  · rintro die b rfl hb
    have hw := locWrite_bank s die b bs
    refine ⟨(congrArg State.hbm hw :), fun c => (hgone.scratch c).trans (congrArg (fun s => (State.core s c).scratch) hw :),
      fun d x hx => bankGet_locWrite hbank hb hx⟩
  · rintro pa rfl hline hch hroom
    obtain ⟨hhbm, hbk, ln, hln⟩ := storedAt_hbm e.thread (partOfLaunch s e.launch) (pa := pa) bs hch hroom
    refine ⟨hhbm, hbk, storedLine ln (pa % 128) bs, ?_, fun i hi => storedLine_byte ln hline hi⟩
    rw [core_modCore, if_pos rfl]
    exact hln

end

section
/-! PROOFS. Accesses that fail where they would perform are recorded (R347 to R350). -/

namespace Sys2Proof.Machine

set_option Elab.async false  -- theorem after theorem: every thread of a compile takes a stack of its own

/-! ### What a record is written to -/

/-- Cores, bank memory and remote memory are as they were. -/
structure CoresKept (s s' : State) : Prop where
  cores : s'.cores = s.cores
  bank : s'.bank = s.bank
  remote : s'.remote = s.remote

namespace CoresKept

theorem refl (s : State) : CoresKept s s := ⟨rfl, rfl, rfl⟩

theorem trans {s s1 s2 : State} (h : CoresKept s s1) (h1 : CoresKept s1 s2) : CoresKept s s2 :=
  ⟨h1.cores.trans h.cores, h1.bank.trans h.bank, h1.remote.trans h.remote⟩

theorem core {s s' : State} (h : CoresKept s s') (c : Nat) : s'.core c = s.core c := by
  rw [State.core, h.cores]
  rfl

theorem locWrite_hbm (s : State) (pa : Nat) (bs : List Byte) : CoresKept s (locWrite s (.hbm pa) bs) := by
  induction bs generalizing s pa with
  | nil => exact refl s
  | cons b bs ih => exact (show CoresKept s (locSet s (.hbm pa) b) from ⟨rfl, rfl, rfl⟩).trans (ih _ (pa + 1))

theorem locWrite_host (s : State) (p w o : Nat) (bs : List Byte) : CoresKept s (locWrite s (.host p w o) bs) := by
  induction bs generalizing s o with
  | nil => exact refl s
  | cons b bs ih => exact (show CoresKept s (locSet s (.host p w o) b) from ⟨rfl, rfl, rfl⟩).trans (ih _ (o + 1))

/-- What queue firmware addresses lies in device memory or in the host's. -/
theorem locWrite_fwResolve {s : State} {part : Nat} {p : DWord} {n : Need} {loc : Loc} (h : fwResolve s part p n = .ok loc) (s1 : State)
    (bs : List Byte) : CoresKept s1 (locWrite s1 loc bs) := by
  unfold fwResolve at h
  split at h
  · split at h
    · cases h
      exact locWrite_hbm ..
    · cases h
  · dsimp only at h
    split_ifs at h
    cases h
    exact locWrite_host ..
  · cases h

theorem ringWrite {s s' : State} {part : Nat} {f : FRec} (h : ringWrite s part f = some s') : CoresKept s s' := by
  unfold Machine.ringWrite at h
  dsimp only at h
  split_ifs at h
  split at h
  · cases h
  · next loc hloc =>
    split_ifs at h
    have huse : CoresKept s (locUse s part loc) := by cases loc <;> exact ⟨rfl, rfl, rfl⟩
    rw [← Option.some.inj h]
    have hwritten := huse.trans (locWrite_fwResolve hloc (locUse s part loc) (recBytes f (s.part part).frhead.toNat))
    generalize locWrite (locUse s part loc) loc (recBytes f (s.part part).frhead.toNat) = s2 at hwritten
    exact ⟨hwritten.cores, hwritten.bank, hwritten.remote⟩

theorem sendRec (s : State) (part l : Nat) (f : FRec) : CoresKept s (sendRec s part l f) := by
  have hnote : CoresKept s (noteFault s l f.code f.detail) := ⟨rfl, rfl, rfl⟩
  unfold Machine.sendRec
  split_ifs
  · exact ⟨rfl, rfl, rfl⟩
  · unfold emitRecord
    split_ifs
    · cases hr : Machine.ringWrite (noteFault s l f.code f.detail) part f with
      | none => exact hnote.trans ⟨rfl, rfl, rfl⟩
      | some s' => exact hnote.trans (ringWrite hr)
    · exact hnote.trans ⟨rfl, rfl, rfl⟩

end CoresKept

/-- An error is counted in a die's counters alone (R416). -/
theorem countUe_eq (s : State) (c part : Nat) (a : Access) (f : AFail) : ∃ ds, countUe s c part a f = { s with dies := ds } := by
  unfold countUe
  split_ifs
  · split
    · split_ifs
      · exact ⟨_, rfl⟩
      · exact ⟨_, rfl⟩
      · exact ⟨_, rfl⟩
    · exact ⟨_, rfl⟩
  · unfold countWalkUe
    split
    · exact ⟨_, rfl⟩
    · exact ⟨_, rfl⟩
  · exact ⟨_, rfl⟩

/-- From `s` to `s'` an access has been recorded: threads keep all but their latest record, and k registers, bank memory, remote memory and
scratch are as they were. -/
structure Recorded (s s' : State) : Prop where
  threads : ∀ u, s'.thread u = { s.thread u with lastRec := (s'.thread u).lastRec }
  k : ∀ g, (s'.group g).k = (s.group g).k
  bank : s'.bank = s.bank
  remote : s'.remote = s.remote
  scratch : ∀ x, (s'.core x).scratch = (s.core x).scratch

theorem Recorded.trans {s s1 s2 : State} (h : Recorded s s1) (h1 : Recorded s1 s2) : Recorded s s2 where
  threads u := by rw [h1.threads u, h.threads u]
  k g := (h1.k g).trans (h.k g)
  bank := h1.bank.trans h.bank
  remote := h1.remote.trans h.remote
  scratch x := (h1.scratch x).trans (h.scratch x)

/-- Sending the record of a failed access, with its error counted. -/
theorem sendRec_countUe (s : State) (c part : Nat) (a : Access) (f : AFail) (l : Nat) (r : FRec) :
    CoresKept s (sendRec (countUe s c part a f) part l r) ∧ Recorded s (sendRec (countUe s c part a f) part l r) := by
  obtain ⟨ds, hcount⟩ := countUe_eq s c part a f
  rw [hcount]
  have hkept := (show CoresKept s { s with dies := ds } from ⟨rfl, rfl, rfl⟩).trans (CoresKept.sendRec _ part l r)
  refine ⟨hkept, sendRec_thread _ _ _ _, fun g => ?_, hkept.bank, hkept.remote, fun x => by rw [hkept.core]⟩
  rw [State.group, sendRec_groups]
  rfl

/-! ### A load enters the operand log (R347) -/

/-- The access leaves the load queue for the operand log, or for its wait for the log. -/
def intoLog (e : LoadEntry) (f : AFail) (room : Bool) (x : Core) : Core :=
  { x with
    loads := x.loads.filter (fun y => y.id != e.id)
    olog := x.olog ++ [{ e, replaying := false, stage2 := toSecure f.code f.detail, detail := f.detail, inLog := room }] }

/-- The state with the access in the log and its record known to its thread, before the record is sent. -/
def loggedWith (s : State) (c : Nat) (e : LoadEntry) (f : AFail) (r : FRec) : State :=
  setLastRec (disarm ((numbered s).modCore c (intoLog e f (decide (logCount (s.core c) < 64)))) e.group) e.thread r

theorem logAccess_eq (s : State) (c : Nat) (e : LoadEntry) (f : AFail) :
    ∃ r, logAccess s c e f = sendRec (countUe (loggedWith s c e f r) c (partOfLaunch (loggedWith s c e f r) e.launch) e.acc f)
      (partOfLaunch (loggedWith s c e f r) e.launch) e.launch r := ⟨_, rfl⟩

theorem setLastRec_thread (s : State) (t : Nat) (r : FRec) (u : Nat) :
    (setLastRec s t r).thread u = { s.thread u with lastRec := ((setLastRec s t r).thread u).lastRec } := by
  rw [setLastRec, thread_modThread_listed]
  split_ifs with h
  · rw [h.1]
  · rfl

theorem disarm_k (s : State) (g u : Nat) : ((disarm s g).group u).k = (s.group u).k := by
  rw [disarm, group_modGroup_listed]
  split_ifs with h
  · rw [h.1]
  · rfl

theorem loggedWith_core (s : State) (c : Nat) (e : LoadEntry) (f : AFail) (r : FRec) (x : Nat) :
    (loggedWith s c e f r).core x = if x = c then intoLog e f (decide (logCount (s.core c) < 64)) (s.core c) else s.core x :=
  core_modCore (numbered s) c x _

theorem loggedWith_recorded (s : State) (c : Nat) (e : LoadEntry) (f : AFail) (r : FRec) : Recorded s (loggedWith s c e f r) where
  threads := setLastRec_thread (disarm ((numbered s).modCore c (intoLog e f (decide (logCount (s.core c) < 64)))) e.group) e.thread r
  k := disarm_k ((numbered s).modCore c (intoLog e f (decide (logCount (s.core c) < 64)))) e.group
  bank := rfl
  remote := rfl
  scratch x := by
    rw [loggedWith_core]
    split_ifs with hx
    · rw [hx]; rfl
    · rfl

theorem logAccess_logs (s : State) (c : Nat) (e : LoadEntry) (f : AFail) :
    (∀ y ∈ ((logAccess s c e f).core c).loads, y.id ≠ e.id) ∧
      (∃ y ∈ ((logAccess s c e f).core c).olog, y.e = e ∧ y.replaying = false ∧ y.detail = f.detail ∧
        (y.inLog = true ↔ logCount (s.core c) < 64)) ∧ Recorded s (logAccess s c e f) := by
  obtain ⟨r, hlog⟩ := logAccess_eq s c e f
  obtain ⟨hkept, hrec⟩ := sendRec_countUe (loggedWith s c e f r) c (partOfLaunch (loggedWith s c e f r) e.launch) e.acc f e.launch r
  rw [hlog]
  have hown := (hkept.core c).trans ((loggedWith_core s c e f r c).trans (if_pos rfl))
  refine ⟨fun y hy => ?_, ?_, (loggedWith_recorded s c e f r).trans hrec⟩
  · rw [hown] at hy
    simpa using (List.mem_filter.1 hy).2
  · rw [hown]
    exact ⟨_, List.mem_append_right _ (List.mem_singleton_self _), rfl, rfl, rfl, decide_eq_true_iff⟩

/-! ### A store is held (R180, R350) -/

/-- The store of this number is held by its fault. -/
def holdStore (e : StoreEntry) (x : Core) : Core :=
  { x with stores := x.stores.map (fun y => if y.id == e.id then { y with held := true } else y) }

theorem holdStore_recorded (s : State) (c : Nat) (e : StoreEntry) : Recorded s ((numbered s).modCore c (holdStore e)) where
  threads _ := rfl
  k _ := rfl
  bank := rfl
  remote := rfl
  scratch x := by
    rw [core_modCore]
    split_ifs with hx
    · rw [hx]; rfl
    · rfl

theorem faultStore_eq (s : State) (c : Nat) (e : StoreEntry) (f : AFail) :
    ∃ r, faultStore s c e f = sendRec (countUe ((numbered s).modCore c (holdStore e)) c (partOfLaunch s e.launch) e.acc f)
      (partOfLaunch s e.launch) e.launch r := ⟨_, rfl⟩

theorem faultStore_holds {s : State} {c : Nat} {e : StoreEntry} (he : e ∈ (s.core c).stores) (f : AFail) :
    (∃ y ∈ ((faultStore s c e f).core c).stores, y = { e with held := true }) ∧ Recorded s (faultStore s c e f) := by
  obtain ⟨r, hfault⟩ := faultStore_eq s c e f
  obtain ⟨hkept, hrec⟩ := sendRec_countUe ((numbered s).modCore c (holdStore e)) c (partOfLaunch s e.launch) e.acc f e.launch r
  rw [hfault]
  refine ⟨⟨_, ?_, rfl⟩, (holdStore_recorded s c e).trans hrec⟩
  rw [hkept.core, core_modCore, if_pos rfl]
  exact List.mem_map.2 ⟨e, he, if_pos (beq_self_eq_true _)⟩

end Sys2Proof.Machine

open Sys2Proof Sys2Proof.Machine

/-- Settles O32: the record of a fault is written to device or host memory and to no core, after the load has entered the log or the store
is held. -/
theorem failedAccessesAreRecorded : Obligations.FailedAccessesAreRecorded := by
  unfold Obligations.FailedAccessesAreRecorded
  refine ⟨fun s core e why f he ho hf hc => ?_, fun s core e why f he ho hheld hf => ?_⟩
  · have hexec : exec (.accessLogged core e.id why) s = .next (if (s.thread e.thread).run = .exited || exiting (s.thread e.thread) then
        dropLoad s core e else logAccess s core e f) := by
      show execAccessLogged core e.id why s = _
      unfold execAccessLogged
      simp only [he, ho, hf, Bool.not_true, Bool.false_eq_true, if_false]
    rw [hexec]
    obtain ⟨hleft, hlogged, hrec⟩ := logAccess_logs s core e f
    refine ⟨fun h => congrArg _ (if_pos ?_), fun hrun hexit => ⟨_, congrArg _ (if_neg ?_), hleft, hlogged, hrec.threads, hrec.k,
      hrec.bank, hrec.remote, hrec.scratch⟩⟩
    · simpa using h
    · simp [hrun, hexit]
  · have hexec : exec (.storePerform core e.id (some why)) s = .next (faultStore s core e f) := by
      show execStorePerform core e.id (some why) s = _
      unfold execStorePerform
      simp only [he, ho, hheld, hf, Bool.not_true, Bool.or_self, Bool.false_eq_true, if_false]
    obtain ⟨hheld', hrec⟩ := faultStore_holds (List.mem_of_find?_eq_some he) f
    exact ⟨_, hexec, hheld', hrec.threads, hrec.k, hrec.bank, hrec.remote, hrec.scratch⟩

end

section
/-! PROOFS. Engine requests of a thread alone, posted or refused; MSTAT and MCANCEL (R183 to R185, R192, R193, R197, R203, R204, R207,
R208). -/

namespace Sys2Proof.Machine

set_option Elab.async false  -- theorem after theorem: every thread of a compile takes a stack of its own

/-! ### A thread that begins to wait keeps its issue (R32) -/

theorem modThread_modThread (s : State) (t : Nat) (f g : Thread → Thread) :
    (s.modThread t f).modThread t g = s.modThread t (fun x => g (f x)) := by
  have htmod : tmod t g (tmod t f s.threads) = tmod t (fun x => g (f x)) s.threads := by
    unfold tmod
    cases h : tfind s.threads t with
    | none => simp only [h]
    | some x => simp only [tfind_tset_self, tset_tset]
  exact congrArg (fun ts => { s with threads := ts }) htmod

/-- A thread that is not placed is not changed. -/
theorem modThread_unlisted {s : State} {t : Nat} (h : tfind s.threads t = none) (f : Thread → Thread) : s.modThread t f = s := by
  have htmod : tmod t f s.threads = s.threads := by
    unfold tmod
    rw [h]
  exact congrArg (fun ts => { s with threads := ts }) htmod

theorem keepIssue_waiting {w : Wait} (hw : keepsIssue (.waiting w) = true) (s0 s : State) (c : Ctl) (t : Nat) :
    keepIssue s0 c t (s.modThread t (fun x => { x with run := .waiting w })) =
      s.modThread t (fun x => { x with run := .waiting w, held := some (heldOf s0 c t) }) := by
  cases h : tfind s.threads t with
  | none =>
    rw [modThread_unlisted h, modThread_unlisted h]
    unfold keepIssue
    split_ifs
    · exact modThread_unlisted h _
    · rfl
  | some x =>
    have hrun := congrArg Thread.run ((thread_modThread s t t (fun x => { x with run := .waiting w }) (by rw [h]; rfl)).trans (if_pos rfl))
    unfold keepIssue
    rw [hrun, if_pos hw, modThread_modThread]

/-! ### A request is posted, or traps (R183, R185) -/

section
variable {c : Ctl} {us : List Nat} {f : State → Nat → State → Lane} {s s1 : State} {t : Nat}

/-- An instruction that posts a request leaves its thread waiting for its acceptance. -/
theorem forOut_posts (h : Alone s t c) {kind : ReqKind} {bo : DWord} (hf : f s t s = post s s1 t kind bo) :
    forOut c us f s = .next (enginePosted s s1 c t kind bo) := by
  rw [forOut_alone h, hf]
  exact congrArg (fun s' => Host.Outcome.next (captureHeld s s')) (keepIssue_waiting rfl ..)

/-- An instruction that checks the engine's holder first traps ENGINE_ISSUE where another launch holds it. -/
theorem forOut_notHolder (h : Alone s t c) (hf : f s t s = engTrap 1) :
    forOut c us f s = .next (takeTrap s t 0x40 1 0 0 false) := by
  have hcount : trapCount s t 0x40 1 0 = s := trapCount_other _ _ _ _ _ (by decide) (by decide)
  rw [forOut_alone h, hf]
  simp only [engTrap, Lane.trapD, hcount]

end

/-! ### Requests of the transfer port (R192, R203, R204) -/

section
variable {s s1 : State} {t : Nat}

theorem rectFits_of {row col nr nc : Nat} (hr : row + nr ≤ 512) (hc : col + nc ≤ 768) : rectFits ⟨row, col, nr, nc⟩ = true := by
  unfold rectFits
  simp [hr, hc]

theorem regionTrap_holder {x : Nat} (hold : holdsEngine s t = true) (h0 : pbits x 0 19 13 = 0) (h1 : pbits x 1 19 13 = 0)
    (hr : (regionRect x).row + (regionRect x).nr ≤ 512) (hc : (regionRect x).col + (regionRect x).nc ≤ 768) :
    regionTrap s t x = none := by
  have hfits : rectFits (regionRect x) = true := rectFits_of hr hc
  unfold regionTrap
  simp [hold, h0, h1, hfits]

theorem regionTrap_notHolder (hold : holdsEngine s t = false) (x : Nat) : regionTrap s t x = some (engTrap 1) := by
  unfold regionTrap
  simp [hold]

/-- The barrier object that a request names, if it names one, passes the check of a request. -/
theorem barrierNamed_ok {co part : Nat} {bo : DWord} (h : bo = 0 ∨ boPtrOk s co part bo = true) :
    ¬(bo ≠ 0 ∧ (!boPtrOk s co part bo) = true) := by
  rintro ⟨hne, hbad⟩
  rcases h with h | h
  · exact hne h
  · simp [h] at hbad

/-- A request of the transfer port whose object, runs and translation pass is posted, once its walks are done. -/
theorem postRuns_posts {mem : MemOp0} {write out : Bool} {align e : Nat} {bo : DWord} {runs : Nat → Int → List (Int × Nat)}
    {ps : List (List Piece)} {segs : List Seg} (kind : List Seg → Nat → ReqKind)
    (hbo : bo = 0 ∨ boPtrOk s (coreOfThread t) (s.partOf t) bo = true)
    (hcap : capture s (coreOfThread t) (s.partOf t) (objIdx (s.group (s.thread t).group) mem.obj) = some (e, s1))
    (hruns : runsCheck s1 (coreOfThread t) (s.partOf t) e write align
      (runs e ((srcNat (s.thread t) (s.group (s.thread t).group) 1 mem.a : Int) + mem.off.toInt)) = .ok (ps, out))
    (hspace : ptrSpace (oBase e) ≠ 4) (hheld : piecesHeld s1 (coreOfThread t) (s.partOf t) ps.flatten = false)
    (hsegs : resolvePieces (piecesWalk s1 (coreOfThread t) (s.partOf t) ps.flatten) (coreOfThread t) (s.partOf t) (s.privOf t)
      (if write then needW else needR) ps.flatten = .ok segs) :
    postRuns s s t mem write align bo runs kind = post s (if out then countOob (piecesWalk s1 (coreOfThread t) (s.partOf t) ps.flatten) t
      else piecesWalk s1 (coreOfThread t) (s.partOf t) ps.flatten) t (kind segs (inBounds ps.flatten)) bo := by
  unfold postRuns
  simp only [if_neg (barrierNamed_ok hbo), hcap, hruns, hspace, hheld, hsegs, Bool.false_eq_true, if_false]

end

/-! ### MMA (R197) -/

/-- What step 6 of R197 gives of the scales: their object's rows where the pass is scaled, and nothing but A's entry where it is not. -/
theorem mmaScales_ok {s1 s2 : State} {t part idx ea es : Nat} {rs : List (List Seg)} {outS ascale : Bool} {runs : List (Int × Nat)}
    (hunscaled : ascale = false → (es, rs, outS, s2) = (ea, [], false, s1))
    (hscaled : ascale = true → mmaObject s1 t part idx runs = .ok (es, rs, outS, s2)) :
    (if ascale then mmaObject s1 t part idx runs else .ok (ea, [], false, s1)) = .ok (es, rs, outS, s2) := by
  cases ascale with
  | false => exact congrArg Except.ok (hunscaled rfl).symm
  | true => exact hscaled rfl

/-! ### MSTAT and MCANCEL (R207, R208) -/

/-- A status entry of the group with the PASSID asked for, if one is (R207). -/
def statusOfPass (s : State) (t : Nat) (a : Option Src) (p : PStat) : Bool :=
  p.group == (s.thread t).group &&
    (match a with | some a => p.passid == srcW (s.thread t) (s.group (s.thread t).group) a | none => true)

/-- The words that MSTAT answers with. -/
def statusWords : Option PStat → List Word
  | some p => [p.passid, p.d1, p.d2, p.d3]
  | none => [0, 0, 0, 0]

/-- A pass that MCANCEL ends: of the group, with the PASSID asked for, if one is (R208; which passes can be cancelled is the model's
reading, log entry 105). -/
def cancelHit (s : State) (t : Nat) (a : Option Src) (e : EReq) : Bool :=
  cancellable e && e.group == (s.thread t).group &&
    (match a, e.kind with
     | some a, .mma r => r.passid == srcW (s.thread t) (s.group (s.thread t).group) a
     | _, _ => true)

section
variable {c : Ctl} {s : State} {t : Nat} (h : Alone s t c)
include h

theorem execMstat_alone (d : VReg) (a : Option Src) {found : List PStat}
    (hfound : (s.core (coreOfThread t)).ring.filter (statusOfPass s t a) = found) :
    exec (.mstat c d a) s = .next (finishedNext t (resultWaits s c t (.reg (.v d) (statusWords found.head?)))) := by
  rw [← hfound, List.head?_filter]
  exact forOut_retires h rfl

theorem execMcancel_holder (hold : holdsEngine s t = true) (a : Option Src) {hit : EReq → Bool} (hhit : ∀ e, cancelHit s t a e = hit e) :
    exec (.mcancel c a) s = .next (finishedNext t (((s.cluster (clusterOf (coreOfThread t))).table.filter hit).foldl
      (fun s e => failEntry s (clusterOf (coreOfThread t)) e 6) (gcEvent s 0xD t 1))) := by
  obtain rfl : cancelHit s t a = hit := funext hhit
  exact forOut_retires h (if_neg (by simp [hold]))

end

end Sys2Proof.Machine

open Sys2Proof Sys2Proof.Machine

/-- Settles O43: each request by the lane function of its instruction, where its checks pass and where its launch does not hold the
engine; MSTAT and MCANCEL by the entries they find. -/
theorem engineRequestsStatusAndCancel : Obligations.EngineRequestsStatusAndCancel := by
  unfold Obligations.EngineRequestsStatusAndCancel
  dsimp only
  refine ⟨fun s t c h => ⟨fun hold => ⟨fun buf => ?wdrop, ?accz, ?wload, ?transfers, ?mma⟩, fun hold => ?notHolder⟩,
    fun s t c h => ⟨fun d a => ?mstat, fun hold a => ?mcancel, fun hold a => ?cancelNotHolder⟩⟩
  case wdrop => exact forOut_posts h (if_neg (by simp [hold]))
  case accz =>
    intro a h0 h1 hr hc
    exact forOut_posts h (by simp only [regionTrap_holder hold h0 h1 hr hc])
  case wload =>
    intro bfmt cmp bscl buf mem b e s1 ps out segs cs h0 h1 hcs hn hbo hcap hruns hspace hheld hsegs
    refine forOut_posts h ?_
    simp only [hold, h0, h1, hcs, Nat.not_lt.2 hn, ne_eq, not_true_eq_false, or_self, Bool.not_true, Bool.false_eq_true, if_false]
    exact postRuns_posts _ hbo hcap hruns hspace hheld hsegs
  case transfers =>
    intro fmt mem b e s1 ps out segs h0 h1 hr hc hbo hcap hspace
    have hregion := regionTrap_holder hold h0 h1 hr hc
    refine ⟨fun hruns hheld hsegs => forOut_posts h ?_, fun rm sat hruns hheld hsegs => forOut_posts h ?_⟩
    · simp only [hregion]
      exact postRuns_posts _ hbo hcap hruns hspace hheld hsegs
    · simp only [hregion]
      exact postRuns_posts _ hbo hcap hruns hspace hheld hsegs
  case mma =>
    intro p ea ra outA s1 es rs outS s2 hfields hst hpair hk hn hrow hcol h2 h3 hA hU hS hspA hspS hbo
    refine forOut_posts h ?_
    have hscales := mmaScales_ok hU hS
    simp only [hold, hfields, hst, hpair, hk, hn, rectFits_of hrow hcol, h2, h3, List.map_map, Function.comp_def, hA, hscales, hspA, hspS,
      Bool.not_true, ne_eq, not_true_eq_false, or_self, Bool.false_eq_true, if_false]
    exact if_neg (barrierNamed_ok hbo)
  case notHolder =>
    have hfirst : (!holdsEngine s t) = true := by rw [hold]; rfl
    refine ⟨fun buf => forOut_notHolder h (if_pos hfirst), fun a => forOut_notHolder h ?_, fun p => forOut_notHolder h (if_pos hfirst),
      fun bfmt cmp bscl buf mem b => forOut_notHolder h (if_pos hfirst), fun fmt mem b => forOut_notHolder h ?_,
      fun fmt rm sat mem b => forOut_notHolder h ?_⟩
    all_goals simp only [regionTrap_notHolder hold]
  case mstat =>
    exact ⟨fun p rest hring => execMstat_alone (found := p :: rest) h d a hring,
      fun hring => execMstat_alone (found := []) h d a hring⟩
  case mcancel =>
    refine execMcancel_holder h hold a fun e => ?_
    unfold cancelHit cancellable
    cases e.kind with
    | mma r =>
      cases e.stage with
      | waiting | again | stream => cases a <;> simp [isPass]
      | accum | failed | transfer => simp [isPass]
    | _ => simp [isPass]
  case cancelNotHolder => exact forOut_notHolder h (if_pos (by rw [hold]; rfl))

end

section
/-! PROOFS. Rails and clocks: writes of RCVSET and RCFSET, moves of the rail, and the divider's step (R201, R398 to R401). -/

namespace Sys2Proof.Machine

set_option Elab.async false  -- theorem after theorem: every thread of a compile takes a stack of its own

/-! ### A cluster read after an update -/

theorem cluster_setCluster_self (s : State) (k : Nat) (x : Cluster) : (s.setCluster k x).cluster k = x := by
  unfold State.cluster
  rw [State.setCluster_clusters, tfind_tset_self]
  rfl

theorem cluster_modCluster_self (s : State) (k : Nat) (f : Cluster → Cluster) : (s.modCluster k f).cluster k = f (s.cluster k) :=
  cluster_setCluster_self ..

/-- An update that leaves the cluster as another one does gives the same state. -/
theorem modCluster_congr {s : State} {k : Nat} {f g : Cluster → Cluster} (h : f (s.cluster k) = g (s.cluster k)) :
    s.modCluster k f = s.modCluster k g := congrArg (s.setCluster k) h

/-! ### RCVSET and RCFSET (R395, R398, R399) -/

section
variable {s : State} {k : Nat}

theorem execRcvsetWrite_reached (h : railReached s k = true) (v : DWord) : exec (.rcvsetWrite k v) s = .next (writeVset s k v) :=
  congrArg Host.Outcome.next (if_pos h)

theorem execRcfsetWrite_reached (h : railReached s k = true) (v : DWord) : exec (.rcfsetWrite k v) s = .next (writeFset s k v) :=
  congrArg Host.Outcome.next (if_pos h)

theorem writeVset_offGrid {v : DWord} (h : v.toNat % 1024 % 5 ≠ 0 ∨ v.toNat % 1024 < 500 ∨ 800 < v.toNat % 1024) :
    writeVset s k v = s.modCluster k (fun x => { x with badreq := true }) := if_pos h

section
variable {v : DWord} (h5 : v.toNat % 1024 % 5 = 0) (hlo : 500 ≤ v.toNat % 1024) (hhi : v.toNat % 1024 ≤ 800)
include h5 hlo hhi

theorem writeVset_below (h : v.toNat % 1024 < (s.cluster k).vfloor) :
    writeVset s k v = denyFloor (s.setCluster k { s.cluster k with rcvset := v.toNat % 1024 }) k :=
  (if_neg (by omega)).trans (if_pos h)

theorem writeVset_legal (h : (s.cluster k).vfloor ≤ v.toNat % 1024) :
    writeVset s k v = s.modCluster k (fun x => applyVset { x with rcvset := v.toNat % 1024 } (v.toNat % 1024)) :=
  (if_neg (by omega)).trans (if_neg (Nat.not_lt.2 h))

end

theorem writeFset_offRange {v : DWord} (h : 32 < v.toNat % 64) :
    writeFset s k v = s.modCluster k (fun x => { x with badreq := true }) := if_pos h

theorem writeFset_legal {v : DWord} (h : v.toNat % 64 ≤ 32) :
    writeFset s k v = s.modCluster k (fun x => applyFset { x with rcfset := v.toNat % 64 } (v.toNat % 64)) := if_neg (Nat.not_lt.2 h)

/-- A count in a partition's telemetry changes no cluster. -/
theorem ownerCount_cluster (s : State) (k sel j : Nat) : (ownerCount s k sel).cluster j = s.cluster j := by
  unfold ownerCount
  split <;> rfl

/-- A denial sets its bit and is counted (R397). -/
theorem denyFloor_cluster (s : State) (k : Nat) :
    (denyFloor s k).cluster k = { s.cluster k with denied := true, cnt := bump 1 0x10A (s.cluster k).cnt } := by
  unfold denyFloor clusterCount
  rw [ownerCount_cluster, cluster_modCluster_self, cluster_modCluster_self]

end

section
variable {x : Cluster}

theorem applyVset_free (hc : x.change = none) (hs : x.safereq = false) (mv : Nat) :
    applyVset x mv = { x with goal := mv, returning := false } := by
  unfold applyVset
  simp only [hc, hs, Option.isSome_none, Bool.false_eq_true, if_false]

theorem applyVset_atSafe (hc : x.change = none) (hs : x.safereq = true) (mv : Nat) : applyVset x mv = { x with ret := mv } := by
  unfold applyVset
  simp only [hc, hs, Option.isSome_none, Bool.false_eq_true, if_false, if_true]

theorem applyFset_same (hc : x.change = none) {n : Nat} (h : n = x.fstep) : applyFset x n = x := by
  unfold applyFset
  simp only [hc, h, Option.isSome_none, Bool.false_eq_true, if_false, if_true]

theorem applyFset_raise (hc : x.change = none) (hs : x.safereq = false) {n : Nat} (h : x.fstep < n) :
    applyFset x n = { x with change := some (n, min 800 (addDelta x x.railmv n), false), goal := min 800 (addDelta x x.railmv n)
                             returning := false } := by
  unfold applyFset
  simp only [hc, hs, Nat.ne_of_gt h, h, Option.isSome_none, Bool.false_eq_true, if_false, if_true]

theorem applyFset_lower (hc : x.change = none) {n : Nat} (h : n < x.fstep) :
    applyFset x n = { x with change := some (n, x.railmv, false) } := by
  unfold applyFset
  simp only [hc, Nat.ne_of_lt h, Nat.not_lt_of_gt h, Option.isSome_none, Bool.false_eq_true, if_false]

end

/-! ### What writes and finished changes leave of the rail -/

theorem applyVset_railmv (x : Cluster) (mv : Nat) : (applyVset x mv).railmv = x.railmv := by
  unfold applyVset
  split_ifs <;> rfl

theorem applyFset_railmv (x : Cluster) (n : Nat) : (applyFset x n).railmv = x.railmv := by
  unfold applyFset
  dsimp only
  split_ifs <;> rfl

/-- Held writes move goals, never the rail itself. -/
theorem heldWrites_railmv (x : Cluster) (fuel : Nat) : (heldWrites x fuel).railmv = x.railmv := by
  induction fuel generalizing x with
  | zero => rfl
  | succ fuel ih =>
    unfold heldWrites
    split
    · rw [ih, applyVset_railmv]
    · rw [ih, applyFset_railmv]
    · rfl

theorem changeDone_railmv (x : Cluster) : (changeDone x).railmv = x.railmv := heldWrites_railmv ..

theorem lowerDone_railmv (x : Cluster) : (lowerDone x).railmv = x.railmv := by
  unfold lowerDone
  split
  · split_ifs
    · exact changeDone_railmv x
    · rfl
  · rfl

/-- With no write held, the end of a change leaves the rest. -/
theorem changeDone_nothingHeld {x : Cluster} (h : x.heldw = []) : changeDone x = { x with change := none } := by
  unfold changeDone
  rw [h]
  rfl

theorem lowerDone_noChange {x : Cluster} (h : x.change = none) : lowerDone x = x := by
  unfold lowerDone
  rw [h]

/-- What stands of the rail and the clock where a lowering's rail may have come to its goal. -/
theorem lowerDone_nothingHeld {x : Cluster} (h : x.heldw = []) :
    (lowerDone x).fstep = x.fstep ∧ (lowerDone x).railmv = x.railmv ∧ (lowerDone x).goal = x.goal := by
  unfold lowerDone
  split
  · split_ifs
    · rw [changeDone_nothingHeld h]
      exact ⟨rfl, rfl, rfl⟩
    · exact ⟨rfl, rfl, rfl⟩
  · exact ⟨rfl, rfl, rfl⟩

/-! ### Moves (R201, R400, R401) -/

section
variable {x : Cluster}

/-- Without a request for V_safe the rail goes to its goal. -/
theorem railAim_free (h : x.safereq = false) : railAim x = x.goal := by
  unfold railAim
  simp only [h, Bool.false_eq_true, if_false]

/-- Under one it goes to no lower value. -/
theorem railmv_le_railAim (h : x.safereq = true) : x.railmv ≤ railAim x := by
  unfold railAim
  simp only [h, if_true]
  exact (Nat.le_max_right _ _).trans (Nat.le_max_left _ _)

theorem stepRail_railmv (x : Cluster) : (stepRail x).railmv =
    if x.railmv < railAim x then min (railAim x) (x.railmv + 5) else max (railAim x) (x.railmv - 5) := lowerDone_railmv _

/-- A step of a rail that no change waits for moves the rail alone. -/
theorem stepRail_noChange (h : x.change = none) : stepRail x = noteStreams { x with
    railmv := if x.railmv < railAim x then min (railAim x) (x.railmv + 5) else max (railAim x) (x.railmv - 5)
    settling := true, moveAge := 0 } := lowerDone_noChange h

/-- The divider of a raise waits for the rail at its goal, settled (R399). -/
theorem dividerReady_raise {n : Nat} (hs : x.safereq = false) (hn : x.fstep < n) :
    dividerReady x n = true ↔ x.railmv = x.goal ∧ x.settling = false := by
  unfold dividerReady
  rw [railAim_free hs]
  simp [Nat.not_lt_of_gt hn]

theorem dividerReady_lower {n : Nat} (hn : n < x.fstep) : dividerReady x n = true := by
  unfold dividerReady
  simp [hn]

variable {n up : Nat} (hc : x.change = some (n, up, false))
include hc

theorem takeDivider_waits (h : ¬dividerReady x n = true) : takeDivider x = x := by
  unfold takeDivider
  simp only [hc, h, Bool.not_false, if_true]

theorem takeDivider_raise (hn : x.fstep < n) (h : dividerReady x n = true) :
    takeDivider x = changeDone (noteStreams { x with fstep := n }) := by
  unfold takeDivider
  simp only [hc, h, hn, Bool.not_true, Bool.false_eq_true, if_false, if_true]

/-- The clock of a lowering changes at once, and the rail then moves down (R399). -/
theorem takeDivider_lower (hn : n < x.fstep) (hs : x.safereq = false) :
    takeDivider x = lowerDone (noteStreams { x with fstep := n, goal := max x.vfloor (addDelta x x.railmv n), returning := false
                                                    change := some (n, max x.vfloor (addDelta x x.railmv n), true) }) := by
  unfold takeDivider
  simp only [hc, hs, dividerReady_lower hn, Nat.not_lt_of_gt hn, Bool.not_true, Bool.false_eq_true, if_false]

end

end Sys2Proof.Machine

open Sys2Proof Sys2Proof.Machine

/-- Settles O54: each write and each move by what it makes of its cluster. -/
theorem railsFollowTheirRegisters : Obligations.RailsFollowTheirRegisters := by
  unfold Obligations.RailsFollowTheirRegisters
  refine ⟨fun s k v hr => ?writes, fun s k => ?moves⟩
  case writes =>
    intro x mv n
    rw [execRcvsetWrite_reached hr, execRcfsetWrite_reached hr]
    refine ⟨fun h => congrArg _ (writeVset_offGrid h), fun h5 hlo hhi => ⟨fun h => ?below, fun h hc hs => ?free, fun h hc hs => ?atSafe⟩,
      fun h => congrArg _ (writeFset_offRange h), fun h hc hs => ⟨fun hn => ?same, fun hn => ?raise, fun hn => ?lower⟩⟩
    case below =>
      refine ⟨_, rfl, ?_⟩
      rw [writeVset_below h5 hlo hhi h, denyFloor_cluster, cluster_setCluster_self]
      exact ⟨rfl, rfl⟩
    case free =>
      rw [writeVset_legal h5 hlo hhi h]
      exact congrArg _ (modCluster_congr (applyVset_free (x := { x with rcvset := mv }) hc hs mv))
    case atSafe =>
      rw [writeVset_legal h5 hlo hhi h]
      exact congrArg _ (modCluster_congr (applyVset_atSafe (x := { x with rcvset := mv }) hc hs mv))
    case same =>
      rw [writeFset_legal h]
      exact congrArg _ (modCluster_congr (applyFset_same (x := { x with rcfset := n }) hc hn))
    case raise =>
      rw [writeFset_legal h]
      exact congrArg _ (modCluster_congr (applyFset_raise (x := { x with rcfset := n }) hc hs hn))
    case lower =>
      rw [writeFset_legal h]
      exact congrArg _ (modCluster_congr (applyFset_lower (x := { x with rcfset := n }) hc hn))
  case moves =>
    intro x
    refine ⟨fun hs => ⟨_, rfl, ?atSafe⟩, fun hc hs => ⟨fun hup => ⟨_, rfl, ?up⟩, fun hdown => ⟨_, rfl, ?down⟩, fun hg => ?settled⟩,
      fun n up hc hs hw => ⟨fun hn hg ht => ⟨_, rfl, ?raised⟩, fun hn hg => ?waits, fun hn => ⟨_, rfl, ?lowered⟩⟩⟩
    case atSafe =>
      have haim := railmv_le_railAim hs
      rw [cluster_modCluster_self]
      split_ifs with hg
      · exact ⟨Nat.le_refl _, Nat.le_add_right _ _⟩
      · rw [stepRail_railmv, if_pos (Nat.lt_of_le_of_ne haim hg)]
        exact ⟨Nat.le_min.2 ⟨haim, Nat.le_add_right _ _⟩, Nat.min_le_right _ _⟩
    case up =>
      have haim := railAim_free hs
      rw [cluster_modCluster_self]
      rw [if_neg (hup.trans_eq haim.symm).ne, stepRail_noChange hc, haim, if_pos hup]
      exact ⟨rfl, rfl, rfl, rfl⟩
    case down =>
      have haim := railAim_free hs
      rw [cluster_modCluster_self]
      rw [if_neg (haim.trans_lt hdown).ne', stepRail_noChange hc, haim, if_neg (Nat.not_lt_of_gt hdown)]
      exact ⟨rfl, rfl, rfl, rfl⟩
    case settled => exact congrArg Host.Outcome.next (modCluster_congr (f := settleRail) (if_pos (hg.trans (railAim_free hs).symm)))
    case raised =>
      rw [cluster_modCluster_self, takeDivider_raise hc hn ((dividerReady_raise hs hn).2 ⟨hg, ht⟩),
        changeDone_nothingHeld (x := noteStreams { x with fstep := n }) hw]
      exact ⟨rfl, rfl, rfl⟩
    case waits =>
      refine congrArg _ (congrArg (s.setCluster k) (takeDivider_waits hc fun hready => ?_))
      obtain ⟨hat, ht⟩ := (dividerReady_raise hs hn).1 hready
      exact hg.elim (absurd hat) (fun h => Bool.false_ne_true (ht.symm.trans h))
    case lowered =>
      rw [cluster_modCluster_self, takeDivider_lower hc hn hs]
      exact lowerDone_nothingHeld hw

end

section
/-! PROOFS. The tag instructions of a thread alone (R231 to R234). -/

namespace Sys2Proof.Machine

set_option Elab.async false  -- theorem after theorem: every thread of a compile takes a stack of its own

/-! ### Results and waits of a thread alone -/

/-- A register written at once where a result has no more. -/
theorem applyRes_reg (s : State) (t : Nat) (d : Reg) (ws : List Word) : applyRes s t true (.reg d ws) = writeReg s t true d ws :=
  modThread_same (s := writeReg s t true d ws) (fpflags_or_none _)

/-- The predicate that an instruction may name gets a value with its register. -/
def Res.withPred (r : Res) (q : Option PDst) (b : Bool) : Res :=
  { r with preds := match q with | some q => [(q.val, b)] | none => [] }

theorem applyRes_regPred (s : State) (t : Nat) (d : Reg) (ws : List Word) (q : Option PDst) (b : Bool) :
    applyRes s t true ((Res.reg d ws).withPred q b) = writePred (writeReg s t true d ws) t q b := by
  cases q with
  | none => exact applyRes_reg s t d ws
  | some q =>
    refine congrArg (State.modThread (writeReg s t true d ws) t) (funext fun th => ?_)
    have h := fpflags_or_none (qwrite q.val b th)
    rw [qwrite_fpflags] at h
    exact h

section
variable {s s1 : State} {t : Nat} {c : Ctl} {us : List Nat} {f : State → Nat → State → Lane}

/-- A thread that begins a wait which keeps its issue waits in its instruction. -/
theorem forOut_waits (h : Alone s t c) {w : Wait} (hw : keepsIssue (.waiting w) = true)
    (hf : f s t s = .done (s1.modThread t (fun x => { x with run := .waiting w }))) :
    forOut c us f s = .next (waitsIn s c t s1 w) := by
  rw [forOut_alone h, hf]
  exact congrArg (fun s' => Host.Outcome.next (captureHeld s s')) (keepIssue_waiting hw ..)

end

/-! ### Waits on tags (R232) -/

/-- The tags of a core with a bit set, as a word. -/
def tagBits (x : Core) (f : Tag → Bool) : DWord := BitVec.ofNat 64 (tagMap x f)

theorem tagsMet_any {x : Core} {m : DWord} (h : tagBits x (·.ready) &&& m ≠ 0 ∨ m = 0) :
    tagsMet x false m = some (tagBits x (·.ready) &&& m) := if_pos h

theorem tagsMet_any_none {x : Core} {m : DWord} (h : tagBits x (·.ready) &&& m = 0) (hm : m ≠ 0) : tagsMet x false m = none :=
  if_neg (not_or.2 ⟨not_not.2 h, hm⟩)

theorem tagsMet_all {x : Core} {m : DWord} (h : tagBits x (·.ready) &&& m = m) :
    tagsMet x true m = some (tagBits x (·.err) &&& m) := if_pos h

theorem tagsMet_all_none {x : Core} {m : DWord} (h : tagBits x (·.ready) &&& m ≠ m) : tagsMet x true m = none := if_neg h

section
variable {s : State} {t : Nat} {c : Ctl} (h : Alone s t c) (q : Option PDst) (d : Reg) (m : Src)
include h

/-- A wait that is met returns its value, and its predicate is 0. -/
theorem execTagWait_met {all : Bool} {v : DWord}
    (hv : tagsMet (s.core (coreOfThread t)) all (srcD (s.thread t) (s.group (s.thread t).group) m) = some v) :
    execTagWait c all q d m s = .next (finishedNext t (writePred (writeReg s t true d (dwords v)) t q false)) := by
  rw [← applyRes_regPred]
  refine forOut_retires h ?_
  simp only [hv, retireAlu_alone h.sfu, leadOf_solo h.toSolo, beq_self_eq_true]
  rfl

theorem execTagWait_waits {all : Bool}
    (hv : tagsMet (s.core (coreOfThread t)) all (srcD (s.thread t) (s.group (s.thread t).group) m) = none) :
    execTagWait c all q d m s =
      .next (waitsIn s c t s (.tags all (some d) q (srcD (s.thread t) (s.group (s.thread t).group) m))) := by
  refine forOut_waits h rfl ?_
  simp only [hv, leadOf_solo h.toSolo, beq_self_eq_true, keepDest_lead]

end

/-! ### FFR, TAGCLR, TAGRD (R233, R234) -/

/-- Position of the lowest set bit of a word, 64 where none is set. -/
def lowestBit (x : DWord) : Nat := ((List.range 64).find? (fun i => x.getLsbD i)).getD 64

theorem lowestBit_spec (x : DWord) : (∀ j, j < lowestBit x → j < 64 → x.getLsbD j = false) ∧
    (lowestBit x < 64 ∧ x.getLsbD (lowestBit x) = true ∨ lowestBit x = 64) := by
  unfold lowestBit
  cases hf : (List.range 64).find? (fun i => x.getLsbD i) with
  | none =>
    rw [List.find?_eq_none] at hf
    exact ⟨fun j _ hj => by simpa using hf j (List.mem_range.2 hj), .inr rfl⟩
  | some i =>
    obtain ⟨hset, hmem, hbelow⟩ := List.find?_range_eq_some.1 hf
    exact ⟨fun j hj _ => by simpa using hbelow j hj, .inl ⟨List.mem_range.1 hmem, hset⟩⟩

end Sys2Proof.Machine

open Sys2Proof Sys2Proof.Machine

/-- Settles O38: a wait by whether it is met, FFR by its lowest bit, TAGCLR and TAGRD by their lane functions. -/
theorem tagInstructions : Obligations.TagInstructions := by
  unfold Obligations.TagInstructions
  intro s t c h th g co ready errs
  refine ⟨fun q d m hm => execTagWait_met h q d m (tagsMet_any hm),
    fun q d m hr hm => execTagWait_waits h q d m (tagsMet_any_none hr hm),
    fun q d m hm => execTagWait_met h q d m (tagsMet_all hm),
    fun q d m hm => execTagWait_waits h q d m (tagsMet_all_none hm), fun d m => ?ffr, fun m => ?tagclr, fun d n => ?tagrd⟩
  case ffr =>
    obtain ⟨hbelow, hbit⟩ := lowestBit_spec (ready &&& srcD th g m)
    refine ⟨_, hbelow, hbit, ?_⟩
    rw [← applyRes_reg, BitVec.and_comm]
    exact forLanes_result h _ (fun s _ => s) fun s0 t => .reg d [BitVec.ofNat 32 (lowestBit
      (srcD (s0.thread t) (s0.group (s0.thread t).group) m &&& tagBits (s0.core (coreOfThread t)) (·.ready)))]
  case tagclr =>
    refine forOut_retires h ?_
    simp only [Bool.not_and]
    rfl
  case tagrd =>
    rw [← applyRes_nat]
    exact forLanes_result h _ (fun s _ => s) fun s0 t =>
      .nat d 1 (tagWord (tagOf s0 (coreOfThread t) (srcNat (s0.thread t) (s0.group (s0.thread t).group) 1 n % 64)))

end

section
/-! PROOFS. Fences and group barriers of a thread alone (R220 to R222, R261 to R263). -/

namespace Sys2Proof.Machine

set_option Elab.async false  -- theorem after theorem: every thread of a compile takes a stack of its own

/-! ### Instructions that trap, and those that leave a thread as it is to be -/

section
variable {s s' : State} {t : Nat} {c : Ctl} {us : List Nat} {f : State → Nat → State → Lane}

/-- A trap that counts no error of its own. -/
theorem forOut_trapA (h : Alone s t c) {code : Nat} {addr : DWord} (hcode : code ≠ 8 ∧ code ≠ 0x52 ∧ code ≠ 0x50 ∧ code ≠ 0x51)
    (hf : f s t s = .trapA code addr) : forOut c us f s = .next (takeTrap s t code 0 addr 0 false) := by
  obtain ⟨h8, h52, h50, h51⟩ := hcode
  rw [forOut_alone h, hf]
  simp only [Lane.trapA, trapCount_other s t code 0 addr ⟨h8, h52⟩ (.inl ⟨h50, h51⟩)]

/-- A thread that goes on, or waits without its issue, is left as its instruction leaves it. -/
theorem forOut_done (h : Alone s t c) (hf : f s t s = .done s') (hk : keepsIssue (s'.thread t).run = false)
    (hh : (s'.thread t).held = none) : forOut c us f s = .next s' := by
  have hkeep : keepIssue s c t s' = s' := if_neg (by rw [hk]; exact Bool.false_ne_true)
  rw [forOut_alone h, hf]
  simp only [keptDone, hkeep, captureHeld_one h.only hh]

end

/-! ### How many threads of a group are alive -/

/-- A listed value that is replaced by one which passes a test where the other does lets no fewer pass. -/
theorem length_filter_le_tset {α : Type} {x : Nat} {v y : α} {p : Nat × α → Bool} :
    ∀ {t : Tbl α}, tfind t x = some v → (p (x, v) = true → p (x, y) = true) →
      (t.filter p).length ≤ ((tset x y t).filter p).length
  | [], hf, _ => by cases hf
  | (k, w) :: t, hf, hp => by
    unfold tfind at hf
    unfold tset
    split_ifs at hf ⊢ with h1
    · obtain rfl := Option.some.inj hf
      rw [List.filter_cons, List.filter_cons, ← h1]
      by_cases hw : p (x, w) = true
      · rw [if_pos hw, if_pos (hp hw)]
        exact Nat.le_refl _
      · rw [if_neg hw]
        split_ifs
        · exact Nat.le_succ _
        · exact Nat.le_refl _
    · rw [List.filter_cons, List.filter_cons]
      split_ifs
      · exact Nat.succ_le_succ (length_filter_le_tset hf hp)
      · exact length_filter_le_tset hf hp

theorem liveOf_eq_filter (s : State) (g : Nat) : s.liveOf g = s.threads.filter (fun p => p.2.run != .exited && p.2.group == g) := by
  rw [State.liveOf, State.threadsOf, List.filter_filter]

section
variable {s : State} {t : Nat} {f : Thread → Thread}

/-- No fewer threads of a group are alive once one of them goes on or waits. -/
theorem liveOf_le_modThread (hg : ∀ x, (f x).group = x.group) (hr : ∀ x, (f x).run ≠ .exited) (g : Nat) :
    (s.liveOf g).length ≤ ((s.modThread t f).liveOf g).length := by
  rw [liveOf_eq_filter, liveOf_eq_filter, State.modThread_threads]
  unfold tmod
  cases ht : tfind s.threads t with
  | none => exact Nat.le_refl _
  | some x => exact length_filter_le_tset ht (by simp [hg, hr])

/-- As many are alive where that one was. -/
theorem liveOf_modThread (hg : ∀ x, (f x).group = x.group) (hr : ∀ x, (f x).run ≠ .exited) (hl : (s.thread t).run ≠ .exited) (g : Nat) :
    ((s.modThread t f).liveOf g).length = (s.liveOf g).length := by
  rw [liveOf_eq_filter, liveOf_eq_filter, State.modThread_threads]
  unfold tmod
  cases ht : tfind s.threads t with
  | none => rfl
  | some x =>
    have hx : s.thread t = x := by rw [State.thread, ht]; rfl
    rw [hx] at hl
    exact length_filter_tset ht (by simp only [hg, bne_iff_ne.2 (hr x), bne_iff_ne.2 hl])

end

/-- A thread that goes on at another instruction, its own retired. -/
def Thread.wentOn (pc : DWord) (x : Thread) : Thread := x.retired' pc

theorem liveOf_congr {s s' : State} (h : s'.threads = s.threads) (g : Nat) : s'.liveOf g = s.liveOf g := by
  rw [liveOf_eq_filter, liveOf_eq_filter, h]

/-- Retired, a thread is alive. -/
theorem liveOf_le_finishedNext (s : State) (t g : Nat) : (s.liveOf g).length ≤ ((finishedNext t s).liveOf g).length :=
  liveOf_le_modThread (f := Thread.wentOn ((s.thread t).pc + 16)) (fun _ => rfl) (fun _ hx => by cases hx) g

theorem liveOf_finishedNext_alive {s : State} {t : Nat} (h : (s.thread t).run ≠ .exited) (g : Nat) :
    ((finishedNext t s).liveOf g).length = (s.liveOf g).length :=
  liveOf_modThread (f := Thread.wentOn ((s.thread t).pc + 16)) (fun _ => rfl) (fun _ hx => by cases hx) h g

/-- A thread that waits. -/
def Thread.waitsFor (w : Wait) (x : Thread) : Thread := { x with run := .waiting w }

theorem liveOf_le_waitsFor (s : State) (t : Nat) (w : Wait) (g : Nat) :
    (s.liveOf g).length ≤ ((s.modThread t (Thread.waitsFor w)).liveOf g).length :=
  liveOf_le_modThread (f := Thread.waitsFor w) (fun _ => rfl) (fun _ hx => by cases hx) g

theorem liveOf_waitsFor {s : State} {t : Nat} (h : (s.thread t).run ≠ .exited) (w : Wait) (g : Nat) :
    ((s.modThread t (Thread.waitsFor w)).liveOf g).length = (s.liveOf g).length :=
  liveOf_modThread (f := Thread.waitsFor w) (fun _ => rfl) (fun _ hx => by cases hx) h g

theorem liveOf_recPlaced (s : State) (f : FRec) (r g : Nat) : ((recPlaced s f r).liveOf g).length = (s.liveOf g).length := by
  rw [liveOf_eq_filter, liveOf_eq_filter]
  unfold recPlaced tmap
  rw [List.filter_map, List.length_map]
  refine congrArg (fun p => (s.threads.filter p).length) (funext fun q => ?_)
  dsimp only [Function.comp]
  split
  · split_ifs <;> rfl
  · rfl

/-- What a sent record makes of the threads: nothing, or its place is learnt. -/
theorem sendRec_threads (s : State) (part l : Nat) (f : FRec) :
    (sendRec s part l f).threads = s.threads ∨ ∃ r, (sendRec s part l f).threads = (recPlaced s f r).threads := by
  unfold sendRec
  split_ifs
  · exact .inr ⟨_, rfl⟩
  · unfold emitRecord
    split_ifs
    · cases hr : ringWrite (noteFault s l f.code f.detail) part f with
      | none => exact .inl (by rw [Option.getD_none]; rfl)
      | some s' => exact .inr ⟨((noteFault s l f.code f.detail).part part).frhead.toNat, by rw [Option.getD_some, ringWrite_threads hr]; rfl⟩
    · exact .inl rfl

theorem liveOf_sendRec (s : State) (part l : Nat) (f : FRec) (g : Nat) :
    ((sendRec s part l f).liveOf g).length = (s.liveOf g).length := by
  rcases sendRec_threads s part l f with h | ⟨r, h⟩
  · rw [liveOf_congr h]
  · rw [liveOf_congr h, liveOf_recPlaced]

/-- A thread that traps is still alive. -/
theorem liveOf_takeTrap {s : State} {t : Nat} (h : (s.thread t).run ≠ .exited) (code detail : Nat) (addr : DWord) (gpa : Nat) (w : Bool)
    (g : Nat) : ((takeTrap s t code detail addr gpa w).liveOf g).length = (s.liveOf g).length := by
  unfold takeTrap
  simp only [freshId]
  rw [liveOf_sendRec]
  have hlive (r : Option FRec) := liveOf_modThread (s := s) (t := t)
    (f := fun x => { x with run := .parked false, lastRec := r, stalled := false, held := none }) (fun _ => rfl)
    (fun _ hx => by cases hx) h g
  rw [← hlive]
  split_ifs
  · exact congrArg List.length (liveOf_congr rfl g)
  · exact congrArg List.length (liveOf_congr rfl g)

/-! ### FENCE (R261 to R263) -/

theorem execFence_ready {s : State} {t : Nat} {c : Ctl} (h : Alone s t c) {ord : FenceOrd} {sc : Scope}
    (hr : (if ord = .acq then loadsDone s t else releaseReady s t sc) = true) :
    exec (.fence c ord sc) s = .next (finishedNext t
      (acquireAt (releaseAt s (coreOfThread t) (s.partOf t) sc (fenceOrder ord)) (coreOfThread t) sc (fenceOrder ord))) := by
  refine forOut_retires h ?_
  have hready (b : Bool) (hb : b = true) : ¬(!b) = true := by simp [hb]
  cases ord with
  | acq => exact if_neg (hready _ hr)
  | rel => exact if_neg (hready _ hr)
  | ar => exact if_neg (hready _ hr)

/-! ### A phase that stays open (R221) -/

section
variable {s : State} {g id : Nat}

theorem barSettle_open (hcount : (gbar s g id).count = 0 ∨ (gbar s g id).count < barExpected s g (gbar s g id))
    (hclosing : (gbar s g id).closing = []) : barSettle s g id = s := by
  have hclose : barClose s g (gbar s g id) = gbar s g id := by
    unfold barClose
    rw [if_neg (by omega)]
  unfold barSettle
  simp only [hclose, hclosing, List.filter_nil, List.isEmpty_nil, Bool.true_and]
  rw [if_pos]
  rw [beq_iff_eq, ← hclosing]

theorem PhasesOpen.gbar (h : PhasesOpen s g) (id : Nat) : ((gbar s g id).count = 0 ∨ (Machine.gbar s g id).count <
    barExpected s g (Machine.gbar s g id)) ∧ (Machine.gbar s g id).closing = [] := by
  unfold Machine.gbar tget
  cases hf : tfind (s.group g).bars id with
  | none => exact ⟨.inl rfl, rfl⟩
  | some b =>
    obtain ⟨hcount, hclosing⟩ := h _ (mem_of_tfind hf)
    exact ⟨.inr hcount, hclosing⟩

/-- A trap completes no phase where none is about to complete. -/
theorem barSettle_takeTrap {t : Nat} (h : PhasesOpen s g) (hr : (s.thread t).run ≠ .exited) (code detail : Nat) (addr : DWord) (gpa : Nat)
    (w : Bool) : barSettle (takeTrap s t code detail addr gpa w) g id = takeTrap s t code detail addr gpa w := by
  have hbar : Machine.gbar (takeTrap s t code detail addr gpa w) g id = Machine.gbar s g id := by
    obtain ⟨gc, hg⟩ := takeTrap_group s t code detail addr gpa w g
    unfold Machine.gbar
    rw [hg]
  have hexp (b : GBar) : barExpected (takeTrap s t code detail addr gpa w) g b = barExpected s g b := by
    unfold barExpected
    rw [liveOf_takeTrap hr]
  obtain ⟨hcount, hclosing⟩ := h.gbar id
  refine barSettle_open ?_ (by rw [hbar]; exact hclosing)
  rw [hexp, hbar]
  exact hcount

end

/-! ### BAR (R220, R221) -/

/-- What BAR does for a thread whose loads have returned. -/
def barLane (arv : Bool) (id : Fin 16) (n : Src) (s0 : State) (t : Nat) (s : State) : Lane :=
  let th := s0.thread t
  let g := s0.group th.group
  let k := srcNat th g 1 n
  let b := gbar s th.group id.val
  if g.size < k then .trapC 0x13
  else if b.count ≠ 0 ∧ b.n ≠ k then .trapC 0x14
  else
    let s := barArrive s t id.val k
    if arv then .retire s else .done (s.modThread t (Thread.waitsFor (.bar id.val b.phase)))

/-- The arrivals that BAR asks for. -/
def barAsked (s : State) (t : Nat) (n : Src) : Nat := srcNat (s.thread t) (s.group (s.thread t).group) 1 n

section
variable {s s' : State} {t : Nat} {c : Ctl} {arv : Bool} {id : Fin 16} {n : Src}

/-- The barrier settles after the turn of its only thread. -/
theorem execBar_alone (h : Alone s t c) (hr : forOut c [] (gated c barReady waitAgain (barLane arv id n)) s = .next s') :
    exec (.bar c arv id n) s = .next (barSettle s' (s.thread t).group id.val) := by
  have hrun : runLanes c [] (outward (gated c barReady waitAgain (barLane arv id n))) s = s' := Host.Outcome.next.inj hr
  rw [← hrun]
  show execBar c arv id n s = _
  unfold execBar
  rw [h.only]
  rfl

theorem execBar_traps (h : Alone s t c) {code : Nat} (hcode : code ≠ 8 ∧ code ≠ 0x52 ∧ code ≠ 0x50 ∧ code ≠ 0x51)
    (ho : PhasesOpen s (s.thread t).group) (hr : (s.thread t).run = .running) (hf : barLane arv id n s t s = .trapC code) :
    exec (.bar c arv id n) s = .next (takeTrap s t code 0 0 0 false) := by
  rw [execBar_alone h (forOut_trapA h hcode (gated_traps hf)), barSettle_takeTrap ho (by rw [hr]; exact fun hx => by cases hx)]

/-- The barrier once the thread's arrival is counted. -/
def arrivedBar (s : State) (t id k : Nat) : GBar :=
  let b := gbar s (s.thread t).group id
  { b with n := k, count := b.count + 1, rel := if (storesOf s t).isEmpty then b.rel else b.rel ++ [(t, s.nextId)] }

theorem modGroup_congr {s : State} {g : Nat} {f f' : Group → Group} (h : f (s.group g) = f' (s.group g)) :
    s.modGroup g f = s.modGroup g f' := by
  unfold State.modGroup tmod
  cases hf : tfind s.groups g with
  | none => rfl
  | some x =>
    rw [group_of_tfind hf] at h
    simp only [h]

theorem barArrive_eq (s : State) (t id k : Nat) : barArrive s t id k =
    s.modGroup (s.thread t).group (fun g => { g with bars := tset id (arrivedBar s t id k) g.bars }) :=
  modGroup_congr rfl

/-- The barrier of the thread's group after its arrival, in a state where its group has the barriers of then. -/
theorem gbar_arrived {s' : State} {k : Nat} (h : Alone s t c)
    (hb : (s'.group (s.thread t).group).bars = ((barArrive s t id k).group (s.thread t).group).bars) :
    gbar s' (s.thread t).group id = arrivedBar s t id k := by
  have hg := h.groups t (by rw [h.only]; exact List.mem_singleton.2 rfl)
  unfold gbar
  rw [hb, barArrive_eq, group_modGroup _ _ _ _ hg, if_pos rfl, tget_tset, if_pos rfl]

/-- An arrival without which its phase is not complete settles nothing. -/
theorem barSettle_arrived {k : Nat} (h : Alone s t c)
    (hb : (s'.group (s.thread t).group).bars = ((barArrive s t id k).group (s.thread t).group).bars)
    (hlive : (s.liveOf (s.thread t).group).length ≤ (s'.liveOf (s.thread t).group).length)
    (hclosing : (gbar s (s.thread t).group id).closing = [])
    (hcount : (gbar s (s.thread t).group id).count + 1 < if k = 0 then (s.liveOf (s.thread t).group).length else k) :
    barSettle s' (s.thread t).group id = s' := by
  have hbar := gbar_arrived h hb
  refine barSettle_open (.inr ?_) (by rw [hbar]; exact hclosing)
  rw [hbar]
  refine hcount.trans_le ?_
  unfold barExpected
  show _ ≤ if k = 0 then _ else k
  split_ifs
  · exact hlive
  · exact Nat.le_refl _

/-- A thread that may arrive, at a barrier whose phase takes its count, arrives. -/
theorem barLane_arrives (hk : barAsked s t n ≤ (s.group (s.thread t).group).size)
    (hb : (gbar s (s.thread t).group id).count = 0 ∨ (gbar s (s.thread t).group id).n = barAsked s t n) :
    barLane arv id n s t s = if arv then .retire (barArrive s t id (barAsked s t n))
      else .done ((barArrive s t id (barAsked s t n)).modThread t
        (Thread.waitsFor (.bar id.val (gbar s (s.thread t).group id.val).phase))) := by
  have hsame : ¬((gbar s (s.thread t).group id).count ≠ 0 ∧ (gbar s (s.thread t).group id).n ≠ barAsked s t n) := by
    rintro ⟨h0, hn⟩
    exact hb.elim h0 hn
  exact (if_neg (Nat.not_lt.2 hk)).trans (if_neg hsame)

end

section
variable {s : State} {t : Nat} {c : Ctl} {id : Fin 16} {n : Src} (h : Alone s t c)
  (hready : barReady s t = true) (hk : barAsked s t n ≤ (s.group (s.thread t).group).size)
  (hb : (gbar s (s.thread t).group id).count = 0 ∨ (gbar s (s.thread t).group id).n = barAsked s t n)
  (hclosing : (gbar s (s.thread t).group id).closing = [])
  (hcount : (gbar s (s.thread t).group id).count + 1 <
    if barAsked s t n = 0 then (s.liveOf (s.thread t).group).length else barAsked s t n)

include h hready hk hb hclosing hcount

/-- An arrival that completes no phase retires at once with `.arv`. -/
theorem execBar_goesOn : exec (.bar c true id n) s = .next (finishedNext t (barArrive s t id (barAsked s t n))) := by
  have hturn := forOut_retires (us := []) h ((gated_solo (wait := waitAgain) h.toSolo hready).trans
    (barLane_arrives (arv := true) (id := id) hk hb))
  rw [execBar_alone h hturn,
    barSettle_arrived h (finishedNext_bars _) (liveOf_le_finishedNext (barArrive s t id (barAsked s t n)) t _) hclosing hcount]

/-- Without `.arv` it waits for the phase. -/
theorem execBar_waits : exec (.bar c false id n) s = .next ((barArrive s t id (barAsked s t n)).modThread t
    (Thread.waitsFor (.bar id.val (gbar s (s.thread t).group id).phase))) := by
  have hl := h.listed t (by rw [h.only]; exact List.mem_singleton.2 rfl)
  have hthread := (thread_modThread (barArrive s t id (barAsked s t n)) t t
    (Thread.waitsFor (.bar id.val (gbar s (s.thread t).group id).phase)) hl).trans (if_pos rfl)
  have hturn := forOut_done (us := []) h ((gated_solo (wait := waitAgain) h.toSolo hready).trans
    (barLane_arrives (arv := false) (id := id) hk hb)) (by rw [hthread]; rfl) (by rw [hthread]; exact h.unheld)
  rw [execBar_alone h hturn]
  exact congrArg Host.Outcome.next (barSettle_arrived h rfl
    (liveOf_le_waitsFor (barArrive s t id (barAsked s t n)) t (.bar id.val (gbar s (s.thread t).group id).phase) _) hclosing hcount)

end

/-! ### The last arrival of a phase (R221) -/

/-- A phase of one arrival, and the only one of its group's barriers, is complete: the barrier is empty, and those who wait for it retire. -/
theorem barSettle_completes {s : State} {g id k : Nat} (hb : gbar s g id = { n := k, count := 1 })
    (hexp : barExpected s g { n := k, count := 1 } ≤ 1) : barSettle s g id =
      ((s.threadsOf g).filter (fun p => p.2.run == .waiting (.bar id 0))).foldl (fun s p => retireWaiter s p.1 true)
        (s.modGroup g (fun x => { x with bars := tdel id x.bars })) := by
  have hclose : barClose s g (gbar s g id) = { phase := 1, closing := [(0, [])] } := by
    rw [hb]
    exact if_pos ⟨one_ne_zero, hexp⟩
  have hperformed : relPerformed s [] = true := rfl
  unfold barSettle
  simp only [hclose, List.filter_cons, List.filter_nil, hperformed, Bool.not_true, Bool.false_eq_true, if_true, if_false, List.isEmpty_cons,
    Bool.false_and, and_self, List.any_cons, List.any_nil, Bool.or_false]
  rfl

/-- The thread's arrival was the last of its phase: its group's barriers are empty, it goes on, and nothing else of the threads and of the
rest of the machine has changed. -/
structure BarPassed (s s' : State) (t : Nat) : Prop where
  bars : (s'.group (s.thread t).group).bars = []
  pc : (s'.thread t).pc = (s.thread t).pc + 16
  run : (s'.thread t).run = .running
  v : (s'.thread t).v = (s.thread t).v
  outer : outerState s' = outerState s
  others : ∀ u, u ≠ t → s'.thread u = s.thread u

section
variable {s s1 : State} {t : Nat} {c : Ctl} {id k : Nat}

/-- The group's barriers once the empty one has left them. -/
theorem bars_emptied (h : Alone s t c) (hbars : (s.group (s.thread t).group).bars = [])
    (hb : (s1.group (s.thread t).group).bars = ((barArrive s t id k).group (s.thread t).group).bars)
    (hl : (tfind s1.groups (s.thread t).group).isSome = true) :
    ((s1.modGroup (s.thread t).group (fun x => { x with bars := tdel id x.bars })).group (s.thread t).group).bars = [] := by
  have hg := h.groups t (by rw [h.only]; exact List.mem_singleton.2 rfl)
  rw [group_modGroup _ _ _ _ hl, if_pos rfl]
  show tdel id _ = []
  rw [hb, barArrive_eq, group_modGroup _ _ _ _ hg, if_pos rfl, hbars]
  exact if_pos rfl

end

theorem threads_modThread_listed {s : State} {t : Nat} (h : (tfind s.threads t).isSome = true) (f : Thread → Thread) :
    (s.modThread t f).threads = tset t (f (s.thread t)) s.threads := by
  obtain ⟨x, hx⟩ := Option.isSome_iff_exists.1 h
  rw [State.modThread_threads, tmod, State.thread, hx]
  rfl

/-- A thread that begins a wait in which no other is waits there alone. -/
theorem waiters_only {s : State} {t : Nat} {w : Wait} (h : (tfind s.threads t).isSome = true) (hr : Rising s.threads)
    (hw : ∀ p ∈ s.threads, p.2.run ≠ .waiting w) :
    ((s.modThread t (Thread.waitsFor w)).threadsOf (s.thread t).group).filter (fun p => p.2.run == .waiting w) =
      [(t, (s.thread t).waitsFor w)] := by
  rw [State.threadsOf, List.filter_filter, threads_modThread_listed h]
  refine filter_eq_singleton (hr.tset t _) (mem_of_tfind (tfind_tset_self ..)) (by simp [Thread.waitsFor]) fun q hq hf => ?_
  rcases tset_keys t _ _ hq with rfl | hq
  · rfl
  · exact absurd (beq_iff_eq.1 (Bool.and_eq_true_iff.1 hf).1) (hw q hq)

/-- A wait that ends: its thread goes on, and nothing but threads, group counters and windows changes. -/
theorem retireWaiter_leaves {s : State} {t : Nat} (h : (tfind s.threads t).isSome = true) (own : Bool) :
    (∀ u, (retireWaiter s t own).thread u = if u = t
      then { (s.thread t).retired' ((s.thread t).pc + 16) with detHeld := s.detOf t && !own } else s.thread u) ∧
    outerState (retireWaiter s t own) = outerState s ∧
    ∀ g, ((retireWaiter s t own).group g).bars = (s.group g).bars := by
  obtain ⟨houter, -, hgroups, hthreads, hlisted, -⟩ := retireTo_turned s t ((s.thread t).pc + 16) h
  refine ⟨fun u => ?_, houter, fun g => ?_⟩
  · refine (thread_modThread (retire s t) t u _ ((hlisted t).trans h)).trans ?_
    rw [retire, hthreads, hthreads, if_pos rfl]
    split_ifs <;> rfl
  · show ((retireTo s t ((s.thread t).pc + 16)).group g).bars = _
    rw [hgroups g]

section
variable {s s1 : State} {t : Nat} {c : Ctl} {id : Fin 16} {n : Src} (h : Alone s t c)
  (hone : barAsked s t n = 1 ∨ barAsked s t n = 0 ∧ (s.liveOf (s.thread t).group).length = 1)
  (hk : barAsked s t n ≤ (s.group (s.thread t).group).size) (hrun : (s.thread t).run ≠ .exited) (hacc : accessesDone s t = true)
  (hbars : (s.group (s.thread t).group).bars = []) (hr : Rising s.threads)
  (hw : ∀ p ∈ s.threads, ∀ phase, p.2.run ≠ .waiting (.bar id.val phase))

theorem barReady_of_accessesDone (hacc : accessesDone s t = true) : barReady s t = true ∧ (storesOf s t).isEmpty = true := by
  unfold accessesDone at hacc
  simp only [Bool.and_eq_true] at hacc
  obtain ⟨⟨hloads, hlogged⟩, hstores⟩ := hacc
  exact ⟨by simp [barReady, loadsDone, hloads, hlogged, hstores], hstores⟩

include h hone hacc hbars in
/-- Once the thread has arrived, its phase is complete. -/
theorem barSettle_last (hb : (s1.group (s.thread t).group).bars = ((barArrive s t id (barAsked s t n)).group (s.thread t).group).bars)
    (hlive : (s1.liveOf (s.thread t).group).length = (s.liveOf (s.thread t).group).length) :
    barSettle s1 (s.thread t).group id =
      ((s1.threadsOf (s.thread t).group).filter (fun p => p.2.run == .waiting (.bar id 0))).foldl (fun s p => retireWaiter s p.1 true)
        (s1.modGroup (s.thread t).group (fun x => { x with bars := tdel id x.bars })) := by
  have hempty : gbar s (s.thread t).group id = {} := by
    unfold gbar
    rw [hbars]
    rfl
  have harrived : arrivedBar s t id (barAsked s t n) = { n := barAsked s t n, count := 1 } := by
    unfold arrivedBar
    rw [hempty, (barReady_of_accessesDone hacc).2]
    rfl
  refine barSettle_completes ((gbar_arrived h hb).trans harrived) ?_
  unfold barExpected
  rcases hone with hn | ⟨hn, hl⟩
  · rw [hn]
    exact Nat.le_refl 1
  · rw [if_pos hn, hlive, hl]

include h hone hk hrun hacc hbars

include hw in
theorem execBar_lastArrival : ∃ s', exec (.bar c true id n) s = .next s' ∧ BarPassed s s' t := by
  have hl := h.listed t (by rw [h.only]; exact List.mem_singleton.2 rfl)
  have hg := h.groups t (by rw [h.only]; exact List.mem_singleton.2 rfl)
  have hlane : barLane true id n s t s = .retire (barArrive s t id (barAsked s t n)) := barLane_arrives hk (.inl (by rw [gbar, hbars]; rfl))
  have hturn := (forOut_retires (us := []) h ((gated_solo (wait := waitAgain) h.toSolo (barReady_of_accessesDone hacc).1).trans hlane))
  obtain ⟨houter, -, hgroups, hthreads, -, hplaced⟩ :=
    retireTo_turned (barArrive s t id (barAsked s t n)) t ((s.thread t).pc + 16) hl
  have hbarsKept : ((finishedNext t (barArrive s t id (barAsked s t n))).group (s.thread t).group).bars =
    ((barArrive s t id (barAsked s t n)).group (s.thread t).group).bars := finishedNext_bars _
  have hnone : ((finishedNext t (barArrive s t id (barAsked s t n))).threadsOf (s.thread t).group).filter
      (fun p => p.2.run == .waiting (.bar id 0)) = [] := by
    refine List.filter_eq_nil_iff.2 fun p hp hwait => ?_
    rcases mem_finishedNext_threads (List.mem_filter.1 hp).1 with hrun | hmem
    · rw [hrun] at hwait
      cases hwait
    · exact hw p hmem 0 (beq_iff_eq.1 hwait)
  refine ⟨_, execBar_alone h hturn, ?_⟩
  rw [barSettle_last h hone hacc hbars hbarsKept (liveOf_finishedNext_alive (s := barArrive s t id (barAsked s t n)) hrun _), hnone]
  have hself := (hthreads t).trans (if_pos rfl)
  refine ⟨bars_emptied h hbars hbarsKept ((hplaced _).trans ?_), (congrArg Thread.pc hself :), (congrArg Thread.run hself :),
    (congrArg Thread.v hself :), houter, fun u hu => (hthreads u).trans (if_neg hu)⟩
  rw [barArrive_eq, placed_modGroup]
  exact hg

include hr hw in
theorem execBar_lastWaits : ∃ s', exec (.bar c false id n) s = .next s' ∧ BarPassed s s' t := by
  have hl := h.listed t (by rw [h.only]; exact List.mem_singleton.2 rfl)
  have hg := h.groups t (by rw [h.only]; exact List.mem_singleton.2 rfl)
  have hempty : gbar s (s.thread t).group id.val = {} := by rw [gbar, hbars]; rfl
  have hlane : barLane false id n s t s = .done ((barArrive s t id (barAsked s t n)).modThread t
      (Thread.waitsFor (.bar id.val 0))) := by
    rw [barLane_arrives hk (.inl (by rw [hempty])), hempty]
    rfl
  have hthread (u : Nat) := thread_modThread (barArrive s t id (barAsked s t n)) t u
    (Thread.waitsFor (.bar id.val 0)) hl
  have hself := (hthread t).trans (if_pos rfl)
  have hturn := forOut_done (us := []) h ((gated_solo (wait := waitAgain) h.toSolo (barReady_of_accessesDone hacc).1).trans hlane)
    (by rw [hself]; rfl) (by rw [hself]; exact h.unheld)
  have hlistedWaits : (tfind ((barArrive s t id (barAsked s t n)).modThread t
      (Thread.waitsFor (.bar id.val 0))).threads t).isSome = true := (listed_modThread ..).trans hl
  have honly : (((barArrive s t id (barAsked s t n)).modThread t (Thread.waitsFor (.bar id.val 0))).threadsOf
      (s.thread t).group).filter (fun p => p.2.run == .waiting (.bar id 0)) =
      [(t, (s.thread t).waitsFor (.bar id.val 0))] := by
    exact waiters_only hl hr fun p hp => hw p hp 0
  refine ⟨_, execBar_alone h hturn, ?_⟩
  rw [barSettle_last (s1 := (barArrive s t id (barAsked s t n)).modThread t (Thread.waitsFor (.bar id.val 0))) h hone hacc hbars rfl
    (liveOf_waitsFor (s := barArrive s t id (barAsked s t n)) hrun _ _), honly]
  obtain ⟨hthreads, houter, hbarsOf⟩ := retireWaiter_leaves (s := ((barArrive s t id (barAsked s t n)).modThread t
    (Thread.waitsFor (.bar id.val 0))).modGroup (s.thread t).group (fun x => { x with bars := tdel id.val x.bars }))
    hlistedWaits true
  have hpassed := (hthreads t).trans (if_pos rfl)
  refine ⟨(hbarsOf _).trans (bars_emptied h hbars rfl ?_), ?_, (congrArg Thread.run hpassed :), ?_, houter, fun u hu => ?_⟩
  · rw [State.modThread_groups, barArrive_eq, placed_modGroup]
    exact hg
  · exact (congrArg Thread.pc hpassed :).trans (congrArg (fun x => x.pc + 16) hself :)
  · exact (congrArg Thread.v hpassed :).trans (congrArg Thread.v hself :)
  · exact (hthreads u).trans ((if_neg hu).trans ((hthread u).trans (if_neg hu)))

end

end Sys2Proof.Machine

open Sys2Proof Sys2Proof.Machine

/-- Settles O35: a fence by what it waits for; of BAR, a trap and an arrival that is not the last settle nothing, and after the last its
phase is complete. -/
theorem fencesAndGroupBarriers : Obligations.FencesAndGroupBarriers := by
  unfold Obligations.FencesAndGroupBarriers
  intro s t c h th g co
  refine ⟨fun ord sc => execFence_ready h, fun id n ho hrun arv => ⟨fun hk => ?tooMany, fun hk h0 hn => ?mismatch⟩, ?arrives, ?completes⟩
  case tooMany => exact execBar_traps h (by decide) ho hrun (if_pos hk)
  case mismatch => exact execBar_traps h (by decide) ho hrun ((if_neg (Nat.not_lt.2 hk)).trans (if_pos ⟨h0, hn⟩))
  case arrives =>
    intro id n k b expected hready hk hb hclosing hcount rel arrived
    have harrived : barArrive s t id.val k = arrived := barArrive_eq s t id.val k
    rw [← harrived]
    exact ⟨execBar_goesOn h hready hk hb hclosing hcount, execBar_waits h hready hk hb hclosing hcount⟩
  case completes =>
    intro id n arv k hone hk hrun hacc hbars hr hw
    have hpassed : ∃ s', exec (.bar c arv id n) s = .next s' ∧ BarPassed s s' t := by
      cases arv with
      | true => exact execBar_lastArrival h hone hk hrun hacc hbars hw
      | false => exact execBar_lastWaits h hone hk hrun hacc hbars hr hw
    obtain ⟨s', hexec, hbarsNow, hpc, hrunNow, hv, houter, hothers⟩ := hpassed
    exact ⟨s', hexec, hbarsNow, hpc, hrunNow, hv, houter, hothers⟩

end

section
/-! PROOFS. The barrier objects: their instructions of a thread alone, and the update of an object (R211 to R218). -/

namespace Sys2Proof.Machine

set_option Elab.async false  -- theorem after theorem: every thread of a compile takes a stack of its own

/-! ### The operand -/

theorem testBit_zero_eq_flag (y : Nat) : y.testBit 0 = flag y 0 := by
  rw [Nat.testBit_zero, flag, bitsAt, pow_zero, Nat.div_one, pow_one]
  rfl

section
variable {s : State} {t : Nat} {a : Reg} {imm : Word} {reads : Bool} {f : Loc → Lane}

/-- A pointer to an object that can be used, and that reads without an uncorrectable error where it is read. -/
theorem boOperand_named {loc : Loc} (h : BarrierNamed s t a imm loc) (hue : reads = true → ueDetail s loc 16 = none) :
    boOperand s s t a imm reads f = f loc := by
  have hdet : (if reads then ueDetail s loc 16 else none) = none := by
    split_ifs with hr
    · exact hue hr
    · rfl
  have hplace : boLoc s (coreOfThread t) (s.partOf t) (boPtr s t a imm) = some loc := h.place
  have hlegal : boPtrOk s (coreOfThread t) (s.partOf t) (boPtr s t a imm) = true := h.legal
  unfold boOperand
  simp only [hplace, hlegal, h.linked, hdet, Bool.not_true, Bool.false_eq_true, if_false]

/-- A pointer that names no legal object. -/
theorem boOperand_illegal (h : boPtrOk s (coreOfThread t) (s.partOf t) (boPtr s t a imm) = false) :
    boOperand s s t a imm reads f = .trapA 0x2B (boPtr s t a imm) := by
  unfold boOperand
  cases hl : boLoc s (coreOfThread t) (s.partOf t) (boPtr s t a imm) with
  | none => simp only [hl]
  | some loc => simp only [hl, h, Bool.not_false, if_true]

/-! ### The instructions -/

variable {c : Ctl} {us : List Nat} {ready : State → Nat → Bool} {wait : State → Nat → State} {loc : Loc} {s' : State}

/-- The instruction as what it does with its object. -/
def onObject (a : Reg) (imm : Word) (reads : Bool) (f : State → Nat → State → Loc → Lane) : State → Nat → State → Lane :=
  fun s0 t s => boOperand s0 s t a imm reads (f s0 t s)

variable {f : State → Nat → State → Loc → Lane}

theorem onObject_illegal (h : Alone s t c) (hp : boPtrOk s (coreOfThread t) (s.partOf t) (boPtr s t a imm) = false) :
    forOut c us (gated c ready wait (onObject a imm reads f)) s = .next (takeTrap s t 0x2B 0 (boPtr s t a imm) 0 false) :=
  forOut_trapA h (by decide) (gated_traps (boOperand_illegal hp))

theorem onObject_traps (h : Alone s t c) (hn : BarrierNamed s t a imm loc) (hue : reads = true → ueDetail s loc 16 = none)
    {code : Nat} (hcode : code ≠ 8 ∧ code ≠ 0x52 ∧ code ≠ 0x50 ∧ code ≠ 0x51) (hf : f s t s loc = .trapC code) :
    forOut c us (gated c ready wait (onObject a imm reads f)) s = .next (takeTrap s t code 0 0 0 false) :=
  forOut_trapA h hcode (gated_traps ((boOperand_named hn hue).trans hf))

theorem onObject_retires (h : Alone s t c) (hn : BarrierNamed s t a imm loc) (hue : reads = true → ueDetail s loc 16 = none)
    (hr : ready s t = true) (hf : f s t s loc = .retire s') :
    forOut c us (gated c ready wait (onObject a imm reads f)) s = .next (finishedNext t s') :=
  forOut_retires h ((gated_solo h.toSolo hr).trans ((boOperand_named hn hue).trans hf))

theorem onObject_waits (h : Alone s t c) (hn : BarrierNamed s t a imm loc) (hue : reads = true → ueDetail s loc 16 = none)
    (hr : ready s t = true) {w : Wait} (hw : keepsIssue (.waiting w) = true)
    (hf : f s t s loc = .done (s'.modThread t (fun x => { x with run := .waiting w }))) :
    forOut c us (gated c ready wait (onObject a imm reads f)) s = .next (waitsIn s c t s' w) :=
  forOut_waits h hw ((gated_solo h.toSolo hr).trans ((boOperand_named hn hue).trans hf))

end

/-- The result of the only thread of its instruction is written for the k registers too. -/
theorem retireLate_alone {s : State} {t : Nat} {c : Ctl} (h : Alone s t c) (s1 : State) (r : Res) :
    retireLate s1 t c (leadOf s c == some t) r = .retire (resultWaits s1 c t r) := by
  rw [leadOf_solo h.toSolo, beq_self_eq_true]
  rfl

section
variable {s : State} {t : Nat} {c : Ctl} {a : Reg} {imm : Word} (b : Src) {loc : Loc} (h : Alone s t c) (hn : BarrierNamed s t a imm loc)

/-- The value of a barrier object instruction's operand. -/
def boSrc (s : State) (t : Nat) (b : Src) : Nat := srcNat (s.thread t) (s.group (s.thread t).group) 1 b

include h hn

theorem execBoinit_writes (hx : srcNat (s.thread t) (s.group (s.thread t).group) 2 b < 2 ^ 56) :
    exec (.boinit c a imm b) s =
      .next (finishedNext t (locWrite s loc (leBytes 16 (srcNat (s.thread t) (s.group (s.thread t).group) 2 b)))) :=
  onObject_retires h hn (fun hr => by cases hr) hn.ready (if_neg (Nat.not_le.2 hx))

theorem execBoinit_illegalValue (hx : 2 ^ 56 ≤ srcNat (s.thread t) (s.group (s.thread t).group) 2 b) :
    exec (.boinit c a imm b) s = .next (takeTrap s t 0x2B 0 0 0 false) :=
  onObject_traps h hn (fun hr => by cases hr) (by decide) (if_pos hx)

variable (hue : ueDetail s loc 16 = none)
include hue

theorem execBoexpect_updates (add : Bool) : exec (.boexpect c add a imm b) s = .next (finishedNext t
    (boUpdate (locWrite s loc (leBytes 16 (boExpectVal (locNat s loc 16) (boSrc s t b) add))) loc 0 0 0 (some (s.thread t).group))) :=
  onObject_retires h hn (fun _ => hue) hn.ready rfl

/-- The object after BOARRIVE: the release, then the contribution. -/
def arrivedAt (s : State) (t : Nat) (loc : Loc) (tx : Bool) (sc : Scope) (y : Nat) : State :=
  boUpdate (releaseAt s (coreOfThread t) (s.partOf t) sc .rel) loc (if tx then y else 0) (if tx then 0 else y) 0 (some (s.thread t).group)

theorem execBoarrive_contributes (tx : Bool) (sc : Scope) (ret : Option Reg) (hr : releaseReady s t sc = true) :
    exec (.boarrive c tx sc ret a imm b) s = .next (finishedNext t (match ret with
      | some d => resultWaits (arrivedAt s t loc tx sc (boSrc s t b)) c t
          (.reg d [if boPhase (locNat (releaseAt s (coreOfThread t) (s.partOf t) sc .rel) loc 16) then 1 else 0])
      | none => arrivedAt s t loc tx sc (boSrc s t b))) := by
  have hready : (releaseReady s t sc && boReady a imm s t) = true := Bool.and_eq_true_iff.2 ⟨hr, hn.ready⟩
  cases ret with
  | none => exact onObject_retires h hn (fun _ => hue) hready rfl
  | some d =>
    have hbit (x : Bool) : BitVec.ofNat 32 x.toNat = if x then 1 else 0 := by cases x <;> rfl
    exact onObject_retires h hn (fun _ => hue) hready ((retireLate_alone h ..).trans (by rw [hbit]; rfl))

section
variable (sc : Scope) (d : Reg) (hp : boPhase (locNat s loc 16) ≠ (boSrc s t b).testBit 0)
include hp

theorem execBowait_passed : exec (.bowait c sc d a imm b) s = .next (finishedNext t (resultWaits (acquireAt s (coreOfThread t) sc .acq) c t
    (.reg d [boWord (boErr (locNat s loc 16)) false (boPhase (locNat s loc 16)) true]))) := by
  rw [testBit_zero_eq_flag] at hp
  exact onObject_retires h hn (fun _ => hue) hn.ready ((if_pos hp).trans (retireLate_alone h ..))

theorem execBotest_passed : exec (.botest c sc d a imm b) s = .next (finishedNext t (resultWaits (acquireAt s (coreOfThread t) sc .acq) c t
    (.reg d [boWord (boErr (locNat s loc 16)) false (boPhase (locNat s loc 16)) true]))) := by
  rw [testBit_zero_eq_flag] at hp
  have hdone : (boPhase (locNat s loc 16) != flag (boSrc s t b) 0) = true := bne_iff_ne.2 hp
  refine onObject_retires h hn (fun _ => hue) hn.ready ((retireLate_alone h ..).trans ?_)
  show Lane.retire (resultWaits (if (boPhase (locNat s loc 16) != flag (boSrc s t b) 0) = true then _ else _) _ _
    (.reg d [boWord (if (boPhase (locNat s loc 16) != flag (boSrc s t b) 0) = true then _ else _) _ _
      (boPhase (locNat s loc 16) != flag (boSrc s t b) 0)])) = _
  rw [hdone]
  rfl

end

section
variable (sc : Scope) (d : Reg) (hp : boPhase (locNat s loc 16) = (boSrc s t b).testBit 0)
include hp

theorem execBowait_registers :
    exec (.bowait c sc d a imm b) s = .next (waitsIn s c t s (.bowait loc (some d) ((boSrc s t b).testBit 0))) := by
  rw [testBit_zero_eq_flag] at hp ⊢
  refine onObject_waits h hn (fun _ => hue) hn.ready rfl ((if_neg (not_not.2 hp)).trans ?_)
  rw [leadOf_solo h.toSolo, beq_self_eq_true, keepDest_lead]
  rfl

theorem execBotest_notDone : exec (.botest c sc d a imm b) s =
    .next (finishedNext t (resultWaits s c t (.reg d [boWord 0 false (boPhase (locNat s loc 16)) false]))) := by
  rw [testBit_zero_eq_flag] at hp
  have hdone : (boPhase (locNat s loc 16) != flag (boSrc s t b) 0) = false := bne_eq_false_iff_eq.2 hp
  refine onObject_retires h hn (fun _ => hue) hn.ready ((retireLate_alone h ..).trans ?_)
  show Lane.retire (resultWaits (if (boPhase (locNat s loc 16) != flag (boSrc s t b) 0) = true then _ else _) _ _
    (.reg d [boWord (if (boPhase (locNat s loc 16) != flag (boSrc s t b) 0) = true then _ else _) _ _
      (boPhase (locNat s loc 16) != flag (boSrc s t b) 0)])) = _
  rw [hdone]
  rfl

end

end

/-! ### The fields of an object (R211) -/

section
variable {eb ea st ab ac err : Nat} {ph : Bool} (heb : eb < 2 ^ 40) (hea : ea < 2 ^ 16) (hst : st < 2 ^ 8) (hab : ab < 2 ^ 40)
  (hac : ac < 2 ^ 16) (herr : err < 2 ^ 7)

/-- An object's fields, each within its width. -/
structure BoFields (y eb ea st ab ac err : Nat) (ph : Bool) : Prop where
  lt : y < 2 ^ 128
  expBytes : boExpBytes y = eb
  expArr : boExpArr y = ea
  status : boStatus y = st
  arrBytes : boArrBytes y = ab
  arrCnt : boArrCnt y = ac
  err : boErr y = err
  phase : boPhase y = ph

include heb hea hst hab hac herr in
theorem boMake_fields : BoFields (boMake eb ea st ab ac err ph) eb ea st ab ac err ph := by
  have hph := ph.toNat_lt
  have hbelow : eb + ea * 2 ^ 40 + st * 2 ^ 56 + ab * 2 ^ 64 + ac * 2 ^ 104 + err * 2 ^ 120 < 2 ^ 127 := by omega
  constructor
  case phase => exact flag_add_mul_field rfl hbelow
  all_goals
    simp only [boMake, boExpBytes, boExpArr, boStatus, boArrBytes, boArrCnt, boErr, bitsAt]
    omega

end

theorem bitsAt_lt (x lo n : Nat) : bitsAt x lo n < 2 ^ n := Nat.mod_lt _ (Nat.two_pow_pos n)

/-- Bits 0 and 1 of the status are set within its byte. -/
theorem status_or_lt {st : Nat} (h : st < 2 ^ 8) (p : Prop) [Decidable p] {k : Nat} (hk : k < 2 ^ 8) :
    (if p then st ||| k else st) < 2 ^ 8 := by
  split_ifs
  · exact Nat.or_lt_two_pow h hk
  · exact h

section
variable {x y st ab ac c : Nat}

/-- An object with its arrivals anew, and its status. -/
theorem boMake_again (x : Nat) (hst : st < 2 ^ 8) (hab : ab < 2 ^ 40) (hac : ac < 2 ^ 16) :
    BoFields (boMake (boExpBytes x) (boExpArr x) st ab ac (boErr x) (boPhase x)) (boExpBytes x) (boExpArr x) st ab ac (boErr x)
      (boPhase x) :=
  boMake_fields (bitsAt_lt ..) (bitsAt_lt ..) hst hab hac (bitsAt_lt ..)

/-- A flip begins a phase of no arrivals, with the code of the last. -/
theorem boFlip_fields (y : Nat) (hc : c < 2 ^ 7) : BoFields (boFlip y c) (boExpBytes y) (boExpArr y)
    (if c = 0 then boStatus y else boStatus y ||| 1) 0 0 c (!boPhase y) := by
  refine boMake_fields (bitsAt_lt ..) (bitsAt_lt ..) ?_ (by decide) (by decide) hc
  rw [← ite_not]
  exact status_or_lt (bitsAt_lt ..) _ (by decide)

theorem BoFields.flip {eb ea err : Nat} {ph : Bool} (h : BoFields y eb ea st ab ac err ph) (hc : c < 2 ^ 7) :
    BoFields (boFlip y c) eb ea (if c = 0 then st else st ||| 1) 0 0 c (!ph) := by
  have hflip := boFlip_fields y hc
  rwa [h.expBytes, h.expArr, h.status, h.phase] at hflip

end

/-! ### The update of an object (R212) -/

section
variable (x ab ac : Nat) {ec : Nat}

/-- The bytes and the arrivals of an object after a contribution (R211). -/
def arrivedBytes : Nat := min (boArrBytes x + ab) (2 ^ 40 - 1)
def arrivedCount : Nat := min (boArrCnt x + ac) 65535

/-- Its status: a count that saturates is marked. -/
def arrivedStatus : Nat :=
  if (decide (2 ^ 40 - 1 < boArrBytes x + ab) || decide (65535 < boArrCnt x + ac)) = true then boStatus x ||| 2 else boStatus x

theorem arrivedStatus_lt : arrivedStatus x ab ac < 2 ^ 8 := status_or_lt (bitsAt_lt ..) _ (by decide)

/-- The object with the contribution, before it flips. -/
def contributed (st : Nat) : Nat :=
  boMake (boExpBytes x) (boExpArr x) st (arrivedBytes x ab) (arrivedCount x ac) (boErr x) (boPhase x)

theorem contributed_fields {st : Nat} (hst : st < 2 ^ 8) : BoFields (contributed x ab ac st) (boExpBytes x) (boExpArr x) st
    (arrivedBytes x ab) (arrivedCount x ac) (boErr x) (boPhase x) :=
  boMake_again x hst (Nat.lt_of_le_of_lt (Nat.min_le_right ..) (by decide)) (Nat.lt_of_le_of_lt (Nat.min_le_right ..) (by decide))

/-- Its status where the flip finds a count past what is expected. -/
def flippedStatus : Nat :=
  if boExpBytes x < arrivedBytes x ab ∨ boExpArr x < arrivedCount x ac then arrivedStatus x ab ac ||| 2 else arrivedStatus x ab ac

theorem flippedStatus_lt : flippedStatus x ab ac < 2 ^ 8 := status_or_lt (arrivedStatus_lt x ab ac) _ (by decide)

theorem boUpdateVal_eq : boUpdateVal x ab ac ec =
    if ec ≠ 0 then (boFlip (contributed x ab ac (arrivedStatus x ab ac)) ec, true)
    else if boExpBytes x ≤ arrivedBytes x ab ∧ boExpArr x ≤ arrivedCount x ac then
      (boFlip (contributed x ab ac (flippedStatus x ab ac)) 0, true)
    else (contributed x ab ac (arrivedStatus x ab ac), false) := rfl

/-- A contribution that brings an error, or that meets the counts, flips the object. -/
theorem boUpdateVal_flips (hec : ec < 2 ^ 7) (h : ec ≠ 0 ∨ boExpBytes x ≤ arrivedBytes x ab ∧ boExpArr x ≤ arrivedCount x ac) :
    ∃ y st, boUpdateVal x ab ac ec = (y, true) ∧ BoFields y (boExpBytes x) (boExpArr x) st 0 0 ec (!boPhase x) := by
  rw [boUpdateVal_eq]
  by_cases h0 : ec = 0
  · subst h0
    exact ⟨_, _, (if_neg (not_not.2 rfl)).trans (if_pos (h.resolve_left (not_not.2 rfl))),
      (contributed_fields x ab ac (flippedStatus_lt x ab ac)).flip hec⟩
  · exact ⟨_, _, if_pos h0, (contributed_fields x ab ac (arrivedStatus_lt x ab ac)).flip hec⟩

/-- Another leaves its phase, with the contribution counted. -/
theorem boUpdateVal_counts (h0 : ec = 0) (h : ¬(boExpBytes x ≤ arrivedBytes x ab ∧ boExpArr x ≤ arrivedCount x ac)) :
    boUpdateVal x ab ac ec = (contributed x ab ac (arrivedStatus x ab ac), false) := by
  rw [boUpdateVal_eq, if_neg (not_not.2 h0), if_neg h]

end

end Sys2Proof.Machine

open Sys2Proof Sys2Proof.Machine

/-- Settles O36: each instruction by what it does with an object that can be used; of the update, the fields of the object that it makes,
with a flip and without. -/
theorem barrierObjectsInstructionsAndUpdates : Obligations.BarrierObjectsInstructionsAndUpdates := by
  unfold Obligations.BarrierObjectsInstructionsAndUpdates
  refine ⟨fun s t c a imm b h => ⟨fun loc hn => ⟨execBoinit_writes b h hn, execBoinit_illegalValue b h hn, fun hue =>
    ⟨execBoexpect_updates b h hn hue, execBoarrive_contributes b h hn hue,
      fun sc d hp => ⟨execBowait_passed b h hn hue sc d hp, execBotest_passed b h hn hue sc d hp⟩,
      fun sc d hp => ⟨execBowait_registers b h hn hue sc d hp, execBotest_notDone b h hn hue sc d hp⟩⟩⟩, ?illegal⟩, ?update⟩
  case illegal =>
    intro p hp
    exact ⟨onObject_illegal h hp, fun _ => onObject_illegal h hp, fun _ _ _ => onObject_illegal h hp, fun _ _ => onObject_illegal h hp,
      fun _ _ => onObject_illegal h hp⟩
  case update =>
    intro x ab ac ec _ hec y nb na flips
    by_cases hf : flips
    · obtain ⟨z, st, hz, hfields⟩ := boUpdateVal_flips x ab ac hec hf
      have hy : y = z := congrArg Prod.fst hz
      rw [hy]
      exact ⟨hfields.lt, hfields.expBytes, hfields.expArr,
        fun _ => ⟨congrArg Prod.snd hz, hfields.phase, hfields.arrBytes, hfields.arrCnt, hfields.err⟩, fun hn => absurd hf hn⟩
    · obtain ⟨h0, hmet⟩ := not_or.1 hf
      have hz := boUpdateVal_counts x ab ac (not_not.1 h0) hmet
      have hy : y = contributed x ab ac (arrivedStatus x ab ac) := congrArg Prod.fst hz
      have hfields := contributed_fields x ab ac (arrivedStatus_lt x ab ac)
      rw [hy]
      exact ⟨hfields.lt, hfields.expBytes, hfields.expArr, fun hn => absurd hn hf,
        fun _ => ⟨congrArg Prod.snd hz, hfields.phase, hfields.arrBytes, hfields.arrCnt, hfields.err⟩⟩

end

section
/-! PROOFS. Copies and welt sends of a thread alone are accepted (R223 to R228, R239). -/

namespace Sys2Proof.Machine

set_option Elab.async false  -- theorem after theorem: every thread of a compile takes a stack of its own

/-! ### Acceptance (R225, R272) -/

theorem acceptCopy_room {s : State} {t : Nat} {cp : Copy} (h : copyRoom s cp t) : acceptCopy s t cp = .retire (copyAccepted s cp) := by
  obtain ⟨hown, hacq, hqueue, htag⟩ := h
  unfold acceptCopy
  rw [if_neg (Nat.not_le.2 hqueue), if_neg (by simp [hown, hacq])]
  cases hcp : cp.tag with
  | none => simp only [copyAccepted, hcp, freshId]
  | some n =>
    have htake : tagTake s cp.core n = some (s.modCore cp.core (fun x => { x with
        tags := tset n (if (tagOf s cp.core n).count = 0 then { count := 1 }
          else { tagOf s cp.core n with count := (tagOf s cp.core n).count + 1 }) x.tags })) := if_neg (Nat.not_le.2 (htag n hcp))
    simp only [htake, copyAccepted, hcp, freshId]
    rfl

theorem copyCounted_eq (s : State) (cp : Copy) (t : Nat) (oob : Bool) :
    copyCounted s cp t oob = if oob then countOob (copyAccepted s cp) t else copyAccepted s cp := rfl

/-! ### The checks of a copy (R225) -/

section
variable {s s1 s' : State} {t : Nat} {c : Ctl} {bo : DWord} {mem : MemOp0} {w : Bool} {size : Nat}
  {src : State → Except Lane (List Piece × Bool × State)} {mc here : Bool} {ds ss : List Seg} {oob : Bool}

theorem copyChecks_passed (h : CopyChecked s t bo mem w size src mc here s1 ds ss oob) {f : State → List Seg → List Seg → Lane}
    (hf : f s1 ds ss = .retire s') :
    copyChecks s s t bo mem w size src mc here f = .retire (if oob then countOob s' t else s') := by
  obtain ⟨e, sc, sp, out, s2, hcap, hvalid, htype, hright, hin, hsrc, hmc, hscratch, hheld, rfl, hds, hss, rfl⟩ := h.checks
  have hbound : ¬(outOfBounds e ((srcNat (s.thread t) (s.group (s.thread t).group) 1 mem.a : Int) + mem.off.toInt) size = true ∧
      oBmode e = 0) := by
    rintro ⟨hout, hmode⟩
    exact hin.elim (fun hn => by simp [hn] at hout) fun hn => hn hmode
  have hcluster : ¬(mc = true ∧ ptrSpace (oBase e) ≠ 1) := fun hm => hm.2 (hmc hm.1)
  unfold copyChecks
  simp only [if_neg (barrierNamed_ok h.bar), hcap, hvalid, hright, if_neg hbound, hsrc, if_neg hcluster, hscratch, hheld, hds, hss, hf,
    Bool.not_true, Bool.false_eq_true, if_false]
  rw [if_neg (fun hn => htype.elim hn.1 hn.2)]

/-- A copy whose checks pass and for which there is room. -/
theorem forOut_copies (h : Alone s t c) {us : List Nat} {cp : Copy} {f : State → Nat → State → Lane}
    {accept : State → List Seg → List Seg → Lane} (hc : CopyChecked s t bo mem w size src mc here s1 ds ss oob)
    (hroom : copyRoom s1 cp t) (ha : accept s1 ds ss = acceptCopy s1 t cp)
    (hf : f s t s = copyChecks s s t bo mem w size src mc here accept) :
    forOut c us f s = .next (finishedNext t (copyCounted s1 cp t oob)) :=
  forOut_retires h (hf.trans (copyChecks_passed hc (ha.trans (acceptCopy_room hroom))))

end

/-! ### The fields of a descriptor (R224) -/

theorem zeroWords_of {x lo hi : Nat} {is : List Nat} (h : ∀ i, lo ≤ i → i ≤ hi → dw x i = 0) (his : ∀ i ∈ is, lo ≤ i ∧ i ≤ hi) :
    zeroWords x is = true :=
  List.all_eq_true.2 fun i hi => beq_iff_eq.2 (h i (his i hi).1 (his i hi).2)

/-! ### Names captured one after another (R156) -/

theorem spaceSize_congr {s s' : State} (hp : s'.parts = s.parts) (hf : ∀ d, (s'.die d).fuse = (s.die d).fuse) (part die : Nat) (p : DWord) :
    spaceSize s' part die p = spaceSize s part die p := by
  unfold spaceSize bankRangeSize epEntry window State.part
  rw [hp, hf]

theorem entryValid_congr {s s' : State} (hp : s'.parts = s.parts) (hf : ∀ d, (s'.die d).fuse = (s.die d).fuse) (part die e : Nat) :
    entryValid s' part die e = entryValid s part die e := by
  simp only [entryValid, spaceOk, spaceSize_congr hp hf]

theorem l2Use_fuse (s : State) (die sector slice part l : Nat) (rcopy alloc : Bool) (d : Nat) :
    ((l2Use s die sector slice part l rcopy alloc).die d).fuse = (s.die d).fuse := by
  unfold l2Use
  rw [die_modDie]
  split_ifs with hd
  · subst hd
    dsimp only
    split_ifs
    · rfl
    · rfl
    · split
      · rfl
      · split_ifs <;> rfl
  · rfl

/-- A captured entry leaves what makes another valid. -/
theorem capture_entryValid {s s' : State} {c part idx e : Nat} (h : capture s c part idx = some (e, s')) (p die e' : Nat) :
    entryValid s' p die e' = entryValid s p die e' := by
  rcases capture_state h with rfl | rfl
  · rfl
  · exact entryValid_congr (s := s) (s' := ocacheFill s c part idx) rfl
      (fun d => l2Use_fuse s (dieOfPa ((s.part part).otpa + 32 * idx)) _ _ part _ false true d) p die e'

/-- The fields of a valid pair are read from it. -/
theorem shapeRaw_of_shapePair {s : State} {t part idx : Nat} {st : Bool} {p : Shape} (h : shapePair t part idx st s = .ok p) :
    shapeRaw t part idx s = some p := by
  unfold shapePair at h
  dsimp only at h
  split at h
  · cases h
  next e s' hhead =>
    split at h
    · cases h
    split at h
    · cases h
    split at h
    · cases h
    next hvalid htype hlast =>
      split at h
      · cases h
      next l s'' htail =>
        split at h
        · cases h
        split at h
        · cases h
        next hvalidTail htypeTail =>
          have hp : p = ⟨e, l, s''⟩ := by
            split_ifs at h <;> cases h <;> rfl
          have hv : entryValid s'' part (dieOfCore (coreOfThread t)) e = true := by
            rw [capture_entryValid htail]
            simpa using hvalid
          have hvt : entryValid s'' part (dieOfCore (coreOfThread t)) l = true := by simpa using hvalidTail
          rw [hp, shapeRaw, if_neg hlast]
          simp only [hhead, htail, hv, hvt, not_not.1 htype, not_not.1 htypeTail, beq_self_eq_true, Bool.and_self, if_true]

/-! ### The instructions -/

section
variable {s s1 : State} {t : Nat} {c : Ctl} {dst : CopyDst} {mem : MemOp0} {b : Reg} {ds ss : List Seg} {oob : Bool} (h : Alone s t c)

/-- The descriptor of a copy. -/
def descOf (s : State) (t : Nat) (b : Reg) : Nat := regNat (s.thread t) (s.group (s.thread t).group) 16 b

/-- The cores that a multicast copy names (R228). -/
def mcDests (x : Nat) : List Nat := ((List.range 4).map (fun i => fld x (12 + 2 * i) 2)).filterMap destEntry

/-- A plain copy by a descriptor, accepted in a state. -/
def plainCopy (s : State) (t : Nat) (c : Ctl) (dst : CopyDst) (b : Reg) (ds ss : List Seg) : Copy :=
  newCopy s c t dst (descBo (descOf s t b)) ss ds (dw (descOf s t b) 2)

def multiCopy (s s1 : State) (t : Nat) (c : Ctl) (dst : CopyDst) (mem : MemOp0) (b : Reg) (ds ss : List Seg) : Copy :=
  { plainCopy s t c dst b ds ss with mc := true, reach := mcReach s1 t mem (dw (descOf s t b) 2)
                                     branches := (mcDests (descOf s t b)).zipIdx.map (fun p => (p.2, p.1)) }

/-- The source that a copy names. -/
def copySource (s : State) (t : Nat) (b : Reg) : State → Except Lane (List Piece × Bool × State) :=
  srcObject t (s.partOf t) (dw (descOf s t b) 0) (dwInt (descOf s t b) 1) (dw (descOf s t b) 2)

/-- The fields of a descriptor of CPY are legal. -/
def cpyFields (x : Nat) (dst : CopyDst) : Bool :=
  decide (dw x 0 < 2 ^ 16) && decide (1 ≤ dw x 2) && decide (dw x 2 ≤ 0x1000000) &&
    zeroWords x [3, 4, 5, 6, 7, 8, 9, 10, 11, 12, 13] && boFormOk dst (descBo x)

/-- Those of a descriptor of CPYMC. -/
def cpymcFields (s : State) (x : Nat) (dst : CopyDst) : Bool :=
  decide (dw x 0 < 2 ^ 16) && decide (1 ≤ dw x 2) && decide (dw x 2 ≤ 0x100000) && zeroWords x [5, 6, 7, 8, 9, 10, 11, 12, 13] &&
    ((List.range 4).map (fun i => fld x (12 + 2 * i) 2)).all (destEntryOk s) && !(mcDests x).isEmpty && boFormOk dst (descBo x)

/-- Those of a descriptor of CPYT, of the pair that it names. -/
def cpytFields (x : Nat) (dst : CopyDst) (raw : Option Shape) : Bool :=
  decide (dw x 0 < 2 ^ 16) && zeroWords x [1, 2, 3] &&
    (List.range 5).all (fun d => decide (1 ≤ boxExtent x d) && decide (boxExtent x d ≤ 65535)) && boFormOk dst (descBo x) &&
    (match raw with | some p => boxOk x p | none => true)

section
variable {x : Nat} (hidx : dw x 0 < 2 ^ 16) (hlo : 1 ≤ dw x 2) (hbo : boFormOk dst (descBo x) = true)
include hidx hbo

include hlo in
theorem cpyFields_of (hhi : dw x 2 ≤ 0x1000000) (hzero : ∀ i, 3 ≤ i → i ≤ 13 → dw x i = 0) : cpyFields x dst = true := by
  rw [cpyFields, decide_eq_true hidx, decide_eq_true hlo, decide_eq_true hhi, zeroWords_of hzero (by decide), hbo]
  rfl

include hlo in
theorem cpymcFields_of (hhi : dw x 2 ≤ 0x100000) (hzero : ∀ i, 5 ≤ i → i ≤ 13 → dw x i = 0)
    (hentries : ∀ i, i < 4 → destEntryOk s (fld x (12 + 2 * i) 2) = true) (hdests : mcDests x ≠ []) : cpymcFields s x dst = true := by
  have hok : ((List.range 4).map (fun i => fld x (12 + 2 * i) 2)).all (destEntryOk s) = true := by
    rw [List.all_map, List.all_eq_true]
    exact fun i hi => hentries i (List.mem_range.1 hi)
  rw [cpymcFields, decide_eq_true hidx, decide_eq_true hlo, decide_eq_true hhi, zeroWords_of hzero (by decide), hbo, hok,
    List.isEmpty_eq_false_iff.2 hdests]
  rfl

theorem cpytFields_of (hzero : ∀ i, 1 ≤ i → i ≤ 3 → dw x i = 0) (hext : ∀ i, i < 5 → 1 ≤ boxExtent x i ∧ boxExtent x i ≤ 65535)
    {p : Shape} (hbox : boxOk x p = true) : cpytFields x dst (some p) = true := by
  have hextents : (List.range 5).all (fun d => decide (1 ≤ boxExtent x d) && decide (boxExtent x d ≤ 65535)) = true := by
    rw [List.all_eq_true]
    intro i hi
    obtain ⟨hlo, hhi⟩ := hext i (List.mem_range.1 hi)
    rw [decide_eq_true hlo, decide_eq_true hhi]
    rfl
  rw [cpytFields, decide_eq_true hidx, zeroWords_of hzero (by decide), hextents, hbo, hbox]
  rfl

end

theorem cpyFields_size {x : Nat} (h : dw x 2 = 0 ∨ 0x1000000 < dw x 2) : cpyFields x dst = false := by
  have hsize : (decide (1 ≤ dw x 2) && decide (dw x 2 ≤ 0x1000000)) = false := by
    rw [← Bool.decide_and, decide_eq_false]
    omega
  rw [cpyFields, Bool.and_assoc (decide (dw x 0 < 2 ^ 16)), hsize]
  simp only [Bool.and_false, Bool.false_and]

theorem not_bnot_eq_true {b : Bool} (h : b = true) : ¬(!b) = true := by simp [h]

include h

theorem execCpy_accepted (hfields : cpyFields (descOf s t b) dst = true)
    (hc : CopyChecked s t (descBo (descOf s t b)) mem true (dw (descOf s t b) 2) (copySource s t b) false true s1 ds ss oob)
    (hroom : copyRoom s1 (plainCopy s t c dst b ds ss) t) :
    exec (.cpy c dst mem b) s = .next (finishedNext t (copyCounted s1 (plainCopy s t c dst b ds ss) t oob)) :=
  forOut_copies h hc hroom rfl (if_neg (not_bnot_eq_true hfields))

theorem execCpy_traps (hfields : cpyFields (descOf s t b) dst = false) :
    exec (.cpy c dst mem b) s = .next (takeTrap s t 0x2C 0 0 0 false) :=
  forOut_trapA h (by decide) (if_pos (congrArg (! ·) hfields))

theorem execCpymc_accepted (hfields : cpymcFields s (descOf s t b) dst = true)
    (hc : CopyChecked s t (descBo (descOf s t b)) mem true (dw (descOf s t b) 2) (copySource s t b) true
      ((mcDests (descOf s t b)).contains (coreOfThread t)) s1 ds ss oob)
    (hroom : copyRoom s1 (multiCopy s s1 t c dst mem b ds ss) t) :
    exec (.cpymc c dst mem b) s = .next (finishedNext t (copyCounted s1 (multiCopy s s1 t c dst mem b ds ss) t oob)) :=
  forOut_copies h hc hroom rfl (if_neg (not_bnot_eq_true hfields))

/-- The bytes of a box. -/
def boxSize (s : State) (t : Nat) (b : Reg) (p : Shape) : Nat := boxCount (descOf s t b) p.head * unitBytes p.head

/-- A copy of a box, to the shaped side with `st`. -/
def boxCopy (s : State) (t : Nat) (c : Ctl) (dst : CopyDst) (b : Reg) (st : Bool) (p : Shape) (ds ss : List Seg) : Copy :=
  newCopy s c t dst (descBo (descOf s t b)) (if st then ds else ss) (if st then ss else ds) (boxSize s t b p)

theorem execCpyt_accepted {st : Bool} {p : Shape} (hraw : shapeRaw t (s.partOf t) (dw (descOf s t b) 0) s = some p)
    (hfields : cpytFields (descOf s t b) dst (some p) = true)
    (hc : CopyChecked s t (descBo (descOf s t b)) mem (!st) (boxSize s t b p) (boxSide t (s.partOf t) (descOf s t b) st) false true
      s1 ds ss oob)
    (hroom : copyRoom s1 (boxCopy s t c dst b st p ds ss) t) :
    exec (.cpyt c dst st mem b) s = .next (finishedNext t (copyCounted s1 (boxCopy s t c dst b st p ds ss) t oob)) := by
  refine forOut_copies (accept := fun s1 ds ss => acceptCopy s1 t (boxCopy s t c dst b st p ds ss)) h hc hroom rfl ?_
  rw [← hraw] at hfields
  refine (if_neg (not_bnot_eq_true hfields)).trans ?_
  unfold descOf at hraw
  simp only [hraw]
  rfl

end

end Sys2Proof.Machine

open Sys2Proof Sys2Proof.Machine

/-- Settles O37: each copy by its descriptor's fields, its checks and the room for it. -/
theorem copiesAreAccepted : Obligations.CopiesAreAccepted := by
  unfold Obligations.CopiesAreAccepted
  intro s t c dst mem b s1 ds ss oob h
  refine ⟨fun hidx hlo hhi hzero hbo => execCpy_accepted h (cpyFields_of hidx hlo hbo hhi hzero),
    fun hsize => execCpy_traps h (cpyFields_size hsize),
    fun hidx hlo hhi hzero hbo hentries hdests => execCpymc_accepted h (cpymcFields_of hidx hlo hbo hhi hzero hentries hdests),
    fun st p hidx hzero hext hbo hpair hbox => execCpyt_accepted h (shapeRaw_of_shapePair hpair) (cpytFields_of hidx hbo hzero hext hbox),
    ?send⟩
  case send =>
    intro a bs rank size ctag off n send halign hbound hroom
    exact forOut_retires h ((if_neg (not_not.2 halign)).trans ((if_neg (Nat.not_lt.2 hbound)).trans (acceptCopy_room hroom)))

end

section
/-! PROOFS. The end of a copy, a branch of a multicast copy and a way change (R219, R228 to R231, R254, R255). -/

namespace Sys2Proof.Machine

set_option Elab.async false  -- theorem after theorem: every thread of a compile takes a stack of its own

/-! ### Reads of scratch under the injectors -/

/-- Scratch reads change the injectors of cores and the error counts of dies, and nothing else. -/
structure Drawn (s s' : State) : Prop where
  rest : s' = { s with cores := s'.cores, dies := s'.dies }
  core : ∀ k, s'.core k = { s.core k with inj := (s'.core k).inj }
  die : ∀ d, s'.die d = { s.die d with ras := (s'.die d).ras }

namespace Drawn

theorem refl (s : State) : Drawn s s := ⟨rfl, fun _ => rfl, fun _ => rfl⟩

theorem trans {s s1 s2 : State} (h : Drawn s s1) (h1 : Drawn s1 s2) : Drawn s s2 where
  rest := by rw [h1.rest, h.rest]
  core k := by rw [h1.core, h.core]
  die d := by rw [h1.die, h.die]

theorem setInj (s : State) (c cls : Nat) (i : Option Injector) : Drawn s (setInj s c cls i) where
  rest := rfl
  core k := by
    unfold Machine.setInj
    rw [core_modCore]
    split_ifs with hk
    · rw [hk]
    · rfl
  die _ := rfl

theorem rasCount (s : State) (d i n : Nat) : Drawn s (rasCount s d i n) where
  rest := rfl
  core _ := rfl
  die k := by
    unfold Machine.rasCount
    rw [die_modDie]
    split_ifs with hk
    · rw [hk]
    · rfl

theorem injScratch (s : State) (c o : Nat) : Drawn s (injScratch s c o) := by
  unfold Machine.injScratch
  split
  · split_ifs
    · dsimp only
      split_ifs
      · exact (setInj ..).trans (rasCount ..)
      · exact setInj ..
    · exact refl s
  · exact refl s

theorem injScratchAll (s : State) (c o n : Nat) : Drawn s (injScratchAll s c o n) := by
  induction n generalizing s o with
  | zero => exact refl s
  | succ n ih => exact (injScratch s c o).trans (ih ..)

theorem drawSegs (s : State) (away : List Nat) (gs : List Seg) : Drawn s (drawSegs s away gs) := by
  unfold Machine.drawSegs
  induction gs generalizing s with
  | nil => exact refl s
  | cons g gs ih =>
    refine trans ?_ (ih _)
    dsimp only
    split
    · split_ifs
      · exact refl s
      · exact injScratchAll ..
    · exact refl s

theorem sameBytes {s s' : State} (h : Drawn s s') : SameBytes s s' := by
  constructor
  case epoch => exact fun d => by rw [h.die]
  case scratch => exact fun k => by rw [h.core]
  case k => exact fun g => by rw [h.rest]; rfl
  all_goals rw [h.rest]

end Drawn

/-! ### Tags (R231) -/

/-- A fold whose steps change nothing. -/
theorem foldl_fixed {α β : Type} {f : α → β → α} {a : α} {l : List β} (h : ∀ b ∈ l, f a b = a) : l.foldl f a = a := by
  induction l with
  | nil => rfl
  | cons b l ih =>
    rw [List.foldl_cons, h b (List.mem_cons_self ..)]
    exact ih fun c hc => h c (List.mem_cons_of_mem _ hc)

/-- Where no thread waits for tags, none returns. -/
theorem tagsRelease_none {s : State} (h : ∀ p ∈ s.threads, ∀ all d q m, p.2.run ≠ .waiting (.tags all d q m)) (c : Nat) :
    tagsRelease s c = s := by
  refine foldl_fixed fun p hp => ?_
  split
  · next hw => exact absurd hw (h p hp _ _ _ _)
  · rfl

/-- The tag once a copy on it has ended without an error. -/
def Tag.ended (g : Tag) : Tag := { g with count := g.count - 1, ready := g.ready || decide (g.count ≤ 1) }

/-- A tag of a core is set. -/
def State.setTag (s : State) (c n : Nat) (g : Tag) : State := s.modCore c (fun x => { x with tags := tset n g x.tags })

theorem tagEnd_quiet {s : State} (h : ∀ p ∈ s.threads, ∀ all d q m, p.2.run ≠ .waiting (.tags all d q m)) (c n : Nat) :
    tagEnd s c n 0 = s.setTag c n (tagOf s c n).ended := tagsRelease_none (s := s.setTag c n (tagOf s c n).ended) h c

theorem setTag_scratch (s : State) (c n : Nat) (g : Tag) (k : Nat) : ((s.setTag c n g).core k).scratch = (s.core k).scratch :=
  (SameBytes.modCore s c (f := fun x => { x with tags := tset n g x.tags }) fun _ => rfl).scratch k

theorem tagOf_setTag (s : State) (c n : Nat) (g : Tag) : tagOf (s.setTag c n g) c n = g := by
  unfold tagOf State.setTag
  rw [core_modCore, if_pos rfl, tget_tset, if_pos rfl]

/-! ### Segments of scratch and of bank memory -/

section
variable (s : State) (c part c' a die b n : Nat)

theorem dropSegs_bank : dropSegs s c part [⟨.bank die b, n⟩] = s := by
  have hlines (l : Nat) : ([⟨.bank die b, n⟩] : List Seg).any (segHasLine l) = false := rfl
  unfold dropSegs
  simp only [hlines, Bool.and_false, List.filter_false, List.foldl_nil]

theorem segsRead_scratch : segsRead s [⟨.scratch c' a, n⟩] = locRead s (.scratch c' a) n := List.append_nil _

theorem locRead_length (loc : Loc) : (locRead s loc n).length = n := by
  induction n generalizing loc with
  | zero => rfl
  | succ n ih => exact congrArg Nat.succ (ih _)

theorem locRead_scratch : locRead s (.scratch c' a) n = mgets (s.core c').scratch a n := by
  induction n generalizing a with
  | zero => rfl
  | succ n ih => exact congrArg (List.cons _) (ih (a + 1))

theorem segsWrite_one (loc : Loc) {bs : List Byte} (h : bs.length = n) : segsWrite s [⟨loc, n⟩] bs = locWrite s loc bs := by
  show locWrite s loc (bs.take n) = _
  rw [← h, List.take_length]

theorem segWaits_bank : segWaits s ⟨.bank die b, n⟩ = false := rfl

end

/-! ### COPY_END (R229 to R231) -/

section
variable {s : State} {id n die a b tag : Nat} {cp : Copy} (hcp : tfind s.copies id = some cp) (hsrc : cp.src = [⟨.scratch cp.core a, n⟩])
  (hdst : cp.dst = [⟨.bank die b, n⟩]) (hmc : cp.mc = false) (hwelt : cp.welt = none)
  (hmoved : cp.moved = []) (hlink : linkFault s (dieOfCore cp.core) (.bank die b) = none) (hfilled : unfilledAt s cp.core a n = false)
  (hue : ueDetail s (.scratch cp.core a) n = none) (hctx : ∀ l, tfind s.launches cp.launch = some l → l.ctx = [])
include hcp hsrc hdst hmc hwelt hmoved hlink hfilled hue hctx

/-- Its bytes have been read and written, it leaves the queue, and its tag learns its end. -/
theorem execCopyEnd_moves : ∃ s1, Drawn s s1 ∧ exec (.copyEnd id none) s =
    .next (copyDone (locWrite s1 (.bank die b) (locRead s1 (.scratch cp.core a) n)) id cp 0 cp.bytes) := by
  have hdrawn : Drawn s (drawSegs s (awayCores s cp.launch) cp.src) := Drawn.drawSegs ..
  refine ⟨_, hdrawn, ?_⟩
  have hdown : (cp.src ++ cp.dst).any (segDown s cp.core cp.thread) = false := by
    have hbank : segDown s cp.core cp.thread ⟨.bank die b, n⟩ = false := congrArg Option.isSome hlink
    rw [hsrc, hdst]
    show (false || (segDown s cp.core cp.thread ⟨.bank die b, n⟩ || false)) = false
    rw [hbank]
    rfl
  have hwaits : (cp.src ++ cp.dst).any (segWaits s) = false := by
    rw [hsrc, hdst]
    show (unfilledAt s cp.core a n || (false || false)) = false
    rw [hfilled]
    rfl
  have hbad : cp.src.any (segBad s) = false := by
    rw [hsrc]
    show (((ueDetail s (.scratch cp.core a) n).isSome || false) || false) = false
    rw [hue]
    rfl
  have hlines : useSegs (useSegs (dropSegs s cp.core cp.part cp.dst) cp.part cp.src) cp.part cp.dst (!cp.noL2) = s := by
    rw [hdst, dropSegs_bank, hsrc]
    rfl
  have hrest : drawRest s cp = drawSegs s (awayCores s cp.launch) cp.src := by
    unfold drawRest
    rw [hmoved]
    rfl
  have hresident : ∀ l, tfind (drawSegs s (awayCores s cp.launch) cp.src).launches cp.launch = some l → l.ctx = [] := by
    rw [hdrawn.rest]
    exact hctx
  show execCopyEnd id none s = _
  unfold execCopyEnd
  simp only [hcp, hwelt, hmc, hdown, hwaits, hbad, Bool.or_false, Bool.false_eq_true, if_false, hlines, hrest]
  rw [withScratch_resident hresident, copyRest, hmoved, if_pos List.isEmpty_nil]
  generalize drawSegs s (awayCores s cp.launch) cp.src = s1
  rw [hdst, hsrc, segsRead_scratch, segsWrite_one _ _ _ (locRead_length ..)]

end

/-- A copy on a tag that has ended without an error, in a state whose tags and threads are those of `s`. -/
theorem copyDone_tag {s s' : State} {cp : Copy} {tag : Nat} (htag : cp.tag = some tag)
    (hquiet : ∀ p ∈ s.threads, ∀ all d q m, p.2.run ≠ .waiting (.tags all d q m)) (hthreads : s'.threads = s.threads)
    (htags : tagOf s' cp.core tag = tagOf s cp.core tag) (id bytes : Nat) :
    copyDone s' id cp 0 bytes = ({ s' with copies := tdel id s'.copies } : State).setTag cp.core tag (tagOf s cp.core tag).ended := by
  rw [← htags]
  unfold copyDone
  simp only [htag, asyncError, if_true]
  exact tagEnd_quiet (s := { s' with copies := tdel id s'.copies }) (by rw [← hthreads] at hquiet; exact hquiet) cp.core tag

/-- What its bytes make of bank memory, when the injectors have drawn. -/
theorem bankGet_copied {s s1 : State} (h : Drawn s s1) (hwf : s.bank.wf = true) {c a die b n : Nat} (hb : b + n ≤ 2 ^ 27) {d x : Nat}
    (hx : x < 2 ^ 27) : bankGet (locWrite s1 (.bank die b) (locRead s1 (.scratch c a) n)) d x =
      if d = die ∧ b ≤ x ∧ x < b + n then mget (s.core c).scratch (a + (x - b)) else bankGet s d x := by
  have hbank : s1.bank = s.bank := h.sameBytes.bank
  have hget : bankGet s1 d x = bankGet s d x := h.sameBytes.locByte (.bank d x)
  rw [bankGet_locWrite (by rw [hbank]; exact hwf) (by rwa [locRead_length]) hx, locRead_length, hget]
  refine if_ctx_congr Iff.rfl (fun hin => ?_) fun _ => rfl
  rw [locRead_scratch, h.sameBytes.scratch, mgets_getD _ _ _ _ (by omega)]

/-! ### A branch of a multicast copy (R228) -/

/-- Through the pointer 0 nothing is contributed. -/
theorem boContribute_null {p : DWord} (h : p = 0) (s : State) (c part ab ac ec : Nat) : boContribute s c part p ab ac ec = s := by
  rw [h]
  rfl

/-- The copy once a branch has arrived where it fits. -/
def Copy.branched (cp : Copy) (branch : Nat) (bytes : List Byte) : Copy :=
  { cp with branches := tdel branch cp.branches, data := some bytes }

/-- The copy is changed in its queue. -/
def State.setCopy (s : State) (id : Nat) (cp : Copy) : State := { s with copies := tset id cp s.copies }

theorem locWrite_copies (s : State) (l : Loc) (bs : List Byte) : (locWrite s l bs).copies = s.copies := by
  induction bs generalizing s l with
  | nil => rfl
  | cons b bs ih => exact (ih (locSet s l b) (l.add 1)).trans (by cases l <;> rfl)

section
variable {s : State} {id branch core n a o : Nat} {cp : Copy} (hcp : tfind s.copies id = some cp)
  (hctx : ∀ l, tfind s.launches cp.launch = some l → l.ctx = [])

include hctx in
theorem launchScratch_resident (c : Nat) : launchScratch s cp.launch c = scratchSize (s.core c) := by
  unfold launchScratch
  cases hl : tfind s.launches cp.launch with
  | none => rfl
  | some l =>
    have hnone : (some l).bind (fun l => tfind l.ctx c) = none := by
      show tfind l.ctx c = none
      rw [hctx l hl]
      rfl
    rw [hnone]

variable (hbo : cp.bo = 0) (hruns : runsLaunch s core cp.launch = true) (hreach : cp.reach ≤ scratchSize (s.core core))

include hctx hbo hruns hreach

theorem branchFits_running : branchFits s cp core = true := by
  unfold branchFits
  simp only [launchScratch_resident hctx, hruns, hbo, decide_eq_true hreach, Bool.or_true]
  rfl

variable (hbranch : tfind cp.branches branch = some core) (hsrc : cp.src = [⟨.scratch cp.core a, n⟩])
  (hdst : cp.dst = [⟨.scratch cp.core o, n⟩]) (hdata : cp.data = none)
  (hfilled : unfilledAt s cp.core a n = false) (hfilledTo : unfilledAt s core o n = false)
  (hue : ueDetail s (.scratch cp.core a) n = none) (hbridge : bridgeDown s (dieOfCore cp.core) (dieOfCore core) = false)
include hcp hbranch hsrc hdst hdata hfilled hfilledTo hue hbridge

theorem execCpymcBranchArrival_writes : ∃ s1, Drawn s s1 ∧ exec (.cpymcBranchArrival id branch) s =
    .next (locWrite (s1.setCopy id (cp.branched branch (locRead s1 (.scratch cp.core a) n))) (.scratch core o)
      (locRead s1 (.scratch cp.core a) n)) := by
  have hdrawn : Drawn s (drawSegs s (awayCores s cp.launch) cp.src) := Drawn.drawSegs ..
  refine ⟨_, hdrawn, ?_⟩
  have hfits := branchFits_running hctx hbo hruns hreach
  have hdown : cp.src.any (segDown s cp.core cp.thread) = false := by rw [hsrc]; rfl
  have hwaits : cp.src.any (segWaits s) = false := by
    rw [hsrc]
    show (unfilledAt s cp.core a n || false) = false
    rw [hfilled]
    rfl
  have hbad : cp.src.any (segBad s) = false := by
    rw [hsrc]
    show (((ueDetail s (.scratch cp.core a) n).isSome || false) || false) = false
    rw [hue]
    rfl
  have hto : retarget core cp.dst = [⟨.scratch core o, n⟩] := by rw [hdst]; rfl
  have htoWaits : ([⟨.scratch core o, n⟩] : List Seg).any (segWaits s) = false := by
    show (unfilledAt s core o n || false) = false
    rw [hfilledTo]
    rfl
  have hlines : useSegs s cp.part cp.src = s := by rw [hsrc]; rfl
  have hread (s' : State) : segsRead s' cp.src = locRead s' (.scratch cp.core a) n := by rw [hsrc, segsRead_scratch]
  have hresident : ∀ l, tfind (drawSegs s (awayCores s cp.launch) cp.src).launches cp.launch = some l → l.ctx = [] := by
    rw [hdrawn.rest]
    exact hctx
  show execCpymcBranchArrival id branch s = _
  unfold execCpymcBranchArrival
  simp only [hcp, hbranch, hto, hfits, hdown, hwaits, hbad, hbridge, htoWaits, hdata, hlines, Option.isNone_none, Bool.and_false, Bool.or_false,
    Bool.false_eq_true, if_false, if_true, Option.getD_none, boContribute_null hbo]
  rw [withScratch_resident hresident, hread, segsWrite_one _ _ _ (locRead_length ..)]
  rfl

end

/-- What its bytes make of the scratch of the core where it arrives. -/
theorem mget_branched {s s1 s2 : State} (h : Drawn s s1) (h2 : s2.cores = s1.cores) (hwf : ∀ k, (s.core k).scratch.wf = true)
    (core o c a n k x : Nat) :
    mget ((locWrite s2 (.scratch core o) (locRead s1 (.scratch c a) n)).core k).scratch x =
      if k = core ∧ o ≤ x ∧ x < o + n then mget (s.core c).scratch (a + (x - o)) else mget (s.core k).scratch x := by
  have hscratch (u : Nat) : (s2.core u).scratch = (s.core u).scratch := by
    rw [← h.sameBytes.scratch u, State.core, h2]
    rfl
  rw [locWrite_scratch, hscratch, hscratch]
  by_cases hk : k = core
  · subst hk
    rw [if_pos rfl, mget_msets (hwf k), locRead_length]
    simp only [true_and]
    refine if_ctx_congr Iff.rfl (fun hin => ?_) fun _ => rfl
    rw [locRead_scratch, h.sameBytes.scratch, mgets_getD _ _ _ _ (by omega)]
  · rw [if_neg hk, if_neg fun hin => hk hin.1]

/-! ### A way change (R219, R254, R255) -/

/-- The core once a way change takes effect, its scratch of `old` bytes before. -/
def Core.withWays (n old : Nat) (rest : List (Nat × Nat)) (x : Core) : Core :=
  let new := 131072 * n
  { x with scrways := BitVec.ofNat 16 (2 ^ n - 1), ways := rest, scratch := mclear (mclear x.scratch new (old - new)) old (new - old)
           l1d := if old < new then x.l1d.take (1024 * (16 - n)) else x.l1d
           unfilled := (x.unfilled ||| (BitVec.ofNat 12 (2 ^ n - 1) &&& ~~~(BitVec.ofNat 12 (old / 131072 |> fun k => 2 ^ k - 1)))) &&&
             BitVec.ofNat 12 (2 ^ n - 1) }

theorem scratchSize_of_ways {n : Nat} (hn : n ≤ 12) {x : Core} (h : x.scrways = BitVec.ofNat 16 (2 ^ n - 1)) :
    scratchSize x = 131072 * n := by
  have hcount : ((List.range 16).filter (fun i => (BitVec.ofNat 16 (2 ^ n - 1)).getLsbD i)).length = n := by interval_cases n <;> decide
  rw [scratchSize, h, hcount, Nat.mul_comm]

section
variable {s : State} {core n mark : Nat} {rest : List (Nat × Nat)}

theorem waysRelease_none (h : ∀ p ∈ s.threads, ∀ o d par, p.2.run ≠ .waiting (.bowait (.scratch core o) d par)) (lo hi : Nat) :
    waysRelease s core lo hi = s := by
  refine foldl_fixed fun p hp => ?_
  split
  · next d o r par hw =>
    refine if_neg fun hin => h p hp o r par ?_
    rw [hw, hin.1]
  · rfl

theorem waysCheck_none (h : ∀ p ∈ s.threads, waitsAgain s p.1 = false) (c : Nat) : waysCheck s c = s := by
  refine foldl_fixed fun p hp => ?_
  exact if_pos (by rw [h p hp, Bool.not_false, Bool.or_true])

/-- The core's lines have been written back where ways are given to scratch. -/
def waysFlushed (s : State) (core n : Nat) : State :=
  if scratchSize (s.core core) < 131072 * n then l1FlushAll s core (partOfCluster s (clusterOf core)) else s

theorem waysFlushed_lines (s : State) (core n : Nat) : LinesMoved s (waysFlushed s core n) := by
  unfold waysFlushed
  split_ifs
  · exact LinesMoved.foldl (fun s l => LinesMoved.l1Flush s core _ l) _ s
  · exact .refl s

variable (hways : (s.core core).ways = (n, mark) :: rest)
  (hheld : waysHeld s core (131072 * n) (scratchSize (s.core core)) mark = false)
  (hquiet : ∀ p ∈ s.threads, waitsAgain s p.1 = false ∧ ∀ o d par, p.2.run ≠ .waiting (.bowait (.scratch core o) d par))
include hways hheld hquiet

theorem execWaysetTakesEffect_changes : exec (.waysetTakesEffect core) s =
    .next ((waysFlushed s core n).modCore core (Core.withWays n (scratchSize (s.core core)) rest)) := by
  have hthreads : ((waysFlushed s core n).modCore core (Core.withWays n (scratchSize (s.core core)) rest)).threads = s.threads :=
    (waysFlushed_lines s core n).threads
  have hagain (t : Nat) : waitsAgain ((waysFlushed s core n).modCore core (Core.withWays n (scratchSize (s.core core)) rest)) t =
      waitsAgain s t := by
    unfold waitsAgain State.thread
    rw [hthreads]
  have hrelease := waysRelease_none (s := (waysFlushed s core n).modCore core (Core.withWays n (scratchSize (s.core core)) rest))
    (core := core) (by rw [hthreads]; exact fun p hp => (hquiet p hp).2) (131072 * n) (scratchSize (s.core core))
  have hcheck := waysCheck_none (s := (waysFlushed s core n).modCore core (Core.withWays n (scratchSize (s.core core)) rest))
    (by rw [hthreads]; exact fun p hp => (hagain p.1).trans (hquiet p hp).1) core
  show execWaysetTakesEffect core s = _
  unfold execWaysetTakesEffect
  simp only [hways, hheld, Bool.false_eq_true, if_false]
  exact congrArg Host.Outcome.next ((congrArg (waysCheck · core) hrelease).trans hcheck)

end

/-- Bytes of the ways taken are lost, those of the ways given read 0. -/
theorem mget_withWays {x : Core} (h : x.scratch.wf = true) (n old : Nat) (rest : List (Nat × Nat)) (y : Nat) :
    mget (x.withWays n old rest).scratch y =
      if (131072 * n ≤ y ∧ y < old) ∨ (old ≤ y ∧ y < 131072 * n) then 0 else mget x.scratch y := by
  refine (mget_mclear (Mem.wf_mclear h ..) ..).trans ?_
  rw [mget_mclear h, ← ite_or]
  exact if_congr (by omega) rfl rfl

end Sys2Proof.Machine

open Sys2Proof Sys2Proof.Machine

/-- Settles O39: of a copy and of a branch, the bytes that they read and write; of a way change, the core that it makes and the threads
that it leaves. -/
theorem copiesBranchesAndWayChangesTakeEffect : Obligations.CopiesBranchesAndWayChangesTakeEffect := by
  unfold Obligations.CopiesBranchesAndWayChangesTakeEffect
  refine ⟨?copyEnd, ?branch, ?ways⟩
  case copyEnd =>
    intro s id n die a b tag cp hcp hrising hwf hsrc hdst hbytes htag hmc hwelt hmoved hb hlink hfilled hue hctx hquiet
    obtain ⟨s1, hdrawn, hexec⟩ := execCopyEnd_moves hcp hsrc hdst hmc hwelt hmoved hlink hfilled hue hctx
    have hwritten := locWrite_bank s1 die b (locRead s1 (.scratch cp.core a) n)
    have htags : tagOf (locWrite s1 (.bank die b) (locRead s1 (.scratch cp.core a) n)) cp.core tag = tagOf s cp.core tag := by
      rw [hwritten]
      show tget {} (s1.core cp.core).tags tag = _
      rw [hdrawn.core]
      rfl
    have hdone := copyDone_tag htag hquiet ((locWrite_threads ..).trans hdrawn.sameBytes.threads) htags id cp.bytes
    refine ⟨_, hexec.trans (congrArg Host.Outcome.next hdone), ?queue, fun d x hx => bankGet_copied hdrawn hwf hb hx, fun k => ?scratch,
      ?hbm, ?threads, ?groups, ?tag⟩
    case queue =>
      rw [hwritten, hdrawn.rest]
      exact (tfind_tdel hrising id id).trans (if_pos rfl)
    case scratch =>
      refine (setTag_scratch ..).trans ?_
      rw [hwritten]
      exact hdrawn.sameBytes.scratch k
    case hbm =>
      rw [hwritten]
      exact hdrawn.sameBytes.hbm
    case threads => exact (locWrite_threads ..).trans hdrawn.sameBytes.threads
    case groups =>
      refine (locWrite_groups ..).trans ?_
      rw [hdrawn.rest]
    case tag =>
      intro old new
      have hnew : new = old.ended := tagOf_setTag ..
      rw [hnew]
      exact ⟨rfl, rfl, rfl⟩
  case branch =>
    intro s id branch core n a o cp hcp hbranch hwf hsrc hdst hbo hdata hrising _ hruns hreach hfilled hfilledTo hue hctx hbridge
    obtain ⟨s1, hdrawn, hexec⟩ := execCpymcBranchArrival_writes hcp hctx hbo hruns hreach hbranch hsrc hdst hdata hfilled hfilledTo hue hbridge
    let cp' := cp.branched branch (locRead s1 (.scratch cp.core a) n)
    obtain ⟨hhbm, hbank⟩ := locWrite_scratch_leaves (s1.setCopy id cp') core o (locRead s1 (.scratch cp.core a) n)
    refine ⟨_, hexec, ⟨cp', ?copy, ?gone, rfl⟩, mget_branched (s2 := s1.setCopy id cp') hdrawn rfl hwf core o cp.core a n,
      hhbm.trans hdrawn.sameBytes.hbm, hbank.trans hdrawn.sameBytes.bank, (locWrite_threads ..).trans hdrawn.sameBytes.threads⟩
    case copy =>
      rw [locWrite_copies]
      exact tfind_tset_self ..
    case gone => exact (tfind_tdel hrising branch branch).trans (if_pos rfl)
  case ways =>
    intro s core n mark rest hways hn hwf hheld hquiet
    have hlines := waysFlushed_lines s core n
    have hcore : ((waysFlushed s core n).modCore core (Core.withWays n (scratchSize (s.core core)) rest)).core core =
        ((waysFlushed s core n).core core).withWays n (scratchSize (s.core core)) rest := (core_modCore ..).trans (if_pos rfl)
    refine ⟨_, execWaysetTakesEffect_changes hways hheld hquiet, (congrArg Core.scrways hcore :), (congrArg Core.ways hcore :),
      scratchSize_of_ways hn (congrArg Core.scrways hcore :), hlines.threads, fun x => ?_⟩
    rw [hcore, mget_withWays (by rw [hlines.scratch]; exact hwf), hlines.scratch]

end

section
/-! PROOFS. Welt tags, and the rounds at the stations (R237 to R244). -/

namespace Sys2Proof.Machine

set_option Elab.async false  -- theorem after theorem: every thread of a compile takes a stack of its own

/-! ### The instructions (R237, R238, R244) -/

section
variable {s s1 : State} {t e : Nat} {c : Ctl} {tr : Bool} {d : Reg} {obj : ObjSel} {b : Reg} {w : Welt} (h : Alone s t c)

/-- The pool of tags that an entry of TYPE 6 names is legal, and so is the descriptor, of an allocation `w`. -/
structure PoolNamed (s : State) (t : Nat) (obj : ObjSel) (b : Reg) (e : Nat) (s1 : State) (w : Welt) : Prop where
  captured : capture s (coreOfThread t) (s.partOf t) (objIdx (s.group (s.thread t).group) obj) = some (e, s1)
  valid : entryValid s1 (s.partOf t) (dieOfCore (coreOfThread t)) e = true
  type : oType e = 6
  right : oA e = true
  desc : weltDesc s1 (s.partOf t) (coreOfThread t) (regNat (s.thread t) (s.group (s.thread t).group) 8 b) = some w

/-- The allocation of a tag of the pool, by a thread's launch. -/
def Welt.allocated (w : Welt) (s s1 : State) (t n : Nat) : Welt :=
  { w with launch := (s.group (s.thread t).group).launch, station := stationOf s1 n }

/-- An allocation is set. -/
def State.setWelt (s : State) (key : Nat) (w : Welt) : State := { s with welts := tset key w s.welts }

/-- What WTALLOC does for the only thread of its instruction, once its pool and descriptor are found legal. -/
def wtallocLane (s s1 : State) (t : Nat) (c : Ctl) (tr : Bool) (d : Reg) (e : Nat) (w : Welt) : Lane :=
  match freeTag s1 (s.partOf t) (bitsAt e 32 32) (bitsAt e 64 16) with
  | some n => .retire (resultWaits (s1.setWelt (weltKey (s.partOf t) n) (w.allocated s s1 t n)) c t (.reg d [BitVec.ofNat 32 n]))
  | none => if tr then .retire (resultWaits s1 c t (.reg d [0])) else .hold (waitRoom s1 t)

include h

theorem execWtalloc_named (hp : PoolNamed s t obj b e s1 w) :
    exec (.wtalloc c tr d obj b) s = forOut c (unitsFor d []) (fun _ _ _ => wtallocLane s s1 t c tr d e w) s := by
  have hlead : (leadOf s c == some t) = true := by rw [leadOf_solo h.toSolo, beq_self_eq_true]
  show execWtalloc c tr d obj b s = _
  unfold execWtalloc
  rw [forOut_alone h, forOut_alone h]
  simp only [hp.captured, hp.valid, hp.type, hp.right, hp.desc, hlead, Bool.not_true, Bool.and_false, Bool.false_eq_true, if_false, ne_eq,
    not_true_eq_false, wtallocLane]
  rfl

theorem execWtalloc_takes (hp : PoolNamed s t obj b e s1 w) {n : Nat}
    (hn : freeTag s1 (s.partOf t) (bitsAt e 32 32) (bitsAt e 64 16) = some n) : exec (.wtalloc c tr d obj b) s = .next (finishedNext t
      (resultWaits (s1.setWelt (weltKey (s.partOf t) n) (w.allocated s s1 t n)) c t (.reg d [BitVec.ofNat 32 n]))) := by
  rw [execWtalloc_named h hp]
  refine forOut_retires h ?_
  unfold wtallocLane
  rw [hn]

theorem execWtalloc_none (hp : PoolNamed s t obj b e s1 w)
    (hn : freeTag s1 (s.partOf t) (bitsAt e 32 32) (bitsAt e 64 16) = none) :
    exec (.wtalloc c true d obj b) s = .next (finishedNext t (resultWaits s1 c t (.reg d [0]))) := by
  rw [execWtalloc_named h hp]
  refine forOut_retires h ?_
  unfold wtallocLane
  rw [hn]
  rfl

end

section
variable {s : State} {t : Nat} {c : Ctl} {a d : Reg} {b : Src} {w : Welt} (h : Alone s t c)

/-- The key of the tag in a register. -/
def tagKey (s : State) (t : Nat) (a : Reg) : Nat := weltKey (s.partOf t) (regW (s.thread t) (s.group (s.thread t).group) a).toNat

theorem weltOf_eq (s : State) (t : Nat) (a : Reg) : weltOf s s t a = (tagKey s t a, liveWelt s (tagKey s t a)) := rfl

include h

section
variable (hw : liveWelt s (tagKey s t a) = none)
include hw

theorem execWtfree_dead : exec (.wtfree c a) s = .next (finishedNext t s) := by
  refine forOut_retires h ?_
  simp only [weltOf_eq, hw]

theorem execWtquery_dead : exec (.wtquery c d a) s = .next (finishedNext t (resultWaits s c t (.reg d [0, 0]))) := by
  refine forOut_retires h ?_
  simp only [weltOf_eq, hw, retireLate_alone h]
  rfl

end

variable (hw : liveWelt s (tagKey s t a) = some w)
include hw

theorem execWtfree_empty (hk : w.kept = []) : exec (.wtfree c a) s =
    .next (finishedNext t (wakeRoom { s with welts := tdel (tagKey s t a) s.welts } (s.thread t).group)) := by
  refine forOut_retires h ?_
  simp only [weltOf_eq, hw, hk, List.isEmpty_nil, if_true]

theorem execWtfree_open (hk : w.kept ≠ []) : exec (.wtfree c a) s =
    .next (finishedNext t (wakeRoom (closeRound s (tagKey s t a) w 3) (s.thread t).group)) := by
  refine forOut_retires h ?_
  simp only [weltOf_eq, hw, List.isEmpty_eq_false_iff.2 hk, Bool.false_eq_true, if_false, orphan]

theorem execWtquery_live : exec (.wtquery c d a) s = .next (finishedNext t (resultWaits s c t (.nat d 2 (weltStatus s w)))) := by
  refine forOut_retires h ?_
  simp only [weltOf_eq, hw, retireLate_alone h]

/-- The allocation with its timer set anew. -/
def Welt.renewed (w : Welt) (timeout clock : Nat) : Welt :=
  { w with timeout := if timeout = 0 then w.timeout else timeout, started := if w.kept = [] then w.started else clock, expiring := false }

theorem execWtrenew_live (hb : srcNat (s.thread t) (s.group (s.thread t).group) 1 b ≤ 16777215) : exec (.wtrenew c a b) s =
    .next (finishedNext t (s.setWelt (tagKey s t a) (w.renewed (srcNat (s.thread t) (s.group (s.thread t).group) 1 b) s.clock))) := by
  refine forOut_retires h ((if_neg (Nat.not_lt.2 hb)).trans ?_)
  simp only [weltOf_eq, hw, List.isEmpty_iff]
  rfl

end

/-! ### An operand reaches its station (R240, R241) -/

/-- The elements are combined by rank: whether an operand was spilled is not seen. -/
theorem byRank_congr {k k' : List (Nat × Bool × List Byte)} (h : k.map (fun x => (x.1, x.2.2)) = k'.map (fun x => (x.1, x.2.2))) :
    byRank k = byRank k' := by
  have hfind (l : List (Nat × Bool × List Byte)) (r : Nat) : (l.find? (fun x => x.1 == r)).map (fun x => x.2.2) =
      ((l.map (fun x => (x.1, x.2.2))).find? (fun x => x.1 == r)).map (·.2) := by
    rw [List.find?_map, Option.map_map]
    rfl
  unfold byRank
  simp only [hfind, h]

theorem combine_congr {k k' : List (Nat × Bool × List Byte)} (h : k.map (fun x => (x.1, x.2.2)) = k'.map (fun x => (x.1, x.2.2)))
    (op size : Nat) : combine op size k = combine op size k' := by
  unfold combine
  rw [byRank_congr h]

/-- The allocation with an operand for which there is a slot. -/
def Welt.taken (w : Welt) (clock rank : Nat) (payload : List Byte) : Welt :=
  { w with
    kept := w.kept ++ [(rank, if keepsAll w.op || w.kept.isEmpty then false else w.kept.any (fun k => k.2.1), payload)]
    slots := w.slots + (keepsAll w.op || w.kept.isEmpty).toNat
    started := if w.kept.isEmpty then clock else w.started }

theorem taken_kept (w : Welt) (clock rank : Nat) (payload : List Byte) :
    (w.taken clock rank payload).kept.map (fun k => (k.1, k.2.2)) = w.kept.map (fun k => (k.1, k.2.2)) ++ [(rank, payload)] :=
  List.map_append ..

theorem taken_length (w : Welt) (clock rank : Nat) (payload : List Byte) : (w.taken clock rank payload).kept.length = w.kept.length + 1 :=
  List.length_append ..

section
variable {s : State} {part tag rank size : Nat} {w : Welt} (hw : liveWelt s (weltKey part tag) = some w) (hrank : rank < w.arity)
  (hsize : size = w.size) (hnew : ∀ k ∈ w.kept, k.1 ≠ rank) (hslot : slotsUsed s part w.station < (s.part part).pslots)
include hw hrank hsize hnew hslot

theorem weltTake_keeps (payload : List Byte) : weltTake s part tag rank size payload =
    (0, if w.kept.length + 1 = w.arity
      then closeRound (s.setWelt (weltKey part tag) (w.taken s.clock rank payload)) (weltKey part tag) (w.taken s.clock rank payload) 0
      else s.setWelt (weltKey part tag) (w.taken s.clock rank payload)) := by
  have hother : w.kept.any (fun k => k.1 == rank) = false := by
    rw [List.any_eq_false]
    exact fun k hk => fun heq => hnew k hk (beq_iff_eq.1 heq)
  have hbad : ¬(w.arity ≤ rank ∨ size ≠ w.size) := by omega
  unfold weltTake
  simp only [hw, if_neg hbad, hother, decide_eq_true hslot, Bool.false_eq_true, if_false, Bool.not_true, Bool.and_false, Bool.false_and,
    Bool.and_true, Bool.toNat_false, Nat.add_zero]
  rw [apply_ite (Prod.mk 0), ← taken_length w s.clock rank payload]
  rfl

end

/-- The station once it has kept an operand: the last of a round closes it. -/
def operandKept (s : State) (key : Nat) (w : Welt) (rank : Nat) (payload : List Byte) : State :=
  if w.kept.length + 1 = w.arity
    then closeRound (s.setWelt key (w.taken s.clock rank payload)) key (w.taken s.clock rank payload) 0
    else s.setWelt key (w.taken s.clock rank payload)

section
variable (s : State) (key : Nat) (w : Welt) (rank : Nat) (payload : List Byte)

/-- The rest of the machine is as it was. -/
theorem operandKept_leaves : operandKept s key w rank payload =
    { s with nextId := (operandKept s key w rank payload).nextId, welts := (operandKept s key w rank payload).welts
             rounds := (operandKept s key w rank payload).rounds } := by
  unfold operandKept
  split_ifs <;> rfl

theorem operandKept_open (h : w.kept.length + 1 ≠ w.arity) :
    tfind (operandKept s key w rank payload).welts key = some (w.taken s.clock rank payload) := by
  unfold operandKept
  rw [if_neg h]
  exact tfind_tset_self ..

theorem operandKept_closes (h : w.kept.length + 1 = w.arity) :
    ∃ w' r, tfind (operandKept s key w rank payload).welts key = some w' ∧ w'.kept = [] ∧
      tfind (operandKept s key w rank payload).rounds s.nextId = some r ∧ r.code = 0 ∧ r.dest = w.dest ∧ r.bo = w.bo ∧
      r.result = combine w.op w.size (w.kept ++ [(rank, false, payload)]) := by
  unfold operandKept
  rw [if_pos h]
  refine ⟨_, _, tfind_tset_self .., rfl, tfind_tset_self .., rfl, rfl, rfl, combine_congr ?_ _ _⟩
  rw [taken_kept, List.map_append]
  rfl

end

section
variable {s : State} {id tag rank size n : Nat} {cp : Copy} {w : Welt} (hcp : tfind s.copies id = some cp)
  (hwelt : cp.welt = some (tag, rank, size)) (htag : cp.tag = some n) (hwaits : cp.src.any (segWaits s) = false)
  (hbad : cp.src.any (segBad s) = false) (hbridge : bridgeDown s (dieOfCore cp.core) (stationDie s (stationOf s tag)) = false)
  (hw : liveWelt s (weltKey cp.part tag) = some w) (hrank : rank < w.arity) (hsize : size = w.size) (hnew : ∀ k ∈ w.kept, k.1 ≠ rank)
  (hslot : slotsUsed s cp.part w.station < (s.part cp.part).pslots)
  (hquiet : ∀ p ∈ s.threads, ∀ all d q m, p.2.run ≠ .waiting (.tags all d q m))
include hcp hwelt htag hwaits hbad hbridge hw hrank hsize hnew hslot hquiet

/-- A copy or send leaves its queue. -/
def State.dropCopy (s : State) (id : Nat) : State := { s with copies := tdel id s.copies }

/-- The operand is kept, the send leaves the queue and its tag learns its end. -/
theorem execWeltArrival_keeps : ∃ s1 g, Drawn s s1 ∧ exec (.weltArrival id) s =
    .next (((operandKept s1 (weltKey cp.part tag) w rank (segsRead s cp.src)).dropCopy id).setTag cp.core n g) := by
  have hdrawn : Drawn s (drawSegs s [] cp.src) := Drawn.drawSegs ..
  generalize hs1 : drawSegs s [] cp.src = s1 at hdrawn
  have hlive : liveWelt s1 (weltKey cp.part tag) = some w := by
    rw [hdrawn.rest]
    exact hw
  have hslots : slotsUsed s1 cp.part w.station < (s1.part cp.part).pslots := by
    rw [hdrawn.rest]
    exact hslot
  have hthreads : (operandKept s1 (weltKey cp.part tag) w rank (segsRead s cp.src)).threads = s.threads := by
    rw [operandKept_leaves, hdrawn.rest]
  refine ⟨s1, (tagOf ((operandKept s1 (weltKey cp.part tag) w rank (segsRead s cp.src)).dropCopy id) cp.core n).ended, hdrawn, ?_⟩
  rw [← tagEnd_quiet (s := (operandKept s1 (weltKey cp.part tag) w rank (segsRead s cp.src)).dropCopy id)
    (by rw [← hthreads] at hquiet; exact hquiet)]
  show execWeltArrival id s = _
  unfold execWeltArrival
  simp only [hcp, hwelt, htag, hwaits, hbad, hbridge, Bool.or_false, Bool.false_eq_true, if_false, hs1,
    weltTake_keeps hlive hrank hsize hnew hslots]
  rfl

end

/-! ### A round is delivered (R242) -/

/-- Of an expired round the allocation is freed; nothing else but its launch changes. -/
theorem endRound_leaves (s : State) (r : Round) : (∃ welts launches, endRound s r = { s with welts, launches }) ∧
    ∀ key, r.frees = some key → (endRound s r).welts = tdel key s.welts := by
  unfold endRound
  cases r.frees with
  | none => exact ⟨⟨s.welts, s.launches, rfl⟩, fun key hkey => by cases hkey⟩
  | some key => exact ⟨⟨_, _, rfl⟩, fun key' hkey => by cases hkey; rfl⟩

section
variable {s : State} {id b : Nat} {r : Round} (hr : tfind s.rounds id = some r) (hspace : ptrSpace r.dest = 2) (hbo : r.bo = 0)
  (hloc : boLoc s 0 r.part r.dest = some (.bank (bankDie r.dest) b))
  (hbridge : bridgeDown s (stationDie s r.station) (bankDie r.dest) = false)
include hr hspace hbo hloc hbridge

theorem execRoundDelivery_bank : exec (.roundDelivery id none) s =
    .next (endRound (locWrite { s with rounds := tdel id s.rounds } (.bank (bankDie r.dest) b) r.result) r) := by
  have hplace : boLoc { s with rounds := tdel id s.rounds } 0 r.part r.dest = some (.bank (bankDie r.dest) b) := hloc
  show execRoundDelivery id none s = _
  unfold execRoundDelivery
  simp only [hr, hspace, hbridge, hplace, hbo, beq_self_eq_true, Bool.and_false, if_true]
  rfl

end

/-! ### An overdue round expires (R243) -/

theorem closeRound_leaves (s : State) (key : Nat) (w : Welt) (code : Nat) :
    ((closeRound s key w code).hbm, (closeRound s key w code).threads, (closeRound s key w code).clock, (closeRound s key w code).dies) =
      (s.hbm, s.threads, s.clock, s.dies) := rfl

/-- An open round, overdue with the end of `n` clocks, expires. -/
def expireOne (n : Nat) (s : State) (p : Nat × Welt) : State :=
  if !p.2.kept.isEmpty && (p.2.expiring || decide (weltDue s p.2 + stationClocks s p.2.station 2 ≤ s.clock + n)) then orphan s p.1 p.2 else s

theorem weltExpire_eq (s : State) (n : Nat) : weltExpire s n = s.welts.foldl (expireOne n) s := rfl

/-- What an expiry leaves alone. -/
def untouched (s : State) : Mem × Tbl Thread × Nat × Tbl Die := (s.hbm, s.threads, s.clock, s.dies)

theorem expireOne_untouched (n : Nat) (s : State) (p : Nat × Welt) : untouched (expireOne n s p) = untouched s := by
  unfold expireOne
  split_ifs
  · exact closeRound_leaves ..
  · rfl

/-- The allocation `key` is dead, and its round with the elements `result` waits to be delivered. -/
structure Orphaned (s : State) (key : Nat) (result : List Byte) : Prop where
  dead : ∃ w, tfind s.welts key = some w ∧ w.expired = true
  round : ∃ id r, id < s.nextId ∧ tfind s.rounds id = some r ∧ r.part = key / 2 ^ 32 ∧ r.code = 3 ∧ r.frees = some key ∧ r.result = result

theorem orphan_orphaned (s : State) (key : Nat) (w : Welt) : Orphaned (orphan s key w) key (combine w.op w.size w.kept) :=
  ⟨⟨_, tfind_tset_self .., rfl⟩, s.nextId, _, Nat.lt_succ_self _, tfind_tset_self .., rfl, rfl, rfl, rfl⟩

/-- It stays so while other allocations expire. -/
theorem Orphaned.expireOne {s : State} {key : Nat} {result : List Byte} (h : Orphaned s key result) (n : Nat) {p : Nat × Welt}
    (hp : p.1 ≠ key) : Orphaned (expireOne n s p) key result := by
  obtain ⟨⟨w, hw, hexp⟩, id, r, hid, hr, hround⟩ := h
  unfold Machine.expireOne
  split_ifs
  · refine ⟨⟨w, ?_, hexp⟩, id, r, Nat.lt_succ_of_lt hid, ?_, hround⟩
    · exact (tfind_tset_ne (Ne.symm hp) ..).trans hw
    · exact (tfind_tset_ne (Nat.ne_of_lt hid) ..).trans hr
  · exact ⟨⟨w, hw, hexp⟩, id, r, hid, hr, hround⟩

theorem Orphaned.foldl {s : State} {key : Nat} {result : List Byte} (h : Orphaned s key result) (n : Nat) {ps : Tbl Welt}
    (hps : ∀ p ∈ ps, p.1 ≠ key) : Orphaned (ps.foldl (Machine.expireOne n) s) key result := by
  induction ps generalizing s with
  | nil => exact h
  | cons p ps ih => exact ih (h.expireOne n (hps p (List.mem_cons_self ..))) fun q hq => hps q (List.mem_cons_of_mem _ hq)

/-- An overdue round, in a state with the clocks of then. -/
theorem expireOne_overdue {s s' : State} (h : untouched s' = untouched s) {n key : Nat} {w : Welt} (hk : w.kept ≠ [])
    (hdue : w.expiring = true ∨ weltDue s w + stationClocks s w.station 2 ≤ s.clock + n) :
    expireOne n s' (key, w) = orphan s' key w := by
  have hclock : s'.clock = s.clock := congrArg (fun x => x.2.2.1) h
  have hdies : s'.dies = s.dies := congrArg (fun x => x.2.2.2) h
  have hsame : weltDue s' w = weltDue s w ∧ stationClocks s' w.station 2 = stationClocks s w.station 2 := by
    have hstations : stationsOfDie s' = stationsOfDie s := funext fun d => by unfold stationsOfDie State.die; rw [hdies]
    simp only [weltDue, stationClocks, stationDie, hstations, State.die, hdies, and_self]
  refine if_pos ?_
  show (!w.kept.isEmpty && (w.expiring || decide (weltDue s' w + stationClocks s' w.station 2 ≤ s'.clock + n))) = true
  rw [hsame.1, hsame.2, hclock, List.isEmpty_eq_false_iff.2 hk]
  simpa using hdue

theorem weltExpire_orphans {s : State} {key n : Nat} {w : Welt} (hw : tfind s.welts key = some w) (hrising : Rising s.welts)
    (hk : w.kept ≠ []) (hdue : w.expiring = true ∨ weltDue s w + stationClocks s w.station 2 ≤ s.clock + n) :
    Orphaned (weltExpire s n) key (combine w.op w.size w.kept) ∧ untouched (weltExpire s n) = untouched s := by
  refine ⟨?_, foldl_keeps untouched (expireOne_untouched n) s.welts s⟩
  obtain ⟨before, after, hsplit⟩ := List.append_of_mem (mem_of_tfind hw)
  have hafter : ∀ p ∈ after, p.1 ≠ key := by
    rw [hsplit] at hrising
    exact fun p hp => Nat.ne_of_gt (List.rel_of_pairwise_cons (List.pairwise_append.1 hrising).2.1 hp)
  rw [weltExpire_eq, hsplit, List.foldl_append, List.foldl_cons,
    expireOne_overdue (foldl_keeps untouched (expireOne_untouched n) before s) hk hdue]
  exact (orphan_orphaned ..).foldl n hafter

end Sys2Proof.Machine

open Sys2Proof Sys2Proof.Machine

/-- Settles O42: each instruction by the allocation of its tag; an arrival by the operand that its station keeps; a delivery by the bytes
that it writes; an expiry by the fold over the allocations, of which each makes its own round. -/
theorem weltInstructionsAndRounds : Obligations.WeltInstructionsAndRounds := by
  unfold Obligations.WeltInstructionsAndRounds
  refine ⟨fun s t c h => ⟨?alloc, ?tags⟩, ?arrival, ?delivery, ?expiry⟩
  case alloc =>
    intro tr d obj b e s1 w hcap hvalid htype hright hdesc
    have hp : PoolNamed s t obj b e s1 w := ⟨hcap, hvalid, htype, hright, hdesc⟩
    exact ⟨fun n hn => execWtalloc_takes h hp hn, execWtalloc_none h hp⟩
  case tags =>
    intro a key
    exact ⟨fun hw => ⟨execWtfree_dead h hw, fun d => execWtquery_dead h hw⟩, fun w hw => ⟨execWtfree_empty h hw, execWtfree_open h hw,
      fun d => execWtquery_live h hw, fun b hb => execWtrenew_live h hw hb⟩⟩
  case arrival =>
    intro s id tag rank size n cp w hcp hrising hwelt htag hwaits hbad hbridge hw hrank hsize hnew hslot hquiet
    obtain ⟨s1, g, hdrawn, hexec⟩ := execWeltArrival_keeps hcp hwelt htag hwaits hbad hbridge hw hrank hsize hnew hslot hquiet
    have hleaves := operandKept_leaves s1 (weltKey cp.part tag) w rank (segsRead s cp.src)
    refine ⟨_, hexec, ?queue, ?hbm, ?bank, fun hopen => ?isOpen, fun hlast => ?isLast⟩
    case queue =>
      show tfind (tdel id (operandKept s1 (weltKey cp.part tag) w rank (segsRead s cp.src)).copies) id = none
      rw [hleaves, hdrawn.rest]
      exact (tfind_tdel hrising id id).trans (if_pos rfl)
    case hbm =>
      show (operandKept s1 (weltKey cp.part tag) w rank (segsRead s cp.src)).hbm = _
      rw [hleaves]
      exact hdrawn.sameBytes.hbm
    case bank =>
      show (operandKept s1 (weltKey cp.part tag) w rank (segsRead s cp.src)).bank = _
      rw [hleaves]
      exact hdrawn.sameBytes.bank
    case isOpen => exact ⟨_, operandKept_open s1 (weltKey cp.part tag) w rank (segsRead s cp.src) hopen, taken_kept ..⟩
    case isLast =>
      have hnext : s1.nextId = s.nextId := by rw [hdrawn.rest]
      rw [← hnext]
      exact operandKept_closes s1 (weltKey cp.part tag) w rank (segsRead s cp.src) hlast
  case delivery =>
    intro s id b r hr hrising hspace hbo hloc hwf hb hbridge
    have hwritten := locWrite_bank { s with rounds := tdel id s.rounds } (bankDie r.dest) b r.result
    obtain ⟨⟨welts, launches, hend⟩, hfrees⟩ :=
      endRound_leaves (locWrite { s with rounds := tdel id s.rounds } (.bank (bankDie r.dest) b) r.result) r
    refine ⟨_, execRoundDelivery_bank hr hspace hbo hloc hbridge, ?round, ?hbm, ?threads, fun key hkey hw => ?freed, fun d x hx => ?bytes⟩
    case round =>
      rw [hend, hwritten]
      exact (tfind_tdel hrising id id).trans (if_pos rfl)
    case hbm => rw [hend, hwritten]
    case threads => rw [hend, hwritten]
    case freed =>
      rw [hfrees key hkey, hwritten]
      exact (tfind_tdel hw key key).trans (if_pos rfl)
    case bytes =>
      rw [hend]
      exact bankGet_locWrite (s := { s with rounds := tdel id s.rounds }) hwf hb hx
  case expiry =>
    intro s part tag w hw hrising hk
    refine ⟨fun hdue => ?timer, fun n hdue => ?clock⟩
    case timer =>
      show execOrphanExpiry part tag s = _
      unfold execOrphanExpiry
      simp only [hw, List.isEmpty_eq_false_iff.2 hk, decide_eq_true hdue, Bool.not_false, Bool.and_self, if_true]
    case clock =>
      obtain ⟨hlive, -⟩ := Option.filter_eq_some_iff.1 hw
      obtain ⟨⟨⟨w', hw', hexp⟩, id, r, -, hr, hpart, hcode, hfrees, hresult⟩, hsame⟩ := weltExpire_orphans hlive hrising hk hdue
      refine ⟨?dead, congrArg Prod.fst hsame, congrArg (fun x => x.2.1) hsame, id, r, hr, ?part, hcode, hfrees, hresult⟩
      case dead =>
        unfold liveWelt
        rw [hw']
        show (if (!w'.expired) = true then some w' else none) = none
        rw [hexp]
        rfl
      case part =>
        rw [hpart, weltKey]
        omega

end
